-- ==== Sys2Proof/Word.lean ====
section
/-!
DEFINITION. The word types of the JL-16 and their plainest arithmetic (spec/00_scope.md R7, R8).
Bit fields, sign extension and byte order are in Machine/Bits.lean, where a repair can mend them.
-/
namespace Sys2Proof

/-- A 64-bit word (00 R8). -/
abbrev Word := BitVec 64

/-- One byte of memory. -/
abbrev Byte := BitVec 8

/-- The number of an x register, x0 to x31 (06 R135). -/
abbrev Reg := Fin 32

end Sys2Proof
end

