-- ==== Sys2Proof/Syntax.lean ====
section
/-!
DEFINITION. The instructions and events of the JL-16: one constructor of `Instr` for each row of the opcode table
(spec/opcode_table.json), with the operand shapes of spec/05_encoding.md. The rows that have no encoding are events:
steps of the engines, the cobblers, the links and the masters (spec/95_what_each_step_holds.md); their operands name
the agent that moves and what the outside world supplies.
-/
namespace Sys2Proof

/-- Operations of AMO and VAMO (05 R109). -/
inductive AmoOp where
  | add | and | or | xor | min | max | minu | maxu | swap
  deriving DecidableEq, Repr

/-- The 3-bit ordering code (05 R108). -/
inductive Ord where
  | none | acqDie | acqPkg | relDie | relPkg | scDie | scPkg
  deriving DecidableEq, Repr

/-- Type suffix of a scalar floating-point instruction (05 R107). -/
inductive FType where
  | bf16 | fp16 | fp32 | fp64
  deriving DecidableEq, Repr

/-- FCMP conditions (05 R107). -/
inductive FCond where
  | eq | lt | le | un
  deriving DecidableEq, Repr

/-- FCVT type codes 0 to 5 (05 R107). -/
inductive CvtType where
  | bf16 | fp16 | fp32 | fp64 | i64 | n64
  deriving DecidableEq, Repr

/-- FENCE scopes 0 to 4 (05 R110). -/
inductive Scope where
  | seq | clu | die | pkg | sys
  deriving DecidableEq, Repr

/-- Path classes of FENCEX (05 R110). -/
inductive PathClass where
  | v | m | a | p | h
  deriving DecidableEq, Repr

/-- Barrier scopes (19 R452). -/
inductive BScope where
  | clu | die | pkg | stg
  deriving DecidableEq, Repr

/-- The control registers that MOVC and MOVCW name (05 R111). -/
inductive CReg where
  | vl | vtype | vlmax | vcap | cmask0 | cmask1 | cvalid | cld | cgkey | cgdraw | cflags | ctrap | csump | cprio
  | cstage | cid | cquota | cdet | cptbase | sq0 | sq1 | sq2 | sq3
  deriving DecidableEq, Repr

/-- Field codes of a tile descriptor (05 R110; 10 R254). -/
inductive TdField where
  | base | base2 | rows | cols | etype | stride | orow | ocol | gwidth | stream
  deriving DecidableEq, Repr

/-- A 7-bit operand specifier (01 R24): unit stride, strided, indexed, or an x register. -/
inductive Spec where
  | unit (r : Reg) | stride (r : Reg) | index (r : Reg) | scal (r : Reg)
  deriving DecidableEq, Repr

/-- Mask select (01 R25). -/
inductive MSel where
  | none | cmask0 | cmask1 | notCmask0
  deriving DecidableEq, Repr

/-- VCMP conditions (07 R191). -/
inductive ICond where
  | eq | ne | lt | ge | ltu | geu
  deriving DecidableEq, Repr

/-- VFCMP conditions (07 R191). -/
inductive VFCond where
  | eq | ne | lt | le | un
  deriving DecidableEq, Repr

/-- Operations of VSCAN and the reductions (07 R202, R204). -/
inductive RedOp where
  | sum | max | min | and | or | xor
  deriving DecidableEq, Repr

/-- Operands of a 48-bit instruction with a destination alone (05 R115). -/
structure VD where
  d : Spec
  mask : MSel
  deriving DecidableEq, Repr

/-- Operands of a 48-bit instruction whose result goes to an x register: A, its policy, the mask. -/
structure VA1 where
  a : Spec
  pa : Bool
  mask : MSel
  deriving DecidableEq, Repr

/-- Operands D, A of a 48-bit instruction, A's full/empty policy (`true` is `:t`, 01 R27) and the mask. -/
structure VA where
  d : Spec
  a : Spec
  pa : Bool
  mask : MSel
  deriving DecidableEq, Repr

/-- Operands D, A, B of a 48-bit instruction. -/
structure VAB where
  d : Spec
  a : Spec
  b : Spec
  pa : Bool
  pb : Bool
  mask : MSel
  deriving DecidableEq, Repr

/-- Operands D, A, B, C of a 48-bit instruction. -/
structure VABC where
  d : Spec
  a : Spec
  b : Spec
  c : Spec
  pa : Bool
  pb : Bool
  pc : Bool
  mask : MSel
  deriving DecidableEq, Repr

/-- VCVT's source type: EW code and PREC field (07 R197). -/
structure SrcType where
  code : BitVec 5
  prec : BitVec 4
  deriving DecidableEq, Repr

/-- The fields that the pump instructions share (11 R283). -/
structure PumpArgs where
  tag : BitVec 16
  xp : Reg
  xl : Reg
  sz : BitVec 3
  pol : Bool
  mask : MSel
  deriving DecidableEq, Repr

/-- ATTN's placement hint (12 R304). -/
inductive AttnHint where
  | ae | me | auto
  deriving DecidableEq, Repr

/-- The masters of 21 R505. -/
inductive Master where
  | host | mc | debug | peer
  deriving DecidableEq, Repr

/-- What an access needs of a page (13 R332). -/
inductive Access where
  | fetch | load | store | atomic
  deriving DecidableEq, Repr

/-- A host access over CXL.mem (20 R474). -/
inductive HostAcc where
  | read (n : Nat) | write (bytes : List Byte)
  deriving DecidableEq, Repr

/-- A request that arrives from a peer (20 R482). A reduce-add carries one element, its vtype and the uniform draw of
stochastic rounding. -/
inductive PeerReq where
  | read (n : Nat) | write (bytes : List Byte) | reduce (vtype : Word) (u : Nat) (bytes : List Byte) | phaseAdd (e : Word)
  deriving DecidableEq, Repr

/-- A request to the SPDM responder: measurements, or the owner's enrolment of a customer key (17 R437, R438). -/
inductive SpdmReq where
  | measure (nonce : Nat) | enrol (m : Master) (key : BitVec 2) (x y : Nat)
  deriving DecidableEq, Repr

/-- An access of the debug port (21 R509): a byte of a physical address with its full/empty bit, an x register, the pc or a
control register of a sequencer, an accumulator entry, a tile descriptor, a stream register, a loop or a comparator of a sequencer, an
entry of its version buffers, of the queue of an engine, a pump, a group or the die's tasks, of a link's classes, or a write of a
BAR0 register; and a master's read of a BAR0 register (00 R6; log 98). -/
inductive DebugAcc where
  | readMem (addr : Nat) | readReg (m : Master) (off : Nat) | readX (sq : Nat) (r : Reg) | readAcc (die eng idx : Nat)
  | readPc (sq : Nat) | readCreg (sq : Nat) (c : CReg) | readVersion (sq idx : Nat) | readEngine (die eng idx : Nat)
  | readLink (link cls : Nat) | readDesc (sq idx : Nat) | readStream (sq idx : Nat) | readLoop (sq idx : Nat)
  | readBkpt (sq idx : Nat) | readPump (die pump idx : Nat) | readCommand (sq idx : Nat) | readTask (die idx : Nat)
  | writeReg (off : Nat) (val : Word)
  deriving DecidableEq, Repr

/-- The encoded instructions in the order of the opcode table, then the events in that order. -/
inductive Instr where
  /-- ADD (R137): xd := (xa + xb) mod 2^64. -/
  | add (rd ra rb : Reg)
  /-- SUB (R137): xd := (xa - xb) mod 2^64. -/
  | sub (rd ra rb : Reg)
  /-- MUL (R137): xd := bits 63:0 of xa times xb. -/
  | mul (rd ra rb : Reg)
  /-- MULH (R137): xd := bits 127:64 of the signed product. -/
  | mulh (rd ra rb : Reg)
  /-- MULHU (R137): xd := bits 127:64 of the unsigned product. -/
  | mulhu (rd ra rb : Reg)
  /-- DIV (R138): Signed quotient truncated toward zero, never trapping. -/
  | div (rd ra rb : Reg)
  /-- DIVU (R138): Unsigned quotient, all ones for a zero divisor. -/
  | divu (rd ra rb : Reg)
  /-- REM (R138): Signed remainder with the sign of xa; xa for a zero divisor. -/
  | rem (rd ra rb : Reg)
  /-- REMU (R138): Unsigned remainder; xa for a zero divisor. -/
  | remu (rd ra rb : Reg)
  /-- AND (R137): Bitwise AND of xa and xb. -/
  | and (rd ra rb : Reg)
  /-- OR (R137): Bitwise OR of xa and xb. -/
  | or (rd ra rb : Reg)
  /-- XOR (R137): Bitwise XOR of xa and xb. -/
  | xor (rd ra rb : Reg)
  /-- ANDN (R137): xd := xa AND NOT xb. -/
  | andn (rd ra rb : Reg)
  /-- SLL (R137): xa shifted left by xb[5:0]. -/
  | sll (rd ra rb : Reg)
  /-- SRL (R137): xa shifted right with zeros by xb[5:0]. -/
  | srl (rd ra rb : Reg)
  /-- SRA (R137): xa shifted right with copies of bit 63 by xb[5:0]. -/
  | sra (rd ra rb : Reg)
  /-- SLT (R137): xd := 1 if xa < xb signed, else 0. -/
  | slt (rd ra rb : Reg)
  /-- SLTU (R137): xd := 1 if xa < xb unsigned, else 0. -/
  | sltu (rd ra rb : Reg)
  /-- MIN (R137): Signed minimum of xa and xb. -/
  | min (rd ra rb : Reg)
  /-- MAX (R137): Signed maximum of xa and xb. -/
  | max (rd ra rb : Reg)
  /-- MINU (R137): Unsigned minimum of xa and xb. -/
  | minu (rd ra rb : Reg)
  /-- MAXU (R137): Unsigned maximum of xa and xb. -/
  | maxu (rd ra rb : Reg)
  /-- CLZ (R137): Leading zeros of xa, 64 for zero. -/
  | clz (rd ra : Reg)
  /-- CTZ (R137): Trailing zeros of xa, 64 for zero. -/
  | ctz (rd ra : Reg)
  /-- POPC (R137): Number of set bits of xa. -/
  | popc (rd ra : Reg)
  /-- ADDI (R139): xd := xa + sign-extended imm15. -/
  | addi (rd ra : Reg) (imm : BitVec 15)
  /-- ANDI (R139): xd := xa AND sign-extended imm15. -/
  | andi (rd ra : Reg) (imm : BitVec 15)
  /-- ORI (R139): xd := xa OR sign-extended imm15. -/
  | ori (rd ra : Reg) (imm : BitVec 15)
  /-- XORI (R139): xd := xa XOR sign-extended imm15. -/
  | xori (rd ra : Reg) (imm : BitVec 15)
  /-- SLTI (R139): xd := 1 if xa < sign-extended imm15 signed. -/
  | slti (rd ra : Reg) (imm : BitVec 15)
  /-- SLLI (R139): xa shifted left by imm15[5:0]. -/
  | slli (rd ra : Reg) (sh : BitVec 6)
  /-- SRLI (R139): xa shifted right with zeros by imm15[5:0]. -/
  | srli (rd ra : Reg) (sh : BitVec 6)
  /-- SRAI (R139): xa shifted right arithmetically by imm15[5:0]. -/
  | srai (rd ra : Reg) (sh : BitVec 6)
  /-- LI_SHORT (R139): xd := sign-extended imm20. -/
  | liShort (rd : Reg) (imm : BitVec 20)
  /-- LI_LONG (R139): 64-bit form: xd := sign-extended imm32. -/
  | liLong (rd : Reg) (imm : BitVec 32)
  /-- LI_HI (R139): xd[63:32] := imm32, keeping xd[31:0]. -/
  | liHi (rd : Reg) (imm : BitVec 32)
  /-- LD (R141): Aligned 64-bit load from xa + imm15 into xd, waiting on an empty cistern word. -/
  | ld (rd ra : Reg) (imm : BitVec 15)
  /-- ST (R141): Aligned 64-bit store of the register in bits 11:7 to xa + imm15, marking the cistern word full. -/
  | st (rs ra : Reg) (imm : BitVec 15)
  /-- LDFE (R142): Waits for a full cistern word, then reads it into xd and marks it empty indivisibly. -/
  | ldfe (rd ra : Reg) (imm : BitVec 15)
  /-- AMO (R143): Indivisible read-modify-write at xa with the operation, width and ordering code of its fields, returning the old value. -/
  | amo (op : AmoOp) (ord : Ord) (w : Bool) (rd rb ra : Reg)
  /-- AMOCAS (R143): Indivisible compare-and-swap at xa of xd against the old value, storing xb on success. -/
  | amocas (ord : Ord) (w : Bool) (rd rb ra : Reg)
  /-- FADD (R146): Scalar floating add rounded by RoundW. -/
  | fadd (t : FType) (rd ra rb : Reg)
  /-- FSUB (R146): Scalar floating subtract. -/
  | fsub (t : FType) (rd ra rb : Reg)
  /-- FMUL (R146): Scalar floating multiply. -/
  | fmul (t : FType) (rd ra rb : Reg)
  /-- FFMA (R146): xd := xa times xb plus xd with one rounding. -/
  | ffma (t : FType) (rd ra rb : Reg)
  /-- FDIV (R146): Scalar floating divide. -/
  | fdiv (t : FType) (rd ra rb : Reg)
  /-- FSQRT (R146): Scalar floating square root. -/
  | fsqrt (t : FType) (rd ra : Reg)
  /-- FMIN (R147): Scalar floating minimum with -0 below +0. -/
  | fmin (t : FType) (rd ra rb : Reg)
  /-- FMAX (R147): Scalar floating maximum with -0 below +0. -/
  | fmax (t : FType) (rd ra rb : Reg)
  /-- FCMP (R148): Writes 1 when the selected comparison condition holds, else 0. -/
  | fcmp (c : FCond) (t : FType) (rd ra rb : Reg)
  /-- FCVT (R149): Converts xa between floating-point and integer types under RoundW or R69. -/
  | fcvt (dst src : CvtType) (rd ra : Reg)
  /-- BEQ (R150): Branches when xa equals xb. -/
  | beq (ra rb : Reg) (off : BitVec 15)
  /-- BNE (R150): Branches when xa differs from xb. -/
  | bne (ra rb : Reg) (off : BitVec 15)
  /-- BLT (R150): Branches when xa < xb signed. -/
  | blt (ra rb : Reg) (off : BitVec 15)
  /-- BGE (R150): Branches when xa >= xb signed. -/
  | bge (ra rb : Reg) (off : BitVec 15)
  /-- BLTU (R150): Branches when xa < xb unsigned. -/
  | bltu (ra rb : Reg) (off : BitVec 15)
  /-- BGEU (R150): Branches when xa >= xb unsigned. -/
  | bgeu (ra rb : Reg) (off : BitVec 15)
  /-- JAL (R151): Writes the link into xd and jumps by 2 times imm20. -/
  | jal (rd : Reg) (off : BitVec 20)
  /-- JALR (R151): Jumps to xa + imm15 after writing the link, trapping MISALIGN on an odd target. -/
  | jalr (rd ra : Reg) (imm : BitVec 15)
  /-- LOOP (R153): Pushes a hardware loop whose count is in xa, or skips the body for a zero count. -/
  | loop (ra : Reg) (off : BitVec 15)
  /-- LOOPI (R153): Pushes a hardware loop with an immediate count of 1 to 1,023. -/
  | loopi (n : BitVec 10) (off : BitVec 15)
  /-- HINT_NOP (R121): Any encoding of the hint major executes as NOP, taking an ISN and nothing else. -/
  | hintNop (bits : BitVec 25)
  /-- FENCE (R352): Waits until every earlier path-V access is performed at the named scope before later ones begin. -/
  | fence (sc : Scope)
  /-- FENCEX (R358): Orders writes of path c1 before accesses on path c2, waiting for own tile work when c1 is M. -/
  | fencex (c1 c2 : PathClass)
  /-- IFLUSH (R178): Discards every held instruction including the loop buffer so the next fetch comes from memory. -/
  | iflush
  /-- TRAP (R173): Takes its ISN and raises SWTRAP with k, resuming at the next instruction. -/
  | trap (k : BitVec 5)
  /-- RETT (R380): Restores the thread from the trap area, redispatches or abandons in-flight entries and leaves handler mode. -/
  | rett
  /-- BKPT (R174): Raises BKPT before any effect, taking no ISN. -/
  | bkpt
  /-- MON (R171): Arms the sequencer's single monitor on the line holding xa. -/
  | mon (ra : Reg)
  /-- MWAIT (R172): Sleeps until a write to the monitored line, a time-out, no monitor or a take, writing the code. -/
  | mwait (rd ra : Reg)
  /-- TICK (R170): Writes the package period counter into xd. -/
  | tick (rd : Reg)
  /-- MOVC_WRITE (R162): Writes xa into control register cN under the access codes, with VILL on an illegal vtype. -/
  | movcWrite (c : CReg) (ra : Reg)
  /-- MOVC_READ (R162): Reads control register cN into xd, or the next landed element of a stream register. -/
  | movcRead (rd : Reg) (c : CReg)
  /-- MOVCW (R162): Reads cN into xd and writes xb into cN as one step. -/
  | movcw (rd : Reg) (c : CReg) (rb : Reg)
  /-- SETVL (R164): Sets vl to min(xa, VLMAX, 2^CAPLOG) and writes it into xd. -/
  | setvl (rd ra : Reg)
  /-- SETVLC (R167): Acquires a chain word and grants the published elements beyond P, or sleeps until the line is written. -/
  | setvlc (rd ra rb : Reg)
  /-- PUBHW (R166): Raises the chain word's HW and CLOSED indivisibly as a package-scope release. -/
  | pubhw (ra rb : Reg)
  /-- OWNQ (R169): Writes the owning row, group and bank of address xa within the grant window. -/
  | ownq (rd ra : Reg)
  /-- LIX (R155): Writes INDEX of the loop entry k places below the top into xd. -/
  | lix (rd : Reg) (k : BitVec 5)
  /-- LBRK (R155): Pops the innermost loop entry and continues at its END. -/
  | lbrk
  /-- SPAWN (R446): Copies a continuation record image and pushes it on the target die's queue with a release. -/
  | spawn (ra : Reg)
  /-- JOIN (R447): Decrements the join counter as a release and pushes the parent record at the zero crossing. -/
  | join (ra : Reg)
  /-- EXIT (R448): Ends the continuation once every ISN and due landing is complete, then frees the sequencer. -/
  | exit
  /-- BARCFG (R457): Binds, reconfigures or releases a barrier unit of the named scope. -/
  | barcfg (sc : BScope) (ra rb : Reg)
  /-- ARRIVE (R458): Releases, counts an arrival at the barrier unit and returns a token, completing the phase at N. -/
  | arrive (sc : BScope) (rd ra : Reg)
  /-- WAITB (R459): Waits until the wait on the token is met, then acquires. -/
  | waitb (sc : BScope) (ra rb : Reg)
  /-- ARRWAIT (R460): Arrives, keeps the token internally and waits as WAITB does. -/
  | arrwait (sc : BScope) (ra : Reg)
  /-- TLBINV (R343): Releases, removes matching cached translations on the dies in scope and waits for accesses holding them. -/
  | tlbinv (ra rb : Reg)
  /-- PGQ (R344): Walks the context's tree for xa and writes the translation result without faulting. -/
  | pgq (rd ra : Reg)
  /-- CTXLD (R394): Loads a thread record, its cistern and version images into the grant and holds the thread in handler mode. -/
  | ctxld (ra : Reg)
  /-- CTXST (R393): Saves the held thread, its dirty granules and version image into a thread record. -/
  | ctxst (ra : Reg)
  /-- SUMPPOP (R385): Pops the next fault sump entry address into xd as an acquire, or 0 when empty. -/
  | sumppop (rd : Reg)
  /-- LEASE (R249): Binds a lease slot, enqueues the request and returns a handle at once. -/
  | lease (rd ra : Reg)
  /-- LFREE (R250): Releases the named lease, or makes it RELEASING while work is outstanding. -/
  | lfree (ra : Reg)
  /-- LSTAT (R251): Writes a snapshot of the lease's status into xd. -/
  | lstat (rd ra : Reg)
  /-- LWAIT (R252): Waits until the lease is HELD, PARKED, EVICTED or FREE. -/
  | lwait (ra : Reg)
  /-- MOVTD (R257): Writes the low bits of xa into field f of tile descriptor tdN. -/
  | movtd (td : BitVec 4) (f : TdField) (ra : Reg)
  /-- RDTD (R257): Writes field f of tile descriptor tdN, zero-extended, into xd. -/
  | rdtd (rd : Reg) (td : BitVec 4) (f : TdField)
  /-- BINDQ (R295): Binds stream register sqN to a landing word and its most recent copy, with position 0. -/
  | bindq (q : BitVec 2) (ra : Reg)
  /-- UNBINDQ (R295): Unbinds stream register sqN. -/
  | unbindq (q : BitVec 2)
  /-- GBEGIN (R315): Opens a command group with a shadow area in the grant window. -/
  | gbegin (ra : Reg)
  /-- GCOMMIT (R321): Waits for the group's commands, then commits, reports failure or traps on suspension. -/
  | gcommit (rd : Reg)
  /-- GABORT (R322): Stops the running command, discards queued commands and shadows and closes the group. -/
  | gabort
  /-- LOGMARK (R504): Logs xa in record mode and is checked in replay mode. -/
  | logmark (ra : Reg)
  /-- C_ADDI (R118): Compact xd := xd + s6. -/
  | cAddi (rd : Reg) (imm : BitVec 6)
  /-- C_LI (R118): Compact xd := s6. -/
  | cLi (rd : Reg) (imm : BitVec 6)
  /-- C_SLLI (R118): Compact left shift of xd by n6. -/
  | cSlli (rd : Reg) (sh : BitVec 6)
  /-- C_SRLI (R118): Compact logical right shift of xd by n6. -/
  | cSrli (rd : Reg) (sh : BitVec 6)
  /-- C_SRAI (R118): Compact arithmetic right shift of xd by n6. -/
  | cSrai (rd : Reg) (sh : BitVec 6)
  /-- C_LD (R118): Compact load of xd from x1 + 8*n6. -/
  | cLd (rd : Reg) (n : BitVec 6)
  /-- C_ST (R118): Compact store of xd to x1 + 8*n6. -/
  | cSt (rd : Reg) (n : BitVec 6)
  /-- C_ADD (R118): Compact xd := xd + xa. -/
  | cAdd (rd ra : Reg)
  /-- C_SUB (R118): Compact xd := xd - xa. -/
  | cSub (rd ra : Reg)
  /-- C_AND (R118): Compact xd := xd AND xa. -/
  | cAnd (rd ra : Reg)
  /-- C_OR (R118): Compact xd := xd OR xa. -/
  | cOr (rd ra : Reg)
  /-- C_XOR (R118): Compact xd := xd XOR xa. -/
  | cXor (rd ra : Reg)
  /-- C_SLL (R118): Compact left shift of xd by xa. -/
  | cSll (rd ra : Reg)
  /-- C_SRL (R118): Compact logical right shift of xd by xa. -/
  | cSrl (rd ra : Reg)
  /-- C_SRA (R118): Compact arithmetic right shift of xd by xa. -/
  | cSra (rd ra : Reg)
  /-- C_MUL (R118): Compact xd := xd times xa. -/
  | cMul (rd ra : Reg)
  /-- C_MIN (R118): Compact signed minimum of xd and xa. -/
  | cMin (rd ra : Reg)
  /-- C_MAX (R118): Compact signed maximum of xd and xa. -/
  | cMax (rd ra : Reg)
  /-- C_MV (R118): Compact xd := xa + x0. -/
  | cMv (rd ra : Reg)
  /-- C_BEQZ (R150): Compact branch when xa equals zero. -/
  | cBeqz (ra : Reg) (off : BitVec 6)
  /-- C_BNEZ (R150): Compact branch when xa is nonzero. -/
  | cBnez (ra : Reg) (off : BitVec 6)
  /-- C_J (R151): Compact jump with no link. -/
  | cJ (off : BitVec 11)
  /-- C_NOP (R118): Compact NOP. -/
  | cNop
  /-- C_EXIT (R448): Compact EXIT. -/
  | cExit
  /-- C_BKPT (R174): Compact BKPT. -/
  | cBkpt
  /-- C_LBRK (R155): Compact LBRK. -/
  | cLbrk
  /-- C_VADD (R119): Compact D := L + D over unit-stride vectors, with L from cld. -/
  | cVadd (n : Reg)
  /-- C_VSUB (R119): Compact D := L - D. -/
  | cVsub (n : Reg)
  /-- C_VMUL (R119): Compact D := L times D. -/
  | cVmul (n : Reg)
  /-- C_VAND (R119): Compact D := L AND D. -/
  | cVand (n : Reg)
  /-- C_VOR (R119): Compact D := L OR D. -/
  | cVor (n : Reg)
  /-- C_VXOR (R119): Compact D := L XOR D. -/
  | cVxor (n : Reg)
  /-- C_VMIN (R119): Compact signed minimum of L and D. -/
  | cVmin (n : Reg)
  /-- C_VMAX (R119): Compact signed maximum of L and D. -/
  | cVmax (n : Reg)
  /-- C_VMINU (R119): Compact unsigned minimum of L and D. -/
  | cVminu (n : Reg)
  /-- C_VMAXU (R119): Compact unsigned maximum of L and D. -/
  | cVmaxu (n : Reg)
  /-- C_VFADD (R119): Compact floating D := L + D. -/
  | cVfadd (n : Reg)
  /-- C_VFMUL (R119): Compact floating D := L times D. -/
  | cVfmul (n : Reg)
  /-- C_VFMIN (R119): Compact floating minimum of L and D. -/
  | cVfmin (n : Reg)
  /-- C_VFMAX (R119): Compact floating maximum of L and D. -/
  | cVfmax (n : Reg)
  /-- C_VMAND (R119): Compact mask D := L AND D. -/
  | cVmand (n : Reg)
  /-- C_VMOR (R119): Compact mask D := L OR D. -/
  | cVmor (n : Reg)
  /-- C_VMXOR (R119): Compact mask D := L XOR D. -/
  | cVmxor (n : Reg)
  /-- C_VMANDN (R119): Compact mask D := L AND NOT D. -/
  | cVmandn (n : Reg)
  /-- VADD (R187): Element-wise a + b delivered under R183. -/
  | vadd (v : VAB)
  /-- VSUB (R187): Element-wise a - b. -/
  | vsub (v : VAB)
  /-- VRSUB (R187): Element-wise b - a. -/
  | vrsub (v : VAB)
  /-- VMUL (R187): Element-wise a times b. -/
  | vmul (v : VAB)
  /-- VMULH (R187): High half of the signed element product. -/
  | vmulh (v : VAB)
  /-- VMULHU (R187): High half of the unsigned element product. -/
  | vmulhu (v : VAB)
  /-- VDIV (R188): Signed element quotient, all ones for a zero divisor. -/
  | vdiv (v : VAB)
  /-- VDIVU (R188): Unsigned element quotient. -/
  | vdivu (v : VAB)
  /-- VREM (R188): Element remainder with the sign of a. -/
  | vrem (v : VAB)
  /-- VMIN (R187): Signed element minimum. -/
  | vmin (v : VAB)
  /-- VMAX (R187): Signed element maximum. -/
  | vmax (v : VAB)
  /-- VMINU (R187): Unsigned element minimum. -/
  | vminu (v : VAB)
  /-- VMAXU (R187): Unsigned element maximum. -/
  | vmaxu (v : VAB)
  /-- VAND (R187): Element-wise AND. -/
  | vand (v : VAB)
  /-- VOR (R187): Element-wise OR. -/
  | vor (v : VAB)
  /-- VXOR (R187): Element-wise XOR. -/
  | vxor (v : VAB)
  /-- VANDN (R187): Element-wise a AND NOT b. -/
  | vandn (v : VAB)
  /-- VSLL (R189): Element left shift. -/
  | vsll (v : VAB)
  /-- VSRL (R189): Element logical right shift. -/
  | vsrl (v : VAB)
  /-- VSRA (R189): Element arithmetic right shift. -/
  | vsra (v : VAB)
  /-- VADC (R190): Element add with carry-in, writing the wrapped sum. -/
  | vadc (v : VABC)
  /-- VADC_CO (R190): Element add with carry-in, writing the carry-out bits. -/
  | vadcCo (v : VABC)
  /-- VSBC (R190): Element subtract with borrow-in, writing the wrapped difference. -/
  | vsbc (v : VABC)
  /-- VSBC_CO (R190): Element subtract with borrow-in, writing the borrow-out bits. -/
  | vsbcCo (v : VABC)
  /-- VCMP (R191): Integer comparison writing an n1 vector of outcomes. -/
  | vcmp (c : ICond) (v : VAB)
  /-- VMERGE (R192): Writes a where the mask bit is 1 and b otherwise. -/
  | vmerge (v : VAB)
  /-- VMV (R193): Copies a into each active element. -/
  | vmv (v : VA)
  /-- VDOTS (R201): Dot product over the slice rule from a starting w48 value into one element or register. -/
  | vdots (v : VABC)
  /-- VSCAN (R204): Inclusive prefix of the selected operation in ascending index order. -/
  | vscan (op : RedOp) (v : VA)
  /-- VFADD (R195): Floating element add. -/
  | vfadd (v : VAB)
  /-- VFSUB (R195): Floating element subtract. -/
  | vfsub (v : VAB)
  /-- VFMUL (R195): Floating element multiply. -/
  | vfmul (v : VAB)
  /-- VFFMA (R195): Floating fused multiply-add rounded once. -/
  | vffma (v : VABC)
  /-- VFDIV (R195): Floating element divide. -/
  | vfdiv (v : VAB)
  /-- VFSQRT (R195): Floating element square root. -/
  | vfsqrt (v : VA)
  /-- VFMIN (R195): Floating element minimum. -/
  | vfmin (v : VAB)
  /-- VFMAX (R195): Floating element maximum. -/
  | vfmax (v : VAB)
  /-- VFCMP (R191): Floating comparison writing an n1 vector of outcomes. -/
  | vfcmp (c : VFCond) (v : VAB)
  /-- VEXP2 (R196): Correctly rounded 2^x of fp32 elements. -/
  | vexp2 (v : VA)
  /-- VLOG2 (R196): Correctly rounded log2 of fp32 elements. -/
  | vlog2 (v : VA)
  /-- VRCP (R196): Correctly rounded reciprocal of fp32 elements. -/
  | vrcp (v : VA)
  /-- VRSQ (R196): Correctly rounded reciprocal square root of fp32 elements. -/
  | vrsq (v : VA)
  /-- VTANH (R196): Correctly rounded tanh of fp32 elements. -/
  | vtanh (v : VA)
  /-- VSIN (R196): Correctly rounded sine of fp32 elements. -/
  | vsin (v : VA)
  /-- VCOS (R196): Correctly rounded cosine of fp32 elements. -/
  | vcos (v : VA)
  /-- VREDSUM (R202): Sum over the fixed reduction tree. -/
  | vredsum (v : VA)
  /-- VREDMAX (R202): Maximum over the reduction tree. -/
  | vredmax (v : VA)
  /-- VREDMIN (R202): Minimum over the reduction tree. -/
  | vredmin (v : VA)
  /-- VREDAND (R202): AND over the reduction tree. -/
  | vredand (v : VA)
  /-- VREDOR (R202): OR over the reduction tree. -/
  | vredor (v : VA)
  /-- VREDXOR (R202): XOR over the reduction tree. -/
  | vredxor (v : VA)
  /-- VSLIDEUP (R205): Element i receives a_(i-k) for i >= k. -/
  | vslideup (cnt : Reg) (v : VA)
  /-- VSLIDEDN (R205): Element i receives a_(i+k) or zero. -/
  | vslidedn (cnt : Reg) (v : VA)
  /-- VMAND (R206): Mask AND. -/
  | vmand (v : VAB)
  /-- VMOR (R206): Mask OR. -/
  | vmor (v : VAB)
  /-- VMXOR (R206): Mask XOR. -/
  | vmxor (v : VAB)
  /-- VMANDN (R206): Mask a AND NOT b. -/
  | vmandn (v : VAB)
  /-- VMNOT (R206): Mask NOT a. -/
  | vmnot (v : VA)
  /-- VMPOP (R207): Counts active set mask bits into a scalar. -/
  | vmpop (rd : Reg) (v : VA1)
  /-- VMFIRST (R31): Writes the lowest active set index or -1. -/
  | vmfirst (rd : Reg) (v : VA1)
  /-- VMLAST (R31): Writes the highest active set index or -1. -/
  | vmlast (rd : Reg) (v : VA1)
  /-- VMANY (R31): Writes 1 if any active mask bit is set, else 0. -/
  | vmany (rd : Reg) (v : VA1)
  /-- VGAUSS (R209): Writes user Gaussian values from the generator. -/
  | vgauss (v : VA)
  /-- VGAUSS_PERT (R209): Writes the perturbation Gaussians of purpose 1. -/
  | vgaussPert (v : VA)
  /-- VRAND (R209): Writes user uniforms from the generator. -/
  | vrand (v : VA)
  /-- VRAND_SR (R209): Writes the stochastic-rounding uniforms of purpose 2. -/
  | vrandSr (v : VA)
  /-- VLD (R220): Marks destination words empty and requests elements from far memory or another window. -/
  | vld (ord : Ord) (v : VA)
  /-- VST (R222): Writes window elements to far memory, executed by the source owner. -/
  | vst (ord : Ord) (v : VA)
  /-- VSTX (R223): Writes window elements into another grant's window, marking words full. -/
  | vstx (ord : Ord) (v : VA)
  /-- VAMO (R225): Element-wise atomic read-modify-write at target addresses. -/
  | vamo (op : AmoOp) (ord : Ord) (v : VAB)
  /-- VCAS (R225): Element-wise compare-and-swap at target addresses. -/
  | vcas (ord : Ord) (v : VABC)
  /-- VEMPTY (R216): Marks the words of active elements empty. -/
  | vempty (v : VD)
  /-- VFILL (R216): Marks the words of active elements full. -/
  | vfill (v : VD)
  /-- VWAIT (R227): Sleeps until flag words equal expected values or a time-out, writing the unmet mask. -/
  | vwait (rt : Reg) (v : VAB)
  /-- VOWN (R229): Writes the OWNQ result for each active element's address. -/
  | vown (v : VA)
  /-- VIDX (R194): Writes start + i*step into each element. -/
  | vidx (d : Spec) (start step : BitVec 16)
  /-- VMSH (R208): Shifts a mask vector by k positions. -/
  | vmsh (d a : Spec) (k : BitVec 32)
  /-- VCVT (R198): Converts elements from the encoded source type into vtype.EW. -/
  | vcvt (src : SrcType) (d a : Spec)
  /-- MMA (R269): Queues a matrix multiply-accumulate of two tiles into the accumulator store. -/
  | mma (z : Bool) (h : Reg) (ta tb : BitVec 4) (arow : BitVec 9) (acol : BitVec 7)
  /-- MMAE (R269): Queues a matrix multiply-accumulate with perturbed mld operands for a draw. -/
  | mmae (z : Bool) (h draw : Reg) (ta tb : BitVec 4) (arow : BitVec 9) (acol : BitVec 7)
  /-- ACCZ (R270): Queues a pass that writes +0 into an accumulator region. -/
  | accz (h : Reg) (arow : BitVec 9) (acol : BitVec 7) (nrows1 : BitVec 9) (ncols1 : BitVec 7)
  /-- ACCIN (R271): Sends vector elements into an accumulator region for one engine pass. -/
  | accin (h : Reg) (a : Spec) (pol : Bool) (mask : MSel) (arow : BitVec 9) (acol ncol1 : BitVec 7)
  /-- DRAIN (R272): Requests accumulator entries delivered into a destination, marking window words empty. -/
  | drain (clr : Bool) (h : Reg) (d : Spec) (mask : MSel) (arow : BitVec 9) (acol ncol1 : BitVec 7)
  /-- TSUB (R274): Checks a tile-task record and copies it into the die's engine task queue. -/
  | tsub (rq : Reg)
  /-- PCOPY (R287): Issues a pump copy of elements between any places. -/
  | pcopy (p : PumpArgs) (d a : Spec)
  /-- PGATH (R287): Issues a pump gather of rows into the cistern. -/
  | pgath (p : PumpArgs) (rr : Reg) (d a : Spec)
  /-- PSCAT (R287): Issues a pump scatter of rows by row number. -/
  | pscat (p : PumpArgs) (rr : Reg) (d a : Spec)
  /-- PRDC (R287): Issues a pump reduce-add of elements into a destination. -/
  | prdc (p : PumpArgs) (d a : Spec)
  /-- PFILL (R287): Issues a pump fill of destination elements with a scalar. -/
  | pfill (p : PumpArgs) (d a : Spec)
  /-- ATTN (R305): Checks and captures an attention command record and joins the group's command order. -/
  | attn (hint : AttnHint) (rc : Reg) (qb0 nqb1 : BitVec 16)
  /-- KVW (R312): Joins the group order to write key and value rows into pages. -/
  | kvw (rc ra rp : Reg)
  /-- KVINV (R313): Joins the group order to clear VALID bits selected by a bitmap. -/
  | kvinv (rc ra rp : Reg)
  /-- RESET (event, R510): Reset sets every register to its reset value, disables queues, frees barrier units, takes links down, zeroes TICK and runs the group test. -/
  | reset
  /-- LOAD_COMPLETE (event, R141): A scalar load or LDFE that waited for data or a full word completes and writes xd. -/
  | loadComplete (sq grp : Nat)
  /-- MWAIT_WAKE (event, R172): A write to the monitored line, expiry of the time-out or a take request ends a sleeping MWAIT with its code. -/
  | mwaitWake (sq : Nat)
  /-- STREAM_READ (event, R296): A MOVC read of a bound stream register waits for L > p, then returns element p and advances p. -/
  | streamRead (sq : Nat)
  /-- SETVLC_WAKE (event, R167): A write to the chain word's line wakes a sleeping SETVLC, which re-reads the word. -/
  | setvlcWake (sq : Nat)
  /-- EXIT_COMPLETE (event, R448): After waiting for completions and landings, EXIT discards the loop stack, unbinds stream registers and idles the sequencer. -/
  | exitComplete (sq : Nat)
  /-- BARRIER_WAIT_MET (event, R461): A phase advance meets a waiting WAITB or ARRWAIT, which completes as an acquire. -/
  | barrierWaitMet (sq : Nat)
  /-- LWAIT_COMPLETE (event, R252): A lease state change ends a waiting LWAIT. -/
  | lwaitComplete (sq : Nat)
  /-- GROUP_COMMIT (event, R317): When every command is complete, the shadows become current indivisibly, or the group fails with CONFLICT. -/
  | groupCommit (sq : Nat)
  /-- VWAIT_WAKE (event, R227): A write to a flag line or the time-out wakes VWAIT, which re-reads unmet flags and may complete. -/
  | vwaitWake (sq : Nat)
  /-- ELEMENT_EXECUTE (event, R45): An owning bank executes and commits its next active element once its pulls are served, inside the slip limit. -/
  | elementExecute (sq grp : Nat)
  /-- VLD_LANDING (event, R220): A requested element's reply lands in the window and its word becomes full. -/
  | vldLanding (idx : Nat)
  /-- PAGE_WALK (event, R340): A translation miss walks the tree, sets A or D and installs the leaf, or fails. -/
  | pageWalk (die ctx va : Nat) (acc : Access)
  /-- MIGRATION_TIMEOUT (event, R336): An access waiting on a migrating entry fails after 10 ms without V becoming 1. -/
  | migrationTimeout (idx : Nat)
  /-- TRAP_ENTRY (event, R372): After groups settle, the sequencer writes the trap area and enters handler mode at HANDLER. -/
  | trapEntry (sq : Nat)
  /-- HALT_STOP (event, R520): Other running threads of a halted context enter the handler with HALT and NORES. -/
  | haltStop (sq : Nat)
  /-- MACHINE_CHECK (event, R396): An uncorrectable error halts the context and sends its threads to the handler with MCHECK. -/
  | machineCheck (ctx addr : Nat) (phys : Bool)
  /-- PREEMPTION_REQUEST (event, R369): A pre-emption request sends take requests to every running thread of the context. -/
  | preemptionRequest (ctx : Nat)
  /-- SOFT_TAKE (event, R386): A thread reaching a soft point with a take pending stops and enters the handler with HARD 0. -/
  | softTake (sq : Nat)
  /-- HARD_TAKE (event, R387): 100 µs after a take request an untaken thread is taken hard with in-flight entries. -/
  | hardTake (sq : Nat)
  /-- LEASE_GRANT (event, R238): The die grants the head request when units and an engine are free, starting its wake. -/
  | leaseGrant (die : Nat)
  /-- LEASE_AGING (event, R237): Each 1 ms a queued lease request rises one level up to its cap. -/
  | leaseAging (die ctx slot : Nat)
  /-- WAKE_COMPLETE (event, R239): A granted engine finishes waking with a cleared accumulator store, and its lease becomes HELD or PARKED. -/
  | wakeComplete (die ctx slot : Nat)
  /-- EVICTION_DECIDED (event, R241): The die chooses a victim set for a blocked head once leases become eligible. -/
  | evictionDecided (die : Nat)
  /-- EVICTION_EFFECT (event, R243): At the victim's next interruptible step its state is destroyed, work abandoned, units freed and a sump entry written. -/
  | evictionEffect (die ctx slot : Nat)
  /-- BUDGET_EVICTION (event, R244): A lowered lease budget evicts leases until the units in use fit. -/
  | budgetEviction (die : Nat)
  /-- LEASE_RELEASE_COMPLETE (event, R235): The last outstanding work of a RELEASING lease completes, and it goes FREE. -/
  | leaseReleaseComplete (die ctx slot : Nat)
  /-- MATRIX_STEP (event, R264): The windlass performs one step of a row block and slice, charging its energy. -/
  | matrixStep (die eng : Nat)
  /-- ACCZ_PASS (event, R270): In queue order the engine writes +0 into the region as one step. -/
  | acczPass (die eng : Nat)
  /-- ACCIN_PASS (event, R271): Once every group completes, the engine writes the sent values into the accumulator. -/
  | accinPass (die eng : Nat)
  /-- DRAIN_PASS (event, R272): After earlier entries, the engine delivers requested entries and lands them at their destinations. -/
  | drainPass (die eng : Nat)
  /-- TASK_GATE_EVALUATION (event, R277): The scheduler re-reads a waiting task's gates after a gate-line write or every 1,000 reference cycles. -/
  | taskGateEvaluation (die idx : Nat)
  /-- TASK_DISPATCH (event, R278): When an engine is free or a task becomes ready, the highest-priority ready task is dispatched. -/
  | taskDispatch (die : Nat)
  /-- TASK_RUN (event, R279): A dispatched task checks its images, multiplies, drains and adds to its completion word. -/
  | taskRun (die eng : Nat)
  /-- PUMP_ELEMENT (event, R287): The pump performs a committed element's payload write and updates the landing word as L rises. -/
  | pumpElement (die pump copy elem : Nat)
  /-- GROUP_COMMAND_RUN (event, R314): The next command of the group runs after its predecessor, writing into shadows. -/
  | groupCommandRun (sq : Nat)
  /-- ATTN_QUERY_BLOCK (event, R302): An engine computes the softmax attention of one query block against its enabled pages. -/
  | attnQueryBlock (sq : Nat)
  /-- FABMON_WINDOW (event, R309): At the end of each 10 µs window LAST records the die-fabric utilisation. -/
  | fabmonWindow (die percent : Nat)
  /-- BUCKET_REFILL (event, R326): Each reference cycle the die's bucket gains REFILL units up to CAP. -/
  | bucketRefill (die : Nat)
  /-- BANK_WAVE (event, R325): In the bank-count regime the next wave of groups starts an instruction when the previous wave completes. -/
  | bankWave (sq : Nat)
  /-- NOTIFY (event, R403): A notify write with RESET and DISABLE clear posts one notify event unless one waits untaken. -/
  | notify (who : Option Master) (q : Nat)
  /-- NOTIFY_RESET (event, R418): A notify with RESET leaves ERROR, setting READ to POS. -/
  | notifyReset (who : Option Master) (q : Nat) (pos : BitVec 32)
  /-- NOTIFY_DISABLE (event, R418): A notify with DISABLE sends the queue to DISABLED. -/
  | notifyDisable (who : Option Master) (q : Nat)
  /-- EVENT_TAKE (event, R415): An idle cobbler takes the oldest event of the die's event queue and runs it to completion. -/
  | eventTake (die : Nat)
  /-- PACKET_START (event, R412): The cobbler reads a valid packet at READ, starts it, clears its header and advances READ. -/
  | packetStart (q : Nat)
  /-- WAIT_PACKET_CHECK (event, R408): A WAIT packet's word is re-read after a write to its line or every 1,000 reference cycles. -/
  | waitPacketCheck (q : Nat)
  /-- WAIT_PACKET_TIMEOUT (event, R408): A WAIT packet's time-out expires and the queue goes to ERROR with WAITTO. -/
  | waitPacketTimeout (q : Nat)
  /-- PACKET_COMPLETE (event, R414): A completed packet's signal is decremented as a system-scope release. -/
  | packetComplete (q pk : Nat)
  /-- KERNEL_PLACEMENT (event, R427): When every die of DMASK can take it, the launch is placed, grants fixed and root records written. -/
  | kernelPlacement (k : Nat)
  /-- KERNEL_COMPLETE (event, R432): Once every write is performed at system scope, the kernel frees its resources and completes its packet. -/
  | kernelComplete (k : Nat)
  /-- KERNEL_ABORT (event, R432): When the last thread of a halted context is freed, the kernel is ABORTED and the queue errs with KABORT. -/
  | kernelAbort (k : Nat)
  /-- RANGE_CHUNK (event, R434): An idle sequencer of a range kernel takes a chunk from its die's cell and starts a root continuation. -/
  | rangeChunk (sq : Nat)
  /-- RANGE_STEAL (event, R435): A die with an empty cell cuts the largest other cell in half. -/
  | rangeSteal (k die : Nat)
  /-- RECORD_TAKE (event, R443): An idle sequencer takes the first record of its kernel from the die's continuation queue as an acquire. -/
  | recordTake (sq : Nat)
  /-- RECORD_AGING (event, R442): Each 256 µs a queued continuation record rises one level up to 3. -/
  | recordAging (die idx : Nat)
  /-- FIRMWARE_UPDATE (event, R420): FWCTL.GO starts verification and, if accepted, the update of one die's cobbler firmware. -/
  | firmwareUpdate (m : Master) (val : Word)
  /-- FIRMWARE_RESTART (event, R421): The new image loads, the cobblers restart and negotiate versions, then take events again. -/
  | firmwareRestart (die : Nat)
  /-- LINK_TRAINING (event, R467): A training attempt ends UP, DEGRADED or, at the third failure, DOWN. -/
  | linkTraining (link lanes : Nat)
  /-- LANE_FAILURE (event, R467): A failing lane is spared, narrows the link or takes it down. -/
  | laneFailure (link : Nat)
  /-- FLIT_RECEIVE (event, R468): A received flit is accepted in order or, on CRC failure, discarded with a negative acknowledgement. -/
  | flitReceive (link cls num : Nat) (crcOk : Bool)
  /-- FLIT_REPLAY (event, R468): A sender replays from the failed flit, retraining after 16 replays. -/
  | flitReplay (link cls : Nat)
  /-- ROUTE_FAILURE (event, R470): Traffic whose routes cross DOWN links fails as an uncorrectable error or is dropped and counted. -/
  | routeFailure (src dst : Nat) (ctx : Option Nat) (addr : Nat) (byUnit : Bool)
  /-- RETRAIN (event, R478): A LINKSTAT write with RETRAIN retrains the link. -/
  | retrain (m : Master) (link : Nat)
  /-- LINKSTAT_CLR (event, R478): A LINKSTAT write with CLR clears RETRY, CRCERR and DROP. -/
  | linkstatClr (m : Master) (link : Nat)
  /-- HOST_MEM_ACCESS (event, R474): A host CXL.mem read or write of device memory is performed on path H. -/
  | hostMemAccess (addr : Nat) (acc : HostAcc)
  /-- HOSTERR_CLEAR (event, R479): Writing 1 to HOSTERR.VALID clears the log. -/
  | hosterrClear (m : Master)
  /-- PEER_REQUEST (event, R482): A peer request is checked against PEERWIN and performed by the receiving pump or refused. -/
  | peerRequest (port addr : Nat) (req : PeerReq)
  /-- SPDM_REQUEST (event, R438): The SPDM responder answers a request with signed measurements. -/
  | spdmRequest (req : SpdmReq)
  /-- POWER_COMPARISON (event, R487): Every 100 reference cycles the controller compares power with LIMIT and applies or withdraws one measure. -/
  | powerComparison (watts : Nat) (bank : List Nat)
  /-- LEASEBUD_WRITE (event, R491): A write of CAP sets the budget ceiling and evicts when CUR falls below units in use. -/
  | leasebudWrite (m : Master) (die : Nat) (val : Word)
  /-- BANKPWR_WRITE (event, R326): A BANKPWR write sets the regime and limits and refills the bucket to CAP when REGIME is written. -/
  | bankpwrWrite (m : Master) (die : Nat) (val : Word)
  /-- PWRDIE_FORCE (event, R489): A write of FORCE withdraws or restores chaining pairs for later instructions. -/
  | pwrdieForce (m : Master) (die : Nat) (val : Word)
  /-- QUOTA_PERIOD (event, R496): At each period boundary the balance is refilled and stopped work resumes if positive. -/
  | quotaPeriod
  /-- TICK_PERIOD (event, R498): At each period boundary the package period counter rises by 1. -/
  | tickPeriod
  /-- LOG_SPACE_FREE (event, R501): A stalled logged event proceeds when C rises. -/
  | logSpaceFree (sq : Nat)
  /-- OWN_CLAIM (event, R506): OWNCTL OP 1 claims ownership, heartbeats or completes a pending handover. -/
  | ownClaim (m : Master) (nonce : BitVec 16)
  /-- OWN_HANDOVER (event, R506): OWNCTL OP 2 from the owner sets a pending handover to SUCC. -/
  | ownHandover (m succ : Master) (nonce : BitVec 16)
  /-- OWN_RELEASE (event, R506): OWNCTL OP 3 from the owner leaves no owner. -/
  | ownRelease (m : Master) (nonce : BitVec 16)
  /-- OWN_HEARTBEAT_TIMEOUT (event, R506): 100 ms without a heartbeat leaves no owner. -/
  | ownHeartbeatTimeout
  /-- OWN_HANDOVER_TIMEOUT (event, R506): A pending handover not taken within 100 ms is cancelled. -/
  | ownHandoverTimeout
  /-- FREEZE_REQUEST (event, R508): FRZCTL.FREEZE requests a command freeze that takes effect at the next 64-cycle boundary. -/
  | freezeRequest (m : Master)
  /-- THAW_REQUEST (event, R508): FRZCTL.THAW withdraws the command freeze. -/
  | thawRequest (m : Master)
  /-- FRZ_PIN (event, R508): Assertion or deassertion of FRZ_N requests or ends a freeze. -/
  | frzPin (asserted : Bool)
  /-- FREEZE_TAKE_EFFECT (event, R508): At a 64-cycle boundary every clock and count stops, or resumes at thaw. -/
  | freezeTakeEffect
  /-- DEBUG_ACCESS (event, R509): The debug port reads state, with writes dropped while frozen except to FRZCTL and OWNCTL. -/
  | debugAccess (acc : DebugAcc)
  /-- ECCCNT_CLR (event, R511): A write of CLR clears both corrected-error counts. -/
  | ecccntClr (m : Master) (die : Nat)
  /-- REGISTER_WRITE (event, R485): A master write to a register without its own row is accepted from the owner or dropped and counted. -/
  | registerWrite (m : Master) (off : Nat) (val : Word)
  /-- HDM_DECODER_PROGRAM (event, R473): The host programs the base of an HDM decoder through CXL.io, which sets the host physical range mapped linearly onto that decoder's device memory. -/
  | hdmDecoderProgram (dec base : Nat)
  deriving DecidableEq, Repr

end Sys2Proof
end

