-- ==== Sys2Proof/WellFormed.lean ====
section
/-!
DEFINITION. Which terms of `Instr` an encoding can produce (spec/05_encoding.md R104 to R121 and the instructions' own
entries): every other term is an encoding that raises ILLEGAL. An event has no encoding, so nothing is asked of it.
-/
namespace Sys2Proof

/-- Modes 01 and 10 need x(N+1), so N = 31 is illegal in them (01 R24). -/
def Spec.wf : Spec → Bool
  | .unit _ | .scal _ => true
  | .stride r | .index r => r.val != 31

/-- The operand names an x register (mode 11). -/
def Spec.isScal : Spec → Bool
  | .scal _ => true
  | _ => false

/-- Unit stride (mode 00). -/
def Spec.isUnit : Spec → Bool
  | .unit _ => true
  | _ => false

/-- Mode 10. -/
def Spec.isIndex : Spec → Bool
  | .index _ => true
  | _ => false

/-- A memory destination: not mode 11 (05 R113). -/
def Spec.wfMem (s : Spec) : Bool := s.wf && !s.isScal

/-- A source with its policy bit: no policy 1 on a mode-11 operand (05 R113). -/
def Spec.wfSrc (s : Spec) (pol : Bool) : Bool := s.wf && !(pol && s.isScal)

/-- D and A with a memory destination. -/
def VA.wf (v : VA) : Bool := v.d.wfMem && v.a.wfSrc v.pa
/-- D and A where D may be an x register. -/
def VA.wfS (v : VA) : Bool := v.d.wf && v.a.wfSrc v.pa
/-- A alone. -/
def VA1.wf (v : VA1) : Bool := v.a.wfSrc v.pa
/-- D, A and B with a memory destination. -/
def VAB.wf (v : VAB) : Bool := v.d.wfMem && v.a.wfSrc v.pa && v.b.wfSrc v.pb
/-- D, A, B and C with a memory destination. -/
def VABC.wf (v : VABC) : Bool := v.d.wfMem && v.a.wfSrc v.pa && v.b.wfSrc v.pb && v.c.wfSrc v.pc

/-- Stream registers are only read (05 R111). -/
def CReg.isStream : CReg → Bool
  | .sq0 | .sq1 | .sq2 | .sq3 => true
  | _ => false

/-- FCVT's integer codes (05 R107). -/
def CvtType.isInt : CvtType → Bool
  | .i64 | .n64 => true
  | _ => false

/-- VCVT's source codes and PREC field (07 R197). -/
def SrcType.wf (t : SrcType) : Bool :=
  t.code.toNat ≤ 17 &&
    (if t.code.toNat = 14 then 1 ≤ t.prec.toNat && t.prec.toNat ≤ 7
     else t.code.toNat = 17 || t.prec = 0)

/-- The fields every pump instruction shares: xL is not x0, SZ is not 7 (11 R283). -/
def PumpArgs.wf (p : PumpArgs) : Bool := p.xl.val != 0 && p.sz.toNat != 7

/-- The offset of LOOP and LOOPI is at least 3 halfwords (06 R153). -/
def wfLoopOff (off : BitVec 15) : Bool := 3 ≤ off.toInt

/-- A term that some encoding produces. -/
def Instr.wf : Instr → Bool
  | .fcvt dst src _ _ => dst != src && !(dst.isInt && src.isInt)
  | .loop _ off => wfLoopOff off
  | .loopi n off => n.toNat != 0 && wfLoopOff off
  | .fencex c1 c2 => c1 != c2
  | .movcWrite c _ | .movcw _ c _ => !c.isStream
  | .lix _ k => k.toNat ≤ 5
  | .cAddi rd _ | .cLi rd _ | .cSlli rd _ | .cSrli rd _ | .cSrai rd _ | .cLd rd _ | .cSt rd _ => rd.val != 0
  | .cAdd rd _ | .cSub rd _ | .cAnd rd _ | .cOr rd _ | .cXor rd _ | .cSll rd _ | .cSrl rd _ | .cSra rd _
  | .cMul rd _ | .cMin rd _ | .cMax rd _ | .cMv rd _ => rd.val != 0
  | .cVadd n | .cVsub n | .cVmul n | .cVand n | .cVor n | .cVxor n | .cVmin n | .cVmax n | .cVminu n | .cVmaxu n
  | .cVfadd n | .cVfmul n | .cVfmin n | .cVfmax n | .cVmand n | .cVmor n | .cVmxor n | .cVmandn n => n.val != 0
  | .vadd v | .vsub v | .vrsub v | .vmul v | .vmulh v | .vmulhu v | .vdiv v | .vdivu v | .vrem v | .vmin v | .vmax v
  | .vminu v | .vmaxu v | .vand v | .vor v | .vxor v | .vandn v | .vsll v | .vsrl v | .vsra v | .vfadd v | .vfsub v
  | .vfmul v | .vfdiv v | .vfmin v | .vfmax v | .vmand v | .vmor v | .vmxor v | .vmandn v
  | .vcmp _ v | .vfcmp _ v | .vwait _ v => v.wf
  | .vmerge v => v.wf && v.mask != .none
  | .vadc v | .vadcCo v | .vsbc v | .vsbcCo v | .vffma v | .vcas _ v => v.wf
  | .vdots v => v.d.wf && v.a.wfSrc v.pa && v.b.wfSrc v.pb && v.c.wfSrc v.pc
  | .vmv v | .vfsqrt v | .vexp2 v | .vlog2 v | .vrcp v | .vrsq v | .vtanh v | .vsin v | .vcos v | .vmnot v
  | .vgauss v | .vgaussPert v | .vrand v | .vrandSr v | .vscan _ v | .vslideup _ v | .vslidedn _ v
  | .vld _ v | .vst _ v | .vstx _ v => v.wf
  | .vredsum v | .vredmax v | .vredmin v | .vredand v | .vredor v | .vredxor v => v.wfS
  | .vown v => v.wf && v.d.isUnit
  | .vmpop _ v | .vmfirst _ v | .vmlast _ v | .vmany _ v => v.wf
  | .vamo _ _ v => (v.d.wfMem || v.d == .scal 0) && v.a.wfSrc v.pa && v.b.wfSrc v.pb
  | .vempty v | .vfill v => v.d.wfMem
  | .vidx d _ _ => d.wfMem
  | .vmsh d a _ => d.wfMem && a.wf
  | .vcvt src d a => src.wf && d.wfMem && a.wf
  | .accz _ arow acol nrows1 ncols1 =>
    arow.toNat + nrows1.toNat + 1 ≤ 512 && acol.toNat + ncols1.toNat + 1 ≤ 128
  | .accin _ a _ _ _ acol ncol1 => a.wf && acol.toNat + ncol1.toNat + 1 ≤ 128
  | .drain _ _ d _ _ acol ncol1 => d.wfMem && acol.toNat + ncol1.toNat + 1 ≤ 128
  | .pcopy p d a => p.wf && d.wfMem && a.wfMem && !d.isIndex && !a.isIndex
  | .pgath p rr d a => p.wf && p.sz == 0 && rr.val != 0 && d.isUnit && a.wf && a.isIndex
  | .pscat p rr d a => p.wf && p.sz == 0 && rr.val != 0 && a.isUnit && d.wf && d.isIndex
  | .prdc p d a => p.wf && p.sz == 0 && d.wfMem && a.wfMem && !d.isIndex && !a.isIndex
  | .pfill p d a => p.wf && p.sz.toNat ≤ 3 && d.wfMem && a.isScal
  | _ => true

end Sys2Proof
end

