-- ==== Sys2Proof/Decode.lean ====
section
/-!
DEFINITION. Reading an instruction from its bits, and the bits of an instruction (spec/05_encoding.md; the 64-bit
fields of tile, pump and attention instructions from their entries in chapters 10, 11 and 12). `decode` is total on
any 64 bits: it answers the instruction and its length in halfwords, or the name of the reason for which R121 raises
ILLEGAL. `encode` is written from the same tables.
-/
namespace Sys2Proof

/-- Why a bit pattern raises ILLEGAL (05 R121). -/
inductive DecodeErr where
  /-- A reserved major (R105). -/
  | major
  /-- A funct10 value that is not listed (R106 to R110). -/
  | funct10
  /-- An opcode6 value that is not listed (R114, R117). -/
  | opcode6
  /-- A funct3 value that is not listed (R115). -/
  | funct3
  /-- A funct6 value that is not listed (R117 and the entries). -/
  | funct6
  /-- A compact sub-code that is not listed, or a zero register field (R118, R119). -/
  | compact
  /-- An operand code that is not listed: a condition, type, scope, class, field or register number. -/
  | operand
  /-- A field that must be zero is not. -/
  | notZero
  /-- A specifier in a mode its place does not take, N = 31 in mode 01 or 10, or a policy bit on mode 11. -/
  | specifier
  /-- A count, offset or region outside its range (R105, R153, R270, R271). -/
  | range
  deriving DecidableEq, Repr

/-- The result of reading one instruction. -/
abbrev Dec (α : Type) := Except DecodeErr α

/-- Put the n bits of x below the bits of rest. -/
def pk (n : Nat) (x : BitVec n) (rest : Nat) : Nat := x.toNat + 2 ^ n * rest

/-- The lowest n bits. -/
def lo (n : Nat) (w : Nat) : BitVec n := BitVec.ofNat n w

/-- What is left above the lowest n bits. -/
def up (n : Nat) (w : Nat) : Nat := w / 2 ^ n

/-- Register number as a field. -/
def b5 (r : Reg) : BitVec 5 := ⟨r⟩

/-- Bool as a one-bit field. -/
def b1 (b : Bool) : BitVec 1 := if b then 1 else 0

/-- One-bit field as Bool. -/
def ofB1 (x : BitVec 1) : Bool := x == 1

/-- `some` value, or the reason. -/
def orErr {α : Type} (e : DecodeErr) : Option α → Dec α
  | some a => .ok a
  | none => .error e

/-- The value when the check holds, or the reason. -/
def chk {α : Type} (e : DecodeErr) (c : Bool) (a : α) : Dec α := if c then .ok a else .error e

/-- AMO operations (R109). -/
def encAmoOp : AmoOp → BitVec 4
  | .add => 0
  | .and => 1
  | .or => 2
  | .xor => 3
  | .min => 4
  | .max => 5
  | .minu => 6
  | .maxu => 7
  | .swap => 8

/-- The inverse of `encAmoOp`; other codes are not listed. -/
def decAmoOp (x : BitVec 4) : Option AmoOp :=
  match x.toNat with
  | 0 => some .add
  | 1 => some .and
  | 2 => some .or
  | 3 => some .xor
  | 4 => some .min
  | 5 => some .max
  | 6 => some .minu
  | 7 => some .maxu
  | 8 => some .swap
  | _ => none

/-- Ordering codes (R108). -/
def encOrd : Ord → BitVec 3
  | .none => 0
  | .acqDie => 1
  | .acqPkg => 2
  | .relDie => 3
  | .relPkg => 4
  | .scDie => 5
  | .scPkg => 6

/-- The inverse of `encOrd`; other codes are not listed. -/
def decOrd (x : BitVec 3) : Option Ord :=
  match x.toNat with
  | 0 => some .none
  | 1 => some .acqDie
  | 2 => some .acqPkg
  | 3 => some .relDie
  | 4 => some .relPkg
  | 5 => some .scDie
  | 6 => some .scPkg
  | _ => none

/-- Type field of scalar floating point (R107). -/
def encFType : FType → BitVec 2
  | .bf16 => 0
  | .fp16 => 1
  | .fp32 => 2
  | .fp64 => 3

/-- The inverse of `encFType`; other codes are not listed. -/
def decFType (x : BitVec 2) : Option FType :=
  match x.toNat with
  | 0 => some .bf16
  | 1 => some .fp16
  | 2 => some .fp32
  | _ => some .fp64

/-- FCMP conditions (R107). -/
def encFCond : FCond → BitVec 4
  | .eq => 0
  | .lt => 1
  | .le => 2
  | .un => 3

/-- The inverse of `encFCond`; other codes are not listed. -/
def decFCond (x : BitVec 4) : Option FCond :=
  match x.toNat with
  | 0 => some .eq
  | 1 => some .lt
  | 2 => some .le
  | 3 => some .un
  | _ => none

/-- FCVT type codes (R107). -/
def encCvtType : CvtType → BitVec 3
  | .bf16 => 0
  | .fp16 => 1
  | .fp32 => 2
  | .fp64 => 3
  | .i64 => 4
  | .n64 => 5

/-- The inverse of `encCvtType`; other codes are not listed. -/
def decCvtType (x : BitVec 3) : Option CvtType :=
  match x.toNat with
  | 0 => some .bf16
  | 1 => some .fp16
  | 2 => some .fp32
  | 3 => some .fp64
  | 4 => some .i64
  | 5 => some .n64
  | _ => none

/-- FENCE scopes (R110). -/
def encScope : Scope → BitVec 5
  | .seq => 0
  | .clu => 1
  | .die => 2
  | .pkg => 3
  | .sys => 4

/-- The inverse of `encScope`; other codes are not listed. -/
def decScope (x : BitVec 5) : Option Scope :=
  match x.toNat with
  | 0 => some .seq
  | 1 => some .clu
  | 2 => some .die
  | 3 => some .pkg
  | 4 => some .sys
  | _ => none

/-- FENCEX classes (R110). -/
def encPathClass : PathClass → BitVec 5
  | .v => 0
  | .m => 1
  | .a => 2
  | .p => 3
  | .h => 4

/-- The inverse of `encPathClass`; other codes are not listed. -/
def decPathClass (x : BitVec 5) : Option PathClass :=
  match x.toNat with
  | 0 => some .v
  | 1 => some .m
  | 2 => some .a
  | 3 => some .p
  | 4 => some .h
  | _ => none

/-- Barrier scopes (R110). -/
def encBScope : BScope → BitVec 2
  | .clu => 0
  | .die => 1
  | .pkg => 2
  | .stg => 3

/-- The inverse of `encBScope`; other codes are not listed. -/
def decBScope (x : BitVec 2) : Option BScope :=
  match x.toNat with
  | 0 => some .clu
  | 1 => some .die
  | 2 => some .pkg
  | _ => some .stg

/-- Tile-descriptor field codes (R110). -/
def encTdField : TdField → BitVec 5
  | .base => 0
  | .base2 => 1
  | .rows => 2
  | .cols => 3
  | .etype => 4
  | .stride => 5
  | .orow => 6
  | .ocol => 7
  | .gwidth => 8
  | .stream => 9

/-- The inverse of `encTdField`; other codes are not listed. -/
def decTdField (x : BitVec 5) : Option TdField :=
  match x.toNat with
  | 0 => some .base
  | 1 => some .base2
  | 2 => some .rows
  | 3 => some .cols
  | 4 => some .etype
  | 5 => some .stride
  | 6 => some .orow
  | 7 => some .ocol
  | 8 => some .gwidth
  | 9 => some .stream
  | _ => none

/-- Mask select (01 R25). -/
def encMSel : MSel → BitVec 2
  | .none => 0
  | .cmask0 => 1
  | .cmask1 => 2
  | .notCmask0 => 3

/-- The inverse of `encMSel`; other codes are not listed. -/
def decMSel (x : BitVec 2) : Option MSel :=
  match x.toNat with
  | 0 => some .none
  | 1 => some .cmask0
  | 2 => some .cmask1
  | _ => some .notCmask0

/-- VCMP conditions (R115). -/
def encICond : ICond → BitVec 3
  | .eq => 0
  | .ne => 1
  | .lt => 2
  | .ge => 3
  | .ltu => 4
  | .geu => 5

/-- The inverse of `encICond`; other codes are not listed. -/
def decICond (x : BitVec 3) : Option ICond :=
  match x.toNat with
  | 0 => some .eq
  | 1 => some .ne
  | 2 => some .lt
  | 3 => some .ge
  | 4 => some .ltu
  | 5 => some .geu
  | _ => none

/-- VFCMP conditions (R115). -/
def encVFCond : VFCond → BitVec 3
  | .eq => 0
  | .ne => 1
  | .lt => 2
  | .le => 3
  | .un => 4

/-- The inverse of `encVFCond`; other codes are not listed. -/
def decVFCond (x : BitVec 3) : Option VFCond :=
  match x.toNat with
  | 0 => some .eq
  | 1 => some .ne
  | 2 => some .lt
  | 3 => some .le
  | 4 => some .un
  | _ => none

/-- Operations of VSCAN (R115). -/
def encRedOp : RedOp → BitVec 3
  | .sum => 0
  | .max => 1
  | .min => 2
  | .and => 3
  | .or => 4
  | .xor => 5

/-- The inverse of `encRedOp`; other codes are not listed. -/
def decRedOp (x : BitVec 3) : Option RedOp :=
  match x.toNat with
  | 0 => some .sum
  | 1 => some .max
  | 2 => some .min
  | 3 => some .and
  | 4 => some .or
  | 5 => some .xor
  | _ => none

/-- ATTN hints (12 R304). -/
def encAttnHint : AttnHint → BitVec 2
  | .ae => 0
  | .me => 1
  | .auto => 2

/-- The inverse of `encAttnHint`; other codes are not listed. -/
def decAttnHint (x : BitVec 2) : Option AttnHint :=
  match x.toNat with
  | 0 => some .ae
  | 1 => some .me
  | 2 => some .auto
  | _ => none

/-- Control-register numbers (R111). -/
def encCReg : CReg → BitVec 5
  | .vl => 0
  | .vtype => 1
  | .vlmax => 2
  | .vcap => 3
  | .cmask0 => 4
  | .cmask1 => 5
  | .cvalid => 6
  | .cld => 7
  | .cgkey => 8
  | .cgdraw => 9
  | .cflags => 10
  | .ctrap => 11
  | .csump => 12
  | .cprio => 13
  | .cstage => 14
  | .cid => 15
  | .cquota => 16
  | .cdet => 17
  | .cptbase => 18
  | .sq0 => 24
  | .sq1 => 25
  | .sq2 => 26
  | .sq3 => 27

/-- The control register of a number; reserved numbers have none (R111). -/
def decCReg (x : BitVec 5) : Option CReg :=
  match x.toNat with
  | 0 => some .vl
  | 1 => some .vtype
  | 2 => some .vlmax
  | 3 => some .vcap
  | 4 => some .cmask0
  | 5 => some .cmask1
  | 6 => some .cvalid
  | 7 => some .cld
  | 8 => some .cgkey
  | 9 => some .cgdraw
  | 10 => some .cflags
  | 11 => some .ctrap
  | 12 => some .csump
  | 13 => some .cprio
  | 14 => some .cstage
  | 15 => some .cid
  | 16 => some .cquota
  | 17 => some .cdet
  | 18 => some .cptbase
  | 24 => some .sq0
  | 25 => some .sq1
  | 26 => some .sq2
  | 27 => some .sq3
  | _ => none

/-- A specifier: N in bits 4:0, mode in bits 6:5 (01 R24). -/
def encSpec : Spec → BitVec 7
  | .unit r => (0 : BitVec 2) ++ b5 r
  | .stride r => (1 : BitVec 2) ++ b5 r
  | .index r => (2 : BitVec 2) ++ b5 r
  | .scal r => (3 : BitVec 2) ++ b5 r

/-- Read a specifier; modes 01 and 10 with N = 31 are illegal (01 R24). -/
def decSpec (x : BitVec 7) : Dec Spec :=
  let r : Reg := (x.extractLsb' 0 5).toFin
  match (x.extractLsb' 5 2).toNat with
  | 0 => .ok (.unit r)
  | 1 => chk .specifier (r.val != 31) (.stride r)
  | 2 => chk .specifier (r.val != 31) (.index r)
  | _ => .ok (.scal r)

/-- A memory destination (R113). -/
def decDst (x : BitVec 7) : Dec Spec := do
  let s ← decSpec x
  chk .specifier (!s.isScal) s

/-- A source with its policy bit (R113). -/
def decSrc (x : BitVec 7) (p : Bool) : Dec Spec := do
  let s ← decSpec x
  chk .specifier (!(p && s.isScal)) s

/-! The formats. -/

/-- Fields of the three-register format (R104). -/
structure F32 where
  maj : BitVec 5
  d : Reg
  a : Reg
  b : Reg
  f : BitVec 10
  deriving DecidableEq, Repr

/-- Read the three-register format. -/
def f32 (w : Nat) : F32 :=
  let w := up 2 w
  { maj := lo 5 w, d := (lo 5 (up 5 w)).toFin, a := (lo 5 (up 10 w)).toFin, b := (lo 5 (up 15 w)).toFin,
    f := lo 10 (up 20 w) }

/-- Three-register format. -/
def e3 (maj : BitVec 5) (d a b : Reg) (f : BitVec 10) : Nat :=
  pk 2 3 (pk 5 maj (pk 5 (b5 d) (pk 5 (b5 a) (pk 5 (b5 b) (pk 10 f 0)))))

/-- Register-immediate format, and the branch format with its two registers in bits 11:7 and 16:12. -/
def eI (maj : BitVec 5) (d a : Reg) (imm : BitVec 15) : Nat :=
  pk 2 3 (pk 5 maj (pk 5 (b5 d) (pk 5 (b5 a) (pk 15 imm 0))))

/-- Jump format. -/
def eJ (maj : BitVec 5) (d : Reg) (imm : BitVec 20) : Nat :=
  pk 2 3 (pk 5 maj (pk 5 (b5 d) (pk 20 imm 0)))

/-- imm15 of a 32-bit instruction (R104). -/
def imm15 (w : Nat) : BitVec 15 := lo 15 (up 17 w)

/-- imm20 of a 32-bit instruction (R104). -/
def imm20 (w : Nat) : BitVec 20 := lo 20 (up 12 w)

/-- Fields of the 48-bit format (R112). -/
structure F48 where
  op : BitVec 6
  d : BitVec 7
  a : BitVec 7
  b : BitVec 7
  c : BitVec 7
  m : MSel
  pa : Bool
  pb : Bool
  pc : Bool
  f : BitVec 3
  deriving DecidableEq, Repr

/-- Read the 48-bit format. -/
def f48 (w : Nat) : F48 :=
  let w := up 6 w
  { op := lo 6 w, d := lo 7 (up 6 w), a := lo 7 (up 13 w), b := lo 7 (up 20 w), c := lo 7 (up 27 w),
    m := (decMSel (lo 2 (up 34 w))).getD .none,
    pa := ofB1 (lo 1 (up 36 w)), pb := ofB1 (lo 1 (up 37 w)), pc := ofB1 (lo 1 (up 38 w)), f := lo 3 (up 39 w) }

/-- The 48-bit format. -/
def e48 (op : BitVec 6) (f : BitVec 3) (d a b c : BitVec 7) (m : MSel) (pa pb pc : Bool) : Nat :=
  pk 6 31 (pk 6 op (pk 7 d (pk 7 a (pk 7 b (pk 7 c (pk 2 (encMSel m) (pk 1 (b1 pa) (pk 1 (b1 pb) (pk 1 (b1 pc)
    (pk 3 f 0))))))))))

/-- Fields of the 64-bit format (R116). -/
structure F64 where
  op : BitVec 6
  d : BitVec 7
  a : BitVec 7
  f6 : BitVec 6
  imm : BitVec 32
  deriving DecidableEq, Repr

/-- Read the 64-bit format. -/
def f64 (w : Nat) : F64 :=
  let w := up 6 w
  { op := lo 6 w, d := lo 7 (up 6 w), a := lo 7 (up 13 w), f6 := lo 6 (up 20 w), imm := lo 32 (up 26 w) }

/-- The 64-bit format. -/
def e64 (op : BitVec 6) (d a : BitVec 7) (f6 : BitVec 6) (imm : BitVec 32) : Nat :=
  pk 6 63 (pk 6 op (pk 7 d (pk 7 a (pk 6 f6 (pk 32 imm 0)))))

/-- 00 followed by a register number. -/
def reg7 (r : Reg) : BitVec 7 := (0 : BitVec 2) ++ b5 r

/-- Read 00 followed by a register number. -/
def decReg7 (x : BitVec 7) : Dec Reg := chk .notZero (x.extractLsb' 5 2 == 0) (x.extractLsb' 0 5).toFin

/-! 48-bit operand groups: unused specifiers and their policy bits are zero (R113). -/

/-- D alone. -/
def decVD (x : F48) : Dec VD := do
  let d ← decDst x.d
  chk .notZero (x.a == 0 && x.b == 0 && x.c == 0 && !x.pa && !x.pb && !x.pc) { d, mask := x.m }

/-- D and A. -/
def decVA (x : F48) : Dec VA := do
  let d ← decDst x.d
  let a ← decSrc x.a x.pa
  chk .notZero (x.b == 0 && x.c == 0 && !x.pb && !x.pc) { d, a, pa := x.pa, mask := x.m }

/-- D and A where D may be an x register. -/
def decVAS (x : F48) : Dec VA := do
  let d ← decSpec x.d
  let a ← decSrc x.a x.pa
  chk .notZero (x.b == 0 && x.c == 0 && !x.pb && !x.pc) { d, a, pa := x.pa, mask := x.m }

/-- An x register in D, and A. -/
def decVA1 (x : F48) : Dec (Reg × VA1) := do
  let d ← decSpec x.d
  let a ← decSrc x.a x.pa
  match d with
  | .scal r => chk .notZero (x.b == 0 && x.c == 0 && !x.pb && !x.pc) (r, { a, pa := x.pa, mask := x.m })
  | _ => .error .specifier

/-- D, A and B. -/
def decVAB (x : F48) : Dec VAB := do
  let d ← decDst x.d
  let a ← decSrc x.a x.pa
  let b ← decSrc x.b x.pb
  chk .notZero (x.c == 0 && !x.pc) { d, a, b, pa := x.pa, pb := x.pb, mask := x.m }

/-- D, A, B and C. -/
def decVABC (x : F48) : Dec VABC := do
  let d ← decDst x.d
  let a ← decSrc x.a x.pa
  let b ← decSrc x.b x.pb
  let c ← decSrc x.c x.pc
  .ok { d, a, b, c, pa := x.pa, pb := x.pb, pc := x.pc, mask := x.m }

/-- D, A, B and C where D may be an x register. -/
def decVABCS (x : F48) : Dec VABC := do
  let d ← decSpec x.d
  let a ← decSrc x.a x.pa
  let b ← decSrc x.b x.pb
  let c ← decSrc x.c x.pc
  .ok { d, a, b, c, pa := x.pa, pb := x.pb, pc := x.pc, mask := x.m }

/-- D, A, and a mode-11 B: the count of the slides (R115). -/
def decVSlide (x : F48) : Dec (Reg × VA) := do
  let d ← decDst x.d
  let a ← decSrc x.a x.pa
  let b ← decSrc x.b x.pb
  match b with
  | .scal r => chk .notZero (x.c == 0 && !x.pc) (r, { d, a, pa := x.pa, mask := x.m })
  | _ => .error .specifier

/-- D, A, B and a mode-11 C: VWAIT (R115). -/
def decVWait (x : F48) : Dec (Reg × VAB) := do
  let d ← decDst x.d
  let a ← decSrc x.a x.pa
  let b ← decSrc x.b x.pb
  let c ← decSrc x.c x.pc
  match c with
  | .scal r => .ok (r, { d, a, b, pa := x.pa, pb := x.pb, mask := x.m })
  | _ => .error .specifier

/-- VAMO: the operation in bits 3:0 of C, bits 6:4 and bit 44 zero; D is memory or x0 (R115). -/
def decVAmo (x : F48) : Dec (AmoOp × VAB) := do
  let d ← decSpec x.d
  let a ← decSrc x.a x.pa
  let b ← decSrc x.b x.pb
  let op ← orErr .operand (decAmoOp (x.c.extractLsb' 0 4))
  let d ← chk .specifier (!d.isScal || d == .scal 0) d
  chk .notZero (x.c.extractLsb' 4 3 == 0 && !x.pc) (op, { d, a, b, pa := x.pa, pb := x.pb, mask := x.m })

/-- funct3 is 000. -/
def f0 {α : Type} (x : F48) (r : Dec α) : Dec α := if x.f == 0 then r else .error .funct3

/-- The 48-bit instructions (R114, R115). -/
def decode48 (x : F48) : Dec Instr :=
  match x.op.toNat with
  | 0x00 => f0 x (decVAB x >>= fun v => .ok (.vadd v))
  | 0x01 => f0 x (decVAB x >>= fun v => .ok (.vsub v))
  | 0x02 => f0 x (decVAB x >>= fun v => .ok (.vrsub v))
  | 0x03 => f0 x (decVAB x >>= fun v => .ok (.vmul v))
  | 0x04 =>
    match x.f.toNat with
    | 0 => decVAB x >>= fun v => .ok (.vmulh v)
    | 1 => decVAB x >>= fun v => .ok (.vmulhu v)
    | _ => .error .funct3
  | 0x05 =>
    match x.f.toNat with
    | 0 => decVAB x >>= fun v => .ok (.vdiv v)
    | 1 => decVAB x >>= fun v => .ok (.vdivu v)
    | 2 => decVAB x >>= fun v => .ok (.vrem v)
    | _ => .error .funct3
  | 0x06 =>
    match x.f.toNat with
    | 0 => decVAB x >>= fun v => .ok (.vmin v)
    | 1 => decVAB x >>= fun v => .ok (.vmax v)
    | 2 => decVAB x >>= fun v => .ok (.vminu v)
    | 3 => decVAB x >>= fun v => .ok (.vmaxu v)
    | _ => .error .funct3
  | 0x07 =>
    match x.f.toNat with
    | 0 => decVAB x >>= fun v => .ok (.vand v)
    | 1 => decVAB x >>= fun v => .ok (.vor v)
    | 2 => decVAB x >>= fun v => .ok (.vxor v)
    | 3 => decVAB x >>= fun v => .ok (.vandn v)
    | _ => .error .funct3
  | 0x08 =>
    match x.f.toNat with
    | 0 => decVAB x >>= fun v => .ok (.vsll v)
    | 1 => decVAB x >>= fun v => .ok (.vsrl v)
    | 2 => decVAB x >>= fun v => .ok (.vsra v)
    | _ => .error .funct3
  | 0x09 =>
    match x.f.toNat with
    | 0 => decVABC x >>= fun v => .ok (.vadc v)
    | 1 => decVABC x >>= fun v => .ok (.vadcCo v)
    | _ => .error .funct3
  | 0x0A =>
    match x.f.toNat with
    | 0 => decVABC x >>= fun v => .ok (.vsbc v)
    | 1 => decVABC x >>= fun v => .ok (.vsbcCo v)
    | _ => .error .funct3
  | 0x0B => orErr .funct3 (decICond x.f) >>= fun c => decVAB x >>= fun v => .ok (.vcmp c v)
  | 0x0C => f0 x (decVAB x >>= fun v => chk .operand (v.mask != .none) (.vmerge v))
  | 0x0D => f0 x (decVA x >>= fun v => .ok (.vmv v))
  | 0x0E => f0 x (decVABCS x >>= fun v => .ok (.vdots v))
  | 0x0F => orErr .funct3 (decRedOp x.f) >>= fun op => decVA x >>= fun v => .ok (.vscan op v)
  | 0x10 => f0 x (decVAB x >>= fun v => .ok (.vfadd v))
  | 0x11 => f0 x (decVAB x >>= fun v => .ok (.vfsub v))
  | 0x12 => f0 x (decVAB x >>= fun v => .ok (.vfmul v))
  | 0x13 => f0 x (decVABC x >>= fun v => .ok (.vffma v))
  | 0x14 => f0 x (decVAB x >>= fun v => .ok (.vfdiv v))
  | 0x15 => f0 x (decVA x >>= fun v => .ok (.vfsqrt v))
  | 0x16 =>
    match x.f.toNat with
    | 0 => decVAB x >>= fun v => .ok (.vfmin v)
    | 1 => decVAB x >>= fun v => .ok (.vfmax v)
    | _ => .error .funct3
  | 0x17 => orErr .funct3 (decVFCond x.f) >>= fun c => decVAB x >>= fun v => .ok (.vfcmp c v)
  | 0x18 =>
    match x.f.toNat with
    | 0 => decVA x >>= fun v => .ok (.vexp2 v)
    | 1 => decVA x >>= fun v => .ok (.vlog2 v)
    | 2 => decVA x >>= fun v => .ok (.vrcp v)
    | 3 => decVA x >>= fun v => .ok (.vrsq v)
    | 4 => decVA x >>= fun v => .ok (.vtanh v)
    | 5 => decVA x >>= fun v => .ok (.vsin v)
    | 6 => decVA x >>= fun v => .ok (.vcos v)
    | _ => .error .funct3
  | 0x1A =>
    match x.f.toNat with
    | 0 => decVAS x >>= fun v => .ok (.vredsum v)
    | 1 => decVAS x >>= fun v => .ok (.vredmax v)
    | 2 => decVAS x >>= fun v => .ok (.vredmin v)
    | 3 => decVAS x >>= fun v => .ok (.vredand v)
    | 4 => decVAS x >>= fun v => .ok (.vredor v)
    | 5 => decVAS x >>= fun v => .ok (.vredxor v)
    | _ => .error .funct3
  | 0x1B =>
    match x.f.toNat with
    | 0 => decVSlide x >>= fun p => .ok (.vslideup p.1 p.2)
    | 1 => decVSlide x >>= fun p => .ok (.vslidedn p.1 p.2)
    | _ => .error .funct3
  | 0x1C =>
    match x.f.toNat with
    | 0 => decVAB x >>= fun v => .ok (.vmand v)
    | 1 => decVAB x >>= fun v => .ok (.vmor v)
    | 2 => decVAB x >>= fun v => .ok (.vmxor v)
    | 3 => decVAB x >>= fun v => .ok (.vmandn v)
    | 4 => decVA x >>= fun v => .ok (.vmnot v)
    | _ => .error .funct3
  | 0x1D =>
    match x.f.toNat with
    | 0 => decVA1 x >>= fun p => .ok (.vmpop p.1 p.2)
    | 1 => decVA1 x >>= fun p => .ok (.vmfirst p.1 p.2)
    | 2 => decVA1 x >>= fun p => .ok (.vmlast p.1 p.2)
    | 3 => decVA1 x >>= fun p => .ok (.vmany p.1 p.2)
    | _ => .error .funct3
  | 0x1E =>
    match x.f.toNat with
    | 0 => decVA x >>= fun v => .ok (.vgauss v)
    | 1 => decVA x >>= fun v => .ok (.vgaussPert v)
    | _ => .error .funct3
  | 0x1F =>
    match x.f.toNat with
    | 0 => decVA x >>= fun v => .ok (.vrand v)
    | 1 => decVA x >>= fun v => .ok (.vrandSr v)
    | _ => .error .funct3
  | 0x20 => orErr .operand (decOrd x.f) >>= fun o => decVA x >>= fun v => .ok (.vld o v)
  | 0x21 => orErr .operand (decOrd x.f) >>= fun o => decVA x >>= fun v => .ok (.vst o v)
  | 0x22 => orErr .operand (decOrd x.f) >>= fun o => decVA x >>= fun v => .ok (.vstx o v)
  | 0x23 => orErr .operand (decOrd x.f) >>= fun o => decVAmo x >>= fun p => .ok (.vamo p.1 o p.2)
  | 0x24 => orErr .operand (decOrd x.f) >>= fun o => decVABC x >>= fun v => .ok (.vcas o v)
  | 0x25 => f0 x (decVD x >>= fun v => .ok (.vempty v))
  | 0x26 => f0 x (decVD x >>= fun v => .ok (.vfill v))
  | 0x27 => f0 x (decVWait x >>= fun p => .ok (.vwait p.1 p.2))
  | 0x28 => f0 x (decVA x >>= fun v => chk .specifier v.d.isUnit (.vown v))
  | _ => .error .opcode6

/-- The fields that the pump instructions share (11 R283): TAG, xR, xP, xL, SZ, policy, mask. -/
def decPump (x : F64) : Dec (PumpArgs × Reg) :=
  let p : PumpArgs :=
    { tag := x.imm.extractLsb' 16 16, xp := (x.imm.extractLsb' 5 5).toFin, xl := (x.imm.extractLsb' 0 5).toFin,
      sz := x.f6.extractLsb' 3 3, pol := x.f6.getLsbD 2, mask := (decMSel (x.f6.extractLsb' 0 2)).getD .none }
  if x.imm.getLsbD 15 then .error .notZero
  else chk .operand p.wf (p, (x.imm.extractLsb' 10 5).toFin)

/-- imm32 of a pump instruction. -/
def immPump (p : PumpArgs) (rr : Reg) : BitVec 32 := p.tag ++ (0 : BitVec 1) ++ b5 rr ++ b5 p.xp ++ b5 p.xl

/-- funct6 of a pump instruction. -/
def f6Pump (p : PumpArgs) : BitVec 6 := p.sz ++ b1 p.pol ++ encMSel p.mask

/-- imm32 of MMA and MMAE (10 R267). -/
def immMma (ta tb : BitVec 4) (arow : BitVec 9) (acol : BitVec 7) : BitVec 32 :=
  (0 : BitVec 8) ++ acol ++ arow ++ tb ++ ta

/-- imm32 of ACCZ (10 R270). -/
def immAccz (arow : BitVec 9) (acol : BitVec 7) (nr : BitVec 9) (nc : BitVec 7) : BitVec 32 := nc ++ nr ++ acol ++ arow

/-- imm32 of ACCIN and DRAIN (10 R271, R272). -/
def immAcc (arow : BitVec 9) (acol nc : BitVec 7) : BitVec 32 := (0 : BitVec 9) ++ nc ++ acol ++ arow

/-- The 64-bit instructions (R117). -/
def decode64 (x : F64) : Dec Instr :=
  match x.op.toNat with
  | 0x00 => decDst x.d >>= fun d =>
    chk .notZero (x.a == 0 && x.f6 == 0) (.vidx d (x.imm.extractLsb' 0 16) (x.imm.extractLsb' 16 16))
  | 0x01 => decDst x.d >>= fun d => decSpec x.a >>= fun a => chk .notZero (x.f6 == 0) (.vmsh d a x.imm)
  | 0x02 => decDst x.d >>= fun d => decSpec x.a >>= fun a =>
    let s : SrcType := { code := x.f6.extractLsb' 0 5, prec := x.imm.extractLsb' 0 4 }
    if x.f6.getLsbD 5 || x.imm.extractLsb' 4 28 != 0 then .error .notZero
    else chk .operand s.wf (.vcvt s d a)
  | 0x03 =>
    if x.a != 0 || x.d.extractLsb' 5 2 != 3 then .error .notZero
    else match x.f6.toNat with
      | 0 => .ok (.liLong (x.d.extractLsb' 0 5).toFin x.imm)
      | 1 => .ok (.liHi (x.d.extractLsb' 0 5).toFin x.imm)
      | _ => .error .funct6
  | 0x08 => decReg7 x.d >>= fun h =>
    chk .notZero (x.a == 0 && x.f6.extractLsb' 1 5 == 0 && x.imm.extractLsb' 24 8 == 0)
      (.mma (x.f6.getLsbD 0) h (x.imm.extractLsb' 0 4) (x.imm.extractLsb' 4 4) (x.imm.extractLsb' 8 9)
        (x.imm.extractLsb' 17 7))
  | 0x09 => decReg7 x.d >>= fun h => decReg7 x.a >>= fun r =>
    chk .notZero (x.f6.extractLsb' 1 5 == 0 && x.imm.extractLsb' 24 8 == 0)
      (.mmae (x.f6.getLsbD 0) h r (x.imm.extractLsb' 0 4) (x.imm.extractLsb' 4 4) (x.imm.extractLsb' 8 9)
        (x.imm.extractLsb' 17 7))
  | 0x0A => decReg7 x.d >>= fun h =>
    if x.a != 0 || x.f6 != 0 then .error .notZero
    else
      let i : Instr := .accz h (x.imm.extractLsb' 0 9) (x.imm.extractLsb' 9 7) (x.imm.extractLsb' 16 9)
        (x.imm.extractLsb' 25 7)
      chk .range i.wf i
  | 0x0B => decReg7 x.d >>= fun h => decSpec x.a >>= fun a =>
    if x.f6.extractLsb' 4 2 != 0 || x.f6.getLsbD 0 || x.imm.extractLsb' 23 9 != 0 then .error .notZero
    else
      let i : Instr := .accin h a (x.f6.getLsbD 3) ((decMSel (x.f6.extractLsb' 1 2)).getD .none)
        (x.imm.extractLsb' 0 9) (x.imm.extractLsb' 9 7) (x.imm.extractLsb' 16 7)
      chk .range i.wf i
  | 0x0C => decDst x.d >>= fun d => decReg7 x.a >>= fun h =>
    if x.f6.extractLsb' 3 3 != 0 || x.imm.extractLsb' 23 9 != 0 then .error .notZero
    else
      let i : Instr := .drain (x.f6.getLsbD 0) h d ((decMSel (x.f6.extractLsb' 1 2)).getD .none)
        (x.imm.extractLsb' 0 9) (x.imm.extractLsb' 9 7) (x.imm.extractLsb' 16 7)
      chk .range i.wf i
  | 0x0D => decReg7 x.d >>= fun r => chk .notZero (x.a == 0 && x.f6 == 0 && x.imm == 0) (.tsub r)
  | 0x10 => decPump x >>= fun p => decSpec x.d >>= fun d => decSpec x.a >>= fun a =>
    let i : Instr := .pcopy p.1 d a
    chk .specifier (p.2.val == 0 && i.wf) i
  | 0x11 => decPump x >>= fun p => decSpec x.d >>= fun d => decSpec x.a >>= fun a =>
    let i : Instr := .pgath p.1 p.2 d a
    chk .specifier i.wf i
  | 0x12 => decPump x >>= fun p => decSpec x.d >>= fun d => decSpec x.a >>= fun a =>
    let i : Instr := .pscat p.1 p.2 d a
    chk .specifier i.wf i
  | 0x13 => decPump x >>= fun p => decSpec x.d >>= fun d => decSpec x.a >>= fun a =>
    let i : Instr := .prdc p.1 d a
    chk .specifier (p.2.val == 0 && i.wf) i
  | 0x14 => decPump x >>= fun p => decSpec x.d >>= fun d => decSpec x.a >>= fun a =>
    let i : Instr := .pfill p.1 d a
    chk .specifier (p.2.val == 0 && i.wf) i
  | 0x18 => decReg7 x.d >>= fun c => orErr .operand (decAttnHint (x.f6.extractLsb' 0 2)) >>= fun h =>
    chk .notZero (x.a == 0 && x.f6.extractLsb' 2 4 == 0)
      (.attn h c (x.imm.extractLsb' 0 16) (x.imm.extractLsb' 16 16))
  | 0x19 => decReg7 x.d >>= fun c => decReg7 x.a >>= fun a =>
    chk .notZero (x.f6 == 0 && x.imm.extractLsb' 5 27 == 0) (.kvw c a (x.imm.extractLsb' 0 5).toFin)
  | 0x1A => decReg7 x.d >>= fun c => decReg7 x.a >>= fun a =>
    chk .notZero (x.f6 == 0 && x.imm.extractLsb' 5 27 == 0) (.kvinv c a (x.imm.extractLsb' 0 5).toFin)
  | _ => .error .opcode6

/-- Major 00000: integer operations (R106). -/
def decodeInt (x : F32) : Dec Instr :=
  match x.f.toNat with
  | 0 => .ok (.add x.d x.a x.b)
  | 1 => .ok (.sub x.d x.a x.b)
  | 2 => .ok (.mul x.d x.a x.b)
  | 3 => .ok (.mulh x.d x.a x.b)
  | 4 => .ok (.mulhu x.d x.a x.b)
  | 5 => .ok (.div x.d x.a x.b)
  | 6 => .ok (.divu x.d x.a x.b)
  | 7 => .ok (.rem x.d x.a x.b)
  | 8 => .ok (.remu x.d x.a x.b)
  | 9 => .ok (.and x.d x.a x.b)
  | 10 => .ok (.or x.d x.a x.b)
  | 11 => .ok (.xor x.d x.a x.b)
  | 12 => .ok (.andn x.d x.a x.b)
  | 13 => .ok (.sll x.d x.a x.b)
  | 14 => .ok (.srl x.d x.a x.b)
  | 15 => .ok (.sra x.d x.a x.b)
  | 16 => .ok (.slt x.d x.a x.b)
  | 17 => .ok (.sltu x.d x.a x.b)
  | 18 => .ok (.min x.d x.a x.b)
  | 19 => .ok (.max x.d x.a x.b)
  | 20 => .ok (.minu x.d x.a x.b)
  | 21 => .ok (.maxu x.d x.a x.b)
  | 22 => chk .notZero (x.b.val == 0) (.clz x.d x.a)
  | 23 => chk .notZero (x.b.val == 0) (.ctz x.d x.a)
  | 24 => chk .notZero (x.b.val == 0) (.popc x.d x.a)
  | _ => .error .funct10

/-- AMO and AMOCAS fields (R109). -/
def decodeAmo (x : F32) : Dec Instr :=
  orErr .operand (decAmoOp (x.f.extractLsb' 6 4)) >>= fun op =>
  orErr .operand (decOrd (x.f.extractLsb' 3 3)) >>= fun o =>
  chk .notZero (x.f.extractLsb' 1 2 == 0) (.amo op o (x.f.getLsbD 0) x.d x.b x.a)

/-- AMOCAS (R109). -/
def decodeAmocas (x : F32) : Dec Instr :=
  orErr .operand (decOrd (x.f.extractLsb' 3 3)) >>= fun o =>
  chk .notZero (x.f.extractLsb' 1 2 == 0 && x.f.extractLsb' 6 4 == 0) (.amocas o (x.f.getLsbD 0) x.d x.b x.a)

/-- Major 01110: scalar floating point (R107). -/
def decodeFp (x : F32) : Dec Instr :=
  let t := (decFType (x.f.extractLsb' 4 2)).getD .bf16
  let z := x.f.extractLsb' 0 4 == 0
  match (x.f.extractLsb' 6 4).toNat with
  | 0 => chk .notZero z (.fadd t x.d x.a x.b)
  | 1 => chk .notZero z (.fsub t x.d x.a x.b)
  | 2 => chk .notZero z (.fmul t x.d x.a x.b)
  | 3 => chk .notZero z (.ffma t x.d x.a x.b)
  | 4 => chk .notZero z (.fdiv t x.d x.a x.b)
  | 5 => chk .notZero (z && x.b.val == 0) (.fsqrt t x.d x.a)
  | 6 => chk .notZero z (.fmin t x.d x.a x.b)
  | 7 => chk .notZero z (.fmax t x.d x.a x.b)
  | 8 => orErr .operand (decFCond (x.f.extractLsb' 0 4)) >>= fun c => .ok (.fcmp c t x.d x.a x.b)
  | 9 =>
    orErr .operand (decCvtType (x.f.extractLsb' 3 3)) >>= fun dst =>
    orErr .operand (decCvtType (x.f.extractLsb' 0 3)) >>= fun src =>
    let i : Instr := .fcvt dst src x.d x.a
    if x.b.val != 0 then .error .notZero else chk .operand i.wf i
  | _ => .error .funct10

/-- Major 11011: system operations (R110). -/
def decodeSys (x : F32) : Dec Instr :=
  let d := x.d
  let a := x.a
  let b := x.b
  let zd := d.val == 0
  let za := a.val == 0
  let zb := b.val == 0
  let bs := (decBScope (x.f.extractLsb' 0 2)).getD .clu
  match x.f.toNat with
  | 0x000 => orErr .operand (decScope (b5 d)) >>= fun s => chk .notZero (za && zb) (.fence s)
  | 0x001 =>
    orErr .operand (decPathClass (b5 a)) >>= fun c1 =>
    orErr .operand (decPathClass (b5 b)) >>= fun c2 =>
    if zd then chk .operand (c1 != c2) (.fencex c1 c2) else .error .notZero
  | 0x002 => chk .notZero (zd && za && zb) .iflush
  | 0x003 => chk .notZero (zd && zb) (.trap (b5 a))
  | 0x004 => chk .notZero (zd && za && zb) .rett
  | 0x005 => chk .notZero (zd && za && zb) .bkpt
  | 0x006 => chk .notZero (zd && zb) (.mon a)
  | 0x007 => chk .notZero zb (.mwait d a)
  | 0x008 => chk .notZero (za && zb) (.tick d)
  | 0x009 =>
    orErr .operand (decCReg (b5 d)) >>= fun c =>
    if zb then chk .operand (!c.isStream) (.movcWrite c a) else .error .notZero
  | 0x00A => orErr .operand (decCReg (b5 a)) >>= fun c => chk .notZero zb (.movcRead d c)
  | 0x00B => orErr .operand (decCReg (b5 a)) >>= fun c => chk .operand (!c.isStream) (.movcw d c b)
  | 0x00C => chk .notZero zb (.setvl d a)
  | 0x00D => .ok (.setvlc d a b)
  | 0x00E => chk .notZero zd (.pubhw a b)
  | 0x00F => chk .notZero zb (.ownq d a)
  | 0x010 => if zb then chk .operand ((b5 a).toNat ≤ 5) (.lix d (b5 a)) else .error .notZero
  | 0x011 => chk .notZero (zd && za && zb) .lbrk
  | 0x018 => chk .notZero (zd && zb) (.spawn a)
  | 0x019 => chk .notZero (zd && zb) (.join a)
  | 0x01A => chk .notZero (zd && za && zb) .exit
  | 0x020 => chk .notZero zd (.barcfg bs a b)
  | 0x021 => chk .notZero zd (.barcfg bs a b)
  | 0x022 => chk .notZero zd (.barcfg bs a b)
  | 0x023 => chk .notZero zd (.barcfg bs a b)
  | 0x024 => chk .notZero zb (.arrive bs d a)
  | 0x025 => chk .notZero zb (.arrive bs d a)
  | 0x026 => chk .notZero zb (.arrive bs d a)
  | 0x027 => chk .notZero zb (.arrive bs d a)
  | 0x028 => chk .notZero zd (.waitb bs a b)
  | 0x029 => chk .notZero zd (.waitb bs a b)
  | 0x02a => chk .notZero zd (.waitb bs a b)
  | 0x02b => chk .notZero zd (.waitb bs a b)
  | 0x02c => chk .notZero (zd && zb) (.arrwait bs a)
  | 0x02d => chk .notZero (zd && zb) (.arrwait bs a)
  | 0x02e => chk .notZero (zd && zb) (.arrwait bs a)
  | 0x02f => chk .notZero (zd && zb) (.arrwait bs a)
  | 0x030 => chk .notZero zd (.tlbinv a b)
  | 0x031 => chk .notZero zb (.pgq d a)
  | 0x038 => chk .notZero (zd && zb) (.ctxld a)
  | 0x039 => chk .notZero (zd && zb) (.ctxst a)
  | 0x03A => chk .notZero (za && zb) (.sumppop d)
  | 0x040 => chk .notZero zb (.lease d a)
  | 0x041 => chk .notZero (zd && zb) (.lfree a)
  | 0x042 => chk .notZero zb (.lstat d a)
  | 0x043 => chk .notZero (zd && zb) (.lwait a)
  | 0x048 =>
    orErr .operand (decTdField (b5 b)) >>= fun f =>
    chk .operand (d.val < 16) (.movtd ((b5 d).extractLsb' 0 4) f a)
  | 0x049 =>
    orErr .operand (decTdField (b5 b)) >>= fun f =>
    chk .operand (a.val < 16) (.rdtd d ((b5 a).extractLsb' 0 4) f)
  | 0x050 => if zb then chk .operand (d.val < 4) (.bindq ((b5 d).extractLsb' 0 2) a) else .error .notZero
  | 0x051 => if za && zb then chk .operand (d.val < 4) (.unbindq ((b5 d).extractLsb' 0 2)) else .error .notZero
  | 0x058 => chk .notZero (zd && zb) (.gbegin a)
  | 0x059 => chk .notZero (za && zb) (.gcommit d)
  | 0x05A => chk .notZero (zd && za && zb) .gabort
  | 0x060 => chk .notZero (zd && zb) (.logmark a)
  | _ => .error .funct10

/-- The 32-bit instructions (R105). -/
def decode32 (w : Nat) : Dec Instr :=
  let x := f32 w
  let i := imm15 w
  match x.maj.toNat with
  | 0b00000 => decodeInt x
  | 0b00001 => .ok (.addi x.d x.a i)
  | 0b00010 => .ok (.andi x.d x.a i)
  | 0b00011 => .ok (.ori x.d x.a i)
  | 0b00100 => .ok (.xori x.d x.a i)
  | 0b00101 => .ok (.slti x.d x.a i)
  | 0b00110 =>
    match (i.extractLsb' 6 9).toNat with
    | 0 => .ok (.slli x.d x.a (i.extractLsb' 0 6))
    | 1 => .ok (.srli x.d x.a (i.extractLsb' 0 6))
    | 2 => .ok (.srai x.d x.a (i.extractLsb' 0 6))
    | _ => .error .operand
  | 0b01000 => .ok (.liShort x.d (imm20 w))
  | 0b01001 => .ok (.ld x.d x.a i)
  | 0b01010 => .ok (.st x.d x.a i)
  | 0b01011 => .ok (.ldfe x.d x.a i)
  | 0b01100 => decodeAmo x
  | 0b01101 => decodeAmocas x
  | 0b01110 => decodeFp x
  | 0b10000 => .ok (.beq x.d x.a i)
  | 0b10001 => .ok (.bne x.d x.a i)
  | 0b10010 => .ok (.blt x.d x.a i)
  | 0b10011 => .ok (.bge x.d x.a i)
  | 0b10100 => .ok (.bltu x.d x.a i)
  | 0b10101 => .ok (.bgeu x.d x.a i)
  | 0b10110 => .ok (.jal x.d (imm20 w))
  | 0b11000 => .ok (.jalr x.d x.a i)
  | 0b11001 => if x.a.val != 0 then .error .notZero else chk .range (wfLoopOff i) (.loop x.d i)
  | 0b11010 =>
    let n : BitVec 10 := lo 10 (up 7 w)
    chk .range (n.toNat != 0 && wfLoopOff i) (.loopi n i)
  | 0b11011 => decodeSys x
  | 0b11110 => .ok (.hintNop (lo 25 (up 7 w)))
  | _ => .error .major

/-- Compact vector operations (R119). -/
def decodeCop (n : Reg) (cop : BitVec 6) : Dec Instr :=
  if n.val == 0 then .error .compact
  else match cop.toNat with
  | 0 => .ok (.cVadd n)
  | 1 => .ok (.cVsub n)
  | 2 => .ok (.cVmul n)
  | 3 => .ok (.cVand n)
  | 4 => .ok (.cVor n)
  | 5 => .ok (.cVxor n)
  | 6 => .ok (.cVmin n)
  | 7 => .ok (.cVmax n)
  | 8 => .ok (.cVminu n)
  | 9 => .ok (.cVmaxu n)
  | 10 => .ok (.cVfadd n)
  | 11 => .ok (.cVfmul n)
  | 12 => .ok (.cVfmin n)
  | 13 => .ok (.cVfmax n)
  | 14 => .ok (.cVmand n)
  | 15 => .ok (.cVmor n)
  | 16 => .ok (.cVmxor n)
  | 17 => .ok (.cVmandn n)
  | _ => .error .compact

/-- The 16-bit instructions (R118). -/
def decode16 (w : Nat) : Dec Instr :=
  match (lo 2 w).toNat with
  | 0 =>
    let r : Reg := (lo 5 (up 8 w)).toFin
    let n : BitVec 6 := lo 6 (up 2 w)
    if r.val == 0 then .error .compact
    else match (lo 3 (up 13 w)).toNat with
      | 0 => .ok (.cAddi r n)
      | 1 => .ok (.cLi r n)
      | 2 => .ok (.cSlli r n)
      | 3 => .ok (.cSrli r n)
      | 4 => .ok (.cSrai r n)
      | 5 => .ok (.cLd r n)
      | 6 => .ok (.cSt r n)
      | _ => .error .compact
  | 1 =>
    let d : Reg := (lo 5 (up 7 w)).toFin
    let a : Reg := (lo 5 (up 2 w)).toFin
    if d.val == 0 then .error .compact
    else match (lo 4 (up 12 w)).toNat with
      | 0 => .ok (.cAdd d a)
      | 1 => .ok (.cSub d a)
      | 2 => .ok (.cAnd d a)
      | 3 => .ok (.cOr d a)
      | 4 => .ok (.cXor d a)
      | 5 => .ok (.cSll d a)
      | 6 => .ok (.cSrl d a)
      | 7 => .ok (.cSra d a)
      | 8 => .ok (.cMul d a)
      | 9 => .ok (.cMin d a)
      | 10 => .ok (.cMax d a)
      | 11 => .ok (.cMv d a)
      | _ => .error .compact
  | _ =>
    let r : Reg := (lo 5 (up 8 w)).toFin
    let n : BitVec 6 := lo 6 (up 2 w)
    match (lo 3 (up 13 w)).toNat with
    | 0 => .ok (.cBeqz r n)
    | 1 => .ok (.cBnez r n)
    | 2 => .ok (.cJ (lo 11 (up 2 w)))
    | 3 =>
      match (lo 11 (up 2 w)).toNat with
      | 0 => .ok .cNop
      | 1 => .ok .cExit
      | 2 => .ok .cBkpt
      | 3 => .ok .cLbrk
      | _ => .error .compact
    | 4 => decodeCop r n
    | _ => .error .compact

/-- The length in halfwords, from bits 5:0 of the first halfword (R102). -/
def lenOf (w : Nat) : Nat :=
  if w % 4 != 3 then 1 else if w / 4 % 8 != 7 then 2 else if w / 32 % 2 == 0 then 3 else 4

/-- Read the instruction whose first halfword is the low 16 bits of w; bits above its length play no part. -/
def decode (w : Nat) : Dec Instr :=
  match lenOf w with
  | 1 => decode16 (w % 2 ^ 16)
  | 2 => decode32 (w % 2 ^ 32)
  | 3 => decode48 (f48 (w % 2 ^ 48))
  | _ => decode64 (f64 (w % 2 ^ 64))

/-- The row's instruction: `w` holds the `nbits` bits the table gives the row, numbered as the table numbers them,
and every bit above them is zero. -/
def decodeTableWord (nbits w : Nat) : Option Instr :=
  match decode (w % 2 ^ nbits) with
  | .ok i => some i
  | .error _ => none

/-! The encoder. -/

/-- Compact quadrant 00 (R118). -/
def eC0 (f : BitVec 3) (r : Reg) (n : BitVec 6) : Nat := pk 2 0 (pk 6 n (pk 5 (b5 r) (pk 3 f 0)))
/-- Compact quadrant 01 (R118). -/
def eC1 (f : BitVec 4) (d a : Reg) : Nat := pk 2 1 (pk 5 (b5 a) (pk 5 (b5 d) (pk 4 f 0)))
/-- Compact quadrant 10 with a register and six bits (R118). -/
def eC2 (f : BitVec 3) (r : Reg) (n : BitVec 6) : Nat := pk 2 2 (pk 6 n (pk 5 (b5 r) (pk 3 f 0)))
/-- Compact quadrant 10 with eleven bits (R118). -/
def eC3 (f : BitVec 3) (n : BitVec 11) : Nat := pk 2 2 (pk 11 n (pk 3 f 0))
/-- Three-register system operation (R110). -/
def eSys (f : BitVec 10) (d a b : Reg) : Nat := e3 0b11011 d a b f
/-- Scalar floating point (R107). -/
def eFp (op : BitVec 4) (t : FType) (c : BitVec 4) (d a b : Reg) : Nat := e3 0b01110 d a b (op ++ encFType t ++ c)
/-- 48-bit with D, A, B. -/
def eVAB (op : BitVec 6) (f : BitVec 3) (v : VAB) : Nat :=
  e48 op f (encSpec v.d) (encSpec v.a) (encSpec v.b) 0 v.mask v.pa v.pb false
/-- 48-bit with D, A, B, C. -/
def eVABC (op : BitVec 6) (f : BitVec 3) (v : VABC) : Nat :=
  e48 op f (encSpec v.d) (encSpec v.a) (encSpec v.b) (encSpec v.c) v.mask v.pa v.pb v.pc
/-- 48-bit with D, A. -/
def eVA (op : BitVec 6) (f : BitVec 3) (v : VA) : Nat := e48 op f (encSpec v.d) (encSpec v.a) 0 0 v.mask v.pa false false
/-- 48-bit with an x register and A. -/
def eVA1 (op : BitVec 6) (f : BitVec 3) (r : Reg) (v : VA1) : Nat :=
  e48 op f (encSpec (.scal r)) (encSpec v.a) 0 0 v.mask v.pa false false
/-- 48-bit with D. -/
def eVD (op : BitVec 6) (v : VD) : Nat := e48 op 0 (encSpec v.d) 0 0 0 v.mask false false false
/-- Slides. -/
def eVSlide (f : BitVec 3) (r : Reg) (v : VA) : Nat :=
  e48 0x1B f (encSpec v.d) (encSpec v.a) (encSpec (.scal r)) 0 v.mask v.pa false false

/-- The number of a register field of 4 bits. -/
def r4 (n : BitVec 4) : Reg := ⟨n.toNat, by omega⟩
/-- The number of a register field of 2 bits. -/
def r2 (n : BitVec 2) : Reg := ⟨n.toNat, by omega⟩

/-- The length of an instruction in halfwords (R102); an event has none. -/
def Instr.len : Instr → Nat
  | .add _ _ _ => 2
  | .sub _ _ _ => 2
  | .mul _ _ _ => 2
  | .mulh _ _ _ => 2
  | .mulhu _ _ _ => 2
  | .div _ _ _ => 2
  | .divu _ _ _ => 2
  | .rem _ _ _ => 2
  | .remu _ _ _ => 2
  | .and _ _ _ => 2
  | .or _ _ _ => 2
  | .xor _ _ _ => 2
  | .andn _ _ _ => 2
  | .sll _ _ _ => 2
  | .srl _ _ _ => 2
  | .sra _ _ _ => 2
  | .slt _ _ _ => 2
  | .sltu _ _ _ => 2
  | .min _ _ _ => 2
  | .max _ _ _ => 2
  | .minu _ _ _ => 2
  | .maxu _ _ _ => 2
  | .clz _ _ => 2
  | .ctz _ _ => 2
  | .popc _ _ => 2
  | .addi _ _ _ => 2
  | .andi _ _ _ => 2
  | .ori _ _ _ => 2
  | .xori _ _ _ => 2
  | .slti _ _ _ => 2
  | .slli _ _ _ => 2
  | .srli _ _ _ => 2
  | .srai _ _ _ => 2
  | .liShort _ _ => 2
  | .liLong _ _ => 4
  | .liHi _ _ => 4
  | .ld _ _ _ => 2
  | .st _ _ _ => 2
  | .ldfe _ _ _ => 2
  | .amo _ _ _ _ _ _ => 2
  | .amocas _ _ _ _ _ => 2
  | .fadd _ _ _ _ => 2
  | .fsub _ _ _ _ => 2
  | .fmul _ _ _ _ => 2
  | .ffma _ _ _ _ => 2
  | .fdiv _ _ _ _ => 2
  | .fsqrt _ _ _ => 2
  | .fmin _ _ _ _ => 2
  | .fmax _ _ _ _ => 2
  | .fcmp _ _ _ _ _ => 2
  | .fcvt _ _ _ _ => 2
  | .beq _ _ _ => 2
  | .bne _ _ _ => 2
  | .blt _ _ _ => 2
  | .bge _ _ _ => 2
  | .bltu _ _ _ => 2
  | .bgeu _ _ _ => 2
  | .jal _ _ => 2
  | .jalr _ _ _ => 2
  | .loop _ _ => 2
  | .loopi _ _ => 2
  | .hintNop _ => 2
  | .fence _ => 2
  | .fencex _ _ => 2
  | .iflush => 2
  | .trap _ => 2
  | .rett => 2
  | .bkpt => 2
  | .mon _ => 2
  | .mwait _ _ => 2
  | .tick _ => 2
  | .movcWrite _ _ => 2
  | .movcRead _ _ => 2
  | .movcw _ _ _ => 2
  | .setvl _ _ => 2
  | .setvlc _ _ _ => 2
  | .pubhw _ _ => 2
  | .ownq _ _ => 2
  | .lix _ _ => 2
  | .lbrk => 2
  | .spawn _ => 2
  | .join _ => 2
  | .exit => 2
  | .barcfg _ _ _ => 2
  | .arrive _ _ _ => 2
  | .waitb _ _ _ => 2
  | .arrwait _ _ => 2
  | .tlbinv _ _ => 2
  | .pgq _ _ => 2
  | .ctxld _ => 2
  | .ctxst _ => 2
  | .sumppop _ => 2
  | .lease _ _ => 2
  | .lfree _ => 2
  | .lstat _ _ => 2
  | .lwait _ => 2
  | .movtd _ _ _ => 2
  | .rdtd _ _ _ => 2
  | .bindq _ _ => 2
  | .unbindq _ => 2
  | .gbegin _ => 2
  | .gcommit _ => 2
  | .gabort => 2
  | .logmark _ => 2
  | .cAddi _ _ => 1
  | .cLi _ _ => 1
  | .cSlli _ _ => 1
  | .cSrli _ _ => 1
  | .cSrai _ _ => 1
  | .cLd _ _ => 1
  | .cSt _ _ => 1
  | .cAdd _ _ => 1
  | .cSub _ _ => 1
  | .cAnd _ _ => 1
  | .cOr _ _ => 1
  | .cXor _ _ => 1
  | .cSll _ _ => 1
  | .cSrl _ _ => 1
  | .cSra _ _ => 1
  | .cMul _ _ => 1
  | .cMin _ _ => 1
  | .cMax _ _ => 1
  | .cMv _ _ => 1
  | .cBeqz _ _ => 1
  | .cBnez _ _ => 1
  | .cJ _ => 1
  | .cNop => 1
  | .cExit => 1
  | .cBkpt => 1
  | .cLbrk => 1
  | .cVadd _ => 1
  | .cVsub _ => 1
  | .cVmul _ => 1
  | .cVand _ => 1
  | .cVor _ => 1
  | .cVxor _ => 1
  | .cVmin _ => 1
  | .cVmax _ => 1
  | .cVminu _ => 1
  | .cVmaxu _ => 1
  | .cVfadd _ => 1
  | .cVfmul _ => 1
  | .cVfmin _ => 1
  | .cVfmax _ => 1
  | .cVmand _ => 1
  | .cVmor _ => 1
  | .cVmxor _ => 1
  | .cVmandn _ => 1
  | .vadd _ => 3
  | .vsub _ => 3
  | .vrsub _ => 3
  | .vmul _ => 3
  | .vmulh _ => 3
  | .vmulhu _ => 3
  | .vdiv _ => 3
  | .vdivu _ => 3
  | .vrem _ => 3
  | .vmin _ => 3
  | .vmax _ => 3
  | .vminu _ => 3
  | .vmaxu _ => 3
  | .vand _ => 3
  | .vor _ => 3
  | .vxor _ => 3
  | .vandn _ => 3
  | .vsll _ => 3
  | .vsrl _ => 3
  | .vsra _ => 3
  | .vadc _ => 3
  | .vadcCo _ => 3
  | .vsbc _ => 3
  | .vsbcCo _ => 3
  | .vcmp _ _ => 3
  | .vmerge _ => 3
  | .vmv _ => 3
  | .vdots _ => 3
  | .vscan _ _ => 3
  | .vfadd _ => 3
  | .vfsub _ => 3
  | .vfmul _ => 3
  | .vffma _ => 3
  | .vfdiv _ => 3
  | .vfsqrt _ => 3
  | .vfmin _ => 3
  | .vfmax _ => 3
  | .vfcmp _ _ => 3
  | .vexp2 _ => 3
  | .vlog2 _ => 3
  | .vrcp _ => 3
  | .vrsq _ => 3
  | .vtanh _ => 3
  | .vsin _ => 3
  | .vcos _ => 3
  | .vredsum _ => 3
  | .vredmax _ => 3
  | .vredmin _ => 3
  | .vredand _ => 3
  | .vredor _ => 3
  | .vredxor _ => 3
  | .vslideup _ _ => 3
  | .vslidedn _ _ => 3
  | .vmand _ => 3
  | .vmor _ => 3
  | .vmxor _ => 3
  | .vmandn _ => 3
  | .vmnot _ => 3
  | .vmpop _ _ => 3
  | .vmfirst _ _ => 3
  | .vmlast _ _ => 3
  | .vmany _ _ => 3
  | .vgauss _ => 3
  | .vgaussPert _ => 3
  | .vrand _ => 3
  | .vrandSr _ => 3
  | .vld _ _ => 3
  | .vst _ _ => 3
  | .vstx _ _ => 3
  | .vamo _ _ _ => 3
  | .vcas _ _ => 3
  | .vempty _ => 3
  | .vfill _ => 3
  | .vwait _ _ => 3
  | .vown _ => 3
  | .vidx _ _ _ => 4
  | .vmsh _ _ _ => 4
  | .vcvt _ _ _ => 4
  | .mma _ _ _ _ _ _ => 4
  | .mmae _ _ _ _ _ _ _ => 4
  | .accz _ _ _ _ _ => 4
  | .accin _ _ _ _ _ _ _ => 4
  | .drain _ _ _ _ _ _ _ => 4
  | .tsub _ => 4
  | .pcopy _ _ _ => 4
  | .pgath _ _ _ _ => 4
  | .pscat _ _ _ _ => 4
  | .prdc _ _ _ => 4
  | .pfill _ _ _ => 4
  | .attn _ _ _ _ => 4
  | .kvw _ _ _ => 4
  | .kvinv _ _ _ => 4
  | .reset => 0
  | .loadComplete _ _ => 0
  | .mwaitWake _ => 0
  | .streamRead _ => 0
  | .setvlcWake _ => 0
  | .exitComplete _ => 0
  | .barrierWaitMet _ => 0
  | .lwaitComplete _ => 0
  | .groupCommit _ => 0
  | .vwaitWake _ => 0
  | .elementExecute _ _ => 0
  | .vldLanding _ => 0
  | .pageWalk _ _ _ _ => 0
  | .migrationTimeout _ => 0
  | .trapEntry _ => 0
  | .haltStop _ => 0
  | .machineCheck _ _ _ => 0
  | .preemptionRequest _ => 0
  | .softTake _ => 0
  | .hardTake _ => 0
  | .leaseGrant _ => 0
  | .leaseAging _ _ _ => 0
  | .wakeComplete _ _ _ => 0
  | .evictionDecided _ => 0
  | .evictionEffect _ _ _ => 0
  | .budgetEviction _ => 0
  | .leaseReleaseComplete _ _ _ => 0
  | .matrixStep _ _ => 0
  | .acczPass _ _ => 0
  | .accinPass _ _ => 0
  | .drainPass _ _ => 0
  | .taskGateEvaluation _ _ => 0
  | .taskDispatch _ => 0
  | .taskRun _ _ => 0
  | .pumpElement _ _ _ _ => 0
  | .groupCommandRun _ => 0
  | .attnQueryBlock _ => 0
  | .fabmonWindow _ _ => 0
  | .bucketRefill _ => 0
  | .bankWave _ => 0
  | .notify _ _ => 0
  | .notifyReset _ _ _ => 0
  | .notifyDisable _ _ => 0
  | .eventTake _ => 0
  | .packetStart _ => 0
  | .waitPacketCheck _ => 0
  | .waitPacketTimeout _ => 0
  | .packetComplete _ _ => 0
  | .kernelPlacement _ => 0
  | .kernelComplete _ => 0
  | .kernelAbort _ => 0
  | .rangeChunk _ => 0
  | .rangeSteal _ _ => 0
  | .recordTake _ => 0
  | .recordAging _ _ => 0
  | .firmwareUpdate _ _ => 0
  | .firmwareRestart _ => 0
  | .linkTraining _ _ => 0
  | .laneFailure _ => 0
  | .flitReceive _ _ _ _ => 0
  | .flitReplay _ _ => 0
  | .routeFailure _ _ _ _ _ => 0
  | .retrain _ _ => 0
  | .linkstatClr _ _ => 0
  | .hostMemAccess _ _ => 0
  | .hosterrClear _ => 0
  | .peerRequest _ _ _ => 0
  | .spdmRequest _ => 0
  | .powerComparison _ _ => 0
  | .leasebudWrite _ _ _ => 0
  | .bankpwrWrite _ _ _ => 0
  | .pwrdieForce _ _ _ => 0
  | .quotaPeriod => 0
  | .tickPeriod => 0
  | .logSpaceFree _ => 0
  | .ownClaim _ _ => 0
  | .ownHandover _ _ _ => 0
  | .ownRelease _ _ => 0
  | .ownHeartbeatTimeout => 0
  | .ownHandoverTimeout => 0
  | .freezeRequest _ => 0
  | .thawRequest _ => 0
  | .frzPin _ => 0
  | .freezeTakeEffect => 0
  | .debugAccess _ => 0
  | .ecccntClr _ _ => 0
  | .registerWrite _ _ _ => 0
  | .hdmDecoderProgram _ _ => 0

/-- A row without an encoding: a step of the machine and not an instruction of a program. -/
def Instr.isEvent (i : Instr) : Bool := i.len == 0

/-- The bits of an instruction, first halfword lowest; 0 for an event. -/
def encode : Instr → Nat
  | .add rd ra rb => e3 0 rd ra rb 0
  | .sub rd ra rb => e3 0 rd ra rb 1
  | .mul rd ra rb => e3 0 rd ra rb 2
  | .mulh rd ra rb => e3 0 rd ra rb 3
  | .mulhu rd ra rb => e3 0 rd ra rb 4
  | .div rd ra rb => e3 0 rd ra rb 5
  | .divu rd ra rb => e3 0 rd ra rb 6
  | .rem rd ra rb => e3 0 rd ra rb 7
  | .remu rd ra rb => e3 0 rd ra rb 8
  | .and rd ra rb => e3 0 rd ra rb 9
  | .or rd ra rb => e3 0 rd ra rb 10
  | .xor rd ra rb => e3 0 rd ra rb 11
  | .andn rd ra rb => e3 0 rd ra rb 12
  | .sll rd ra rb => e3 0 rd ra rb 13
  | .srl rd ra rb => e3 0 rd ra rb 14
  | .sra rd ra rb => e3 0 rd ra rb 15
  | .slt rd ra rb => e3 0 rd ra rb 16
  | .sltu rd ra rb => e3 0 rd ra rb 17
  | .min rd ra rb => e3 0 rd ra rb 18
  | .max rd ra rb => e3 0 rd ra rb 19
  | .minu rd ra rb => e3 0 rd ra rb 20
  | .maxu rd ra rb => e3 0 rd ra rb 21
  | .clz rd ra => e3 0 rd ra 0 22
  | .ctz rd ra => e3 0 rd ra 0 23
  | .popc rd ra => e3 0 rd ra 0 24
  | .addi rd ra imm => eI 1 rd ra imm
  | .andi rd ra imm => eI 2 rd ra imm
  | .ori rd ra imm => eI 3 rd ra imm
  | .xori rd ra imm => eI 4 rd ra imm
  | .slti rd ra imm => eI 5 rd ra imm
  | .slli rd ra sh => eI 6 rd ra ((0 : BitVec 9) ++ sh)
  | .srli rd ra sh => eI 6 rd ra ((1 : BitVec 9) ++ sh)
  | .srai rd ra sh => eI 6 rd ra ((2 : BitVec 9) ++ sh)
  | .liShort rd imm => eJ 8 rd imm
  | .liLong rd imm => e64 3 (encSpec (.scal rd)) 0 0 imm
  | .liHi rd imm => e64 3 (encSpec (.scal rd)) 0 1 imm
  | .ld rd ra imm => eI 9 rd ra imm
  | .st rs ra imm => eI 10 rs ra imm
  | .ldfe rd ra imm => eI 11 rd ra imm
  | .amo op ord w rd rb ra => e3 12 rd ra rb (encAmoOp op ++ encOrd ord ++ (0 : BitVec 2) ++ b1 w)
  | .amocas ord w rd rb ra => e3 13 rd ra rb ((0 : BitVec 4) ++ encOrd ord ++ (0 : BitVec 2) ++ b1 w)
  | .fadd t rd ra rb => eFp 0 t 0 rd ra rb
  | .fsub t rd ra rb => eFp 1 t 0 rd ra rb
  | .fmul t rd ra rb => eFp 2 t 0 rd ra rb
  | .ffma t rd ra rb => eFp 3 t 0 rd ra rb
  | .fdiv t rd ra rb => eFp 4 t 0 rd ra rb
  | .fsqrt t rd ra => eFp 5 t 0 rd ra 0
  | .fmin t rd ra rb => eFp 6 t 0 rd ra rb
  | .fmax t rd ra rb => eFp 7 t 0 rd ra rb
  | .fcmp c t rd ra rb => eFp 8 t (encFCond c) rd ra rb
  | .fcvt dst src rd ra => e3 14 rd ra 0 ((9 : BitVec 4) ++ encCvtType dst ++ encCvtType src)
  | .beq ra rb off => eI 16 ra rb off
  | .bne ra rb off => eI 17 ra rb off
  | .blt ra rb off => eI 18 ra rb off
  | .bge ra rb off => eI 19 ra rb off
  | .bltu ra rb off => eI 20 ra rb off
  | .bgeu ra rb off => eI 21 ra rb off
  | .jal rd off => eJ 22 rd off
  | .jalr rd ra imm => eI 24 rd ra imm
  | .loop ra off => eI 25 ra 0 off
  | .loopi n off => pk 2 3 (pk 5 26 (pk 10 n (pk 15 off 0)))
  | .hintNop bits => pk 2 3 (pk 5 30 (pk 25 bits 0))
  | .fence sc => eSys 0 (encScope sc).toFin 0 0
  | .fencex c1 c2 => eSys 1 0 (encPathClass c1).toFin (encPathClass c2).toFin
  | .iflush => eSys 2 0 0 0
  | .trap k => eSys 3 0 k.toFin 0
  | .rett => eSys 4 0 0 0
  | .bkpt => eSys 5 0 0 0
  | .mon ra => eSys 6 0 ra 0
  | .mwait rd ra => eSys 7 rd ra 0
  | .tick rd => eSys 8 rd 0 0
  | .movcWrite c ra => eSys 9 (encCReg c).toFin ra 0
  | .movcRead rd c => eSys 10 rd (encCReg c).toFin 0
  | .movcw rd c rb => eSys 11 rd (encCReg c).toFin rb
  | .setvl rd ra => eSys 12 rd ra 0
  | .setvlc rd ra rb => eSys 13 rd ra rb
  | .pubhw ra rb => eSys 14 0 ra rb
  | .ownq rd ra => eSys 15 rd ra 0
  | .lix rd k => eSys 16 rd k.toFin 0
  | .lbrk => eSys 17 0 0 0
  | .spawn ra => eSys 0x18 0 ra 0
  | .join ra => eSys 0x19 0 ra 0
  | .exit => eSys 0x1A 0 0 0
  | .barcfg sc ra rb => eSys ((8 : BitVec 8) ++ encBScope sc) 0 ra rb
  | .arrive sc rd ra => eSys ((9 : BitVec 8) ++ encBScope sc) rd ra 0
  | .waitb sc ra rb => eSys ((10 : BitVec 8) ++ encBScope sc) 0 ra rb
  | .arrwait sc ra => eSys ((11 : BitVec 8) ++ encBScope sc) 0 ra 0
  | .tlbinv ra rb => eSys 0x30 0 ra rb
  | .pgq rd ra => eSys 0x31 rd ra 0
  | .ctxld ra => eSys 0x38 0 ra 0
  | .ctxst ra => eSys 0x39 0 ra 0
  | .sumppop rd => eSys 0x3A rd 0 0
  | .lease rd ra => eSys 0x40 rd ra 0
  | .lfree ra => eSys 0x41 0 ra 0
  | .lstat rd ra => eSys 0x42 rd ra 0
  | .lwait ra => eSys 0x43 0 ra 0
  | .movtd td f ra => eSys 0x48 (r4 td) ra (encTdField f).toFin
  | .rdtd rd td f => eSys 0x49 rd (r4 td) (encTdField f).toFin
  | .bindq q ra => eSys 0x50 (r2 q) ra 0
  | .unbindq q => eSys 0x51 (r2 q) 0 0
  | .gbegin ra => eSys 0x58 0 ra 0
  | .gcommit rd => eSys 0x59 rd 0 0
  | .gabort => eSys 0x5A 0 0 0
  | .logmark ra => eSys 0x60 0 ra 0
  | .cAddi rd imm => eC0 0 rd imm
  | .cLi rd imm => eC0 1 rd imm
  | .cSlli rd sh => eC0 2 rd sh
  | .cSrli rd sh => eC0 3 rd sh
  | .cSrai rd sh => eC0 4 rd sh
  | .cLd rd n => eC0 5 rd n
  | .cSt rd n => eC0 6 rd n
  | .cAdd rd ra => eC1 0 rd ra
  | .cSub rd ra => eC1 1 rd ra
  | .cAnd rd ra => eC1 2 rd ra
  | .cOr rd ra => eC1 3 rd ra
  | .cXor rd ra => eC1 4 rd ra
  | .cSll rd ra => eC1 5 rd ra
  | .cSrl rd ra => eC1 6 rd ra
  | .cSra rd ra => eC1 7 rd ra
  | .cMul rd ra => eC1 8 rd ra
  | .cMin rd ra => eC1 9 rd ra
  | .cMax rd ra => eC1 10 rd ra
  | .cMv rd ra => eC1 11 rd ra
  | .cBeqz ra off => eC2 0 ra off
  | .cBnez ra off => eC2 1 ra off
  | .cJ off => eC3 2 off
  | .cNop => eC3 3 0
  | .cExit => eC3 3 1
  | .cBkpt => eC3 3 2
  | .cLbrk => eC3 3 3
  | .cVadd n => eC2 4 n 0
  | .cVsub n => eC2 4 n 1
  | .cVmul n => eC2 4 n 2
  | .cVand n => eC2 4 n 3
  | .cVor n => eC2 4 n 4
  | .cVxor n => eC2 4 n 5
  | .cVmin n => eC2 4 n 6
  | .cVmax n => eC2 4 n 7
  | .cVminu n => eC2 4 n 8
  | .cVmaxu n => eC2 4 n 9
  | .cVfadd n => eC2 4 n 10
  | .cVfmul n => eC2 4 n 11
  | .cVfmin n => eC2 4 n 12
  | .cVfmax n => eC2 4 n 13
  | .cVmand n => eC2 4 n 14
  | .cVmor n => eC2 4 n 15
  | .cVmxor n => eC2 4 n 16
  | .cVmandn n => eC2 4 n 17
  | .vadd v => eVAB 0 0 v
  | .vsub v => eVAB 1 0 v
  | .vrsub v => eVAB 2 0 v
  | .vmul v => eVAB 3 0 v
  | .vmulh v => eVAB 4 0 v
  | .vmulhu v => eVAB 4 1 v
  | .vdiv v => eVAB 5 0 v
  | .vdivu v => eVAB 5 1 v
  | .vrem v => eVAB 5 2 v
  | .vmin v => eVAB 6 0 v
  | .vmax v => eVAB 6 1 v
  | .vminu v => eVAB 6 2 v
  | .vmaxu v => eVAB 6 3 v
  | .vand v => eVAB 7 0 v
  | .vor v => eVAB 7 1 v
  | .vxor v => eVAB 7 2 v
  | .vandn v => eVAB 7 3 v
  | .vsll v => eVAB 8 0 v
  | .vsrl v => eVAB 8 1 v
  | .vsra v => eVAB 8 2 v
  | .vadc v => eVABC 9 0 v
  | .vadcCo v => eVABC 9 1 v
  | .vsbc v => eVABC 10 0 v
  | .vsbcCo v => eVABC 10 1 v
  | .vcmp c v => eVAB 11 (encICond c) v
  | .vmerge v => eVAB 12 0 v
  | .vmv v => eVA 13 0 v
  | .vdots v => eVABC 14 0 v
  | .vscan op v => eVA 15 (encRedOp op) v
  | .vfadd v => eVAB 16 0 v
  | .vfsub v => eVAB 17 0 v
  | .vfmul v => eVAB 18 0 v
  | .vffma v => eVABC 19 0 v
  | .vfdiv v => eVAB 20 0 v
  | .vfsqrt v => eVA 21 0 v
  | .vfmin v => eVAB 22 0 v
  | .vfmax v => eVAB 22 1 v
  | .vfcmp c v => eVAB 23 (encVFCond c) v
  | .vexp2 v => eVA 24 0 v
  | .vlog2 v => eVA 24 1 v
  | .vrcp v => eVA 24 2 v
  | .vrsq v => eVA 24 3 v
  | .vtanh v => eVA 24 4 v
  | .vsin v => eVA 24 5 v
  | .vcos v => eVA 24 6 v
  | .vredsum v => eVA 0x1A 0 v
  | .vredmax v => eVA 0x1A 1 v
  | .vredmin v => eVA 0x1A 2 v
  | .vredand v => eVA 0x1A 3 v
  | .vredor v => eVA 0x1A 4 v
  | .vredxor v => eVA 0x1A 5 v
  | .vslideup cnt v => eVSlide 0 cnt v
  | .vslidedn cnt v => eVSlide 1 cnt v
  | .vmand v => eVAB 0x1C 0 v
  | .vmor v => eVAB 0x1C 1 v
  | .vmxor v => eVAB 0x1C 2 v
  | .vmandn v => eVAB 0x1C 3 v
  | .vmnot v => eVA 0x1C 4 v
  | .vmpop rd v => eVA1 0x1D 0 rd v
  | .vmfirst rd v => eVA1 0x1D 1 rd v
  | .vmlast rd v => eVA1 0x1D 2 rd v
  | .vmany rd v => eVA1 0x1D 3 rd v
  | .vgauss v => eVA 0x1E 0 v
  | .vgaussPert v => eVA 0x1E 1 v
  | .vrand v => eVA 0x1F 0 v
  | .vrandSr v => eVA 0x1F 1 v
  | .vld ord v => eVA 0x20 (encOrd ord) v
  | .vst ord v => eVA 0x21 (encOrd ord) v
  | .vstx ord v => eVA 0x22 (encOrd ord) v
  | .vamo op ord v => e48 0x23 (encOrd ord) (encSpec v.d) (encSpec v.a) (encSpec v.b) ((0 : BitVec 3) ++ encAmoOp op) v.mask v.pa v.pb false
  | .vcas ord v => eVABC 0x24 (encOrd ord) v
  | .vempty v => eVD 0x25 v
  | .vfill v => eVD 0x26 v
  | .vwait rt v => e48 0x27 0 (encSpec v.d) (encSpec v.a) (encSpec v.b) (encSpec (.scal rt)) v.mask v.pa v.pb false
  | .vown v => eVA 0x28 0 v
  | .vidx d start step => e64 0 (encSpec d) 0 0 (step ++ start)
  | .vmsh d a k => e64 1 (encSpec d) (encSpec a) 0 k
  | .vcvt src d a => e64 2 (encSpec d) (encSpec a) ((0 : BitVec 1) ++ src.code) ((0 : BitVec 28) ++ src.prec)
  | .mma z h ta tb arow acol => e64 8 (reg7 h) 0 ((0 : BitVec 5) ++ b1 z) (immMma ta tb arow acol)
  | .mmae z h draw ta tb arow acol => e64 9 (reg7 h) (reg7 draw) ((0 : BitVec 5) ++ b1 z) (immMma ta tb arow acol)
  | .accz h arow acol nrows1 ncols1 => e64 10 (reg7 h) 0 0 (immAccz arow acol nrows1 ncols1)
  | .accin h a pol mask arow acol ncol1 => e64 11 (reg7 h) (encSpec a) ((0 : BitVec 2) ++ b1 pol ++ encMSel mask ++ (0 : BitVec 1)) (immAcc arow acol ncol1)
  | .drain clr h d mask arow acol ncol1 => e64 12 (encSpec d) (reg7 h) ((0 : BitVec 3) ++ encMSel mask ++ b1 clr) (immAcc arow acol ncol1)
  | .tsub rq => e64 13 (reg7 rq) 0 0 0
  | .pcopy p d a => e64 16 (encSpec d) (encSpec a) (f6Pump p) (immPump p 0)
  | .pgath p rr d a => e64 17 (encSpec d) (encSpec a) (f6Pump p) (immPump p rr)
  | .pscat p rr d a => e64 18 (encSpec d) (encSpec a) (f6Pump p) (immPump p rr)
  | .prdc p d a => e64 19 (encSpec d) (encSpec a) (f6Pump p) (immPump p 0)
  | .pfill p d a => e64 20 (encSpec d) (encSpec a) (f6Pump p) (immPump p 0)
  | .attn hint rc qb0 nqb1 => e64 0x18 (reg7 rc) 0 ((0 : BitVec 4) ++ encAttnHint hint) (nqb1 ++ qb0)
  | .kvw rc ra rp => e64 0x19 (reg7 rc) (reg7 ra) 0 ((0 : BitVec 27) ++ b5 rp)
  | .kvinv rc ra rp => e64 0x1A (reg7 rc) (reg7 ra) 0 ((0 : BitVec 27) ++ b5 rp)
  | .reset => 0
  | .loadComplete _ _ => 0
  | .mwaitWake _ => 0
  | .streamRead _ => 0
  | .setvlcWake _ => 0
  | .exitComplete _ => 0
  | .barrierWaitMet _ => 0
  | .lwaitComplete _ => 0
  | .groupCommit _ => 0
  | .vwaitWake _ => 0
  | .elementExecute _ _ => 0
  | .vldLanding _ => 0
  | .pageWalk _ _ _ _ => 0
  | .migrationTimeout _ => 0
  | .trapEntry _ => 0
  | .haltStop _ => 0
  | .machineCheck _ _ _ => 0
  | .preemptionRequest _ => 0
  | .softTake _ => 0
  | .hardTake _ => 0
  | .leaseGrant _ => 0
  | .leaseAging _ _ _ => 0
  | .wakeComplete _ _ _ => 0
  | .evictionDecided _ => 0
  | .evictionEffect _ _ _ => 0
  | .budgetEviction _ => 0
  | .leaseReleaseComplete _ _ _ => 0
  | .matrixStep _ _ => 0
  | .acczPass _ _ => 0
  | .accinPass _ _ => 0
  | .drainPass _ _ => 0
  | .taskGateEvaluation _ _ => 0
  | .taskDispatch _ => 0
  | .taskRun _ _ => 0
  | .pumpElement _ _ _ _ => 0
  | .groupCommandRun _ => 0
  | .attnQueryBlock _ => 0
  | .fabmonWindow _ _ => 0
  | .bucketRefill _ => 0
  | .bankWave _ => 0
  | .notify _ _ => 0
  | .notifyReset _ _ _ => 0
  | .notifyDisable _ _ => 0
  | .eventTake _ => 0
  | .packetStart _ => 0
  | .waitPacketCheck _ => 0
  | .waitPacketTimeout _ => 0
  | .packetComplete _ _ => 0
  | .kernelPlacement _ => 0
  | .kernelComplete _ => 0
  | .kernelAbort _ => 0
  | .rangeChunk _ => 0
  | .rangeSteal _ _ => 0
  | .recordTake _ => 0
  | .recordAging _ _ => 0
  | .firmwareUpdate _ _ => 0
  | .firmwareRestart _ => 0
  | .linkTraining _ _ => 0
  | .laneFailure _ => 0
  | .flitReceive _ _ _ _ => 0
  | .flitReplay _ _ => 0
  | .routeFailure _ _ _ _ _ => 0
  | .retrain _ _ => 0
  | .linkstatClr _ _ => 0
  | .hostMemAccess _ _ => 0
  | .hosterrClear _ => 0
  | .peerRequest _ _ _ => 0
  | .spdmRequest _ => 0
  | .powerComparison _ _ => 0
  | .leasebudWrite _ _ _ => 0
  | .bankpwrWrite _ _ _ => 0
  | .pwrdieForce _ _ _ => 0
  | .quotaPeriod => 0
  | .tickPeriod => 0
  | .logSpaceFree _ => 0
  | .ownClaim _ _ => 0
  | .ownHandover _ _ _ => 0
  | .ownRelease _ _ => 0
  | .ownHeartbeatTimeout => 0
  | .ownHandoverTimeout => 0
  | .freezeRequest _ => 0
  | .thawRequest _ => 0
  | .frzPin _ => 0
  | .freezeTakeEffect => 0
  | .debugAccess _ => 0
  | .ecccntClr _ _ => 0
  | .registerWrite _ _ _ => 0
  | .hdmDecoderProgram _ _ => 0

end Sys2Proof
end

