-- ==== Sys2Proof/Machine/Class.lean ====
section
/-!
DEFINITION. Classes of instructions: the x registers an instruction names (spec/02_machine.md R51; 06 R141), the
instructions that handler mode accepts (15 R378), the privileged ones (05 R122), and the vector instructions that
R123 stops while vtype.VILL is set.
-/
namespace Sys2Proof.Machine

/-- The next register number, for the second register of modes 01 and 10 (01 R24). -/
def regNext (r : Reg) : Reg := r + 1

/-- Registers that an operand specifier names (01 R24). -/
def specRegs : Spec → List Reg
  | .unit r | .scal r => [r]
  | .stride r | .index r => [r, regNext r]

/-- x registers that an instruction reads or writes. -/
def instrRegs : Instr → List Reg
  | .add rd ra rb | .sub rd ra rb | .mul rd ra rb | .mulh rd ra rb | .mulhu rd ra rb | .div rd ra rb
  | .divu rd ra rb | .rem rd ra rb | .remu rd ra rb | .and rd ra rb | .or rd ra rb | .xor rd ra rb
  | .andn rd ra rb | .sll rd ra rb | .srl rd ra rb | .sra rd ra rb | .slt rd ra rb | .sltu rd ra rb
  | .min rd ra rb | .max rd ra rb | .minu rd ra rb | .maxu rd ra rb | .setvlc rd ra rb => [rd, ra, rb]
  | .clz rd ra | .ctz rd ra | .popc rd ra | .mwait rd ra | .setvl rd ra | .ownq rd ra | .pgq rd ra
  | .lease rd ra | .lstat rd ra | .cAdd rd ra | .cSub rd ra | .cAnd rd ra | .cOr rd ra | .cXor rd ra
  | .cSll rd ra | .cSrl rd ra | .cSra rd ra | .cMul rd ra | .cMin rd ra | .cMax rd ra | .cMv rd ra => [rd, ra]
  | .addi rd ra _ | .andi rd ra _ | .ori rd ra _ | .xori rd ra _ | .slti rd ra _ | .slli rd ra _
  | .srli rd ra _ | .srai rd ra _ | .ld rd ra _ | .ldfe rd ra _ | .jalr rd ra _ => [rd, ra]
  | .liShort rd _ | .liLong rd _ | .liHi rd _ | .jal rd _ | .movcRead rd _ | .lix rd _ | .cAddi rd _
  | .cLi rd _ | .cSlli rd _ | .cSrli rd _ | .cSrai rd _ => [rd]
  | .st rs ra _ => [rs, ra]
  | .amo _ _ _ rd rb ra => [rd, rb, ra]
  | .amocas _ _ rd rb ra => [rd, rb, ra]
  | .fadd _ rd ra rb | .fsub _ rd ra rb | .fmul _ rd ra rb | .ffma _ rd ra rb | .fdiv _ rd ra rb
  | .fmin _ rd ra rb | .fmax _ rd ra rb => [rd, ra, rb]
  | .fsqrt _ rd ra | .arrive _ rd ra => [rd, ra]
  | .fcmp _ _ rd ra rb => [rd, ra, rb]
  | .fcvt _ _ rd ra => [rd, ra]
  | .beq ra rb _ | .bne ra rb _ | .blt ra rb _ | .bge ra rb _ | .bltu ra rb _ | .bgeu ra rb _ => [ra, rb]
  | .loop ra _ | .cBeqz ra _ | .cBnez ra _ => [ra]
  | .mon ra | .spawn ra | .join ra | .ctxld ra | .ctxst ra | .lfree ra | .lwait ra | .gbegin ra | .logmark ra => [ra]
  | .tick rd | .sumppop rd | .gcommit rd => [rd]
  | .movcWrite _ ra | .arrwait _ ra | .bindq _ ra => [ra]
  | .movcw rd _ rb => [rd, rb]
  | .pubhw ra rb | .tlbinv ra rb => [ra, rb]
  | .barcfg _ ra rb | .waitb _ ra rb => [ra, rb]
  | .movtd _ _ ra => [ra]
  | .rdtd rd _ _ => [rd]
  | .cLd rd _ | .cSt rd _ => [rd, 1]
  | .cVadd n | .cVsub n | .cVmul n | .cVand n | .cVor n | .cVxor n | .cVmin n | .cVmax n | .cVminu n
  | .cVmaxu n | .cVfadd n | .cVfmul n | .cVfmin n | .cVfmax n | .cVmand n | .cVmor n | .cVmxor n | .cVmandn n => [n]
  | .vadd v | .vsub v | .vrsub v | .vmul v | .vmulh v | .vmulhu v | .vdiv v | .vdivu v | .vrem v | .vmin v
  | .vmax v | .vminu v | .vmaxu v | .vand v | .vor v | .vxor v | .vandn v | .vsll v | .vsrl v | .vsra v
  | .vmerge v | .vfadd v | .vfsub v | .vfmul v | .vfdiv v | .vfmin v | .vfmax v | .vmand v | .vmor v | .vmxor v
  | .vmandn v => specRegs v.d ++ specRegs v.a ++ specRegs v.b
  | .vadc v | .vadcCo v | .vsbc v | .vsbcCo v | .vdots v | .vffma v => specRegs v.d ++ specRegs v.a ++ specRegs v.b ++ specRegs v.c
  | .vcmp _ v | .vfcmp _ v => specRegs v.d ++ specRegs v.a ++ specRegs v.b
  | .vmv v | .vfsqrt v | .vexp2 v | .vlog2 v | .vrcp v | .vrsq v | .vtanh v | .vsin v | .vcos v | .vredsum v
  | .vredmax v | .vredmin v | .vredand v | .vredor v | .vredxor v | .vmnot v | .vgauss v | .vgaussPert v
  | .vrand v | .vrandSr v | .vown v => specRegs v.d ++ specRegs v.a
  | .vscan _ v | .vld _ v | .vst _ v | .vstx _ v => specRegs v.d ++ specRegs v.a
  | .vslideup cnt v | .vslidedn cnt v => [cnt] ++ specRegs v.d ++ specRegs v.a
  | .vmpop rd v | .vmfirst rd v | .vmlast rd v | .vmany rd v => [rd] ++ specRegs v.a
  | .vamo _ _ v => specRegs v.d ++ specRegs v.a ++ specRegs v.b
  | .vcas _ v => specRegs v.d ++ specRegs v.a ++ specRegs v.b ++ specRegs v.c
  | .vempty v | .vfill v => specRegs v.d
  | .vwait rt v => [rt] ++ specRegs v.d ++ specRegs v.a ++ specRegs v.b
  | .vidx d _ _ => specRegs d
  | .vmsh d a _ => specRegs d ++ specRegs a
  | .vcvt _ d a => specRegs d ++ specRegs a
  | .mma _ h _ _ _ _ => [h]
  | .mmae _ h draw _ _ _ _ => [h, draw]
  | .accz h _ _ _ _ => [h]
  | .accin h a _ _ _ _ _ => [h] ++ specRegs a
  | .drain _ h d _ _ _ _ => [h] ++ specRegs d
  | .tsub rq => [rq]
  | .pcopy p d a | .prdc p d a | .pfill p d a => [p.xp, p.xl] ++ specRegs d ++ specRegs a
  | .pgath p rr d a | .pscat p rr d a => [rr] ++ [p.xp, p.xl] ++ specRegs d ++ specRegs a
  | .attn _ rc _ _ => [rc]
  | .kvw rc ra rp | .kvinv rc ra rp => [rc, ra, rp]
  | _ => []

/-- Accepted in handler mode (15 R378). -/
def handlerOk : Instr → Bool
  | .add .. | .sub .. | .mul .. | .mulh .. | .mulhu .. | .div .. | .divu .. | .rem .. | .remu .. | .and ..
  | .or .. | .xor .. | .andn .. | .sll .. | .srl .. | .sra .. | .slt .. | .sltu .. | .min .. | .max ..
  | .minu .. | .maxu .. | .clz .. | .ctz .. | .popc .. | .addi .. | .andi .. | .ori .. | .xori .. | .slti ..
  | .slli .. | .srli .. | .srai .. | .liShort .. | .liLong .. | .liHi .. | .ld .. | .st .. | .ldfe .. | .amo ..
  | .amocas .. | .fadd .. | .fsub .. | .fmul .. | .ffma .. | .fdiv .. | .fsqrt .. | .fmin .. | .fmax ..
  | .fcmp .. | .fcvt .. | .beq .. | .bne .. | .blt .. | .bge .. | .bltu .. | .bgeu .. | .jal .. | .jalr ..
  | .movcWrite .. | .movcRead .. | .movcw .. | .tick .. | .fence .. | .fencex .. | .tlbinv .. | .pgq ..
  | .ctxld .. | .ctxst .. | .sumppop .. | .rett | .exit | .hintNop .. | .cAddi .. | .cLi .. | .cSlli ..
  | .cSrli .. | .cSrai .. | .cLd .. | .cSt .. | .cAdd .. | .cSub .. | .cAnd .. | .cOr .. | .cXor .. | .cSll ..
  | .cSrl .. | .cSra .. | .cMul .. | .cMin .. | .cMax .. | .cMv .. | .cBeqz .. | .cBnez .. | .cJ .. | .cNop
  | .cExit => true
  | _ => false

/-- 48-bit instructions, 64-bit ones except LI and LI.HI, and compact vector instructions (R123). -/
def isVec : Instr → Bool
  | .cVadd .. | .cVsub .. | .cVmul .. | .cVand .. | .cVor .. | .cVxor .. | .cVmin .. | .cVmax .. | .cVminu ..
  | .cVmaxu .. | .cVfadd .. | .cVfmul .. | .cVfmin .. | .cVfmax .. | .cVmand .. | .cVmor .. | .cVmxor ..
  | .cVmandn .. | .vadd .. | .vsub .. | .vrsub .. | .vmul .. | .vmulh .. | .vmulhu .. | .vdiv .. | .vdivu ..
  | .vrem .. | .vmin .. | .vmax .. | .vminu .. | .vmaxu .. | .vand .. | .vor .. | .vxor .. | .vandn ..
  | .vsll .. | .vsrl .. | .vsra .. | .vadc .. | .vadcCo .. | .vsbc .. | .vsbcCo .. | .vcmp .. | .vmerge ..
  | .vmv .. | .vdots .. | .vscan .. | .vfadd .. | .vfsub .. | .vfmul .. | .vffma .. | .vfdiv .. | .vfsqrt ..
  | .vfmin .. | .vfmax .. | .vfcmp .. | .vexp2 .. | .vlog2 .. | .vrcp .. | .vrsq .. | .vtanh .. | .vsin ..
  | .vcos .. | .vredsum .. | .vredmax .. | .vredmin .. | .vredand .. | .vredor .. | .vredxor .. | .vslideup ..
  | .vslidedn .. | .vmand .. | .vmor .. | .vmxor .. | .vmandn .. | .vmnot .. | .vmpop .. | .vmfirst ..
  | .vmlast .. | .vmany .. | .vgauss .. | .vgaussPert .. | .vrand .. | .vrandSr .. | .vld .. | .vst ..
  | .vstx .. | .vamo .. | .vcas .. | .vempty .. | .vfill .. | .vwait .. | .vown .. | .vidx .. | .vmsh ..
  | .vcvt .. | .mma .. | .mmae .. | .accz .. | .accin .. | .drain .. | .tsub .. | .pcopy .. | .pgath ..
  | .pscat .. | .prdc .. | .pfill .. | .attn .. | .kvw .. | .kvinv .. => true
  | _ => false

/-- Privileged instructions (R122). -/
def needsPriv : Instr → Bool
  | .rett | .ctxld .. | .ctxst .. | .tlbinv .. => true
  | _ => false

/-- Tile instructions on a lease handle (10 R260). -/
def isTile : Instr → Bool
  | .mma .. | .mmae .. | .accz .. | .accin .. | .drain .. => true
  | _ => false

/-- Pump instructions (11 R283). -/
def isPump : Instr → Bool
  | .pcopy .. | .pgath .. | .pscat .. | .prdc .. | .pfill .. => true
  | _ => false

/-- Attention commands (12 R303). -/
def isAttn : Instr → Bool
  | .attn .. | .kvw .. | .kvinv .. => true
  | _ => false

/-- Soft points before issue (06 R168). -/
def isSetvl : Instr → Bool
  | .setvl .. | .setvlc .. => true
  | _ => false

end Sys2Proof.Machine
end

