-- ==== Sys2Proof/Machine/Bits.lean ====
section
/-!
DEFINITION. Bit fields, sign extension, byte order and sparse lists keyed by a number: the helpers that the other
files of Machine/ share (spec/00_scope.md R7, R8; spec/05_encoding.md R103 for byte order).
-/
namespace Sys2Proof.Machine

/-- The n bits of a number from bit lo upward. -/
def bitsAt (w lo n : Nat) : Nat := w / 2 ^ lo % 2 ^ n

/-- The n bits of a word from bit lo upward, as a number. -/
def fld (w : Word) (lo n : Nat) : Nat := bitsAt w.toNat lo n

/-- Bit i of a number. -/
def bitAt (w i : Nat) : Bool := w.testBit i

/-- A number as a word, modulo 2^64. -/
def toWord (n : Nat) : Word := BitVec.ofNat 64 n

/-- An integer as a word, modulo 2^64. -/
def intWord (i : Int) : Word := BitVec.ofInt 64 i

/-- The two's-complement value of the low n bits of v. -/
def signedOf (n v : Nat) : Int :=
  let u := v % 2 ^ n
  if n = 0 then 0 else if u < 2 ^ (n - 1) then (u : Int) else (u : Int) - 2 ^ n

/-- The n-bit two's-complement pattern of an integer. -/
def patOf (n : Nat) (i : Int) : Nat := (i % (2 ^ n : Int)).toNat

/-- Sign extension to 64 bits. -/
def sext {n : Nat} (x : BitVec n) : Word := x.signExtend 64

/-- The n bytes of a number, least significant first (05 R103; 03 R59). -/
def bytesOf : Nat → Nat → List Byte
  | 0, _ => []
  | n + 1, v => BitVec.ofNat 8 v :: bytesOf n (v / 256)

/-- The number whose bytes, least significant first, are given. -/
def ofBytes : List Byte → Nat
  | [] => 0
  | b :: r => b.toNat + 256 * ofBytes r

/-- A number with the n bits from lo upward replaced. -/
def putBits (w lo n v : Nat) : Nat :=
  w - bitsAt w lo n * 2 ^ lo + v % 2 ^ n * 2 ^ lo

/-- Bits 47:0 of a word. -/
def low48 (v : Word) : Word := v &&& 0xFFFFFFFFFFFF

/-- Bits of new bytes where the mask has ones, of old bytes elsewhere. -/
def mergeBytes (old new keep : List Byte) : List Byte :=
  (old.zip (new.zip keep)).map fun p => (p.1 &&& ~~~p.2.2) ||| (p.2.1 &&& p.2.2)

/-- Two ranges of bytes overlap. -/
def rangesMeet (a m b n : Nat) : Bool := a < b + n && b < a + m

/-- Ceiling of a quotient. -/
def ceilDiv (a b : Nat) : Nat := (a + b - 1) / b

/-- The value at a key of a sparse list. -/
def smapGet {α : Type} (k : Nat) : List (Nat × α) → Option α
  | [] => none
  | p :: r => if p.1 = k then some p.2 else smapGet k r

/-- Remove a key. -/
def smapDel {α : Type} (k : Nat) (l : List (Nat × α)) : List (Nat × α) := l.filter fun p => p.1 != k

/-- Put a value at a key, keeping keys rising. -/
def smapSet {α : Type} (k : Nat) (v : α) : List (Nat × α) → List (Nat × α)
  | [] => [(k, v)]
  | p :: r =>
    if k < p.1 then (k, v) :: p :: smapDel k r
    else if p.1 = k then (k, v) :: smapDel k r
    else p :: smapSet k v r

/-- Add a number to a rising list. -/
def nsetAdd (k : Nat) : List Nat → List Nat
  | [] => [k]
  | p :: r => if k < p then k :: p :: r else if p = k then p :: r else p :: nsetAdd k r

/-- Remove a number from a rising list. -/
def nsetDel (k : Nat) (l : List Nat) : List Nat := l.filter fun p => p != k

/-- The first element that maps to a value. -/
def firstSome {α β : Type} (f : α → Option β) : List α → Option β
  | [] => none
  | a :: r => match f a with
    | some b => some b
    | none => firstSome f r

/-- Replace the first element that satisfies p by its image, or leave the list. -/
def updFirst {α : Type} (p : α → Bool) (f : α → α) : List α → List α
  | [] => []
  | a :: r => if p a then f a :: r else a :: updFirst p f r

/-- Remove the first element that satisfies p. -/
def delFirst {α : Type} (p : α → Bool) : List α → List α
  | [] => []
  | a :: r => if p a then r else a :: delFirst p r

/-- The element that comes first under a strict order. -/
def minBy {α : Type} (lt : α → α → Bool) : List α → Option α
  | [] => none
  | a :: r => some (r.foldl (fun m b => if lt b m then b else m) a)

end Sys2Proof.Machine
end

