-- ==== Sys2Proof/Machine/Num.lean ====
section
/-!
DEFINITION. Exact numbers and the one rounding step (spec/03_numbers.md R62 to R69, R81 to R83, R87, R88).
An exact number is a sign, a magnitude and a binary exponent; `st` says that the true magnitude lies strictly
between m and m + 1 units of 2^e (quotients, roots and the special functions, which carry at least 128 bits).
-/
namespace Sys2Proof.Machine

/-- An exact real: (-1)^neg * (m + d) * 2^e with d = 0, or 0 < d < 1 when `st`. -/
structure Ex where
  neg : Bool
  m : Nat
  e : Int
  st : Bool
  deriving DecidableEq, Repr

/-- An exact real, an infinity, or NaN (signalling or quiet). -/
inductive Val where
  | nan (sig : Bool)
  | inf (neg : Bool)
  | num (x : Ex)
  deriving DecidableEq, Repr

/-- A floating-point format: exponent and fraction bits (R62). -/
structure Fmt where
  eb : Nat
  fb : Nat
  deriving DecidableEq, Repr

/-- bf16 (R62). -/
def Fmt.bf16 : Fmt := ⟨8, 7⟩
/-- fp16 (R62). -/
def Fmt.fp16 : Fmt := ⟨5, 10⟩
/-- fp32 (R62). -/
def Fmt.fp32 : Fmt := ⟨8, 23⟩
/-- fp64 (R62). -/
def Fmt.fp64 : Fmt := ⟨11, 52⟩
/-- w48 (R62). -/
def Fmt.w48 : Fmt := ⟨10, 37⟩

/-- Bits of a format. -/
def Fmt.bits (f : Fmt) : Nat := 1 + f.eb + f.fb
/-- Exponent of the largest finite value, which is also the bias. -/
def Fmt.emax (f : Fmt) : Int := 2 ^ (f.eb - 1) - 1
/-- Exponent of the least normal value. -/
def Fmt.emin (f : Fmt) : Int := 1 - f.emax
/-- The infinity of a sign. -/
def Fmt.inf (f : Fmt) (neg : Bool) : Nat := (if neg then 2 ^ (f.eb + f.fb) else 0) + (2 ^ f.eb - 1) * 2 ^ f.fb
/-- The canonical NaN (R62). -/
def Fmt.nan (f : Fmt) : Nat := f.inf false + 2 ^ (f.fb - 1)
/-- The largest finite value of a sign. -/
def Fmt.maxFin (f : Fmt) (neg : Bool) : Nat := f.inf neg - 1

/-- cflags bits (R70). -/
def flNX : Nat := 1
/-- Tiny and inexact. -/
def flUF : Nat := 2
/-- Overflow. -/
def flOF : Nat := 4
/-- Invalid. -/
def flNV : Nat := 8
/-- Saturated. -/
def flSAT : Nat := 16

/-- How a result is rounded: the code of vtype.RND (R65), vtype.SAT, and the uniform u under SR (R66, R67). -/
structure Rnd where
  mode : Nat
  sat : Bool
  u : Nat
  deriving DecidableEq, Repr

/-- Round to nearest even without saturation. -/
def Rnd.rne : Rnd := ⟨0, false, 0⟩

/-! ## Exact arithmetic -/

/-- A zero of a sign. -/
def Ex.zero (neg : Bool) : Ex := ⟨neg, 0, 0, false⟩

/-- An integer as an exact number; 0 is +0. -/
def Ex.ofInt (i : Int) : Ex := ⟨i < 0, i.natAbs, 0, false⟩

/-- A signed multiple of 2^e; 0 is +0. -/
def Ex.ofScaled (i : Int) (e : Int) : Ex := ⟨i < 0, i.natAbs, e, false⟩

/-- The signed numerator of x as a multiple of 2^e, for e at most x.e. -/
def Ex.at (x : Ex) (e : Int) : Int :=
  let v : Int := x.m * 2 ^ (x.e - e).toNat
  if x.neg then -v else v

/-- Exact negation. -/
def Ex.flip (x : Ex) : Ex := { x with neg := !x.neg }

/-- Exact sum. A zero sum keeps the sign of two zeros of one sign; every other zero sum is +0, or -0 under RDN
(R66). -/
def Ex.sum (mode : Nat) (a b : Ex) : Ex :=
  if a.m = 0 && b.m = 0 then Ex.zero (if a.neg == b.neg then a.neg else mode == 2)
  else
    let e := min a.e b.e
    let v := a.at e + b.at e
    if v = 0 then Ex.zero (mode == 2) else Ex.ofScaled v e

/-- Exact product. -/
def Ex.prod (a b : Ex) : Ex := ⟨a.neg != b.neg, a.m * b.m, a.e + b.e, false⟩

/-- Quotient of two exact numbers, the divisor nonzero, to 200 bits and more. -/
def Ex.quot (a b : Ex) : Ex :=
  let k := b.m.log2 + 200
  let n := a.m * 2 ^ k
  ⟨a.neg != b.neg, n / b.m, a.e - b.e - k, n % b.m != 0⟩

/-- Integer square root, one bit of the root per step from bit k - 1 down. -/
def isqrtGo : Nat → Nat → Nat → Nat
  | 0, _, acc => acc
  | k + 1, n, acc => isqrtGo k n (if (acc + 2 ^ k) * (acc + 2 ^ k) ≤ n then acc + 2 ^ k else acc)

/-- The largest natural number whose square is at most n. -/
def isqrt (n : Nat) : Nat := isqrtGo (n.log2 / 2 + 1) n 0

/-- Square root of a positive exact number, to 150 bits and more. -/
def Ex.root (x : Ex) : Ex :=
  let m := if x.e % 2 = 0 then x.m else 2 * x.m
  let e := if x.e % 2 = 0 then x.e else x.e - 1
  let n := m * 2 ^ 320
  let r := isqrt n
  ⟨false, r, e / 2 - 160, r * r != n⟩

/-- Reciprocal square root of a positive exact number. -/
def Ex.rootRecip (x : Ex) : Ex :=
  let m := if x.e % 2 = 0 then x.m else 2 * x.m
  let e := if x.e % 2 = 0 then x.e else x.e - 1
  let k := 320 + 2 * m.log2
  let r := isqrt (2 ^ k / m)
  ⟨false, r, -(e / 2) - (k / 2 : Nat), r * r * m != 2 ^ k⟩

/-- Floor of the base-2 logarithm of a nonzero magnitude. -/
def Ex.top (x : Ex) : Int := x.m.log2 + x.e

/-- Order of magnitudes and values: is a below b. -/
def Ex.lt (a b : Ex) : Bool :=
  let e := min a.e b.e
  a.at e < b.at e

/-- Equality of values (both zeros are equal). -/
def Ex.eqv (a b : Ex) : Bool :=
  let e := min a.e b.e
  a.at e == b.at e

/-! ## Bits and values -/

/-- The value of a bit pattern (R62). -/
def Fmt.decode (f : Fmt) (w : Nat) : Val :=
  let neg := w.testBit (f.eb + f.fb)
  let e := bitsAt w f.fb f.eb
  let fr := w % 2 ^ f.fb
  if e = 2 ^ f.eb - 1 then (if fr = 0 then .inf neg else .nan (!fr.testBit (f.fb - 1)))
  else if e = 0 then .num ⟨neg, fr, f.emin - f.fb, false⟩
  else .num ⟨neg, 2 ^ f.fb + fr, f.emin - f.fb + (e - 1 : Nat), false⟩

/-- Round (m + d)·2^e to a multiple of 2^q: the multiple and whether it is inexact. `up` for a magnitude that a
directed mode moves away from zero is decided from the sign (R65, R66). -/
def roundAt (rd : Rnd) (x : Ex) (q : Int) : Nat × Bool :=
  if q ≤ x.e then (x.m * 2 ^ (x.e - q).toNat, x.st)
  else
    let sh := (q - x.e).toNat
    let n := x.m / 2 ^ sh
    let r := x.m % 2 ^ sh
    if r = 0 && !x.st then (n, false)
    else
      let away := match rd.mode with
        | 0 => 2 * r > 2 ^ sh || (2 * r == 2 ^ sh && (x.st || n % 2 == 1))
        | 1 => false
        | 2 => x.neg
        | 3 => !x.neg
        | _ => r * 2 ^ 16 + rd.u * 2 ^ sh ≥ 2 ^ 16 * 2 ^ sh
      (if away then n + 1 else n, true)

/-- Which bound a directed mode or SR picks for a finite magnitude beyond the range: true for the infinity (R66). -/
def toInf (mode : Nat) (neg : Bool) : Bool :=
  match mode with
  | 1 => false
  | 2 => neg
  | 3 => !neg
  | _ => true

/-- RoundW with R68: the bits delivered and the flags raised. -/
def roundW (f : Fmt) (rd : Rnd) (v : Val) : Nat × Nat :=
  match v with
  | .nan _ => (f.nan, 0)
  | .inf neg => (f.inf neg, 0)
  | .num x =>
    let sgn := if x.neg then 2 ^ (f.eb + f.fb) else 0
    if x.m = 0 then (sgn, 0)
    else
      let ovf := if rd.sat then flSAT else flOF
      if x.top > f.emax then
        (if toInf rd.mode x.neg && !rd.sat then f.inf x.neg else f.maxFin x.neg, ovf ||| flNX)
      else
        let qmin := f.emin - f.fb
        let q := max x.top f.emin - f.fb
        let (n, inx) := roundAt rd x q
        let b := (q - qmin).toNat * 2 ^ f.fb + n
        let isInf := b ≥ f.inf false
        let fl := (if inx then flNX else 0) ||| (if isInf then ovf else 0) |||
          (if inx && x.top < f.emin then flUF else 0)
        (if isInf && rd.sat then f.maxFin x.neg else sgn + b, fl)

/-- R69: a value delivered into the integers from lo to hi. -/
def roundInt (rd : Rnd) (lo hi : Int) (v : Val) : Int × Nat :=
  let out := if rd.sat then flSAT else flNV
  match v with
  | .nan _ => (0, flNV)
  | .inf neg => (if neg then lo else hi, out)
  | .num x =>
    let (n, inx) := roundAt rd x 0
    let i : Int := if x.neg then -(n : Int) else n
    if i < lo then (lo, out) else if hi < i then (hi, out) else (i, if inx then flNX else 0)

/-- R60: an exact integer delivered into a type of n bits, signed or not: its bit pattern and flags. -/
def deliverInt (sat : Bool) (n : Nat) (signed : Bool) (i : Int) : Nat × Nat :=
  let lo : Int := if signed then -2 ^ (n - 1) else 0
  let hi : Int := if signed then 2 ^ (n - 1) - 1 else 2 ^ n - 1
  if sat && i < lo then (patOf n lo, flSAT)
  else if sat && hi < i then (patOf n hi, flSAT)
  else (patOf n i, 0)

/-! ## Operations: the exact result and the NV flag (R63, R87) -/

/-- NV for a signalling operand. -/
def sigNV : Val → Nat
  | .nan true => flNV
  | _ => 0

/-- Negated value. -/
def Val.flip : Val → Val
  | .nan s => .nan s
  | .inf n => .inf (!n)
  | .num x => .num x.flip

/-- The sign of a value. -/
def Val.neg : Val → Bool
  | .nan _ => false
  | .inf n => n
  | .num x => x.neg

/-- NaN of any kind. -/
def Val.isNan : Val → Bool
  | .nan _ => true
  | _ => false

/-- Exact zero of either sign. -/
def Val.isZero : Val → Bool
  | .num x => x.m == 0
  | _ => false

/-- a + b. -/
def fAdd (mode : Nat) (a b : Val) : Val × Nat :=
  let nv := sigNV a ||| sigNV b
  match a, b with
  | .nan _, _ => (.nan false, nv)
  | _, .nan _ => (.nan false, nv)
  | .inf x, .inf y => if x == y then (.inf x, nv) else (.nan false, flNV)
  | .inf x, .num _ => (.inf x, nv)
  | .num _, .inf y => (.inf y, nv)
  | .num x, .num y => (.num (x.sum mode y), nv)

/-- a - b. -/
def fSub (mode : Nat) (a b : Val) : Val × Nat := fAdd mode a b.flip

/-- a * b. -/
def fMul (a b : Val) : Val × Nat :=
  let nv := sigNV a ||| sigNV b
  match a, b with
  | .nan _, _ => (.nan false, nv)
  | _, .nan _ => (.nan false, nv)
  | .inf x, .inf y => (.inf (x != y), nv)
  | .inf x, .num y => if y.m = 0 then (.nan false, flNV) else (.inf (x != y.neg), nv)
  | .num x, .inf y => if x.m = 0 then (.nan false, flNV) else (.inf (x.neg != y), nv)
  | .num x, .num y => (.num (x.prod y), nv)

/-- a * b + c with one rounding; 0·∞ raises NV whatever c is (R87). -/
def fFma (mode : Nat) (a b c : Val) : Val × Nat :=
  let p := fMul a b
  let nvc := sigNV c
  let r := fAdd mode p.1 c
  (r.1, p.2 ||| r.2 ||| nvc)

/-- a / b. -/
def fDiv (a b : Val) : Val × Nat :=
  let nv := sigNV a ||| sigNV b
  match a, b with
  | .nan _, _ => (.nan false, nv)
  | _, .nan _ => (.nan false, nv)
  | .inf _, .inf _ => (.nan false, flNV)
  | .inf x, .num y => (.inf (x != y.neg), nv)
  | .num x, .inf y => (.num (Ex.zero (x.neg != y)), nv)
  | .num x, .num y =>
    if y.m = 0 then (if x.m = 0 then (.nan false, flNV) else (.inf (x.neg != y.neg), nv))
    else if x.m = 0 then (.num (Ex.zero (x.neg != y.neg)), nv)
    else (.num (x.quot y), nv)

/-- Square root; of a value below -0, NaN with NV. -/
def fSqrt (a : Val) : Val × Nat :=
  match a with
  | .nan s => (.nan false, if s then flNV else 0)
  | .inf n => if n then (.nan false, flNV) else (.inf false, 0)
  | .num x => if x.m = 0 then (.num x, 0) else if x.neg then (.nan false, flNV) else (.num x.root, 0)

/-- Is a below b, for two values that are not NaN; -0 is not below +0. -/
def Val.lt : Val → Val → Bool
  | .inf n, .inf m => n && !m
  | .inf n, .num _ => n
  | .num _, .inf m => !m
  | .num x, .num y => x.lt y
  | _, _ => false

/-- Equal values, for two values that are not NaN; the zeros are equal. -/
def Val.eqv : Val → Val → Bool
  | .inf n, .inf m => n == m
  | .num x, .num y => x.eqv y
  | _, _ => false

/-- The order in which -0 stands below +0 (06 R147). -/
def Val.below (a b : Val) : Bool :=
  a.lt b || (a.isZero && b.isZero && a.neg && !b.neg)

/-! ## Special functions (R88) -/

/-- floor(ln 2 · 2^400). -/
def ln2fix : Nat := 0xb17217f7d1cf79abc9e3b39803f2f6af40f343267298b62d8a0d175b8baafa2be7b876206debac98559552fb4afa1b10ed2e
/-- floor(π · 2^640). -/
def piFix : Nat := 0x3243f6a8885a308d313198a2e03707344a4093822299f31d0082efa98ec4e6c89452821e638d01377be5466cf34e90c6cc0ac29b7c97c50dd3f84d5b5b54709179216d5d98979fb1bd1310ba698dfb5ac

/-- Sum of r^k / k! from the term `t` of index k on, in units of 2^-p. -/
def expGo (p r : Nat) : Nat → Nat → Nat → Nat → Nat
  | 0, _, _, acc => acc
  | fuel + 1, k, t, acc => expGo p r fuel (k + 1) (t * r / 2 ^ p / (k + 1)) (acc + t)

/-- e^r for 0 ≤ r < 1, in units of 2^-p. -/
def expFix (p r : Nat) : Nat := expGo p r 130 0 (2 ^ p) 0

/-- Alternating sum of terms t, -t·r²/((k+1)(k+2)), … in units of 2^-p. -/
def altGo (p r2 : Nat) : Nat → Nat → Nat → Int → Int
  | 0, _, _, acc => acc
  | fuel + 1, k, t, acc => -(altGo p r2 fuel (k + 2) (t * r2 / 2 ^ p / ((k + 1) * (k + 2))) (-(acc + t)))

/-- sin r for 0 ≤ r < 2, in units of 2^-p. -/
def sinFix (p r : Nat) : Nat := (altGo p (r * r / 2 ^ p) 90 1 r 0).toNat
/-- cos r for 0 ≤ r < 2, in units of 2^-p. -/
def cosFix (p r : Nat) : Nat := (altGo p (r * r / 2 ^ p) 90 0 (2 ^ p) 0).toNat

/-- z + z³/3 + z⁵/5 + … in units of 2^-p. -/
def atanhGo (p z2 : Nat) : Nat → Nat → Nat → Nat → Nat
  | 0, _, _, acc => acc
  | fuel + 1, k, t, acc => atanhGo p z2 fuel (k + 2) (t * z2 / 2 ^ p) (acc + t / k)

/-- A magnitude just below m·2^e, known to be within 2^-150 of it. -/
def justBelow (neg : Bool) (m : Nat) (e : Int) : Ex := ⟨neg, m * 2 ^ 150 - 1, e - 150, true⟩

/-- 2^x of a finite x. -/
def exp2Ex (x : Ex) : Ex :=
  if x.m = 0 then ⟨false, 1, 0, false⟩
  else if x.top ≥ 8 then
    (if x.neg then ⟨false, 2 ^ 130, -600, true⟩ else ⟨false, 2 ^ 130, 300, true⟩)
  else
    let v := x.at (-256)
    let k := v / 2 ^ 256
    let fr := (v % 2 ^ 256).toNat
    if fr = 0 then ⟨false, 1, k, false⟩
    else ⟨false, expFix 256 (fr * ln2fix / 2 ^ 400), k - 256, true⟩

/-- log2 of a positive finite x. -/
def log2Ex (x : Ex) : Ex :=
  let k := x.top
  let b := x.m.log2
  if x.m = 2 ^ b then Ex.ofInt k
  else
    let t := x.m * 2 ^ 320 / 2 ^ b
    let z := (t - 2 ^ 320) * 2 ^ 320 / (t + 2 ^ 320)
    let ln := 2 * atanhGo 320 (z * z / 2 ^ 320) 120 1 z 0
    let l2 : Nat := ln * 2 ^ 400 / ln2fix
    let v : Int := k * 2 ^ 320 + (l2 : Int)
    ⟨v < 0, v.natAbs, -320, true⟩

/-- tanh of a nonzero finite x. -/
def tanhEx (x : Ex) : Ex :=
  if x.top < -90 then justBelow x.neg x.m x.e
  else if x.top ≥ 6 then justBelow x.neg 1 0
  else
    let v : Nat := (2 * x.m * 2 ^ 400) / 2 ^ (-x.e).toNat * 2 ^ x.e.toNat
    let k := v / ln2fix
    let ex := expFix 400 (v % ln2fix) * 2 ^ k
    ⟨x.neg, (ex - 2 ^ 400) * 2 ^ 300 / (ex + 2 ^ 400), -300, true⟩

/-- sin (for `c` false) or cos of a nonzero finite x. -/
def sinCosEx (c : Bool) (x : Ex) : Ex :=
  if x.top < -90 then (if c then justBelow false 1 0 else justBelow x.neg x.m x.e)
  else
    let v : Nat := 2 * x.m * 2 ^ (640 + x.e).toNat
    let q := v / piFix + (if c then 1 else 0)
    let r := v % piFix / 2
    let s := if q % 2 = 0 then sinFix 640 r else cosFix 640 r
    ⟨(q % 4 ≥ 2) != (x.neg && !c), s, -640, true⟩

/-- The seven special functions of R88. -/
inductive SpecFn where
  | exp2 | log2 | rcp | rsq | tanh | sin | cos
  deriving DecidableEq, Repr

/-- The exact value of a special function, with the special operands of R88's table. -/
def specFn (f : SpecFn) (a : Val) : Val × Nat :=
  match a with
  | .nan s => (.nan false, if s then flNV else 0)
  | .inf n => match f with
    | .exp2 => if n then (.num (Ex.zero false), 0) else (.inf false, 0)
    | .log2 => if n then (.nan false, flNV) else (.inf false, 0)
    | .rcp => (.num (Ex.zero n), 0)
    | .rsq => if n then (.nan false, flNV) else (.num (Ex.zero false), 0)
    | .tanh => (.num ⟨n, 1, 0, false⟩, 0)
    | .sin | .cos => (.nan false, flNV)
  | .num x => match f with
    | .exp2 => (.num (exp2Ex x), 0)
    | .log2 => if x.m = 0 then (.inf true, 0) else if x.neg then (.nan false, flNV) else (.num (log2Ex x), 0)
    | .rcp => if x.m = 0 then (.inf x.neg, 0) else (.num ((⟨false, 1, 0, false⟩ : Ex).quot x), 0)
    | .rsq => if x.m = 0 then (.inf x.neg, 0) else if x.neg then (.nan false, flNV) else (.num x.rootRecip, 0)
    | .tanh => if x.m = 0 then (.num x, 0) else (.num (tanhEx x), 0)
    | .sin => if x.m = 0 then (.num x, 0) else (.num (sinCosEx false x), 0)
    | .cos => if x.m = 0 then (.num ⟨false, 1, 0, false⟩, 0) else (.num (sinCosEx true x), 0)

/-! ## The slice rule (R81 to R83) -/

/-- The product of a slice's operand pair and the flags it raises. -/
def sliceProd (p : Val × Val) : Val × Nat := fMul p.1 p.2

/-- A magnitude truncated toward zero to a multiple of 2^q: the signed multiple, and whether something was lost. -/
def truncAt (q : Int) (x : Ex) : Int × Bool :=
  let r := roundAt ⟨1, false, 0⟩ x q
  (if x.neg then -(r.1 : Int) else r.1, r.2)

/-- V of finite products; `exact` when every operand is a block or a perturbed block element (R82). -/
def sliceSum (exact : Bool) (ps : List Ex) : Ex :=
  let nz := ps.filter fun x => x.m != 0
  if nz.isEmpty then Ex.zero (ps.all (·.neg) && !ps.isEmpty)
  else if exact then
    let e := nz.foldl (fun a x => min a x.e) (0 : Int)
    Ex.ofScaled (nz.foldl (fun a x => a + x.at e) 0) e
  else
    let top := nz.foldl (fun a x => max a x.top) (-100000 : Int)
    let q := top - 122
    let t := nz.map (truncAt q)
    let w := t.foldl (fun a p => a + p.1) (0 : Int)
    if t.any (·.2) && w != 0 then Ex.ofScaled (2 * w + (if w < 0 then -1 else 1)) (q - 1)
    else Ex.ofScaled w q

/-- The slice value V of up to 32 operand pairs, padded with zero products when fewer, and the NV flag (R81 to R83). -/
def sliceVal (exact : Bool) (pairs : List (Val × Val)) : Val × Nat :=
  let ps := pairs.map sliceProd
  let nv := ps.foldl (fun a p => a ||| p.2) 0
  let infs := ps.filterMap fun p => match p.1 with
    | .inf n => some n
    | _ => none
  if infs.any (fun n => n) && infs.any (fun n => !n) then (.nan false, nv ||| flNV)
  else if ps.any (fun p => p.1.isNan) then (.nan false, nv)
  else match infs with
    | n :: _ => (.inf n, nv)
    | [] =>
      let xs := ps.filterMap fun p => match p.1 with
        | .num x => some x
        | _ => none
      (.num (sliceSum exact (if xs.length < 32 then xs ++ [Ex.zero false] else xs)), nv)

/-- One accumulation: A and V to RoundW(A + V, w48, RNE), never raising NX or UF (R81, R83). -/
def accumulate (acc : Nat) (v : Val × Nat) : Nat × Nat :=
  let s := fAdd 0 (Fmt.w48.decode acc) v.1
  let r := roundW Fmt.w48 Rnd.rne s.1
  (r.1, v.2 ||| s.2 ||| (r.2 &&& flOF))

end Sys2Proof.Machine
end

