-- ==== Sys2Proof/Config.lean ====
section
/-!
DEFINITION. What one module fixes and the spec does not give: the two keys that live in the part and what peers admit, which
are free values without a body (nothing can evaluate them), and the sizes of the package (spec/00_scope.md R2).
-/
namespace Sys2Proof.Config

/-- x coordinate of the Krovwell public key in the fuses, against which firmware images verify (16 R420).
FREE VALUE, log 10: the spec does not give the key. -/
opaque fuseKeyX : Nat
/-- y coordinate of the Krovwell public key in the fuses (16 R420). FREE VALUE, log 10. -/
opaque fuseKeyY : Nat
/-- The signature (r, s) that the device identity key makes over a digest (17 R438). FREE VALUE, log 10: the spec
gives neither the key nor the per-signature secret. -/
opaque identitySign : Nat → Nat × Nat

/-- What a firmware image says of itself, from the bytes at its address: the length of the signed bytes, the
signature (r, s), PMAX, PMIN and IMGVER (16 R420, R423). FREE VALUE, log 38: the spec does not give the image's
layout. -/
opaque firmwareImage : List Byte → Nat × Nat × Nat × Nat × Nat × Nat

/-- Whether the peer at a Vilrad Link port refuses an access to an address of its own map at a time, its PEERWIN not admitting it (20
R482). FREE VALUE, log 117: what the peer's window admits is the peer's own. -/
opaque peerRefuses : Nat → Nat → Nat → Bool

/-- Dies of the package (02 R35). -/
def dies : Nat := 16
/-- Sequencers of one die (02 R36). -/
def seqsPerDie : Nat := 16
/-- Bank groups of one die (02 R36). -/
def groupsPerDie : Nat := 64
/-- Matrix engines of one die (02 R36). -/
def matrixEngines : Nat := 16
/-- Attention engines of one die (02 R36). -/
def attentionEngines : Nat := 8
/-- The physical groups of each die that fail the reset test, as (die, group) (02 R38). The test's outcome is the
part's own; DESIGN CHOICE of the modelled part: every group passes (log 5). -/
def testFails : List (Nat × Nat) := []

end Sys2Proof.Config
end

