-- ==== Sys2Proof/Machine/State.lean ====
section
/-!
DEFINITION. The state of one JL-16 module: everything the spec gives the machine, as plain data, and the state right
after reset (spec/21_power_determinism.md R510). INVENTORY.md lists each field with its rule. Numbers that name an
agent: a sequencer is 16 times its die plus its die-local number, a physical group is a number 0 to 63 on its die.
-/
namespace Sys2Proof.Machine

/-- Why the model stops. -/
inductive Fault where
  /-- An access to a physical address to which the spec gives nothing: outside the ranges of 20 R473, the
  continuation-queue reservation, the overflow areas and the notify area. Raised by every access that reaches memory.
  Safe: the model stops where the spec says nothing exists (log 8). -/
  | physicalHole (addr : Nat)
  deriving DecidableEq, Repr

/-- What the model does not run. -/
inductive Refusal where
  /-- An instruction that has no meaning yet; raised only by the arms of `exec`. Safe. -/
  | notModelled (mnemonic : String)
  /-- The agenda names an encoded instruction as if it were an event; raised by `step` alone. Safe: no such move
  exists on the hardware (log 1). -/
  | notAnEvent
  deriving DecidableEq, Repr

/-! ## Memory -/

/-- The canonical form of a list of cells: addresses strictly rising, and no entry equal to what an unlisted address
reads as, 0 (log 3). -/
def Memory.wf : List Host.Cell → Bool
  | [] => true
  | [c] => c.2 != 0
  | c :: d :: r => c.2 != 0 && c.1 < d.1 && Memory.wf (d :: r)

/-- Bytes of every tier, as a list of cells in canonical form. The key is the 52-bit device physical address; 2^52
plus an address for host memory; (2 + port)·2^52 plus an address for a peer's memory (13 R329; 20 R473, R481). -/
structure Mem where
  cells : List Host.Cell
  wf : Memory.wf cells = true
  deriving DecidableEq, Repr

/-! ## The sequencer's own state -/

/-- What a sequencer is doing (15 R367, R370; 18 R443). -/
inductive SeqMode where
  | idle | run | handler
  deriving DecidableEq, Repr

/-- One loop-stack entry (06 R152). -/
structure Loop where
  start : Word
  stop : Word
  count : Word
  index : Word
  deriving DecidableEq, Repr

/-- A tile descriptor (10 R254). -/
structure TileDesc where
  base : Nat
  base2 : Nat
  rows : Nat
  cols : Nat
  etype : Nat
  stride : Nat
  orow : Nat
  ocol : Nat
  gwidth : Nat
  stream : Nat
  deriving DecidableEq, Repr

/-- A tile descriptor after reset (10 R254). -/
def TileDesc.zero : TileDesc := ⟨0, 0, 0, 0, 0, 0, 0, 0, 0, 0⟩

/-- A stream register (11 R295; 15 R390), bound to the pump instruction of an ISN. `index` is the index vector of a PFILL with an
indexed destination, else 0, and `addrs` holds where its elements have been filled. -/
structure StreamReg where
  bound : Bool
  landing : Nat
  pos : Nat
  sz : Nat
  kind : Nat
  base : Nat
  stride : Nat
  index : Nat
  isn : BitVec 32
  addrs : List (Nat × Nat)
  deriving DecidableEq, Repr

/-- An unbound stream register. -/
def StreamReg.none : StreamReg := ⟨false, 0, 0, 0, 0, 0, 0, 0, 0, []⟩

/-- A group's progress in one instruction (02 R48, R58): elements below `next` that it owns are done; `fin` when it
has completed the instruction. `lines` holds, by bank of the group, what it has paid the bucket for: its line of work and the lines
that its operands have pulled last, each as one more than its number (12 R326). `begun` marks the instruction that the group had
begun when issue stopped for an element trap (15 R372). -/
structure GCtr where
  next : Nat
  fin : Bool
  lines : List (Nat × List Nat)
  begun : Bool
  deriving DecidableEq, Repr

/-- An instruction issued and not completed by every group (15 R377): captured values, and per-group progress. `cap`
holds the nine captured words in R377's order; `capB1` and `capC1` hold x(N+1) of B and C. `pulled` holds what a
combining instruction has pulled, as (element, a, b). `waves` is the number of groups that may start (12 R325). For an
indexed operand that decides ownership, `owners` holds the line whose bank owns each element read so far, and `odd` the
elements not yet executed that stand with their home because their index entry could not be read (02 R45). -/
structure Entry where
  isn : BitVec 32
  pc : Word
  ins : Instr
  cap : List Word
  capB1 : Word
  capC1 : Word
  vl : Nat
  vtype : Word
  maskAddr : Word
  cvalid : Word
  cgkey : Word
  cgdraw : Word
  cldL : Word
  sdest : Option Reg
  token : Word
  gs : List GCtr
  pulled : List (Nat × Nat × Nat)
  waves : Nat
  flags : Nat
  owners : List (Nat × Nat)
  odd : List Nat
  deriving DecidableEq, Repr

/-- What the trap area does not hold of an instruction that a trap took out of flight: its thread, its ISN, the instruction
with x(N+1) of its B and C as read at issue (02 R51), and what its groups had found of the owners of its elements. -/
structure Shares where
  run : Nat
  isn : BitVec 32
  ins : Instr
  capB1 : Word
  capC1 : Word
  owners : List (Nat × Nat)
  odd : List Nat
  deriving DecidableEq, Repr

/-- A version entry or an overflow copy of one window line (02 R54, R55): the line's bytes and full bits before the
write of ISN `tag`. -/
structure Version where
  line : Nat
  tag : BitVec 32
  data : List Byte
  full : List Bool
  overflow : Bool
  deriving DecidableEq, Repr

/-- What a window word held before a write by another agent, for pulls of the grant that stand below the highest place, ISN
and element, that had pulled the word by then, and at or above ISN `since` (02 R57; 14 R347). -/
structure Kept where
  word : Nat
  isn : BitVec 32
  elem : Nat
  since : BitVec 32
  data : List Byte
  full : Bool
  deriving DecidableEq, Repr

/-- A trap that an instruction raises: its cause (15 R371), faulting address and INFO. -/
structure TrapReq where
  cause : Nat
  addr : Word
  info : Word
  deriving DecidableEq, Repr

/-- An element trap that a group has raised (15 R372). -/
structure GTrap where
  grp : Nat
  isn : BitVec 32
  elem : Nat
  req : TrapReq
  deriving DecidableEq, Repr

/-- An issue trap or a take that waits to be entered (15 R372). `pc` and `isn` are those of the trapping instruction,
`resume` its RESUME address, `hard` is a hard take (R387), `nores` marks a thread that cannot be resumed (R396, R520). -/
structure Pend where
  req : TrapReq
  isn : BitVec 32
  pc : Word
  resume : Word
  hard : Bool
  nores : Bool
  deriving DecidableEq, Repr

/-- What a sequencer waits in, with what the wait needs to finish (06 R167, R172; 08 R227; 09 R252; 11 R296;
12 R321; 18 R448; 19 R459, R460; 21 R501): of a VWAIT the values it expects, the elements that are not met yet, and those that
the log of a replay gives as unmet. -/
inductive Sleep where
  | mwait (rd ra : Reg) (start : Nat)
  | setvlc (rd ra rb : Reg)
  | vwait (start : Nat) (expect : List (Nat × Nat)) (unmet mask : List Nat)
  | lwait (ra : Reg)
  | stream (rd : Reg) (q : Nat)
  | gcommit (rd : Reg)
  | exit
  | barrier (scope : BScope) (unit : Nat) (token : Word) (met : Bool)
  | log
  deriving DecidableEq, Repr

/-- A write held by the combining buffer of determinism mode (21 R500), at a virtual address and its key; `keep` has ones where
it writes a bit, so that a packed field changes its own bits alone (08 R221). `num` counts the writes that the sequencer has
held. -/
structure HeldWrite where
  num : Nat
  va : Nat
  addr : Nat
  bytes : List Byte
  keep : List Byte
  deriving DecidableEq, Repr

/-! ## Command groups (12 R314 to R323) -/

/-- The states of a command group (12 R323). -/
inductive GroupSt where
  | none | open_ | suspended | failed
  deriving DecidableEq, Repr

/-- The shadow of one line: its number, its private contents, the words that the group has written, and whether another
write has hit the line since. -/
structure Shadow where
  line : Nat
  data : List Byte
  words : List Nat
  conflict : Bool
  deriving DecidableEq, Repr

/-- The three attention commands. -/
inductive GCmdKind where
  | attn | kvw | kvinv
  deriving DecidableEq, Repr

/-- The softmax of one query row so far (12 R302): a NaN row, m as fp32, ℓ and the output sums as w48. -/
structure AttnRow where
  nan : Bool
  m : Nat
  l : Nat
  o : List Nat
  deriving DecidableEq, Repr

/-- A command of a group (12 R305, R311): the sequencer, the thread and the context that issued it, its record's words and
captured values; `began`, `qb`, `page` and `rows` are
its progress; `onMatrix` is the choice of R308, once it has been made (`chose`); `displaced` holds lines that commits have
displaced since it began
(R319). -/
structure GCmd where
  sq : Nat
  runId : Nat
  ctx : Nat
  isn : BitVec 32
  pc : Word
  kind : GCmdKind
  hint : AttnHint
  words : List Word
  qb0 : Nat
  nqb : Nat
  pos : Nat
  src : Nat
  vl : Nat
  began : Bool
  qb : Nat
  page : Nat
  rows : List AttnRow
  onMatrix : Bool
  chose : Bool
  badSeen : Bool
  flags : Nat
  displaced : List (Nat × List Byte)
  deriving DecidableEq, Repr

/-- A sequencer's command group, which an EXIT leaves as it is (12 R323; 18 R448). `area` and `nlines` are the shadow area, whose
contents `hidden` holds while the group
is open, and `dropped` tells that a write to it was dropped (R315); `fault` is the failure of a suspended command, or
holds the status of a failed group; `told` that a GCOMMIT has reported the suspension (R321). -/
structure Group where
  st : GroupSt
  area : Nat
  nlines : Nat
  shadows : List Shadow
  cmds : List GCmd
  fault : TrapReq
  faultIsn : BitVec 32
  told : Bool
  hidden : List Host.Cell
  dropped : Bool
  deriving DecidableEq, Repr

/-- No group open. -/
def Group.none : Group := ⟨.none, 0, 0, [], [], ⟨0, 0, 0⟩, 0, false, [], false⟩

/-- Work that holds a translation which a TLBINV has removed (13 R343 step 3): an instruction in an engine's queue or a task that an
engine runs, an instruction in flight, a write that determinism mode holds, a reply of a VLD, or an attention command. -/
inductive Holder where
  | tile (run : Nat) (isn : BitVec 32)
  | entry (sq run : Nat) (isn : BitVec 32)
  | held (sq run num : Nat)
  | landing (sq run : Nat) (isn : BitVec 32) (elem addr : Nat)
  | attn (run : Nat) (isn : BitVec 32)
  deriving DecidableEq, Repr

/-- One sequencer with its grant and the thread it holds. `runId` names the thread, also while a record holds it (15 R366).
`fresh` counts the outermost loops of the stack whose current pass an IFLUSH has cut (06 R178). `reads` holds, by window word,
the highest place in the grant's order, ISN and element, that has pulled it; `heldNum` counts the writes that determinism mode
has held; `inv` names what a TLBINV that has removed its translations still waits for (13 R343); `stopping` holds the commands of
closed groups
whose attention engine has not ended its query block yet (12 R322). -/
structure Seq where
  mode : SeqMode
  kernel : Option Nat
  ctx : Nat
  priv : Bool
  runId : Nat
  x : Vector Word 32
  pc : Word
  isn : BitVec 32
  vl : Nat
  vtype : Word
  vcap : Nat
  cmask0 : Word
  cmask1 : Word
  cvalid : Word
  cld : Word
  cgkey : Word
  cgdraw : Word
  cflags : Nat
  cprio : Word
  stage : Nat
  dieRank : Nat
  seqRank : Nat
  groups : List Nat
  winPa : Nat
  winVa : Nat
  loops : List Loop
  lbuf : List (Nat × Nat)
  fresh : Nat
  td : Vector TileDesc 16
  sqr : Vector StreamReg 4
  copyLog : List StreamReg
  bkpt : Vector (Bool × Word) 8
  bkSkip : Option Word
  monitor : Option (Nat × Bool)
  sleep : Option Sleep
  logged : Nat
  inflight : List Entry
  versions : List Version
  reads : List (Nat × BitVec 32 × Nat)
  kept : List Kept
  gtraps : List GTrap
  pend : Option Pend
  take : Option (Nat × Nat)
  taken : Bool
  softPt : Bool
  dirtyX : BitVec 32
  dirtyC : BitVec 32
  dirtyGran : List Nat
  hwm : Nat
  lastLoad : Option Nat
  held : List HeldWrite
  heldNum : Nat
  inv : Option (List Holder)
  grp : Group
  stopping : List GCmd
  deriving DecidableEq, Repr

/-- A sequencer after reset: idle, in no kernel, its control registers at their reset values (06 R158), the others at
0 (log 4). -/
def Seq.reset : Seq :=
  { mode := .idle, kernel := none, ctx := 0, priv := false, runId := 0, x := Vector.replicate 32 0, pc := 0,
    isn := 0, vl := 0, vtype := 8, vcap := 16, cmask0 := 0, cmask1 := 0, cvalid := 0, cld := 0, cgkey := 0,
    cgdraw := 0, cflags := 0, cprio := 0x700, stage := 0, dieRank := 0, seqRank := 0, groups := [], winPa := 0,
    winVa := 0, loops := [], lbuf := [], fresh := 0, td := Vector.replicate 16 TileDesc.zero,
    sqr := Vector.replicate 4 StreamReg.none, copyLog := [], bkpt := Vector.replicate 8 (false, 0),
    bkSkip := none, monitor := none, sleep := none, logged := 0, inflight := [], versions := [], reads := [], kept := [],
    gtraps := [], pend := none, take := none, taken := false, softPt := false, dirtyX := 0, dirtyC := 0, dirtyGran := [], hwm := 0,
    lastLoad := none, held := [], heldNum := 0, inv := none, grp := Group.none, stopping := [] }

/-- What a thread record does not hold of a saved thread: its stream registers with their index vectors, the landing words that its
pump instructions have named, and its command group (11 R295, R296; 12 R320; 15 R390). -/
structure Aside where
  run : Nat
  ctx : Nat
  sqr : List StreamReg
  copies : List StreamReg
  grp : Group
  deriving DecidableEq, Repr

/-! ## Contexts and kernels -/

/-- The states of a context (15 R368). -/
inductive CtxSt where
  | active | taking | away | halted | ended
  deriving DecidableEq, Repr

/-- A context (15 R366): its address space, privileged registers, balance in picojoules (21 R493) and state. `saved`
lists the thread records that hold one of its threads, each with the thread (15 R370), and `records` every record that
CTXST has written for it and no other context has overwritten (15 R368); `logUsed` the positions of its log that replay has
consumed beyond C (21 R503). -/
structure Ctx where
  id : Nat
  kernel : Option Nat
  cptbase : Word
  ctrap : Word
  csump : Word
  cdet : Word
  limit : Nat
  balance : Int
  st : CtxSt
  takeCause : Nat
  halt : TrapReq
  saved : List (Nat × Nat)
  records : List Nat
  logUsed : List Nat
  deriving DecidableEq, Repr

/-- The states of a kernel (17 R431). -/
inductive KernelSt where
  | placing | running | ending | complete | aborting | aborted
  deriving DecidableEq, Repr

/-- A range cell (17 R434). -/
structure RangeCell where
  die : Nat
  lo : Nat
  hi : Nat
  noSteal : Bool
  deriving DecidableEq, Repr

/-- A kernel: its queue, image, placement and range (17 R424 to R435). -/
structure Kernel where
  id : Nat
  queue : Nat
  st : KernelSt
  ctx : Nat
  code : Nat
  entry : Nat
  vtype : Word
  argRegs : List Nat
  args : List Word
  range : Option Nat
  layout : Nat
  cist : Nat
  desc : List Word
  digest : Option Nat
  keyIndex : Nat
  dies : List Nat
  seqs : List Nat
  cells : List RangeCell
  deriving DecidableEq, Repr

/-- A continuation record in a die's queue (18 R439, R442). A root is pinned to its sequencer (17 R433). -/
structure Rec where
  ctx : Nat
  kernel : Option Nat
  code : Word
  frame : Word
  jctr : Word
  level : Nat
  pushed : Nat
  raised : Nat
  pusher : Nat
  logical : Nat
  isn : BitVec 32
  pinned : Option Nat
  deriving DecidableEq, Repr

/-! ## Leases and engines -/

/-- The states of a lease slot (09 R234). -/
inductive LeaseSt where
  | free | queued | waking | held | parked | releasing | evicted
  deriving DecidableEq, Repr

/-- A lease slot of a context on a die, and the lease bound to it (09 R231 to R251). -/
structure Lease where
  ctx : Nat
  slot : Nat
  gen : BitVec 16
  st : LeaseSt
  kind : Nat
  pin : Bool
  engine : Nat
  level : Nat
  cap : Nat
  asked : Nat
  raised : Nat
  asker : Nat
  granted : Nat
  evicting : Bool
  ending : Bool
  lost : Option (Nat × BitVec 32)
  deriving DecidableEq, Repr

/-- One entry that an ACCIN sends or a DRAIN requests: element, accumulator place, value or destination. -/
structure AccItem where
  elem : Nat
  row : Nat
  col : Nat
  val : Nat
  addr : Nat
  inWin : Bool
  deriving DecidableEq, Repr

/-- The work of an entry in a matrix engine's queue (10 R269 to R273). -/
inductive MKind where
  | mma (a b : TileDesc) (z : Bool) (arow acol : Nat) (draw : Option Nat)
  | accz (arow acol nrows ncols : Nat)
  | accin (arow acol ncol : Nat)
  | drain (clr : Bool) (arow acol ncol : Nat)
  deriving DecidableEq, Repr

/-- An entry of a matrix engine's command queue (10 R262). `issued` when every group has completed the instruction or
a RETT has abandoned it; `pages` are the translations taken at issue (R261); `pos` is the number of steps done. -/
structure MCmd where
  sq : Nat
  runId : Nat
  ctx : Nat
  slot : Nat
  isn : BitVec 32
  kind : MKind
  pages : List (Nat × Nat)
  issued : Bool
  items : List AccItem
  vtype : Word
  cgkey : Word
  cgdraw : Word
  pos : Nat
  badSeen : Bool
  flags : Nat
  deriving DecidableEq, Repr

/-- A tile task (10 R274 to R280). -/
structure Task where
  sq : Nat
  runId : Nat
  ctx : Nat
  age : Nat
  isn : BitVec 32
  words : List Word
  cgkey : Word
  cgdraw : Word
  ready : Bool
  deriving DecidableEq, Repr

/-- A task running on an engine: after its checks it multiplies, step by step, then drains (10 R279). -/
structure TaskRun where
  task : Task
  slot : Nat
  a : TileDesc
  b : TileDesc
  checked : Bool
  pages : List (Nat × Nat)
  dpages : List (Nat × Nat)
  pos : Nat
  badSeen : Bool
  flags : Nat
  deriving DecidableEq, Repr

/-- A matrix engine: accumulator store (an absent entry is +0), queue, and the task it runs (10 R258, R262, R278). -/
structure MEngine where
  idx : Nat
  acc : List (Nat × Nat)
  queue : List MCmd
  task : Option TaskRun
  deriving DecidableEq, Repr

/-! ## Pumps -/

/-- An element that has reached the pump: its index, and its row number or indexed address (11 R286, R287). -/
structure PumpElem where
  idx : Nat
  arg : Nat
  deriving DecidableEq, Repr

/-- A copy of a pump (11 R283 to R294). `open_` while the instruction is in flight; `ready` elements have reached the
pump; `done` have landed or are inactive; `landed` is L; `runs` holds the 4 KB runs charged (R294). `landing` and `phase` (0 for
none, else one more) are the keys of its two words, found at the addresses `landVa` and `phaseVa`; they are found again once `stale`,
after a TLBINV (13 R343). -/
structure Copy where
  id : Nat
  sq : Nat
  runId : Nat
  ctx : Nat
  isn : BitVec 32
  kind : Nat
  tag : Nat
  vl : Nat
  size : Nat
  pitch : Nat
  srcBase : Nat
  srcStride : Nat
  srcVal : Word
  dstBase : Nat
  dstStride : Nat
  landing : Nat
  phase : Nat
  landVa : Nat
  phaseVa : Nat
  stale : Bool
  vtype : Word
  cgkey : Word
  cgdraw : Word
  open_ : Bool
  abandoned : Bool
  failed : Option (Nat × TrapReq)
  ready : List PumpElem
  done : List Nat
  landed : Nat
  runs : List Nat
  flags : Nat
  deriving DecidableEq, Repr

/-! ## Landings -/

/-- What will fill a word that has been marked empty (02 R52; 15 R372). -/
inductive MarkSrc where
  | vld | drain | pump
  deriving DecidableEq, Repr

/-- A window word marked empty by instruction `isn` of run `runId` on sequencer `sq`. `landed` once its own landing
has come while others of the instruction are due (21 R489); `dead` when nothing will land. -/
structure Mark where
  word : Nat
  sq : Nat
  runId : Nat
  isn : BitVec 32
  src : MarkSrc
  landed : Bool
  dead : Bool
  deriving DecidableEq, Repr

/-- A reply on its way into the window (08 R220): element, destination, the bits to write and which of them. `cost` is what its
line takes from the bucket (12 R326), and `so` tells that its page is an SO page (13 R333). -/
structure Landing where
  sq : Nat
  runId : Nat
  isn : BitVec 32
  elem : Nat
  addr : Nat
  data : List Byte
  keep : List Byte
  fromHost : Bool
  ctx : Nat
  cost : Nat
  so : Bool
  deriving DecidableEq, Repr

/-- An access that waits on a migrating entry (13 R336): who waits, where, since when, and whether it has expired. -/
structure MigWait where
  sq : Nat
  ctx : Nat
  va : Nat
  since : Nat
  expired : Bool
  deriving DecidableEq, Repr

/-- A sump entry that waits for a migrating page (15 R383; 13 R336): context, die, since when, and its words. -/
structure SumpWait where
  ctx : Nat
  die : Nat
  since : Nat
  words : List Word
  deriving DecidableEq, Repr

/-- A cached translation of a whole run (13 R340): SPACE, first page number in units of 4 KB, pages, and the leaf. -/
structure TlbEntry where
  space : Nat
  vpn : Nat
  pages : Nat
  leaf : Word
  level : Nat
  entry : Nat
  deriving DecidableEq, Repr

/-! ## Queues -/

/-- The states of a queue (16 R417). -/
inductive QueueSt where
  | disabled | idle | busy | error
  deriving DecidableEq, Repr

/-- A packet that has started (16 R406): its level, position, signal, and what completes it. `left` is the number of
packets of an INDIRECT's buffer that have not completed; `parent` is the INDIRECT whose buffer holds it; `root` is the
cptbase value under which its accesses translate. -/
structure Packet where
  id : Nat
  type : Nat
  pos : Nat
  depth : Nat
  csig : Nat
  kernel : Option Nat
  parent : Option Nat
  left : Nat
  wait : List Word
  since : Nat
  finished : Bool
  root : Word
  deriving DecidableEq, Repr

/-- An open indirect buffer (16 R409). -/
structure Level where
  base : Nat
  count : Nat
  next : Nat
  packet : Nat
  deriving DecidableEq, Repr

/-- A user-mode queue (16 R398 to R419). `desc` holds the captured descriptor; `active` while a cobbler holds it with
`budget` packets left to start; `blocked` when it stopped at a packet that may not start yet. -/
structure Queue where
  id : Nat
  desc : List Word
  st : QueueSt
  read : BitVec 32
  epos : BitVec 32
  edepth : Nat
  ecause : Nat
  badDesc : Bool
  notified : Bool
  active : Bool
  budget : Nat
  blocked : Bool
  levels : List Level
  started : List Packet
  nextPacket : Nat
  deriving DecidableEq, Repr

/-- A queue after reset (16 R417). -/
def Queue.reset (q : Nat) : Queue :=
  ⟨q, [], .disabled, 0, 0, 0, 0, false, false, false, 0, false, [], [], 0⟩

/-- An event of a die's hardware event queue (16 R415). A mailbox message that asks is one of an exchange that its sender has begun
(R422). -/
inductive Event where
  | notify (q : Nat) (reset : Option (BitVec 32)) (disable : Bool)
  | completion (q : Nat) (kernel : Option Nat)
  | recheck (q : Nat)
  | mailbox (die version : Nat) (range : Option (Nat × Nat)) (ask : Bool)
  deriving DecidableEq, Repr

/-! ## Dies, units, links -/

/-- Firmware of a die (16 R420 to R423): phase, last result, its versions, the image that activation would install, and the
version that it uses with each other die (R422). -/
structure Firmware where
  phase : Nat
  result : Nat
  pmax : Nat
  pmin : Nat
  imgver : Nat
  next : Option (Nat × Nat × Nat)
  peers : Vector Nat 16
  deriving DecidableEq, Repr

/-- What waits for a die's bucket (12 R326): a group of banks, a landing of VLD, the pass of an engine's DRAIN, an element of a
copy of one of its pumps, or the bank softmax of a sequencer's attention command. -/
inductive Waiter where
  | lane (sq grp : Nat) (isn : BitVec 32)
  | landing (sq run : Nat) (isn : BitVec 32) (elem addr : Nat)
  | drain (engine : Nat)
  | pump (pump id elem : Nat)
  | page (sq : Nat)
  deriving DecidableEq, Repr

/-- One die. `tlb` is its cache of translations, `groupTlb` those of its physical groups and `bankTlb` those of their banks, by
16 times the group plus the bank (13 R340). `bankq` holds what waits for the bucket, oldest first (12 R326). `ghosts` holds
leases that LFREE or the end of their context has freed while their engines wake, which stay powered until then (09 R235). -/
structure Die where
  id : Nat
  tlb : List TlbEntry
  groupTlb : List (Nat × List TlbEntry)
  bankTlb : List (Nat × List TlbEntry)
  ticket : Nat
  leases : List Lease
  ghosts : List Lease
  engines : List MEngine
  pumps : List (List Copy)
  tasks : List Task
  recs : List Rec
  events : List Event
  leaseCap : Nat
  stage4 : Nat
  half : Bool
  ebanks : Nat
  erefill : Nat
  wd : Nat
  force : Nat
  fabLast : Nat
  fabThresh : Nat
  regime : Bool
  refill : Nat
  bucketCap : Nat
  banks : Nat
  bucket : Nat
  refilled : Nat
  bankq : List Waiter
  lanemap : Word
  regtrim : Vector Word 8
  cistce : Nat
  memce : Nat
  fw : Firmware
  deriving DecidableEq, Repr

/-- The groups of a die that the reset test retires, as LANEMAP holds them (02 R38; 21 R511). -/
def lanemapOf (fails : List (Nat × Nat)) (d : Nat) : Word :=
  fails.foldl (fun w p => if p.1 = d then w ||| (1 <<< (p.2 % 64)) else w) 0

/-- REGTRIM after the test: 0xFF for a retired group, code 0 (600 mV) for the others, which the spec leaves to the
test (21 R511; log 5). -/
def regtrimOf (lanemap : Word) : Vector Word 8 :=
  Vector.ofFn fun k : Fin 8 => (List.range 8).foldl
    (fun w j => if lanemap.getLsbD (8 * k.val + j) then w ||| (0xFF <<< (8 * j)) else w) (0 : Word)

/-- A die after reset with the given test result (21 R510). -/
def Die.reset (fails : List (Nat × Nat)) (d : Nat) : Die :=
  { id := d, tlb := [], groupTlb := [], bankTlb := [], ticket := 0, leases := [], ghosts := [], engines := [],
    pumps := [[], [], [], []], tasks := [], recs := [],
    events := [], leaseCap := 12, stage4 := 12, half := false, ebanks := 2047, erefill := 65535, wd := 0, force := 0,
    fabLast := 0, fabThresh := 70, regime := false, refill := 4096, bucketCap := 65535, banks := 1024,
    bucket := 65535, refilled := 0, bankq := [], lanemap := lanemapOf fails d, regtrim := regtrimOf (lanemapOf fails d),
    cistce := 0, memce := 0, fw := ⟨0, 0, 1, 1, 0, none, Vector.replicate 16 1⟩ }

/-- A bound barrier unit (19 R452, R453); an absent unit is FREE. `inst` names the scope instance. `batch` names
the held writes that determinism mode performs when the phase completes: of each arrival its logical number, its sequencer
and how many writes that sequencer had held by then (21 R500). -/
structure Barrier where
  scope : BScope
  inst : Nat
  unit : Nat
  owner : Nat
  n : Nat
  a : Nat
  p : BitVec 32
  batch : List (Nat × Nat × Nat)
  deriving DecidableEq, Repr

/-- The states of a link (20 R466). -/
inductive LinkSt where
  | down | training | up | degraded | frozen
  deriving DecidableEq, Repr

/-- One class of a link's traffic (20 R468): at the receiver the sequence number it expects, whether it discards until the replay,
and how often the flit it waits for has been replayed; at the sender the next sequence number, the flits of its replay buffer by their
numbers, and its credits (log 78). -/
structure LinkClass where
  expect : Nat
  discarding : Bool
  replays : Nat
  next : Nat
  buf : List Nat
  credits : Nat
  deriving DecidableEq, Repr

/-- Flits that a replay buffer holds (20 R468). -/
def replayFlits : Nat := 256

/-- A class after reset, with as many credits as flits that its replay buffer holds (log 78). -/
def LinkClass.reset : LinkClass := ⟨0, false, 0, 0, [], replayFlits⟩

/-- A link (20 R465 to R470, R478): its state, the lanes that work, the width in use, and what LINKSTAT counts; `attempts`
is the number of the current or last training attempt. -/
structure Link where
  st : LinkSt
  lanes : Nat
  width : Nat
  spares : Nat
  drop : Nat
  retry : Nat
  crcErr : Nat
  attempts : Nat
  before : LinkSt
  cls : Vector LinkClass 2
  deriving DecidableEq, Repr

/-- Link k after reset: DOWN, with 16 spare lanes on a die boundary (20 R469, R478, R510). -/
def Link.reset (k : Nat) : Link :=
  ⟨.down, 0, 0, if k < 24 then 16 else 0, 0, 0, 0, 0, .down, Vector.replicate 2 LinkClass.reset⟩

/-- PEERWIN of a port (20 R483). -/
structure PeerWin where
  en : Bool
  base : Nat
  size : Nat
  deriving DecidableEq, Repr

/-- A measure of the power controller in force (21 R487): its stage and die (16 for every die). -/
structure Measure where
  stage : Nat
  die : Nat
  arg : Nat
  deriving DecidableEq, Repr

/-- The package's registers and the masters' state (chapters 17, 20, 21). `msix` counts the messages sent on each vector,
`errAns` the error statuses that each master's transport has answered (21 R485), `cxlErr` the uncorrectable internal errors that
CXL.io has raised (20 R475), `hostErrV` is HOSTERR.VALID;
`ownWrite` is the reference cycle of the last OWNCTL write and its master's number (21 R506);
`reply`, `replyOk`, `regReply` and `spdm` hold what the last read from outside was answered. -/
structure Package where
  qtbase : Nat
  reqsig : Bool
  measureOn : Bool
  custKeys : List (Nat × Nat × Nat)
  hostErrV : Bool
  hostErr : Nat × Nat
  peerWin : Vector PeerWin 12
  pwrlim : Nat
  power : Nat
  measures : List Measure
  belowSince : Option Nat
  lastCompare : Nat
  tickPeriod : Nat
  tickNext : Nat
  tickDue : Nat
  tick : Word
  owner : Option Master
  nonce : BitVec 16
  heard : Nat
  pendSucc : Option Master
  pendSince : Nat
  succShown : Nat
  ownWrite : Option (Nat × Nat)
  ndrop : Nat
  errAns : Vector Nat 4
  cxlErr : Nat
  frozen : Bool
  pin : Bool
  cmdFreeze : Bool
  frzAsked : Nat
  fwImage : Nat
  fwDie : Nat
  ticket : Nat
  measurement : Nat
  quotaDue : Nat
  hdm : Vector (Option Nat) 3
  msix : Vector Nat 2
  reply : List Byte
  replyOk : Bool
  regReply : Word
  spdm : List Nat
  deriving DecidableEq, Repr

/-- The package's registers after reset (20 R477 to R483; 21 R486 to R512). -/
def Package.reset : Package :=
  { qtbase := 0, reqsig := false, measureOn := false, custKeys := [], hostErrV := false, hostErr := (0, 0),
    peerWin := Vector.replicate 12 ⟨false, 0, 0⟩, pwrlim := 3000, power := 0, measures := [], belowSince := none,
    lastCompare := 0, tickPeriod := 100, tickNext := 100, tickDue := 100, tick := 0, owner := none, nonce := 0,
    heard := 0, pendSucc := none, pendSince := 0, succShown := 0, ownWrite := none, ndrop := 0,
    errAns := Vector.replicate 4 0, cxlErr := 0, frozen := false, pin := false,
    cmdFreeze := false, frzAsked := 0, fwImage := 0, fwDie := 0, ticket := 0, measurement := 0, quotaDue := 100000,
    hdm := Vector.replicate 3 none, msix := Vector.replicate 2 0, reply := [], replyOk := true, regReply := 0,
    spdm := [] }

/-- A move that the environment has chosen: a sequencer's turn, an event of the opcode table, the passing of
reference cycles, or soft errors in a memory word (15 R396, R397). -/
inductive Pick where
  | seq (n : Nat)
  | event (i : Instr)
  | elapse (k : Nat)
  | softError (word nbits : Nat)
  deriving DecidableEq, Repr

/-- The machine. `owed` holds, by thread, the flags that engine work has raised while the thread was in handler mode or
saved (03 R71). -/
structure State where
  agenda : List Pick
  cur : Nat
  now : Nat
  mem : Mem
  empty : List Nat
  soft : List (Nat × Nat)
  seqs : List (Nat × Seq)
  ctxs : List Ctx
  kernels : List Kernel
  dies : Vector Die 16
  queues : List Queue
  bars : List Barrier
  links : Vector Link 37
  marks : List Mark
  landings : List Landing
  migs : List MigWait
  owed : List (Nat × Nat)
  shares : List Shares
  aside : List Aside
  sumps : List SumpWait
  runCtr : Nat
  ctxCtr : Nat
  kernCtr : Nat
  pkg : Package
  deriving DecidableEq, Repr

/-- The machine right after reset (21 R510), with the outcome of the group test (02 R38). -/
def State.resetWith (fails : List (Nat × Nat)) : State :=
  { agenda := [], cur := 0, now := 0, mem := ⟨[], rfl⟩, empty := [], soft := [], seqs := [], ctxs := [],
    kernels := [], dies := Vector.ofFn fun d : Fin 16 => Die.reset fails d.val, queues := [], bars := [],
    links := Vector.ofFn fun k : Fin 37 => Link.reset k.val, marks := [], landings := [], migs := [], owed := [],
    shares := [], aside := [], sumps := [], runCtr := 0, ctxCtr := 0, kernCtr := 0, pkg := Package.reset }

/-- The machine right after reset. -/
def State.reset : State := State.resetWith Config.testFails

end Sys2Proof.Machine
end

