-- ==== Sys2Proof/Machine/Flags.lean ====
section
/-!
DEFINITION. vtype: its fields, its legal values and the element types (spec/05_encoding.md R125 to R127), and the
accrual of exception flags into cflags (spec/03_numbers.md R70, R71).
-/
namespace Sys2Proof.Machine

/-- Element types (R126); the payload of `int` is the size in bytes and whether it is signed. -/
inductive ETy where
  | n1
  | int (w : Nat) (signed : Bool)
  | flt (f : Fmt)
  | w48
  | blk (w : Nat)
  | mld
  | mx4
  | ip (p : Nat)
  deriving DecidableEq, Repr

/-- The element type of an EW code and a PREC field (R126, R61, R73). -/
def etyOf (ew prec : Nat) : ETy :=
  match ew with
  | 0 => .n1
  | 1 => .int 1 true
  | 2 => .int 2 true
  | 3 => .int 4 true
  | 4 => .int 8 true
  | 5 => .int 1 false
  | 6 => .int 2 false
  | 7 => .int 4 false
  | 8 => .int 8 false
  | 9 => .flt Fmt.bf16
  | 10 => .flt Fmt.fp16
  | 11 => .flt Fmt.fp32
  | 12 => .flt Fmt.fp64
  | 13 => .w48
  | 14 => .blk (prec + 1)
  | 15 => .mld
  | 16 => .mx4
  | _ => .ip (prec + 1)

/-- Size in bytes of a type that is not packed; 0 for a packed type. -/
def ETy.size : ETy → Nat
  | .int w _ => w
  | .flt f => f.bits / 8
  | .w48 => 8
  | .mld => 1
  | _ => 0

/-- Packed types accept only modes 00 and 11 (R126). -/
def ETy.packed : ETy → Bool
  | .n1 | .blk _ | .mx4 | .ip _ => true
  | _ => false

/-- An integer type that is not packed. -/
def ETy.isInt : ETy → Bool
  | .int _ _ => true
  | _ => false

/-- bf16, fp16, fp32 or fp64. -/
def ETy.isFlt : ETy → Bool
  | .flt _ => true
  | _ => false

/-- Mantissas of a block of width w: N(w) (03 R72). -/
def blkN (w : Nat) : Nat := 496 / w

/-- Elements of a packed line of precision p: N_p (03 R61). -/
def ipN (p : Nat) : Nat := 512 / p

/-- EW. -/
def vtEW (v : Word) : Nat := fld v 0 5
/-- PREC. -/
def vtPREC (v : Word) : Nat := fld v 5 4
/-- RND (03 R65). -/
def vtRND (v : Word) : Nat := fld v 9 3
/-- SAT. -/
def vtSAT (v : Word) : Bool := v.getLsbD 12
/-- MPOL: inactive elements are zeroed. -/
def vtMPOL (v : Word) : Bool := v.getLsbD 13
/-- VCHK. -/
def vtVCHK (v : Word) : Bool := v.getLsbD 14
/-- VILL. -/
def vtVILL (v : Word) : Bool := v.getLsbD 63
/-- The element type of a vtype value. -/
def vtTy (v : Word) : ETy := etyOf (vtEW v) (vtPREC v)

/-- VILL alone (R127). -/
def vtIll : Word := 0x8000000000000000

/-- A value that a write to vtype stores as it is (R127). -/
def vtLegal (v : Word) : Bool :=
  vtEW v < 18 && vtRND v < 5 && !(vtEW v == 14 && (vtPREC v == 0 || vtPREC v > 7)) && fld v 15 49 == 0

/-- What a write to vtype leaves (R127). -/
def vtWrite (v : Word) : Word := if vtLegal v then v else vtIll

/-- The rounding of element i under vtype, with u drawn from the generator under SR (03 R66, R67). -/
def rndOf (vtype : Word) (u : Nat) : Rnd := ⟨vtRND vtype, vtSAT vtype, u⟩

/-- The rounding of a scalar instruction: SR rounds as RNE (06 R146). -/
def rndScalar (vtype : Word) : Rnd := ⟨if vtRND vtype = 4 then 0 else vtRND vtype, vtSAT vtype, 0⟩

/-- Flags accrued into the cflags of a sequencer (03 R71). -/
def Seq.raise (q : Seq) (fl : Nat) : Seq :=
  if fl = 0 then q
  else { q with cflags := (q.cflags ||| fl) % 32, dirtyC := q.dirtyC ||| (1 <<< 10) }

end Sys2Proof.Machine
end

