-- ==== Sys2Proof/Machine/Mem.lean ====
section
/-!
DEFINITION. Reading and writing the bytes of memory. A write keeps the canonical form of `Mem`, so that equal
memories are equal data; what an unlisted address reads as is `unlistedByte` (log 3).
-/
namespace Sys2Proof.Machine

/-- What a byte that nothing has written reads as: 0 in a grant window (01 R20); 0 elsewhere by DESIGN CHOICE (log 3). -/
def unlistedByte : Byte := 0

/-- The byte at an address of a list of cells. -/
def Memory.get (a : Nat) : List Host.Cell → Byte
  | [] => unlistedByte
  | c :: r => if c.1 = a then c.2 else if a < c.1 then unlistedByte else Memory.get a r

/-- Write one byte into a list of cells; writing what an unlisted address reads as removes the entry. -/
def Memory.set (a : Nat) (b : Byte) : List Host.Cell → List Host.Cell
  | [] => if b = unlistedByte then [] else [(a, b)]
  | c :: r =>
    if a < c.1 then (if b = unlistedByte then c :: r else (a, b) :: c :: r)
    else if a = c.1 then (if b = unlistedByte then r else (a, b) :: r)
    else c :: Memory.set a b r

/-- The canonical form of a non-empty list: its head, the order of its first two addresses, and its tail. -/
theorem Memory.wf_cons (c : Host.Cell) (r : List Host.Cell) :
    Memory.wf (c :: r) = true ↔ c.2 ≠ 0 ∧ (∀ d ∈ r.head?, c.1 < d.1) ∧ Memory.wf r = true := by
  cases r with
  | nil => simp [Memory.wf]
  | cons d r => simp [Memory.wf, and_assoc]

/-- The first entry after a write is the written one or the first entry before it, or a later one. -/
theorem Memory.head_set (a : Nat) (b : Byte) (l : List Host.Cell) (lo : Nat) (h : Memory.wf l = true)
    (hl : ∀ d ∈ l.head?, lo < d.1) (ha : lo < a) : ∀ d ∈ (Memory.set a b l).head?, lo < d.1 := by
  cases l with
  | nil => unfold Memory.set; split <;> simp_all
  | cons c r =>
    rw [Memory.wf_cons] at h
    simp only [List.head?_cons, Option.mem_some_iff, forall_eq'] at hl
    unfold Memory.set
    split
    · split <;> simp_all
    · split
      · split
        · intro d hd
          have := h.2.1 d hd
          omega
        · simp_all
      · simp_all

/-- A write keeps the canonical form. -/
theorem Memory.wf_set (a : Nat) (b : Byte) (l : List Host.Cell) (h : Memory.wf l = true) :
    Memory.wf (Memory.set a b l) = true := by
  induction l with
  | nil => unfold Memory.set; split <;> simp_all [Memory.wf, unlistedByte]
  | cons c r ih =>
    have h' := (Memory.wf_cons c r).1 h
    unfold Memory.set
    split
    · split
      · exact h
      · rename_i hb
        rw [Memory.wf_cons]
        exact ⟨hb, by simpa using ‹a < c.1›, h⟩
    · split
      · split
        · exact h'.2.2
        · rename_i hb
          rw [Memory.wf_cons]
          refine ⟨hb, ?_, h'.2.2⟩
          intro d hd
          have := h'.2.1 d hd
          simp only at *
          omega
      · rw [Memory.wf_cons]
        exact ⟨h'.1, Memory.head_set a b r c.1 h'.2.2 h'.2.1 (by omega), ih h'.2.2⟩

/-- Drop the entries of a range of addresses. -/
def Memory.drop (lo hi : Nat) : List Host.Cell → List Host.Cell
  | [] => []
  | c :: r => if lo ≤ c.1 && c.1 < hi then Memory.drop lo hi r else c :: Memory.drop lo hi r

/-- The first entry that remains is not below the first entry. -/
theorem Memory.head_drop (lo hi k : Nat) (l : List Host.Cell) (h : Memory.wf l = true)
    (hl : ∀ d ∈ l.head?, k < d.1) : ∀ d ∈ (Memory.drop lo hi l).head?, k < d.1 := by
  induction l with
  | nil => simp [Memory.drop]
  | cons c r ih =>
    have h' := (Memory.wf_cons c r).1 h
    simp only [List.head?_cons, Option.mem_some_iff, forall_eq'] at hl
    unfold Memory.drop
    split
    · exact ih h'.2.2 fun d hd => Nat.lt_trans hl (h'.2.1 d hd)
    · simpa using hl

/-- Dropping a range keeps the canonical form. -/
theorem Memory.wf_drop (lo hi : Nat) (l : List Host.Cell) (h : Memory.wf l = true) :
    Memory.wf (Memory.drop lo hi l) = true := by
  induction l with
  | nil => rfl
  | cons c r ih =>
    have h' := (Memory.wf_cons c r).1 h
    unfold Memory.drop
    split
    · exact ih h'.2.2
    · rw [Memory.wf_cons]
      exact ⟨h'.1, Memory.head_drop lo hi c.1 r h'.2.2 h'.2.1, ih h'.2.2⟩

/-- Every byte of a range becomes what an unlisted address reads as, 0. -/
def Mem.zero (m : Mem) (lo hi : Nat) : Mem := ⟨Memory.drop lo hi m.cells, Memory.wf_drop lo hi m.cells m.wf⟩

/-- The byte at an address. -/
def Mem.get (m : Mem) (a : Nat) : Byte := Memory.get a m.cells

/-- Write one byte. -/
def Mem.set (m : Mem) (a : Nat) (b : Byte) : Mem := ⟨Memory.set a b m.cells, Memory.wf_set a b m.cells m.wf⟩

/-- The n bytes from an address upward. -/
def Mem.read (m : Mem) : Nat → Nat → List Byte
  | _, 0 => []
  | a, n + 1 => m.get a :: m.read (a + 1) n

/-- Write bytes from an address upward. -/
def Mem.write (m : Mem) (a : Nat) : List Byte → Mem
  | [] => m
  | b :: r => (m.set a b).write (a + 1) r

/-- The number held by n bytes, little-endian. -/
def Mem.num (m : Mem) (a n : Nat) : Nat := ofBytes (m.read a n)

end Sys2Proof.Machine
end

