-- ==== Sys2Proof/Machine/Route.lean ====
section
/-!
DEFINITION. Links that stand between two dies, or between a die and a port (spec/02_machine.md R35; 20 R465, R470).
-/
namespace Sys2Proof.Machine

/-- Link k. -/
def State.link (s : State) (k : Nat) : Link := (s.links.toList[k]?).getD (Link.reset k)

/-- Replace link k; a change of its state sends MSI-X vector 0 (R472). -/
def State.setLink (s : State) (k : Nat) (l : Link) : State :=
  let s' := { s with links := s.links.setIfInBounds k l }
  if (s.link k).st = l.st then s'
  else { s' with pkg := { s'.pkg with msix := s'.pkg.msix.set 0 (s'.pkg.msix[0] + 1) } }

/-- Traffic fails at link k, whose DROP counts it (R470). -/
def State.countDrop (s : State) (k : Nat) : State := s.setLink k { s.link k with drop := min 255 ((s.link k).drop + 1) }

/-- The number of the boundary between two neighbouring dies: ascending by lower die, then higher (R465). -/
def boundary (a b : Nat) : Nat :=
  let lo := min a b
  let hi := max a b
  let below := ((List.range lo).map fun d => (if d % 4 < 3 then 1 else 0) + (if d < 12 then 1 else 0)).sum
  below + (if hi = lo + 4 && lo % 4 < 3 then 1 else 0)

/-- The boundaries crossed along the columns from die a to a column, within its row. -/
def alongRow (a col : Nat) : List Nat :=
  let c := a % 4
  let base := a / 4 * 4
  if c ≤ col then (List.range (col - c)).map fun j => boundary (base + c + j) (base + c + j + 1)
  else (List.range (c - col)).map fun j => boundary (base + c - j) (base + c - j - 1)

/-- The boundaries crossed along the rows from die a to a row, within its column. -/
def alongCol (a row : Nat) : List Nat :=
  let r := a / 4
  let c := a % 4
  if r ≤ row then (List.range (row - r)).map fun j => boundary (4 * (r + j) + c) (4 * (r + j + 1) + c)
  else (List.range (r - row)).map fun j => boundary (4 * (r - j) + c) (4 * (r - j - 1) + c)

/-- The column-first route between two dies. -/
def routeCol (a b : Nat) : List Nat := alongRow a (b % 4) ++ alongCol (a / 4 * 4 + b % 4) (b / 4)
/-- The row-first route between two dies. -/
def routeRow (a b : Nat) : List Nat := alongCol a (b / 4) ++ alongRow (b / 4 * 4 + a % 4) (b % 4)

/-- A link carries flits. -/
def LinkSt.carries : LinkSt → Bool
  | .up | .degraded => true
  | _ => false

/-- The first DOWN link of a route. -/
def downOn (s : State) (r : List Nat) : Option Nat := r.find? fun k => (s.link k).st == .down

/-- Whether traffic between two places passes: it does, it is held while a link trains, it fails at a DOWN link, or a peer refuses it
(20 R466, R467, R470, R482). -/
inductive Way where
  | clear | held | fails (k : Nat) | refused
  deriving DecidableEq, Repr

/-- The way of a link by itself; flits of one that trains or is frozen are held. -/
def wayOver (s : State) (k : Nat) : Way := match (s.link k).st with
  | .up | .degraded => .clear
  | .down => .fails k
  | .training | .frozen => .held

/-- The way along a route that crosses no DOWN boundary. -/
def wayAlong (s : State) (r : List Nat) : Way := if r.any fun k => wayOver s k == .held then .held else .clear

/-- The way between two dies: column-first, or row-first when the column-first route crosses a DOWN boundary (02 R35; 20 R470). -/
def wayDies (s : State) (a b : Nat) : Way := match downOn s (routeCol a b), downOn s (routeRow a b) with
  | none, _ => wayAlong s (routeCol a b)
  | some _, none => wayAlong s (routeRow a b)
  | some k, some _ => .fails k

/-- The DOWN link that makes traffic from `src` to `dst` fail: two dies, or a die and a port 16 + p (24 for p = 8). -/
def failedRoute (s : State) (src dst : Nat) : Option Nat :=
  if src < 16 && dst < 16 then
    match downOn s (routeCol src dst), downOn s (routeRow src dst) with
    | some k, some _ => some k
    | _, _ => none
  else
    let port := max src dst
    if 24 ≤ port && port < 37 then (if (s.link port).st = .down then some port else none) else none

end Sys2Proof.Machine
end

