-- ==== Sys2Proof/Machine/Page.lean ====
section
/-!
DEFINITION. Agents' tables in State, table entries, walks and cached translations (spec/13_pages.md R327 to R341).
A translation answers a key of `Mem` with its leaf, or the reason why the access fails or waits.
-/
namespace Sys2Proof.Machine

/-! ## Tables of State -/

/-- Sequencer n. -/
def State.seq (s : State) (n : Nat) : Seq := (smapGet n s.seqs).getD Seq.reset

/-- Replace sequencer n. -/
def State.setSeq (s : State) (n : Nat) (q : Seq) : State := { s with seqs := smapSet n q s.seqs }

/-- Change sequencer n. -/
def State.modSeq (s : State) (n : Nat) (f : Seq → Seq) : State := s.setSeq n (f (s.seq n))

/-- Die d. -/
def State.die (s : State) (d : Nat) : Die := if h : d < 16 then s.dies[d] else Die.reset [] d

/-- Replace die d. -/
def State.setDie (s : State) (d : Nat) (x : Die) : State := { s with dies := s.dies.setIfInBounds d x }

/-- Change die d. -/
def State.modDie (s : State) (d : Nat) (f : Die → Die) : State := s.setDie d (f (s.die d))

/-- A context that does not exist, as an ended one. -/
def Ctx.none : Ctx :=
  { id := 0, kernel := Option.none, cptbase := 0, ctrap := 0, csump := 0, cdet := 0, limit := 0, balance := 0, st := .ended,
    takeCause := 0, halt := ⟨0, 0, 0⟩, saved := [], records := [], logUsed := [] }

/-- Context c. -/
def State.ctx (s : State) (c : Nat) : Ctx := (s.ctxs.find? fun x => x.id == c).getD Ctx.none

/-- Change context c. -/
def State.modCtx (s : State) (c : Nat) (f : Ctx → Ctx) : State :=
  { s with ctxs := updFirst (fun x => x.id == c) f s.ctxs }

/-- Kernel k. -/
def State.kernel? (s : State) (k : Nat) : Option Kernel := s.kernels.find? fun x => x.id == k

/-- Change kernel k. -/
def State.modKernel (s : State) (k : Nat) (f : Kernel → Kernel) : State :=
  { s with kernels := updFirst (fun x => x.id == k) f s.kernels }

/-- Queue q. -/
def State.queue (s : State) (q : Nat) : Queue := (s.queues.find? fun x => x.id == q).getD (Queue.reset q)

/-- Replace a queue, by its number. -/
def State.setQueue (s : State) (x : Queue) : State :=
  { s with queues := if s.queues.any (fun y => y.id == x.id) then updFirst (fun y => y.id == x.id) (fun _ => x) s.queues
                     else x :: s.queues }

/-- The die of a sequencer. -/
def dieOf (n : Nat) : Nat := n / 16

/-! ## Addresses -/

/-- 2 MB, the window share of one group (02 R40). -/
def twoMB : Nat := 0x200000
/-- Base of the cistern range (R335). -/
def cistBase : Nat := 0xF000000000000
/-- Base of the well range (20 R473). -/
def wellBase : Nat := 0x4000000000000
/-- Base of the notify area (20 R480). -/
def notifyBase : Nat := 0xE000000000000
/-- Key of host memory. -/
def hostKey : Nat := 2 ^ 52

/-- Bytes of main memory that an access may reach (20 R473). -/
def mainSize : Nat := 192 * 2 ^ 30 - 256 * 2 ^ 20
/-- Bytes of the well (20 R473). -/
def wellSize : Nat := 1022 * 2 ^ 30
/-- Bytes of the cistern ranges of sixteen dies (20 R473). -/
def cistSize : Nat := 2 ^ 31

/-- A physical address of the cistern. -/
def inCist (k : Nat) : Bool := cistBase ≤ k && k < cistBase + cistSize
/-- A physical address of the notify area. -/
def inNotify (k : Nat) : Bool := notifyBase ≤ k && k < notifyBase + 0x400000

/-- The spec gives this key a place: main, well, notify area, cistern, host or a peer's port (log 8). -/
def keyExists (k : Nat) : Bool :=
  k < mainSize || (wellBase ≤ k && k < wellBase + wellSize) || inNotify k || inCist k ||
    (hostKey ≤ k && k < 14 * 2 ^ 52)

/-- The die to which the tier controllers of a key belong: the cistern's die, else the die of the memory whose share the
address lies in (02 R36; log 22). -/
def homeDie (k : Nat) : Nat :=
  if inCist k then (k - cistBase) / 0x8000000 % 16
  else if k < mainSize then k / (12 * 2 ^ 30) % 16
  else if wellBase ≤ k then (k - wellBase) / (64 * 2 ^ 30) % 16
  else 0

/-- The link through which a key outside the package is reached: the CXL port, or a peer's port (20 R465, R481). -/
def portOf (key : Nat) : Option Nat :=
  if key < hostKey then none else if key < 2 * 2 ^ 52 then some 24 else some (25 + (key / 2 ^ 52 - 2))

/-- The way through port k to a key; behind a port that carries flits the peer may refuse the access (20 R466, R470, R482; log 117). -/
def wayOut (s : State) (k key : Nat) : Way := match wayOver s k with
  | .clear => if 25 ≤ k && Config.peerRefuses (k - 25) (key % 2 ^ 52) s.now then .refused else .clear
  | w => w

/-- The way of accesses of die d to a key: over the boundaries of the package, or through a port (20 R466, R470). -/
def State.wayTo (s : State) (d key : Nat) : Way := match portOf key with
  | some k => wayOut s k key
  | none => wayDies s d (homeDie key)

/-- A way does not pass: a link is DOWN, or a peer refuses what came over it. -/
def Way.failed : Way → Bool
  | .fails _ | .refused => true
  | .clear | .held => false

/-! ## Table entries (R329, R330) -/

/-- V of an entry. -/
def eV (e : Word) : Bool := e.getLsbD 0
/-- LEAF of an entry. -/
def eLeaf (e : Word) : Bool := e.getLsbD 1
/-- S of an entry. -/
def eS (e : Word) : Nat := fld e 2 2
/-- TIER of an entry: 0 cistern, 1 main, 2 well, 3 host, 4 peer. -/
def eTier (e : Word) : Nat := fld e 4 3
/-- KIND of an entry: 0 SO, 1 RC, 2 UN. -/
def eKind (e : Word) : Nat := fld e 7 2
/-- R of an entry. -/
def eR (e : Word) : Bool := e.getLsbD 9
/-- W of an entry. -/
def eW (e : Word) : Bool := e.getLsbD 10
/-- X of an entry. -/
def eX (e : Word) : Bool := e.getLsbD 11
/-- FRAME of an entry. -/
def eFrame (e : Word) : Nat := fld e 12 40
/-- PORT of an entry. -/
def ePort (e : Word) : Nat := fld e 52 4
/-- A of an entry. -/
def eA (e : Word) : Bool := e.getLsbD 56
/-- D of an entry. -/
def eD (e : Word) : Bool := e.getLsbD 57
/-- MIG of an entry. -/
def eMig (e : Word) : Bool := e.getLsbD 58

/-- Bytes of a page of a leaf at a level (R327). -/
def pageSize (e : Word) (level : Nat) : Nat := 4 ^ eS e * 2 ^ (12 + 9 * level)

/-- Physical base of a leaf's page (R328). -/
def pageBase (e : Word) (level : Nat) : Nat := eFrame e * 4096 / pageSize e level * pageSize e level

/-- A valid entry that is malformed at its level (R330). -/
def malformed (e : Word) (level : Nat) : Bool :=
  if fld e 59 5 != 0 then true
  else if eLeaf e then
    eKind e == 3 || eTier e > 4 || ePort e > 11 || (ePort e != 0 && eTier e != 4) ||
      (eTier e == 0 &&
        let b := pageBase e level
        !(inCist b && b + pageSize e level ≤ cistBase + ((b - cistBase) / 0x8000000 + 1) * 0x8000000))
  else level == 0 || fld e 2 10 != 0 || fld e 52 7 != 0

/-- Where a walk ends: at a leaf, or failing for R344's reasons 1 unmapped, 2 malformed, 3 migrating. `entry` is the
key of the last entry read and `path` every key read. -/
structure Walk where
  reason : Nat
  leaf : Word
  level : Nat
  entry : Nat
  path : List Nat
  deriving DecidableEq, Repr

/-- Walk from a table at level `l` downward (R327). -/
def walkGo (m : Mem) (va : Nat) : Nat → Nat → List Nat → Walk
  | l, tbl, path =>
    let k := tbl + 8 * bitsAt va (12 + 9 * l) 9
    let e := toWord (m.num k 8)
    let path := path ++ [k]
    if !eV e then ⟨if eMig e then 3 else 1, e, l, k, path⟩
    else if malformed e l then ⟨2, e, l, k, path⟩
    else if eLeaf e then ⟨0, e, l, k, path⟩
    else match l with
      | 0 => ⟨2, e, 0, k, path⟩
      | l + 1 => walkGo m va l (eFrame e * 4096) path

/-- The walk of a context's tree for a virtual address (R327, R331). -/
def walk (m : Mem) (cptbase : Word) (va : Nat) : Walk := walkGo m va 3 (fld cptbase 12 40 * 4096) []

/-- The key that a leaf gives a virtual address (R328, R329; 20 R481). -/
def leafKey (e : Word) (level : Nat) (va : Nat) : Nat :=
  let pa := pageBase e level + va % pageSize e level
  match eTier e with
  | 3 => 2 ^ 52 + pa
  | 4 => (2 + ePort e) * 2 ^ 52 + pa
  | _ => pa

/-- The permission that an access needs (R332). -/
def permits (e : Word) : Access → Bool
  | .fetch => eX e
  | .load => eR e
  | .store => eW e
  | .atomic => eR e && eW e

/-- A successful translation: the key, the leaf, and the key of the table entry that holds the leaf. -/
structure Phys where
  key : Nat
  leaf : Word
  entry : Nat
  deriving DecidableEq, Repr

/-- TIER of a translation. -/
def Phys.tier (p : Phys) : Nat := eTier p.leaf
/-- KIND of a translation. -/
def Phys.kind (p : Phys) : Nat := eKind p.leaf

/-- The outcome of translating one address. -/
inductive Xl where
  /-- Translated, permission held. -/
  | ok (p : Phys)
  /-- The walk fails, or bits 63:48 of the address are set (R330). -/
  | fail
  /-- A permission is missing, or a cistern address lies in no current window (R332, R335). -/
  | prot
  /-- The entry is migrating: the access waits (R336). -/
  | migr
  /-- An entry of the walk holds an uncorrectable error, or lies where no route leads (15 R396; 20 R470). -/
  | mcheck (key : Nat)
  /-- An entry of the walk lies behind a link that trains (20 R466). -/
  | held
  deriving DecidableEq, Repr

/-- The grant window that holds a cistern address: sequencer and its state (R335). -/
def State.winOf (s : State) (key : Nat) : Option (Nat × Seq) :=
  s.seqs.find? fun p => p.2.winPa ≤ key && key < p.2.winPa + twoMB * p.2.groups.length

/-- A translation of a list that covers an address. -/
def tlbFind (ts : List TlbEntry) (space va : Nat) : Option TlbEntry :=
  ts.find? fun t => t.space == space && t.vpn ≤ va / 4096 && va / 4096 < t.vpn + t.pages

/-- A translation that a die's cache holds and that covers an address (R340). -/
def tlbHit (d : Die) (space va : Nat) : Option TlbEntry := tlbFind d.tlb space va

/-- Where an access is translated: a physical group of the die and one of its banks, which have caches of their own, or at the
die's cache alone. Element accesses of vector instructions stand at the bank that executes them (log 81). -/
abbrev Place := Option (Nat × Nat)

/-- The translation that the caches of a place hold: its bank's, else its group's, else the die's (R340). -/
def cacheHit (d : Die) (pl : Place) (space va : Nat) : Option TlbEntry := match pl with
  | none => tlbHit d space va
  | some (g, b) =>
    ((tlbFind ((smapGet (16 * g + b) d.bankTlb).getD []) space va).orElse fun _ =>
      tlbFind ((smapGet g d.groupTlb).getD []) space va).orElse fun _ => tlbHit d space va

/-- A cache of `cap` entries takes a translation of an address that it does not hold; the one installed longest ago goes
(log 81). -/
def tlbPut (cap : Nat) (t : TlbEntry) (va : Nat) (ts : List TlbEntry) : List TlbEntry :=
  if (tlbFind ts t.space va).isSome then ts else (t :: ts).take cap

/-- The caches of a place take a translation: 16 entries per bank, 256 per group and 8,192 per die (R340). -/
def tlbInstall (d : Die) (pl : Place) (va : Nat) (t : TlbEntry) : Die :=
  let d := { d with tlb := tlbPut 8192 t va d.tlb }
  match pl with
  | none => d
  | some (g, b) =>
    { d with groupTlb := smapSet g (tlbPut 256 t va ((smapGet g d.groupTlb).getD [])) d.groupTlb,
             bankTlb := smapSet (16 * g + b) (tlbPut 16 t va ((smapGet (16 * g + b) d.bankTlb).getD [])) d.bankTlb }

/-- Change what every cache of a die holds. -/
def Die.mapTlb (d : Die) (f : List TlbEntry → List TlbEntry) : Die :=
  { d with tlb := f d.tlb, groupTlb := d.groupTlb.map fun p => (p.1, f p.2),
           bankTlb := d.bankTlb.map fun p => (p.1, f p.2) }

/-- Whether an access is a write, which needs D (R339). -/
def accWrites : Access → Bool
  | .store | .atomic => true
  | _ => false

/-- An address lies in the shadow area of an open group (12 R315). -/
def Group.covers (g : Group) (a : Nat) : Bool := g.st != .none && g.area ≤ a && a < g.area + 64 * (g.nlines + 1)

/-- A group's shadows see a write of n bytes at a key (12 R315, R317). -/
def Group.note (g : Group) (key n : Nat) : Group :=
  let l0 := key / 64
  let l1 := (key + n - 1) / 64
  let g := if g.shadows.isEmpty then g
    else { g with shadows := g.shadows.map fun sh =>
      if l0 ≤ sh.line && sh.line ≤ l1 then { sh with conflict := true } else sh }
  if g.covers key || g.covers (key + n - 1) then { g with dropped := true } else g

/-- A sequencer's monitor and its shadows see a write of n bytes at a key (06 R171, R172; 12 R317). -/
def Seq.watch (q : Seq) (key n : Nat) : Seq :=
  let l0 := key / 64
  let l1 := (key + n - 1) / 64
  let q := match q.monitor with
    | some (l, false) => if l0 ≤ l && l ≤ l1 then { q with monitor := some (l, true) } else q
    | _ => q
  { q with grp := q.grp.note key n }

/-- What a write of n bytes at a key does to a sequencer: its monitor and its shadows see it, and its window's dirty record grows (15
R389). -/
def Seq.note (q : Seq) (key n : Nat) : Seq :=
  let q := q.watch key n
  if q.winPa ≤ key && key < q.winPa + twoMB * q.groups.length then
    let o0 := (key - q.winPa) / 4096
    let o1 := (key + n - 1 - q.winPa) / 4096
    { q with dirtyGran := (List.range (o1 + 1 - o0)).foldl (fun l j => nsetAdd (o0 + j) l) q.dirtyGran,
             hwm := max q.hwm ((o1 + 1) * 4096) }
  else q

/-- Every monitor and every shadow sees a write of n bytes at a key. -/
def State.watch (s : State) (key n : Nat) : State :=
  { s with seqs := s.seqs.map fun p => (p.1, p.2.watch key n),
           aside := s.aside.map fun a => { a with grp := a.grp.note key n } }

/-- Every watcher sees a write of n bytes at a key. -/
def State.note (s : State) (key n : Nat) : State :=
  { s with seqs := s.seqs.map fun p => (p.1, p.2.note key n),
           aside := s.aside.map fun a => { a with grp := a.grp.note key n } }

/-- Write the bytes that no open group's shadow area covers. -/
def State.writeMem (s : State) (key : Nat) (bs : List Byte) : Mem :=
  if s.seqs.all fun p => p.2.grp.st == .none then s.mem.write key bs
  else (bs.zipIdx key).foldl (fun m b => if s.seqs.any fun p => p.2.grp.covers b.2 then m else m.set b.2 b.1) s.mem

/-- Write bytes at a key: error bits of the words written go, and every watcher sees the write; a write to an open
group's shadow area is dropped (12 R315). -/
def State.poke (s : State) (key : Nat) (bs : List Byte) : State :=
  ({ s with mem := s.writeMem key bs,
            soft := s.soft.filter fun p => !(key / 8 ≤ p.1 && p.1 ≤ (key + bs.length - 1) / 8) }).note key bs.length

/-- A command is in the middle of a query block on an attention engine, which takes no interruptible step there (09 R243; 12
R307). -/
def GCmd.midBlock (m : GCmd) : Bool := m.began && m.kind == .attn && !m.onMatrix && (m.page != 0 || !m.rows.isEmpty)

/-- A unit of work of a context may begin (21 R495). -/
def State.canBegin (s : State) (c : Nat) : Bool := (s.ctx c).limit = 0 || (s.ctx c).balance > 0

/-- A group closes: its shadow area shows again what it held, with the shadows in its lines (12 R315, R316). An attention engine
that is inside a query block still ends it, without effect (09 R235, R243; 12 R322), and its command stays until then; an
engine that the quota has stopped between two pages is at its stop already (21 R495). -/
def State.closeGroup (s : State) (n : Nat) : State :=
  let g := (s.seq n).grp
  if g.st = .none then s
  else
    let stop := g.cmds.take 1 |>.filter fun m => m.midBlock && s.canBegin m.ctx
    let s := { s.modSeq n fun q => { q with grp := Group.none, stopping := q.stopping ++ stop } with
      mem := g.hidden.foldl (fun m c => m.set c.1 c.2) s.mem }
    g.shadows.zipIdx.foldl (fun s p => s.poke (g.area + 64 * (p.2 + 1)) p.1.data) s

/-- A line or a key of a window by its offset, above every key, for a group whose thread leaves the window: its area and the
shadows of window lines go with it (12 R320; 15 R395). -/
def offWin (base size k : Nat) : Nat := if base ≤ k && k < base + size then k - base + 2 ^ 72 else k

/-- The same offset in a window. -/
def intoWin (base k : Nat) : Nat := if k < 2 ^ 72 then k else k - 2 ^ 72 + base

/-- A group with its lines and keys moved; a query block in progress starts again (log 108). -/
def Group.move (g : Group) (line key : Nat → Nat) : Group :=
  { g with area := key g.area, hidden := g.hidden.map fun c => (key c.1, c.2),
           shadows := g.shadows.map fun sh => { sh with line := line sh.line },
           cmds := g.cmds.map fun m =>
             let m := { m with displaced := m.displaced.map fun (d : Nat × List Byte) => (line d.1, d.2) }
             if m.midBlock then { m with page := 0, rows := [] } else m }

/-- A group leaves a window with its thread. -/
def Group.leave (g : Group) (q : Seq) : Group :=
  let size := twoMB * q.groups.length
  if g.st = .none then Group.none else g.move (offWin (q.winPa / 64) (size / 64)) (offWin q.winPa size)

/-- A group comes with its thread into a window. -/
def Group.enter (g : Group) (q : Seq) : Group := g.move (intoWin (q.winPa / 64)) (intoWin q.winPa)

/-- What is kept of a thread beside its record. -/
def State.asideOf (s : State) (run : Nat) : Option Aside := s.aside.find? fun a => a.run == run

/-- Replace what is kept of a thread. -/
def State.setAside (s : State) (a : Aside) : State := { s with aside := a :: s.aside.filter fun b => b.run != a.run }

/-- The group of a sequencer is kept with the thread that leaves it, whose window shows again what the area held (12 R320). -/
def State.stowGroup (s : State) (n : Nat) : State :=
  let q := s.seq n
  if q.grp.st = .none then s
  else
    let a := (s.asideOf q.runId).getD ⟨q.runId, q.ctx, [], [], Group.none⟩
    let s : State := { s with mem := q.grp.hidden.foldl (fun m c => m.set c.1 c.2) s.mem }
    (s.modSeq n fun q => { q with grp := Group.none }).setAside { a with grp := q.grp.leave q }

/-- Set the bits of a mask in the table entry at a key (R339). -/
def setEntryBits (s : State) (key : Nat) (bits : Word) : State :=
  if toWord (s.mem.num key 8) ||| bits = toWord (s.mem.num key 8) then s
  else s.poke key (bytesOf 8 (toWord (s.mem.num key 8) ||| bits).toNat)

/-- Error bits held by the 64-bit word of a key (15 R396, R397). -/
def State.softOf (s : State) (key : Nat) : Nat := (smapGet (key / 8) s.soft).getD 0

/-- Count a corrected word in ECCCNT of its home die (15 R397; 21 R511). -/
def countCorrected (s : State) (key : Nat) : State :=
  s.modDie (homeDie key) fun d =>
    if inCist key then { d with cistce := min (2 ^ 32 - 1) (d.cistce + 1) }
    else { d with memce := min (2 ^ 31 - 1) (d.memce + 1) }

/-- The words of some keys are read: those with a single-bit error are corrected and counted. -/
def countWords (s : State) (ks : List Nat) : State :=
  if s.soft.isEmpty then s else ks.foldl (fun s k => if s.softOf k = 1 then countCorrected s k else s) s

/-- The leaf for an address under a cptbase value at a place of a die: from a cache, or by a walk that sets A and installs it;
else the reason why there is none, with what the walk has read counted (R336, R340). The words that the walk reads give R396's
errors, also those that no route reaches (20 R470). A walk is one step (log 81). -/
def findLeaf (s : State) (d : Nat) (root : Word) (va : Nat) (expired : Bool) (pl : Place) :
    Except (Xl × State) (State × Word × Nat × Nat) :=
  let space := fld root 0 12
  match cacheHit (s.die d) pl space va with
  | some t => .ok (if pl.isNone then s else s.modDie d (tlbInstall · pl va t), t.leaf, t.level, t.entry)
  | none =>
    let w := walk s.mem root va
    match w.path.find? (fun k => s.softOf k > 1 || s.wayTo d k != .clear) with
    | some k => .error (if s.softOf k ≤ 1 && s.wayTo d k = .held then .held else .mcheck k, s)
    | none =>
      let s := countWords s w.path
      if w.reason = 3 && !expired then .error (.migr, s)
      else if w.reason != 0 then .error (.fail, s)
      else
        let a : Word := 1 <<< 56
        let s := setEntryBits s w.entry a
        let leaf := w.leaf ||| a
        let sz := pageSize leaf w.level
        let t : TlbEntry := ⟨space, va / sz * (sz / 4096), sz / 4096, leaf, w.level, w.entry⟩
        .ok (s.modDie d (tlbInstall · pl va t), leaf, w.level, w.entry)

/-- Translate an address under a cptbase value at a place of die d (R327 to R340): bits 63:48, the walk or the cache, the
permission, the window of a cistern address. -/
def xlateRoot (s : State) (d : Nat) (root : Word) (va : Nat) (acc : Access) (expired : Bool) (pl : Place := none) :
    Xl × State :=
  if va ≥ 2 ^ 48 then (.fail, s)
  else match findLeaf s d root va expired pl with
    | .error e => e
    | .ok (s, leaf, level, entry) =>
      let key := leafKey leaf level va
      if !permits leaf acc then (.prot, s)
      else if eTier leaf = 0 && (s.winOf key).isNone then (.prot, s)
      else (.ok ⟨key, leaf, entry⟩, s)

/-- Translate an address for an access of context c on die d. -/
def xlate (s : State) (d c : Nat) (va : Nat) (acc : Access) (expired : Bool := false) (pl : Place := none) : Xl × State :=
  xlateRoot s d (s.ctx c).cptbase va acc expired pl

/-- A write through a leaf whose copy shows D = 0 sets D first: in the table entry and in the copies that the die's caches hold
(R329, R339). -/
def State.dirty (s : State) (d : Nat) (p : Phys) : State :=
  if eD p.leaf then s
  else
    let dbit : Word := 1 <<< 57
    let set := fun (t : TlbEntry) => if t.entry = p.entry && t.leaf = p.leaf then { t with leaf := t.leaf ||| dbit } else t
    (setEntryBits s p.entry dbit).modDie d (·.mapTlb (·.map set))

/-- The translation of an address without any effect: the cached leaf or a walk of the tree. -/
def probe (s : State) (d c : Nat) (va : Nat) : Option Phys :=
  if va ≥ 2 ^ 48 then none
  else match tlbHit (s.die d) (fld (s.ctx c).cptbase 0 12) va with
    | some t => some ⟨leafKey t.leaf t.level va, t.leaf, t.entry⟩
    | none =>
      let w := walk s.mem (s.ctx c).cptbase va
      if w.reason = 0 then some ⟨leafKey w.leaf w.level va, w.leaf, w.entry⟩ else none

/-- The write of an address by context c on die d goes through the leaf that translates it (R339). -/
def State.dirtyAt (s : State) (d c va : Nat) : State := match probe s d c va with
  | some p => s.dirty d p
  | none => s

end Sys2Proof.Machine
end

