-- ==== Sys2Proof/Machine/Access.lean ====
section
/-!
DEFINITION. Accesses to memory once an address is translated: error bits, full/empty bits and landings of cistern
words (spec/08_vector_memory.md R214, R215; spec/02_machine.md R52), versions of window lines (R49, R54, R55, R57), and
the notify registers (spec/16_queues.md R401 to R403). `Op` is the monad of every move: it reads and changes State, and it may stop.
-/
namespace Sys2Proof.Machine

/-- What a move waits for: a landing that is due into the grant's own window, units of a die's bucket, space in or entries of
the log, a migrating page (at a virtual address), or anything else (15 R372; 12 R326; 13 R336; 21 R501). -/
inductive WaitKind where
  | landing | bucket (d : Nat) (w : Waiter) | log | migrating (va : Nat) | other
  deriving DecidableEq, Repr

/-- Why a move stops before its end. -/
inductive Stop where
  /-- A trap. -/
  | trap (r : TrapReq)
  /-- An element trap at an element other than the one at which its group stands: one of a block (03 R76), or of an
  instruction that is reported with vector start 0 (07 R186). -/
  | etrap (elem : Nat) (r : TrapReq)
  /-- TRAP, which has taken its ISN (06 R173). -/
  | swtrap (r : TrapReq)
  /-- A trap of an instruction that has passed its checks, and so has taken its ISN (19 R456). -/
  | ltrap (r : TrapReq)
  /-- A trap of GCOMMIT that reports a suspended command's failure with the command's ISN (12 R321). -/
  | ctrap (isn : BitVec 32) (r : TrapReq)
  /-- Nothing happens yet. -/
  | wait (k : WaitKind)
  /-- An uncorrectable error, at a virtual address or, when `phys`, at a physical one (15 R396). -/
  | mcheck (addr : Nat) (phys : Bool)
  /-- The model's own stop. -/
  | fault (f : Fault)
  deriving DecidableEq, Repr

/-- A move: it changes State and answers a value, or stops. -/
abbrev Op (α : Type) := EStateM Stop State α

/-- Stop with a trap. -/
def trapWith {α : Type} (cause addr : Nat) (info : Nat := 0) : Op α :=
  throw (.trap ⟨cause, toWord addr, toWord info⟩)

/-- Wait. -/
def waitFor {α : Type} (k : WaitKind) : Op α := throw (.wait k)

/-! ## ISNs and versions -/

/-- ISN a comes before ISN b, modulo 2^32 (02 R47). -/
def isnLt (a b : BitVec 32) : Bool := (a - b).toInt < 0

/-- The low-water ISN (02 R48). -/
def Seq.low (q : Seq) : BitVec 32 := match q.inflight with
  | [] => q.isn
  | e :: _ => e.isn

/-- Groups of the grant. -/
def Seq.g (q : Seq) : Nat := q.groups.length

/-- A key lies in the grant window. -/
def Seq.inWin (q : Seq) (key : Nat) : Bool := q.winPa ≤ key && key < q.winPa + twoMB * q.g

/-- The group that owns a key of the window (02 R41). -/
def Seq.ownerOf (q : Seq) (key : Nat) : Nat := (key - q.winPa) / 64 % q.g

/-- The window line number of a key. -/
def Seq.lineOf (q : Seq) (key : Nat) : Nat := (key - q.winPa) / 64

/-- Every group of the grant that owns a line has completed every ISN below n (02 R49). -/
def Seq.doneBelow (q : Seq) (grp : Nat) (n : BitVec 32) : Bool :=
  q.inflight.all fun e => !isnLt e.isn n || (e.gs[grp]?.map (·.fin)).getD true

/-- Every group has completed every ISN below n. -/
def Seq.allDoneBelow (q : Seq) (n : BitVec 32) : Bool := q.inflight.all fun e => !isnLt e.isn n

/-- The word of a key is full. -/
def State.full (s : State) (key : Nat) : Bool := !s.empty.contains (key / 8)

/-- The 64-bit words that n bytes at a key touch. -/
def wordsOf (key n : Nat) : List Nat := (List.range ((key + n - 1) / 8 + 1 - key / 8)).map (key / 8 + ·)

/-- The full bits of the eight words of a line. -/
def State.fullBits (s : State) (line : Nat) : List Bool := (List.range 8).map fun j => s.full (64 * line + 8 * j)

/-- Mark words full or empty; every watcher sees the change (06 R172; 15 R389). -/
def State.markWords (s : State) (ws : List Nat) (full : Bool) : State :=
  ws.foldl (fun s w =>
    ({ s with empty := if full then nsetDel w s.empty else nsetAdd w s.empty } : State).note (8 * w) 8) s

/-- The mark of an outstanding landing on a word (02 R52). -/
def State.markOn (s : State) (w : Nat) : Option Mark := s.marks.find? fun m => m.word == w && !m.dead && !m.landed

/-- Some word of an access has an outstanding landing. -/
def State.landingDue (s : State) (key n : Nat) : Bool := (wordsOf key n).any fun w => (s.markOn w).isSome

/-- The line of a window as ISN m sees it: the version of smallest tag at or above m, else the current one (R54). -/
def viewLine (s : State) (q : Seq) (key : Nat) (m : BitVec 32) : List Byte × List Bool :=
  let k := q.lineOf key
  match minBy (fun (a b : Version) => isnLt a.tag b.tag)
      (q.versions.filter fun v => v.line == k && !isnLt v.tag m) with
  | some v => (v.data, v.full)
  | none => (s.mem.read (key / 64 * 64) 64, s.fullBits (key / 64))

/-- Save a line before a write of ISN n, once per ISN (R54, R55): with 32 versions in use in the bank a write above
the low-water ISN waits, and one at it goes to the overflow area. With nothing in flight the write is performed as its
instruction issues, and the version would be freed at once. -/
def saveVersion (n : Nat) (isn : BitVec 32) (key : Nat) : Op Unit := do
  let s ← get
  let q := s.seq n
  let k := q.lineOf key
  if q.inflight.isEmpty || q.versions.any (fun v => v.line == k && v.tag == isn) then pure ()
  else
    let used := (q.versions.filter fun v => v.line % (16 * q.g) == k % (16 * q.g) && !v.overflow).length
    if used ≥ 32 && isn != q.low then waitFor .other
    else
      let v : Version := ⟨k, isn, s.mem.read (key / 64 * 64) 64, s.fullBits (key / 64), used ≥ 32⟩
      set (s.setSeq n { q with versions := q.versions ++ [v] })

/-- Versions whose tag the low-water ISN has passed are freed (R54), and what is known of pulls below it. -/
def Seq.prune (q : Seq) : Seq :=
  { q with versions := q.versions.filter fun v => !isnLt v.tag q.low,
           reads := q.reads.filter fun r => !isnLt r.2.1 q.low,
           kept := q.kept.filter fun k => !isnLt k.isn q.low }

/-! ## Pulls of one location never go backwards (02 R57; 14 R347) -/

/-- Place (m, i) comes before place (n, j) in the grant's order. -/
def placeLt (m : BitVec 32) (i : Nat) (n : BitVec 32) (j : Nat) : Bool := isnLt m n || (m == n && i < j)

/-- The pull of some words at ISN m and element i is known. -/
def Seq.notePull (q : Seq) (ws : List Nat) (m : BitVec 32) (i : Nat) : Seq :=
  { q with reads := ws.foldl (fun rs w => match smapGet w rs with
    | some (n, j) => if placeLt n j m i then smapSet w (m, i) rs else rs
    | none => smapSet w (m, i) rs) q.reads }

/-- What a window word holds is kept for the pulls below the highest place that has pulled it, when that place reads the
current line. -/
def Seq.keepWord (s : State) (q : Seq) (w : Nat) : Seq := match smapGet w q.reads with
  | none => q
  | some (n, j) =>
    let since := match minBy (fun (a b : Version) => isnLt b.tag a.tag) (q.versions.filter fun v => v.line == q.lineOf (8 * w)) with
      | some v => v.tag + 1
      | none => q.low
    if isnLt n since then q
    else { q with kept := q.kept ++ [⟨w, n, j, since, s.mem.read (8 * w) 8, s.full (8 * w)⟩] }

/-- An agent other than the grant is about to write n bytes at a cistern key. -/
def State.keepOld (s : State) (key n : Nat) : State := match s.winOf key with
  | some (i, q) => if q.reads.isEmpty then s else s.setSeq i ((wordsOf key n).foldl (Seq.keepWord s) q)
  | none => s

/-- The bytes and full bits of a line as a pull at ISN m and element i sees them, given the version or the current line. -/
def Seq.overKept (q : Seq) (key : Nat) (m : BitVec 32) (i : Nat) (v : List Byte × List Bool) : List Byte × List Bool :=
  if q.kept.isEmpty then v
  else
    let at_ := fun (j : Nat) => q.kept.find? fun k =>
      k.word == key / 64 * 8 + j && placeLt m i k.isn k.elem && !isnLt m k.since
    (((List.range 8).map fun j => match at_ j with
        | some k => k.data
        | none => (v.1.drop (8 * j)).take 8).flatten,
      v.2.zipIdx.map fun b => match at_ b.2 with
        | some k => k.full
        | none => b.1)

/-! ## Physical reads and writes -/

/-- The key has a place in the memory map, or the machine stops (log 8); an access that needs a DOWN port fails as an
uncorrectable error, and one to a port that trains or is frozen is held (20 R466, R470, R471). -/
def needKey (va : Option Nat) (key n : Nat) : Op Unit := do
  let s ← get
  if !(keyExists key && keyExists (key + n - 1)) then throw (.fault (.physicalHole key))
  else match (portOf key).map fun k => wayOut s k key with
    | none | some .clear => pure ()
    | some (.fails _) | some .refused => throw (.mcheck (va.getD key) va.isNone)
    | some .held => waitFor .other

/-- Die d reaches the place at va, or the access fails as an uncorrectable error or is held (20 R466, R470). -/
def needRoute (d va : Nat) (p : Phys) : Op Unit := do
  match (← get).wayTo d p.key with
  | .clear => pure ()
  | .held => waitFor .other
  | .fails _ | .refused => throw (.mcheck va false)

/-- The same for a place whose virtual address is not known. -/
def needWay (d key : Nat) : Op Unit := do
  match (← get).wayTo d key with
  | .clear => pure ()
  | .held => waitFor .other
  | .fails _ | .refused => throw (.mcheck key true)

/-- Error bits of the words of a read: one is corrected and counted, more are a machine check (15 R396, R397). -/
def checkSoft (va : Option Nat) (key n : Nat) : Op Unit := do
  let s ← get
  if s.soft.isEmpty then pure ()
  else
    let ws := wordsOf key n
    if ws.any fun w => s.softOf (8 * w) > 1 then throw (.mcheck (va.getD key) va.isNone)
    else set (countWords s (ws.map (8 * ·)))

/-- The n bytes at a key as they stand now; the notify area reads 0 (16 R401). -/
def readKey (va : Option Nat) (key n : Nat) : Op (List Byte) := do
  needKey va key n
  checkSoft va key n
  let s ← get
  pure (if inNotify key then List.replicate n 0 else s.mem.read key n)

/-- The descriptor word w of a queue: captured, or read from the table while the queue is DISABLED (16 R398, R400). -/
def queueWord (s : State) (q : Nat) (w : Nat) : Word :=
  let x := s.queue q
  match x.st, x.desc[w]? with
  | .disabled, _ => toWord (s.mem.num (s.pkg.qtbase + 64 * q + 8 * w) 8)
  | _, some v => v
  | _, none => toWord (s.mem.num (s.pkg.qtbase + 64 * q + 8 * w) 8)

/-- HOME of a queue (16 R399). -/
def queueHome (s : State) (q : Nat) : Nat := fld (queueWord s q 6) 60 4

/-- Post a write to a notify register (16 R402, R403). -/
def notifyPost (s : State) (q : Nat) (v : Word) : State :=
  let reset := v.getLsbD 63
  let dis := v.getLsbD 62
  let x := s.queue q
  if !reset && !dis && x.notified then s
  else
    let ev := Event.notify q (if reset then some (BitVec.ofNat 32 (fld v 0 32)) else none) dis
    let s := s.setQueue { x with notified := true }
    s.modDie (queueHome s q) fun d => { d with events := d.events ++ [ev] }

/-- A write that reaches the notify area: an aligned 8-byte store to a register posts, any other is ignored (16 R401;
20 R480). -/
def notifyStore (s : State) (key : Nat) (bs : List Byte) : State :=
  let o := key - notifyBase
  if o % 4096 = 0 && bs.length = 8 then notifyPost s (o / 4096) (toWord (ofBytes bs)) else s

/-- Write bytes at a key now, at a virtual address if one is known. -/
def writeKey (key : Nat) (bs : List Byte) (va : Option Nat := none) : Op Unit := do
  needKey va key bs.length
  modify fun s => if inNotify key then notifyStore s key bs else s.poke key bs

/-- A write into a cistern word by anyone but the grant's own ISNs: it waits for an outstanding landing, changes the
current line and marks its words full (02 R52, R57; 08 R223). -/
def writeCistern (key : Nat) (bs : List Byte) : Op Unit := do
  let s ← get
  if s.landingDue key bs.length then waitFor .other
  else
    modify fun s => s.keepOld key bs.length
    writeKey key bs
    modify fun s => s.markWords (wordsOf key bs.length) true

/-- A mark of the instruction at an ISN of the thread that sequencer n holds. -/
def State.mineMark (s : State) (n : Nat) (isn : BitVec 32) (m : Mark) : Bool :=
  m.sq == n && m.runId == (s.seq n).runId && m.isn == isn

/-- Some word of an access waits for a landing of another instruction. -/
def State.otherDue (s : State) (n : Nat) (isn : BitVec 32) (ws : List Nat) : Bool :=
  ws.any fun w => (s.markOn w).any fun m => !s.mineMark n isn m

/-- A write of ISN `isn` into the grant's own window: it follows every lower ISN in the group that owns the line, waits
for landings that another ISN marked, saves the line and marks words full, but for those in which a landing of its own
instruction is due (02 R48, R52, R54; 08 R214, R220). -/
def writeOwn (n : Nat) (isn : BitVec 32) (key : Nat) (bs : List Byte) : Op Unit := do
  let s ← get
  let q := s.seq n
  let ws := wordsOf key bs.length
  if !q.doneBelow (q.ownerOf key) isn then waitFor .other
  else if s.otherDue n isn ws then waitFor .landing
  else
    saveVersion n isn key
    writeKey key bs
    modify fun s => s.markWords (ws.filter fun w => (s.markOn w).isNone) true

/-- An empty word of an access stops it: FEEMPTY under policy 1, else a wait, for the landing that a lower instruction of
the grant has due there, or for whatever may fill the word (08 R215; 15 R372). -/
def needFull (s : State) (pol : Bool) (va key n : Nat) (bits : List Bool) (own : Option (Nat × BitVec 32)) : Op Unit :=
  if bits.all (fun b => b) then pure ()
  else if pol then trapWith 0x09 va
  else
    let due := (wordsOf key n).any fun w => match s.markOn w, own with
      | some m, some (sq, isn) => m.sq == sq && isnLt m.isn isn
      | _, _ => false
    waitFor (if due then .landing else .other)

/-- Withdrawn chaining pairs 0 and 1: a policy-0 pull of a word that a pump copy or a DRAIN has marked empty waits
until that copy or pass is complete (21 R489); the pairs are those of the word's die. -/
def chainHeld (s : State) (key n : Nat) : Bool :=
  let w := (s.die (homeDie key)).wd ||| (s.die (homeDie key)).force
  (w.testBit 0 || w.testBit 1) && (wordsOf key n).any fun x => s.marks.any fun m =>
    m.word == x && m.landed && !m.dead && ((m.src == .pump && w.testBit 0) || (m.src == .drain && w.testBit 1))

/-- Words have landed for an instruction: a VLD's marks go once no landing of the instruction is due, those of a pump copy and of a
DRAIN with the end of the copy or the pass (21 R489). -/
def landMarks (s : State) (sq run : Nat) (isn : BitVec 32) (ws : List Nat) : State :=
  let mine := fun (m : Mark) => m.sq == sq && m.runId == run && m.isn == isn
  let ms := s.marks.map fun m => if mine m && ws.contains m.word then { m with landed := true } else m
  { s with marks := if ms.any (fun m => mine m && (m.src != .vld || (!m.landed && !m.dead))) then ms else ms.filter fun m => !mine m }

/-- Nothing more will land for an instruction, which has ended or been stopped (09 R243; 11 R293; 15 R380): its words stay as they are. -/
def killMarks (s : State) (sq run : Nat) (isn : BitVec 32) : State :=
  { s with marks := s.marks.filter fun m => !(m.sq == sq && m.runId == run && m.isn == isn) }

/-- The n bytes of the grant's own window as element i of ISN m reads them, once the owner has completed every ISN below m and
the words are full (02 R49; 08 R215); after a write by another agent, a pull below one that came before the write sees what that
one saw (02 R57). In a grant of one group pulls come in the grant's order, and with nothing in flight no lower pull can follow. -/
def pullOwn (n : Nat) (m : BitVec 32) (i va key len : Nat) (pol : Bool) : Op (List Byte) := do
  let s ← get
  let q := s.seq n
  if !q.doneBelow (q.ownerOf key) m then waitFor .other
  else
    let v := q.overKept key m i (viewLine s q key m)
    let o := key % 64
    needFull s pol va key len ((v.2.drop (o / 8)).take ((o + len - 1) / 8 + 1 - o / 8)) (some (n, m))
    if !pol && chainHeld s key len then waitFor .landing
    else
      checkSoft (some va) key len
      if q.g > 1 && !q.inflight.isEmpty then modify fun s => s.modSeq n (·.notePull (wordsOf key len) m i)
      pure ((v.1.drop o).take len)

/-- The n bytes at a cistern key outside the grant's own ISN order: the current line, once its words are full
(02 R57). -/
def readForeign (va key len : Nat) (pol : Bool) : Op (List Byte) := do
  let s ← get
  needFull s pol va key len ((wordsOf key len).map fun w => s.full (8 * w)) none
  if !pol && chainHeld s key len then waitFor .landing
  readKey (some va) key len

/-! ## Translation inside a move -/

/-- A translated access of agent `who` (sequencers are 0 to 255) for context c on die d. A migrating page waits, and
fails once its wait has expired (13 R336). -/
def xlateOp (who d c : Nat) (va : Nat) (acc : Access) (pl : Place := none) : Op Xl := do
  let s ← get
  let mine := fun (m : MigWait) => m.sq == who && m.ctx == c && m.va == va
  let expired := s.migs.any fun m => mine m && m.expired
  let (x, s') := xlate s d c va acc expired pl
  match x with
  | .migr => waitFor (.migrating va)
  | .held => waitFor .other
  | .mcheck k => throw (.mcheck k true)
  | _ =>
    set ({ s' with migs := s'.migs.filter fun m => !mine m } : State)
    pure x

/-- The access at a translated place is a write (13 R339). -/
def dirtyOp (d : Nat) (p : Phys) : Op Unit := modify fun s => s.dirty d p

/-- Record that an agent waits on a migrating page (13 R336). -/
def State.addMig (s : State) (who c va : Nat) : State :=
  if s.migs.any fun m => m.sq == who && m.ctx == c && m.va == va then s
  else { s with migs := s.migs ++ [⟨who, c, va, s.now, false⟩] }

end Sys2Proof.Machine
end

