-- ==== Sys2Proof/Machine/Log.lean ====
section
/-!
DEFINITION. The fault sump (spec/15_contexts.md R382 to R384) and the log of record and replay modes
(spec/21_power_determinism.md R499 to R503).
-/
namespace Sys2Proof.Machine

/-! ## The sump -/

/-- Fields of a sump entry (15 R384). -/
structure SumpRec where
  tag : Nat := 0
  die : Nat
  sq : Nat
  isn : Option (BitVec 32) := none
  source : Nat
  cause : Nat
  addr : Word := 0
  elem : Nat := 0
  handle : Word := 0
  deriving DecidableEq, Repr

/-- The words of a sump entry (15 R384). -/
def SumpRec.words (r : SumpRec) (time : Word) : List Word :=
  [toWord (r.tag % 65536 * 2 ^ 48 + r.die * 2 ^ 44 + r.sq % 16 * 2 ^ 40 +
      (if r.isn.isSome then 2 ^ 36 else 0) + r.source * 2 ^ 32 + r.cause),
    r.addr, toWord ((r.isn.map (·.toNat)).getD 0), toWord r.elem, r.handle, time, 0, 0]

/-- The bytes of words. -/
def wordBytes (ws : List Word) : List Byte := (ws.map fun w => bytesOf 8 w.toNat).flatten

/-- Where an access that must reach the main or well tier goes: a place, one that it waits for (a migrating page, or a way that
links which train hold), or nowhere. -/
inductive FarKey where
  | at_ (p : Phys) (s : State)
  | waits
  | none

/-- The place of such an access. -/
def farKey (s : State) (d c va : Nat) (acc : Access) (expired : Bool := false) : FarKey :=
  match xlate s d c va acc expired with
  | (.ok p, s') =>
    if !((p.tier = 1 || p.tier = 2) && keyExists p.key) then .none
    else match s'.wayTo d p.key with
      | .clear => .at_ p s'
      | .held => .waits
      | .fails _ | .refused => .none
  | (.migr, _) | (.held, _) => .waits
  | _ => .none

/-- Put one entry's words into a context's sump, or drop them (15 R383); none while a page that it needs is migrating. A header
with an uncorrectable error, or that no route reaches, cannot be used: the entry is dropped and nothing halts. -/
def sumpPut (s : State) (c d : Nat) (ws : List Word) (expired : Bool) : Option State :=
  let cs := (s.ctx c).csump
  let base := fld cs 12 36 * 4096
  if base = 0 then some s
  else match farKey s d c base .atomic expired with
    | .none => some s
    | .waits => Option.none
    | .at_ hp s =>
      let h := hp.key
      if [h, h + 8, h + 16].any fun k => s.softOf k > 1 then some s
      else
        let s := (countWords s [h, h + 8, h + 16]).dirty d hp
        let p := toWord (s.mem.num h 8)
        let cc := toWord (s.mem.num (h + 8) 8)
        let n := 2 ^ fld cs 0 5
        let lost := s.poke (h + 16) (bytesOf 8 (s.mem.num (h + 16) 8 + 1))
        if (p - cc).toNat < n - 1 then
          match farKey s d c (base + 64 + 64 * (p.toNat % n)) .store expired with
          | .none => some lost
          | .waits => Option.none
          | .at_ k s => some (((s.dirty d k).poke k.key (wordBytes ws)).poke h (bytesOf 8 (p + 1).toNat))
        else some lost

/-- Write one entry into a context's sump; it waits behind those of the context that wait already. -/
def sumpWrite (s : State) (c : Nat) (r : SumpRec) : State :=
  let w : SumpWait := ⟨c, r.die, s.now, r.words s.pkg.tick⟩
  if s.sumps.any fun x => x.ctx == c then { s with sumps := s.sumps ++ [w] }
  else (sumpPut s c r.die w.words false).getD { s with sumps := s.sumps ++ [w] }

/-- Waiting sump entries try again, in order; one that has waited 1,000,000 cycles is dropped (13 R336). -/
def sumpRetry : List SumpWait → State → State
  | [], s => s
  | w :: r, s =>
    if s.sumps.any fun x => x.ctx == w.ctx then sumpRetry r { s with sumps := s.sumps ++ [w] }
    else sumpRetry r ((sumpPut s w.ctx w.die w.words (s.now - w.since ≥ 1000000)).getD { s with sumps := s.sumps ++ [w] })

/-- Every waiting sump entry tries again. -/
def sumpFlush (s : State) : State := if s.sumps.isEmpty then s else sumpRetry s.sumps { s with sumps := [] }

/-! ## The log -/

/-- MODE of a context's cdet: 0 off, 1 record, 2 replay (R499). -/
def logMode (s : State) (c : Nat) : Nat := fld (s.ctx c).cdet 0 2
/-- LOGBASE as an address. -/
def logBase (s : State) (c : Nat) : Nat := fld (s.ctx c).cdet 12 36 * 4096
/-- Entries of the ring. -/
def logN (s : State) (c : Nat) : Nat := 2 ^ (fld (s.ctx c).cdet 8 4 + 6)

/-- The logical number of a sequencer (R500). -/
def Seq.logical (q : Seq) : Nat := 16 * q.dieRank + q.seqRank

/-- A place of a context's log for agent `who` on die d: it must lie in the main or well tier, else the access faults as a store
does (log 21). -/
def logAddr (who d c va : Nat) (acc : Access) : Op Phys := do
  match ← xlateOp who d c va acc with
  | .ok p =>
    if !(p.tier = 1 || p.tier = 2) then trapWith 0x14 va
    needRoute d va p
    pure p
  | .prot => trapWith 0x08 va
  | _ => trapWith 0x06 va

/-- A place of the log of sequencer n's context. -/
def logKey (n va : Nat) (acc : Access) : Op Phys := do logAddr n (dieOf n) ((← get).seq n).ctx va acc

/-- Word 0 of a log entry (R502). -/
def logWord0 (isn : BitVec 32) (logical kind : Nat) : Word := toWord (isn.toNat * 2 ^ 32 + logical % 65536 * 256 + kind)

/-- Put one entry into a context's log, stalling while the ring is full (R501). -/
def logPut (who d c logical : Nat) (isn : BitVec 32) (kind : Nat) (w1 w2 : Word) : Op Unit := do
  let b := logBase (← get) c
  let hp ← logAddr who d c b .atomic
  let h := hp.key
  checkSoft (some b) h 16
  let s ← get
  let p := toWord (s.mem.num h 8)
  let r := toWord (s.mem.num (h + 8) 8)
  if (p - r).toNat ≥ logN s c then waitFor .log
  else
    let k ← logAddr who d c (b + 64 + 32 * (p.toNat % logN s c)) .store
    dirtyOp d hp
    dirtyOp d k
    modify fun s => (s.poke k.key (wordBytes [logWord0 isn logical kind, w1, w2, 0])).poke h (bytesOf 8 (p + 1).toNat)

/-- Record one entry for a sequencer. -/
def logRecord (n : Nat) (isn : BitVec 32) (kind : Nat) (w1 w2 : Word) : Op Unit := do
  let q := (← get).seq n
  logPut n (dieOf n) q.ctx q.logical isn kind w1 w2

/-- The first unconsumed entry of the log of sequencer n's context for its logical number, from position p up to `fuel` entries
on: position and words. Reading an entry meets the errors of its words (15 R396, R397). -/
def logFind (n : Nat) : Nat → Nat → Op (Option (Nat × Word × Word × Word))
  | 0, _ => pure none
  | fuel + 1, p => do
    let s ← get
    let q := s.seq n
    let va := logBase s q.ctx + 64 + 32 * (p % logN s q.ctx)
    if (s.ctx q.ctx).logUsed.contains p then logFind n fuel (p + 1)
    else match probe s (dieOf n) q.ctx va with
      | none => pure none
      | some k =>
        checkSoft (some va) k.key 8
        let w0 := toWord (s.mem.num k.key 8)
        if fld w0 8 16 = q.logical then
          checkSoft (some va) (k.key + 8) 16
          pure (some (p, w0, toWord (s.mem.num (k.key + 8) 8), toWord (s.mem.num (k.key + 16) 8)))
        else logFind n fuel (p + 1)

/-- The sequencer's next logged entry in replay mode, without consuming it; a wait while it is not present (R503). -/
def logPeek (n : Nat) : Op (Nat × Word × Word × Word) := do
  let s ← get
  let q := s.seq n
  let b := logBase s q.ctx
  let h := (← logKey n b .load).key
  checkSoft (some b) h 16
  let s ← get
  let p := s.mem.num h 8
  let c := s.mem.num (h + 8) 8
  match ← logFind n (min (p - c) (logN s q.ctx)) c with
  | some e => pure e
  | none => waitFor .log

/-- Raise C past the consumed prefix. -/
def consumedPrefix : Nat → List Nat → Nat → Nat × List Nat
  | 0, used, c => (c, used)
  | fuel + 1, used, c => if used.contains c then consumedPrefix fuel (used.filter (· != c)) (c + 1) else (c, used)

/-- Consume the entry at a position (R503). -/
def logConsume (n pos : Nat) : Op Unit := do
  let s ← get
  let q := s.seq n
  let p ← logKey n (logBase s q.ctx) .atomic
  let h := p.key
  dirtyOp (dieOf n) p
  modify fun s =>
    let used := pos :: (s.ctx q.ctx).logUsed
    let (c, used) := consumedPrefix (used.length + 1) used (s.mem.num (h + 8) 8)
    (s.modCtx q.ctx fun x => { x with logUsed := used }).poke (h + 8) (bytesOf 8 c)

/-- Take the sequencer's next entry, which must be of a kind and an ISN; else REPLAYDIV with the position (R503). -/
def logTake (n : Nat) (isn : BitVec 32) (kind : Nat) : Op (Word × Word) := do
  let (pos, w0, w1, w2) ← logPeek n
  if fld w0 0 8 = kind && fld w0 32 32 = isn.toNat then
    logConsume n pos
    pure (w1, w2)
  else trapWith 0x12 0 pos

/-- An event whose value is logged in record mode and delivered from the log in replay mode (R502, R503). -/
def loggedValue (n : Nat) (isn : BitVec 32) (kind : Nat) (live : Word) (w2 : Word := 0) : Op Word := do
  let s ← get
  match logMode s (s.seq n).ctx with
  | 1 =>
    logRecord n isn kind live w2
    pure live
  | 2 => do
    let e ← logTake n isn kind
    pure e.1
  | _ => pure live

end Sys2Proof.Machine
end

