-- ==== Sys2Proof/Machine/LeaseOps.lean ====
section
/-!
DEFINITION. The lease table of a die: handles, units, freeing, parking, resuming and evicting leases
(spec/09_leases.md R231 to R247), and how a context that halts or ends gives up its leases, copies, tasks and groups
(R235; spec/15_contexts.md R396, R520).
-/
namespace Sys2Proof.Machine

/-- An unbound slot that has been freed `gen` times. -/
def Lease.free (c slot : Nat) (gen : BitVec 16) : Lease :=
  { ctx := c, slot := slot, gen := gen, st := .free, kind := 0, pin := false, engine := 0, level := 0, cap := 0,
    asked := 0, raised := 0, asker := 0, granted := 0, evicting := false, ending := false, lost := none }

/-- The lease of a slot; an absent entry is FREE with generation 0 (R232, R234). -/
def Die.lease (d : Die) (c slot : Nat) : Lease :=
  (d.leases.find? fun l => l.ctx == c && l.slot == slot).getD (Lease.free c slot 0)

/-- Replace a lease. -/
def Die.setLease (d : Die) (l : Lease) : Die :=
  let same := fun (x : Lease) => x.ctx == l.ctx && x.slot == l.slot
  { d with leases := if d.leases.any same then updFirst same (fun _ => l) d.leases else d.leases ++ [l] }

/-- The lease of a slot on die d. -/
def State.lease (s : State) (d c slot : Nat) : Lease := (s.die d).lease c slot

/-- Replace a lease on die d. -/
def State.setLease (s : State) (d : Nat) (l : Lease) : State := s.modDie d (·.setLease l)

/-- Power units of an engine kind (R233). -/
def unitsOf (kind : Nat) : Nat := if kind = 0 then 3 else 2

/-- States in which a lease's engine is powered (R233). -/
def LeaseSt.powered : LeaseSt → Bool
  | .waking | .held | .parked | .releasing => true
  | _ => false

/-- Units in use on a die; a lease freed while its engine wakes uses its units until the engine is powered down (R233). -/
def Die.unitsUsed (d : Die) : Nat :=
  (d.leases ++ d.ghosts).foldl (fun a l => if l.st.powered then a + unitsOf l.kind else a) 0

/-- CUR of LEASEBUD: the budget in force (21 R491). -/
def Die.budget (d : Die) : Nat := min d.leaseCap d.stage4

/-- Free units. -/
def Die.unitsFree (d : Die) : Nat := d.budget - d.unitsUsed

/-- A powered lease on an engine. -/
def Die.leaseOn (d : Die) (kind engine : Nat) : Option Lease :=
  d.leases.find? fun l => l.st.powered && l.kind == kind && l.engine == engine

/-- An engine of a kind is leased, or has not been powered down yet (R235). -/
def Die.leased (d : Die) (kind engine : Nat) : Bool :=
  (d.leaseOn kind engine).isSome || d.ghosts.any fun l => l.kind == kind && l.engine == engine

/-- The matrix engine of an index; a powered-down engine is empty. -/
def Die.engine (d : Die) (idx : Nat) : MEngine :=
  (d.engines.find? fun e => e.idx == idx).getD ⟨idx, [], [], none⟩

/-- Replace a matrix engine. -/
def Die.setEngine (d : Die) (e : MEngine) : Die :=
  let same := fun (x : MEngine) => x.idx == e.idx
  { d with engines := if d.engines.any same then updFirst same (fun _ => e) d.engines else d.engines ++ [e] }

/-! ## Handles (R232) -/

/-- The handle of a lease. -/
def handleOf (d : Nat) (l : Lease) : Word :=
  toWord (l.gen.toNat * 2 ^ 32 + d * 2 ^ 28 + l.kind * 2 ^ 24 + l.slot * 2 ^ 16)

/-- The lease that a handle names, when the handle is live for a context on a die: ERR, DIE and GEN decide (R232). A slot that
is FREE holds no lease, and every instruction treats its handle as dead (R235, R250 to R252). -/
def liveLease (s : State) (d c : Nat) (h : Word) : Option Lease :=
  let l := s.lease d c (fld h 16 5)
  if !h.getLsbD 63 && fld h 28 4 = d && fld h 32 16 = l.gen.toNat && l.st != .free then some l else none

/-! ## Freeing, abandoning, evicting -/

/-- Work on a handle that is not complete (R235): queue entries, or a task that runs. -/
def MEngine.busy (e : MEngine) : Bool := !e.queue.isEmpty || e.task.isSome

/-- The work of an entry is a DRAIN's. -/
def MCmd.drains (m : MCmd) : Bool := match m.kind with
  | .drain .. => true
  | _ => false

/-- A DRAIN pass of the engine is in progress: it completes before the engine stops (R243; 10 R273). -/
def MEngine.draining (e : MEngine) : Bool :=
  match e.queue with
  | m :: _ => m.pos != 0 && m.drains
  | [] => false

/-- The landings of a queue entry that will not come: their words stay empty (R243). -/
def abandonCmd (s : State) (m : MCmd) : State := killMarks s m.sq m.runId m.isn

/-- Drop everything on a matrix engine: queued instructions are abandoned, a task returns to the die's task queue with
its age when `requeue` (10 R280). -/
def clearEngine (s : State) (d idx : Nat) (requeue : Bool) : State :=
  let e := (s.die d).engine idx
  let s := e.queue.foldl abandonCmd s
  s.modDie d fun x =>
    { x with engines := x.engines.filter fun y => y.idx != idx,
             tasks := match e.task with
               | some t => if requeue then t.task :: x.tasks else x.tasks
               | none => x.tasks }

/-- The first instruction that dropping an engine abandons: sequencer and ISN (R245). -/
def MEngine.first (e : MEngine) : Option (Nat × BitVec 32) := e.queue.head?.map fun m => (m.sq, m.isn)

/-- A slot goes FREE: its engine is powered down, at the end of its wake where it wakes, and its generation rises (R232,
R235). -/
def freeLease (s : State) (d c slot : Nat) : State :=
  let l := s.lease d c slot
  if l.st = .free then s
  else
    let s := if l.st.powered && l.kind = 0 then clearEngine s d l.engine false else s
    let s := if l.st = .waking then s.modDie d fun x => { x with ghosts := x.ghosts ++ [l] } else s
    s.setLease d (Lease.free c slot (l.gen + 1))

/-- The words of an ATTN's record that hold its handles: AEH, MEH, or both (12 R304, R305). -/
def GCmd.handles (m : GCmd) : List Nat := match m.kind, m.hint with
  | .attn, .ae => [0]
  | .attn, .me => [1]
  | .attn, .auto => [0, 1]
  | _, _ => []

/-- The word that holds the handle of the engine on which an ATTN runs, once that is known (12 R308). -/
def GCmd.path (m : GCmd) : List Nat := match m.kind, m.hint with
  | .attn, .auto => if m.chose then [if m.onMatrix then 1 else 0] else []
  | _, _ => m.handles

/-- The words that hold the handles which an ATTN may still use. -/
def GCmd.uses (m : GCmd) : List Nat := if m.chose then m.path else m.handles

/-- The commands of a context's groups, also those of saved threads and of groups that have closed, one of whose words `f` names a
lease of die d. -/
def cmdsOn (s : State) (d : Nat) (l : Lease) (f : GCmd → List Nat) : List GCmd :=
  let live := (s.seqs.filter fun p => dieOf p.1 = d).map fun p => p.2.grp.cmds ++ p.2.stopping
  let saved := s.aside.map (·.grp.cmds)
  (live ++ saved).flatten.filter fun m => m.ctx == l.ctx && (f m).any fun i =>
    (m.words[i]?).any fun h => (liveLease s d l.ctx h).any fun x => x.slot == l.slot

/-- The first attention command that losing a lease abandons: the sequencer and the ISN that issued it (12 R320). -/
def attnOn (s : State) (d : Nat) (l : Lease) : Option (Nat × BitVec 32) :=
  (cmdsOn s d l GCmd.path).head?.map fun m => (m.sq, m.isn)

/-- The first instruction that losing a lease abandons (R245): of an engine's queue and the attention commands the lower ISN, where
one sequencer issued both (log 95). -/
def leaseFirst (s : State) (d : Nat) (l : Lease) : Option (Nat × BitVec 32) :=
  match (if l.kind = 0 then ((s.die d).engine l.engine).first else none), attnOn s d l with
  | some f, some a => some (if a.1 = f.1 && isnLt a.2 f.2 then a else f)
  | f, a => f.orElse fun _ => a

/-- The engine of a lease is at an interruptible step: no DRAIN pass and no query block is in progress (R243). -/
def atStep (s : State) (d : Nat) (l : Lease) : Bool :=
  if l.kind = 0 then !((s.die d).engine l.engine).draining else !((cmdsOn s d l GCmd.path).any (·.midBlock))

/-- An eviction takes effect (R243, R245; R235 for a RELEASING lease): the engine's state is destroyed, its work
abandoned, its units freed, and a sump entry written. -/
def evictLease (s : State) (d c slot : Nat) : State :=
  let l := s.lease d c slot
  let first := leaseFirst s d l
  let h := handleOf d l
  let s := if l.kind = 0 then clearEngine s d l.engine true else s
  let s := if l.st = .releasing then s.setLease d (Lease.free c slot (l.gen + 1))
    else s.setLease d { l with st := .evicted, evicting := false, lost := first }
  sumpWrite s c { die := d, sq := (first.map (·.1)).getD 0, isn := first.map (·.2), source := 3, cause := 0x0C,
                  handle := h }

/-- Every HELD lease of a context becomes PARKED (R247). -/
def parkLeases (s : State) (c : Nat) : State :=
  { s with dies := s.dies.map fun d =>
      { d with leases := d.leases.map fun l => if l.ctx = c && l.st = .held then { l with st := .parked } else l } }

/-- Every PARKED lease of a context becomes HELD (R247). -/
def resumeLeases (s : State) (c : Nat) : State :=
  { s with dies := s.dies.map fun d =>
      { d with leases := d.leases.map fun l => if l.ctx = c && l.st = .parked then { l with st := .held } else l } }

/-- The engine work of a context may go on: its balance allows it, and the context is ACTIVE, or has been taken for its quota alone
(15 R388; 21 R496; log 110). -/
def State.runs (s : State) (c : Nat) : Bool :=
  let x := s.ctx c
  s.canBegin c && (x.st == .active || ((x.st == .taking || x.st == .away) && x.takeCause == 0x11))

/-- The lease of an engine when the engine may begin a step: HELD or RELEASING, with its context's quota not used up, and not being
evicted; a DRAIN pass that has begun goes on (R243, R247, R265). -/
def engineGo (s : State) (d idx : Nat) : Option Lease :=
  if s.pkg.frozen || d ≥ 16 then none
  else match (s.die d).leaseOn 0 idx with
    | none => none
    | some l =>
      if ((s.die d).engine idx).draining then some l
      else if !l.evicting && (l.st = .held && s.runs l.ctx || l.st = .releasing && s.canBegin l.ctx) then some l
      else none

/-- The head of an engine's queue while no task runs (10 R262, R278). -/
def engineHead (s : State) (d idx : Nat) : Option MCmd :=
  let e := (s.die d).engine idx
  if e.task.isSome then none else e.queue.head?

/-- Work that an exhausted quota has stopped goes on once the balance allows it (21 R496). -/
def refillResume (s : State) (c : Nat) : State := if s.runs c then resumeLeases s c else s

/-- The leases of a context are freed on every die (R235, end of context): an engine in a DRAIN pass or a query block is freed when
that ends. -/
def endLeases (s : State) (c : Nat) : State :=
  (List.range Config.dies).foldl (fun s d =>
    ((s.die d).leases.filter fun l => l.ctx = c && l.st != .free).foldl (fun s l =>
      if l.st.powered && !atStep s d l && (l.kind = 0 || s.canBegin c) then
        s.setLease d { l with ending := true }
      else freeLease s d c l.slot) s) s

/-- The unit of charge that an element of a copy belongs to: its row, or its 4 KB of the copy (11 R294). -/
def Copy.run (c : Copy) (i : Nat) : Nat := if c.kind = 1 || c.kind = 2 then i else i * c.size / 4096

/-- A copy whose context has ended stops at its next boundary: elements of the rows and 4 KB runs that it has begun are still
performed, others are not (11 R294). -/
def Copy.stop (c : Copy) : Copy :=
  { c with open_ := false, abandoned := true, ready := c.ready.filter fun e => c.runs.contains (c.run e.idx) }

/-- The copies of a context stop; words they marked and do not fill any more stay empty (15 R396; 11 R293, R294). -/
def endCopies (s : State) (c : Nat) : State :=
  let ended := fun (p : Copy) => p.ctx == c && (p.failed.isSome || p.stop.ready.isEmpty)
  let cs := (s.dies.toList.map fun d => d.pumps.flatten).flatten.filter ended
  let s := cs.foldl (fun s p => killMarks s p.sq p.runId p.isn) s
  let halt := fun (q : List Copy) => (q.filter fun p => !ended p).map fun p => if p.ctx = c then p.stop else p
  { s with dies := s.dies.map fun d => { d with pumps := d.pumps.map halt } }

/-- The waiting tasks of a context are discarded (10 R280). -/
def endTasks (s : State) (c : Nat) : State :=
  { s with dies := s.dies.map fun d => { d with tasks := d.tasks.filter fun t => t.ctx != c } }

/-- The command groups of a context are discarded (12 R320; 15 R396). -/
def endGroups (s : State) (c : Nat) : State :=
  (s.seqs.filter fun p => p.2.ctx == c).foldl (fun s p => s.closeGroup p.1)
    { s with aside := s.aside.map fun a => if a.ctx = c then { a with grp := Group.none } else a }

/-- What a context gives up when it halts or ends (R235; 15 R396, R520). -/
def releaseCtx (s : State) (c : Nat) : State := endGroups (endTasks (endCopies (endLeases s c) c) c) c

/-- Pair k is withdrawn on the die of sequencer n (21 R489). -/
def pairOff (s : State) (n k : Nat) : Bool := ((s.die (dieOf n)).wd ||| (s.die (dieOf n)).force).testBit k

/-! ## Take requests and charges (15 R369, R386; 21 R493 to R495) -/

/-- A pre-emption request or an exhausted quota takes every running thread of an ACTIVE context. -/
def requestTake (s : State) (c cause : Nat) : State :=
  if (s.ctx c).st = .active then
    let s := s.modCtx c fun x => { x with st := .taking, takeCause := cause }
    { s with seqs := s.seqs.map fun p =>
        (p.1, if p.2.ctx = c && p.2.mode = .run then { p.2 with take := some (cause, s.now) } else p.2) }
  else s

/-- A context whose balance is used up is taken with the cause QUOTA, and its HELD leases park (09 R247). -/
def quotaStop (s : State) (c : Nat) : State := if s.canBegin c then s else parkLeases (requestTake s c 0x11) c

/-- Charge a context's balance in picojoules; a context without a limit is not charged. -/
def chargeCtx (s : State) (c pj : Nat) : State :=
  if (s.ctx c).limit = 0 then s
  else quotaStop (s.modCtx c fun x => { x with balance := x.balance - pj }) c

/-! ## HALTED -/

/-- A context becomes HALTED: it gives up its leases, copies, groups and queued records, and its kernel is ABORTING;
`r` is what its other threads report when they stop (15 R369, R396, R520; 17 R432; 18 R450). -/
def haltCtx (s : State) (c : Nat) (r : TrapReq) : State :=
  if (s.ctx c).st = .halted || (s.ctx c).st = .ended then s
  else
    let s := releaseCtx (s.modCtx c fun x => { x with st := .halted, halt := r }) c
    { s with dies := s.dies.map fun d => { d with recs := d.recs.filter fun x => x.ctx != c },
             kernels := s.kernels.map fun k => if k.ctx = c && k.st = .running then { k with st := .aborting } else k }

end Sys2Proof.Machine
end

