-- ==== Sys2Proof/Machine/PumpOps.lean ====
section
/-!
DEFINITION. What the bank side and the engine side of pumps and matrix engines share: the copy of an instruction, the
landing word and the end of a copy (spec/11_pumps.md R287 to R293), the command of a tile instruction in its queue
(spec/10_matrix.md R262), and flags of engine work (spec/03_numbers.md R71).
-/
namespace Sys2Proof.Machine

/-! ## Threads -/

/-- Some record holds a thread (15 R370). -/
def State.isSaved (s : State) (run : Nat) : Bool := s.ctxs.any fun x => x.saved.any fun p => p.2 == run

/-- The sequencer that holds a thread. -/
def State.holder (s : State) (run : Nat) : Option Nat :=
  (s.seqs.find? fun p => p.2.runId == run && p.2.mode != .idle).map (·.1)

/-- Flags of finished engine work accrue into the cflags of the thread that issued it (03 R71): at once while it runs, with
its next RETT while it is in handler mode or saved, and nowhere once it has ended (18 R448). -/
def accrueTo (s : State) (run fl : Nat) : State :=
  let owe := { s with owed := smapSet run (((smapGet run s.owed).getD 0) ||| fl) s.owed }
  if fl = 0 then s
  else match s.holder run with
    | some n => if (s.seq n).mode = .run then s.modSeq n (·.raise fl) else owe
    | none => if s.isSaved run then owe else s

/-! ## Pumps -/

/-- The pump of a sequencer: that of its cluster (R281; 02 R36). -/
def pumpOf (n : Nat) : Nat := n % 16 / 4

/-- The copies of a pump. -/
def State.copies (s : State) (d p : Nat) : List Copy := ((s.die d).pumps[p]?).getD []

/-- Change the copies of a pump. -/
def State.modCopies (s : State) (d p : Nat) (f : List Copy → List Copy) : State :=
  s.modDie d fun x => { x with pumps := x.pumps.modify p f }

/-- The name of the copy of a pump instruction. -/
def copyId (run : Nat) (isn : BitVec 32) : Nat := run * 2 ^ 32 + isn.toNat

/-- The die and the pump that hold a copy: those of the sequencer that issued it. -/
def State.copyHome (s : State) (id : Nat) : Option (Nat × Nat) :=
  s.dies.toList.findSome? fun d => (d.pumps.findIdx? fun cs => cs.any fun c => c.id == id).map fun p => (d.id, p)

/-- Change the copy of an instruction of the thread that sequencer n holds. -/
def State.modCopy (s : State) (n : Nat) (isn : BitVec 32) (f : Copy → Copy) : State :=
  let id := copyId (s.seq n).runId isn
  match s.copyHome id with
  | some (d, p) => s.modCopies d p fun cs => updFirst (fun c => c.id == id) f cs
  | none => s

/-- Advance L over a rising list of finished elements. -/
def leadRun : Nat → List Nat → Nat × List Nat
  | l, [] => (l, [])
  | l, d :: r => if d = l then leadRun (l + 1) r else (l, d :: r)

/-- The landing word (R289). -/
def Copy.word (c : Copy) : Word := toWord (c.tag % 65536 * 2 ^ 48 + c.vl % 2 ^ 24 * 2 ^ 24 + c.landed % 2 ^ 24)

/-- A pump's write of a 64-bit word, which is performed; a cistern word becomes full. -/
def pumpPoke (s : State) (key : Nat) (w : Word) : State :=
  let s := (if inCist key then s.keepOld key 8 else s).poke key (bytesOf 8 w.toNat)
  if inCist key then s.markWords [key / 8] true else s

/-- A copy of die d cannot write its landing and phase words yet: it must find their places again (13 R343), or a link that trains
holds a way to them (20 R466). -/
def Copy.stuck (s : State) (d : Nat) (c : Copy) : Bool :=
  c.stale || s.wayTo d c.landing == .held || (c.phase != 0 && s.wayTo d (c.phase - 1) == .held)

/-- A copy writes its landing word or, with `add`, adds to its phase word, at an address and its key. An uncorrectable error in a word
that it reads, or a way that is DOWN, writes a sump entry and halts the context (15 R396; 20 R470). -/
def Copy.put (s : State) (d : Nat) (c : Copy) (va key : Nat) (add : Bool) (w : Word) : State :=
  if (s.wayTo d key).failed || (add && s.softOf key > 1) then
    haltCtx (sumpWrite s c.ctx { die := d, sq := c.sq, source := 4, cause := 0x10, addr := toWord va }) c.ctx ⟨0x10, toWord va, 0⟩
  else
    let s := (countWords s (if add then [key] else [])).dirtyAt d c.ctx va
    pumpPoke s key (if add then toWord (s.mem.num key 8) + w else w)

/-- Elements of a copy have finished: the landing word follows L (R290), and a copy that has landed all adds E to its
phase word (R292) and ends. A failed or abandoned copy ends without the add once nothing more can reach it and what it
has started is done (R288, R293). -/
def copyTick (s : State) (d p id : Nat) : State :=
  match (s.copies d p).find? fun c => c.id == id with
  | none => s
  | some c =>
    let l := if c.stuck s d then (c.landed, c.done) else leadRun c.landed c.done
    let c' := { c with landed := l.1, done := l.2 }
    let s := s.modCopies d p fun cs => updFirst (fun x => x.id == id) (fun _ => c') cs
    let s := if c'.landed ≠ c.landed then c.put s d c.landVa c.landing false c'.word else s
    let gone := fun (s : State) =>
      accrueTo (killMarks (s.modCopies d p fun cs => cs.filter fun x => x.id != id) c.sq c.runId c.isn) c.runId c.flags
    if c'.landed = c'.vl then gone (if c'.phase = 0 then s else c.put s d c.phaseVa (c'.phase - 1) true (toWord c'.vl))
    else if c'.failed.isSome || (c'.abandoned && !c'.open_ && c'.ready.isEmpty) then gone s
    else s

/-- Elements of a copy are inactive or have landed. -/
def copyDone (s : State) (d p id : Nat) (elem : Nat) : State :=
  copyTick (s.modCopies d p fun cs => updFirst (fun c => c.id == id) (fun c => { c with done := nsetAdd elem c.done }) cs)
    d p id

/-! ## Matrix queues -/

/-- Change the command that an instruction of the thread of sequencer n has in its engine's queue, on whichever die. -/
def State.modCmd (s : State) (n : Nat) (isn : BitVec 32) (f : MCmd → MCmd) : State :=
  let run := (s.seq n).runId
  let mine := fun (m : MCmd) => m.runId == run && m.isn == isn
  { s with dies := s.dies.map fun d =>
      { d with engines := d.engines.map fun e => { e with queue := updFirst mine f e.queue } } }

/-- Every group has completed an instruction: its engine pass may end and its copy is closed (10 R271, R273). -/
def finishWork (s : State) (n : Nat) (isn : BitVec 32) : State :=
  let s := s.modCmd n isn fun m => { m with issued := true }
  let s := s.modCopy n isn fun c => { c with open_ := false }
  match s.copyHome (copyId (s.seq n).runId isn) with
  | some (d, p) => copyTick s d p (copyId (s.seq n).runId isn)
  | none => s

end Sys2Proof.Machine
end

