-- ==== Sys2Proof/Machine/Ops.lean ====
section
/-!
DEFINITION. The sequencer: registers (spec/06_scalar.md R135), issue and its order of checks (spec/05_encoding.md
R122 to R124; spec/02_machine.md R47, R51, R53; spec/15_contexts.md R378), the step after an instruction (06 R154),
the addresses of scalar accesses (06 R140), and taking a trap (15 R372 to R378), which every instruction and event
shares.
-/
namespace Sys2Proof.Machine

/-! ## x registers -/

/-- Read an x register; x0 reads as zero (R135). -/
def Seq.getX (q : Seq) (r : Reg) : Word := if r = 0 then 0 else q.x[r]

/-- Write an x register; a write to x0 is discarded (R135). The dirty bit is set (15 R389). -/
def Seq.setX (q : Seq) (r : Reg) (v : Word) : Seq :=
  if r = 0 then q else { q with x := q.x.set r v, dirtyX := q.dirtyX ||| (1 <<< r.val) }

/-- Write an x register of sequencer n. -/
def State.setX (s : State) (n : Nat) (r : Reg) (v : Word) : State := s.setSeq n ((s.seq n).setX r v)

/-- The sequencer as a move sees it. -/
def getSeq (n : Nat) : Op Seq := do return (← get).seq n

/-- Change the sequencer. -/
def modSeqOp (n : Nat) (f : Seq → Seq) : Op Unit := modify fun s => s.modSeq n f

/-- Write an x register. -/
def putX (n : Nat) (r : Reg) (v : Word) : Op Unit := modify fun s => s.setX n r v

/-! ## Control flow -/

/-- Where issue continues: the next instruction, an address, nowhere yet (the sequencer sleeps in the instruction), or
nowhere (the sequencer is free or has been taken). -/
inductive Ctl where
  | next | goto (a : Word) | stay | gone
  deriving DecidableEq, Repr

/-- R154 on address a: the loop stack (innermost entry first) after it, the address, and whether a boundary passed. -/
def loopEnd : List Loop → Word → List Loop × Word × Bool
  | [], a => ([], a, false)
  | l :: r, a =>
    if a = l.stop then
      if (l.index + 1).ult l.count then ({ l with index := l.index + 1 } :: r, l.start, true)
      else
        let t := loopEnd r a
        (t.1, t.2.1, true)
    else (l :: r, a, false)

/-- Loop-buffer halfwords that some loop of the stack still covers (R178). -/
def keepBuf (ls : List Loop) (b : List (Nat × Nat)) : List (Nat × Nat) :=
  b.filter fun p => ls.any fun l => l.start.toNat ≤ p.1 && p.1 < l.stop.toNat

/-- Loops whose current pass no IFLUSH has cut, of a stack whose `f` outermost loops have been cut: the loop buffer holds their
bodies (R178). -/
def heldLoops (f : Nat) (ls : List Loop) : List Loop := ls.take (ls.length - f)

/-- The outermost loops whose current pass an IFLUSH has cut, after an iteration boundary has left a stack: a loop that goes
on to its next pass fetches that pass afresh and holds it again (R178). -/
def freshAfter (f : Nat) (ls : List Loop) (goesOn : Bool) : Nat := min f (if goesOn then ls.length - 1 else ls.length)

/-- Continue at an address after an instruction: R154, then the address that issues next. -/
def Seq.arrive (q : Seq) (a : Word) : Seq :=
  let t := loopEnd q.loops a
  { q with loops := t.1, pc := t.2.1, softPt := t.2.2, bkSkip := none, logged := 0, lbuf := keepBuf (heldLoops q.fresh t.1) q.lbuf,
           fresh := freshAfter q.fresh t.1 (t.2.2 && t.2.1 != a) }

/-- The address after the instruction at pc. -/
def Seq.after (q : Seq) (i : Instr) : Word := q.pc + toWord (2 * i.len)

/-- An instruction has issued: it takes its ISN, except in handler mode (02 R47; 15 R378), and issue goes on. -/
def Seq.retire (q : Seq) (i : Instr) (c : Ctl) : Seq :=
  let q' := if q.mode = .handler then q else { q with isn := q.isn + 1 }
  match c with
  | .next => q'.arrive (q.after i)
  | .goto a => q'.arrive a
  | .stay | .gone => q

/-- A move of a sequencer that could do nothing: time passes, unless the module is frozen (21 R508). -/
def State.idleTurn (s : State) : State := if s.pkg.frozen then s else { s with now := s.now + 1 }

/-! ## Contexts and threads -/

/-- A sequencer runs with privilege (15 R367). -/
def Seq.privileged (q : Seq) : Bool := q.mode == .handler || q.priv

/-- Threads of a context that sequencers hold. -/
def State.threads (s : State) (c : Nat) : List (Nat × Seq) := s.seqs.filter fun p => p.2.ctx == c && p.2.mode != .idle

/-- Every thread of a TAKING context has been taken: it is AWAY and its leases are PARKED (15 R368, R369), but where its quota, which
alone had it taken, has been refilled by then (21 R496; log 110). -/
def checkAway (s : State) (c : Nat) : State :=
  if (s.ctx c).st = .taking && (s.threads c).all fun p => p.2.mode == .handler && p.2.taken then
    refillResume (parkLeases (s.modCtx c fun x => { x with st := .away }) c) c
  else s

/-- Work of in-flight instructions that has left the sequencer ends with what committed elements sent: engine passes
and pump copies close, and a copy ends that has nothing more to do (10 R271, R273; 11 R288; 15 R380). -/
def closeWork (s : State) (isns : List (BitVec 32)) (run : Nat) : State :=
  let mine := fun r isn => r == run && isns.contains isn
  let s := { s with dies := s.dies.map fun d =>
      { d with
        engines := d.engines.map fun e =>
          { e with queue := e.queue.map fun m => if mine m.runId m.isn then { m with issued := true } else m },
        pumps := d.pumps.map fun p =>
          p.map fun c => if mine c.runId c.isn && c.open_ then { c with open_ := false, abandoned := true } else c } }
  isns.foldl (fun s isn => match s.copyHome (copyId run isn) with
    | some (d, p) => copyTick s d p (copyId run isn)
    | none => s) s

/-- No continuation of a kernel is QUEUED, RUNNING or HELD and its range is empty (18 R451). -/
def kernelDone (s : State) (k : Kernel) : Bool :=
  (s.dies.toList.all fun d => d.recs.all fun r => r.kernel != some k.id) && (s.threads k.ctx).isEmpty &&
    (s.ctx k.ctx).saved.isEmpty && k.cells.all fun c => c.hi ≤ c.lo

/-- A RUNNING kernel with nothing left is ENDING (17 R432). -/
def settleKernels (s : State) : State :=
  { s with kernels := s.kernels.map fun k => if k.st = .running && kernelDone s k then { k with st := .ending } else k }

/-! ## Determinism mode's combining buffer (21 R500) -/

/-- Determinism mode is on for a context. -/
def State.det (s : State) (c : Nat) : Bool := (s.ctx c).cdet.getLsbD 2

/-- Determinism mode holds a path-V write of a sequencer: it carries no ordering code, and its page is RC or UN and outside the
cistern. -/
def State.holds (s : State) (n : Nat) (ordered : Bool) (p : Phys) : Bool :=
  s.det (s.seq n).ctx && !ordered && p.kind != 0 && p.tier != 0

/-- Bytes at a key with held writes over them. -/
def overlayHeld (hs : List HeldWrite) (key : Nat) (bs : List Byte) : List Byte :=
  (List.range bs.length).map fun j =>
    hs.foldl (fun b h => if h.addr ≤ key + j && key + j < h.addr + h.bytes.length
      then ((mergeBytes [b] (h.bytes.drop (key + j - h.addr)) (h.keep.drop (key + j - h.addr))).head?).getD b else b)
      ((bs[j]?).getD 0)

/-- Bytes with the bits that a held write writes. -/
def HeldWrite.over (h : HeldWrite) (old : List Byte) : List Byte := mergeBytes old h.bytes h.keep

/-- Memory as a sequencer's own reads see it: its held writes over it. -/
def State.own (s : State) (n : Nat) : State :=
  { s with mem := (s.seq n).held.foldl (fun m h => m.write h.addr (h.over (m.read h.addr h.bytes.length))) s.mem }

/-- Perform one held write of sequencer n, as one indivisible change of the bits that it writes; one whose way is DOWN is an
uncorrectable error of its context (20 R470). -/
def performOne (n : Nat) (s : State) (h : HeldWrite) : State :=
  if (s.wayTo (dieOf n) h.addr).failed then haltCtx s (s.seq n).ctx ⟨0x10, toWord h.va, 0⟩
  else if inNotify h.addr then notifyStore s h.addr h.bytes
  else s.poke h.addr (h.over (s.mem.read h.addr h.bytes.length))

/-- Perform some of the held writes of sequencer n, in ISN and element order. -/
def performHeld (n : Nat) (s : State) (hs : List HeldWrite) : State :=
  if hs.isEmpty then s
  else (hs.foldl (performOne n) s).modSeq n fun q => { q with held := q.held.filter fun h => !hs.any fun x => x.num == h.num }

/-- A drain point that is not an ARRIVE: every held write is performed at once. -/
def drainHeld (n : Nat) (s : State) : State := performHeld n s (s.seq n).held

/-- The phase of an arrival completes: what sequencer n held when it had held `mark` writes is performed, unless another
drain point has performed it. -/
def drainUpto (n mark : Nat) (s : State) : State := performHeld n s ((s.seq n).held.filter fun h => h.num < mark)

/-- The held writes to n bytes at a key, with the earlier ones that overlap them. -/
def heldAt (hs : List HeldWrite) (key n : Nat) : List HeldWrite :=
  hs.foldr (fun h acc => if rangesMeet h.addr h.bytes.length key n ||
      acc.any (fun x => rangesMeet h.addr h.bytes.length x.addr x.bytes.length) then h :: acc else acc) []

/-- An access that is not held is about to write, or to change at once, n bytes at a key: the sequencer's held writes to them
come first, since they are older (02 R50; log 49). -/
def drainAt (n key len : Nat) (s : State) : State := performHeld n s (heldAt (s.seq n).held key len)

/-- A drain waits while a link that trains holds the way of a held write (20 R466). -/
def State.drainWaits (s : State) (n : Nat) : Bool := (s.seq n).held.any fun h => s.wayTo (dieOf n) h.addr == .held

/-- A drain that waits. -/
def needDrain (n : Nat) : Op Unit := do if (← get).drainWaits n then waitFor .other else pure ()

/-- A drain point of sequencer n. -/
def drainNow (n : Nat) : Op Unit := do
  needDrain n
  modify (drainHeld n)

/-- Distinct lines of the held writes. -/
def heldLines (hs : List HeldWrite) : Nat :=
  (hs.foldl (fun l h => nsetAdd (h.addr / 64) l) ([] : List Nat)).length

/-- A path-V write to far memory of the bits in `keep`: held by determinism mode, or performed. -/
def writeBits (n : Nat) (ordered : Bool) (va : Nat) (p : Phys) (bs keep : List Byte) : Op Unit := do
  let s ← get
  let q := s.seq n
  if s.holds n ordered p then
    if !(keyExists p.key && keyExists (p.key + bs.length - 1)) then throw (.fault (.physicalHole p.key))
    let hs := q.held ++ [⟨q.heldNum, va, p.key, bs, keep⟩]
    set (s.setSeq n { q with held := hs, heldNum := q.heldNum + 1 })
    if heldLines hs ≥ 4096 then drainNow n
  else
    needKey (some va) p.key bs.length
    modify (drainAt n p.key bs.length)
    let s ← get
    writeKey p.key (mergeBytes (s.mem.read p.key bs.length) bs keep) (some va)

/-- A path-V write of whole bytes to far memory. -/
def writeFar (n : Nat) (ordered : Bool) (va : Nat) (p : Phys) (bs : List Byte) : Op Unit := do
  if (← get).holds n ordered p then writeBits n ordered va p bs (List.replicate bs.length 0xFF)
  else
    modify (drainAt n p.key bs.length)
    writeKey p.key bs (some va)

/-- A path-V read of far memory: the sequencer's own loads see its held writes. -/
def readFar (n : Nat) (va key len : Nat) : Op (List Byte) := do
  let bs ← readKey (some va) key len
  let s ← get
  pure (overlayHeld (s.seq n).held key bs)

/-! ## The end of a thread -/

/-- The sequencer stops holding its thread and becomes idle; landings into its window go on (15 R370, R378). Writes that
determinism mode holds are performed (21 R500). Flags that its engine work raises from now on are kept for a thread that a
record holds, else discarded; a command group stays with the sequencer (18 R448; 12 R314, R323; log 58). -/
def freeSeq (s : State) (n : Nat) : State :=
  let q := s.seq n
  let s := drainHeld n s
  let s := closeWork s (q.inflight.map (·.isn)) q.runId
  let s := if s.isSaved q.runId || s.seqs.any (fun p => p.1 != n && p.2.mode != .idle && p.2.runId == q.runId) then s
    else { s with owed := smapDel q.runId s.owed, shares := s.shares.filter fun r => r.run != q.runId }
  let s := s.modSeq n fun q =>
    { q with mode := .idle, loops := [], lbuf := [], fresh := 0, sqr := Vector.replicate 4 StreamReg.none, sleep := none,
             inflight := [], versions := [], reads := [], kept := [], gtraps := [], pend := none, take := none,
             taken := false, softPt := false,
             monitor := none, copyLog := [], inv := none }
  let c := q.ctx
  if (s.ctx c).st = .halted && (s.ctx c).kernel = none && (s.threads c).isEmpty then
    s.modCtx c fun x => { x with st := .ended }
  else settleKernels (checkAway s c)

/-- A double trap (15 R378): a sump entry, the sequencer frees itself, the context is HALTED. -/
def doubleTrap (s : State) (n cause : Nat) (addr : Word) : State :=
  let q := s.seq n
  let s := sumpWrite s q.ctx { die := dieOf n, sq := n, source := 5, cause := cause, addr := addr }
  freeSeq (haltCtx s q.ctx ⟨0x16, 0, 0⟩) n

/-! ## Taking a trap (15 R372 to R377) -/

/-- What a trap entry writes into the header, the group entries and the in-flight entries. -/
structure TrapHdr where
  isn : BitVec 32
  pc : Word
  resume : Word
  vstart : Nat
  tidx : Nat
  hard : Bool
  nores : Bool
  groups : List Word
  ents : List (List Word)
  deriving DecidableEq, Repr

/-- Group entries of a trap with nothing in flight (R376). -/
def plainGroups (g : Nat) : List Word := (List.range 64).map fun k => if k < g then 0x8000000000000000 else 0

/-- The header of an issue trap: nothing is in flight (R375). -/
def Seq.issueHdr (q : Seq) (resume : Word) : TrapHdr :=
  ⟨q.isn, q.pc, resume, 0, 0, false, false, plainGroups q.g, []⟩

/-- The header of a trap that has waited with nothing left in flight. -/
def Seq.pendHdr (q : Seq) (p : Pend) : TrapHdr :=
  ⟨p.isn, p.pc, p.resume, 0, 0, p.hard, p.nores, plainGroups q.g, []⟩

/-- n copies of the zero word. -/
def zeros (n : Nat) : List Word := List.replicate n 0

/-- The control block of the trap area (R374). -/
def Seq.block (q : Seq) : List Word :=
  [toWord q.vl, q.vtype, q.cmask0, q.cmask1, q.cvalid, q.cld, q.cgkey, q.cgdraw, toWord q.cflags, q.cprio]

/-- Words 1 to 511 of the trap area (R374 to R377). -/
def trapWords (q : Seq) (r : TrapReq) (h : TrapHdr) : List Word :=
  zeros 7 ++
  [toWord (h.tidx * 2 ^ 20 + h.ents.length * 2 ^ 16 + (if h.hard then 2 ^ 10 else 0) + (if h.nores then 2 ^ 8 else 0)
      + r.cause),
    toWord (q.isn.toNat * 2 ^ 32 + h.isn.toNat), toWord (fld h.pc 0 48), toWord (fld h.resume 0 48), r.addr,
    toWord h.vstart, r.info, 0] ++
  (q.x.toList.drop 1) ++ [0] ++ q.block ++ [toWord q.loops.length] ++ zeros 5 ++
  (q.loops.reverse.map fun l => [l.start, l.stop, l.count, l.index]).flatten ++ zeros (24 - 4 * q.loops.length) ++
  q.bkpt.toList.map (fun b => toWord ((if b.1 then 2 ^ 63 else 0) + b.2.toNat % 2 ^ 48)) ++
  h.groups ++ h.ents.flatten ++ zeros (288 - 32 * h.ents.length) ++ zeros 64

/-- Why a trap area cannot be used now: its page is migrating, a link that trains holds its way (20 R466), or it fails (R373). -/
inductive AreaBad where
  | migrating | held | fails
  deriving DecidableEq, Repr

/-- The place of a context's trap area for reading and writing, or why it cannot be used (R373). -/
def trapArea (s : State) (n : Nat) : Except AreaBad (Phys × State) :=
  let c := (s.seq n).ctx
  let base := fld (s.ctx c).ctrap 12 36 * 4096
  if base = 0 then .error .fails
  else
    let expired := s.migs.any fun m => m.sq == n && m.ctx == c && m.va == base && m.expired
    match xlate s (dieOf n) c base .atomic expired with
    | (.ok p, s') =>
      if !((p.tier = 1 || p.tier = 2) && keyExists p.key) then .error .fails
      else if s'.wayTo (dieOf n) p.key = .held then .error .held
      else .ok (p, s')
    | (.migr, _) => .error .migrating
    | (.held, _) => .error .held
    | _ => .error .fails

/-- The trap or take waits to be entered. -/
def Seq.pendTrap (q : Seq) (r : TrapReq) (h : TrapHdr) : Seq :=
  { q with pend := if q.gtraps.isEmpty then some ⟨r, h.isn, h.pc, h.resume, h.hard, h.nores⟩ else q.pend }

/-- Trap entry (R372 step 4): the sequencer writes the trap area, after its own held writes to it (log 49), enters handler mode and
continues at HANDLER; a take is a drain point (21 R500). A trap area that cannot be written is a double trap; one on a migrating
page waits, recorded as such (R373). An uncorrectable error in word 0, or a way to it that is DOWN (20 R470), halts the context, and
the thread, which cannot enter its handler, is freed (R396, R520). GCOMMIT has reported a suspended command once its trap is entered
(12 R321). -/
def trapEnter (s : State) (n : Nat) (r : TrapReq) (h : TrapHdr) : State :=
  let q := s.seq n
  let base := fld (s.ctx q.ctx).ctrap 12 36 * 4096
  match trapArea s n with
  | .error .migrating => (s.addMig n q.ctx base).modSeq n (·.pendTrap r h)
  | .error .held => s.modSeq n (·.pendTrap r h)
  | .error .fails => doubleTrap s n r.cause (toWord base)
  | .ok (p, s) =>
    let k := p.key
    if s.softOf k > 1 || (s.wayTo (dieOf n) k).failed then freeSeq (haltCtx s q.ctx ⟨0x10, toWord base, 0⟩) n
    else
    let s := (countWords s [k]).dirty (dieOf n) p
    let isTake := r.cause = 0x0D || r.cause = 0x11
    if isTake && s.drainWaits n then s.modSeq n (·.pendTrap r h)
    else
    let reports := q.grp.st == .suspended && h.isn == q.grp.faultIsn && q.gtraps.isEmpty
    let s := if isTake then drainHeld n s else drainAt n k 4096 s
    let s := s.poke (k + 8) (wordBytes (trapWords (s.seq n) r h))
    let s := { s with migs := s.migs.filter fun m => m.sq != n }
    let s := s.modSeq n fun q =>
      { q with mode := .handler, pc := toWord (s.mem.num k 8), sleep := none, pend := none, gtraps := [],
               take := if isTake then none else q.take, taken := isTake, softPt := false, bkSkip := none, logged := 0, inv := none,
               grp := if reports then { q.grp with told := true } else q.grp }
    checkAway s q.ctx

/-- An issue trap of sequencer n (R372 step 2): entered at once when nothing is in flight, else once every lower ISN
is complete; in handler mode it is a double trap (R378). -/
def issueTrap (s : State) (n : Nat) (r : TrapReq) (resume : Word) : State :=
  let q := s.seq n
  if q.mode = .handler then doubleTrap s n r.cause q.pc
  else if q.inflight.isEmpty then trapEnter s n r (q.issueHdr resume)
  else s.setSeq n { q with pend := some ⟨r, q.isn, q.pc, resume, false, false⟩ }

/-- GCOMMIT's trap on a suspended group, which reports the command's ISN (12 R321). -/
def commandTrap (s : State) (n : Nat) (isn : BitVec 32) (r : TrapReq) : State :=
  let q := s.seq n
  if q.inflight.isEmpty then trapEnter s n r { q.issueHdr q.pc with isn := isn }
  else s.setSeq n { q with pend := some ⟨r, isn, q.pc, q.pc, false, false⟩ }

/-! ## Issue -/

/-- What R122 to R124 and the state of the sequencer decide before an instruction's own checks. -/
inductive Gate where
  | go | hold | trap (cause : Nat)
  deriving DecidableEq, Repr

/-- The instruction names a register whose scalar destination is pending (02 R51; 06 R141). R51 holds back a reader; that an
instruction which only writes the register waits as well is the model's choice (log 82). -/
def Seq.pending (q : Seq) (i : Instr) : Bool :=
  q.inflight.any fun e => match e.sdest with
    | some r => (instrRegs i).contains r
    | none => false

/-- Reads and writes of control registers that trap without privilege (R122; 00 R10). -/
def privTrap (q : Seq) (i : Instr) : Bool :=
  let allPriv := fun (c : CReg) => match c with
    | .vcap | .ctrap | .csump | .cdet | .cptbase => true
    | _ => false
  let noRw := fun (c : CReg) => allPriv c || c == .cquota
  if q.privileged then false
  else needsPriv i || (match i with
    | .movcRead _ c => allPriv c
    | .movcWrite c _ => noRw c
    | .movcw _ c _ => allPriv c || noRw c
    | _ => false)

/-- VWAIT and ARRWAIT keep the sequencer while they are in flight (08 R227; 19 R460). -/
def Entry.blocks (e : Entry) : Bool := match e.ins with
  | .vwait .. | .arrwait .. => true
  | _ => false

/-- The order of R124 from PRIV on, handler mode (15 R378), and everything that keeps an instruction from issuing. -/
def gate (n : Nat) (i : Instr) (s : State) : Gate :=
  let q := s.seq n
  let c := s.ctx q.ctx
  if s.pkg.frozen || q.mode = .idle || q.sleep.isSome || q.pend.isSome || !q.gtraps.isEmpty then .hold
  else if q.mode = .handler then
    if handlerOk i then (if privTrap q i then .trap 0x02 else .go)
    else if isVec i && vtVILL q.vtype then .trap 0x03
    else .trap 0x15
  else if c.st = .halted || c.st = .ended then .hold
  else if q.take.isSome && (q.softPt || isSetvl i) then .hold
  else if privTrap q i then .trap 0x02
  else if isVec i && vtVILL q.vtype then .trap 0x03
  else if q.pending i || q.inflight.any Entry.blocks then .hold
  else if (q.isn - q.low).toNat > 8 then .hold
  else if pairOff s n 4 && q.grp.st == .open_ && !q.grp.cmds.isEmpty then .hold
  else if isVec i && c.limit != 0 && c.balance ≤ 0 then .hold
  else .go

/-- Wait: nothing happens but time, and a wait on a migrating page or the log is recorded. -/
def waitStep (s : State) (n : Nat) (k : WaitKind) : State :=
  match k with
  | .migrating va => (s.addMig n (s.seq n).ctx va).idleTurn
  | .log => (s.modSeq n fun q => { q with sleep := some .log }).idleTurn
  | _ => s.idleTurn

/-- What a machine outcome is. -/
abbrev Res := Host.Outcome State Fault Refusal

/-- TRAP is entered: it takes its ISN, and RESUME is the next address (06 R173). -/
def swEnter (s : State) (n : Nat) (r : TrapReq) : State :=
  let q := s.seq n
  let s1 := s.setSeq n (q.retire (.trap 0) .next)
  trapEnter s1 n r { (s1.seq n).issueHdr (s1.seq n).pc with isn := q.isn, pc := q.pc }

/-- An instruction that has passed its checks traps: it has taken its ISN, and is issued again after a resumption (19 R456, R459). -/
def lateTrap (s : State) (n : Nat) (r : TrapReq) : State :=
  let q := s.seq n
  let s := s.setSeq n { q with isn := q.isn + 1, sleep := none }
  if q.inflight.isEmpty then trapEnter s n r { (s.seq n).issueHdr q.pc with isn := q.isn }
  else s.modSeq n fun x => { x with pend := some ⟨r, q.isn, q.pc, q.pc, false, false⟩ }

/-- An instruction stopped: a trap keeps the state reached (accessed and dirty bits), a wait discards it. -/
def stopStep (n : Nat) (_i : Instr) (s : State) (e : Stop) (s' : State) : Res :=
  match e with
  | .trap r | .etrap _ r => .next (issueTrap s' n r (s'.seq n).pc)
  | .ctrap isn r => .next (commandTrap s' n isn r)
  | .ltrap r => .next (lateTrap s' n r)
  | .swtrap r =>
    let q := s'.seq n
    if q.inflight.isEmpty then .next (swEnter s' n r)
    else .next (s'.setSeq n { q with pend := some ⟨r, q.isn, q.pc, q.pc, false, false⟩ })
  | .wait k => .next (waitStep s n k)
  | .mcheck addr phys =>
    if (s'.seq n).mode = .handler then .next (doubleTrap s' n 0x10 (s'.seq n).pc)
    else .next (haltCtx s' (s'.seq n).ctx ⟨0x10, toWord addr, if phys then 1 else 0⟩)
  | .fault f => .fault f

/-- Issue an instruction on the current sequencer: the gate, the instruction's own body, and the step after it. -/
def issue (i : Instr) (body : Nat → Op Ctl) (s : State) : Res :=
  let n := s.cur
  match gate n i s with
  | .hold => .next s.idleTurn
  | .trap c => .next (issueTrap s n ⟨c, 0, 0⟩ (s.seq n).pc)
  | .go => match (body n).run s with
    | .ok c s' => .next (s'.modSeq n fun q => q.retire i c)
    | .error e s' => stopStep n i s e s'

/-- The instruction passes the gate. -/
def ready (i : Instr) (s : State) : Prop := gate s.cur i s = .go

/-! ## Addresses of scalar accesses (06 R140) -/

/-- Translate a scalar access of `size` bytes: the steps of R140, with step 4 by `tiers` (bit t for tier t). A write without an
ordering code that determinism mode holds meets its way when it is performed. -/
def scalarAddr (n : Nat) (va : Word) (size : Nat) (acc : Access) (tiers : Nat) (ordered : Bool := true) : Op Phys := do
  let a := va.toNat
  let pf := if accWrites acc then 0x06 else 0x05
  if a ≥ 2 ^ 48 then trapWith pf a
  else if a % size != 0 then trapWith 0x04 a
  else
    let s ← get
    match ← xlateOp n (dieOf n) (s.seq n).ctx a acc with
    | .ok p =>
      if !tiers.testBit p.tier then trapWith 0x14 a
      if !s.holds n ordered p then needRoute (dieOf n) a p
      pure p
    | .prot => trapWith 0x08 a
    | _ => trapWith pf a

/-- Every tier. -/
def tiersAll : Nat := 31
/-- The cistern alone. -/
def tiersCist : Nat := 1
/-- Cistern, main and well. -/
def tiersCMW : Nat := 7
/-- Main and well. -/
def tiersMW : Nat := 6

end Sys2Proof.Machine
end

