-- ==== Sys2Proof/Machine/Fetch.lean ====
section
/-!
DEFINITION. Reading the next instruction of a sequencer: the breakpoint comparators (spec/06_scalar.md R175, R177),
fetch through the loop buffer and the page tree (06 R178; spec/05_encoding.md R102, R103), and decoding, in the order
of 05 R124.
-/
namespace Sys2Proof.Machine

/-- The comparator that matches the next instruction, if one does; none on the first issue after RETT at a matching
address (06 R175, R177). Of several at one address the lowest is reported: R175 does not say which (log 83). -/
def Seq.bkptHit (q : Seq) : Option Nat :=
  if q.bkSkip = some q.pc then none
  else q.bkpt.toList.findIdx? fun b => b.1 && b.2 = q.pc

/-- One halfword: from the loop buffer, else from memory as it stands; either trap carries the instruction's own address. Of the
old and the new instruction, which R178 both allows for code that is not held, the model takes the new one (log 84), also where
determinism mode still holds it (log 49). -/
def fetchHalf (n : Nat) (a : Nat) : Op Nat := do
  let q ← getSeq n
  match smapGet a q.lbuf with
  | some h => pure h
  | none => match ← xlateOp n (dieOf n) q.ctx a .fetch with
    | .ok p =>
      needRoute (dieOf n) a p
      let bs ← readFar n a p.key 2
      pure (ofBytes bs)
    | .prot => trapWith 0x08 q.pc.toNat
    | _ => trapWith 0x05 q.pc.toNat

/-- Halfwords k, k + 1, … of an instruction, `fuel` of them, and their value at their places. -/
def fetchRest (n : Nat) (pc : Word) : Nat → Nat → Op Nat
  | 0, _ => pure 0
  | fuel + 1, k => do
    let h ← fetchHalf n (pc + toWord (2 * k)).toNat
    let r ← fetchRest n pc fuel (k + 1)
    pure (h + 65536 * r)

/-- The instruction's bits, lowest halfword first (05 R103); its halfwords enter the loop buffer when it stands in
the body of a loop of the stack whose current pass no IFLUSH has cut (06 R178). -/
def fetchWord (n : Nat) : Op Nat := do
  let q ← getSeq n
  let h ← fetchHalf n q.pc.toNat
  let r ← fetchRest n q.pc (lenOf h - 1) 1
  let w := h + 65536 * r
  modSeqOp n fun q =>
    let put := fun b k => smapSet (q.pc + toWord (2 * k)).toNat (bitsAt w (16 * k) 16) b
    if (heldLoops q.fresh q.loops).any fun l => l.start.toNat ≤ q.pc.toNat && q.pc.toNat < l.stop.toNat then
      { q with lbuf := (List.range (lenOf h)).foldl put q.lbuf }
    else q
  pure w

/-- The sequencer would issue an instruction now, whatever it is. -/
def awake (s : State) (n : Nat) : Bool :=
  let q := s.seq n
  !s.pkg.frozen && q.mode != .idle && q.sleep.isNone && q.pend.isNone && q.gtraps.isEmpty &&
    (q.mode == .handler || (!((s.ctx q.ctx).st == .halted || (s.ctx q.ctx).st == .ended) &&
      !(q.take.isSome && q.softPt) && !q.inflight.any Entry.blocks))

/-- What a turn of a sequencer finds: nothing to issue, an issue trap, a stop of the fetch, or an instruction. -/
inductive Fetched where
  | hold
  | trap (r : TrapReq)
  | stop (e : Stop) (s : State)
  | ins (i : Instr) (s : State)
  deriving DecidableEq, Repr

/-- Comparators, fetch, decode (05 R124, the first three places). -/
def fetchIns (s : State) (n : Nat) : Fetched :=
  if !awake s n then .hold
  else match (s.seq n).bkptHit with
    | some k => .trap ⟨0x0F, (s.seq n).pc, toWord k⟩
    | none => match (fetchWord n).run s with
      | .error e s' => .stop e s'
      | .ok w s' => match decode w with
        | .ok i => .ins i s'
        | .error _ => .trap ⟨0x01, 0, 0⟩

end Sys2Proof.Machine
end

