-- ==== Sys2Proof/Machine/Scalar.lean ====
section
/-!
DEFINITION. The scalar integer instructions and their compact forms (spec/06_scalar.md R135 to R139;
spec/05_encoding.md R118, R120).
-/
namespace Sys2Proof.Machine

/-! ## Results (R137, R138) -/

/-- DIV: the quotient truncated toward zero; all ones for a zero divisor; -2^63 by -1 wraps. -/
def divS (a b : Word) : Word := if b = 0 then BitVec.allOnes 64 else intWord (a.toInt.tdiv b.toInt)
/-- DIVU. -/
def divU (a b : Word) : Word := if b = 0 then BitVec.allOnes 64 else toWord (a.toNat / b.toNat)
/-- REM: the remainder with the sign of a; a for a zero divisor. -/
def remS (a b : Word) : Word := if b = 0 then a else intWord (a.toInt.tmod b.toInt)
/-- REMU. -/
def remU (a b : Word) : Word := if b = 0 then a else toWord (a.toNat % b.toNat)
/-- MULH: bits 127:64 of the signed product. -/
def mulHS (a b : Word) : Word := intWord (a.toInt * b.toInt / 2 ^ 64)
/-- MULHU: bits 127:64 of the unsigned product. -/
def mulHU (a b : Word) : Word := toWord (a.toNat * b.toNat / 2 ^ 64)
/-- 1 when a condition holds, else 0. -/
def boolWord (c : Bool) : Word := if c then 1 else 0
/-- Leading zeros among the low k bits. -/
def clzGo (a : Word) : Nat → Nat
  | 0 => 0
  | k + 1 => if a.getLsbD k then 0 else 1 + clzGo a k
/-- CLZ; 64 for zero. -/
def clzW (a : Word) : Word := toWord (clzGo a 64)
/-- Trailing zeros from bit i on, over k bits. -/
def ctzGo (a : Word) : Nat → Nat → Nat
  | 0, _ => 0
  | k + 1, i => if a.getLsbD i then 0 else 1 + ctzGo a k (i + 1)
/-- CTZ; 64 for zero. -/
def ctzW (a : Word) : Word := toWord (ctzGo a 64 0)
/-- Set bits among the low k bits. -/
def popGo (a : Word) : Nat → Nat
  | 0 => 0
  | k + 1 => (if a.getLsbD k then 1 else 0) + popGo a k
/-- POPC. -/
def popW (a : Word) : Word := toWord (popGo a 64)
/-- The shift count of a register: bits 5:0. -/
def shCount (b : Word) : Nat := b.toNat % 64
/-- The smaller of two, signed. -/
def minS (a b : Word) : Word := if b.slt a then b else a
/-- The larger of two, signed. -/
def maxS (a b : Word) : Word := if a.slt b then b else a
/-- The smaller of two, unsigned. -/
def minU (a b : Word) : Word := if b.ult a then b else a
/-- The larger of two, unsigned. -/
def maxU (a b : Word) : Word := if a.ult b then b else a

/-! ## The shape of a scalar instruction -/

/-- An instruction that reads registers and writes rd at issue (R135). -/
def scalar (i : Instr) (rd : Reg) (f : Seq → Word) (s : State) : Res :=
  issue i (fun n => do
    putX n rd (f (← getSeq n))
    pure .next) s

/-- A three-register instruction (R137). -/
def alu3 (i : Instr) (rd ra rb : Reg) (f : Word → Word → Word) (s : State) : Res :=
  scalar i rd (fun q => f (q.getX ra) (q.getX rb)) s

/-- A two-register instruction. -/
def alu2 (i : Instr) (rd ra : Reg) (f : Word → Word) (s : State) : Res :=
  scalar i rd (fun q => f (q.getX ra)) s

/-- ADD (R137). -/
def execAdd (rd ra rb : Reg) (s : State) : Res :=
  alu3 (.add rd ra rb) rd ra rb (fun a b => a + b) s

/-- SUB (R137). -/
def execSub (rd ra rb : Reg) (s : State) : Res :=
  alu3 (.sub rd ra rb) rd ra rb (fun a b => a - b) s

/-- MUL (R137). -/
def execMul (rd ra rb : Reg) (s : State) : Res :=
  alu3 (.mul rd ra rb) rd ra rb (fun a b => a * b) s

/-- MULH (R137). -/
def execMulh (rd ra rb : Reg) (s : State) : Res :=
  alu3 (.mulh rd ra rb) rd ra rb mulHS s

/-- MULHU (R137). -/
def execMulhu (rd ra rb : Reg) (s : State) : Res :=
  alu3 (.mulhu rd ra rb) rd ra rb mulHU s

/-- DIV (R137, R138). -/
def execDiv (rd ra rb : Reg) (s : State) : Res :=
  alu3 (.div rd ra rb) rd ra rb divS s

/-- DIVU (R137, R138). -/
def execDivu (rd ra rb : Reg) (s : State) : Res :=
  alu3 (.divu rd ra rb) rd ra rb divU s

/-- REM (R137, R138). -/
def execRem (rd ra rb : Reg) (s : State) : Res :=
  alu3 (.rem rd ra rb) rd ra rb remS s

/-- REMU (R137, R138). -/
def execRemu (rd ra rb : Reg) (s : State) : Res :=
  alu3 (.remu rd ra rb) rd ra rb remU s

/-- AND (R137). -/
def execAnd (rd ra rb : Reg) (s : State) : Res :=
  alu3 (.and rd ra rb) rd ra rb (fun a b => a &&& b) s

/-- OR (R137). -/
def execOr (rd ra rb : Reg) (s : State) : Res :=
  alu3 (.or rd ra rb) rd ra rb (fun a b => a ||| b) s

/-- XOR (R137). -/
def execXor (rd ra rb : Reg) (s : State) : Res :=
  alu3 (.xor rd ra rb) rd ra rb (fun a b => a ^^^ b) s

/-- ANDN (R137). -/
def execAndn (rd ra rb : Reg) (s : State) : Res :=
  alu3 (.andn rd ra rb) rd ra rb (fun a b => a &&& ~~~b) s

/-- SLL (R137). -/
def execSll (rd ra rb : Reg) (s : State) : Res :=
  alu3 (.sll rd ra rb) rd ra rb (fun a b => a <<< shCount b) s

/-- SRL (R137). -/
def execSrl (rd ra rb : Reg) (s : State) : Res :=
  alu3 (.srl rd ra rb) rd ra rb (fun a b => a >>> shCount b) s

/-- SRA (R137). -/
def execSra (rd ra rb : Reg) (s : State) : Res :=
  alu3 (.sra rd ra rb) rd ra rb (fun a b => a.sshiftRight (shCount b)) s

/-- SLT (R137). -/
def execSlt (rd ra rb : Reg) (s : State) : Res :=
  alu3 (.slt rd ra rb) rd ra rb (fun a b => boolWord (a.slt b)) s

/-- SLTU (R137). -/
def execSltu (rd ra rb : Reg) (s : State) : Res :=
  alu3 (.sltu rd ra rb) rd ra rb (fun a b => boolWord (a.ult b)) s

/-- MIN (R137). -/
def execMin (rd ra rb : Reg) (s : State) : Res :=
  alu3 (.min rd ra rb) rd ra rb minS s

/-- MAX (R137). -/
def execMax (rd ra rb : Reg) (s : State) : Res :=
  alu3 (.max rd ra rb) rd ra rb maxS s

/-- MINU (R137). -/
def execMinu (rd ra rb : Reg) (s : State) : Res :=
  alu3 (.minu rd ra rb) rd ra rb minU s

/-- MAXU (R137). -/
def execMaxu (rd ra rb : Reg) (s : State) : Res :=
  alu3 (.maxu rd ra rb) rd ra rb maxU s

/-- CLZ (R137). -/
def execClz (rd ra : Reg) (s : State) : Res :=
  alu2 (.clz rd ra) rd ra clzW s

/-- CTZ (R137). -/
def execCtz (rd ra : Reg) (s : State) : Res :=
  alu2 (.ctz rd ra) rd ra ctzW s

/-- POPC (R137). -/
def execPopc (rd ra : Reg) (s : State) : Res :=
  alu2 (.popc rd ra) rd ra popW s

/-- ADDI (R139). -/
def execAddi (rd ra : Reg) (imm : BitVec 15) (s : State) : Res :=
  alu2 (.addi rd ra imm) rd ra (· + sext imm) s

/-- ANDI (R139). -/
def execAndi (rd ra : Reg) (imm : BitVec 15) (s : State) : Res :=
  alu2 (.andi rd ra imm) rd ra (· &&& sext imm) s

/-- ORI (R139). -/
def execOri (rd ra : Reg) (imm : BitVec 15) (s : State) : Res :=
  alu2 (.ori rd ra imm) rd ra (· ||| sext imm) s

/-- XORI (R139). -/
def execXori (rd ra : Reg) (imm : BitVec 15) (s : State) : Res :=
  alu2 (.xori rd ra imm) rd ra (· ^^^ sext imm) s

/-- SLTI (R139). -/
def execSlti (rd ra : Reg) (imm : BitVec 15) (s : State) : Res :=
  alu2 (.slti rd ra imm) rd ra (fun a => boolWord (a.slt (sext imm))) s

/-- SLLI (R139). -/
def execSlli (rd ra : Reg) (sh : BitVec 6) (s : State) : Res :=
  alu2 (.slli rd ra sh) rd ra (· <<< sh.toNat) s

/-- SRLI (R139). -/
def execSrli (rd ra : Reg) (sh : BitVec 6) (s : State) : Res :=
  alu2 (.srli rd ra sh) rd ra (· >>> sh.toNat) s

/-- SRAI (R139). -/
def execSrai (rd ra : Reg) (sh : BitVec 6) (s : State) : Res :=
  alu2 (.srai rd ra sh) rd ra (·.sshiftRight sh.toNat) s

/-- LI, 32-bit form (R139). -/
def execLiShort (rd : Reg) (imm : BitVec 20) (s : State) : Res :=
  scalar (.liShort rd imm) rd (fun _ => sext imm) s

/-- LI, 64-bit form (R139). -/
def execLiLong (rd : Reg) (imm : BitVec 32) (s : State) : Res :=
  scalar (.liLong rd imm) rd (fun _ => sext imm) s

/-- LI.HI (R139): bits 63:32 replaced, bits 31:0 kept. -/
def execLiHi (rd : Reg) (imm : BitVec 32) (s : State) : Res :=
  scalar (.liHi rd imm) rd (fun q => imm ++ (q.getX rd).setWidth 32) s

/-- Compact ADDI (R118). -/
def execCAddi (rd : Reg) (imm : BitVec 6) (s : State) : Res :=
  alu2 (.cAddi rd imm) rd rd (· + sext imm) s

/-- Compact LI (R118). -/
def execCLi (rd : Reg) (imm : BitVec 6) (s : State) : Res :=
  scalar (.cLi rd imm) rd (fun _ => sext imm) s

/-- Compact SLLI (R118). -/
def execCSlli (rd : Reg) (sh : BitVec 6) (s : State) : Res :=
  alu2 (.cSlli rd sh) rd rd (· <<< sh.toNat) s

/-- Compact SRLI (R118). -/
def execCSrli (rd : Reg) (sh : BitVec 6) (s : State) : Res :=
  alu2 (.cSrli rd sh) rd rd (· >>> sh.toNat) s

/-- Compact SRAI (R118). -/
def execCSrai (rd : Reg) (sh : BitVec 6) (s : State) : Res :=
  alu2 (.cSrai rd sh) rd rd (·.sshiftRight sh.toNat) s

/-- Compact ADD (R118). -/
def execCAdd (rd ra : Reg) (s : State) : Res :=
  alu3 (.cAdd rd ra) rd rd ra (fun a b => a + b) s

/-- Compact SUB (R118). -/
def execCSub (rd ra : Reg) (s : State) : Res :=
  alu3 (.cSub rd ra) rd rd ra (fun a b => a - b) s

/-- Compact AND (R118). -/
def execCAnd (rd ra : Reg) (s : State) : Res :=
  alu3 (.cAnd rd ra) rd rd ra (fun a b => a &&& b) s

/-- Compact OR (R118). -/
def execCOr (rd ra : Reg) (s : State) : Res :=
  alu3 (.cOr rd ra) rd rd ra (fun a b => a ||| b) s

/-- Compact XOR (R118). -/
def execCXor (rd ra : Reg) (s : State) : Res :=
  alu3 (.cXor rd ra) rd rd ra (fun a b => a ^^^ b) s

/-- Compact SLL (R118). -/
def execCSll (rd ra : Reg) (s : State) : Res :=
  alu3 (.cSll rd ra) rd rd ra (fun a b => a <<< shCount b) s

/-- Compact SRL (R118). -/
def execCSrl (rd ra : Reg) (s : State) : Res :=
  alu3 (.cSrl rd ra) rd rd ra (fun a b => a >>> shCount b) s

/-- Compact SRA (R118). -/
def execCSra (rd ra : Reg) (s : State) : Res :=
  alu3 (.cSra rd ra) rd rd ra (fun a b => a.sshiftRight (shCount b)) s

/-- Compact MUL (R118). -/
def execCMul (rd ra : Reg) (s : State) : Res :=
  alu3 (.cMul rd ra) rd rd ra (fun a b => a * b) s

/-- Compact MIN (R118). -/
def execCMin (rd ra : Reg) (s : State) : Res :=
  alu3 (.cMin rd ra) rd rd ra minS s

/-- Compact MAX (R118). -/
def execCMax (rd ra : Reg) (s : State) : Res :=
  alu3 (.cMax rd ra) rd rd ra maxS s

/-- Compact ADD of xa and x0 (R118). -/
def execCMv (rd ra : Reg) (s : State) : Res :=
  alu2 (.cMv rd ra) rd ra (· + 0) s

end Sys2Proof.Machine
end

