-- ==== Sys2Proof/Machine/Control.lean ====
section
/-!
DEFINITION. Branches, jumps, hardware loops, TRAP, BKPT, the hint NOP and IFLUSH (spec/06_scalar.md R150 to R157,
R173 to R178), fences (spec/14_ordering.md R351, R352, R358), TICK and LOGMARK (06 R170; 21 R504), monitors
(06 R171, R172).
-/
namespace Sys2Proof.Machine

/-! ## Branches and jumps (R150, R151) -/

/-- An address displaced by a count of halfwords. -/
def offsetBy {k : Nat} (pc : Word) (off : BitVec k) : Word := pc + sext off * 2

/-- A conditional branch. -/
def branch {k : Nat} (i : Instr) (ra rb : Reg) (off : BitVec k) (c : Word → Word → Bool) (s : State) : Res :=
  issue i (fun n => do
    let q ← getSeq n
    pure (if c (q.getX ra) (q.getX rb) then .goto (offsetBy q.pc off) else .next)) s

/-- BEQ. -/
def execBeq (ra rb : Reg) (off : BitVec 15) (s : State) : Res := branch (.beq ra rb off) ra rb off (fun a b => a == b) s
/-- BNE. -/
def execBne (ra rb : Reg) (off : BitVec 15) (s : State) : Res := branch (.bne ra rb off) ra rb off (fun a b => a != b) s
/-- BLT. -/
def execBlt (ra rb : Reg) (off : BitVec 15) (s : State) : Res := branch (.blt ra rb off) ra rb off (fun a b => a.slt b) s
/-- BGE. -/
def execBge (ra rb : Reg) (off : BitVec 15) (s : State) : Res := branch (.bge ra rb off) ra rb off (fun a b => !a.slt b) s
/-- BLTU. -/
def execBltu (ra rb : Reg) (off : BitVec 15) (s : State) : Res := branch (.bltu ra rb off) ra rb off (fun a b => a.ult b) s
/-- BGEU. -/
def execBgeu (ra rb : Reg) (off : BitVec 15) (s : State) : Res := branch (.bgeu ra rb off) ra rb off (fun a b => !a.ult b) s
/-- Compact BEQ with x0. -/
def execCBeqz (ra : Reg) (off : BitVec 6) (s : State) : Res := branch (.cBeqz ra off) ra 0 off (fun a b => a == b) s
/-- Compact BNE with x0. -/
def execCBnez (ra : Reg) (off : BitVec 6) (s : State) : Res := branch (.cBnez ra off) ra 0 off (fun a b => a != b) s

/-- JAL: the link, then the jump. -/
def execJal (rd : Reg) (off : BitVec 20) (s : State) : Res :=
  issue (.jal rd off) (fun n => do
    let q ← getSeq n
    putX n rd (q.after (.jal rd off))
    pure (.goto (offsetBy q.pc off))) s

/-- Compact JAL with x0. -/
def execCJ (off : BitVec 11) (s : State) : Res :=
  issue (.cJ off) (fun n => do
    let q ← getSeq n
    pure (.goto (offsetBy q.pc off))) s

/-- JALR: an odd target raises MISALIGN with that address before any effect. -/
def execJalr (rd ra : Reg) (imm : BitVec 15) (s : State) : Res :=
  issue (.jalr rd ra imm) (fun n => do
    let q ← getSeq n
    let t := q.getX ra + sext imm
    if t.getLsbD 0 then trapWith 0x04 t.toNat
    else
      putX n rd (q.after (.jalr rd ra imm))
      pure (.goto t)) s

/-! ## Hardware loops (R152 to R157) -/

/-- LOOP and LOOPI with a count: nothing for 0, LOOPOVF for a seventh entry. -/
def loopOp (i : Instr) (count : Seq → Word) (off : BitVec 15) (s : State) : Res :=
  issue i (fun n => do
    let q ← getSeq n
    let stop := offsetBy q.pc off
    if count q = 0 then pure (.goto stop)
    else if q.loops.length ≥ 6 then trapWith 0x0E 0
    else
      modSeqOp n fun q => { q with loops := ⟨low48 (q.after i), low48 stop, count q, 0⟩ :: q.loops }
      pure .next) s

/-- LOOP. -/
def execLoop (ra : Reg) (off : BitVec 15) (s : State) : Res := loopOp (.loop ra off) (fun q => q.getX ra) off s
/-- LOOPI. -/
def execLoopi (c : BitVec 10) (off : BitVec 15) (s : State) : Res :=
  loopOp (.loopi c off) (fun _ => toWord c.toNat) off s

/-- LIX: the index k places below the top; LOOPOVF when there is none. -/
def execLix (rd : Reg) (k : BitVec 5) (s : State) : Res :=
  issue (.lix rd k) (fun n => do
    let q ← getSeq n
    match q.loops[k.toNat]? with
    | some l =>
      putX n rd l.index
      pure .next
    | none => trapWith 0x0E 0) s

/-- LBRK: pop the innermost entry and continue at its END; LOOPOVF on an empty stack. -/
def lbrkOp (i : Instr) (s : State) : Res :=
  issue i (fun n => do
    let q ← getSeq n
    match q.loops with
    | l :: r =>
      modSeqOp n fun q => { q with loops := r }
      pure (.goto l.stop)
    | [] => trapWith 0x0E 0) s

/-- LBRK. -/
def execLbrk (s : State) : Res := lbrkOp .lbrk s
/-- Compact LBRK. -/
def execCLbrk (s : State) : Res := lbrkOp .cLbrk s

/-! ## NOP, TRAP, BKPT, IFLUSH -/

/-- An instruction that only takes its ISN. -/
def nopOp (i : Instr) (s : State) : Res := issue i (fun _ => pure .next) s

/-- The hint major (05 R121). -/
def execHintNop (bits : BitVec 25) (s : State) : Res := nopOp (.hintNop bits) s
/-- Compact NOP (05 R118). -/
def execCNop (s : State) : Res := nopOp .cNop s

/-- TRAP (R173): SWTRAP with k after taking its ISN. -/
def execTrap (k : BitVec 5) (s : State) : Res :=
  issue (.trap k) (fun _ => throw (.swtrap ⟨0x13, 0, toWord k.toNat⟩)) s

/-- BKPT (R174): trap with INFO 8 before any effect, without an ISN. -/
def bkptOp (i : Instr) (s : State) : Res := issue i (fun _ => trapWith 0x0F 0 8) s

/-- BKPT. -/
def execBkpt (s : State) : Res := bkptOp .bkpt s
/-- Compact BKPT. -/
def execCBkpt (s : State) : Res := bkptOp .cBkpt s

/-- Wait until every instruction in flight is complete; handler mode waits for none (15 R378). -/
def needDone (n : Nat) : Op Unit := do
  let q ← getSeq n
  if q.mode = .handler || q.inflight.isEmpty then pure () else waitFor .other

/-- An instruction in flight that writes memory. -/
def storesSomething (e : Entry) : Bool := match e.ins with
  | .ld .. | .ldfe .. | .cLd .. => false
  | _ => true

/-- IFLUSH (R178): every held instruction goes, once every store of lower ISN is performed, and the rest of each loop's current
pass is not held. It is no drain point (21 R500): the fetches that follow see the writes that determinism mode holds (log 49). -/
def execIflush (s : State) : Res :=
  issue .iflush (fun n => do
    let q ← getSeq n
    if q.inflight.any storesSomething then waitFor .other
    else
      modSeqOp n fun q => { q with lbuf := [], fresh := q.loops.length }
      pure .next) s

/-! ## Fences -/

/-- FENCE (14 R352): a drain point (21 R500); every access of lower ISN has been performed when it ends. -/
def execFence (sc : Scope) (s : State) : Res :=
  issue (.fence sc) (fun n => do
    needDone n
    drainNow n
    pure .next) s

/-- Tile instructions of the thread of a sequencer that engines have not completed (14 R358). -/
def tileWorkOf (s : State) (n : Nat) : Bool :=
  s.dies.toList.any fun d => d.engines.any fun e => e.queue.any fun m => m.runId == (s.seq n).runId

/-- FENCEX (14 R358): it waits until the grant's own lower accesses are performed, since what they read of path c1 must be known
before any access above it begins (log 109), from M for the sequencer's own tile work too; a drain point (21 R500). -/
def execFencex (c1 c2 : PathClass) (s : State) : Res :=
  issue (.fencex c1 c2) (fun n => do
    needDone n
    if c1 = .m && tileWorkOf (← get) n then waitFor .other
    else
      drainNow n
      pure .next) s

/-! ## Time and logs -/

/-- TICK (06 R170): the package period counter, a logged event (21 R502). -/
def execTick (rd : Reg) (s : State) : Res :=
  issue (.tick rd) (fun n => do
    let s ← get
    let v ← loggedValue n (s.seq n).isn 1 s.pkg.tick
    putX n rd v
    pure .next) s

/-- LOGMARK (21 R504): a kind-8 entry in record mode, checked in replay mode. -/
def execLogmark (ra : Reg) (s : State) : Res :=
  issue (.logmark ra) (fun n => do
    let s ← get
    let q := s.seq n
    match logMode s q.ctx with
    | 1 => logRecord n q.isn 8 (q.getX ra) 0
    | 2 => do
      let (pos, w0, w1, _) ← logPeek n
      if fld w0 0 8 = 8 && fld w0 32 32 = q.isn.toNat && w1 = q.getX ra then logConsume n pos
      else trapWith 0x12 0 pos
    | _ => pure ()
    pure .next) s

/-! ## Events as moves -/

/-- An event: none when it is not enabled. -/
abbrev Ev := Option Res

/-- An event that is not enabled does not occur (log 1). -/
def occurs (e : Ev) (s : State) : Res := match e with
  | some r => r
  | none => .next s

/-- Run a move of an event for sequencer n: it is not enabled while the move would wait; a trap of it is an issue trap
of the sequencer. -/
def wake (n : Nat) (m : Op Unit) (s : State) : Ev :=
  if s.pkg.frozen then none
  else match m.run s with
    | .ok _ s' => some (.next s')
    | .error (.wait (.migrating va)) _ =>
      let t := s.addMig n (s.seq n).ctx va
      if t.migs.length = s.migs.length then none else some (.next t)
    | .error (.wait _) _ => none
    | .error (.trap r) s' => some (.next (issueTrap (s'.modSeq n fun q => { q with sleep := none }) n r (s'.seq n).pc))
    | .error (.ltrap r) s' => some (.next (lateTrap s' n r))
    | .error (.swtrap _) _ | .error (.etrap _ _) _ | .error (.ctrap _ _) _ => none
    | .error (.mcheck a p) s' => some (.next (haltCtx s' (s'.seq n).ctx ⟨0x10, toWord a, if p then 1 else 0⟩))
    | .error (.fault f) _ => some (.fault f)

/-- Complete the instruction in which sequencer n sleeps. -/
def finishSleep (n : Nat) (i : Instr) : Op Unit :=
  modSeqOp n fun q => { q with sleep := none }.retire i .next

/-! ## Monitors -/

/-- MON (06 R171): arms the monitor on the line that holds xa. -/
def execMon (ra : Reg) (s : State) : Res :=
  issue (.mon ra) (fun n => do
    let q ← getSeq n
    let p ← scalarAddr n (q.getX ra) 1 .load tiersCMW
    modSeqOp n fun q => { q with monitor := some (p.key / 64, false) }
    pure .next) s

/-- The code with which MWAIT completes now, if it does (06 R172). -/
def mwaitCode (q : Seq) (tick : Word) (start : Nat) (limit : Word) : Option Nat :=
  match q.monitor with
  | none => some 2
  | some (_, true) => some 0
  | some (_, false) =>
    if limit != 0 && (tick - toWord start).toNat ≥ limit.toNat then some 1
    else if q.take.isSome then some 3
    else none

/-- The code of MWAIT in the log's modes: recorded, or the logged one, which waits for the write when it is 0
(21 R502, R503). Where the log holds 0 a take request does not complete it with code 3: the log prevails over R172
(log 91). -/
def mwaitLogged (n : Nat) (start : Nat) (limit : Word) : Op Nat := do
  let s ← get
  let q := s.seq n
  if logMode s q.ctx = 2 then
    let (_, w0, w1, _) ← logPeek n
    if fld w0 0 8 = 2 && w1 = 0 && q.monitor.any (fun m => !m.2) then waitFor .other
    else
      let e ← logTake n q.isn 2
      pure e.1.toNat
  else match mwaitCode q s.pkg.tick start limit with
    | none => waitFor .other
    | some c =>
      if logMode s q.ctx = 1 then logRecord n q.isn 2 (toWord c) 0
      pure c

/-- MWAIT completes with a code and disarms the monitor. -/
def mwaitDone (n : Nat) (rd : Reg) (c : Nat) : Op Unit :=
  modSeqOp n fun q => { q.setX rd (toWord c) with monitor := none }

/-- MWAIT (06 R172): it completes at once when an event has come, else it sleeps. -/
def execMwait (rd ra : Reg) (s : State) : Res :=
  issue (.mwait rd ra) (fun n => do
    let s ← get
    let q := s.seq n
    if logMode s q.ctx != 2 && (mwaitCode q s.pkg.tick s.pkg.tick.toNat (q.getX ra)).isSome then
      let c ← mwaitLogged n s.pkg.tick.toNat (q.getX ra)
      mwaitDone n rd c
      pure .next
    else
      modSeqOp n fun q => { q with sleep := some (.mwait rd ra s.pkg.tick.toNat) }
      pure .stay) s

/-- A sleeping MWAIT wakes. -/
def tryMwaitWake (n : Nat) (s : State) : Ev :=
  match (s.seq n).sleep with
  | some (.mwait rd ra start) => wake n (do
      let q ← getSeq n
      let c ← mwaitLogged n start (q.getX ra)
      mwaitDone n rd c
      finishSleep n (.mwait rd ra)) s
  | _ => none

/-- MWAIT_WAKE (06 R172). -/
def execMwaitWake (n : Nat) (s : State) : Res := occurs (tryMwaitWake n s) s

/-- A sequencer that a full or empty log has stalled goes on once there is a place or an entry (21 R501, R503). -/
def tryLogSpaceFree (n : Nat) (s : State) : Ev :=
  let q := s.seq n
  match q.sleep with
  | some .log => wake n (do
      if logMode s q.ctx = 2 then
        let _ ← logPeek n
      else
        let h := (← logKey n (logBase s q.ctx) .load).key
        checkSoft (some (logBase s q.ctx)) h 16
        let s ← get
        if (toWord (s.mem.num h 8) - toWord (s.mem.num (h + 8) 8)).toNat ≥ logN s q.ctx then waitFor .log
      modSeqOp n fun q => { q with sleep := none }) s
  | _ => none

/-- LOG_SPACE_FREE (21 R501). -/
def execLogSpaceFree (n : Nat) (s : State) : Res := occurs (tryLogSpaceFree n s) s

end Sys2Proof.Machine
end

