-- ==== Sys2Proof/Machine/Gen.lean ====
section
/-!
DEFINITION. The stream generator (spec/04_generator.md R89 to R94, R99) and the perturbed weight (R78, R95 to R97).
-/
namespace Sys2Proof.Machine

/-- One round of the mixer, for round i (R92). -/
def genRound (k : Word) (i : Nat) (p : Word × Word) : Word × Word :=
  let lo := p.2 ^^^ (k + BitVec.ofNat 64 i * 0x9E3779B97F4A7C15#64)
  let lo := lo * 0xB5E39A2D7C416F0B#64
  let hi := p.1 ^^^ (lo >>> 29)
  let hi := hi * 0x8F1CD4A73E65B9C1#64
  let lo := lo ^^^ (hi >>> 32)
  (hi, lo)

/-- Gen(K, hi, lo) (R92): the upper and the lower output word. -/
def gen (k hi lo : Word) : Word × Word :=
  genRound k 5 (genRound k 4 (genRound k 3 (genRound k 2 (genRound k 1 (genRound k 0 (hi, lo))))))

/-- The upper counter word of a stream, a draw and a purpose (R91). -/
def ctrHi (stream draw purpose : Nat) : Word := toWord (stream * 2 ^ 32 + draw % 2 ^ 16 * 2 ^ 16 + purpose * 2 ^ 8)

/-- The upper counter word of cgdraw and a purpose (R90, R91). -/
def ctrHiOf (cgdraw : Word) (purpose : Nat) : Word := ctrHi (fld cgdraw 32 32) (fld cgdraw 16 16) purpose

/-- S of GaussOf (R93). -/
def gaussSum (k hi lo : Word) : Int :=
  let p := gen k hi lo
  ((List.range 4).foldl (fun (a : Int) j => a + fld p.2 (16 * j) 16 + fld p.1 (16 * j) 16) 0) - 262140

/-- GaussOf(K, hi, lo) (R93): an fp32 pattern. -/
def gaussOf (k hi lo : Word) : Nat :=
  let c : Ex := ⟨false, 10273905, -39, false⟩
  (roundW Fmt.fp32 Rnd.rne (.num ((Ex.ofInt (gaussSum k hi lo)).prod c))).1

/-- The uniform u of stochastic rounding for an index (R67, R94). -/
def srU (k cgdraw : Word) (i : Nat) : Nat := fld (gen k (ctrHiOf cgdraw 2) (toWord i)).2 0 16

/-- σ of a log-deviation code (R78): RoundW(2^(c/8), fp32, RNE), and +0 for -128. -/
def sigmaOf (c : Int) : Nat :=
  if c = -128 then 0
  else (roundW Fmt.fp32 Rnd.rne (.num (exp2Ex (Ex.ofScaled c (-3))))).1

/-- The mean of a perturbed weight: a bf16 pattern, a mantissa with its width and scale, a zero block, or a NaN. -/
inductive Mean where
  | bf16 (w : Nat)
  | blk (m : Int) (width scale : Nat)
  | zero
  | nan
  deriving DecidableEq, Repr

/-- The value of a mantissa of a block of a width and scale (R72). -/
def blkVal (m : Int) (width scale : Nat) : Ex := Ex.ofScaled m ((scale : Int) - 127 - width + 1)

/-- The value of a mean read as it is (R98). -/
def Mean.val : Mean → Val
  | .bf16 w => Fmt.bf16.decode w
  | .blk m w s => .num (blkVal m w s)
  | .zero => .num (Ex.zero false)
  | .nan => .nan false

/-- The perturbed weight and its flags (R95 to R97), with e the index in the whole tensor. -/
def perturb (key : Word) (stream draw : Nat) (e : Nat) (code : Int) (mu : Mean) : Val × Nat :=
  if code = -128 then (mu.val, 0)
  else
    let eps := Fmt.fp32.decode (gaussOf key (ctrHi stream draw 1) (toWord e))
    let w32 := Fmt.fp32.decode
      (roundW Fmt.fp32 Rnd.rne (fFma 0 (Fmt.fp32.decode (sigmaOf code)) eps mu.val).1).1
    match mu with
    | .nan => (.nan false, 0)
    | .zero => (.num (Ex.zero false), 0)
    | .bf16 w =>
      if (Fmt.bf16.decode w).isNan then (.nan false, sigNV (Fmt.bf16.decode w))
      else (Fmt.bf16.decode (roundW Fmt.bf16 Rnd.rne w32).1, 0)
    | .blk _ wd sc =>
      match w32 with
      | .num x =>
        let r := roundAt Rnd.rne x ((sc : Int) - 127 - wd + 1)
        let lim := 2 ^ (wd - 1) - 1
        let m : Int := if r.1 > lim then lim else r.1
        (.num (blkVal (if x.neg then -m else m) wd sc), if r.1 > lim then flSAT else 0)
      | _ => (w32, 0)

end Sys2Proof.Machine
end

