-- ==== Sys2Proof/Machine/Blocks.lean ====
section
/-!
DEFINITION. Writing self-describing blocks (spec/03_numbers.md R76, R77) and MXFP4 blocks (R80).
-/
namespace Sys2Proof.Machine

/-- An input of a block: its exact value, the uniform of its element under SR, and whether it raises flags: the kept
value of an inactive element raises none (07 R184). -/
structure BlkIn where
  val : Val
  u : Nat
  own : Bool
  deriving DecidableEq, Repr

/-- The exponent of the unit of a mantissa of width w at scale s (R72). -/
def blkUnit (w s : Nat) : Int := (s : Int) - 127 - w + 1

/-- The mode in which R77 tests a scale: SR rounds away from zero. -/
def testMode (mode : Nat) (neg : Bool) : Nat := if mode = 4 then (if neg then 2 else 3) else mode

/-- x fits a mantissa of width w at scale s. -/
def fitsAt (mode w : Nat) (x : Ex) (s : Nat) : Bool :=
  (roundAt ⟨testMode mode x.neg, false, 0⟩ x (blkUnit w s)).1 ≤ 2 ^ (w - 1) - 1

/-- The least scale at which x fits; above 254 when none does. -/
def leastScale (mode w : Nat) (x : Ex) : Nat :=
  if x.m = 0 then 0
  else
    let s := (x.top + 128).toNat
    if fitsAt mode w x s then s else s + 1

/-- One mantissa: its pattern and the flags that its rounding raises (R77). -/
def blkMant (mode w s : Nat) (i : BlkIn) : Nat × Nat :=
  let lim : Nat := 2 ^ (w - 1) - 1
  match i.val with
  | .nan _ => (0, 0)
  | .inf neg => (patOf w (if neg then -(lim : Int) else lim), 0)
  | .num x =>
    let r := roundAt ⟨mode, false, i.u⟩ x (blkUnit w s)
    let m := min r.1 lim
    let inx := r.2 || r.1 > lim
    let tiny := x.m != 0 && x.top < -128
    (patOf w (if x.neg then -(m : Int) else m),
      if i.own && inx then (if tiny then flNX ||| flUF else flNX) else 0)

/-- Patterns of w bits, the first lowest, as one number. -/
def packBits (w : Nat) (l : List Nat) : Nat := l.foldr (fun x a => x % 2 ^ w + 2 ^ w * a) 0

/-- The 64 bytes of a block of width w and its flags (R77). -/
def blkWrite (mode w : Nat) (sat : Bool) (ins : List BlkIn) : List Byte × Nat :=
  let num := fun (i : BlkIn) => match i.val with
    | .num x => some x
    | _ => none
  let nums := ins.filterMap num
  let anyInf := ins.any fun i => match i.val with
    | .inf _ => true
    | _ => false
  if ins.any fun i => i.val.isNan then (bytesOf 64 (w - 1 + 0xFF00), 0)
  else if !anyInf && nums.all (fun x => x.m == 0) then (bytesOf 64 0, 0)
  else
    let s := nums.foldl (fun s x => max s (leastScale mode w x)) 0
    let big := anyInf || s > 254
    let s := if big then 254 else s
    let ms := ins.map (blkMant mode w s)
    let fl := ms.foldl (fun a p => a ||| p.2) (if big then (if sat then flSAT else flOF) else 0)
    (bytesOf 64 (w - 1 + 256 * s + 65536 * packBits w (ms.map (·.1))), fl)

/-- The reading of a block's header for width w: malformed, or nothing to object to (R74). -/
def blkBad (w h : Nat) : Bool := h / 8 % 32 != 0 || (h % 8 != 0 && h % 8 != w - 1)

/-- The raw mantissa is the reserved code of a block that is neither zero nor NaN (R74). -/
def blkReserved (w raw : Nat) : Bool := raw < 2 ^ 20 && raw != 0 && raw % 2 ^ w == 2 ^ (w - 1)

/-! ## MXFP4 (R79, R80) -/

/-- The code of a magnitude y rounded to E2M1 and the flags raised. -/
def e2m1 (mode : Nat) (u : Nat) (y : Ex) : Nat × Nat :=
  let sgn := if y.neg then 8 else 0
  if y.m = 0 && !y.st then (sgn, 0)
  else
    let six : Ex := ⟨false, 6, 0, false⟩
    if six.lt { y with neg := false } then (sgn + 7, flSAT ||| flNX)
    else
      let e : Int := if y.top < 1 then -1 else if y.top < 2 then 0 else 1
      let r := roundAt ⟨mode, false, u⟩ y e
      let code := if e = -1 then r.1 else if e = 0 then r.1 + 2 else r.1 + 4
      (sgn + code, if r.2 then (if y.top < 0 then flNX ||| flUF else flNX) else 0)

/-- The scale of an MXFP4 block whose largest magnitude is x. -/
def mxScale (x : Ex) : Nat := if x.m = 0 then 0 else min 254 (x.top - 2 + 127).toNat

/-- The 16 element bytes, the scale byte and the flags of an MXFP4 block (R80). -/
def mxWrite (mode : Nat) (ins : List BlkIn) : List Byte × Nat × Nat :=
  let num := fun (i : BlkIn) => match i.val with
    | .num x => some x
    | _ => none
  if ins.any fun i => i.val.isNan then (bytesOf 16 0, 0xFF, 0)
  else if ins.any fun i => (num i).isNone then (bytesOf 16 0, 0xFF, flOF)
  else
    let nums := ins.filterMap num
    let big := nums.foldl (fun (a : Ex) x => if a.lt { x with neg := false } then { x with neg := false } else a) (Ex.zero false)
    let s := mxScale big
    let cs := ins.map fun i => match i.val with
      | .num x =>
        let r := e2m1 mode i.u { x with e := x.e - (s : Int) + 127 }
        (r.1, if i.own then r.2 else 0)
      | _ => (0, 0)
    (bytesOf 16 (packBits 4 (cs.map (·.1))), s, cs.foldl (fun a p => a ||| p.2) 0)

end Sys2Proof.Machine
end

