-- ==== Sys2Proof/Machine/Operands.lean ====
section
/-!
DEFINITION. Every operand form of the vector instructions (spec/01_notation.md R24 to R27, R32; spec/05_encoding.md
R113 to R119): what each instruction computes over which operands, the values it captures at issue (spec/15_contexts.md
R377), the bytes that hold an element, and its address (spec/08_vector_memory.md R210, R211; 03 R61, R73, R79).
-/
namespace Sys2Proof.Machine

/-! ## Forms -/

/-- Two-operand integer operations (07 R187). -/
inductive IBin where
  | add | sub | rsub | mul | mulh | mulhu | div | divu | rem | min | max | minu | maxu | and | or | xor | andn
  | sll | srl | sra
  deriving DecidableEq, Repr

/-- Two-operand floating-point operations (07 R195). -/
inductive FBin where
  | add | sub | mul | div | min | max
  deriving DecidableEq, Repr

/-- Mask instructions with a vector destination (07 R206). -/
inductive MBin where
  | and | or | xor | andn | not
  deriving DecidableEq, Repr

/-- Mask instructions with a scalar destination (07 R207). -/
inductive MScal where
  | pop | first | last | any
  deriving DecidableEq, Repr

/-- Pump instructions (11 R287). -/
inductive PKind where
  | copy | gath | scat | rdc | fill
  deriving DecidableEq, Repr

/-- What a vector instruction does at an element. -/
inductive VOp where
  | ibin (o : IBin)
  | carry (sub co : Bool)
  | icmp (c : ICond)
  | fcmp (c : VFCond)
  | merge
  | mv
  | idx (start step : BitVec 16)
  | fbin (o : FBin)
  | ffma
  | fsqrt
  | spec (f : SpecFn)
  | cvt (src : SrcType)
  | dots
  | red (o : RedOp)
  | scan (o : RedOp)
  | slide (up : Bool)
  | mbin (o : MBin)
  | mscal (o : MScal)
  | msh (k : BitVec 32)
  | gauss (pert : Bool)
  | rand (sr : Bool)
  | vld (o : Ord)
  | vst (o : Ord)
  | vstx (o : Ord)
  | amo (op : AmoOp) (o : Ord)
  | cas (o : Ord)
  | empty
  | fill
  | wait
  | own
  | accin (arow : BitVec 9) (acol ncol1 : BitVec 7)
  | drain (clr : Bool) (arow : BitVec 9) (acol ncol1 : BitVec 7)
  | pump (k : PKind) (tag : BitVec 16) (sz : BitVec 3)
  deriving DecidableEq, Repr

/-- A source operand: a specifier with its policy; L of the compact form, at cld; or D again, B of the compact form
(01 R32). -/
inductive Src where
  | spec (s : Spec) (pol : Bool)
  | last
  | dest
  deriving DecidableEq, Repr

/-- The operands of a vector instruction. -/
structure VForm where
  op : VOp
  d : Option Spec := none
  a : Option Src := none
  b : Option Src := none
  c : Option Src := none
  mask : MSel := .none
  imm : List Reg := []
  deriving DecidableEq, Repr

/-- D, A. -/
def formVA (op : VOp) (v : VA) : VForm :=
  { op := op, d := some v.d, a := some (.spec v.a v.pa), mask := v.mask }
/-- A alone. -/
def formVA1 (op : VOp) (v : VA1) : VForm := { op := op, a := some (.spec v.a v.pa), mask := v.mask }
/-- D, A, B. -/
def formVAB (op : VOp) (v : VAB) : VForm :=
  { op := op, d := some v.d, a := some (.spec v.a v.pa), b := some (.spec v.b v.pb), mask := v.mask }
/-- D, A, B, C. -/
def formVABC (op : VOp) (v : VABC) : VForm :=
  { op := op, d := some v.d, a := some (.spec v.a v.pa), b := some (.spec v.b v.pb), c := some (.spec v.c v.pc),
    mask := v.mask }
/-- The compact form (01 R32; 05 R119). -/
def formC (op : VOp) (n : Reg) : VForm := { op := op, d := some (.unit n), a := some .last, b := some .dest }
/-- D alone. -/
def formVD (op : VOp) (v : VD) : VForm := { op := op, d := some v.d, mask := v.mask }
/-- A pump instruction: its registers in imm32 in ascending bit order are xL, xP, xR. -/
def formPump (k : PKind) (p : PumpArgs) (rr : List Reg) (d a : Spec) : VForm :=
  { op := .pump k p.tag p.sz, d := some d, a := some (.spec a p.pol), mask := p.mask, imm := [p.xl, p.xp] ++ rr }

/-- The form of a vector instruction that elements execute; none for every other instruction. -/
def vform : Instr → Option VForm
  | .cVadd n => some (formC (.ibin .add) n)
  | .cVsub n => some (formC (.ibin .sub) n)
  | .cVmul n => some (formC (.ibin .mul) n)
  | .cVand n => some (formC (.ibin .and) n)
  | .cVor n => some (formC (.ibin .or) n)
  | .cVxor n => some (formC (.ibin .xor) n)
  | .cVmin n => some (formC (.ibin .min) n)
  | .cVmax n => some (formC (.ibin .max) n)
  | .cVminu n => some (formC (.ibin .minu) n)
  | .cVmaxu n => some (formC (.ibin .maxu) n)
  | .cVfadd n => some (formC (.fbin .add) n)
  | .cVfmul n => some (formC (.fbin .mul) n)
  | .cVfmin n => some (formC (.fbin .min) n)
  | .cVfmax n => some (formC (.fbin .max) n)
  | .cVmand n => some (formC (.mbin .and) n)
  | .cVmor n => some (formC (.mbin .or) n)
  | .cVmxor n => some (formC (.mbin .xor) n)
  | .cVmandn n => some (formC (.mbin .andn) n)
  | .vadd v => some (formVAB (.ibin .add) v)
  | .vsub v => some (formVAB (.ibin .sub) v)
  | .vrsub v => some (formVAB (.ibin .rsub) v)
  | .vmul v => some (formVAB (.ibin .mul) v)
  | .vmulh v => some (formVAB (.ibin .mulh) v)
  | .vmulhu v => some (formVAB (.ibin .mulhu) v)
  | .vdiv v => some (formVAB (.ibin .div) v)
  | .vdivu v => some (formVAB (.ibin .divu) v)
  | .vrem v => some (formVAB (.ibin .rem) v)
  | .vmin v => some (formVAB (.ibin .min) v)
  | .vmax v => some (formVAB (.ibin .max) v)
  | .vminu v => some (formVAB (.ibin .minu) v)
  | .vmaxu v => some (formVAB (.ibin .maxu) v)
  | .vand v => some (formVAB (.ibin .and) v)
  | .vor v => some (formVAB (.ibin .or) v)
  | .vxor v => some (formVAB (.ibin .xor) v)
  | .vandn v => some (formVAB (.ibin .andn) v)
  | .vsll v => some (formVAB (.ibin .sll) v)
  | .vsrl v => some (formVAB (.ibin .srl) v)
  | .vsra v => some (formVAB (.ibin .sra) v)
  | .vadc v => some (formVABC (.carry false false) v)
  | .vadcCo v => some (formVABC (.carry false true) v)
  | .vsbc v => some (formVABC (.carry true false) v)
  | .vsbcCo v => some (formVABC (.carry true true) v)
  | .vcmp c v => some (formVAB (.icmp c) v)
  | .vmerge v => some (formVAB .merge v)
  | .vmv v => some (formVA .mv v)
  | .vdots v => some (formVABC .dots v)
  | .vscan o v => some (formVA (.scan o) v)
  | .vfadd v => some (formVAB (.fbin .add) v)
  | .vfsub v => some (formVAB (.fbin .sub) v)
  | .vfmul v => some (formVAB (.fbin .mul) v)
  | .vffma v => some (formVABC .ffma v)
  | .vfdiv v => some (formVAB (.fbin .div) v)
  | .vfsqrt v => some (formVA .fsqrt v)
  | .vfmin v => some (formVAB (.fbin .min) v)
  | .vfmax v => some (formVAB (.fbin .max) v)
  | .vfcmp c v => some (formVAB (.fcmp c) v)
  | .vexp2 v => some (formVA (.spec .exp2) v)
  | .vlog2 v => some (formVA (.spec .log2) v)
  | .vrcp v => some (formVA (.spec .rcp) v)
  | .vrsq v => some (formVA (.spec .rsq) v)
  | .vtanh v => some (formVA (.spec .tanh) v)
  | .vsin v => some (formVA (.spec .sin) v)
  | .vcos v => some (formVA (.spec .cos) v)
  | .vredsum v => some (formVA (.red .sum) v)
  | .vredmax v => some (formVA (.red .max) v)
  | .vredmin v => some (formVA (.red .min) v)
  | .vredand v => some (formVA (.red .and) v)
  | .vredor v => some (formVA (.red .or) v)
  | .vredxor v => some (formVA (.red .xor) v)
  | .vslideup cnt v => some { formVA (.slide true) v with b := some (.spec (.scal cnt) false) }
  | .vslidedn cnt v => some { formVA (.slide false) v with b := some (.spec (.scal cnt) false) }
  | .vmand v => some (formVAB (.mbin .and) v)
  | .vmor v => some (formVAB (.mbin .or) v)
  | .vmxor v => some (formVAB (.mbin .xor) v)
  | .vmandn v => some (formVAB (.mbin .andn) v)
  | .vmnot v => some (formVA (.mbin .not) v)
  | .vmpop rd v => some { formVA1 (.mscal .pop) v with d := some (.scal rd) }
  | .vmfirst rd v => some { formVA1 (.mscal .first) v with d := some (.scal rd) }
  | .vmlast rd v => some { formVA1 (.mscal .last) v with d := some (.scal rd) }
  | .vmany rd v => some { formVA1 (.mscal .any) v with d := some (.scal rd) }
  | .vgauss v => some (formVA (.gauss false) v)
  | .vgaussPert v => some (formVA (.gauss true) v)
  | .vrand v => some (formVA (.rand false) v)
  | .vrandSr v => some (formVA (.rand true) v)
  | .vld o v => some (formVA (.vld o) v)
  | .vst o v => some (formVA (.vst o) v)
  | .vstx o v => some (formVA (.vstx o) v)
  | .vamo op o v => some (formVAB (.amo op o) v)
  | .vcas o v => some (formVABC (.cas o) v)
  | .vempty v => some (formVD .empty v)
  | .vfill v => some (formVD .fill v)
  | .vwait rt v => some { formVAB .wait v with c := some (.spec (.scal rt) false) }
  | .vown v => some (formVA .own v)
  | .vidx d st sp => some { op := .idx st sp, d := some d }
  | .vmsh d a k => some { op := .msh k, d := some d, a := some (.spec a false) }
  | .vcvt src d a => some { op := .cvt src, d := some d, a := some (.spec a false) }
  | .accin h a pol mask arow acol nc =>
    some { op := .accin arow acol nc, d := some (.scal h), a := some (.spec a pol), mask := mask }
  | .drain clr h d mask arow acol nc =>
    some { op := .drain clr arow acol nc, d := some d, a := some (.spec (.scal h) false), mask := mask }
  | .pcopy p d a => some (formPump .copy p [] d a)
  | .pgath p rr d a => some (formPump .gath p [rr] d a)
  | .pscat p rr d a => some (formPump .scat p [rr] d a)
  | .prdc p d a => some (formPump .rdc p [] d a)
  | .pfill p d a => some (formPump .fill p [] d a)
  | _ => none

/-! ## Element types of the operands -/

/-- The source type of VCVT (07 R197). -/
def srcTy (s : SrcType) : ETy := etyOf s.code.toNat s.prec.toNat

/-- The type of a pump instruction's elements: its size code, a row of r bytes, or EW for PRDC (11 R283, R284). -/
def pumpTy (k : PKind) (sz : BitVec 3) (r : Nat) (ty : ETy) : ETy := match k with
  | .copy | .fill => .int (2 ^ sz.toNat) false
  | .gath | .scat => .int r false
  | .rdc => ty

/-- Type of D's elements. -/
def VOp.tyD (o : VOp) (r : Nat) (ty : ETy) : ETy := match o with
  | .carry _ true | .icmp _ | .fcmp _ | .mbin _ | .msh _ | .wait => .n1
  | .dots => .w48
  | .own => .int 8 false
  | .pump k _ sz => pumpTy k sz r ty
  | _ => ty

/-- Type of A's elements. -/
def VOp.tyA (o : VOp) (r : Nat) (ty : ETy) : ETy := match o with
  | .cvt s => srcTy s
  | .mbin _ | .mscal _ | .msh _ => .n1
  | .gauss _ | .rand _ => .int 8 false
  | .pump k _ sz => pumpTy k sz r ty
  | _ => ty

/-- Type of B's elements. -/
def VOp.tyB (o : VOp) (ty : ETy) : ETy := match o with
  | .mbin _ => .n1
  | .slide _ => .int 8 false
  | _ => ty

/-- Type of C's elements. -/
def VOp.tyC (o : VOp) (ty : ETy) : ETy := match o with
  | .carry _ _ => .n1
  | .dots => .w48
  | _ => ty

/-! ## Captured values (15 R377) -/

/-- The register that a specifier names. -/
def specReg : Spec → Reg
  | .unit r | .stride r | .index r | .scal r => r

/-- The value of x(N+1) where a specifier uses it, else 0: a unit-stride operand uses it for the scale array of mx4 alone
(07 R199). -/
def Seq.auxOf (q : Seq) (t : ETy) : Spec → Word
  | .scal _ => 0
  | .unit r => if t == .mx4 && r != 31 then q.getX (regNext r) else 0
  | s => q.getX (regNext (specReg s))

/-- xN of a source. -/
def Seq.srcX (q : Seq) : Option Src → Word
  | some (.spec s _) => q.getX (specReg s)
  | _ => 0

/-- x(N+1) of a source of a type. -/
def Seq.srcAux (q : Seq) (t : ETy) : Option Src → Word
  | some (.spec s _) => q.auxOf t s
  | _ => 0

/-- The address of the selected mask (01 R25). -/
def Seq.maskOf (q : Seq) : MSel → Word
  | .none => 0
  | .cmask0 | .notCmask0 => q.cmask0 &&& 0xFFFFFFFFFFFF
  | .cmask1 => q.cmask1 &&& 0xFFFFFFFFFFFF

/-- The nine captured words of a form. -/
def Seq.capture (q : Seq) (f : VForm) : List Word :=
  let t := vtTy q.vtype
  [(f.d.map fun s => q.getX (specReg s)).getD 0, (f.d.map (q.auxOf (f.op.tyD 0 t))).getD 0, q.srcX f.a,
    q.srcAux (f.op.tyA 0 t) f.a, q.srcX f.b, q.srcX f.c] ++ (f.imm.map q.getX ++ [0, 0, 0]).take 3

/-- The entry that issuing an instruction with a form makes. -/
def Seq.entryOf (q : Seq) (i : Instr) (f : VForm) (sdest : Option Reg) : Entry :=
  { isn := q.isn, pc := q.pc, ins := i, cap := q.capture f, capB1 := q.srcAux (f.op.tyB (vtTy q.vtype)) f.b,
    capC1 := q.srcAux (f.op.tyC (vtTy q.vtype)) f.c, vl := q.vl,
    vtype := q.vtype, maskAddr := q.maskOf f.mask, cvalid := q.cvalid, cgkey := q.cgkey, cgdraw := q.cgdraw,
    cldL := q.cld &&& 0xFFFFFFFFFFFF, sdest := sdest, token := 0, gs := List.replicate q.g ⟨0, false, [], false⟩, pulled := [],
    waves := q.g, flags := 0, owners := [], odd := [] }

/-- Captured word k of an entry. -/
def Entry.w (e : Entry) (k : Nat) : Word := (e.cap[k]?).getD 0

/-! ## Operands at run time -/

/-- An operand: its mode, xN, x(N+1) and policy. -/
structure Opd where
  spec : Spec
  base : Word
  aux : Word
  pol : Bool
  deriving DecidableEq, Repr

/-- D of an entry. -/
def Entry.opdD (e : Entry) (f : VForm) : Option Opd := f.d.map fun s => ⟨s, e.w 0, e.w 1, false⟩

/-- A source of an entry from its captured words. -/
def Entry.opdSrc (e : Entry) (s : Option Src) (x aux : Word) : Option Opd := match s with
  | some (.spec s p) => some ⟨s, x, aux, p⟩
  | some .last => some ⟨.unit 0, e.cldL, 0, false⟩
  | some .dest => some ⟨.unit 0, e.w 0, 0, false⟩
  | none => none

/-- A of an entry. -/
def Entry.opdA (e : Entry) (f : VForm) : Option Opd := e.opdSrc f.a (e.w 2) (e.w 3)
/-- B of an entry. -/
def Entry.opdB (e : Entry) (f : VForm) : Option Opd := e.opdSrc f.b (e.w 4) e.capB1
/-- C of an entry. -/
def Entry.opdC (e : Entry) (f : VForm) : Option Opd := e.opdSrc f.c (e.w 5) e.capC1

/-! ## Types and fields of an entry's operands -/

/-- R of PGATH and PSCAT: the row length in x[R] (11 R284). -/
def Entry.rowLen (e : Entry) : Nat := fld (e.w 8) 0 32
/-- The element type in force for an entry. -/
def Entry.ty (e : Entry) : ETy := vtTy e.vtype
/-- Type of D's elements of an entry. -/
def Entry.tyD (e : Entry) (f : VForm) : ETy := f.op.tyD e.rowLen e.ty
/-- Type of A's elements of an entry. -/
def Entry.tyA (e : Entry) (f : VForm) : ETy := f.op.tyA e.rowLen e.ty
/-- Type of B's elements of an entry. -/
def Entry.tyB (e : Entry) (f : VForm) : ETy := f.op.tyB e.ty
/-- Type of C's elements of an entry. -/
def Entry.tyC (e : Entry) (f : VForm) : ETy := f.op.tyC e.ty

/-- Elements of one line of a packed type, and of one block. -/
def ETy.per (t : ETy) : Nat := match t with
  | .n1 => 512
  | .ip p => ipN p
  | .blk w => blkN w
  | .mx4 => 128
  | .mld => 64
  | t => 64 / t.size

/-- Bits of an element. -/
def ETy.bits (t : ETy) : Nat := match t with
  | .n1 => 1
  | .ip p => p
  | .blk w => w
  | .mx4 => 4
  | t => 8 * t.size

/-- Lines of n elements at unit stride. -/
def ETy.lines (t : ETy) (n : Nat) : Nat := match t with
  | .ip _ | .blk _ => ceilDiv n t.per
  | t => ceilDiv (n * t.bits) 512

/-! ## Bytes of an element -/

/-- Byte offset and length of the field of element i of a vector, from its base (03 R61, R72, R73, R79; 01 R25). -/
def ETy.field (t : ETy) (i : Nat) : Nat × Nat := match t with
  | .n1 => (i / 8, 1)
  | .ip p =>
    let b := i % ipN p * p
    (64 * (i / ipN p) + b / 8, (b % 8 + p + 7) / 8)
  | .blk w =>
    let b := 16 + i % blkN w * w
    (64 * (i / blkN w) + b / 8, (b % 8 + w + 7) / 8)
  | .mx4 => (i / 2, 1)
  | t => (i * t.size, t.size)

/-- Bit offset of the field of element i in its first byte. -/
def ETy.bitOff (t : ETy) (i : Nat) : Nat := match t with
  | .n1 => i % 8
  | .ip p => i % ipN p * p % 8
  | .blk w => (16 + i % blkN w * w) % 8
  | .mx4 => 4 * (i % 2)
  | _ => 0

/-- The spans of bytes that a read of element i examines, given its address in modes 01 and 10: a block's header word
precedes the mantissa, an mx4 element's scale byte follows it. -/
def Opd.spans (o : Opd) (t : ETy) (i : Nat) (at_ : Word) : List (Nat × Nat) :=
  match t with
  | .blk _ => [((o.base + toWord (64 * (i / t.per))).toNat, 2), ((o.base + toWord (t.field i).1).toNat, (t.field i).2)]
  | .mx4 => [((o.base + toWord (i / 2)).toNat, 1), ((o.aux + toWord (i / 32)).toNat, 1)]
  | .n1 | .ip _ => [((o.base + toWord (t.field i).1).toNat, (t.field i).2)]
  | t => [(at_.toNat, t.size)]

/-- The address of element i of an operand, its index entry given (08 R210, R211; 01 R24). -/
def Opd.at (o : Opd) (t : ETy) (i : Nat) (ix : Int) : Word := match o.spec with
  | .unit _ => o.base + toWord (t.field i).1
  | .stride _ => o.base + toWord i * o.aux
  | .index _ => o.base + intWord ix
  | .scal _ => 0

/-- The raw bits of element i from the bytes of its spans; a blk element is its scale and mantissa, with 2^20 for a
NaN block and 0 for a zero block; an mx4 element is its scale above its nibble. -/
def ETy.raw (t : ETy) (i : Nat) (bs : List (List Byte)) : Nat :=
  let m := ofBytes ((bs[0]?).getD [])
  let k := ofBytes ((bs[1]?).getD [])
  match t with
  | .n1 => bitsAt m (i % 8) 1
  | .ip p => bitsAt m (t.bitOff i) p
  | .blk w => if m % 8 = 0 then 0 else if m / 256 = 255 then 2 ^ 20 else m / 256 * 256 + bitsAt k (t.bitOff i) w
  | .mx4 => k * 16 + bitsAt m (t.bitOff i) 4
  | _ => m

/-- The value of raw bits. -/
def ETy.val (t : ETy) (r : Nat) : Val := match t with
  | .n1 => .num (Ex.ofInt (r % 2))
  | .int w s => .num (Ex.ofInt (if s then signedOf (8 * w) r else (r % 2 ^ (8 * w) : Nat)))
  | .ip p => .num (Ex.ofInt (signedOf p r))
  | .flt f => f.decode (r % 2 ^ f.bits)
  | .w48 => Fmt.w48.decode (r % 2 ^ 48)
  | .blk w => if r ≥ 2 ^ 20 then .nan false else .num (blkVal (signedOf w (r % 2 ^ w)) w (r / 256))
  | .mx4 =>
    if r / 16 = 255 then .nan false
    else
      let n := r % 16
      let m := if n / 2 % 4 = 0 then n % 2 else (2 + n % 2) * 2 ^ (n / 2 % 4 - 1)
      .num ⟨n ≥ 8, m, (r / 16 : Nat) - 128, false⟩
  | .mld => .nan false

/-- The integer value of raw bits in a type's own signedness. -/
def ETy.intVal (t : ETy) (r : Nat) : Int := match t with
  | .int w s => if s then signedOf (8 * w) r else (r % 2 ^ (8 * w) : Nat)
  | .ip p => signedOf p r
  | _ => r

/-- The value of a mode-11 source as raw bits (07 R180); a blk one is an fp32 pattern. -/
def scalRaw (t : ETy) (x : Word) : Nat := match t with
  | .n1 => x.toNat % 2
  | .ip p => x.toNat % 2 ^ p
  | .blk _ => x.toNat % 2 ^ 32
  | .w48 => x.toNat
  | t => x.toNat % 2 ^ (8 * t.size)

/-- The value of a mode-11 source. -/
def scalVal (t : ETy) (r : Nat) : Val := match t with
  | .blk _ => Fmt.fp32.decode r
  | t => t.val r

/-! ## Ownership (02 R45) -/

/-- The window line of a virtual address of the window. -/
def Seq.lineVa (q : Seq) (va : Nat) : Option Nat :=
  if q.winVa ≤ va && va < q.winVa + twoMB * q.g then some ((va - q.winVa) / 64) else none

/-- The group that owns the line of a virtual address of the window. -/
def Seq.ownerVa (q : Seq) (va : Nat) : Option Nat := (q.lineVa va).map (· % q.g)

/-- The line of an element's home. -/
def homeLine (t : ETy) (i : Nat) : Nat := match t with
  | .mx4 => i / 2 / 64
  | .mld => i / 64
  | .blk _ | .ip _ => i / t.per
  | t => (t.field i).1 / 64

/-- The memory operand that decides ownership, with its type: A for the instructions that a source owner executes, D
when it is a vector in memory, else the first memory source. -/
def deciding (e : Entry) (f : VForm) : Option (Opd × ETy) :=
  let mem := fun (o : Option Opd) (t : ETy) => match o with
    | some o => match o.spec with
      | .scal _ => none
      | _ => some (o, t)
    | none => none
  let srcs := (mem (e.opdA f) (e.tyA f)).orElse fun _ => (mem (e.opdB f) (e.tyB f)).orElse fun _ =>
    mem (e.opdC f) (e.tyC f)
  match f.op with
  | .vst _ | .vstx _ | .accin .. | .pump .scat .. => mem (e.opdA f) (e.tyA f)
  | .dots | .red _ => srcs
  | _ => (mem (e.opdD f) (e.tyD f)).orElse fun _ => srcs

end Sys2Proof.Machine
end

