-- ==== Sys2Proof/Machine/ScalarFp.lean ====
section
/-!
DEFINITION. Scalar floating point (spec/06_scalar.md R145 to R149).
-/
namespace Sys2Proof.Machine

/-- The format of a type suffix. -/
def FType.fmt : FType → Fmt
  | .bf16 => Fmt.bf16
  | .fp16 => Fmt.fp16
  | .fp32 => Fmt.fp32
  | .fp64 => Fmt.fp64

/-- An operand of a register: its low bits as a value (R145). -/
def fOperand (t : FType) (x : Word) : Val := (FType.fmt t).decode (x.toNat % 2 ^ (FType.fmt t).bits)

/-- A result delivered into the low bits under vtype, the rest zero, and its flags (R145, R146). -/
def fDeliver (t : FType) (vtype : Word) (r : Val × Nat) : Word × Nat :=
  let p := roundW (FType.fmt t) (rndScalar vtype) r.1
  (toWord p.1, r.2 ||| p.2)

/-- An instruction that writes rd and raises flags when it completes (R146; 03 R71). -/
def scalarFp (i : Instr) (rd : Reg) (f : Seq → Word × Nat) (s : State) : Res :=
  issue i (fun n => do
    let q ← getSeq n
    let r := f q
    modSeqOp n fun q => (q.setX rd r.1).raise r.2
    pure .next) s

/-- A two-operand operation. -/
def fp2 (i : Instr) (t : FType) (rd ra rb : Reg) (op : Nat → Val → Val → Val × Nat) (s : State) : Res :=
  scalarFp i rd (fun q => fDeliver t q.vtype
    (op (rndScalar q.vtype).mode (fOperand t (q.getX ra)) (fOperand t (q.getX rb)))) s

/-- FADD (R146). -/
def execFadd (t : FType) (rd ra rb : Reg) (s : State) : Res := fp2 (.fadd t rd ra rb) t rd ra rb fAdd s
/-- FSUB (R146). -/
def execFsub (t : FType) (rd ra rb : Reg) (s : State) : Res := fp2 (.fsub t rd ra rb) t rd ra rb fSub s
/-- FMUL (R146). -/
def execFmul (t : FType) (rd ra rb : Reg) (s : State) : Res := fp2 (.fmul t rd ra rb) t rd ra rb (fun _ => fMul) s
/-- FDIV (R146). -/
def execFdiv (t : FType) (rd ra rb : Reg) (s : State) : Res := fp2 (.fdiv t rd ra rb) t rd ra rb (fun _ => fDiv) s

/-- FFMA (R146): xd := xa·xb + xd with one rounding. -/
def execFfma (t : FType) (rd ra rb : Reg) (s : State) : Res :=
  scalarFp (.ffma t rd ra rb) rd (fun q => fDeliver t q.vtype
    (fFma (rndScalar q.vtype).mode (fOperand t (q.getX ra)) (fOperand t (q.getX rb)) (fOperand t (q.getX rd)))) s

/-- FSQRT (R146). -/
def execFsqrt (t : FType) (rd ra : Reg) (s : State) : Res :=
  scalarFp (.fsqrt t rd ra) rd (fun q => fDeliver t q.vtype (fSqrt (fOperand t (q.getX ra)))) s

/-- The minimum (or with `hi` the maximum) of two patterns: -0 below +0, the other operand for one NaN, the canonical
NaN for two, NV for a signalling NaN alone (R147). -/
def fMinMax (f : Fmt) (hi : Bool) (a b : Nat) : Nat × Nat :=
  let x := f.decode a
  let y := f.decode b
  let nv := sigNV x ||| sigNV y
  match x.isNan, y.isNan with
  | true, true => (f.nan, nv)
  | true, false => (b, nv)
  | false, true => (a, nv)
  | false, false => (if (if hi then x.below y else y.below x) then b else a, nv)

/-- FMIN and FMAX. -/
def fpMinMax (i : Instr) (hi : Bool) (t : FType) (rd ra rb : Reg) (s : State) : Res :=
  scalarFp i rd (fun q =>
    let m := 2 ^ (FType.fmt t).bits
    let r := fMinMax (FType.fmt t) hi ((q.getX ra).toNat % m) ((q.getX rb).toNat % m)
    (toWord r.1, r.2)) s

/-- FMIN (R147). -/
def execFmin (t : FType) (rd ra rb : Reg) (s : State) : Res := fpMinMax (.fmin t rd ra rb) false t rd ra rb s
/-- FMAX (R147). -/
def execFmax (t : FType) (rd ra rb : Reg) (s : State) : Res := fpMinMax (.fmax t rd ra rb) true t rd ra rb s

/-- A comparison and its flags (R148). -/
def fCompare (c : FCond) (a b : Val) : Bool × Nat :=
  let un := a.isNan || b.isNan
  match c with
  | .eq => (!un && a.eqv b, sigNV a ||| sigNV b)
  | .lt => (!un && a.lt b, if un then flNV else 0)
  | .le => (!un && (a.lt b || a.eqv b), if un then flNV else 0)
  | .un => (un, sigNV a ||| sigNV b)

/-- FCMP (R148). -/
def execFcmp (c : FCond) (t : FType) (rd ra rb : Reg) (s : State) : Res :=
  scalarFp (.fcmp c t rd ra rb) rd (fun q =>
    let r := fCompare c (fOperand t (q.getX ra)) (fOperand t (q.getX rb))
    (boolWord r.1, r.2)) s

/-- The floating-point type of a conversion code. -/
def CvtType.fmt? : CvtType → Option FType
  | .bf16 => some .bf16
  | .fp16 => some .fp16
  | .fp32 => some .fp32
  | .fp64 => some .fp64
  | .i64 | .n64 => none

/-- The value that FCVT reads (R145, R149). -/
def cvtRead (src : CvtType) (x : Word) : Val :=
  match CvtType.fmt? src with
  | some t => fOperand t x
  | none => .num (Ex.ofInt (if src = .i64 then x.toInt else x.toNat))

/-- What FCVT writes, and its flags (R149; 03 R63, R69). -/
def cvtWrite (dst : CvtType) (vtype : Word) (v : Val) : Word × Nat :=
  match CvtType.fmt? dst with
  | some t => fDeliver t vtype (v, sigNV v)
  | none =>
    let r := if dst = .i64 then roundInt (rndScalar vtype) (-2 ^ 63) (2 ^ 63 - 1) v
      else roundInt (rndScalar vtype) 0 (2 ^ 64 - 1) v
    (intWord r.1, r.2)

/-- FCVT (R149). -/
def execFcvt (dst src : CvtType) (rd ra : Reg) (s : State) : Res :=
  scalarFp (.fcvt dst src rd ra) rd (fun q => cvtWrite dst q.vtype (cvtRead src (q.getX ra))) s

end Sys2Proof.Machine
end

