-- ==== Sys2Proof/Machine/Compute.lean ====
section
/-!
DEFINITION. What each vector compute instruction makes of its elements (spec/07_vector_compute.md R183, R187 to R209;
spec/03_numbers.md R81 to R88; spec/04_generator.md R91 to R94, R99), and the types that each accepts.
-/
namespace Sys2Proof.Machine

/-! ## Types accepted -/

/-- Class I, F or P of 07 R179. -/
def ETy.clsI : ETy → Bool
  | .int _ _ => true
  | _ => false
/-- Class F. -/
def ETy.clsF : ETy → Bool
  | .flt _ | .w48 => true
  | _ => false
/-- Class P. -/
def ETy.clsP : ETy → Bool
  | .ip _ => true
  | _ => false
/-- The block type. -/
def ETy.isBlk : ETy → Bool
  | .blk _ => true
  | _ => false
/-- mld or mx4. -/
def ETy.isMx : ETy → Bool
  | .mld | .mx4 => true
  | _ => false

/-- VCVT's pairs (07 R198). -/
def cvtOk (src dst : ETy) : Bool :=
  let ip := fun (t : ETy) => t.clsI || t.clsP
  let nm := fun (t : ETy) => ip t || t.clsF || t.isBlk
  match src, dst with
  | .n1, .n1 => false
  | .n1, d => ip d
  | s, .n1 => ip s
  | .mx4, .mx4 => false
  | .mx4, d => nm d
  | s, .mx4 => nm s
  | s, d => nm s && nm d

/-- The element types that an instruction accepts (07 R187 to R209; 08 R216 to R229; 10 R271, R272). -/
def VOp.accepts (o : VOp) (t : ETy) : Bool := match o with
  | .ibin .add | .ibin .sub | .ibin .rsub | .ibin .mul | .ibin .min | .ibin .max | .ibin .and | .ibin .or
  | .ibin .xor | .ibin .andn | .ibin .sll | .ibin .sra | .idx _ _ => t.clsI || t.clsP
  | .ibin _ | .carry _ _ => t.clsI
  | .icmp .ltu | .icmp .geu => t.clsI
  | .icmp _ => t.clsI || t.clsP
  | .fcmp _ => t.clsF || t.isBlk
  | .merge => t.clsI || t.clsF || t.clsP || t == .n1 || t.isBlk
  | .mv | .vld _ | .vst _ | .vstx _ | .empty | .fill => !t.isMx
  | .fbin .div | .fsqrt => t.clsF
  | .fbin _ | .ffma => t.clsF || t.isBlk
  | .spec _ => t == .flt Fmt.fp32
  | .cvt s => cvtOk (srcTy s) t
  | .dots => t == .flt Fmt.bf16 || t == .flt Fmt.fp16 || t.isBlk
  | .red .sum | .red .max | .red .min | .scan .sum | .scan .max | .scan .min => t.clsI || t.clsF || t.clsP
  | .red _ | .scan _ => t.clsI || t.clsP
  | .slide _ => !t.isBlk && !t.isMx
  | .mbin _ | .mscal _ | .msh _ => true
  | .gauss _ => t.clsF
  | .rand _ => t.clsI || t.isFlt
  | .amo _ _ | .cas _ => t.clsI && t.size ≥ 4
  | .wait => t.clsI
  | .own => !t.packed && !t.isMx
  | .accin .. | .drain .. => t.clsI || t.clsF || t.clsP || t.isBlk
  | .pump .. => true

/-! ## Element-wise results -/

/-- The exact result of an element before delivery, with the flags that reading raises: bits written as they are, an
integer, or a real. -/
inductive Out where
  | bits (n fl : Nat)
  | int (x : Int)
  | exact (v : Val) (fl : Nat)
  deriving DecidableEq, Repr

/-- A source element: raw bits and value. -/
structure Arg where
  raw : Nat
  val : Val
  deriving DecidableEq, Repr

/-- No source. -/
def Arg.none : Arg := ⟨0, .nan false⟩

/-- The two-operand integer operations (R187 to R189) on patterns of a type. -/
def intBin (o : IBin) (t : ETy) (a b : Nat) : Out :=
  let n := t.bits
  let m := 2 ^ n
  let a := a % m
  let ia := t.intVal a
  let ib := t.intVal b
  let sa := signedOf n a
  let sb := signedOf n b
  let ub := b % m
  match o with
  | .add => .int (ia + ib)
  | .sub => .int (ia - ib)
  | .rsub => .int (ib - ia)
  | .mul => .int (ia * ib)
  | .mulh => .bits (patOf n (sa * sb / (m : Int))) 0
  | .mulhu => .bits (a * ub / m) 0
  | .div => if ub = 0 then .bits (m - 1) 0 else .int (sa.tdiv sb)
  | .divu => if ub = 0 then .bits (m - 1) 0 else .int (a / ub : Nat)
  | .rem => if ub = 0 then .bits a 0 else .int (ia.tmod ib)
  | .min => .bits (if sb < sa then ub else a) 0
  | .max => .bits (if sa < sb then ub else a) 0
  | .minu => .bits (min a ub) 0
  | .maxu => .bits (max a ub) 0
  | .and => .bits (a &&& ub) 0
  | .or => .bits (a ||| ub) 0
  | .xor => .bits (a ^^^ ub) 0
  | .andn => .bits (a &&& (m - 1 - ub)) 0
  | .sll => .bits (if b ≥ n then 0 else a * 2 ^ b % m) 0
  | .srl => .bits (if b ≥ n then 0 else a / 2 ^ b) 0
  | .sra => .bits (patOf n (sa / ((2 ^ min b n : Nat) : Int))) 0

/-- VADC and VSBC on unsigned patterns of n bits (R190). -/
def carryOut (sub co : Bool) (n a b c : Nat) : Out :=
  let t : Int := if sub then (a : Int) - b - c else a + b + c
  .bits (if co then (if (if sub then t < 0 else t ≥ 2 ^ n) then 1 else 0) else patOf n t) 0

/-- VCMP's conditions (R191). -/
def intCond (c : ICond) (t : ETy) (a b : Nat) : Bool :=
  let n := t.bits
  match c with
  | .eq => a == b
  | .ne => a != b
  | .lt => signedOf n a < signedOf n b
  | .ge => signedOf n a ≥ signedOf n b
  | .ltu => a < b
  | .geu => a ≥ b

/-- VFCMP's conditions (R191; 06 R148). -/
def fltCond (c : VFCond) (a b : Val) : Bool × Nat := match c with
  | .eq => fCompare .eq a b
  | .ne => (!(fCompare .eq a b).1, (fCompare .eq a b).2)
  | .lt => fCompare .lt a b
  | .le => fCompare .le a b
  | .un => fCompare .un a b

/-- The minimum or maximum of two values (R195; 06 R147). -/
def valMinMax (hi : Bool) (x y : Val) : Val × Nat :=
  let nv := sigNV x ||| sigNV y
  match x.isNan, y.isNan with
  | true, true => (.nan false, nv)
  | true, false => (y, nv)
  | false, true => (x, nv)
  | false, false => (if (if hi then x.below y else y.below x) then y else x, nv)

/-- Two-operand floating-point operations (R195). -/
def fltBin (o : FBin) (mode : Nat) (a b : Val) : Val × Nat := match o with
  | .add => fAdd mode a b
  | .sub => fSub mode a b
  | .mul => fMul a b
  | .div => fDiv a b
  | .min => valMinMax false a b
  | .max => valMinMax true a b

/-- Mask operations on bits (R206). -/
def maskBin (o : MBin) (a b : Nat) : Nat := match o with
  | .and => a &&& b
  | .or => a ||| b
  | .xor => a ^^^ b
  | .andn => a &&& (1 - b)
  | .not => 1 - a

/-- Copying an element: a block's as its value, others as their bits (R192, R193). -/
def copyOut (t : ETy) (a : Arg) : Out := if t.isBlk then .exact a.val 0 else .bits a.raw 0

/-- VCVT (R198). -/
def cvtOut (s d : ETy) (a : Arg) : Out :=
  match d with
  | .n1 => .bits (if a.raw = 0 then 0 else 1) 0
  | _ => match s with
    | .n1 => .int (a.raw : Int)
    | .int _ _ | .ip _ => if d.clsI || d.clsP then .int (s.intVal a.raw) else .exact a.val 0
    | _ => .exact a.val (if d.clsI || d.clsP then 0 else sigNV a.val)

/-- The uniform of R94 for a type, from the low output word. -/
def uniform (t : ETy) (l : Word) : Nat := match t with
  | .int w _ => fld l 0 (8 * w)
  | .flt f =>
    let k := f.fb + 1
    (roundW f Rnd.rne (.num (Ex.ofScaled (fld l (64 - k) k) (-(k : Int))))).1
  | _ => 0

/-- A generator instruction's bits for an index (R209; 04 R91, R99). -/
def genOut (o : VOp) (t : ETy) (key cgdraw : Word) (ix : Word) : Nat := match o, t with
  | .gauss pert, .flt f =>
    (roundW f Rnd.rne (Fmt.fp32.decode (gaussOf key (ctrHiOf cgdraw (if pert then 1 else 4)) ix))).1
  | .gauss pert, .w48 =>
    (roundW Fmt.w48 Rnd.rne (Fmt.fp32.decode (gaussOf key (ctrHiOf cgdraw (if pert then 1 else 4)) ix))).1
  | .rand sr, t => uniform t (gen key (ctrHiOf cgdraw (if sr then 2 else 3)) ix).2
  | _, _ => 0

/-- The exact result of an element-wise instruction at element i; `scal` tells that A is in mode 11, `mbit` is the
selected mask bit of VMERGE. -/
def elemOut (o : VOp) (t : ETy) (e : Entry) (i : Nat) (scal mbit : Bool) (a b c : Arg) : Out :=
  let mode := vtRND e.vtype
  match o with
  | .ibin op => intBin op t a.raw b.raw
  | .carry sub co => carryOut sub co t.bits a.raw b.raw c.raw
  | .icmp cd => .bits (if intCond cd t a.raw b.raw then 1 else 0) 0
  | .fcmp cd =>
    let r := fltCond cd a.val b.val
    .bits (if r.1 then 1 else 0) r.2
  | .merge => copyOut t (if mbit then a else b)
  | .mv => if scal && t.clsF then .exact a.val 0 else copyOut t a
  | .idx st sp => .int (st.toInt + i * sp.toInt)
  | .fbin op =>
    let r := fltBin op mode a.val b.val
    .exact r.1 r.2
  | .ffma =>
    let r := fFma mode a.val b.val c.val
    .exact r.1 r.2
  | .fsqrt =>
    let r := fSqrt a.val
    .exact r.1 r.2
  | .spec f =>
    let r := specFn f a.val
    .exact r.1 r.2
  | .cvt s => cvtOut (srcTy s) t a
  | .mbin op => .bits (maskBin op a.raw b.raw) 0
  | .gauss _ | .rand _ => .bits (genOut o t e.cgkey e.cgdraw (toWord (if scal then a.raw + i else a.raw))) 0
  | _ => .bits a.raw 0

/-- Delivery into a type that is not written by blocks (R183). -/
def deliver (t : ETy) (rd : Rnd) (x : Out) : Nat × Nat := match x with
  | .bits n fl => (n, fl)
  | .int i => match t with
    | .int w s => deliverInt rd.sat (8 * w) s i
    | .ip p => deliverInt rd.sat p true i
    | _ => (i.toNat, 0)
  | .exact v fl => match t with
    | .flt f =>
      let r := roundW f rd v
      (r.1, fl ||| r.2)
    | .w48 =>
      let r := roundW Fmt.w48 rd v
      (r.1, fl ||| r.2)
    | .int w s =>
      let r := if s then roundInt rd (-2 ^ (8 * w - 1)) (2 ^ (8 * w - 1) - 1) v else roundInt rd 0 (2 ^ (8 * w) - 1) v
      (patOf (8 * w) r.1, fl ||| r.2)
    | .ip p =>
      let r := roundInt rd (-2 ^ (p - 1)) (2 ^ (p - 1) - 1) v
      (patOf p r.1, fl ||| r.2)
    | _ => (0, fl)

/-- The rounding of an index under an entry's vtype (03 R67). -/
def Entry.rnd (e : Entry) (i : Nat) : Rnd :=
  rndOf e.vtype (if vtRND e.vtype = 4 then srU e.cgkey e.cgdraw i else 0)

/-- The input that an exact result makes of a block's element. -/
def outVal (x : Out) : Val := match x with
  | .exact v _ => v
  | .int i => .num (Ex.ofInt i)
  | .bits _ _ => .nan false

/-- Flags of an exact result. -/
def outFl (x : Out) : Nat := match x with
  | .exact _ fl | .bits _ fl => fl
  | .int _ => 0

/-! ## Combining instructions -/

/-- One node of a reduction or scan: op of two elements, delivered (R202, R204). -/
def combine (o : RedOp) (t : ETy) (rd : Rnd) (x y : Nat) : Nat × Nat :=
  let fl := fun (r : Val × Nat) => deliver t rd (.exact r.1 r.2)
  match o with
  | .sum => if t.clsF then fl (fAdd rd.mode (t.val x) (t.val y)) else deliver t rd (.int (t.intVal x + t.intVal y))
  | .max => if t.clsF then fl (valMinMax true (t.val x) (t.val y)) else (if t.intVal x < t.intVal y then y else x, 0)
  | .min => if t.clsF then fl (valMinMax false (t.val x) (t.val y)) else (if t.intVal y < t.intVal x then y else x, 0)
  | .and => (x &&& y, 0)
  | .or => (x ||| y, 0)
  | .xor => (x ^^^ y, 0)

/-- The format of a floating-point type. -/
def ETy.fmt (t : ETy) : Fmt := match t with
  | .flt f => f
  | _ => Fmt.w48

/-- The result of an empty reduction (R203). -/
def redEmpty (o : RedOp) (t : ETy) : Nat :=
  let n := t.bits
  let signed := match t with
    | .int _ s => s
    | _ => true
  match o with
  | .max => if t.clsF then t.fmt.inf true else if signed then 2 ^ (n - 1) else 0
  | .min => if t.clsF then t.fmt.inf false else if signed then 2 ^ (n - 1) - 1 else 2 ^ n - 1
  | .and => 2 ^ n - 1
  | _ => 0

/-- One level of the tree (03 R86): pairs of present nodes combine; `node` is given the lowest leaf of the right
child. -/
def treeLevel (node : Nat → Nat → Nat → Nat × Nat) (span : Nat) : Nat → List (Option Nat) → List (Option Nat) × Nat
  | k, some x :: some y :: r =>
    let p := node ((2 * k + 1) * span) x y
    let q := treeLevel node span (k + 1) r
    (some p.1 :: q.1, p.2 ||| q.2)
  | k, x :: y :: r =>
    let q := treeLevel node span (k + 1) r
    ((x.orElse fun _ => y) :: q.1, q.2)
  | _, [x] => ([x], 0)
  | _, [] => ([], 0)

/-- The reduction tree over leaves, level by level. -/
def treeGo (node : Nat → Nat → Nat → Nat × Nat) : Nat → Nat → List (Option Nat) → Nat → Option Nat × Nat
  | 0, _, l, fl => (l.head?.bind id, fl)
  | fuel + 1, span, l, fl =>
    match l with
    | [] => (none, fl)
    | [x] => (x, fl)
    | l =>
      let q := treeLevel node span 0 l
      treeGo node fuel (2 * span) q.1 (fl ||| q.2)

/-- What element i of a combining instruction has pulled. -/
def Entry.got (e : Entry) (i : Nat) : Option (Nat × Nat) := smapGet i e.pulled

/-- The elements that a combining instruction has pulled, by index. -/
def Entry.leaves (e : Entry) : List (Option Nat) := (List.range e.vl).map fun i => (e.got i).map (·.1)

/-- An element as an arithmetic instruction reads it: a NaN becomes the canonical one, and a signalling one raises NV
(03 R63). -/
def leafOf (t : ETy) (r : Nat) : Nat × Nat :=
  if t.clsF && (t.val r).isNan then deliver t Rnd.rne (.exact (t.val r) (sigNV (t.val r))) else (r, 0)

/-- VRED's root and flags (R202, R203; 03 R63, R86). -/
def redResult (o : RedOp) (e : Entry) : Nat × Nat :=
  let t := e.ty
  let ls := e.leaves.map fun l => l.map (leafOf t)
  let fl := ls.foldl (fun a l => a ||| ((l.map (·.2)).getD 0)) 0
  let r := treeGo (fun ix x y => combine o t (e.rnd ix) x y) 17 1 (ls.map fun l => l.map (·.1)) fl
  (r.1.getD (redEmpty o t), r.2)

/-- VSCAN's values by element, and flags (R204; 03 R63). -/
def scanResult (o : RedOp) (e : Entry) : List (Nat × Nat) × Nat :=
  let t := e.ty
  let r := (List.range e.vl).foldl (fun (a : Option Nat × List (Nat × Nat) × Nat) i =>
    match e.got i, a.1 with
    | none, _ => a
    | some p, none =>
      let l := leafOf t p.1
      (some l.1, (i, l.1) :: a.2.1, a.2.2 ||| l.2)
    | some p, some s =>
      let v := combine o t (e.rnd i) s p.1
      (some v.1, (i, v.1) :: a.2.1, a.2.2 ||| v.2)) (none, [], 0)
  (r.2.1.reverse, r.2.2)

/-- The value of what VDOTS pulled of a source: a mode-11 one is read as R180 gives (log 79). -/
def dotVal (t : ETy) (o : Option Src) (r : Nat) : Val := match o with
  | some (.spec (.scal _) _) => scalVal t r
  | _ => t.val r

/-- VDOTS (R201): one slice after another from the starting value. -/
def dotsResult (e : Entry) (c : Nat) : Nat × Nat :=
  let t := e.ty
  let a := (vform e.ins).bind (·.a)
  let b := (vform e.ins).bind (·.b)
  (List.range (ceilDiv e.vl 32)).foldl (fun acc j =>
    let ps := (List.range 32).filterMap fun k => (e.got (32 * j + k)).map fun p => (dotVal t a p.1, dotVal t b p.2)
    let r := accumulate acc.1 (sliceVal t.isBlk ps)
    (r.1, acc.2 ||| r.2)) (c, 0)

/-- The scalars of the mask instructions (R207; 01 R31). -/
def mscalResult (o : MScal) (e : Entry) : Word :=
  let set := e.pulled.filterMap fun p => if p.2.1 = 1 then some p.1 else none
  match o with
  | .pop => toWord set.length
  | .first => match set.head? with
    | some i => toWord i
    | none => intWord (-1)
  | .last => match set.getLast? with
    | some i => toWord i
    | none => intWord (-1)
  | .any => if set.isEmpty then 0 else 1

/-- A reduction's root in an x register (R202): sign-extended for signed integers and ip. -/
def redScalar (t : ETy) (r : Nat) : Word := match t with
  | .int w true => intWord (signedOf (8 * w) r)
  | .ip p => intWord (signedOf p r)
  | _ => toWord r

/-! ## Weights (12 R326) -/

/-- The weight of a line of work on a type, which the bucket and the quota use: a floating reduction or scan adds or compares. R326
names floating add, multiply, compare, convert and move in one row: the model gives a move, a merge and a convert of every type its 2
(log 63). -/
def VOp.weight (o : VOp) (t : ETy) : Nat := match o with
  | .fbin .div | .fsqrt | .spec _ | .gauss _ | .rand _ | .ibin .div | .ibin .divu | .ibin .rem => 6
  | .ffma | .dots => 3
  | .fbin _ | .fcmp _ | .cvt _ | .mv | .merge => 2
  | .red _ | .scan _ => if t.clsF then 2 else 1
  | _ => 1

end Sys2Proof.Machine
end

