-- ==== Sys2Proof/Machine/VecElem.lean ====
section
/-!
DEFINITION. One element of a vector instruction in the group that owns it: activity (spec/01_notation.md R25, R26; 03
R75), the order of its checks (spec/07_vector_compute.md R185; 08 R212), its pulls, its result and its commit (07
R183, R184; 08 R220 to R229), and the order that its accesses keep with those of lower elements and instructions
(spec/02_machine.md R50; 08 R217, R218, R224, R226; 13 R333; 14 R347).
-/
namespace Sys2Proof.Machine

/-- The entry that a group of sequencer n is executing, and the element `at_` at which its accesses stand in the grant's
order. -/
structure ECx where
  n : Nat
  e : Entry
  f : VForm
  at_ : Nat
  deriving DecidableEq, Repr

/-- Run a move and keep the reason why it stopped. -/
def attempt {α : Type} (m : Op α) : Op (Except Stop α) := fun s => match m s with
  | .ok a s' => .ok (.ok a) s'
  | .error e s' => .ok (.error e) s'

/-! ## Where an operand may lie -/

/-- The places that an operand accepts; others raise TIER (02 R46 and the entries). -/
inductive Zone where
  | own | cist | notOwn | far | otherCist | cmw | ownOrFar | any | notHost
  deriving DecidableEq, Repr

/-- A translated address lies in a place that the operand accepts. -/
def zoneOk (z : Zone) (q : Seq) (p : Phys) : Bool :=
  let own := p.tier = 0 && q.inWin p.key
  match z with
  | .own => own
  | .cist => p.tier = 0
  | .notOwn => !own
  | .far => p.tier != 0
  | .otherCist => p.tier = 0 && !own
  | .cmw => p.tier ≤ 2
  | .ownOrFar => own || p.tier != 0
  | .any => true
  | .notHost => p.tier != 3

/-- A source operand of one element: its spans, its policy and its places. -/
structure SUse where
  spans : List (Nat × Nat)
  pol : Bool
  zone : Zone
  deriving DecidableEq, Repr

/-- A destination of one element. -/
structure DUse where
  spans : List (Nat × Nat)
  acc : Access
  zone : Zone
  deriving DecidableEq, Repr

/-- What the fabric brings from a key to a bank of die d costs: 1 from the same die, 4 from another (12 R326). -/
def fabricCost (key d : Nat) : Nat := if homeDie key != d then 4 else 1

/-! ## Pulls -/

/-- The sequencer that executes the entry. -/
def ECx.seq (x : ECx) : Op Seq := do return (← get).seq x.n

/-- A way to read the bytes of a translated span. -/
abbrev Pull := ECx → Bool → Nat → Nat → Phys → Op (List Byte)

/-- The bytes of a translated span as the instruction reads them (02 R46, R49, R57; 08 R215), whatever is ordered
before. -/
def pullNow : Pull := fun x pol va len p => do
  let q ← x.seq
  if p.tier = 0 then
    if q.inWin p.key then pullOwn x.n x.e.isn x.at_ va p.key len pol else readForeign va p.key len pol
  else readFar x.n va p.key len

/-- Read spans; a trap of one of them comes before a wait of another. -/
def pullAllBy (pull : Pull) (x : ECx) : List (Bool × Nat × Nat × Phys) → Option WaitKind → Op (List (List Byte))
  | [], none => pure []
  | [], some k => waitFor k
  | (pol, va, len, p) :: r, w => do
    match ← attempt (pull x pol va len p) with
    | .ok bs => return bs :: (← pullAllBy pull x r w)
    | .error (.wait k) => pullAllBy pull x r (w.orElse fun _ => some k)
    | .error e => throw e

/-- The line of element i's home. -/
def homeAt (x : ECx) (i : Nat) : Nat := match x.f.op with
  | .pump .scat .. => homeLine (x.e.tyA x.f) i
  | _ => homeLine x.e.ty i

/-- The line whose bank executes the element at which the accesses stand, as far as it has been found (02 R41, R45). -/
def ECx.line (x : ECx) (q : Seq) : Nat := match deciding x.e x.f with
  | some (o, t) => match o.spec with
    | .index _ => (smapGet x.at_ x.e.owners).getD (homeAt x x.at_)
    | _ => (q.lineVa (o.at t x.at_ 0).toNat).getD (homeAt x x.at_)
  | none => homeAt x x.at_

/-- That bank, as its physical group and its number there. -/
def ECx.place (x : ECx) (q : Seq) : Place := (q.groups[x.line q % q.g]?).map fun g => (g, x.line q / q.g % 16)

/-- Translate for an access of the bank. -/
def xlV (x : ECx) (va : Nat) (acc : Access) : Op Xl := do
  let q ← x.seq
  xlateOp x.n (dieOf x.n) q.ctx va acc (x.place q)

/-! ## Index vectors (08 R210, R212 steps 1 to 3) -/

/-- The address of entry i of the index vector of an operand. -/
def Opd.indexVa (o : Opd) (i : Nat) : Nat := (o.aux + toWord (4 * i)).toNat

/-- The value of an entry; row numbers of PGATH and PSCAT are unsigned (11 R286). -/
def indexVal (x : ECx) (bs : List Byte) : Int := match x.f.op with
  | .pump .gath .. | .pump .scat .. => (ofBytes bs : Int)
  | _ => signedOf 32 (ofBytes bs)

/-- Put together the entries that have been pulled and those that lie outside the cistern. -/
def indexJoin (x : ECx) (m : Mem) : List (Nat × Phys) → List (List Byte) → List (Int × Option Nat)
  | [], _ => []
  | (va, p) :: r, bs =>
    if p.tier = 0 then (indexVal x (bs.headD []), none) :: indexJoin x m r bs.tail
    else (indexVal x (m.read p.key 4), some va) :: indexJoin x m r bs

/-- Entries of the index vectors of several operands, each of steps 1 to 3 for all of them before the next (R212). An entry
outside the cistern is read as it stands, so that the element's later checks come before its TIER, and its address is
answered with it (log 85). -/
def indexesBy (pull : Pull) (x : ECx) (os : List (Opd × Nat)) : Op (List (Int × Option Nat)) := do
  let vas := os.map fun p => p.1.indexVa p.2
  let xs ← vas.mapM fun va => do
    match ← xlV x va .load with
    | .ok p => pure (some p)
    | .prot => pure none
    | _ => trapWith 0x07 va
  let ps ← (vas.zip xs).mapM fun p => match p.2 with
    | some k => do
      if k.tier = 0 then needRoute (dieOf x.n) p.1 k
      pure (p.1, k)
    | none => trapWith 0x08 p.1
  let rd := (os.zip ps).filterMap fun p => if p.2.2.tier = 0 then some (p.1.1.pol, p.2.1, 4, p.2.2) else none
  let bs ← pullAllBy pull x rd none
  let s ← get
  pure (indexJoin x s.mem ps bs)

/-- Entry i of the index vector of an operand as it can be read now; none when it cannot. -/
def peekIndex (s : State) (x : ECx) (o : Opd) (i : Nat) : Option Int :=
  match (indexesBy pullNow x [(o, i)]).run s with
  | .ok v _ => v.head?.map (·.1)
  | .error _ _ => none

/-- Is an operand in mode 10. -/
def Opd.isIdx (o : Opd) : Bool := match o.spec with
  | .index _ => true
  | _ => false

/-- Is an operand in mode 11. -/
def Opd.isScal (o : Opd) : Bool := match o.spec with
  | .scal _ => true
  | _ => false

/-- The address of element i of an operand, if it can be told now. -/
def peekAt (s : State) (x : ECx) (o : Opd) (t : ETy) (i : Nat) : Option Nat :=
  if o.isScal then none
  else if o.isIdx then (peekIndex s x o i).map fun ix => (o.at t i ix).toNat
  else some (o.at t i 0).toNat

/-! ## Ownership (02 R45) -/

/-- The group of element i's home. -/
def homeOf (q : Seq) (x : ECx) (i : Nat) : Nat := homeAt x i % q.g

/-- The owner of element i: as it has been found, else as it can be told now; none when the index entry that decides it
cannot be read now (02 R45). -/
def ownerPeek (s : State) (x : ECx) (i : Nat) : Option Nat :=
  let q := s.seq x.n
  match deciding x.e x.f with
  | none => some (homeOf q x i)
  | some (o, t) => match (if o.isIdx then smapGet i x.e.owners else none) with
    | some l => some (l % q.g)
    | none => (peekAt s x o t i).map fun a => (q.ownerVa a).getD (homeOf q x i)

/-- The group at whose counter element i stands: its home's while an index entry that could not be read keeps it there, else
its owner (02 R45, R58). -/
def standsWith (s : State) (x : ECx) (i : Nat) : Nat :=
  if x.e.odd.contains i then homeOf (s.seq x.n) x i else (ownerPeek s x i).getD (homeOf (s.seq x.n) x i)

/-- Change an entry in flight. -/
def Seq.modEntry (q : Seq) (isn : BitVec 32) (f : Entry → Entry) : Seq :=
  { q with inflight := updFirst (fun e => e.isn == isn) f q.inflight }

/-- The owner that the index entry of element i gives, read once for all groups; none when the entry traps; a wait while it
cannot be read. -/
def entryOwner (x : ECx) (o : Opd) (t : ETy) (i : Nat) : Op (Option Nat) := do
  let q ← x.seq
  match ← attempt (indexesBy pullNow x [(o, i)]) with
  | .ok v =>
    let l := (q.lineVa (o.at t i ((v.head?.map (·.1)).getD 0)).toNat).getD (homeAt x i)
    modSeqOp x.n fun q => q.modEntry x.e.isn fun e => { e with owners := smapSet i l e.owners }
    return some (l % q.g)
  | .error (.trap _) => return none
  | .error e => throw e

/-- The group with which element i stands: its owner, or its home when the index entry that decides it traps; the element then
stays there until it has been executed (02 R45). -/
def ownerOf (x : ECx) (i : Nat) : Op Nat := do
  let s ← get
  let q := s.seq x.n
  match deciding x.e x.f with
  | some (o, t) =>
    if !o.isIdx || x.e.odd.contains i || (smapGet i x.e.owners).isSome then return standsWith s x i
    else match ← entryOwner x o t i with
      | some g => return g
      | none =>
        modSeqOp x.n fun q => q.modEntry x.e.isn fun e => { e with odd := nsetAdd i e.odd }
        return homeOf q x i
  | none => return homeOf q x i

/-! ## Order of accesses (02 R50; 08 R218, R224, R226; 13 R333; 14 R347) -/

/-- The ordering code of an instruction. -/
def ordCode : Instr → Ord
  | .vld o _ | .vst o _ | .vstx o _ | .vamo _ o _ | .vcas o _ | .amo _ o .. | .amocas o .. => o
  | _ => .none

/-- A release (08 R217). -/
def ordRel : Ord → Bool
  | .relDie | .relPkg | .scDie | .scPkg => true
  | _ => false
/-- An acquire. -/
def ordAcq : Ord → Bool
  | .acqDie | .acqPkg | .scDie | .scPkg => true
  | _ => false
/-- A sequentially consistent access. -/
def ordSc : Ord → Bool
  | .scDie | .scPkg => true
  | _ => false

/-- No group begins a later instruction before every group has completed this one: acquires (08 R217, R218), and
instructions one group of which writes words that another owns. -/
def blocksLater (e : Entry) : Bool :=
  ordAcq (ordCode e.ins) || (match vform e.ins with
    | some f => match f.op with
      | .amo _ _ | .cas _ | .pump .gath .. | .pump .scat .. => true
      | .cvt _ => e.ty == .mx4
      | .vld _ => e.ty.isBlk && fld e.cvalid 0 48 != 0
      | _ => false
    | none => false)

/-! ## Progress of groups (02 R48, R53; 15 R372) -/

/-- Change the progress of group g in an entry. -/
def Entry.modG (e : Entry) (g : Nat) (f : GCtr → GCtr) : Entry := { e with gs := e.gs.modify g f }

/-- The progress of group g in an entry. -/
def Entry.ctr (e : Entry) (g : Nat) : GCtr := (e.gs[g]?).getD ⟨0, true, [], false⟩

/-- The lowest ISN at which a group has raised an element trap. -/
def Seq.trapIsn (q : Seq) : Option (BitVec 32) :=
  minBy (fun a b => isnLt a b) (q.gtraps.map (·.isn))

/-- Nothing but a trap keeps group g from executing the entry: the wave (12 R325), the slip limit (02 R53), a release
or a combining completion is not considered here, and no lower instruction must end first (08 R217, R218). -/
def mayBegin (q : Seq) (g : Nat) (e : Entry) : Bool :=
  g < e.waves && (e.isn - q.low).toNat ≤ 8 && (!ordRel (ordCode e.ins) || q.allDoneBelow e.isn) &&
    !(q.inflight.any fun l => isnLt l.isn e.isn && blocksLater l)

/-- The first entry that group g has not completed. -/
def Seq.current (q : Seq) (g : Nat) : Option Entry := q.inflight.find? fun e => !(e.ctr g).fin

/-- A take or a stop that leaves instructions in flight. -/
def Seq.hardStop (q : Seq) : Bool := q.pend.any (·.hard)

/-- Once a trap or a hard take has stopped issue, a group runs in the instructions it had begun and in those up to the
trap's. -/
def mayRun (q : Seq) (g : Nat) (e : Entry) : Bool :=
  let begun := (e.ctr g).begun || (e.ctr g).next != 0
  match q.trapIsn with
  | none => !q.hardStop || begun
  | some t => !(q.gtraps.any fun x => x.grp == g) && (!isnLt t e.isn || begun)

/-! ## The energy-budget regime (12 R326) -/

/-- What waits for the bucket of die d still does: it stands where it stood, and nothing else keeps it there. -/
def stillWaits (s : State) (d : Nat) : Waiter → Bool
  | .lane n g isn =>
    let q := s.seq n
    q.mode == .run && (q.current g).any fun e => e.isn == isn && mayBegin q g e && mayRun q g e
  | .landing n run isn elem addr => s.landings.any fun l =>
      l.sq == n && l.runId == run && l.isn == isn && l.elem == elem && l.addr == addr
  | .drain idx => (engineGo s d idx).isSome && (engineHead s d idx).any MCmd.drains
  | .pump p id elem => (s.copies d p).any fun c => c.id == id && c.failed.isNone && c.ready.any (·.idx == elem) &&
      (c.runs.contains (c.run elem) || s.canBegin c.ctx)
  | .page n => s.runs (s.seq n).ctx && (s.seq n).grp.st == .open_ && (s.seq n).grp.cmds.head?.any fun m => m.began && m.onMatrix

/-- The bucket of die d gives the units of some lines, in the energy-budget regime: what has waited longest is served first. What
takes several lines at once takes no more than a full bucket holds, where that holds each of them (log 63). -/
def payUnits (s : State) (d : Nat) (w : Waiter) (costs : List Nat) : Option State :=
  let x := s.die d
  if !x.regime || costs.all (· == 0) then some s
  else
    let cost := max ((costs.max?).getD 0) (min costs.sum x.bucketCap)
    let turn := ((x.bankq.filter (stillWaits s d)).head?.map (· == w)).getD true
    if x.bucket < cost || !turn then none
    else some (s.setDie d { x with bucket := x.bucket - cost, bankq := x.bankq.filter (· != w) })

/-- The same inside a move. -/
def payOp (d : Nat) (w : Waiter) (costs : List Nat) : Op Unit := do
  match payUnits (← get) d w costs with
  | some s => set s
  | none => waitFor (.bucket d w)

/-- Something joins those that wait for a bucket; none when it waits already. -/
def joinBank (s : State) (d : Nat) (w : Waiter) : Option State :=
  let x := s.die d
  if x.bankq.contains w then none else some (s.setDie d { x with bankq := x.bankq.filter (stillWaits s d) ++ [w] })

/-! ## What an element accesses -/

/-- Element j of an entry may not have committed. -/
def pendingElem (s : State) (x : ECx) (j : Nat) : Bool :=
  x.e.odd.contains j || (match ownerPeek s x j with
    | some g => match x.e.gs[g]? with
      | some c => c.next ≤ j && !c.fin
      | none => false
    | none => true)

/-- Some element below i may not have committed. -/
def lowerPending (s : State) (x : ECx) (i : Nat) : Bool := (List.range i).any (pendingElem s x)

/-- The sources of element i of an instruction: the element of A moves for slides and shifts; VMERGE pulls the selected
operand only; none when nothing is pulled. -/
def sourcesOf (x : ECx) (i : Nat) (mb : Bool) : List (Option (Opd × ETy × Nat)) :=
  let a := (x.e.opdA x.f).map fun o => (o, x.e.tyA x.f, i)
  let b := (x.e.opdB x.f).map fun o => (o, x.e.tyB x.f, i)
  let c := (x.e.opdC x.f).map fun o => (o, x.e.tyC x.f, i)
  match x.f.op with
  | .merge => if mb then [a, none, none] else [none, b, none]
  | .slide up =>
    let k := (x.e.w 4).toNat
    if up then [a.map fun p => (p.1, p.2.1, i - k), none, none]
    else if i + k < x.e.vl then [a.map fun p => (p.1, p.2.1, i + k), none, none]
    else [none, none, none]
  | .msh k =>
    let j : Int := i - k.toInt
    if 0 ≤ j && j < x.e.vl then [a.map fun p => (p.1, p.2.1, j.toNat), none, none] else [none, none, none]
  | .dots => [a, b]
  | .own => []
  | _ => [a, b, c]

/-- The bytes at virtual addresses that element j of an operand takes, its index entry among them; none for what cannot be
told now. A block is taken whole. -/
def opdTouch (s : State) (x : ECx) (o : Opd) (t : ETy) (j : Nat) : List (Option (Nat × Nat)) :=
  let ix := if o.isIdx then [some (o.indexVa j, 4)] else []
  if o.isScal then []
  else ix ++ (match t with
    | .blk _ => [some ((o.base + toWord (64 * (j / t.per))).toNat, 64)]
    | .mx4 => (o.spans t j 0).map some
    | t => [(peekAt s x o t j).map fun a => (a, max 1 (t.field j).2)])

/-- The bytes that element j of an entry accesses on path V: its mask and validity bits and its operands; of a pump
instruction and of a DRAIN only what their groups read (14 R346). -/
def touches (s : State) (x : ECx) (j : Nat) : List (Option (Nat × Nat)) :=
  let bit := fun (b : Word) => ([some ((b + toWord (j / 8)).toNat, 1)] : List (Option (Nat × Nat)))
  let mask := match x.f.mask with
    | .none => []
    | _ => bit x.e.maskAddr
  let valid := if vtVCHK x.e.vtype && fld x.e.cvalid 0 48 != 0 then bit (toWord (fld x.e.cvalid 0 48)) else []
  let index := fun (o : Option Opd) => match o with
    | some o => if o.isIdx then [some (o.indexVa j, 4)] else []
    | none => []
  let ops := match x.f.op with
    | .pump .. => index (x.e.opdA x.f) ++ index (x.e.opdD x.f)
    | .drain .. => index (x.e.opdD x.f)
    | _ => (((sourcesOf x j true ++ sourcesOf x j false).filterMap id ++
        ((x.e.opdD x.f).map fun o => (o, x.e.tyD x.f, j)).toList).map fun p => opdTouch s x p.1 p.2.1 p.2.2).flatten
  mask ++ valid ++ ops

/-- Element j of an entry, when it has not committed, may access some of the n bytes at a key, or an SO page when `so`. -/
def elemTouches (s : State) (x : ECx) (key len : Nat) (so : Bool) (j : Nat) : Bool :=
  pendingElem s x j && (touches s x j).any fun t => match t with
    | none => true
    | some (va, l) => match probe s (dieOf x.n) (s.seq x.n).ctx va with
      | none => true
      | some p => rangesMeet p.key l key len || (so && p.kind == 0)

/-- A scalar access, which may stand in flight. -/
def scalarAccess : Instr → Bool
  | .ld .. | .st .. | .ldfe .. | .amo .. | .amocas .. | .cLd .. | .cSt .. => true
  | _ => false

/-- An element of a lower entry that has not committed may access some of the n bytes at a key, or an SO page when `so`; of
a scalar access in flight whose address has not been translated nothing is known. -/
def mayTouch (s : State) (n : Nat) (e : Entry) (key len : Nat) (so : Bool) : Bool :=
  if e.gs.all (·.fin) then false
  else match vform e.ins with
    | none => scalarAccess e.ins && (match e.pulled with
      | (_, k, l) :: _ => rangesMeet k 8 key len || (so && eKind (toWord l) == 0)
      | [] => true)
    | some f => (List.range e.vl).any (elemTouches s ⟨n, e, f, 0⟩ key len so)

/-- A landing of a lower instruction of the thread on an SO page has not arrived (13 R333). -/
def soLandingDue (s : State) (n : Nat) (isn : BitVec 32) : Bool :=
  s.landings.any fun l => l.so && l.sq == n && l.runId == (s.seq n).runId && isnLt l.isn isn

/-- Some lower element of the instruction has not committed and may access some of the n bytes at a key, or an SO page when
`so`. -/
def lowerTouches (s : State) (x : ECx) (key len : Nat) (so : Bool) : Bool :=
  (List.range x.at_).any (elemTouches s x key len so)

/-- An access to n bytes at a key must wait: for a lower instruction or a lower element of its own that may access the same
bytes, or, on an SO page, any SO page. -/
def mustFollow (s : State) (x : ECx) (key len kind : Nat) : Bool :=
  (s.seq x.n).inflight.any (fun e => isnLt e.isn x.e.isn && mayTouch s x.n e key len (kind == 0)) ||
    lowerTouches s x key len (kind == 0)

/-- An access outside the window, or on an SO page, keeps its place in the grant's order; within the window R49 orders the
others. -/
def needOrder (x : ECx) (p : Phys) (len : Nat) : Op Unit := do
  let s ← get
  if p.kind != 0 && p.tier = 0 && (s.seq x.n).inWin p.key then pure ()
  else if mustFollow s x p.key len p.kind then waitFor .other
  else if p.kind = 0 && soLandingDue s x.n x.e.isn then waitFor .landing
  else pure ()

/-- The bytes of a translated span, read in the grant's order. -/
def pullSpan : Pull := fun x pol va len p => do
  needOrder x p len
  pullNow x pol va len p

/-- Read spans in the grant's order. -/
def pullAll (x : ECx) (l : List (Bool × Nat × Nat × Phys)) : Op (List (List Byte)) := pullAllBy pullSpan x l none

/-- Entry i of the index vector of an operand, and its address when it lies outside the cistern. -/
def indexOf (x : ECx) (o : Opd) (i : Nat) : Op (Int × Option Nat) := do
  return (← indexesBy pullSpan x [(o, i)]).headD (0, none)

/-! ## Activity (01 R25, R26; 03 R75) -/

/-- Bit i of a packed n1 vector that the instruction reads without a policy (01 R25; 03 R75). -/
def bitAtVec (x : ECx) (base : Word) (i : Nat) (pol : Bool) : Op Bool := do
  let va := (base + toWord (i / 8)).toNat
  match ← xlV x va .load with
  | .ok p =>
    if p.tier != 0 then trapWith 0x14 va
    else
      needRoute (dieOf x.n) va p
      let bs ← pullSpan x pol va 1 p
      return (ofBytes bs).testBit (i % 8)
  | .prot => trapWith 0x08 va
  | _ => trapWith 0x07 va

/-- The validity vector plays a part (03 R75). -/
def ECx.checksValid (x : ECx) : Bool :=
  vtVCHK x.e.vtype && fld x.e.cvalid 0 48 != 0 && (match x.f.op with
    | .vld _ => false
    | _ => true)

/-- Whether element i is active, and the selected mask bit of VMERGE (01 R26; 07 R192). -/
def activity (x : ECx) (i : Nat) : Op (Bool × Bool) := do
  let pol := match x.f.op, x.f.a with
    | .pump .., some (.spec _ p) => p
    | _, _ => false
  let mb ← match x.f.mask with
    | .none => pure true
    | .notCmask0 => (fun b => !b) <$> bitAtVec x x.e.maskAddr i pol
    | _ => bitAtVec x x.e.maskAddr i pol
  let merge := match x.f.op with
    | .merge => true
    | _ => false
  if !mb && !merge then return (false, mb)
  else if x.checksValid then
    return (← bitAtVec x (toWord (fld x.e.cvalid 0 48)) i false, mb)
  else return (true, mb)

/-- Some element below k is active; one whose mask traps counts as active. -/
def anyActive (x : ECx) : Nat → Op Bool
  | 0 => pure false
  | k + 1 => do
    if ← anyActive x k then return true
    else match ← attempt (activity { x with at_ := k } k) with
      | .ok (b, _) => return b
      | .error (.trap _) => return true
      | .error e => throw e

/-! ## Whole-instruction checks (02 R518) -/

/-- A packed operand in a mode other than 00 and 11, or an mx4 one in mode 11 (05 R126; 07 R199; 03 R73). -/
def badMode (o : Option Opd) (t : ETy) : Bool := match o with
  | none => false
  | some o => match t, o.spec with
    | .mx4, .unit r => r = 31
    | .mx4, _ => true
    | t, .stride _ | t, .index _ => t.packed
    | _, _ => false

/-- A base that its packed type or its index vector must align (03 R61, R73; 07 R199; 08 R210). -/
def badBase (o : Option Opd) (t : ETy) : Option Nat := match o with
  | none => none
  | some o => match o.spec with
    | .scal _ => none
    | .index _ => if o.aux.toNat % 4 != 0 then some o.aux.toNat else none
    | _ => match t with
      | .ip _ | .blk _ => if o.base.toNat % 64 != 0 then some o.base.toNat else none
      | .mx4 => if o.base.toNat % 16 != 0 then some o.base.toNat else none
      | _ => none

/-- A further VTYPE of an instruction's own entry: A in mode 11, or a block destination or source that its entry
refuses. -/
def badEntry (e : Entry) (f : VForm) : Bool :=
  let scalA := (e.opdA f).any Opd.isScal
  match f.op with
  | .vld _ | .amo _ _ | .cas _ | .own | .wait => scalA
  | .vst _ | .vstx _ => scalA && e.ty.isBlk
  | .drain .. => e.ty.isBlk && (match f.d with
    | some (.unit _) => false
    | _ => true)
  | _ => false

/-- The trap that an instruction raises as a whole at its first active element, if any. -/
def wholeTrap (e : Entry) (f : VForm) : Option TrapReq :=
  let os := [(e.opdA f, e.tyA f), (e.opdB f, e.tyB f), (e.opdC f, e.tyC f), (e.opdD f, e.tyD f)]
  let os := match f.op with
    | .accin .. => os.take 1
    | .pump .. => []
    | .dots | .red _ => os.take 3 ++ (if (e.opdD f).any Opd.isScal then [] else [(e.opdD f, e.tyD f)])
    | _ => os
  if !f.op.accepts e.ty || badEntry e f || os.any (fun p => badMode p.1 p.2) then some ⟨0x03, 0, 0⟩
  else
    let ix := match f.op with
      | .pump .. => [(e.opdA f, ETy.n1), (e.opdD f, ETy.n1)]
      | _ => os
    (ix.findSome? fun p => badBase p.1 p.2).map fun a => ⟨0x04, toWord a, 0⟩

/-- A w48 source in mode 11 whose bits 63:48 are not 0 stops every active element (07 R180); VDOTS checks its C for
itself (R201). -/
def ECx.badScal (x : ECx) : Bool :=
  let bad := fun (o : Option Opd) (t : ETy) => o.any fun o => o.isScal && t == .w48 && o.base.toNat ≥ 2 ^ 48
  let c := match x.f.op with
    | .dots => false
    | _ => bad (x.e.opdC x.f) (x.e.tyC x.f)
  bad (x.e.opdA x.f) (x.e.tyA x.f) || bad (x.e.opdB x.f) (x.e.tyB x.f) || c

/-- An instruction of chapter 7, a vector compute instruction (R179); the others are the vector memory, tile and pump
instructions. -/
def VOp.compute : VOp → Bool
  | .vld _ | .vst _ | .vstx _ | .amo _ _ | .cas _ | .empty | .fill | .wait | .own | .accin .. | .drain .. | .pump .. => false
  | _ => true

/-- Inactive elements of the instruction take their treatment, and a combining one its result. A compute instruction of a type
that it does not accept has no effect (R179). What else stops an instruction as a whole does so when an element is active, and
then no element takes effect; with none it raises nothing (R518). -/
def ECx.treats (x : ECx) : Op Bool := do
  if x.f.op.compute && !x.f.op.accepts x.e.ty then return false
  else if (wholeTrap x.e x.f).isNone && !x.badScal then return true
  else return !(← anyActive x x.e.vl)

/-! ## The checks of one element -/

/-- The address of a sized element must be a multiple of its size (03 R59). -/
def needAligned (t : ETy) (a : Nat) : Op Unit :=
  if t.packed || t.size = 0 then pure ()
  else if a % t.size != 0 then trapWith 0x04 a
  else pure ()

/-- Hand out the index entries to the operands that have one. -/
def spreadIx : List (Opd × ETy × Nat) → List (Int × Option Nat) → List Int
  | [], _ => []
  | p :: r, vs => if p.1.isIdx then (vs.headD (0, none)).1 :: spreadIx r vs.tail else 0 :: spreadIx r vs

/-- The spans of one element of each operand, with the address of an index entry outside the cistern: alignment, index
entries, alignment of indexed addresses. -/
def resolve (x : ECx) (os : List (Opd × ETy × Nat)) : Op (List (List (Nat × Nat)) × Option Nat) := do
  for (o, t, i) in os do
    if !o.isScal && !o.isIdx then needAligned t (o.at t i 0).toNat
  let vs ← indexesBy pullSpan x ((os.filter fun p => p.1.isIdx).map fun p => (p.1, p.2.2))
  let ixs := spreadIx os vs
  for ((o, t, i), ix) in os.zip ixs do
    if o.isIdx then needAligned t (o.at t i ix).toNat
  return ((os.zip ixs).map fun p =>
    if p.1.1.isScal then [] else p.1.1.spans p.1.2.1 p.1.2.2 (p.1.1.at p.1.2.1 p.1.2.2 p.2), vs.findSome? (·.2))

/-- Translate the spans of a source: a failing one raises PULLFAULT; a denied one is kept. -/
def xlSrc (x : ECx) : List (Nat × Nat) → Op (List (Option Phys))
  | [] => pure []
  | (va, _) :: r => do
    match ← xlV x va .load with
    | .ok p => return some p :: (← xlSrc x r)
    | .prot => return none :: (← xlSrc x r)
    | _ => trapWith 0x07 va

/-- Translate the spans of a destination. -/
def xlDst (x : ECx) (acc : Access) : List (Nat × Nat) → Op (List (Option Phys))
  | [] => pure []
  | (va, _) :: r => do
    match ← xlV x va acc with
    | .ok p => return some p :: (← xlDst x acc r)
    | .prot => return none :: (← xlDst x acc r)
    | _ => trapWith 0x06 va

/-- Permission must be held on every span. -/
def needPerm : List (Nat × Nat) → List (Option Phys) → Op (List Phys)
  | (va, _) :: r, o :: ps => match o with
    | some p => do return p :: (← needPerm r ps)
    | none => trapWith 0x08 va
  | _, _ => pure []

/-- Every span lies where the operand may. -/
def needZone (z : Zone) (q : Seq) : List (Nat × Nat) → List Phys → Op Unit
  | (va, _) :: r, p :: ps => if zoneOk z q p then needZone z q r ps else trapWith 0x14 va
  | _, _ => pure ()

/-- The bank reaches every span; a write that determinism mode holds meets its way when it is performed. -/
def needRoutes (x : ECx) (acc : Access) : List (Nat × Nat) → List Phys → Op Unit
  | (va, _) :: r, p :: ps => do
    if !(acc == .store && (← get).holds x.n (ordCode x.e.ins != .none) p) then needRoute (dieOf x.n) va p
    needRoutes x acc r ps
  | _, _ => pure ()

/-- Steps 4 to 7 of 08 R212 and the tier check, with the mask's own trap in its place; `ti` is the address of an index
entry outside the cistern. -/
def checkAll (x : ECx) (dm : Option TrapReq) (ti : Option Nat) (ss : List SUse) (ds : List DUse) :
    Op (List (List Phys) × List (List Phys)) := do
  let late := fun (c : Nat) => match dm with
    | some r => if r.cause = c then (throw (.trap r) : Op Unit) else pure ()
    | none => pure ()
  late 0x07
  let sx ← ss.mapM fun u => xlSrc x u.spans
  late 0x08
  let sp ← (ss.zip sx).mapM fun p => needPerm p.1.spans p.2
  let dx ← ds.mapM fun u => xlDst x u.acc u.spans
  let dp ← (ds.zip dx).mapM fun p => needPerm p.1.spans p.2
  match ti with
  | some va => trapWith 0x14 va
  | none => pure ()
  late 0x14
  let q ← x.seq
  for (u, ps) in ss.zip sp do needZone u.zone q u.spans ps
  for (u, ps) in ds.zip dp do needZone u.zone q u.spans ps
  for (u, ps) in ss.zip sp do needRoutes x .load u.spans ps
  for (u, ps) in ds.zip dp do needRoutes x u.acc u.spans ps
  late 0x09
  pure (sp, dp)

/-! ## Elements of one instruction that write the same bytes (08 R224) -/

/-- VSLIDEUP leaves elements below its count undisturbed (07 R205). -/
def skipsElem (x : ECx) (i : Nat) : Bool := match x.f.op with
  | .slide true => i < (x.e.w 4).toNat
  | _ => false

/-- The instruction writes zeros for inactive elements. -/
def ECx.zeroes (x : ECx) : Bool := vtMPOL x.e.vtype && (match x.f.op with
  | .vst _ | .vstx _ | .empty | .fill | .pump .. | .accin .. | .dots | .red _ | .mscal _ => false
  | _ => true)

/-- Bytes with the bits of a field set. -/
def fieldMask (t : ETy) (i : Nat) : List Byte :=
  if t.packed then bytesOf (t.field i).2 ((2 ^ t.bits - 1) * 2 ^ t.bitOff i) else List.replicate t.size 0xFF

/-- The bits that element j writes in its destination, as keys with masks; none where its address cannot be told now. -/
def outBits (s : State) (x : ECx) (j : Nat) : Option (List (Nat × List Byte)) := match x.e.opdD x.f with
  | none => some []
  | some o =>
    if o.isScal then some []
    else
      let t := x.e.tyD x.f
      let at_ : Option (List (Nat × List Byte)) := match t with
        | .blk _ => some [((o.base + toWord (64 * (j / t.per))).toNat, List.replicate 64 (0xFF : Byte))]
        | .mx4 => some ((o.spans t j 0).map fun p => (p.1, [(0xFF : Byte)]))
        | t => (peekAt s x o t j).map fun a => [(a, fieldMask t j)]
      at_.bind fun l => l.mapM fun p => (probe s (dieOf x.n) (s.seq x.n).ctx p.1).map fun k => (k.key, p.2)

/-- Element j writes its destination, as far as can be told now. -/
def writesElem (s : State) (x : ECx) (j : Nat) : Bool :=
  if skipsElem x j then false
  else match (activity { x with at_ := j } j).run s with
    | .ok (true, _) _ => true
    | .ok (false, _) _ => x.zeroes
    | .error _ _ => true

/-! ## What a group takes from the bucket (12 R326) -/

/-- The lines that element j pulls, a place for each operand and its index vector, as one more than the line's number; 0 where it
pulls none or none can be told now. What VLD copies comes as landings, what a pump copies does not pass the banks. -/
def pullLines (s : State) (x : ECx) (j : Nat) : List Nat :=
  let x := { x with at_ := j }
  let slot := fun (t : Option (Nat × Nat)) => (t.map fun p => p.1 / 64 + 1).getD 0
  let bit := fun (b : Word) => (b + toWord (j / 8)).toNat / 64 + 1
  let bits := [match x.f.mask with
    | .none => 0
    | _ => bit x.e.maskAddr, if x.checksValid then bit (toWord (fld x.e.cvalid 0 48)) else 0]
  let index := fun (o : Option Opd) => match o with
    | some o => if o.isIdx then o.indexVa j / 64 + 1 else 0
    | none => 0
  let of := fun (o : Option (Opd × ETy × Nat)) => match o with
    | some (o, t, k) => ((opdTouch s x o t k).map slot ++ [0, 0, 0]).take 3
    | none => [0, 0, 0]
  match (activity x j).run s with
  | .ok (false, _) _ => bits
  | r =>
    let mb := match r with
      | .ok (_, mb) _ => mb
      | .error _ _ => true
    bits ++ [index (x.e.opdD x.f)] ++ (match x.f.op with
      | .vld _ | .pump .. | .drain .. => [index (x.e.opdA x.f)]
      | _ => ((sourcesOf x j mb).map of).flatten)

/-- What the lines of an element cost a bank of die d that has pulled `prev` last: a line that it has pulled costs nothing more. -/
def pullCosts (s : State) (n : Nat) (prev lines : List Nat) : List Nat := lines.zipIdx.filterMap fun p =>
  if p.1 = 0 || p.1 == (prev[p.2]?).getD 0 then none
  else some (match probe s (dieOf n) (s.seq n).ctx (64 * (p.1 - 1)) with
    | some k => fabricCost k.key (dieOf n)
    | none => 1)

/-- The lines that a bank has pulled last. -/
def pullLast (prev lines : List Nat) : List Nat := (List.range (max prev.length lines.length)).map fun k =>
  if (lines[k]?).getD 0 = 0 then (prev[k]?).getD 0 else (lines[k]?).getD 0

/-- The same for the elements of a block, one after another. -/
def pullBlock (s : State) (x : ECx) : List Nat → List Nat → List Nat × List Nat
  | [], prev => (prev, [])
  | j :: r, prev =>
    let l := pullLines s x j
    let t := pullBlock s x r (pullLast prev l)
    (t.1, pullCosts s x.n prev l ++ t.2)

/-- Take the units of the line of work of element i, of a block of `len`, and of the lines that it pulls, before it begins, in the
energy-budget regime, and tell whether it took some now. -/
def chargeLine (x : ECx) (g i len : Nat) : Op Bool := do
  let s ← get
  let d := dieOf x.n
  if !(s.die d).regime then return false
  let q ← x.seq
  let x := { x with at_ := i }
  let ln := x.line q
  let bank := ln / q.g % 16
  let prev := (smapGet bank (x.e.ctr g).lines).getD []
  let js := (List.range (min len (x.e.vl - i))).map (i + ·)
  let (last, pulls) := pullBlock s x js prev.tail
  let fresh := prev.head? != some (ln + 1) && js.any (writesElem s x)
  let costs := if fresh then x.f.op.weight x.e.ty :: pulls else pulls
  if costs.isEmpty then return false
  let own := if fresh then ln + 1 else prev.headD 0
  payOp d (.lane x.n g x.e.isn) costs
  modSeqOp x.n fun q => q.modEntry x.e.isn fun e => e.modG g fun c => { c with lines := smapSet bank (own :: last) c.lines }
  return true

/-- Clear in a mask at a key the bits of another mask at another key. -/
def clearMask (key : Nat) (m : List Byte) (p : Nat × List Byte) : List Byte :=
  m.zipIdx.map fun b => if p.1 ≤ key + b.2 then b.1 &&& ~~~((p.2[key + b.2 - p.1]?).getD 0) else b.1

/-- The bits of a mask at a key that no element above i has written. -/
def keepBits (s : State) (x : ECx) (i key : Nat) (mask : List Byte) : List Byte :=
  ((List.range x.e.vl).filter fun j => i < j && !pendingElem s x j && writesElem s x j).foldl (fun m j =>
    ((outBits s x j).getD []).foldl (clearMask key) m) mask

/-- Element i of an instruction does not write a key of the window in the order of the elements of the group that owns the line:
another group executes it, since its address lies outside the window's range or its index entry could not be read, or it is
executed late (log 100). -/
def outOfPlace (s : State) (x : ECx) (i key : Nat) : Bool :=
  let q := s.seq x.n
  q.inWin key && (x.e.odd.contains i || ownerPeek s x i != some (q.ownerOf key))

/-- A write of n bytes at a translated place keeps its place in the grant's order. -/
def placeDst (x : ECx) (p : Phys) (len : Nat) : Op Unit := do
  let s ← get
  if p.kind != 0 && outOfPlace s x x.at_ p.key then
    if lowerTouches s x p.key len false then waitFor .other else pure ()
  else needOrder x p len

/-- Writes at translated spans keep their place in the grant's order. -/
def orderDst (x : ECx) : List ((Nat × Nat) × Phys) → Op Unit
  | [] => pure ()
  | (sp, p) :: r => do
    placeDst x p sp.2
    orderDst x r

/-- The bits of a mask at a key that the element, the last of its block, writes: all of them in place, else those that no later
element has written. -/
def elemBits (s : State) (x : ECx) (last key : Nat) (mask : List Byte) : List Byte :=
  if outOfPlace s x last key then keepBits s x last key mask else mask

/-- Write the bits of a mask at a translated place of the window, for the element that ends at `last`. -/
def putOwn (x : ECx) (last : Nat) (p : Phys) (bs mask : List Byte) : Op Unit := do
  let keep := elemBits (← get) x last p.key mask
  if keep.all (· == 0) then pure ()
  else
    dirtyOp (dieOf x.n) p
    let s ← get
    writeOwn x.n x.e.isn p.key (if keep.all (· == 0xFF) then bs else mergeBytes (s.mem.read p.key bs.length) bs keep)

/-- Spans flattened for reading. -/
def flatUses (ss : List SUse) (sp : List (List Phys)) : List (Bool × Nat × Nat × Phys) :=
  ((ss.zip sp).map fun p => (p.1.spans.zip p.2).map fun c => (p.1.pol, c.1.1, c.1.2, c.2)).flatten

/-- Split what was read by operand. -/
def regroup : List SUse → List (List Byte) → List (List (List Byte))
  | [], _ => []
  | u :: r, bs => bs.take u.spans.length :: regroup r (bs.drop u.spans.length)

/-- A reserved code of an element read (03 R64, R74). -/
def reservedCode (t : ETy) (bs : List (List Byte)) (raw : Nat) : Bool := match t with
  | .w48 => raw ≥ 2 ^ 48
  | .blk w => !blkBad w (ofBytes ((bs[0]?).getD [])) && blkReserved w raw
  | _ => false

/-- A malformed block header. -/
def badBlock (t : ETy) (bs : List (List Byte)) : Bool := match t with
  | .blk w => blkBad w (ofBytes ((bs[0]?).getD []))
  | _ => false

/-- Address of the field that holds the element among its spans: the second of a block. -/
def fieldVa (t : ETy) (sp : List (Nat × Nat)) : Nat := match t, sp with
  | .blk _, [_, f] => f.1
  | _, f :: _ => f.1
  | _, [] => 0

/-- The arguments of one element from what was read: RSVDCODE before BADFMT (07 R185); `whole` where the element is an active one,
which a bad scalar source stops. -/
def argsOf (x : ECx) (whole : Bool) (os : List (Opd × ETy × Nat)) (sp : List (List (Nat × Nat))) (bs : List (List (List Byte))) :
    Op (List Arg) := do
  let raws := (os.zip bs).map fun p =>
    if p.1.1.isScal then scalRaw p.1.2.1 p.1.1.base else p.1.2.1.raw p.1.2.2 p.2
  if whole && x.badScal then trapWith 0x0A 0
  for ((o, t, _), (b, (sp, r))) in os.zip (bs.zip (sp.zip raws)) do
    if o.isScal && t == .w48 && r ≥ 2 ^ 48 then trapWith 0x0A 0
    if !o.isScal && reservedCode t b r then trapWith 0x0A (fieldVa t sp)
  for ((o, t, _), (b, sp)) in os.zip (bs.zip sp) do
    if !o.isScal && badBlock t b then trapWith 0x0B ((sp.head?.map (·.1)).getD 0)
  return (os.zip raws).map fun p => ⟨p.2, if p.1.1.isScal then scalVal p.1.2.1 p.2 else p.1.2.1.val p.2⟩

/-- The reads of one element: every source checked, pulled and decoded, the destinations checked. -/
def readElemBy (whole : Bool) (x : ECx) (dm : Option TrapReq) (os : List (Opd × ETy × Nat × Zone))
    (ds : List (Opd × ETy × Nat × Access × Zone)) : Op (List Arg × List (List (Nat × Nat) × List Phys)) := do
  let so := os.map fun p => (p.1, p.2.1, p.2.2.1)
  let dn := ds.map fun p => (p.1, p.2.1, p.2.2.1)
  let (sps, ti) ← resolve x (so ++ dn)
  let ss := (os.zip sps).map fun p => (⟨p.2, p.1.1.pol, p.1.2.2.2⟩ : SUse)
  let dd := (ds.zip (sps.drop so.length)).map fun p => (⟨p.2, p.1.2.2.2.1, p.1.2.2.2.2⟩ : DUse)
  let (sp, dp) ← checkAll x dm ti ss dd
  let bs ← pullAll x (flatUses ss sp)
  let args ← argsOf x whole so (sps.take so.length) (regroup ss bs)
  for (u, ps) in dd.zip dp do orderDst x (u.spans.zip ps)
  pure (args, (dd.map (·.spans)).zip dp)

/-- The reads of one active element. -/
def readElem (x : ECx) (dm : Option TrapReq) (os : List (Opd × ETy × Nat × Zone)) (ds : List (Opd × ETy × Nat × Access × Zone)) :
    Op (List Arg × List (List (Nat × Nat) × List Phys)) := readElemBy true x dm os ds

/-! ## Writing the window -/

/-- Write the field of element i at a translated place of the window: a packed element changes its own bits alone. -/
def putField (x : ECx) (t : ETy) (i : Nat) (p : Phys) (raw : Nat) : Op Unit :=
  putOwn x i p (if t.packed then bytesOf (t.field i).2 (raw % 2 ^ t.bits * 2 ^ t.bitOff i) else bytesOf t.size raw) (fieldMask t i)

/-- Mark the words of n bytes at a key of the window as a write of the instruction, in the place that its ISN has among the
writes of the group that owns the line; `src` when something will land (02 R48, R52; 08 R216). -/
def markOwn (x : ECx) (key len : Nat) (full : Bool) (src : Option MarkSrc) : Op Unit := do
  let s ← get
  let q := s.seq x.n
  let ws := wordsOf key len
  if !q.doneBelow (q.ownerOf key) x.e.isn then waitFor .other
  else if s.otherDue x.n x.e.isn ws then waitFor .landing
  else
    for w in ws do saveVersion x.n x.e.isn (8 * w)
    modify fun s => s.markWords ws full
    match src with
    | none => pure ()
    | some k => modify fun s =>
      { s with marks := ws.foldl (fun ms w =>
          if ms.any (fun m => m.word == w && s.mineMark x.n x.e.isn m && !m.landed) then ms
          else ms.filter (fun m => m.word != w) ++ [⟨w, x.n, q.runId, x.e.isn, k, false, false⟩]) s.marks }

/-- A translation of the destination of an inactive element that never traps: its place when it lies in the window and
is aligned (07 R184). A destination whose own mode or base the instruction refuses has no such place (log 86). -/
def quietDst (x : ECx) (o : Opd) (t : ETy) (i : Nat) : Op (Option Phys) := do
  let s ← get
  if badMode (some o) t || (badBase (some o) t).isSome then return none
  else match peekAt s x o t i with
  | none => return none
  | some a =>
    if !t.packed && t.size != 0 && a % t.size != 0 then return none
    else match ← xlV x a .store with
      | .ok p => return (if p.tier = 0 && (s.seq x.n).inWin p.key then some p else none)
      | _ => return none

/-- Bytes that the instruction has on their way to a place do not replace a later element's own write of it (08 R224). -/
def overtake (x : ECx) (key : Nat) (mask : List Byte) : Op Unit := modify fun s =>
  { s with landings := s.landings.map fun l =>
      if l.sq == x.n && l.runId == (s.seq x.n).runId && l.isn == x.e.isn then
        { l with keep := l.keep.zipIdx.map fun p =>
            let a := l.addr + p.2
            if key ≤ a && a < key + mask.length then p.1 &&& ~~~((mask[a - key]?).getD 0) else p.1 }
      else l }

/-- The treatment of an inactive element of an instruction with a vector destination in the window (01 R26). An instruction
none of whose elements is active writes these zeros too: 08 R219 speaks of active elements (log 87). -/
def zeroInactive (x : ECx) (t : ETy) (i : Nat) : Op Unit := do
  if vtMPOL x.e.vtype then
    match x.e.opdD x.f with
    | some o =>
      if o.isScal then pure ()
      else match ← quietDst x o t i with
        | some p =>
          placeDst x p (t.field i).2
          putField x t i p 0
          overtake x p.key (fieldMask t i)
        | none => pure ()
    | none => pure ()

/-! ## Accesses outside the window -/

/-- The next k tickets of the scope instance, one for each active element (08 R218). -/
def drawTickets (n : Nat) (o : Ord) (k : Nat) : Op Unit := match o with
  | .scDie => modify fun s => s.modDie (dieOf n) fun d => { d with ticket := d.ticket + k }
  | .scPkg => modify fun s => { s with pkg := { s.pkg with ticket := s.pkg.ticket + k } }
  | _ => pure ()

/-- A sequentially consistent element waits for every lower element (08 R218). -/
def needScTurn (x : ECx) : Op Unit := do
  if ordSc (ordCode x.e.ins) && lowerPending (← get) x x.at_ then waitFor .other
  else pure ()

/-- An atomic element follows every lower element of its instruction, and every lower instruction, that may touch its
target (08 R226). -/
def needTarget (x : ECx) (p : Phys) (len : Nat) : Op Unit := do
  if mustFollow (← get) x p.key len p.kind then waitFor .other
  else pure ()

/-- Write the bits in `keep` of bytes outside the window, as one indivisible change (08 R221 to R223). -/
def writeOut (x : ECx) (va : Nat) (p : Phys) (bs keep : List Byte) : Op Unit := do
  if p.tier = 0 then
    let s ← get
    writeCistern p.key (mergeBytes (s.mem.read p.key bs.length) bs keep)
  else writeBits x.n (ordCode x.e.ins != .none) va p bs keep

/-! ## Element-wise compute instructions -/

/-- Raise flags in the sequencer. -/
def raiseOp (n fl : Nat) : Op Unit := modSeqOp n fun q => q.raise fl

/-- Put the arguments that were read in the places of A, B and C. -/
def placeArgs : List (Option (Opd × ETy × Nat)) → List Arg → List Arg
  | [], _ => []
  | none :: r, l => Arg.none :: placeArgs r l
  | some _ :: r, a :: l => a :: placeArgs r l
  | some _ :: r, [] => Arg.none :: placeArgs r []

/-- The type in which an instruction computes: that of D, except where D is an n1 vector of outcomes. -/
def opTy (x : ECx) : ETy := match x.f.op with
  | .carry _ _ | .icmp _ | .fcmp _ => x.e.ty
  | _ => x.e.tyD x.f

/-- Where a source of a type may lie: an mx4 one in the window alone (07 R199). -/
def srcZone (t : ETy) : Zone := if t == .mx4 then .own else .cist

/-- The exact result of active element i, every check of it made, and its destination. -/
def elemExact (x : ECx) (dm : Option TrapReq) (i : Nat) (mb : Bool) :
    Op (Out × List (List (Nat × Nat) × List Phys)) := do
  let srcs := sourcesOf x i mb
  let ds := match x.e.opdD x.f with
    | some o => if o.isScal then [] else [(o, x.e.tyD x.f, i, Access.store, Zone.own)]
    | none => []
  let (args, dst) ← readElem x dm ((srcs.filterMap id).map fun p => (p.1, p.2.1, p.2.2, srcZone p.2.1)) ds
  let ps := placeArgs srcs args
  let arg := fun (k : Nat) => (ps[k]?).getD Arg.none
  pure (elemOut x.f.op (opTy x) x.e i ((x.e.opdA x.f).any Opd.isScal) mb (arg 0) (arg 1) (arg 2), dst)

/-- The place of the first span of a destination. -/
def physOf (d : List (List (Nat × Nat) × List Phys)) : Phys := (d.head?.bind fun p => p.2.head?).getD ⟨0, 0, 0⟩

/-- An active element of an element-wise instruction: its result delivered and written (07 R181, R183). An element of VSLIDEUP
below the count receives nothing and makes no checks of its addresses (log 103). -/
def computeElem (x : ECx) (dm : Option TrapReq) (i : Nat) (mb : Bool) : Op Unit := do
  if skipsElem x i then if x.badScal then trapWith 0x0A 0 else pure ()
  else
    let (out, dst) ← elemExact x dm i mb
    let r := deliver (x.e.tyD x.f) (x.e.rnd i) out
    putField x (x.e.tyD x.f) i (physOf dst) r.1
    raiseOp x.n r.2

/-! ## Block destinations (03 R76, R80; 07 R200) -/

/-- What is known of one lane of a block before it is formed. -/
inductive Lane where
  | active (dm : Option TrapReq) (mb : Bool)
  | zero
  | keep
  deriving DecidableEq, Repr

/-- The lanes of the block that begins at element `first`. -/
def lanesOf (x : ECx) (first : Nat) : Nat → Op (List Lane)
  | 0 => pure []
  | k + 1 => do
    let r ← lanesOf x first k
    let i := first + k
    if i ≥ x.e.vl then return r ++ [.keep]
    else match ← attempt (activity x i) with
      | .ok (true, mb) => return r ++ [.active none mb]
      | .ok (false, _) => return r ++ [if vtMPOL x.e.vtype then .zero else .keep]
      | .error (.trap t) => return r ++ [.active (some t) true]
      | .error e => throw e

/-- Index of the first active lane. -/
def firstActive (ls : List Lane) : Option Nat := ls.findIdx? fun l => match l with
  | .active .. => true
  | _ => false

/-- Raise a trap at an element. -/
def trapAt {α : Type} (i : Nat) (r : TrapReq) : Op α := throw (.etrap i r)

/-- Run a move so that its traps are those of element i. -/
def atElem {α : Type} (i : Nat) (m : Op α) : Op α := do
  match ← attempt m with
  | .ok a => pure a
  | .error (.trap r) => trapAt i r
  | .error e => throw e

/-- The current values of a block of width w as the instruction reads them: BADFMT and RSVDCODE for the lanes that need
one (03 R76). -/
def blockNow (x : ECx) (w va key : Nat) (need : List Bool) : Op (List Val) := do
  let bs ← pullOwn x.n x.e.isn x.at_ va key 64 false
  let b := ofBytes bs
  let h := b % 2 ^ 16
  if blkBad w h then trapWith 0x0B va
  else
    let raw := fun j => if h % 8 = 0 then 0 else if h / 256 = 255 then 2 ^ 20 else h / 256 * 256 + bitsAt b (16 + j * w) w
    match (need.zipIdx).find? fun p => p.1 && blkReserved w (raw p.2) with
    | some p => trapWith 0x0A (va + (16 + p.2 * w) / 8)
    | none => return (List.range need.length).map fun j => (ETy.blk w).val (raw j)

/-- The lane needs the block's current value. -/
def Lane.needs : Lane → Bool
  | .keep => true
  | _ => false

/-- Write the block of a blk destination whose first element is `first` (03 R76, R77): `exact` gives the exact result
of an active element. -/
def blockWith (x : ECx) (w first : Nat) (lanes : List Lane) (va : Nat) (p : Phys) (outs : List Out) : Op Unit := do
  let p := { p with key := p.key / 64 * 64 }
  let at_ := first + (firstActive lanes).getD 0
  let now ← if lanes.any Lane.needs then atElem at_ (blockNow x w va p.key (lanes.map Lane.needs))
    else pure (lanes.map fun _ => Val.nan false)
  let ins := (lanes.zip (outs.zip now)).zipIdx.map fun p =>
    let u := (x.e.rnd (first + p.2)).u
    match p.1.1 with
    | .active .. => (⟨outVal p.1.2.1, u, true⟩ : BlkIn)
    | .zero => ⟨.num (Ex.zero false), u, false⟩
    | .keep => ⟨p.1.2.2, u, false⟩
  let r := blkWrite (vtRND x.e.vtype) w (vtSAT x.e.vtype) ins
  putOwn x (first + lanes.length - 1) p r.1 (List.replicate 64 0xFF)
  raiseOp x.n ((lanes.zip outs).foldl (fun a p => match p.1 with
    | .active .. => a ||| outFl p.2
    | _ => a) r.2)

/-- The exact results of the active lanes, in order, and the destination. -/
def lanesExact (x : ECx) (first : Nat) : List (Lane × Nat) → Phys → Op (List Out × Phys)
  | [], k => pure ([], k)
  | (.active dm mb, j) :: r, _ => do
    let (o, d) ← atElem (first + j) (elemExact x dm (first + j) mb)
    let (os, k) ← lanesExact x first r (physOf d)
    pure (o :: os, k)
  | _ :: r, k => do
    let (os, k) ← lanesExact x first r k
    pure (.bits 0 0 :: os, k)

/-- A block of a blk destination of a compute instruction. The active lanes make all their checks, in ascending order, before
the block's current values are read and checked (log 88). -/
def computeBlock (x : ECx) (w first : Nat) : Op Unit := do
  let lanes ← lanesOf x first (blkN w)
  match x.e.opdD x.f with
  | none => pure ()
  | some d =>
    let va := (d.base + toWord (64 * (first / blkN w))).toNat
    match firstActive lanes, wholeTrap x.e x.f with
    | some j, some r => trapAt (first + j) r
    | some _, none =>
      let (outs, p) ← lanesExact x first lanes.zipIdx ⟨0, 0, 0⟩
      blockWith x w first lanes va p outs
    | none, _ =>
      if lanes.contains .zero && (← x.treats) then
        match ← quietDst x d (.blk w) first with
        | some p => blockWith x w first lanes va p (lanes.map fun _ => .bits 0 0)
        | none => pure ()
      else pure ()

/-- The mask trap of a lane. -/
def laneTrap (ls : List Lane) : Option TrapReq := ls.findSome? fun l => match l with
  | .active (some r) _ => some r
  | _ => none

/-- A block of an mx4 destination (07 R200; 03 R80): every one of its 32 source elements is pulled. Each check of R185 is made
for all of them, and for the destination, before the next; a block with a NaN raises no flag. -/
def mxBlock (x : ECx) (first : Nat) : Op Unit := do
  let lanes ← lanesOf x first 32
  match firstActive lanes, x.e.opdD x.f, x.e.opdA x.f with
  | some j, some d, some a => atElem (first + j) do
    match wholeTrap x.e x.f with
    | some r => throw (.trap r)
    | none =>
      let t := x.e.tyA x.f
      let (args, dst) ← readElem x (laneTrap lanes) ((List.range 32).map fun k => (a, t, first + k, srcZone t))
        [(d, .mx4, first, .store, .own)]
      let vals := args.map (·.val)
      let ps := (dst.head?.map (·.2)).getD []
      let ins := (lanes.zip vals).zipIdx.map fun p =>
        (⟨p.1.2, (x.e.rnd (first + p.2)).u, !p.1.1.needs && p.1.1 != .zero⟩ : BlkIn)
      let r := mxWrite (vtRND x.e.vtype) ins
      putOwn x (first + 31) ((ps[0]?).getD ⟨0, 0, 0⟩) r.1 (r.1.map fun _ => 0xFF)
      putOwn x (first + 31) ((ps[1]?).getD ⟨0, 0, 0⟩) [BitVec.ofNat 8 r.2.1] [0xFF]
      raiseOp x.n (if vals.any (fun v => v.isNan) then 0 else (lanes.zip vals).foldl (fun a p => match p.1 with
        | .active .. => a ||| outFl (cvtOut t .mx4 ⟨0, p.2⟩)
        | _ => a) r.2.2)
  | _, _, _ => pure ()

end Sys2Proof.Machine
end

