-- ==== Sys2Proof/Machine/VecMem.lean ====
section
/-!
DEFINITION. Elements of the vector memory instructions (spec/08_vector_memory.md R216, R220 to R229) and their
landings.
-/
namespace Sys2Proof.Machine

/-! ## Atomic operations (05 R109; 06 R143; 08 R225) -/

/-- The new value of an atomic on patterns of n bits. -/
def amoApply (op : AmoOp) (n old b : Nat) : Nat :=
  let m := 2 ^ n
  let b := b % m
  match op with
  | .add => (old + b) % m
  | .and => old &&& b
  | .or => old ||| b
  | .xor => old ^^^ b
  | .min => if signedOf n b < signedOf n old then b else old
  | .max => if signedOf n old < signedOf n b then b else old
  | .minu => min old b
  | .maxu => max old b
  | .swap => b

/-! ## Host arrivals (21 R502, R503) -/

/-- The value of an element read from a host page: recorded, or the logged one; elements of one instruction take their entries
in the order logged. -/
def hostValue (n : Nat) (isn : BitVec 32) (elem live : Nat) : Op Nat := do
  let s ← get
  match logMode s (s.seq n).ctx with
  | 1 =>
    logRecord n isn 6 (toWord live) (toWord elem)
    pure live
  | 2 => do
    let (pos, w0, w1, w2) ← logPeek n
    if fld w0 0 8 = 6 && fld w0 32 32 = isn.toNat then
      if w2 = toWord elem then
        logConsume n pos
        pure w1.toNat
      else waitFor .other
    else trapWith 0x12 0 pos
  | _ => pure live

/-- The bytes of an element of VLD from a host page: the value logged is that of its field. -/
def hostElem (x : ECx) (i : Nat) (bs : List Byte) : Op (List Byte) := do
  let t := x.e.ty
  if t.packed then
    let v ← hostValue x.n x.e.isn i (bitsAt (ofBytes bs) (t.bitOff i) t.bits)
    return bytesOf bs.length (v % 2 ^ t.bits * 2 ^ t.bitOff i)
  else return bytesOf bs.length (← hostValue x.n x.e.isn i (ofBytes bs))

/-- The bytes of a block from a host page, whose eight words are logged in order under its first active element (log 104). -/
def hostBlock (x : ECx) (i : Nat) (bs : List Byte) : Op (List Byte) := do
  let ws ← (List.range 8).mapM fun k => hostValue x.n x.e.isn i (ofBytes ((bs.drop (8 * k)).take 8))
  return (ws.map (bytesOf 8)).flatten

/-! ## VLD (R220, R221) -/

/-- A read of VLD: an uncorrectable error that its reply brings also writes a sump entry (15 R396). -/
def vldRead (x : ECx) (i : Nat) (pol : Bool) (va len : Nat) (p : Phys) : Op (List Byte) := do
  match ← attempt (pullSpan x pol va len p) with
  | .ok bs => pure bs
  | .error (.mcheck a ph) =>
    modify fun s => sumpWrite s (s.seq x.n).ctx
      { die := dieOf x.n, sq := x.n, isn := some x.e.isn, source := 4, cause := 0x10, addr := toWord a, elem := i }
    throw (.mcheck a ph)
  | .error e => throw e

/-- The destination words of an element or block of VLD, from element `first` to `last`, are marked empty, and its bytes are on
their way: those that no later element has written. -/
def vldSend (x : ECx) (first last : Nat) (p k : Phys) (bs mask : List Byte) : Op Unit := do
  let keep := elemBits (← get) x last k.key mask
  if keep.all (· == 0) then pure ()
  else
    dirtyOp (dieOf x.n) k
    markOwn x k.key bs.length false (some .vld)
    modify fun s => { s with landings := s.landings ++
      [⟨x.n, (s.seq x.n).runId, x.e.isn, first, k.key, bs, keep, p.tier = 3, (s.seq x.n).ctx, fabricCost p.key (dieOf x.n),
        k.kind = 0⟩] }

/-- An element of VLD: its destination words are marked empty and its bytes are on their way. -/
def vldElem (x : ECx) (dm : Option TrapReq) (i : Nat) : Op Unit := do
  match x.e.opdA x.f, x.e.opdD x.f with
  | some a, some d =>
    let t := x.e.ty
    let (sps, ti) ← resolve x [(a, t, i), (d, t, i)]
    let sa := (sps[0]?).getD []
    let (sp, dp) ← checkAll x dm ti [⟨sa, a.pol, .notOwn⟩] [⟨(sps[1]?).getD [], .store, .own⟩]
    match sa.head?, (sp.head?.bind (·.head?)), (dp.head?.bind (·.head?)) with
    | some (va, len), some p, some k =>
      needScTurn x
      let bs ← vldRead x i a.pol va len p
      placeDst x k len
      let bs ← if p.tier = 3 then hostElem x i bs else pure bs
      drawTickets x.n (ordCode x.e.ins) 1
      vldSend x i i p k bs (fieldMask t i)
    | _, _, _ => pure ()
  | _, _ => pure ()

/-- Clear bits at translated places, under the instruction's ISN. -/
def clearBits (x : ECx) : List (Nat × Phys) → Op Unit
  | [] => pure ()
  | (i, p) :: r => do
    dirtyOp (dieOf x.n) p
    let s ← get
    writeOwn x.n x.e.isn p.key [s.mem.get p.key &&& ~~~((1 : Byte) <<< (i % 8))]
    clearBits x r

/-- Clear bits of the validity vector, under the instruction's ISN (03 R75): every byte is checked before the first is
written. R75 does not say where the vector must lie when VLD writes it: the model treats it as a destination of the
instruction, in the grant's own window and writable (log 89). -/
def clearValid (x : ECx) (is : List Nat) : Op Unit := do
  let sp := is.map fun i => (fld x.e.cvalid 0 48 + i / 8, 1)
  let (_, dp) ← checkAll x none none [] [⟨sp, .store, .own⟩]
  clearBits x (is.zip (dp.head?.getD []))

/-- The active lanes of a block that begins at an element. -/
def activeLanes (first : Nat) (ls : List Lane) : List Nat :=
  (ls.zipIdx.filter fun p => match p.1 with
    | .active .. => true
    | _ => false).map fun p => first + p.2

/-- A block of VLD: copied whole when an element of it is active; a NaN block clears validity bits. -/
def vldBlock (x : ECx) (w first : Nat) : Op Unit := do
  let lanes ← lanesOf x first (blkN w)
  match firstActive lanes, x.e.opdA x.f, x.e.opdD x.f with
  | some j, some a, some d => atElem (first + j) do
    match wholeTrap x.e x.f with
    | some r => throw (.trap r)
    | none =>
      let off := toWord (64 * (first / blkN w))
      let va := (a.base + off).toNat
      let (sp, dp) ← checkAll x (laneTrap lanes) none [⟨[(va, 64)], a.pol, .notOwn⟩] [⟨[((d.base + off).toNat, 64)], .store, .own⟩]
      match (sp.head?.bind (·.head?)), (dp.head?.bind (·.head?)) with
      | some p, some k =>
        needScTurn x
        let bs ← vldRead x (first + j) a.pol va 64 p
        placeDst x k 64
        let bs ← if p.tier = 3 then hostBlock x (first + j) bs else pure bs
        let h := ofBytes (bs.take 2)
        if h % 8 != 0 && h / 256 = 255 && fld x.e.cvalid 0 48 != 0 then clearValid x (activeLanes first lanes)
        drawTickets x.n (ordCode x.e.ins) (activeLanes first lanes).length
        vldSend x first (first + lanes.length - 1) p k bs (List.replicate 64 0xFF)
      | _, _ => pure ()
  | none, _, some d =>
    if lanes.contains .zero && (← x.treats) then
      match ← quietDst x d (.blk w) first with
      | some p =>
        let va := (d.base + toWord (64 * (first / blkN w))).toNat
        let outs : List Out := lanes.map fun _ => .bits 0 0
        blockWith x w first lanes va p outs
      | none => pure ()
    else pure ()
  | _, _, _ => pure ()

/-- A landing reaches the saved copies of lines that later instructions wrote (08 R215). -/
def landVersions (q : Seq) (isn : BitVec 32) (addr : Nat) (data keep : List Byte) (fullWs : List Nat) : Seq :=
  { q with versions := q.versions.map fun v =>
      if v.line = q.lineOf addr && isnLt isn v.tag then
        let o := addr % 64
        { v with
          data := v.data.take o ++ mergeBytes ((v.data.drop o).take data.length) data keep ++ v.data.drop (o + data.length),
          full := v.full.zipIdx.map fun p => p.1 || fullWs.contains (addr / 64 * 8 + p.2) }
      else v }

/-- The bytes of an instruction's landing stand in the window; `ws` become full. -/
def landNow (s : State) (sq run : Nat) (isn : BitVec 32) (addr : Nat) (data keep : List Byte) (ws : List Nat) : State :=
  let s := s.poke addr (mergeBytes (s.mem.read addr data.length) data keep)
  let s := if (s.seq sq).runId = run then s.modSeq sq fun q => landVersions q isn addr data keep ws else s
  landMarks (s.markWords ws true) sq run isn ws

/-- Lines of n bytes at a key in which no landing of an instruction is due any more. -/
def linesDone (s : State) (sq run : Nat) (isn : BitVec 32) (key n : Nat) : Nat :=
  (List.range ((key + n - 1) / 64 + 1 - key / 64)).countP fun j => !s.marks.any fun m =>
    m.sq == sq && m.runId == run && m.isn == isn && !m.landed && !m.dead && m.word / 8 == key / 64 + j

/-- No other landing of the instruction is due in the line of a landing. -/
def lastOfLine (s : State) (l : Landing) : Bool := !s.landings.any fun m =>
  m.sq == l.sq && m.runId == l.runId && m.isn == l.isn && m.elem != l.elem && m.addr / 64 == l.addr / 64

/-- A landing of a lower element of the same instruction, in some of the same bytes, has not arrived (R224); nor one of a lower
element or instruction on an SO page, for a landing on an SO page (13 R333). -/
def landsAfter (s : State) (l : Landing) : Bool := s.landings.any fun m =>
  m.sq == l.sq && m.runId == l.runId &&
    ((m.isn == l.isn && m.elem < l.elem && (rangesMeet m.addr m.data.length l.addr l.data.length || (m.so && l.so))) ||
      (m.so && l.so && isnLt m.isn l.isn))

/-- Element j of an entry has not committed, and may write in the words of n bytes at a key. -/
def mayWrite (s : State) (x : ECx) (key n j : Nat) : Bool :=
  pendingElem s x j && (match outBits s x j with
    | none => true
    | some l => l.any fun p => (wordsOf p.1 p.2.length).any fun w => (wordsOf key n).contains w)

/-- An element of the instruction that has not committed may write in the words of a landing. -/
def landsEarly (s : State) (l : Landing) : Bool :=
  let q := s.seq l.sq
  q.runId == l.runId && q.inflight.any fun e => e.isn == l.isn && !e.gs.all (·.fin) && (match vform e.ins with
    | some f => (List.range e.vl).any (mayWrite s ⟨l.sq, e, f, 0⟩ l.addr l.data.length)
    | none => false)

/-- A reply of a VLD arrives (R220), in any order but that of R224 and of SO pages: a word becomes full when the last element of
the instruction in it has landed. The model lets a reply land once every element of the instruction that may write in its words
has been requested (log 105). The landing that completes a line takes its units from the bucket (12 R326). -/
def tryVldLanding (idx : Nat) (s : State) : Ev :=
  match s.landings[idx]? with
  | none => none
  | some l =>
    if s.pkg.frozen || landsEarly s l || landsAfter s l then none
    else
    let w := Waiter.landing l.sq l.runId l.isn l.elem l.addr
    match (if lastOfLine s l then payUnits s (dieOf l.sq) w [l.cost] else some s) with
    | none => (joinBank s (dieOf l.sq) w).map .next
    | some s =>
      let rest := s.landings.eraseIdx idx
      let same := fun (m : Landing) => m.sq == l.sq && m.runId == l.runId && m.isn == l.isn
      let ws := (wordsOf l.addr l.data.length).filter fun w =>
        !rest.any fun m => same m && (wordsOf m.addr m.data.length).contains w
      some (.next (landNow { s with landings := rest } l.sq l.runId l.isn l.addr l.data l.keep ws))

/-- VLD_LANDING (R220). -/
def execVldLanding (idx : Nat) (s : State) : Res := occurs (tryVldLanding idx s) s

/-! ## VST and VSTX (R222, R223) -/

/-- Where VST and VSTX may write. -/
def storeZone (o : VOp) : Zone := match o with
  | .vstx _ => .otherCist
  | _ => .far

/-- An element of VST or VSTX. -/
def vstElem (x : ECx) (dm : Option TrapReq) (i : Nat) : Op Unit := do
  match x.e.opdA x.f, x.e.opdD x.f with
  | some a, some d =>
    let t := x.e.ty
    let (args, dst) ← readElem x dm [(a, t, i, .own)] [(d, t, i, .store, storeZone x.f.op)]
    match dst.head?.bind (·.2.head?) with
    | some p =>
      needScTurn x
      let len := (t.field i).2
      let raw := ((args[0]?).getD Arg.none).raw
      drawTickets x.n (ordCode x.e.ins) 1
      dirtyOp (dieOf x.n) p
      writeOut x ((dst.head?.bind (·.1.head?)).getD (0, 0)).1 p (bytesOf len (raw * 2 ^ t.bitOff i)) (fieldMask t i)
    | none => pure ()
  | _, _ => pure ()

/-- A block of VST or VSTX, copied whole (R221). -/
def vstBlock (x : ECx) (w first : Nat) : Op Unit := do
  let lanes ← lanesOf x first (blkN w)
  match firstActive lanes, x.e.opdA x.f, x.e.opdD x.f with
  | some j, some a, some d => atElem (first + j) do
    match wholeTrap x.e x.f with
    | some r => throw (.trap r)
    | none =>
      let off := toWord (64 * (first / blkN w))
      let va := (a.base + off).toNat
      let (sp, dp) ← checkAll x (laneTrap lanes) none [⟨[(va, 64)], a.pol, .own⟩]
        [⟨[((d.base + off).toNat, 64)], .store, storeZone x.f.op⟩]
      match (sp.head?.bind (·.head?)), (dp.head?.bind (·.head?)) with
      | some p, some k =>
        needScTurn x
        let bs ← pullSpan x a.pol va 64 p
        needOrder x k 64
        drawTickets x.n (ordCode x.e.ins) (activeLanes first lanes).length
        dirtyOp (dieOf x.n) k
        writeOut x (d.base + off).toNat k bs (List.replicate 64 0xFF)
      | _, _ => pure ()
  | _, _, _ => pure ()

/-! ## VAMO and VCAS (R225, R226) -/

/-- The target of an atomic as it stands: waiting for a full word, or FEEMPTY. -/
def targetNow (x : ECx) (pol : Bool) (va len : Nat) (p : Phys) : Op Nat := do
  let q ← x.seq
  if p.tier = 0 && q.inWin p.key && !q.doneBelow (q.ownerOf p.key) x.e.isn then waitFor .other
  else if p.tier = 0 then return ofBytes (← readForeign va p.key len pol)
  else
    modify (drainAt x.n p.key len)
    return ofBytes (← readKey (some va) p.key len)

/-- Write the target of an atomic; a cistern word becomes full. -/
def targetWrite (x : ECx) (va : Nat) (p : Phys) (bs : List Byte) : Op Unit := do
  dirtyOp (dieOf x.n) p
  let q ← x.seq
  if p.tier = 0 then
    if q.inWin p.key then writeOwn x.n x.e.isn p.key bs else writeCistern p.key bs
  else writeKey p.key bs (some va)

/-- An element of VAMO (`new` applies the operation) or VCAS. -/
def atomicElem (x : ECx) (dm : Option TrapReq) (i : Nat) (new : Nat → Nat → Nat → Option Nat) : Op Unit := do
  match x.e.opdA x.f, x.e.opdD x.f with
  | some a, some d =>
    let t := x.e.ty
    let bc := ([x.e.opdB x.f, x.e.opdC x.f].filterMap id).map fun o => (o, t, i)
    let dl := if d.isScal then [] else [(d, t, i)]
    let (sps, ti) ← resolve x ([(a, t, i)] ++ bc ++ dl)
    let sa := (sps[0]?).getD []
    let sb := (sps.drop 1).take bc.length
    let ss := (bc.zip sb).map fun p => (⟨p.2, p.1.1.pol, .own⟩ : SUse)
    let (sp, dp) ← checkAll x dm ti (⟨sa, a.pol, .cmw⟩ :: ss)
      (⟨sa, .store, .cmw⟩ :: (sps.drop (1 + bc.length)).map fun s => ⟨s, .store, .own⟩)
    match sa.head?, sp.head?.bind (·.head?) with
    | some (va, len), some p =>
      let now ← attempt (do
        needScTurn x
        needTarget x p len
        targetNow x a.pol va len p)
      match now with
      | .ok _ | .error (.wait _) => pure ()
      | .error e => throw e
      let bs ← pullAll x (flatUses ss (sp.drop 1))
      let args ← argsOf x true bc sb (regroup ss bs)
      let old ← match now with
        | .ok v => pure v
        | .error e => throw e
      match (dp.drop 1).head?.bind (·.head?) with
      | some k => placeDst x k (t.field i).2
      | none => pure ()
      let arg := fun (k : Nat) => ((args[k]?).getD Arg.none).raw
      drawTickets x.n (ordCode x.e.ins) 1
      match new old (arg 0) (arg 1) with
      | some v => targetWrite x va p (bytesOf len v)
      | none => pure ()
      match (dp.drop 1).head?.bind (·.head?) with
      | some k => putField x t i k old
      | none => pure ()
    | _, _ => pure ()
  | _, _ => pure ()

/-- VAMO's new value. -/
def amoNew (op : AmoOp) (t : ETy) (old b _c : Nat) : Option Nat := some (amoApply op t.bits old b)
/-- VCAS's new value: none when the compare fails. -/
def casNew (old b c : Nat) : Option Nat := if old = b then some c else none

/-! ## VEMPTY, VFILL, VOWN -/

/-- An element of VEMPTY or VFILL: the words of its field change their bits (R216). -/
def bitsElem (x : ECx) (dm : Option TrapReq) (i : Nat) (full : Bool) : Op Unit := do
  match x.e.opdD x.f with
  | some d =>
    let t := x.e.ty
    let (sps, ti) ← resolve x [(d, t, i)]
    let (_, dp) ← checkAll x dm ti [] [⟨(sps[0]?).getD [], .store, .own⟩]
    match ((dp.head?).getD []).getLast? with
    | some p =>
      placeDst x p (t.field i).2
      dirtyOp (dieOf x.n) p
      markOwn x p.key (t.field i).2 full none
    | none => pure ()
  | none => pure ()

/-- The value of OWNQ for an address within a grant (06 R169). -/
def ownq (q : Seq) (a : Word) : Word :=
  let va := a.toNat
  if q.winVa ≤ va && va < q.winVa + twoMB * q.g then
    let k := (va - q.winVa) / 64
    toWord (k / (16 * q.g) * 2 ^ 16 + k % q.g * 2 ^ 8 + k / q.g % 16)
  else 0x8000000000000000

/-- An element of VOWN (R229). -/
def ownElem (x : ECx) (dm : Option TrapReq) (i : Nat) : Op Unit := do
  match x.e.opdA x.f, x.e.opdD x.f with
  | some a, some d =>
    let (sps, _) ← resolve x [(d, .int 8 false, i)]
    let (ix, ti) ← if a.isIdx then indexOf x a i else pure (0, none)
    let (_, dp) ← checkAll x dm ti [] [⟨(sps[0]?).getD [], .store, .own⟩]
    let q ← x.seq
    match dp.head?.bind (·.head?) with
    | some p =>
      placeDst x p 8
      putField x (.int 8 false) i p (ownq q (a.at x.e.ty i ix)).toNat
    | none => pure ()
  | _, _ => pure ()

/-! ## VWAIT (R227, R228) -/

/-- The active elements of VWAIT and the values it expects; every check of every element made. The flags are first read after
that, so that the traps of the addresses of all elements come before a FEEMPTY on the flag of any (log 90). -/
def vwaitStart (x : ECx) : Nat → Op (List (Nat × Nat))
  | 0 => pure []
  | k + 1 => do
    let r ← vwaitStart x k
    let (act, dm) ← match ← attempt (activity x k) with
      | .ok (a, _) => pure (a, none)
      | .error (.trap t) => pure (true, some t)
      | .error e => throw e
    if !act then return r
    else atElem k do
      match wholeTrap x.e x.f, x.e.opdA x.f, x.e.opdB x.f, x.e.opdD x.f with
      | some t, _, _, _ => throw (.trap t)
      | none, some a, some b, some d =>
        let t := x.e.ty
        let (sps, ti) ← resolve x [(a, t, k), (b, t, k), (d, .n1, k)]
        let at_ := fun (j : Nat) => (sps[j]?).getD []
        let ss : List SUse := [⟨at_ 0, a.pol, .cmw⟩, ⟨at_ 1, b.pol, .own⟩]
        let (sp, _) ← checkAll x dm ti ss [⟨at_ 2, .store, .own⟩]
        let bs ← pullAll x (flatUses (ss.drop 1) (sp.drop 1))
        let args ← argsOf x true [(b, t, k)] [at_ 1] (regroup (ss.drop 1) bs)
        return r ++ [(k, ((args[0]?).getD Arg.none).raw)]
      | none, _, _, _ => return r

/-- One reading of a flag: met, or not yet. -/
def flagMet (x : ECx) (i expect : Nat) : Op Bool := atElem i do
  match x.e.opdA x.f with
  | none => return true
  | some a =>
    let t := x.e.ty
    let (sps, ti) ← resolve x [(a, t, i)]
    let (sp, _) ← checkAll x none ti [⟨(sps[0]?).getD [], a.pol, .cmw⟩] []
    match ((sps[0]?).getD []).head?, sp.head?.bind (·.head?) with
    | some (va, len), some p =>
      needOrder x p len
      if p.tier = 0 then
        let s ← get
        if (wordsOf p.key len).all fun w => s.full (8 * w) then
          return ofBytes (← readKey (some va) p.key len) == expect
        else if a.pol then trapWith 0x09 va
        else return false
      else return ofBytes (← readFar x.n va p.key len) == expect
    | _, _ => return false

/-- The elements still unmet after one reading of each flag. -/
def flagsUnmet (x : ECx) (expect : List (Nat × Nat)) : List Nat → Op (List Nat)
  | [] => pure []
  | i :: r => do
    let m ← flagMet x i ((smapGet i expect).getD 0)
    let r ← flagsUnmet x expect r
    return (if m then r else i :: r)

/-- The places in D of the active elements of VWAIT: each is checked before the first is written (R228). -/
def vwaitPlaces (x : ECx) (d : Opd) (expect : List (Nat × Nat)) : Op (List (Nat × Phys)) := do
  let ps ← expect.mapM fun e => atElem e.1 do
    let (_, dp) ← checkAll { x with at_ := e.1 } none none [] [⟨d.spans .n1 e.1 0, .store, .own⟩]
    return (dp.head?.bind (·.head?)).map fun p => (e.1, p)
  return ps.filterMap id

/-- Write D: for an active element whether it is unmet, for an inactive one what R26 says. -/
def vwaitWrite (x : ECx) (ps : List (Nat × Phys)) (unmet : List Nat) : Nat → Op Unit
  | 0 => pure ()
  | k + 1 => do
    vwaitWrite x ps unmet k
    let x := { x with at_ := k }
    match smapGet k ps with
    | some p =>
      needOrder x p 1
      putField x .n1 k p (if unmet.contains k then 1 else 0)
    | none => zeroInactive x .n1 k

/-- Bit k of the mask that VWAIT leaves in D (R227): whether an active element is unmet; of an inactive one what R26 says. -/
def vwaitBit (s : State) (x : ECx) (expect : List (Nat × Nat)) (unmet : List Nat) (k : Nat) : Bool :=
  if expect.any (·.1 == k) then unmet.contains k
  else if vtMPOL x.e.vtype then false
  else match x.e.opdD x.f with
    | some d => (probe s (dieOf x.n) (s.seq x.n).ctx (d.at .n1 k 0).toNat).any fun p => (s.mem.num p.key 1).testBit (k % 8)
    | none => false

/-- Bits 64j to 64j + 63 of that mask. -/
def vwaitWord (s : State) (x : ECx) (expect : List (Nat × Nat)) (unmet : List Nat) (j : Nat) : Word :=
  (List.range (min 64 (x.e.vl - 64 * j))).foldl
    (fun w k => if vwaitBit s x expect unmet (64 * j + k) then w ||| (1 <<< k) else w) 0

/-- Entry k of what VWAIT logs: kind 3, then the kind-9 entries (21 R502). -/
def vwaitEntry (s : State) (x : ECx) (expect : List (Nat × Nat)) (unmet : List Nat) (k : Nat) : Nat × Word × Word :=
  if k = 0 then (3, if unmet.isEmpty then 0 else 1, toWord x.e.vl)
  else (9, vwaitWord s x expect unmet (2 * (k - 1)), vwaitWord s x expect unmet (2 * (k - 1) + 1))

/-- Log entries k to k + c - 1. -/
def vwaitRecord (x : ECx) (expect : List (Nat × Nat)) (unmet : List Nat) : Nat → Nat → Op Unit
  | 0, _ => pure ()
  | c + 1, k => do
    let e := vwaitEntry (← get) x expect unmet k
    logRecord x.n x.e.isn e.1 e.2.1 e.2.2
    vwaitRecord x expect unmet c (k + 1)

/-- The elements of the mask that kind-9 entry j of the log holds. -/
def vwaitReplay (x : ECx) (j : Nat) : Op (List Nat) := do
  let (a, b) ← logTake x.n x.e.isn 9
  return ((List.range 64).filterMap fun k => if a.getLsbD k then some (128 * j + k) else none) ++
    ((List.range 64).filterMap fun k => if b.getLsbD k then some (128 * j + 64 + k) else none)

/-- The sequencer goes on after VWAIT: one that RETT has dispatched again has its ISN already (15 R380). -/
def Seq.leaveVwait (q : Seq) (e : Entry) : Seq :=
  if q.isn = e.isn then { q with sleep := none }.retire e.ins .next else { q with sleep := none, logged := 0 }

/-- The end of VWAIT: D, then the sequencer goes on. -/
def vwaitEnd (x : ECx) (expect : List (Nat × Nat)) (unmet : List Nat) : Op Unit := do
  match x.e.opdD x.f with
  | none => pure ()
  | some d =>
    let ps ← vwaitPlaces x d expect
    vwaitWrite x ps unmet x.e.vl
  modSeqOp x.n fun q => ({ q with inflight := [] }.leaveVwait x.e).prune

/-- One move of a sleeping VWAIT in replay mode: it takes its next entry of the log, or, with all of them taken, waits without a
time-out until every element whose logged bit is 0 is met (21 R503). -/
def vwaitFollow (x : ECx) (start : Nat) (expect : List (Nat × Nat)) (unmet mask : List Nat) (total : Nat) : Op Unit := do
  let k := (← x.seq).logged
  if k = 0 then
    let _ ← logTake x.n x.e.isn 3
    modSeqOp x.n fun q => { q with logged := 1 }
  else if k < total then
    let more ← vwaitReplay x (k - 1)
    modSeqOp x.n fun q => { q with logged := k + 1, sleep := some (.vwait start expect unmet (mask ++ more)) }
  else if unmet.all fun i => mask.contains i then vwaitEnd x expect mask
  else waitFor .other

/-- One move of a VWAIT that is met or has timed out, in record mode: it logs as many entries as the ring holds at once, then
completes (21 R501, R502; log 111). -/
def vwaitLog (x : ECx) (expect : List (Nat × Nat)) (unmet : List Nat) (total : Nat) : Op Unit := do
  let s ← get
  let q := s.seq x.n
  if q.logged ≥ total then vwaitEnd x expect unmet
  else
    let c := min (total - q.logged) (logN s q.ctx)
    let h := (← logKey x.n (logBase s q.ctx) .load).key
    checkSoft (some (logBase s q.ctx)) h 16
    let s ← get
    if (toWord (s.mem.num h 8) - toWord (s.mem.num (h + 8) 8)).toNat + c > logN s q.ctx then waitFor .log
    else
      vwaitRecord x expect unmet c q.logged
      modSeqOp x.n fun q => { q with logged := q.logged + c }

/-- One move of a sleeping VWAIT: a reading that meets a flag, or its completion. -/
def vwaitMove (x : ECx) (start : Nat) (expect : List (Nat × Nat)) (unmet mask : List Nat) : Op Unit := do
  let s ← get
  let q := s.seq x.n
  let total := 1 + ceilDiv x.e.vl 128
  let m := logMode s q.ctx
  let u ← if m = 1 && q.logged != 0 then pure unmet else flagsUnmet x expect unmet
  if u != unmet then modSeqOp x.n fun q => { q with sleep := some (.vwait start expect u mask) }
  else if m = 2 then vwaitFollow x start expect u mask total
  else
    let t := x.e.w 5
    if !u.isEmpty && !(t != 0 && (s.pkg.tick - toWord start).toNat ≥ t.toNat) && q.logged = 0 then waitFor .other
    else if m = 1 then vwaitLog x expect u total
    else vwaitEnd x expect u

end Sys2Proof.Machine
end

