-- ==== Sys2Proof/Machine/ScalarMem.lean ====
section
/-!
DEFINITION. Scalar loads, stores and atomics (spec/06_scalar.md R140 to R144; spec/02_machine.md R50), also in handler
mode (spec/15_contexts.md R378, R379). An access that cannot be performed at issue stays in flight as an entry, and
its register is written when it completes.
-/
namespace Sys2Proof.Machine

/-- What a scalar access does. -/
inductive SKind where
  | ld | ldfe | st | amo (op : AmoOp) | cas
  deriving DecidableEq, Repr

/-- A scalar access: bytes, registers, displacement and ordering code. -/
structure SAcc where
  kind : SKind
  size : Nat
  rd : Reg
  ra : Reg
  rb : Reg
  off : Word
  ord : Ord
  deriving DecidableEq, Repr

/-- The access of a scalar memory instruction; `w` of an atomic is its 32-bit form. -/
def smem : Instr → Option SAcc
  | .ld rd ra imm => some ⟨.ld, 8, rd, ra, 0, sext imm, .none⟩
  | .st rs ra imm => some ⟨.st, 8, rs, ra, 0, sext imm, .none⟩
  | .ldfe rd ra imm => some ⟨.ldfe, 8, rd, ra, 0, sext imm, .none⟩
  | .amo op o w rd rb ra => some ⟨.amo op, if w then 4 else 8, rd, ra, rb, 0, o⟩
  | .amocas o w rd rb ra => some ⟨.cas, if w then 4 else 8, rd, ra, rb, 0, o⟩
  | .cLd rd n => some ⟨.ld, 8, rd, 1, 0, toWord (8 * n.toNat), .none⟩
  | .cSt rd n => some ⟨.st, 8, rd, 1, 0, toWord (8 * n.toNat), .none⟩
  | _ => none

/-- The permission that the access needs (13 R332). -/
def SKind.acc : SKind → Access
  | .ld | .ldfe => .load
  | .st => .store
  | .amo _ | .cas => .atomic

/-- The tiers that the access accepts (R141 to R143). -/
def SKind.tiers : SKind → Nat
  | .ld | .st => tiersAll
  | .ldfe => tiersCist
  | .amo _ | .cas => tiersCMW

/-- The access writes its register: all but stores. -/
def SKind.loads : SKind → Bool
  | .st => false
  | _ => true

/-- The captured words of a scalar entry: xd, xa and xb (15 R377). -/
def SAcc.capture (a : SAcc) (q : Seq) : List Word := [q.getX a.rd, 0, q.getX a.ra, 0, q.getX a.rb, 0, 0, 0, 0]

/-- The value that a load or an atomic writes: sign-extended from 32 bits when `.w` (R143). -/
def SAcc.result (a : SAcc) (old : Nat) : Word := if a.size = 4 then intWord (signedOf 32 old) else toWord old

/-! ## Who may go first -/

/-- A higher access waits for lower instructions: acquires and their like, and under `.rel` and `.sc` for all of them
(08 R217, R218). -/
def scalarOrder (n : Nat) (isn : BitVec 32) (o : Ord) : Op Unit := do
  let s ← get
  let q := s.seq n
  if q.inflight.any fun e => isnLt e.isn isn && blocksLater e then waitFor .other
  else if ordRel o && !q.allDoneBelow isn then waitFor .other
  else pure ()

/-- An access outside the window waits for lower accesses to the same bytes (02 R50), and on an SO page for lower accesses and
landings on SO pages (13 R333). -/
def scalarFar (n : Nat) (isn : BitVec 32) (key len kind : Nat) : Op Unit := do
  let s ← get
  if (s.seq n).inflight.any fun e => isnLt e.isn isn && mayTouch s n e key len (kind == 0) then waitFor .other
  else if kind = 0 && soLandingDue s n isn then waitFor .landing
  else pure ()

/-! ## Handler mode (15 R379) -/

/-- Replace bytes of a list from a place on. -/
def putBytes (l : List Byte) (o : Nat) (bs : List Byte) : List Byte := l.take o ++ bs ++ l.drop (o + bs.length)

/-- What was kept of words for pulls goes: the handler changes them for every resumed pull. -/
def Seq.dropKept (q : Seq) (ws : List Nat) : Seq :=
  { q with reads := q.reads.filter fun r => !ws.contains r.1, kept := q.kept.filter fun k => !ws.contains k.word }

/-- A handler's store to its window also changes every version entry and overflow copy of the line. -/
def storeVersions (q : Seq) (key : Nat) (bs : List Byte) : Seq :=
  { (q.dropKept (wordsOf key bs.length)) with
    versions := q.versions.map fun v =>
      if v.line = q.lineOf key then
        { v with data := putBytes v.data (key % 64) bs,
                 full := v.full.zipIdx.map fun p => p.1 || (wordsOf key bs.length).contains (key / 64 * 8 + p.2) }
      else v }

/-- A write to the window by the handler. -/
def handlerWrite (n key : Nat) (bs : List Byte) : Op Unit := do
  writeCistern key bs
  modifyGet fun s => ((), s.modSeq n fun q => storeVersions q key bs)

/-- The handler's LDFE empties the word for every reader. -/
def handlerEmpty (n key : Nat) : Op Unit := modify fun s =>
  (s.markWords [key / 8] false).modSeq n fun q =>
    { (q.dropKept [key / 8]) with
      versions := q.versions.map fun v =>
        if v.line = q.lineOf key then { v with full := v.full.zipIdx.map fun p => p.1 && p.2 != key / 8 % 8 } else v }

/-! ## Performing the access -/

/-- The bytes that a load or an atomic finds, once the word is full. -/
def scalarRead (n : Nat) (isn : BitVec 32) (k : SKind) (va key len tier : Nat) : Op (List Byte) := do
  let q ← getSeq n
  if tier = 0 then
    if q.inWin key && q.mode != .handler then pullOwn n isn 0 va key len false else readForeign va key len false
  else match k with
    | .amo _ | .cas => do
      modify (drainAt n key len)
      readKey (some va) key len
    | _ => do
      let bs ← readFar n va key len
      if tier = 3 && q.mode != .handler then return bytesOf len (← hostValue n isn 0 (ofBytes bs)) else pure bs

/-- Write the bytes of a store or an atomic (13 R339). -/
def scalarWrite (n : Nat) (isn : BitVec 32) (k : SKind) (va : Nat) (p : Phys) (bs : List Byte) : Op Unit := do
  dirtyOp (dieOf n) p
  let q ← getSeq n
  if p.tier = 0 then
    if q.inWin p.key then (if q.mode = .handler then handlerWrite n p.key bs else writeOwn n isn p.key bs)
    else writeCistern p.key bs
  else match k with
    | .st => writeFar n false va p bs
    | _ => writeKey p.key bs (some va)

/-- LDFE leaves the word empty (R142). -/
def scalarTake (n : Nat) (isn : BitVec 32) (key : Nat) : Op Unit := do
  let q ← getSeq n
  if q.inWin key then
    if q.mode = .handler then handlerEmpty n key
    else
      saveVersion n isn key
      modify fun s => s.markWords [key / 8] false
  else modify fun s => (s.keepOld key 8).markWords [key / 8] false

/-- Perform an access whose address has been translated, as ISN `isn`, with xd and xb; the value for xd. A release is a drain point,
in handler mode too (21 R500). -/
def scalarDo (n : Nat) (isn : BitVec 32) (a : SAcc) (va : Nat) (p : Phys) (xd xb : Word) : Op Word := do
  let q ← getSeq n
  let m := 2 ^ (8 * a.size)
  if q.mode != .handler then
    scalarOrder n isn a.ord
    if p.tier = 0 && q.inWin p.key then
      if !q.doneBelow (q.ownerOf p.key) isn then waitFor .other
    if !(p.tier = 0 && q.inWin p.key) || p.kind = 0 then scalarFar n isn p.key a.size p.kind
  if ordRel a.ord then drainNow n
  match a.kind with
  | .ld =>
    let bs ← scalarRead n isn .ld va p.key a.size p.tier
    return a.result (ofBytes bs)
  | .ldfe =>
    let bs ← scalarRead n isn .ldfe va p.key a.size p.tier
    scalarTake n isn p.key
    return a.result (ofBytes bs)
  | .st =>
    scalarWrite n isn .st va p (bytesOf a.size xd.toNat)
    return 0
  | .amo op =>
    let bs ← scalarRead n isn (.amo op) va p.key a.size p.tier
    drawTickets n a.ord 1
    scalarWrite n isn (.amo op) va p (bytesOf a.size (amoApply op (8 * a.size) (ofBytes bs) (xb.toNat % m)))
    return a.result (ofBytes bs)
  | .cas =>
    let bs ← scalarRead n isn .cas va p.key a.size p.tier
    drawTickets n a.ord 1
    if ofBytes bs = xd.toNat % m then
      scalarWrite n isn .cas va p (bytesOf a.size (xb.toNat % m))
    return a.result (ofBytes bs)

/-- The entry of an access that waits in flight: `pulled` holds its key, its leaf and the key of
the entry that holds the leaf. -/
def Seq.scalarEntry (q : Seq) (i : Instr) (a : SAcc) (p : Phys) : Entry :=
  { isn := q.isn, pc := q.pc, ins := i, cap := a.capture q, capB1 := 0, capC1 := 0, vl := q.vl, vtype := q.vtype,
    maskAddr := 0, cvalid := q.cvalid, cgkey := q.cgkey, cgdraw := q.cgdraw, cldL := q.cld &&& 0xFFFFFFFFFFFF,
    sdest := if a.kind.loads then some a.rd else none, token := 0, gs := List.replicate q.g ⟨0, false, [], false⟩,
    pulled := [(0, p.key, p.leaf.toNat), (1, p.entry, 0)], waves := q.g, flags := 0, owners := [], odd := [] }

/-- A scalar memory instruction at issue: its checks, then the access, or an entry in flight while it must wait. -/
def scalarMem (i : Instr) (a : SAcc) (n : Nat) : Op Ctl := do
  let q ← getSeq n
  let va := q.getX a.ra + a.off
  let p ← scalarAddr n va a.size a.kind.acc a.kind.tiers (a.kind != .st)
  match ← attempt (scalarDo n q.isn a va.toNat p (q.getX a.rd) (q.getX a.rb)) with
  | .ok v =>
    if a.kind.loads then putX n a.rd v
    pure .next
  | .error (.wait k) =>
    if q.mode = .handler then waitFor k
    else
      modSeqOp n fun q => { q with inflight := q.inflight ++ [q.scalarEntry i a p] }
      pure .next
  | .error e => throw e

/-- LD (R141). -/
def execLd (rd ra : Reg) (imm : BitVec 15) (s : State) : Res :=
  issue (.ld rd ra imm) (scalarMem (.ld rd ra imm) ⟨.ld, 8, rd, ra, 0, sext imm, .none⟩) s
/-- ST (R141). -/
def execSt (rs ra : Reg) (imm : BitVec 15) (s : State) : Res :=
  issue (.st rs ra imm) (scalarMem (.st rs ra imm) ⟨.st, 8, rs, ra, 0, sext imm, .none⟩) s
/-- LDFE (R142). -/
def execLdfe (rd ra : Reg) (imm : BitVec 15) (s : State) : Res :=
  issue (.ldfe rd ra imm) (scalarMem (.ldfe rd ra imm) ⟨.ldfe, 8, rd, ra, 0, sext imm, .none⟩) s
/-- AMO (R143). -/
def execAmo (op : AmoOp) (o : Ord) (w : Bool) (rd rb ra : Reg) (s : State) : Res :=
  issue (.amo op o w rd rb ra) (scalarMem (.amo op o w rd rb ra) ⟨.amo op, if w then 4 else 8, rd, ra, rb, 0, o⟩) s
/-- AMOCAS (R143). -/
def execAmocas (o : Ord) (w : Bool) (rd rb ra : Reg) (s : State) : Res :=
  issue (.amocas o w rd rb ra) (scalarMem (.amocas o w rd rb ra) ⟨.cas, if w then 4 else 8, rd, ra, rb, 0, o⟩) s
/-- Compact LD (05 R118). -/
def execCLd (rd : Reg) (n : BitVec 6) (s : State) : Res :=
  issue (.cLd rd n) (scalarMem (.cLd rd n) ⟨.ld, 8, rd, 1, 0, toWord (8 * n.toNat), .none⟩) s
/-- Compact ST (05 R118). -/
def execCSt (rd : Reg) (n : BitVec 6) (s : State) : Res :=
  issue (.cSt rd n) (scalarMem (.cSt rd n) ⟨.st, 8, rd, 1, 0, toWord (8 * n.toNat), .none⟩) s

end Sys2Proof.Machine
end

