-- ==== Sys2Proof/Machine/Element.lean ====
section
/-!
DEFINITION. What a group does next: the elements of the instruction it is executing, in ascending order
(spec/02_machine.md R45, R48, R53, R56, R58), the bank side of tile and pump instructions (spec/10_matrix.md R271,
R272; spec/11_pumps.md R286), combining instructions (spec/07_vector_compute.md R186, R201 to R207), scalar accesses
in flight, the power regimes (spec/12_attention.md R324 to R326), and how an element trap is raised
(spec/15_contexts.md R372).
-/
namespace Sys2Proof.Machine

/-! ## Bank side of ACCIN and DRAIN (10 R259, R271, R272) -/

/-- The accumulator place of element i (10 R259). -/
def accPlace (arow : BitVec 9) (acol ncol1 : BitVec 7) (i : Nat) : Nat × Nat :=
  let ncol := ncol1.toNat + 1
  ((arow.toNat + i / ncol) % 512, acol.toNat + i % ncol)

/-- Add items to the engine command of an entry, in ascending element order; they come from the sequencer that holds the thread
now. -/
def sendItems (x : ECx) (is : List AccItem) : Op Unit := modify fun s =>
  s.modCmd x.n x.e.isn fun m =>
    { m with sq := x.n, items := is.foldl (fun l a => l.filter (·.elem < a.elem) ++ a :: l.filter (·.elem > a.elem)) m.items }

/-- An active element of ACCIN. -/
def accinElem (x : ECx) (dm : Option TrapReq) (i : Nat) (pl : Nat × Nat) : Op Unit := do
  match x.e.opdA x.f with
  | none => pure ()
  | some a =>
    let (args, _) ← readElem x dm [(a, x.e.ty, i, .cist)] []
    let v := ((args[0]?).getD Arg.none).val
    let r := deliver .w48 (x.e.rnd i) (.exact v (if x.e.ty.clsF then sigNV v else 0))
    sendItems x [⟨i, pl.1, pl.2, r.1, 0, false⟩]
    raiseOp x.n r.2

/-- The landings that a DRAIN's words wait for: none once its command has been abandoned (09 R243). -/
def drainSrc (x : ECx) : Op (Option MarkSrc) := do
  let s ← get
  let mine := fun (m : MCmd) => m.runId == (s.seq x.n).runId && m.isn == x.e.isn
  return if s.dies.toList.any fun d => d.engines.any fun e => e.queue.any mine then some .drain else none

/-- An active element of DRAIN: its words in the window are marked empty, and its entry requested. -/
def drainElem (x : ECx) (dm : Option TrapReq) (i : Nat) (pl : Nat × Nat) : Op Unit := do
  match x.e.opdD x.f with
  | none => pure ()
  | some d =>
    let t := x.e.ty
    let (sps, ti) ← resolve x [(d, t, i)]
    let (_, dp) ← checkAll x dm ti [] [⟨(sps[0]?).getD [], .store, .ownOrFar⟩]
    match dp.head?.bind (·.head?) with
    | some p =>
      if p.tier = 0 then
        placeDst x p (t.field i).2
        markOwn x p.key (t.field i).2 false (← drainSrc x)
      dirtyOp (dieOf x.n) p
      sendItems x [⟨i, pl.1, pl.2, 0, p.key, p.tier = 0⟩]
    | none => pure ()

/-- A block of a blk destination of DRAIN (R273), which must lie in the window (R272): its active lanes are requested; a lane
that MPOL zeroes is an item with row 512. Where only some blocks lie outside the window, each is tested at its own place, after
its translation and permission, so that those before it commit (log 106). -/
def drainBlock (x : ECx) (w first : Nat) (pl : Nat → Nat × Nat) : Op Unit := do
  let lanes ← lanesOf x first (blkN w)
  match firstActive lanes, x.e.opdD x.f with
  | some j, some d => atElem (first + j) do
    match wholeTrap x.e x.f with
    | some r => throw (.trap r)
    | none =>
      let va := (d.base + toWord (64 * (first / blkN w))).toNat
      let (_, dp) ← checkAll x (laneTrap lanes) none [] [⟨[(va, 64)], .store, .any⟩]
      match dp.head?.bind (·.head?) with
      | some p =>
        if !zoneOk .own (← x.seq) p then trapWith 0x03 0
        if lanes.any Lane.needs then
          let _ ← blockNow x w va p.key (lanes.map Lane.needs)
        placeDst x p 64
        dirtyOp (dieOf x.n) p
        markOwn x p.key 64 false (← drainSrc x)
        sendItems x ((lanes.zipIdx.filterMap fun l => match l.1 with
          | .active .. => some ⟨first + l.2, (pl (first + l.2)).1, (pl (first + l.2)).2, 0, p.key, true⟩
          | .zero => some ⟨first + l.2, 512, 0, 0, p.key, true⟩
          | .keep => none))
      | none => pure ()
  | none, some d =>
    if lanes.contains .zero && (← x.treats) then
      match ← quietDst x d (.blk w) first with
      | some p =>
        let va := (d.base + toWord (64 * (first / blkN w))).toNat
        let outs : List Out := lanes.map fun _ => .bits 0 0
        blockWith x w first lanes va p outs
      | none => pure ()
    else pure ()
  | _, _ => pure ()

/-! ## Bank side of the pumps (11 R286, R288) -/

/-- The parts of n bytes at an address that lie in different lines. -/
def lineParts : Nat → Nat → Nat → List (Nat × Nat)
  | 0, _, _ => []
  | fuel + 1, a, n =>
    if n = 0 then []
    else
      let k := min n (64 - a % 64)
      (a, k) :: lineParts fuel (a + k) (n - k)

/-- Mark the destination words that lie in the window, as a write of the instruction. -/
def markPump (x : ECx) (src : Option MarkSrc) : List (Nat × Nat) → Op Unit
  | [] => pure ()
  | (va, len) :: r => do
    let s ← get
    let q := s.seq x.n
    match probe s (dieOf x.n) q.ctx va with
    | some p => if p.tier = 0 && q.inWin p.key then markOwn x p.key len false src
    | none => pure ()
    markPump x src r

/-- The index vector that a pump instruction reads through the banks: row numbers under the policy of A, or the destination's
own. -/
def pumpIndex (k : PKind) (a d : Opd) : Option Opd := match k with
  | .gath => some a
  | .scat => some { d with pol := a.pol }
  | _ => if d.isIdx then some d else none

/-- The pump instruction works on elements of a size, not on rows. -/
def PKind.sized : PKind → Bool
  | .gath | .scat => false
  | _ => true

/-- What is bound to a PFILL with an indexed destination learns where an element is filled (11 R296). -/
def Seq.noteFill (q : Seq) (isn : BitVec 32) (i a : Nat) : Seq :=
  let put := fun (r : StreamReg) => if r.index != 0 && r.isn == isn then { r with addrs := smapSet i a r.addrs } else r
  { q with sqr := q.sqr.map put, copyLog := q.copyLog.map put }

/-- An active element of a pump instruction: its row number or index entry is read, its destination words in the window
are marked empty, and it reaches the pump. The sized elements are aligned (02 R41; 03 R59; log 66). -/
def pumpElem (x : ECx) (dm : Option TrapReq) (k : PKind) (i : Nat) : Op Unit := do
  match x.e.opdA x.f, x.e.opdD x.f with
    | some a, some d =>
      if k.sized && !a.isScal then needAligned (x.e.tyA x.f) (a.at (x.e.tyA x.f) i 0).toNat
      if k.sized && !d.isIdx then needAligned (x.e.tyD x.f) (d.at (x.e.tyD x.f) i 0).toNat
      let row := x.e.rowLen
      let pitch := if fld (x.e.w 8) 32 32 = 0 then row else fld (x.e.w 8) 32 32
      let (ix, ti) ← match pumpIndex k a d with
        | some o => indexOf x o i
        | none => pure (0, none)
      if k.sized && d.isIdx then needAligned (x.e.tyD x.f) (d.at (x.e.tyD x.f) i ix).toNat
      let _ ← checkAll x dm ti [] []
      let size := match k with
        | .gath | .scat => row
        | _ => (x.e.tyD x.f).size
      let dst := match k with
        | .gath => d.base + toWord (i * row)
        | .scat => d.base + intWord (ix * pitch)
        | _ => d.at (x.e.tyD x.f) i ix
      let s ← get
      let alive := (s.copyHome (copyId (s.seq x.n).runId x.e.isn)).isSome
      markPump x (if alive then some .pump else none) (lineParts (size / 64 + 2) dst.toNat size)
      let arg := match k with
        | .gath | .scat => ix.toNat
        | _ => dst.toNat
      if d.isIdx && k.sized then modSeqOp x.n (·.noteFill x.e.isn i arg)
      modify fun s => s.modCopy x.n x.e.isn fun c => { c with sq := x.n, ready := c.ready ++ [⟨i, arg⟩] }
    | _, _ => pure ()

/-! ## One element or block -/

/-- An active element whose instruction has a trap of its own as a whole raises that trap. -/
def activeElem (x : ECx) (dm : Option TrapReq) (i : Nat) (mb : Bool) : Op Unit := do
  match wholeTrap x.e x.f with
  | some r => throw (.trap r)
  | none =>
    match x.f.op with
    | .vld _ => vldElem x dm i
    | .vst _ | .vstx _ => vstElem x dm i
    | .amo op _ => atomicElem x dm i (amoNew op x.e.ty)
    | .cas _ => atomicElem x dm i casNew
    | .empty => bitsElem x dm i false
    | .fill => bitsElem x dm i true
    | .own => ownElem x dm i
    | .accin r c n => accinElem x dm i (accPlace r c n i)
    | .drain _ r c n => drainElem x dm i (accPlace r c n i)
    | .pump k _ _ => pumpElem x dm k i
    | _ => computeElem x dm i mb

/-- An inactive element (01 R26; 03 R75; 10 R271, R272; 11 R288). -/
def inactiveElem (x : ECx) (i : Nat) : Op Unit := do
  match x.f.op with
  | .vst _ | .vstx _ | .empty | .fill => pure ()
  | .pump .. => modify fun s =>
    let id := copyId (s.seq x.n).runId x.e.isn
    match s.copyHome id with
    | some (d, p) => copyDone s d p id i
    | none => s
  | .accin r c n =>
    if vtMPOL x.e.vtype then sendItems x [⟨i, (accPlace r c n i).1, (accPlace r c n i).2, 0, 0, false⟩] else pure ()
  | _ => if skipsElem x i then pure () else zeroInactive x (x.e.tyD x.f) i

/-- Elements that an instruction executes together: a block of a blk or mx4 destination, else one. -/
def blockLen (x : ECx) : Nat := match x.f.op, x.e.tyD x.f with
  | .cvt _, .mx4 => 32
  | .merge, .blk w | .mv, .blk w | .fbin _, .blk w | .ffma, .blk w | .cvt _, .blk w | .vld _, .blk w | .vst _, .blk w
  | .vstx _, .blk w | .drain .., .blk w => blkN w
  | _, _ => 1

/-- The block that begins at an element. -/
def blockUnit (x : ECx) (w first : Nat) : Op Unit := match x.f.op, x.e.tyD x.f with
  | .cvt _, .mx4 => mxBlock x first
  | .vld _, _ => vldBlock x w first
  | .vst _, _ | .vstx _, _ => vstBlock x w first
  | .drain _ r c n, _ => drainBlock x w first (accPlace r c n)
  | _, _ => computeBlock x w first

/-- The width of the block type of D. -/
def blockW (x : ECx) : Nat := match x.e.tyD x.f with
  | .blk w => w
  | _ => 0

/-- Inactive elements are dealt with; those of a pump instruction always, since its copy counts them (11 R288, R290). -/
def ECx.tends (x : ECx) : Op Bool := match x.f.op with
  | .pump .. => pure true
  | _ => x.treats

/-- The element or block at i. -/
def execUnit (x : ECx) (i : Nat) : Op Unit := do
  if blockLen x > 1 then blockUnit x (blockW x) i
  else match ← attempt (activity x i) with
    | .ok (true, mb) => activeElem x none i mb
    | .ok (false, _) => if ← x.tends then inactiveElem x i else pure ()
    | .error (.trap t) => activeElem x (some t) i true
    | .error e => throw e

/-! ## Combining instructions (07 R186) -/

/-- A combining instruction, which writes nothing before every active element has been pulled. -/
def VOp.combines : VOp → Bool
  | .dots | .red _ | .scan _ | .mscal _ => true
  | _ => false

/-- The place in `pulled` of VDOTS's starting value, above every element. -/
def startSlot : Nat := 2 ^ 32

/-- Keep what was pulled for a place. -/
def keepPulled (x : ECx) (i a b : Nat) : Op Unit := modSeqOp x.n fun q =>
  let put := fun (e : Entry) => { e with pulled := smapSet i (a, b) e.pulled }
  { q with inflight := updFirst (fun e => e.isn == x.e.isn) put q.inflight }

/-- Element 0 of a memory destination of VDOTS or VRED, with its type; none when its own mode or base is refused (log 86). -/
def combDst (x : ECx) : List (Opd × ETy × Nat × Access × Zone) := match x.f.op, x.e.opdD x.f with
  | .dots, some d | .red _, some d =>
    if d.isScal || badMode (some d) (x.e.tyD x.f) || (badBase (some d) (x.e.tyD x.f)).isSome then []
    else [(d, x.e.tyD x.f, 0, .store, .own)]
  | _, _ => []

/-- Before any element: the destination's checks and VDOTS's starting value, reported with vector start 0 (R186,
R201), whatever the active set; not of an instruction that its active elements stop as a whole. -/
def combStart (x : ECx) : Op Unit := do
  if (x.e.got startSlot).isSome then pure ()
  else if !(← x.treats) then pure ()
  else
    let (_, dst) ← atElem 0 (readElemBy false x none [] (combDst x))
    let k := (physOf dst).key
    match x.f.op, x.e.opdC x.f with
    | .dots, some c =>
      let (args, _) ← atElem 0 (readElemBy false x none [(c, .w48, 0, .cist)] [])
      keepPulled x startSlot ((args[0]?).getD Arg.none).raw k
    | _, _ => keepPulled x startSlot 0 k

/-- Element i of a combining instruction is pulled. -/
def combPull (x : ECx) (i : Nat) : Op Unit := do
  let act ← attempt (activity x i)
  let go := fun (dm : Option TrapReq) => do
    match wholeTrap x.e x.f with
    | some r => (throw (.trap r) : Op Unit)
    | none =>
      let srcs := match x.f.op with
        | .dots => [(x.e.opdA x.f, x.e.tyA x.f), (x.e.opdB x.f, x.e.tyB x.f)]
        | _ => [(x.e.opdA x.f, x.e.tyA x.f)]
      let ds := match x.f.op, x.e.opdD x.f with
        | .scan _, some d => [(d, x.e.tyD x.f, i, Access.store, Zone.own)]
        | _, _ => []
      let (args, dst) ← readElem x dm (srcs.filterMap fun p => p.1.map fun o => (o, p.2, i, srcZone p.2)) ds
      let second := if ds.isEmpty then ((args[1]?).getD Arg.none).raw else (physOf dst).key
      keepPulled x i ((args[0]?).getD Arg.none).raw second
  match act with
  | .ok (true, _) => go none
  | .ok (false, _) => pure ()
  | .error (.trap t) => go (some t)
  | .error e => throw e

/-- The place, found when the elements were pulled, at which a combining instruction writes a key: the leaf and the entry that
the destination's address has now go with it, for its dirty bit. -/
def placeAt (x : ECx) (d : Opd) (t : ETy) (i key : Nat) : Op Phys := do
  let s ← get
  let p := (peekAt s x d t i).bind (probe s (dieOf x.n) (s.seq x.n).ctx)
  return match p with
    | some p => if p.key = key then p else ⟨key, 1 <<< 57, 0⟩
    | none => ⟨key, 1 <<< 57, 0⟩

/-- Write the values of VSCAN where its elements were checked when they were pulled, and zero inactive elements. -/
def scanWrite (x : ECx) (d : Opd) (vs : List (Nat × Nat)) : Nat → Op Unit
  | 0 => pure ()
  | k + 1 => do
    scanWrite x d vs k
    let x := { x with at_ := k }
    match smapGet k vs, x.e.got k with
    | some v, some p => putField x x.e.ty k (← placeAt x d x.e.ty k p.2) v
    | _, _ => zeroInactive x x.e.ty k

/-- Write one result to a scalar destination, or to a memory destination where it was checked before any element was pulled. -/
def combOut (x : ECx) (t : ETy) (raw : Nat) (scal : Word) : Op Unit := do
  match x.f.d, combDst x, x.e.got startSlot with
  | some (.scal r), _, _ => putX x.n r scal
  | _, (d, _) :: _, some p => if x.e.vl = 0 then pure () else putField x t 0 (← placeAt x d t 0 p.2) raw
  | _, _, _ => pure ()

/-- VDOTS's starting value; with no element it is read here, unchecked (R201). A C in memory that cannot be read traps at
element 0 all the same: R201 gives no value then (log 94). -/
def dotsC (x : ECx) : Op Nat := do
  match x.e.got startSlot, x.e.opdC x.f with
  | some p, _ => pure p.1
  | none, some c =>
    if c.isScal then return c.base.toNat
    else atElem 0 do
      let (sps, ti) ← resolve x [(c, .w48, 0)]
      let ss : List SUse := sps.map fun sp => ⟨sp, c.pol, .cist⟩
      let (sp, _) ← checkAll x none ti ss []
      let bs ← pullAll x (flatUses ss sp)
      return ofBytes (bs.headD [])
  | none, none => pure 0

/-- The end of a combining instruction: its result and its flags. With no active element a type that it does not accept
leaves it without effect (R179); nothing else does (02 R518). -/
def combEnd (x : ECx) : Op Unit := do
  if (x.e.pulled.all fun p => p.1 = startSlot) && !x.f.op.accepts x.e.ty then pure ()
  else match x.f.op with
    | .dots =>
      if x.e.vl = 0 && !(x.e.opdD x.f).any Opd.isScal then pure ()
      else
        let c ← dotsC x
        if x.e.vl = 0 then combOut x .w48 0 (toWord (c % 2 ^ 48))
        else
          let r := dotsResult x.e c
          combOut x .w48 r.1 (toWord r.1)
          raiseOp x.n r.2
    | .red o =>
      let r := redResult o x.e
      combOut x x.e.ty r.1 (redScalar x.e.ty r.1)
      raiseOp x.n r.2
    | .scan o =>
      let r := scanResult o x.e
      match x.e.opdD x.f with
      | some d => scanWrite x d r.1 x.e.vl
      | none => pure ()
      raiseOp x.n r.2
    | .mscal o => combOut x .n1 0 (mscalResult o { x.e with pulled := x.e.pulled.filter fun p => p.1 != startSlot })
    | _ => pure ()

/-! ## Progress of a group -/

/-- Group g has completed the entry. -/
def setFin (n g : Nat) (isn : BitVec 32) : Op Unit := modSeqOp n fun q =>
  q.modEntry isn fun e => e.modG g fun c => { c with next := e.vl, fin := true }

/-- Group g has executed every element that it owns. While an element that an unreadable index entry left with its home is
due, which any group may have to execute, no group completes the entry (02 R45, R49). -/
def groupEnd (x : ECx) (g : Nat) : Op Unit := do
  if x.e.odd.isEmpty then setFin x.n g x.e.isn
  else if (x.e.ctr g).next < x.e.vl then
    modSeqOp x.n fun q => q.modEntry x.e.isn fun e => e.modG g fun c => { c with next := e.vl }
  else waitFor .other

/-- Entries that every group has completed leave the sequencer; their work outside it is closed, their scalar
destinations are written, and versions below the new low-water ISN are freed (02 R48, R54). -/
def settle (s : State) (n : Nat) : State :=
  let done := (s.seq n).inflight.filter fun e => e.gs.all (·.fin)
  let s := done.foldl (fun s e => finishWork s n e.isn) s
  s.modSeq n fun q => { q with inflight := q.inflight.filter fun e => !e.gs.all (·.fin) }.prune

/-- Issue stops: every group has begun the entry it stands in (15 R372, R387). -/
def Seq.markBegun (q : Seq) : Seq :=
  let here := fun (e : Entry) (c : GCtr × Nat) =>
    if !c.1.fin && (q.current c.2).any (fun x => x.isn == e.isn && mayBegin q c.2 x) then { c.1 with begun := true }
    else c.1
  { q with inflight := q.inflight.map fun e => { e with gs := e.gs.zipIdx.map (here e) } }

/-- A group raises an element trap (15 R372). -/
def raiseTrap (n g : Nat) (isn : BitVec 32) (elem : Nat) (r : TrapReq) : Op Unit := modSeqOp n fun q =>
  let q := if q.gtraps.isEmpty then q.markBegun else q
  { q with gtraps := q.gtraps ++ [⟨g, isn, elem, r⟩] }

/-- Run a move whose trap is group g's at element i. -/
def orTrap (n g : Nat) (isn : BitVec 32) (i : Nat) (m : Op Unit) (after : Op Unit) : Op Unit := do
  match ← attempt m with
  | .ok _ => after
  | .error (.trap r) => raiseTrap n g isn i r
  | .error (.etrap k r) => raiseTrap n g isn k r
  | .error e => throw e

/-! ## One move of a group -/

/-- An element trap has been raised at element i of the entry. -/
def Seq.trappedAt (q : Seq) (isn : BitVec 32) (i : Nat) : Bool := q.gtraps.any fun t => t.isn == isn && t.elem == i

/-- Element i stands with its home although its index entry, read again, gives another owner: that owner (02 R45). -/
def lentTo (q : Seq) (x : ECx) (i : Nat) : Option Nat :=
  if x.e.odd.contains i then ((smapGet i x.e.owners).map (· % q.g)).filter (· != homeOf q x i) else none

/-- Group g stands at the element, or executes it. An inactive element for which nothing is written reads no index entry, and
belongs to its home. -/
def ownsElem (x : ECx) (g i : Nat) : Op Bool := do
  let x := { x with at_ := i }
  if !x.zeroes && ((deciding x.e x.f).any fun p => p.1.isIdx) then
    match ← attempt (activity x i) with
    | .ok (false, _) => return homeOf (← x.seq) x i == g
    | .error (.wait k) => waitFor k
    | _ => pure ()
  let g' ← ownerOf x i
  let q ← x.seq
  return g' == g || (lentTo q x i == some g && !q.trappedAt x.e.isn i)

/-- The next element at or above i that group g owns, in steps of a block. -/
def nextOwned (x : ECx) (g len : Nat) : Nat → Nat → Op (Option Nat)
  | 0, _ => pure none
  | fuel + 1, i => do
    if i ≥ x.e.vl then return none
    else if ← ownsElem x g i then return some i
    else nextOwned x g len fuel (i + len)

/-- The first element below those that group g has passed which it is to execute after all: an index entry that could not be read
before gives it now (02 R45). -/
def lateElem (q : Seq) (x : ECx) (g : Nat) : Option Nat :=
  x.e.odd.find? fun i => i < (x.e.ctr g).next && lentTo q x i == some g && !q.trappedAt x.e.isn i

/-- Group g, the home of an element whose index entry could not be read, reads the entry again: false when another group is to
execute the element, for which g waits at it. -/
def readAgain (x : ECx) (g i : Nat) : Op Bool := do
  let q ← x.seq
  match lentTo q x i with
  | some _ => if q.trappedAt x.e.isn i then waitFor .other else return lentTo q x i == some g
  | none => match deciding x.e x.f with
    | some (o, t) => match ← entryOwner x o t i with
      | some g' => return g' == homeOf q x i
      | none => return true
    | none => return true

/-- Element i of an entry, which group g executes, has been executed. -/
def commitElem (n g len i : Nat) (isn : BitVec 32) : Op Unit := modSeqOp n fun q => q.modEntry isn fun e =>
  { e.modG g fun c => { c with next := max c.next (i + len) } with odd := nsetDel i e.odd }

/-- Group g executes an element or block, or pulls an element of a combining instruction. A trap of an element that its home has
lent is its home's, which stands at it. -/
def runElem (x : ECx) (g len i : Nat) : Op Unit := do
  let q ← x.seq
  let by_ := if (lentTo q x i).isSome then homeOf q x i else g
  orTrap x.n by_ x.e.isn i (if x.f.op.combines then combPull x i else execUnit x i) (commitElem x.n g len i x.e.isn)

/-- One move of group g in a vector instruction. -/
def vectorMove (x : ECx) (g : Nat) : Op Unit := do
  let isn := x.e.isn
  let q ← x.seq
  let len := blockLen x
  if ordRel (ordCode x.e.ins) then drainNow x.n
  if x.f.op.combines && x.e.vl != 0 then
    orTrap x.n g isn 0 (combStart x) (pure ())
    if (← x.seq).gtraps.any (fun t => t.grp == g) then return ()
  match lateElem (← x.seq) x g with
  | some i => return ← runElem { x with at_ := i } g len i
  | none => pure ()
  let next ← nextOwned x g len (x.e.vl + 1) (x.e.ctr g).next
  let x := { x with e := (((← x.seq).inflight.find? fun e => e.isn == isn)).getD x.e }
  match next with
  | some i =>
    let x := { x with at_ := i }
    let home := x.e.odd.contains i && homeOf (← x.seq) x i == g
    if home && (lentTo (← x.seq) x i).isSome then waitFor .other
    if home then
      if !(← readAgain x g i) then return ()
    if ← chargeLine x g i len then return ()
    runElem { x with e := (((← x.seq).inflight.find? fun e => e.isn == isn)).getD x.e } g len i
  | none =>
    if !x.f.op.combines then groupEnd x g
    else if (x.e.ctr g).next < x.e.vl then
      modSeqOp x.n fun q => q.modEntry isn fun e => e.modG g fun c => { c with next := e.vl }
    else if x.e.gs.all (fun c => c.next ≥ x.e.vl) && q.allDoneBelow isn then
      orTrap x.n g isn 0 (combEnd x) (modSeqOp x.n fun q => q.modEntry isn fun e =>
        { e with gs := e.gs.map fun c => { c with fin := true } })
    else waitFor .other

/-- The place that a scalar access in flight has been translated to. -/
def Entry.scalarPhys (e : Entry) : Option Phys := match e.pulled with
  | (_, k, l) :: r => some ⟨k, toWord l, (r.head?.map (·.2.1)).getD 0⟩
  | [] => none

/-- One move of group g in a scalar access in flight: the group that owns the word performs it. An access outside the window is
performed by group 0, and the others go on (R141 names no group; log 112). -/
def scalarMove (n g : Nat) (e : Entry) (a : SAcc) : Op Unit := do
  let q ← getSeq n
  let va := e.w 2 + a.off
  match e.scalarPhys with
  | some p =>
    let own := if p.tier = 0 && q.inWin p.key then q.ownerOf p.key else 0
    if g != own then setFin n g e.isn
    else orTrap n g e.isn 0 (do
      let v ← scalarDo n e.isn a va.toNat p (e.w 0) (e.w 4)
      if a.kind.loads then putX n a.rd v) (setFin n g e.isn)
  | none => orTrap n g e.isn 0 (do
      let p ← scalarAddr n va a.size a.kind.acc a.kind.tiers (a.kind != .st)
      modSeqOp n fun q => q.modEntry e.isn fun e => { e with pulled := [(0, p.key, p.leaf.toNat), (1, p.entry, 0)] }) (pure ())

/-- A VWAIT that RETT has dispatched again makes its checks and sleeps (15 R380). -/
def vwaitAgain (x : ECx) : Op Unit := do
  let s ← get
  if (s.seq x.n).sleep.isSome || (s.seq x.n).gtraps.any (fun t => t.isn == x.e.isn) then waitFor .other
  else match ← attempt (vwaitStart x x.e.vl) with
    | .ok ex => modSeqOp x.n fun q => { q with sleep := some (.vwait s.pkg.tick.toNat ex (ex.map (·.1)) []) }
    | .error (.etrap k r) => raiseTrap x.n 0 x.e.isn k r
    | .error e => throw e

/-- One move of group g of sequencer n. An entry that a handler has rewritten into an instruction that never stays in
flight completes without effect (log 24). -/
def groupMove (n g : Nat) : Op Unit := do
  let q ← getSeq n
  match q.current g with
  | none => waitFor .other
  | some e =>
    if q.mode != .run || g ≥ q.g || !mayBegin q g e || !mayRun q g e then waitFor .other
    else match vform e.ins, smem e.ins with
      | some f, _ => match f.op with
        | .wait => vwaitAgain ⟨n, e, f, 0⟩
        | _ => vectorMove ⟨n, e, f, 0⟩ g
      | none, some a => scalarMove n g e a
      | none, none => if e.blocks then waitFor .other else setFin n g e.isn
  modify fun s => settle s n

/-- A move of a group as an event: not enabled while the group must wait; a wait on a migrating page is recorded
(13 R336); an uncorrectable error halts the context (15 R396). -/
def tryGroup (n g : Nat) (s : State) : Ev :=
  if s.pkg.frozen then none
  else match (groupMove n g).run s with
    | .ok _ s' => some (.next s')
    | .error (.wait (.migrating va)) _ =>
      if (s.addMig n (s.seq n).ctx va).migs.length = s.migs.length then none
      else some (.next (s.addMig n (s.seq n).ctx va))
    | .error (.wait (.bucket d w)) _ => (joinBank s d w).map .next
    | .error (.mcheck a p) s' => some (.next (haltCtx s' (s'.seq n).ctx ⟨0x10, toWord a, if p then 1 else 0⟩))
    | .error (.fault f) _ => some (.fault f)
    | .error _ _ => none

/-- The entry that group g stands in is a load. -/
def atLoad (s : State) (n g : Nat) : Bool := match (s.seq n).current g with
  | some e => match smem e.ins with
    | some a => a.kind == .ld || a.kind == .ldfe
    | none => false
  | none => false

/-- A group executes an element. -/
def tryElementExecute (n g : Nat) (s : State) : Ev := if atLoad s n g then none else tryGroup n g s
/-- ELEMENT_EXECUTE (02 R45, R48). -/
def execElementExecute (n g : Nat) (s : State) : Res := occurs (tryElementExecute n g s) s

/-- A load in flight completes (06 R141). -/
def tryLoadComplete (n g : Nat) (s : State) : Ev := if atLoad s n g then tryGroup n g s else none
/-- LOAD_COMPLETE (06 R141, R142). -/
def execLoadComplete (n g : Nat) (s : State) : Res := occurs (tryLoadComplete n g s) s

/-- The groups of one wave (12 R325). -/
def waveSize (s : State) (n : Nat) : Nat :=
  let d := s.die (dieOf n)
  let w := (List.range 64).countP fun k => !d.lanemap.getLsbD k
  if d.regime then (s.seq n).g else max 1 (min d.banks d.ebanks * (s.seq n).g / (16 * max 1 w))

/-- Group g has nothing more to do in an entry before a later wave starts: it has completed the entry, or executed every element
that it owns, which is all that a combining instruction lets it do (07 R186), or it stands at an element that a group of a later
wave is to execute (02 R45). -/
def waveThrough (s : State) (n : Nat) (e : Entry) (g : Nat) : Bool :=
  let c := e.ctr g
  let q := s.seq n
  c.fin || c.next ≥ e.vl || (match vform e.ins with
    | some f =>
      let x : ECx := ⟨n, e, f, 0⟩
      e.odd.any fun i => c.next ≤ i && homeOf q x i == g && (lentTo q x i).any (· ≥ e.waves) &&
        (List.range (i - c.next)).all fun j => standsWith s x (c.next + j) != g
    | none => false)

/-- An entry whose waves so far are through with it while groups remain. -/
def waveDue (s : State) (n : Nat) : Option Entry :=
  (s.seq n).inflight.find? fun e => e.waves < (s.seq n).g && (List.range e.waves).all (waveThrough s n e)

/-- The next wave of an instruction starts. -/
def tryBankWave (n : Nat) (s : State) : Ev :=
  if s.pkg.frozen then none
  else (waveDue s n).map fun e => .next (s.modSeq n fun q =>
    q.modEntry e.isn fun e => { e with waves := min q.g (e.waves + waveSize s n) })
/-- BANK_WAVE (12 R325). -/
def execBankWave (n : Nat) (s : State) : Res := occurs (tryBankWave n s) s

end Sys2Proof.Machine
end

