-- ==== Sys2Proof/Machine/Vector.lean ====
section
/-!
DEFINITION. Issue of the vector instructions that elements execute (spec/02_machine.md R47, R51; spec/01_notation.md
R34; spec/12_attention.md R325; spec/21_power_determinism.md R494): each joins the instructions in flight with the
values it captures, and its elements follow as moves of the groups. VWAIT (spec/08_vector_memory.md R227, R228) waits
at issue.
-/
namespace Sys2Proof.Machine

/-- The scalar destination that an instruction writes when every group has completed it (02 R51). -/
def sdestOf (f : VForm) : Option Reg := match f.op, f.d with
  | .dots, some (.scal r) | .red _, some (.scal r) | .mscal _, some (.scal r) => if r = 0 then none else some r
  | _, _ => none

/-- Lines that the quota charges: of EW's elements, or of bits for the mask instructions (21 R494). -/
def quotaLines (f : VForm) (e : Entry) : Nat := match f.op with
  | .mbin _ | .mscal _ | .msh _ => ETy.lines .n1 e.vl
  | _ => e.ty.lines e.vl

/-- cld takes the base address of a memory destination (01 R34). -/
def Seq.setCld (q : Seq) (f : VForm) : Seq := match f.d with
  | none | some (.scal _) => q
  | some d => { q with cld := q.getX (specReg d) &&& 0xFFFFFFFFFFFF, dirtyC := q.dirtyC ||| (1 <<< 7) }

/-- The instruction joins those in flight. -/
def enqueue (i : Instr) (f : VForm) (n : Nat) : Op Unit := modify fun s =>
  let q := s.seq n
  s.setSeq n { q with inflight := q.inflight ++ [{ q.entryOf i f (sdestOf f) with waves := waveSize s n }] }

/-- Issue of a vector instruction. -/
def vectorIssue (i : Instr) (f : VForm) (n : Nat) : Op Ctl := do
  let q ← getSeq n
  enqueue i f n
  modify fun s => chargeCtx (s.modSeq n (·.setCld f)) q.ctx (20 * f.op.weight (vtTy q.vtype) * quotaLines f (q.entryOf i f none))
  pure .next

/-! ## Every vector instruction -/

/-- C_VADD (R119): Compact D := L + D over unit-stride vectors, with L from cld. -/
def execCVadd (n : Reg) (s : State) : Res :=
  issue (.cVadd n) (vectorIssue (.cVadd n) (formC (.ibin .add) n)) s

/-- C_VSUB (R119): Compact D := L - D. -/
def execCVsub (n : Reg) (s : State) : Res :=
  issue (.cVsub n) (vectorIssue (.cVsub n) (formC (.ibin .sub) n)) s

/-- C_VMUL (R119): Compact D := L times D. -/
def execCVmul (n : Reg) (s : State) : Res :=
  issue (.cVmul n) (vectorIssue (.cVmul n) (formC (.ibin .mul) n)) s

/-- C_VAND (R119): Compact D := L AND D. -/
def execCVand (n : Reg) (s : State) : Res :=
  issue (.cVand n) (vectorIssue (.cVand n) (formC (.ibin .and) n)) s

/-- C_VOR (R119): Compact D := L OR D. -/
def execCVor (n : Reg) (s : State) : Res :=
  issue (.cVor n) (vectorIssue (.cVor n) (formC (.ibin .or) n)) s

/-- C_VXOR (R119): Compact D := L XOR D. -/
def execCVxor (n : Reg) (s : State) : Res :=
  issue (.cVxor n) (vectorIssue (.cVxor n) (formC (.ibin .xor) n)) s

/-- C_VMIN (R119): Compact signed minimum of L and D. -/
def execCVmin (n : Reg) (s : State) : Res :=
  issue (.cVmin n) (vectorIssue (.cVmin n) (formC (.ibin .min) n)) s

/-- C_VMAX (R119): Compact signed maximum of L and D. -/
def execCVmax (n : Reg) (s : State) : Res :=
  issue (.cVmax n) (vectorIssue (.cVmax n) (formC (.ibin .max) n)) s

/-- C_VMINU (R119): Compact unsigned minimum of L and D. -/
def execCVminu (n : Reg) (s : State) : Res :=
  issue (.cVminu n) (vectorIssue (.cVminu n) (formC (.ibin .minu) n)) s

/-- C_VMAXU (R119): Compact unsigned maximum of L and D. -/
def execCVmaxu (n : Reg) (s : State) : Res :=
  issue (.cVmaxu n) (vectorIssue (.cVmaxu n) (formC (.ibin .maxu) n)) s

/-- C_VFADD (R119): Compact floating D := L + D. -/
def execCVfadd (n : Reg) (s : State) : Res :=
  issue (.cVfadd n) (vectorIssue (.cVfadd n) (formC (.fbin .add) n)) s

/-- C_VFMUL (R119): Compact floating D := L times D. -/
def execCVfmul (n : Reg) (s : State) : Res :=
  issue (.cVfmul n) (vectorIssue (.cVfmul n) (formC (.fbin .mul) n)) s

/-- C_VFMIN (R119): Compact floating minimum of L and D. -/
def execCVfmin (n : Reg) (s : State) : Res :=
  issue (.cVfmin n) (vectorIssue (.cVfmin n) (formC (.fbin .min) n)) s

/-- C_VFMAX (R119): Compact floating maximum of L and D. -/
def execCVfmax (n : Reg) (s : State) : Res :=
  issue (.cVfmax n) (vectorIssue (.cVfmax n) (formC (.fbin .max) n)) s

/-- C_VMAND (R119): Compact mask D := L AND D. -/
def execCVmand (n : Reg) (s : State) : Res :=
  issue (.cVmand n) (vectorIssue (.cVmand n) (formC (.mbin .and) n)) s

/-- C_VMOR (R119): Compact mask D := L OR D. -/
def execCVmor (n : Reg) (s : State) : Res :=
  issue (.cVmor n) (vectorIssue (.cVmor n) (formC (.mbin .or) n)) s

/-- C_VMXOR (R119): Compact mask D := L XOR D. -/
def execCVmxor (n : Reg) (s : State) : Res :=
  issue (.cVmxor n) (vectorIssue (.cVmxor n) (formC (.mbin .xor) n)) s

/-- C_VMANDN (R119): Compact mask D := L AND NOT D. -/
def execCVmandn (n : Reg) (s : State) : Res :=
  issue (.cVmandn n) (vectorIssue (.cVmandn n) (formC (.mbin .andn) n)) s

/-- VADD (R187): Element-wise a + b delivered under R183. -/
def execVadd (v : VAB) (s : State) : Res :=
  issue (.vadd v) (vectorIssue (.vadd v) (formVAB (.ibin .add) v)) s

/-- VSUB (R187): Element-wise a - b. -/
def execVsub (v : VAB) (s : State) : Res :=
  issue (.vsub v) (vectorIssue (.vsub v) (formVAB (.ibin .sub) v)) s

/-- VRSUB (R187): Element-wise b - a. -/
def execVrsub (v : VAB) (s : State) : Res :=
  issue (.vrsub v) (vectorIssue (.vrsub v) (formVAB (.ibin .rsub) v)) s

/-- VMUL (R187): Element-wise a times b. -/
def execVmul (v : VAB) (s : State) : Res :=
  issue (.vmul v) (vectorIssue (.vmul v) (formVAB (.ibin .mul) v)) s

/-- VMULH (R187): High half of the signed element product. -/
def execVmulh (v : VAB) (s : State) : Res :=
  issue (.vmulh v) (vectorIssue (.vmulh v) (formVAB (.ibin .mulh) v)) s

/-- VMULHU (R187): High half of the unsigned element product. -/
def execVmulhu (v : VAB) (s : State) : Res :=
  issue (.vmulhu v) (vectorIssue (.vmulhu v) (formVAB (.ibin .mulhu) v)) s

/-- VDIV (R188): Signed element quotient, all ones for a zero divisor. -/
def execVdiv (v : VAB) (s : State) : Res :=
  issue (.vdiv v) (vectorIssue (.vdiv v) (formVAB (.ibin .div) v)) s

/-- VDIVU (R188): Unsigned element quotient. -/
def execVdivu (v : VAB) (s : State) : Res :=
  issue (.vdivu v) (vectorIssue (.vdivu v) (formVAB (.ibin .divu) v)) s

/-- VREM (R188): Element remainder with the sign of a. -/
def execVrem (v : VAB) (s : State) : Res :=
  issue (.vrem v) (vectorIssue (.vrem v) (formVAB (.ibin .rem) v)) s

/-- VMIN (R187): Signed element minimum. -/
def execVmin (v : VAB) (s : State) : Res :=
  issue (.vmin v) (vectorIssue (.vmin v) (formVAB (.ibin .min) v)) s

/-- VMAX (R187): Signed element maximum. -/
def execVmax (v : VAB) (s : State) : Res :=
  issue (.vmax v) (vectorIssue (.vmax v) (formVAB (.ibin .max) v)) s

/-- VMINU (R187): Unsigned element minimum. -/
def execVminu (v : VAB) (s : State) : Res :=
  issue (.vminu v) (vectorIssue (.vminu v) (formVAB (.ibin .minu) v)) s

/-- VMAXU (R187): Unsigned element maximum. -/
def execVmaxu (v : VAB) (s : State) : Res :=
  issue (.vmaxu v) (vectorIssue (.vmaxu v) (formVAB (.ibin .maxu) v)) s

/-- VAND (R187): Element-wise AND. -/
def execVand (v : VAB) (s : State) : Res :=
  issue (.vand v) (vectorIssue (.vand v) (formVAB (.ibin .and) v)) s

/-- VOR (R187): Element-wise OR. -/
def execVor (v : VAB) (s : State) : Res :=
  issue (.vor v) (vectorIssue (.vor v) (formVAB (.ibin .or) v)) s

/-- VXOR (R187): Element-wise XOR. -/
def execVxor (v : VAB) (s : State) : Res :=
  issue (.vxor v) (vectorIssue (.vxor v) (formVAB (.ibin .xor) v)) s

/-- VANDN (R187): Element-wise a AND NOT b. -/
def execVandn (v : VAB) (s : State) : Res :=
  issue (.vandn v) (vectorIssue (.vandn v) (formVAB (.ibin .andn) v)) s

/-- VSLL (R189): Element left shift. -/
def execVsll (v : VAB) (s : State) : Res :=
  issue (.vsll v) (vectorIssue (.vsll v) (formVAB (.ibin .sll) v)) s

/-- VSRL (R189): Element logical right shift. -/
def execVsrl (v : VAB) (s : State) : Res :=
  issue (.vsrl v) (vectorIssue (.vsrl v) (formVAB (.ibin .srl) v)) s

/-- VSRA (R189): Element arithmetic right shift. -/
def execVsra (v : VAB) (s : State) : Res :=
  issue (.vsra v) (vectorIssue (.vsra v) (formVAB (.ibin .sra) v)) s

/-- VADC (R190): Element add with carry-in, writing the wrapped sum. -/
def execVadc (v : VABC) (s : State) : Res :=
  issue (.vadc v) (vectorIssue (.vadc v) (formVABC (.carry false false) v)) s

/-- VADC_CO (R190): Element add with carry-in, writing the carry-out bits. -/
def execVadcCo (v : VABC) (s : State) : Res :=
  issue (.vadcCo v) (vectorIssue (.vadcCo v) (formVABC (.carry false true) v)) s

/-- VSBC (R190): Element subtract with borrow-in, writing the wrapped difference. -/
def execVsbc (v : VABC) (s : State) : Res :=
  issue (.vsbc v) (vectorIssue (.vsbc v) (formVABC (.carry true false) v)) s

/-- VSBC_CO (R190): Element subtract with borrow-in, writing the borrow-out bits. -/
def execVsbcCo (v : VABC) (s : State) : Res :=
  issue (.vsbcCo v) (vectorIssue (.vsbcCo v) (formVABC (.carry true true) v)) s

/-- VCMP (R191): Integer comparison writing an n1 vector of outcomes. -/
def execVcmp (c : ICond) (v : VAB) (s : State) : Res :=
  issue (.vcmp c v) (vectorIssue (.vcmp c v) (formVAB (.icmp c) v)) s

/-- VMERGE (R192): Writes a where the mask bit is 1 and b otherwise. -/
def execVmerge (v : VAB) (s : State) : Res :=
  issue (.vmerge v) (vectorIssue (.vmerge v) (formVAB .merge v)) s

/-- VMV (R193): Copies a into each active element. -/
def execVmv (v : VA) (s : State) : Res :=
  issue (.vmv v) (vectorIssue (.vmv v) (formVA .mv v)) s

/-- VDOTS (R201): Dot product over the slice rule from a starting w48 value into one element or register. -/
def execVdots (v : VABC) (s : State) : Res :=
  issue (.vdots v) (vectorIssue (.vdots v) (formVABC .dots v)) s

/-- VSCAN (R204): Inclusive prefix of the selected operation in ascending index order. -/
def execVscan (op : RedOp) (v : VA) (s : State) : Res :=
  issue (.vscan op v) (vectorIssue (.vscan op v) (formVA (.scan op) v)) s

/-- VFADD (R195): Floating element add. -/
def execVfadd (v : VAB) (s : State) : Res :=
  issue (.vfadd v) (vectorIssue (.vfadd v) (formVAB (.fbin .add) v)) s

/-- VFSUB (R195): Floating element subtract. -/
def execVfsub (v : VAB) (s : State) : Res :=
  issue (.vfsub v) (vectorIssue (.vfsub v) (formVAB (.fbin .sub) v)) s

/-- VFMUL (R195): Floating element multiply. -/
def execVfmul (v : VAB) (s : State) : Res :=
  issue (.vfmul v) (vectorIssue (.vfmul v) (formVAB (.fbin .mul) v)) s

/-- VFFMA (R195): Floating fused multiply-add rounded once. -/
def execVffma (v : VABC) (s : State) : Res :=
  issue (.vffma v) (vectorIssue (.vffma v) (formVABC .ffma v)) s

/-- VFDIV (R195): Floating element divide. -/
def execVfdiv (v : VAB) (s : State) : Res :=
  issue (.vfdiv v) (vectorIssue (.vfdiv v) (formVAB (.fbin .div) v)) s

/-- VFSQRT (R195): Floating element square root. -/
def execVfsqrt (v : VA) (s : State) : Res :=
  issue (.vfsqrt v) (vectorIssue (.vfsqrt v) (formVA .fsqrt v)) s

/-- VFMIN (R195): Floating element minimum. -/
def execVfmin (v : VAB) (s : State) : Res :=
  issue (.vfmin v) (vectorIssue (.vfmin v) (formVAB (.fbin .min) v)) s

/-- VFMAX (R195): Floating element maximum. -/
def execVfmax (v : VAB) (s : State) : Res :=
  issue (.vfmax v) (vectorIssue (.vfmax v) (formVAB (.fbin .max) v)) s

/-- VFCMP (R191): Floating comparison writing an n1 vector of outcomes. -/
def execVfcmp (c : VFCond) (v : VAB) (s : State) : Res :=
  issue (.vfcmp c v) (vectorIssue (.vfcmp c v) (formVAB (.fcmp c) v)) s

/-- VEXP2 (R196): Correctly rounded 2^x of fp32 elements. -/
def execVexp2 (v : VA) (s : State) : Res :=
  issue (.vexp2 v) (vectorIssue (.vexp2 v) (formVA (.spec .exp2) v)) s

/-- VLOG2 (R196): Correctly rounded log2 of fp32 elements. -/
def execVlog2 (v : VA) (s : State) : Res :=
  issue (.vlog2 v) (vectorIssue (.vlog2 v) (formVA (.spec .log2) v)) s

/-- VRCP (R196): Correctly rounded reciprocal of fp32 elements. -/
def execVrcp (v : VA) (s : State) : Res :=
  issue (.vrcp v) (vectorIssue (.vrcp v) (formVA (.spec .rcp) v)) s

/-- VRSQ (R196): Correctly rounded reciprocal square root of fp32 elements. -/
def execVrsq (v : VA) (s : State) : Res :=
  issue (.vrsq v) (vectorIssue (.vrsq v) (formVA (.spec .rsq) v)) s

/-- VTANH (R196): Correctly rounded tanh of fp32 elements. -/
def execVtanh (v : VA) (s : State) : Res :=
  issue (.vtanh v) (vectorIssue (.vtanh v) (formVA (.spec .tanh) v)) s

/-- VSIN (R196): Correctly rounded sine of fp32 elements. -/
def execVsin (v : VA) (s : State) : Res :=
  issue (.vsin v) (vectorIssue (.vsin v) (formVA (.spec .sin) v)) s

/-- VCOS (R196): Correctly rounded cosine of fp32 elements. -/
def execVcos (v : VA) (s : State) : Res :=
  issue (.vcos v) (vectorIssue (.vcos v) (formVA (.spec .cos) v)) s

/-- VREDSUM (R202): Sum over the fixed reduction tree. -/
def execVredsum (v : VA) (s : State) : Res :=
  issue (.vredsum v) (vectorIssue (.vredsum v) (formVA (.red .sum) v)) s

/-- VREDMAX (R202): Maximum over the reduction tree. -/
def execVredmax (v : VA) (s : State) : Res :=
  issue (.vredmax v) (vectorIssue (.vredmax v) (formVA (.red .max) v)) s

/-- VREDMIN (R202): Minimum over the reduction tree. -/
def execVredmin (v : VA) (s : State) : Res :=
  issue (.vredmin v) (vectorIssue (.vredmin v) (formVA (.red .min) v)) s

/-- VREDAND (R202): AND over the reduction tree. -/
def execVredand (v : VA) (s : State) : Res :=
  issue (.vredand v) (vectorIssue (.vredand v) (formVA (.red .and) v)) s

/-- VREDOR (R202): OR over the reduction tree. -/
def execVredor (v : VA) (s : State) : Res :=
  issue (.vredor v) (vectorIssue (.vredor v) (formVA (.red .or) v)) s

/-- VREDXOR (R202): XOR over the reduction tree. -/
def execVredxor (v : VA) (s : State) : Res :=
  issue (.vredxor v) (vectorIssue (.vredxor v) (formVA (.red .xor) v)) s

/-- VSLIDEUP (R205): Element i receives a_(i-k) for i >= k. -/
def execVslideup (cnt : Reg) (v : VA) (s : State) : Res :=
  issue (.vslideup cnt v) (vectorIssue (.vslideup cnt v) { formVA (.slide true) v with b := some (.spec (.scal cnt) false) }) s

/-- VSLIDEDN (R205): Element i receives a_(i+k) or zero. -/
def execVslidedn (cnt : Reg) (v : VA) (s : State) : Res :=
  issue (.vslidedn cnt v) (vectorIssue (.vslidedn cnt v) { formVA (.slide false) v with b := some (.spec (.scal cnt) false) }) s

/-- VMAND (R206): Mask AND. -/
def execVmand (v : VAB) (s : State) : Res :=
  issue (.vmand v) (vectorIssue (.vmand v) (formVAB (.mbin .and) v)) s

/-- VMOR (R206): Mask OR. -/
def execVmor (v : VAB) (s : State) : Res :=
  issue (.vmor v) (vectorIssue (.vmor v) (formVAB (.mbin .or) v)) s

/-- VMXOR (R206): Mask XOR. -/
def execVmxor (v : VAB) (s : State) : Res :=
  issue (.vmxor v) (vectorIssue (.vmxor v) (formVAB (.mbin .xor) v)) s

/-- VMANDN (R206): Mask a AND NOT b. -/
def execVmandn (v : VAB) (s : State) : Res :=
  issue (.vmandn v) (vectorIssue (.vmandn v) (formVAB (.mbin .andn) v)) s

/-- VMNOT (R206): Mask NOT a. -/
def execVmnot (v : VA) (s : State) : Res :=
  issue (.vmnot v) (vectorIssue (.vmnot v) (formVA (.mbin .not) v)) s

/-- VMPOP (R207): Counts active set mask bits into a scalar. -/
def execVmpop (rd : Reg) (v : VA1) (s : State) : Res :=
  issue (.vmpop rd v) (vectorIssue (.vmpop rd v) { formVA1 (.mscal .pop) v with d := some (.scal rd) }) s

/-- VMFIRST (R31): Writes the lowest active set index or -1. -/
def execVmfirst (rd : Reg) (v : VA1) (s : State) : Res :=
  issue (.vmfirst rd v) (vectorIssue (.vmfirst rd v) { formVA1 (.mscal .first) v with d := some (.scal rd) }) s

/-- VMLAST (R31): Writes the highest active set index or -1. -/
def execVmlast (rd : Reg) (v : VA1) (s : State) : Res :=
  issue (.vmlast rd v) (vectorIssue (.vmlast rd v) { formVA1 (.mscal .last) v with d := some (.scal rd) }) s

/-- VMANY (R31): Writes 1 if any active mask bit is set, else 0. -/
def execVmany (rd : Reg) (v : VA1) (s : State) : Res :=
  issue (.vmany rd v) (vectorIssue (.vmany rd v) { formVA1 (.mscal .any) v with d := some (.scal rd) }) s

/-- VGAUSS (R209): Writes user Gaussian values from the generator. -/
def execVgauss (v : VA) (s : State) : Res :=
  issue (.vgauss v) (vectorIssue (.vgauss v) (formVA (.gauss false) v)) s

/-- VGAUSS_PERT (R209): Writes the perturbation Gaussians of purpose 1. -/
def execVgaussPert (v : VA) (s : State) : Res :=
  issue (.vgaussPert v) (vectorIssue (.vgaussPert v) (formVA (.gauss true) v)) s

/-- VRAND (R209): Writes user uniforms from the generator. -/
def execVrand (v : VA) (s : State) : Res :=
  issue (.vrand v) (vectorIssue (.vrand v) (formVA (.rand false) v)) s

/-- VRAND_SR (R209): Writes the stochastic-rounding uniforms of purpose 2. -/
def execVrandSr (v : VA) (s : State) : Res :=
  issue (.vrandSr v) (vectorIssue (.vrandSr v) (formVA (.rand true) v)) s

/-- VLD (R220): Marks destination words empty and requests elements from far memory or another window. -/
def execVld (ord : Ord) (v : VA) (s : State) : Res :=
  issue (.vld ord v) (vectorIssue (.vld ord v) (formVA (.vld ord) v)) s

/-- VST (R222): Writes window elements to far memory, executed by the source owner. -/
def execVst (ord : Ord) (v : VA) (s : State) : Res :=
  issue (.vst ord v) (vectorIssue (.vst ord v) (formVA (.vst ord) v)) s

/-- VSTX (R223): Writes window elements into another grant's window, marking words full. -/
def execVstx (ord : Ord) (v : VA) (s : State) : Res :=
  issue (.vstx ord v) (vectorIssue (.vstx ord v) (formVA (.vstx ord) v)) s

/-- VAMO (R225): Element-wise atomic read-modify-write at target addresses. -/
def execVamo (op : AmoOp) (ord : Ord) (v : VAB) (s : State) : Res :=
  issue (.vamo op ord v) (vectorIssue (.vamo op ord v) (formVAB (.amo op ord) v)) s

/-- VCAS (R225): Element-wise compare-and-swap at target addresses. -/
def execVcas (ord : Ord) (v : VABC) (s : State) : Res :=
  issue (.vcas ord v) (vectorIssue (.vcas ord v) (formVABC (.cas ord) v)) s

/-- VEMPTY (R216): Marks the words of active elements empty. -/
def execVempty (v : VD) (s : State) : Res :=
  issue (.vempty v) (vectorIssue (.vempty v) (formVD .empty v)) s

/-- VFILL (R216): Marks the words of active elements full. -/
def execVfill (v : VD) (s : State) : Res :=
  issue (.vfill v) (vectorIssue (.vfill v) (formVD .fill v)) s

/-- VOWN (R229): Writes the OWNQ result for each active element's address. -/
def execVown (v : VA) (s : State) : Res :=
  issue (.vown v) (vectorIssue (.vown v) (formVA .own v)) s

/-- VIDX (R194): Writes start + i*step into each element. -/
def execVidx (d : Spec) (start step : BitVec 16) (s : State) : Res :=
  issue (.vidx d start step) (vectorIssue (.vidx d start step) { op := .idx start step, d := some d }) s

/-- VMSH (R208): Shifts a mask vector by k positions. -/
def execVmsh (d a : Spec) (k : BitVec 32) (s : State) : Res :=
  issue (.vmsh d a k) (vectorIssue (.vmsh d a k) { op := .msh k, d := some d, a := some (.spec a false) }) s

/-- VCVT (R198): Converts elements from the encoded source type into vtype.EW. -/
def execVcvt (src : SrcType) (d a : Spec) (s : State) : Res :=
  issue (.vcvt src d a) (vectorIssue (.vcvt src d a) { op := .cvt src, d := some d, a := some (.spec a false) }) s

/-! ## VWAIT -/

/-- VWAIT's issue: it waits for every lower instruction, makes every check of every element and takes the expected
values, then sleeps. A trap of an element is an element trap of the issued instruction. -/
def vwaitIssue (i : Instr) (f : VForm) (n : Nat) : Op Ctl := do
  needDone n
  let s ← get
  let q := s.seq n
  let e := q.entryOf i f none
  enqueue i f n
  modify fun s => chargeCtx (s.modSeq n (·.setCld f)) q.ctx (20 * f.op.weight (vtTy q.vtype) * quotaLines f e)
  match ← attempt (vwaitStart ⟨n, e, f, 0⟩ e.vl) with
  | .ok ex =>
    modSeqOp n fun q => { q with sleep := some (.vwait s.pkg.tick.toNat ex (ex.map (·.1)) []) }
    pure .stay
  | .error (.etrap k r) =>
    raiseTrap n 0 q.isn k r
    pure .next
  | .error e => throw e

/-- VWAIT. -/
def execVwait (rt : Reg) (v : VAB) (s : State) : Res :=
  issue (.vwait rt v) (vwaitIssue (.vwait rt v) { formVAB .wait v with c := some (.spec (.scal rt) false) }) s

/-- A sleeping VWAIT reads its flags again, or completes; a trap of a reading is an element trap of it. -/
def tryVwaitWake (n : Nat) (s : State) : Ev :=
  let q := s.seq n
  match q.sleep, q.inflight with
  | some (.vwait start expect unmet mask), [e] => match vform e.ins with
    | some f =>
      if s.pkg.frozen then none
      else match (vwaitMove ⟨n, e, f, 0⟩ start expect unmet mask).run s with
        | .ok _ s' => some (.next s')
        | .error (.etrap k r) s' => some (.next (s'.modSeq n fun q =>
            { q.leaveVwait e with gtraps := [⟨0, e.isn, k, r⟩] }))
        | .error (.trap r) s' =>
          some (.next (issueTrap (s'.modSeq n fun q => { q with sleep := none, inflight := [] }) n r q.pc))
        | .error (.wait (.migrating va)) _ =>
          if (s.addMig n q.ctx va).migs.length = s.migs.length then none else some (.next (s.addMig n q.ctx va))
        | .error (.mcheck a p) s' => some (.next (haltCtx s' q.ctx ⟨0x10, toWord a, if p then 1 else 0⟩))
        | .error (.fault f) _ => some (.fault f)
        | .error _ _ => none
    | none => none
  | _, _ => none

/-- VWAIT_WAKE (08 R227). -/
def execVwaitWake (n : Nat) (s : State) : Res := occurs (tryVwaitWake n s) s

end Sys2Proof.Machine
end

