-- ==== Sys2Proof/Machine/System.lean ====
section
/-!
DEFINITION. Control registers (spec/06_scalar.md R158 to R163; spec/00_scope.md R10, R11), vector length and chain
words (06 R164 to R168), OWNQ (06 R169), tile descriptors (spec/10_matrix.md R257), stream registers
(spec/11_pumps.md R295, R296), TLBINV and PGQ (spec/13_pages.md R342 to R344), and SUMPPOP (spec/15_contexts.md R385).
-/
namespace Sys2Proof.Machine

/-! ## Control registers -/

/-- A balance of picojoules in whole nJ, rounded toward minus infinity and saturated to 32 bits (21 R492). -/
def balNj (b : Int) : Int := max (-2 ^ 31) (min (2 ^ 31 - 1) (b / 1000))

/-- Number of a control register (05 R111). -/
def cregNum : CReg → Nat
  | .vl => 0 | .vtype => 1 | .vlmax => 2 | .vcap => 3 | .cmask0 => 4 | .cmask1 => 5 | .cvalid => 6 | .cld => 7
  | .cgkey => 8 | .cgdraw => 9 | .cflags => 10 | .ctrap => 11 | .csump => 12 | .cprio => 13 | .cstage => 14
  | .cid => 15 | .cquota => 16 | .cdet => 17 | .cptbase => 18 | .sq0 => 24 | .sq1 => 25 | .sq2 => 26 | .sq3 => 27

/-- VLMAX of a grant: the largest power of two that fits 1,024 elements in each group (02 R42). -/
def vlmaxOf (g : Nat) : Nat := if g = 0 then 0 else 2 ^ Nat.log2 (1024 * g)

/-- The value of a control register other than a stream register. -/
def cregRead (s : State) (n : Nat) (c : CReg) : Word :=
  let q := s.seq n
  let x := s.ctx q.ctx
  match c with
  | .vl => toWord q.vl
  | .vtype => q.vtype
  | .vlmax => toWord (q.g * 2 ^ 32 + vlmaxOf q.g)
  | .vcap => toWord q.vcap
  | .cmask0 => q.cmask0
  | .cmask1 => q.cmask1
  | .cvalid => q.cvalid
  | .cld => q.cld
  | .cgkey => q.cgkey
  | .cgdraw => q.cgdraw
  | .cflags => toWord q.cflags
  | .ctrap => x.ctrap
  | .csump => x.csump
  | .cprio => q.cprio
  | .cstage => toWord q.stage
  | .cid => toWord (dieOf n * 256 + n % 16)
  | .cquota => intWord (balNj x.balance * 2 ^ 32 + x.limit)
  | .cdet => x.cdet
  | .cptbase => x.cptbase
  | .sq0 | .sq1 | .sq2 | .sq3 => 0

/-- The value that a write leaves in cprio (06 R161). -/
def cprioWrite (priv : Bool) (old v : Word) : Word :=
  let lmax := if priv then fld v 8 3 else fld old 8 3
  toWord (lmax * 256 + fld v 4 2 * 16 + min (fld v 0 3) lmax)

/-- The value that a write leaves in csump (15 R382). -/
def csumpWrite (v : Word) : Word := toWord (fld v 12 36 * 4096 + max 6 (min 16 (fld v 0 5)))

/-- The value that a write leaves in cdet (21 R499). -/
def cdetWrite (v : Word) : Word :=
  let mode := if fld v 0 2 = 3 then 0 else fld v 0 2
  toWord (fld v 12 36 * 4096 + min 10 (fld v 8 4) * 256 + (if v.getLsbD 2 then 4 else 0) + mode)

/-- Write a control register (06 R162): read-only fields and reserved fields ignore the write. -/
def cregWrite (s : State) (n : Nat) (c : CReg) (v : Word) : State :=
  let q := s.seq n
  let s := s.setSeq n { q with dirtyC := q.dirtyC ||| (1 <<< cregNum c) }
  let seq := fun (f : Seq → Seq) => s.modSeq n f
  let ctx := fun (f : Ctx → Ctx) => s.modCtx q.ctx f
  match c with
  | .vl | .vlmax | .cstage | .cid | .sq0 | .sq1 | .sq2 | .sq3 => s
  | .vtype => seq fun q => { q with vtype := vtWrite v }
  | .vcap => seq fun q => { q with vcap := min 16 (fld v 0 5) }
  | .cmask0 => seq fun q => { q with cmask0 := low48 v }
  | .cmask1 => seq fun q => { q with cmask1 := low48 v }
  | .cvalid => seq fun q => { q with cvalid := low48 v }
  | .cld => seq fun q => { q with cld := low48 v }
  | .cgkey => seq fun q => { q with cgkey := v }
  | .cgdraw => seq fun q => { q with cgdraw := v &&& 0xFFFFFFFFFFFF0000 }
  | .cflags => seq fun q => { q with cflags := fld v 0 5 }
  | .cprio => seq fun q => { q with cprio := cprioWrite q.privileged q.cprio v }
  | .ctrap => ctx fun x => { x with ctrap := toWord (fld v 12 36 * 4096) }
  | .csump => ctx fun x => { x with csump := csumpWrite v }
  | .cquota => refillResume (ctx fun x => { x with limit := fld v 0 32, balance := fld v 0 32 * 1000 }) q.ctx
  | .cdet => ctx fun x => { x with cdet := cdetWrite v }
  | .cptbase => ctx fun x => { x with cptbase := v &&& 0xFFFFFFFFFFFFF }

/-- A read of cflags waits for every lower instruction (03 R71). -/
def cregReady (n : Nat) (c : CReg) : Op Unit := if c = .cflags then needDone n else pure ()

/-- MOVC to a control register: it acts at issue (06 R162). -/
def execMovcWrite (c : CReg) (ra : Reg) (s : State) : Res :=
  issue (.movcWrite c ra) (fun n => do
    let q ← getSeq n
    modify fun s => cregWrite s n c (q.getX ra)
    pure .next) s

/-- MOVCW: the old value to xd, xb to the register. -/
def execMovcw (rd : Reg) (c : CReg) (rb : Reg) (s : State) : Res :=
  issue (.movcw rd c rb) (fun n => do
    cregReady n c
    let s ← get
    let v := (s.seq n).getX rb
    putX n rd (cregRead s n c)
    modify fun s => cregWrite s n c v
    pure .next) s

/-! ## Vector length -/

/-- The cap on a vector length: VLMAX and 2^CAPLOG (06 R164). -/
def Seq.vlCap (q : Seq) : Nat := min (vlmaxOf q.g) (2 ^ q.vcap)

/-- Set vl and write it into xd. -/
def setVl (n : Nat) (rd : Reg) (v : Nat) : Op Unit :=
  modSeqOp n fun q => ({ q with vl := v, dirtyC := q.dirtyC ||| 1 }).setX rd (toWord v)

/-- SETVL (06 R164). -/
def execSetvl (rd ra : Reg) (s : State) : Res :=
  issue (.setvl rd ra) (fun n => do
    let q ← getSeq n
    setVl n rd (min (q.getX ra).toNat q.vlCap)
    pure .next) s

/-- One reading of SETVLC's chain word: the new vl, or nothing yet (06 R167). It waits while a cistern word is empty, as a
scalar load does; R167 does not say (log 93). -/
def setvlcRead (n : Nat) (ra rb : Reg) : Op (Option Nat) := do
  let q ← getSeq n
  let p ← scalarAddr n (q.getX ra) 8 .load tiersCMW
  scalarOrder n q.isn .none
  if !(p.tier = 0 && q.inWin p.key) || p.kind = 0 then scalarFar n q.isn p.key 8 p.kind
  let w := toWord (ofBytes (← scalarRead n q.isn .st (q.getX ra).toNat p.key 8 p.tier))
  let pos := (q.getX rb).toNat
  if fld w 0 63 > pos then return some (min (fld w 0 63 - pos) q.vlCap)
  else if w.getLsbD 63 then return some 0
  else return none

/-- SETVLC (06 R167): it completes, or sleeps until the chain word's line is written. -/
def execSetvlc (rd ra rb : Reg) (s : State) : Res :=
  issue (.setvlc rd ra rb) (fun n => do
    match ← setvlcRead n ra rb with
    | some v =>
      setVl n rd v
      pure .next
    | none =>
      modSeqOp n fun q => { q with sleep := some (.setvlc rd ra rb) }
      pure .stay) s

/-- A sleeping SETVLC reads its chain word again. -/
def trySetvlcWake (n : Nat) (s : State) : Ev :=
  match (s.seq n).sleep with
  | some (.setvlc rd ra rb) => wake n (do
      match ← setvlcRead n ra rb with
      | some v =>
        setVl n rd v
        finishSleep n (.setvlc rd ra rb)
      | none => waitFor .other) s
  | _ => none
/-- SETVLC_WAKE (06 R167). -/
def execSetvlcWake (n : Nat) (s : State) : Res := occurs (trySetvlcWake n s) s

/-- The chain word after PUBHW (06 R166). -/
def pubWord (old b : Word) : Word :=
  toWord ((if old.getLsbD 63 || b.getLsbD 63 then 2 ^ 63 else 0) + max (fld old 0 63) (fld b 0 63))

/-- PUBHW (06 R166): a release, which waits for every lower instruction and drains held writes (21 R500). An empty cistern
word does not hold it back, and becomes full; R166 does not say (log 92). -/
def execPubhw (ra rb : Reg) (s : State) : Res :=
  issue (.pubhw ra rb) (fun n => do
    let q ← getSeq n
    let p ← scalarAddr n (q.getX ra) 8 .atomic tiersCMW
    needDone n
    drainNow n
    let old := toWord (ofBytes (← readKey (some (q.getX ra).toNat) p.key 8))
    scalarWrite n q.isn (.amo .swap) (q.getX ra).toNat p (bytesOf 8 (pubWord old (q.getX rb)).toNat)
    pure .next) s

/-- OWNQ (06 R169). -/
def execOwnq (rd ra : Reg) (s : State) : Res := scalar (.ownq rd ra) rd (fun q => ownq q (q.getX ra)) s

/-! ## Tile descriptors (10 R254, R257) -/

/-- Write the low bits of a word into a field of a descriptor. -/
def TileDesc.put (t : TileDesc) (f : TdField) (v : Word) : TileDesc := match f with
  | .base => { t with base := fld v 0 48 }
  | .base2 => { t with base2 := fld v 0 48 }
  | .rows => { t with rows := fld v 0 16 }
  | .cols => { t with cols := fld v 0 16 }
  | .etype => { t with etype := fld v 0 9 }
  | .stride => { t with stride := fld v 0 32 }
  | .orow => { t with orow := fld v 0 32 }
  | .ocol => { t with ocol := fld v 0 32 }
  | .gwidth => { t with gwidth := fld v 0 32 }
  | .stream => { t with stream := fld v 0 32 }

/-- A field of a descriptor. -/
def TileDesc.get (t : TileDesc) (f : TdField) : Nat := match f with
  | .base => t.base
  | .base2 => t.base2
  | .rows => t.rows
  | .cols => t.cols
  | .etype => t.etype
  | .stride => t.stride
  | .orow => t.orow
  | .ocol => t.ocol
  | .gwidth => t.gwidth
  | .stream => t.stream

/-- MOVTD. -/
def execMovtd (td : BitVec 4) (f : TdField) (ra : Reg) (s : State) : Res :=
  issue (.movtd td f ra) (fun n => do
    modSeqOp n fun q => { q with td := q.td.set td.toFin ((q.td[td.toFin]).put f (q.getX ra)) }
    pure .next) s

/-- RDTD. -/
def execRdtd (rd : Reg) (td : BitVec 4) (f : TdField) (s : State) : Res :=
  scalar (.rdtd rd td f) rd (fun q => toWord ((q.td[td.toFin]).get f)) s

/-! ## Stream registers (11 R295, R296) -/

/-- BINDQ: SYNC when the last pump instruction that named the landing word does not exist or is PSCAT. -/
def execBindq (k : BitVec 2) (ra : Reg) (s : State) : Res :=
  issue (.bindq k ra) (fun n => do
    let q ← getSeq n
    match q.copyLog.find? fun c => c.landing == (q.getX ra).toNat with
    | some c =>
      if c.kind = 2 then trapWith 0x15 0
      else
        modSeqOp n fun q => { q with sqr := q.sqr.set k.toFin { c with bound := true, pos := 0 } }
        pure .next
    | none => trapWith 0x15 0) s

/-- UNBINDQ. -/
def execUnbindq (k : BitVec 2) (s : State) : Res :=
  issue (.unbindq k) (fun n => do
    modSeqOp n fun q => { q with sqr := q.sqr.set k.toFin StreamReg.none }
    pure .next) s

/-- The n bytes at a translated address as a stream read finds them: it waits for lower instructions (02 R49, R50; 08 R217;
13 R333) but not for full words (R296). -/
def streamBytes (n va len : Nat) (p : Phys) : Op (List Byte) := do
  let s ← get
  let q := s.seq n
  let own := p.tier = 0 && q.inWin p.key && q.mode != .handler
  if own && !q.doneBelow (q.ownerOf p.key) q.isn then waitFor .other
  else
    if !own || p.kind = 0 then scalarFar n q.isn p.key len p.kind
    if own then
      checkSoft (some va) p.key len
      return ((viewLine s q p.key q.isn).1.drop (p.key % 64)).take len
    else if p.tier = 0 then readKey (some va) p.key len
    else readFar n va p.key len

/-- The address of element p of a bound copy's destination: of an indexed one where the copy has filled the element, or, for an
inactive element, by its entry of the index vector. -/
def streamAddr (n : Nat) (r : StreamReg) : Op Word := do
  if r.index = 0 then return toWord (r.base + r.pos * r.stride)
  else match smapGet r.pos r.addrs with
  | some a => return toWord a
  | none =>
    let a := toWord (r.index + 4 * r.pos)
    let p ← scalarAddr n a 4 .load tiersCist
    let bs ← streamBytes n a.toNat 4 p
    return toWord r.base + intWord (signedOf 32 (ofBytes bs))

/-- One attempt to read stream register k (R296): the value when the landing word shows L > p. -/
def streamRead (n : Nat) (k : Fin 4) : Op Word := do
  let q ← getSeq n
  let r := q.sqr[k]
  if !r.bound then trapWith 0x15 0
  else
    let p ← scalarAddr n (toWord r.landing) 8 .load tiersCist
    scalarOrder n q.isn .none
    scalarFar n q.isn p.key 8 p.kind
    let w := toWord (ofBytes (← readForeign r.landing p.key 8 false))
    if r.pos ≥ fld w 24 24 then trapWith 0x15 0
    else if fld w 0 24 ≤ r.pos then waitFor .other
    else if r.kind = 1 || r.sz > 3 then return ← streamAddr n r
    else
      let a ← streamAddr n r
      let p ← scalarAddr n a (2 ^ r.sz) .load tiersAll
      return toWord (ofBytes (← streamBytes n a.toNat (2 ^ r.sz) p))

/-- The read completes: xd is written and the position rises. -/
def streamDone (n : Nat) (rd : Reg) (k : Fin 4) (v : Word) : Op Unit := do
  putX n rd v
  modSeqOp n fun q => { q with sqr := q.sqr.set k { q.sqr[k] with pos := q.sqr[k].pos + 1 } }

/-- The stream register that a control register number names. -/
def streamOf : CReg → Option (Fin 4)
  | .sq0 => some 0
  | .sq1 => some 1
  | .sq2 => some 2
  | .sq3 => some 3
  | _ => none

/-- MOVC from a control register or a stream register; a stream read that has nothing landed sleeps. -/
def execMovcRead (rd : Reg) (c : CReg) (s : State) : Res :=
  issue (.movcRead rd c) (fun n => do
    match streamOf c with
    | none =>
      cregReady n c
      let s ← get
      putX n rd (cregRead s n c)
      pure .next
    | some k => match ← attempt (streamRead n k) with
      | .ok v =>
        streamDone n rd k v
        pure .next
      | .error (.wait _) =>
        modSeqOp n fun q => { q with sleep := some (.stream rd k.val) }
        pure .stay
      | .error e => throw e) s

/-- A waiting stream read tries again. -/
def tryStreamRead (n : Nat) (s : State) : Ev :=
  match (s.seq n).sleep with
  | some (.stream rd k) => wake n (do
      let k : Fin 4 := Fin.ofNat 4 k
      let v ← streamRead n k
      streamDone n rd k v
      let c : CReg := match k with
        | 0 => .sq0
        | 1 => .sq1
        | 2 => .sq2
        | 3 => .sq3
      finishSleep n (.movcRead rd c)) s
  | _ => none
/-- STREAM_READ (11 R296). -/
def execStreamRead (n : Nat) (s : State) : Res := occurs (tryStreamRead n s) s

/-! ## TLBINV and PGQ -/

/-- A cached translation that a TLBINV of address a removes (13 R343). -/
def tlbHits (ctl : Word) (a : Nat) (t : TlbEntry) : Bool :=
  (ctl.getLsbD 13 || t.space == fld ctl 0 12) && (ctl.getLsbD 12 || (t.vpn ≤ a / 4096 && a / 4096 < t.vpn + t.pages))

/-- The translations that a TLBINV removes from the caches of a die. -/
def tlbGone (d : Die) (ctl : Word) (a : Nat) : List TlbEntry :=
  (d.tlb ++ (d.groupTlb.map (·.2)).flatten ++ (d.bankTlb.map (·.2)).flatten).filter (tlbHits ctl a)

/-- A TLBINV matches the address space of a context. -/
def spaceHit (s : State) (ctl : Word) (c : Nat) : Bool := ctl.getLsbD 13 || fld (s.ctx c).cptbase 0 12 == fld ctl 0 12

/-- A page that engine work of context c has translated is one of those whose translations a TLBINV removes. -/
def pageHeld (s : State) (gone : List TlbEntry) (ctl : Word) (a c : Nat) (pages : List (Nat × Nat)) : Bool :=
  spaceHit s ctl c && pages.any fun p => ctl.getLsbD 12 || p.1 / 4096 == a / 4096 ||
    gone.any fun t => t.vpn ≤ p.1 / 4096 && p.1 / 4096 < t.vpn + t.pages

/-- The n bytes at a key lie on a page whose translation for context c a TLBINV removes. -/
def keyHeld (s : State) (gone : List TlbEntry) (c key len : Nat) : Bool :=
  gone.any fun t => t.space == fld (s.ctx c).cptbase 0 12 &&
    rangesMeet (leafKey t.leaf t.level (4096 * t.vpn)) (4096 * t.pages) key len

/-- What the queue entries and the tasks of a die's engines hold of the translations that a TLBINV removes: those taken at issue
(10 R261) and the destinations of a DRAIN. -/
def tilesHeld (s : State) (d : Nat) (gone : List TlbEntry) (ctl : Word) (a : Nat) : List Holder :=
  ((s.die d).engines.map fun e =>
    (e.queue.filter fun m => pageHeld s gone ctl a m.ctx m.pages ||
      m.items.any fun t => t.addr != 0 && keyHeld s gone m.ctx t.addr 64).map (fun m => Holder.tile m.runId m.isn) ++
    (e.task.toList.filter fun t => pageHeld s gone ctl a t.task.ctx (t.pages ++ t.dpages)).map fun t =>
      Holder.tile t.task.runId t.task.isn).flatten

/-- What the thread of a sequencer holds of them: scalar accesses in flight, combining instructions that have begun, writes that
determinism mode holds, and attention commands. No other vector element holds a translation between two moves. -/
def seqHeld (s : State) (gone : List TlbEntry) (ctl : Word) (n : Nat) (q : Seq) : List Holder :=
  let begun := fun (e : Entry) => match vform e.ins with
    | some f => f.op.combines && !e.pulled.isEmpty && spaceHit s ctl q.ctx
    | none => scalarAccess e.ins && e.pulled.any fun p => keyHeld s gone q.ctx p.2.1 8
  (q.inflight.filter fun e => !e.gs.all (·.fin) && begun e).map (fun e => Holder.entry n q.runId e.isn) ++
    (q.held.filter fun h => keyHeld s gone q.ctx h.addr h.bytes.length).map (fun h => Holder.held n q.runId h.num) ++
    ((q.grp.cmds ++ q.stopping).filter fun m => m.began && spaceHit s ctl m.ctx).map fun m => Holder.attn m.runId m.isn

/-- What work on die d holds of the translations that a TLBINV removes there (13 R343 step 3). A pump translates again for each
element. -/
def tlbHolders (s : State) (d : Nat) (ctl : Word) (a : Nat) : List Holder :=
  let gone := tlbGone (s.die d) ctl a
  tilesHeld s d gone ctl a ++
    ((s.seqs.filter fun p => dieOf p.1 = d).map fun p => seqHeld s gone ctl p.1 p.2).flatten ++
    (s.landings.filter fun l => dieOf l.sq = d && keyHeld s gone l.ctx l.addr l.data.length).map fun l =>
      Holder.landing l.sq l.runId l.isn l.elem l.addr

/-- A holder still holds its translation. -/
def stillHolds (s : State) : Holder → Bool
  | .tile run isn => s.dies.toList.any fun d => d.engines.any fun e =>
      e.queue.any (fun m => m.runId == run && m.isn == isn) || e.task.any fun t => t.task.runId == run && t.task.isn == isn
  | .entry n run isn => (s.seq n).runId == run && (s.seq n).inflight.any fun e => e.isn == isn && !e.gs.all (·.fin)
  | .held n run num => (s.seq n).runId == run && (s.seq n).held.any fun h => h.num == num
  | .landing n run isn elem addr => s.landings.any fun l =>
      l.sq == n && l.runId == run && l.isn == isn && l.elem == elem && l.addr == addr
  | .attn run isn => s.seqs.any fun p => (p.2.grp.cmds ++ p.2.stopping).any fun m => m.runId == run && m.isn == isn

/-- Step 2 of a TLBINV on one die: the translations go, and the copies of its pumps find their landing and phase words again before
they write them. -/
def tlbRemove (s : State) (d : Nat) (ctl : Word) (a : Nat) : State :=
  let gone := tlbGone (s.die d) ctl a
  let lost := fun (c : Copy) => keyHeld s gone c.ctx c.landing 8 || (c.phase != 0 && keyHeld s gone c.ctx (c.phase - 1) 8)
  s.modDie d fun x =>
    { (x.mapTlb (·.filter fun t => !tlbHits ctl a t)) with
      pumps := x.pumps.map (·.map fun c => if lost c then { c with stale := true } else c) }

/-- TLBINV (13 R342, R343). It is a release on path V, which drains held writes (21 R500); with its translations removed it waits,
before the next instruction issues, for what holds one of them. -/
def execTlbinv (ra rb : Reg) (s : State) : Res :=
  issue (.tlbinv ra rb) (fun n => do
    let q ← getSeq n
    let ctl := q.getX rb
    let a := (q.getX ra).toNat
    if fld ctl 18 46 != 0 || fld ctl 14 2 != 0 || fld ctl 16 2 ≥ 2 || (!ctl.getLsbD 12 && a ≥ 2 ^ 48) then trapWith 0x0B 0
    else match q.inv with
      | some hs =>
        if hs.any (stillHolds (← get)) then waitFor .other
        else
          modSeqOp n fun q => { q with inv := none }
          pure .next
      | none =>
        needDone n
        drainNow n
        let s ← get
        let ds := if fld ctl 16 2 = 0 then [dieOf n] else List.range 16
        let hs := (ds.map fun d => tlbHolders s d ctl a).flatten
        set (ds.foldl (fun s d => tlbRemove s d ctl a) s)
        if hs.isEmpty then pure .next
        else
          modSeqOp n fun q => { q with inv := some hs }
          pure .stay) s

/-- The result of PGQ for an address, from the walk of a tree (13 R344). -/
def pgqWord (w : Walk) (priv : Bool) (a : Nat) : Word :=
    if w.reason != 0 then toWord (2 ^ 63 + w.reason * 2 ^ 60 + w.level * 2 ^ 58)
    else
      let e := w.leaf
      let b := fun (x : Bool) (k : Nat) => if x then 2 ^ k else 0
      let frame := (pageBase e w.level + a % pageSize e w.level) / 4096
      toWord (w.level * 2 ^ 58 + eS e * 2 ^ 56 + (if priv then ePort e * 2 ^ 52 + frame * 2 ^ 12 else 0) + eTier e * 2 ^ 9
        + eKind e * 2 ^ 7 + b (eX e) 6 + b (eW e) 5 + b (eR e) 4 + b (eD e) 3 + b (eA e) 2)

/-- The tables that PGQ reads hold no uncorrectable error and can be reached (15 R396, R397; 20 R470). -/
def pgqReads (d : Nat) : List Nat → Op Unit
  | [] => pure ()
  | k :: r => do
    match (← get).wayTo d k with
    | .clear => pure ()
    | .held => waitFor .other
    | .fails _ | .refused => throw (.mcheck k true)
    checkSoft none k 8
    pgqReads d r

/-- PGQ (13 R344), once every lower store is performed; the walk sees the sequencer's own held writes (21 R500; 02 R50). -/
def execPgq (rd ra : Reg) (s : State) : Res :=
  issue (.pgq rd ra) (fun n => do
    let s ← get
    let q := s.seq n
    if q.mode != .handler && q.inflight.any storesSomething then waitFor .other
    else
      let a := (q.getX ra).toNat
      if a ≥ 2 ^ 48 then putX n rd (toWord (2 ^ 63 + 4 * 2 ^ 60))
      else
        let w := walk (s.own n).mem (s.ctx q.ctx).cptbase a
        pgqReads (dieOf n) w.path
        putX n rd (pgqWord w q.privileged a)
      pure .next) s

/-! ## SUMPPOP (15 R385) -/

/-- SUMPPOP: an atomic access, which the sequencer's held writes to the header precede (log 49). -/
def execSumppop (rd : Reg) (s : State) : Res :=
  issue (.sumppop rd) (fun n => do
    let s ← get
    let q := s.seq n
    let cs := (s.ctx q.ctx).csump
    let h := fld cs 12 36 * 4096
    if h = 0 then
      putX n rd 0
      pure .next
    else
      let p ← scalarAddr n (toWord h) 8 .atomic tiersMW
      scalarOrder n q.isn .acqPkg
      scalarFar n q.isn p.key 16 p.kind
      modify fun s => sumpFlush (drainAt n p.key 16 s)
      checkSoft (some h) p.key 16
      let s ← get
      let prod := s.mem.num p.key 8
      let cons := s.mem.num (p.key + 8) 8
      if prod = cons then putX n rd 0
      else
        putX n rd (toWord (h + 64 + 64 * (cons % 2 ^ fld cs 0 5)))
        dirtyOp (dieOf n) p
        writeKey (p.key + 8) (bytesOf 8 (cons + 1)) (some (h + 8))
      pure .next) s

end Sys2Proof.Machine
end

