-- ==== Sys2Proof/Machine/Trap.lean ====
section
/-!
DEFINITION. Trap entry once the groups have settled, with in-flight instructions recorded (spec/15_contexts.md R372,
R375 to R377), takes (R369, R386, R387), the stop of a halted context's threads (R396, R520), page walks and expired
waits on migrating pages (spec/13_pages.md R336, R340).
-/
namespace Sys2Proof.Machine

/-! ## What the record of in-flight instructions holds -/

/-- The lowest element at or above i that stands with group g, or vl (02 R45, R58; 08 R230). -/
def ownedFrom (s : State) (x : ECx) (g : Nat) : Nat → Nat → Nat
  | 0, _ => x.e.vl
  | fuel + 1, i =>
    if i ≥ x.e.vl then x.e.vl
    else if standsWith s x i = g then i
    else ownedFrom s x g fuel (i + 1)

/-- A combining instruction, VWAIT or an instruction that is not executed by elements: its counters read 0 (07 R186;
08 R228). -/
def noCounters (e : Entry) : Bool := match vform e.ins with
  | some f => f.op.combines || f.op == .wait
  | none => true

/-- The counter of group g in an entry (15 R376). -/
def counterOf (s : State) (n : Nat) (e : Entry) (g : Nat) : Nat :=
  match vform e.ins with
  | some f => if noCounters e then 0 else ownedFrom s ⟨n, e, f, 0⟩ g (e.vl + 1) (e.ctr g).next
  | none => 0

/-- The counter with which group g would begin an entry. -/
def firstOwned (s : State) (n : Nat) (e : Entry) (g : Nat) : Nat :=
  match vform e.ins with
  | some f => if noCounters e then 0 else ownedFrom s ⟨n, e, f, 0⟩ g (e.vl + 1) 0
  | none => 0

/-- Group g has executed every element of an entry that it owns. -/
def Entry.doneBy (e : Entry) (g : Nat) : Bool := (e.ctr g).fin || (!noCounters e && !e.odd.isEmpty && (e.ctr g).next ≥ e.vl)

/-- Group entry g (R376). -/
def groupWord (s : State) (n : Nat) (es : List Entry) (tidx g : Nat) : Word :=
  let delta := (es.findIdx? fun e => !e.doneBy g).getD es.length
  let acnt := match es[delta]? with
    | some e => counterOf s n e g
    | none => 0
  let cnt := match es[tidx]? with
    | some e => if delta = tidx then acnt else if delta > tidx then (if noCounters e then 0 else e.vl)
      else firstOwned s n e g
    | none => 0
  toWord (2 ^ 63 + delta * 2 ^ 48 + acnt * 2 ^ 24 + cnt)

/-- An in-flight entry (R377). -/
def entryWords (e : Entry) : List Word :=
  [low48 e.pc, toWord (encode e.ins),
    toWord ((e.sdest.map fun r => r.val * 2 ^ 41 + 2 ^ 40).getD 0 + e.ins.len * 2 ^ 32 + e.isn.toNat)] ++
    (List.range 9).map e.w ++
    [e.token, toWord e.vl, e.vtype, e.maskAddr, e.cvalid, e.cgkey, e.cgdraw, e.cldL] ++ zeros 12

/-- The entries that some group has not completed. -/
def Seq.openEntries (q : Seq) : List Entry := q.inflight.filter fun e => !e.gs.all (·.fin)

/-- The header, group entries and in-flight entries of a trap at element `vstart` of the entry of an ISN. -/
def flightHdr (s : State) (n : Nat) (isn : BitVec 32) (pc resume : Word) (vstart : Nat) (hard nores : Bool) : TrapHdr :=
  let q := s.seq n
  let es := q.openEntries
  let tidx := (es.findIdx? fun e => e.isn == isn).getD 0
  { isn := isn, pc := pc, resume := resume, vstart := vstart, tidx := tidx, hard := hard, nores := nores,
    groups := (List.range 64).map fun g => if g < q.g then groupWord s n es tidx g else 0,
    ents := es.map entryWords }

/-! ## Trap entry -/

/-- A group can do nothing more but wait for what no landing of the grant will bring (R372 step 1). -/
def groupSettled (s : State) (n g : Nat) : Bool := match (groupMove n g).run s with
  | .ok _ _ => false
  | .error (.wait .landing) _ | .error (.wait (.bucket ..)) _ => false
  | .error (.wait _) _ => true
  | .error _ _ => false

/-- Every group has settled. -/
def settled (s : State) (n : Nat) : Bool :=
  (waveDue s n).isNone && (List.range (s.seq n).g).all (groupSettled s n)

/-- The element trap that is reported: the lowest ISN, then the lowest element (R372 step 3). -/
def lowestTrap (ts : List GTrap) : Option GTrap :=
  minBy (fun a b => isnLt a.isn b.isn || (a.isn == b.isn && a.elem < b.elem)) ts

/-- What the trap area does not hold of the entries in flight. -/
def sharesOf (q : Seq) : List Shares :=
  q.openEntries.map fun e => ⟨q.runId, e.isn, e.ins, e.capB1, e.capC1, e.owners, e.odd⟩

/-- Enter the handler and drop what is in flight, whose record the trap area holds. -/
def enterFlight (s : State) (n : Nat) (r : TrapReq) (h : TrapHdr) : State :=
  let s' := trapEnter s n r h
  let q := s.seq n
  if (s'.seq n).mode != .handler then s'
  else
    let s' := s'.modSeq n fun q => { q with inflight := [] }
    { s' with shares := (s'.shares.filter fun r => r.run != q.runId) ++ sharesOf q }

/-- Sequencer n cannot enter its handler yet: its trap area lies on a migrating page or behind a link that trains, or, before a take,
such a link holds the way of a write that it is to drain (13 R336; 20 R466; 21 R500). -/
def entryStuck (s : State) (n cause : Nat) : Bool :=
  let drains := (cause = 0x0D || cause = 0x11) && (s.seq n).held.any fun h => s.wayTo (dieOf n) h.addr == .held
  drains || (match trapArea s n with
    | .error .migrating => s.migs.any fun m => m.sq == n
    | .error .held => true
    | _ => false)

/-- The element trap that is entered before what else waits: the stop of a halted context keeps its own cause and NORES (R396,
R520). -/
def Seq.firstTrap (q : Seq) : Option GTrap := if q.pend.any (·.nores) then none else lowestTrap q.gtraps

/-- The trap that waits at sequencer n is entered: an element trap before a take or an issue trap; an issue trap once
nothing is in flight (R372). -/
def tryTrapEntry (n : Nat) (s : State) : Ev :=
  let q := s.seq n
  let cause := match q.firstTrap, q.pend with
    | none, some p => p.req.cause
    | _, _ => 0
  if s.pkg.frozen || q.mode != .run || entryStuck s n cause then none
  else match q.firstTrap with
    | some t =>
      if settled s n then
        let pc := ((q.inflight.find? fun e => e.isn == t.isn).map (·.pc)).getD q.pc
        some (.next (enterFlight s n t.req (flightHdr s n t.isn pc q.pc t.elem false false)))
      else none
    | none => match q.pend with
      | none => none
      | some p =>
        if p.hard then
          if settled s n then
            let hard := p.req.cause = 0x0D || p.req.cause = 0x11
            some (.next (enterFlight s n p.req (flightHdr s n p.isn p.pc p.resume 0 hard p.nores)))
          else none
        else if !q.inflight.isEmpty then none
        else if p.req.cause = 0x13 && p.isn = q.isn then some (.next (swEnter s n p.req))
        else some (.next (trapEnter s n p.req (q.pendHdr p)))
/-- TRAP_ENTRY (R372). -/
def execTrapEntry (n : Nat) (s : State) : Res := occurs (tryTrapEntry n s) s

/-! ## Takes -/

/-- A context receives a pre-emption request (R369): it has an effect in state ACTIVE alone. -/
def tryPreemptionRequest (c : Nat) (s : State) : Ev :=
  if s.pkg.frozen || (s.ctx c).st != .active then none
  else some (.next (checkAway (requestTake s c 0x0D) c))
/-- PREEMPTION_REQUEST (R369). -/
def execPreemptionRequest (c : Nat) (s : State) : Res := occurs (tryPreemptionRequest c s) s

/-- Sequencer n stands at a soft point (06 R157, R168); one that waits in an instruction stands at the boundary before it, but MWAIT
ends first (R387). -/
def atSoft (s : State) (n : Nat) : Bool :=
  let q := s.seq n
  match q.sleep with
  | some (.setvlc ..) => true
  | some (.mwait ..) => false
  | some _ => q.softPt
  | none => q.softPt || (match fetchIns s n with
    | .ins i _ => isSetvl i
    | _ => false)

/-- Leave the instruction in which a sequencer sleeps at the boundary before it: a VWAIT that waits at issue is not in
flight (08 R228). -/
def Seq.leaveSleep (q : Seq) : Seq := match q.sleep with
  | some (.vwait ..) =>
    { q with sleep := none, inflight := q.inflight.filter fun e => e.isn != q.isn, logged := 0 }
  | _ => { q with sleep := none, logged := 0 }

/-- A thread with a take request reaches a soft point: it stops issuing, and enters the handler once nothing is in
flight (R386). -/
def trySoftTake (n : Nat) (s : State) : Ev :=
  let q := s.seq n
  match q.take with
  | none => none
  | some (cause, _) =>
    if s.pkg.frozen || q.mode != .run || q.pend.isSome || !q.gtraps.isEmpty || !atSoft s n then none
    else
      let r : TrapReq := ⟨cause, 0, 0⟩
      let s := s.modSeq n (·.leaveSleep)
      let q := s.seq n
      if entryStuck s n cause then none
      else if q.inflight.isEmpty then some (.next (trapEnter s n r (q.issueHdr q.pc)))
      else some (.next (s.modSeq n fun q => { q with pend := some ⟨r, q.isn, q.pc, q.pc, false, false⟩ }))
/-- SOFT_TAKE (R386). -/
def execSoftTake (n : Nat) (s : State) : Res := occurs (trySoftTake n s) s

/-- 10,000 reference cycles after the request an untaken thread stops issuing and is taken hard, also while a soft take
waits for what is in flight; an MWAIT completes with code 3 first, and the thread runs on (R387; 06 R172). -/
def tryHardTake (n : Nat) (s : State) : Ev :=
  let q := s.seq n
  match q.take with
  | none => none
  | some (cause, since) =>
    let busy := q.pend.any fun p => p.hard || !(p.req.cause == 0x0D || p.req.cause == 0x11)
    let mwait := match q.sleep with
      | some (.mwait ..) => (tryMwaitWake n s).isSome
      | _ => false
    if s.pkg.frozen || q.mode != .run || busy || mwait || s.now - since < 10000 then none
    else some (.next (s.modSeq n fun q =>
      let q := q.leaveSleep.markBegun
      { q with pend := some ⟨⟨cause, 0, 0⟩, q.isn, q.pc, q.pc, true, false⟩ }))
/-- HARD_TAKE (R387). -/
def execHardTake (n : Nat) (s : State) : Res := occurs (tryHardTake n s) s

/-! ## Halted contexts -/

/-- A running thread of a HALTED context stops at its next instruction boundary, with NORES (R396, R520). -/
def tryHaltStop (n : Nat) (s : State) : Ev :=
  let q := s.seq n
  let c := s.ctx q.ctx
  if s.pkg.frozen || q.mode != .run || c.st != .halted || q.pend.any (·.nores) then none
  else some (.next (s.modSeq n fun q =>
    let q := q.leaveSleep.markBegun
    { q with gtraps := [], take := none, pend := some ⟨c.halt, q.isn, q.pc, q.pc, true, true⟩ }))
/-- HALT_STOP (R520). -/
def execHaltStop (n : Nat) (s : State) : Res := occurs (tryHaltStop n s) s

/-- An uncorrectable error on behalf of a context (R396). -/
def tryMachineCheck (c addr : Nat) (phys : Bool) (s : State) : Ev :=
  if s.pkg.frozen || (s.ctx c).st = .halted || (s.ctx c).st = .ended then none
  else some (.next (haltCtx s c ⟨0x10, toWord addr, if phys then 1 else 0⟩))
/-- MACHINE_CHECK (R396). -/
def execMachineCheck (c addr : Nat) (phys : Bool) (s : State) : Res := occurs (tryMachineCheck c addr phys s) s

/-! ## Walks -/

/-- A miss of an access by a context whose thread the die holds walks the tree, sets A and installs the leaf; D follows with the
first write (13 R329, R339, R340). -/
def tryPageWalk (d c va : Nat) (acc : Access) (s : State) : Ev :=
  if s.pkg.frozen || d ≥ 16 || !((s.threads c).any fun p => dieOf p.1 == d) ||
      (tlbHit (s.die d) (fld (s.ctx c).cptbase 0 12) va).isSome then none
  else match xlate s d c va acc with
    | (.ok _, s') => some (.next s')
    | _ => none
/-- PAGE_WALK (13 R340). -/
def execPageWalk (d c va : Nat) (acc : Access) (s : State) : Res := occurs (tryPageWalk d c va acc s) s

/-- An access has waited 1,000,000 reference cycles on a migrating entry: it fails when it walks again (13 R336). -/
def tryMigrationTimeout (idx : Nat) (s : State) : Ev :=
  match s.migs[idx]? with
  | none => none
  | some m =>
    if s.pkg.frozen || m.expired || s.now - m.since < 1000000 then none
    else some (.next (sumpFlush { s with migs := s.migs.modify idx fun m => { m with expired := true } }))
/-- MIGRATION_TIMEOUT (13 R336). -/
def execMigrationTimeout (idx : Nat) (s : State) : Res := occurs (tryMigrationTimeout idx s) s

end Sys2Proof.Machine
end

