-- ==== Sys2Proof/Machine/Context.lean ====
section
/-!
DEFINITION. RETT (spec/15_contexts.md R380), and saving and restoring a thread: CTXST and CTXLD (R390 to R395).
-/
namespace Sys2Proof.Machine

/-! ## RETT -/

/-- Word at an offset of the trap area. -/
def areaWord (s : State) (k o : Nat) : Word := toWord (s.mem.num (k + o) 8)

/-- The instruction that an in-flight entry encodes, when it passes RETT's check (R380). -/
def entryIns (s : State) (k : Nat) : Option Instr :=
  match decode (areaWord s k 8).toNat with
  | .ok i => if i.len = fld (areaWord s k 0x10) 32 4 && bitsAt (areaWord s k 8).toNat 0 (16 * i.len) = (areaWord s k 8).toNat
      then some i else none
  | .error _ => none

/-- Offset of in-flight entry j. -/
def entryOff (j : Nat) : Nat := 0x500 + 256 * j

/-- The header's NINFL (R375). -/
def areaN (s : State) (k : Nat) : Nat := fld (areaWord s k 0x40) 16 4

/-- The trap area is malformed (R380). -/
def areaBad (s : State) (k g : Nat) : Bool :=
  let n := areaN s k
  let tidx := fld (areaWord s k 0x40) 20 4
  let vl := fun (j : Nat) => fld (areaWord s k (entryOff j + 0x68)) 0 17
  n > 9 || (n > 0 && tidx ≥ n) || fld (areaWord s k 0x1D0) 0 3 > 6 ||
    (List.range n).any (fun j => (entryIns s (k + entryOff j)).isNone) ||
    (List.range g).any fun i =>
      let w := areaWord s k (0x300 + 8 * i)
      let d := fld w 48 4
      d > n || (d < n && fld w 24 17 > vl d) || (n > 0 && fld w 0 17 > vl tidx)

/-- x(N+1) of a source B or C of an in-flight entry that a handler has rewritten into another instruction (log 25). -/
def againAux (q : Seq) (f : Option VForm) (ty : VOp → ETy) (src : VForm → Option Src) : Word := match f with
  | some f => q.srcAux (ty f.op) (src f)
  | none => 0

/-- A group's progress in in-flight entry j from its group entry (R376, R380). While an element that stands with its home is
due, a group past all its own elements has not completed the entry (02 R45). -/
def ctrAgain (gw : Word) (j vl : Nat) (odd : List Nat) : GCtr :=
  let d := fld gw 48 4
  if d > j && !odd.isEmpty then ⟨vl, false, [], false⟩ else ⟨if d = j then fld gw 24 17 else 0, d > j, [], false⟩

/-- In-flight entry j as RETT dispatches it, for a sequencer whose registers have been restored (R380). What the groups had
found of the owners of its elements stands as it was, and so do the values read at issue that the trap area has no place for (02
R51), while the entry names the instruction that issued. -/
def entryAgain (s : State) (k n j : Nat) (q : Seq) : Option Entry :=
  let b := k + entryOff j
  (entryIns s b).map fun i =>
    let w := fun o => areaWord s b o
    let f := vform i
    let t := vtTy (w 0x70)
    let isn := BitVec.ofNat 32 (fld (w 0x10) 0 32)
    let found := s.shares.find? fun r => r.run == q.runId && r.isn == isn
    let odd := (found.map (·.odd)).getD []
    let same := found.filter fun r => r.ins == i
    { isn := isn, pc := low48 (w 0), ins := i, cap := (List.range 9).map fun m => w (0x18 + 8 * m),
      capB1 := (same.map (·.capB1)).getD (againAux q f (·.tyB t) VForm.b),
      capC1 := (same.map (·.capC1)).getD (againAux q f (·.tyC t) VForm.c),
      vl := fld (w 0x68) 0 17, vtype := w 0x70, maskAddr := w 0x78, cvalid := w 0x80, cgkey := w 0x88, cgdraw := w 0x90,
      cldL := w 0x98, sdest := if (w 0x10).getLsbD 40 then some (Fin.ofNat 32 (fld (w 0x10) 41 5)) else none,
      token := w 0x60,
      gs := (List.range q.g).map fun g => ctrAgain (areaWord s k (0x300 + 8 * g)) j (fld (w 0x68) 0 17) odd,
      pulled := [], waves := waveSize s n, flags := 0, owners := (found.map (·.owners)).getD [], odd := odd }

/-- The registers that RETT restores (R374, R380): it writes each of them, and so sets their dirty bits (R389; log 29). -/
def restoreRegs (s : State) (k : Nat) (q : Seq) : Seq :=
  let c := fun (j : Nat) => areaWord s k (0x180 + 8 * j)
  let x := (List.range 32).map fun r => if r = 0 then (0 : Word) else areaWord s k (0x80 + 8 * (r - 1))
  let depth := fld (areaWord s k 0x1D0) 0 3
  let loops := (List.range depth).map fun j =>
    let w := fun (m : Nat) => areaWord s k (0x200 + 32 * j + 8 * m)
    (⟨low48 (w 0), low48 (w 1), w 2, w 3⟩ : Loop)
  { q with
    x := Vector.ofFn fun r : Fin 32 => (x[r.val]?).getD 0,
    vl := min (fld (c 0) 0 17) q.vlCap, vtype := vtWrite (c 1), cmask0 := low48 (c 2), cmask1 := low48 (c 3),
    cvalid := low48 (c 4), cld := low48 (c 5), cgkey := c 6, cgdraw := c 7 &&& 0xFFFFFFFFFFFF0000,
    cflags := fld (c 8) 0 5, cprio := cprioWrite true 0 (c 9), loops := loops.reverse,
    fresh := min q.fresh depth,
    bkpt := Vector.ofFn fun j : Fin 8 =>
      let w := areaWord s k (0x2C0 + 8 * j.val)
      (w.getLsbD 63, low48 w),
    dirtyX := q.dirtyX ||| 0xFFFFFFFE, dirtyC := q.dirtyC ||| 0x27F3 }

/-- A thread of an AWAY context resumes: the context is ACTIVE, and its PARKED leases are HELD again (R369). -/
def resumeCtx (s : State) (c : Nat) : State :=
  if (s.ctx c).st = .away then resumeLeases (s.modCtx c fun x => { x with st := .active }) c else s

/-- The end of a thread in handler mode (R370): with a record saved since the last trap entry it lives on there, with its command
group. -/
def handlerExit (s : State) (n : Nat) : State :=
  freeSeq (if s.isSaved (s.seq n).runId then s.stowGroup n else s) n

/-- A thread goes on from its sequencer: no record holds it any more (R370), what its groups had found is in its entries again,
and flags that its engine work has raised meanwhile accrue (03 R71). -/
def claimRun (s : State) (n run : Nat) : State :=
  let fl := (smapGet run s.owed).getD 0
  let s := if fl = 0 then s else s.modSeq n fun q => { q with cflags := q.cflags ||| fl, dirtyC := q.dirtyC ||| (1 <<< 10) }
  { s with aside := s.aside.filter fun a => a.run != run, owed := smapDel run s.owed, shares := s.shares.filter fun r => r.run != run,
           ctxs := s.ctxs.map fun x => { x with saved := x.saved.filter fun p => p.2 != run } }

/-- RETT restores and resumes (R380), from the trap area as `v` has it. A thread of a context whose quota is used up is taken again
(21 R495). -/
def rettResume (v s : State) (k n : Nat) : State :=
  let q := restoreRegs v k (s.seq n)
  let abandon := (areaWord v k 0x40).getLsbD 9
  let es := (List.range (areaN v k)).filterMap fun j => entryAgain v k n j q
  let isns := (List.range (areaN v k)).map fun j => BitVec.ofNat 32 (fld (areaWord v k (entryOff j + 0x10)) 0 32)
  let s := if abandon then closeWork s isns q.runId else s
  let q := { q with
    mode := .run, isn := BitVec.ofNat 32 (fld (areaWord v k 0x48) 32 32), pc := low48 (areaWord v k 0x58),
    bkSkip := some (low48 (areaWord v k 0x58)), taken := false, take := none, softPt := false, logged := 0,
    sleep := none, pend := none, gtraps := [], lbuf := keepBuf q.loops q.lbuf,
    inflight := if abandon then [] else es }
  let q := if abandon then { q with versions := [], reads := [], kept := [] } else q.prune
  quotaStop (resumeCtx (claimRun (s.setSeq n q) n q.runId) q.ctx) q.ctx

/-- With a take pending, RETT rewrites the cause and enters the handler again (R380). -/
def rettTake (s : State) (k n : Nat) : State :=
  let q := s.seq n
  let w := areaWord s k 0x40
  let w' := toWord (w.toNat / 2 ^ 11 * 2 ^ 11 + 2 ^ 10 + fld w 8 2 * 2 ^ 8 + (s.ctx q.ctx).takeCause)
  let s := (s.poke (k + 0x40) (bytesOf 8 w'.toNat)).poke (k + 0x70) (bytesOf 8 0)
  checkAway (s.modSeq n fun q => { q with pc := areaWord s k 0, take := none, taken := true }) q.ctx

/-- RETT: it reads the trap area as the handler's own stores have left it (15 R378), those that determinism mode still
holds included; with a take pending they are performed, a take being a drain point (21 R500), and RETT writes the trap area. -/
def execRett (s : State) : Res :=
  issue .rett (fun n => do
    let s ← get
    let q := s.seq n
    let c := s.ctx q.ctx
    if q.mode != .handler then trapWith 0x15 0
    else if c.st = .halted || c.st = .ended then
      set (handlerExit s n)
      pure .gone
    else
      let base := fld c.ctrap 12 36 * 4096
      match trapArea s n with
      | .error .migrating => waitFor (.migrating base)
      | .error .held => waitFor .other
      | .error .fails => trapWith 0x05 base
      | .ok (p, s) =>
        set s
        needRoute (dieOf n) base p
        let k := p.key
        if c.st = .taking then
          checkSoft (some base) k 8
          checkSoft (some (base + 0x40)) (k + 0x40) 8
          drainNow n
          dirtyOp (dieOf n) p
          modify fun s => rettTake s k n
          pure .gone
        else
          checkSoft (some (base + 0x40)) (k + 0x40) 0x4C0
          checkSoft (some (base + 0x500)) (k + 0x500) (256 * areaN (s.own n) k)
          let s ← get
          let v := s.own n
          if areaBad v k q.g then trapWith 0x0B base
          else if (areaWord v k 0x40).getLsbD 8 then
            set (handlerExit s n)
            pure .gone
          else
            set (rettResume v s k n)
            pure .gone) s

/-! ## Records and images by virtual address -/

/-- Read n bytes, each 4 KB page translated for itself; the main and well tiers alone. -/
def vaRead (n : Nat) : Nat → Nat → Nat → Op (List Byte)
  | 0, _, _ => pure []
  | fuel + 1, va, len => do
    if len = 0 then return []
    else
      let k := min len (4096 - va % 4096)
      let p ← scalarAddr n (toWord va) 1 .load tiersMW
      let bs ← readFar n va p.key k
      return bs ++ (← vaRead n fuel (va + k) (len - k))

/-- Write bytes, each 4 KB page translated for itself; they are performed at once. -/
def vaWrite (n : Nat) : Nat → Nat → List Byte → Op Unit
  | 0, _, _ => pure ()
  | fuel + 1, va, bs => do
    if bs.isEmpty then return ()
    else
      let k := min bs.length (4096 - va % 4096)
      let p ← scalarAddr n (toWord va) 1 .store tiersMW
      dirtyOp (dieOf n) p
      writeKey p.key (bs.take k) (some va)
      vaWrite n fuel (va + k) (bs.drop k)

/-- Read one word. -/
def vaWord (n va : Nat) : Op Word := do return toWord (ofBytes (← vaRead n 2 va 8))
/-- Write words. -/
def vaPut (n va : Nat) (ws : List Word) : Op Unit := vaWrite n (ws.length / 512 + 2) va (wordBytes ws)

/-- A descriptor image (10 R276). -/
def TileDesc.words (t : TileDesc) : List Word :=
  [toWord t.base, toWord t.base2, toWord (t.etype * 2 ^ 32 + t.cols * 2 ^ 16 + t.rows), toWord t.stride,
    toWord (t.ocol * 2 ^ 32 + t.orow), toWord (t.stream * 2 ^ 32 + t.gwidth), 0, 0]

/-- The descriptor of an image. -/
def descOf (w : Nat → Word) : TileDesc :=
  { base := fld (w 0) 0 48, base2 := fld (w 1) 0 48, rows := fld (w 2) 0 16, cols := fld (w 2) 16 16,
    etype := fld (w 2) 32 9, stride := fld (w 3) 0 32, orow := fld (w 4) 0 32, ocol := fld (w 4) 32 32,
    gwidth := fld (w 5) 0 32, stream := fld (w 5) 32 32 }

/-- A stream register in a thread record (R390). -/
def StreamReg.words (r : StreamReg) : List Word :=
  [toWord ((if r.bound then 2 ^ 63 else 0) + r.landing % 2 ^ 48),
    toWord (r.kind * 2 ^ 36 + r.sz * 2 ^ 32 + r.pos % 2 ^ 24), toWord r.base, toWord r.stride]

/-- The stream register of a record. -/
def streamRegOf (w : Nat → Word) : StreamReg :=
  { bound := (w 0).getLsbD 63, landing := fld (w 0) 0 48, pos := fld (w 1) 0 24, sz := fld (w 1) 32 3,
    kind := fld (w 1) 36 3, base := (w 2).toNat, stride := (w 3).toNat, index := 0, isn := 0, addrs := [] }

/-- Full/empty bits of lines, one byte a line, a full word's bit 1 (R391; log 26). -/
def fullByte (bits : List Bool) : Byte :=
  BitVec.ofNat 8 (bits.zipIdx.foldl (fun a p => if p.1 then a + 2 ^ p.2 else a) 0)

/-- A landing into sequencer n's window is still due. -/
def windowDue (s : State) (n : Nat) : Bool :=
  let q := s.seq n
  s.marks.any (fun m => q.inWin (8 * m.word) && !m.dead && !m.landed) || s.landings.any fun l => q.inWin l.addr

/-! ## CTXST (R393) -/

/-- Copy the granule at window offset o to the image at cimg, data and full/empty bits. -/
def saveGranule (n cimg o : Nat) : Op Unit := do
  let q ← getSeq n
  checkSoft (some (q.winVa + o)) (q.winPa + o) 4096
  let s ← get
  let line := fun (j : Nat) => fullByte (s.fullBits ((q.winPa + o) / 64 + j))
  vaWrite n 3 (cimg + o) (s.mem.read (q.winPa + o) 4096)
  vaWrite n 3 (cimg + 0x8000000 + o / 64) ((List.range 64).map line)

/-- Do something for each number of a list. -/
def forEach (f : Nat → Op Unit) : List Nat → Op Unit
  | [] => pure ()
  | a :: r => do
    f a
    forEach f r

/-- An entry of the version image (R391). -/
def Version.bytes (v : Version) : List Byte :=
  bytesOf 8 (v.tag.toNat * 2 ^ 32 + v.line) ++ [fullByte v.full, 0, 0, 0, 0, 0, 0, 0] ++ v.data

/-- Offsets of the words of the control block in the record, with their register numbers. -/
def blockNums : List (Nat × Nat) :=
  [(0x180, 0), (0x188, 1), (0x190, 4), (0x198, 5), (0x1A0, 6), (0x1A8, 7), (0x1B0, 8), (0x1B8, 9), (0x1C0, 10), (0x1C8, 13)]

/-- The words at an offset of the trap area at base, whose key is k. -/
def areaWords (base k o len : Nat) : Op (List Word) := do
  checkSoft (some (base + o)) (k + o) (8 * len)
  let s ← get
  return (List.range len).map fun j => areaWord s k (o + 8 * j)

/-- A record has been written for the thread of sequencer n: it holds that thread and no other (R368, R370). What it has no place
for is kept by thread (11 R295, R296; log 68). -/
def recordSaved (s : State) (n key : Nat) : State :=
  let q := s.seq n
  let forget := fun (x : Ctx) => { x with saved := x.saved.filter fun p => p.1 != key, records := nsetDel key x.records }
  let s := ({ s with ctxs := s.ctxs.map forget } : State).setAside ⟨q.runId, q.ctx, q.sqr.toList, q.copyLog, Group.none⟩
  s.modCtx q.ctx fun x => { x with saved := x.saved ++ [(key, q.runId)], records := nsetAdd key x.records }

/-- CTXST: a release, and so a drain point (21 R500). -/
def execCtxst (ra : Reg) (s : State) : Res :=
  issue (.ctxst ra) (fun n => do
    if (← getSeq n).mode != .handler then trapWith 0x15 0
    else
      drainNow n
      let s ← get
      let q := s.seq n
      let t := (q.getX ra).toNat
      let rec_ ← scalarAddr n (q.getX ra) 4096 .atomic tiersMW
      let base := fld (s.ctx q.ctx).ctrap 12 36 * 4096
      match trapArea s n with
      | .error .migrating => waitFor (.migrating base)
      | .error .held => waitFor .other
      | .error .fails => trapWith 0x05 base
      | .ok (p, _) =>
        needRoute (dieOf n) base p
        let k := p.key
        if windowDue s n then waitFor .landing
        else
          let same := q.lastLoad = some t
          let copy := fun o len => do vaPut n (t + o) (← areaWords base k o len)
          let hard := (areaWord s k 0x40).getLsbD 10
          vaPut n (t + 8) [toWord (q.dirtyX.toNat + q.dirtyC.toNat % 2 ^ 19 * 2 ^ 32)]
          copy 0x40 8
          forEach (fun r => if same && !q.dirtyX.getLsbD r then pure () else copy (0x80 + 8 * (r - 1)) 1) ((List.range 32).drop 1)
          copy 0x178 1
          forEach (fun j => match blockNums[j]? with
            | some (o, c) => if same && !q.dirtyC.getLsbD c then pure () else copy o 1
            | none => pure ()) (List.range 10)
          copy 0x1D0 454
          vaPut n (t + 0x1000) ((q.td.toList.map TileDesc.words).flatten)
          vaPut n (t + 0x1400) ([.ctrap, .csump, .cptbase, .vcap, .cquota, .cdet].map (cregRead s n))
          vaPut n (t + 0x1430) [0, 0]
          vaPut n (t + 0x1440) ((q.sqr.toList.map StreamReg.words).flatten)
          vaWrite n 3 (t + 0x14C0) (List.replicate 0xB40 0)
          let cimg := fld (← vaWord n (t + 0x10)) 0 48
          forEach (fun j => if same && !q.dirtyGran.contains j then pure () else saveGranule n cimg (4096 * j))
            (List.range (q.hwm / 4096))
          if hard then
            let vimg := fld (← vaWord n (t + 0x20)) 0 48
            let img := (q.versions.map Version.bytes).flatten
            vaWrite n (img.length / 4096 + 2) vimg img
            vaPut n (t + 0x28) [toWord img.length]
          vaPut n (t + 0x30) [0, 0]
          vaPut n (t + 0x18) [toWord q.hwm]
          vaPut n t [toWord (2 ^ 63 + (if hard then 2 ^ 62 else 0) + (if q.priv then 2 ^ 61 else 0) + q.g * 2 ^ 32
            + vlmaxOf q.g)]
          modify fun s => recordSaved (s.modSeq n fun q => { q with dirtyGran := [] }) n rec_.key
          pure .next) s

/-! ## CTXLD (R394) -/

/-- Empty words that the full/empty bytes of a granule give, from the first word on. -/
def emptyWords (w0 : Nat) (bs : List Byte) : List Nat :=
  (bs.zipIdx.map fun b => (List.range 8).filterMap fun j =>
    if b.1.getLsbD j then none else some (w0 + 8 * b.2 + j)).flatten

/-- Load the granule at window offset o. -/
def loadGranule (n cimg o : Nat) : Op Unit := do
  let data ← vaRead n 3 (cimg + o) 4096
  let fe ← vaRead n 3 (cimg + 0x8000000 + o / 64) 64
  modify fun s =>
    let q := s.seq n
    let w0 := (q.winPa + o) / 8
    let s := s.poke (q.winPa + o) data
    let other := s.empty.filter fun w => !(w0 ≤ w && w < w0 + 512)
    { s with empty := (emptyWords w0 fe).foldl (fun l w => nsetAdd w l) other }

/-- The versions of a version image. -/
def versionsOf : Nat → List Byte → List Version
  | 0, _ => []
  | fuel + 1, bs =>
    if bs.length < 80 then []
    else
      let w0 := toWord (ofBytes (bs.take 8))
      let fe := (bs[8]?).getD 0
      ⟨fld w0 0 21, BitVec.ofNat 32 (fld w0 32 32), (bs.drop 16).take 64, (List.range 8).map fe.getLsbD, true⟩ ::
        versionsOf fuel (bs.drop 80)

/-- The context that a record belongs to: the loader's own when CTXST has written it for none. -/
def recCtx (s : State) (key c : Nat) : Nat := ((s.ctxs.find? fun x => x.records.contains key).map (·.id)).getD c

/-- The thread that a record holds (R370). -/
def recRun (s : State) (key : Nat) : Option Nat := s.ctxs.findSome? fun x => (x.saved.find? fun p => p.1 == key).map (·.2)

/-- The thread that sequencer n holds gives place to another: its command group stays with it where a record holds it, and is
discarded with it where none does (12 R320; log 108). -/
def swapOut (s : State) (n : Nat) : State :=
  if s.isSaved (s.seq n).runId then s.stowGroup n else s.closeGroup n

/-- A command group comes back with its thread: while it is open other reads of its area return zero (12 R315). -/
def State.enterGroup (s : State) (n : Nat) (g : Group) : State :=
  if g.st = .none then s
  else
    let g := g.enter (s.seq n)
    let s : State := { s with mem := s.mem.zero g.area (g.area + 64 * (g.nlines + 1)) }
    s.modSeq n fun q => { q with grp := g }

/-- Sequencer n holds the thread that a record held, which no record holds now; a record that holds none brings a new thread. What the
record had no place for is found again (log 68). -/
def holdRun (s : State) (n key : Nat) : State :=
  let old := (s.seq n).runId
  let run := (recRun s key).getD (s.runCtr + 1)
  let a := (s.asideOf run).getD ⟨run, 0, [], [], Group.none⟩
  let forget := fun (x : Ctx) => { x with saved := x.saved.filter fun p => p.2 != run }
  let ctr := if (recRun s key).isSome then s.runCtr else s.runCtr + 1
  let s : State := { s with runCtr := ctr, aside := s.aside.filter fun b => b.run != run, ctxs := s.ctxs.map forget }
  let s : State := if old = run || s.isSaved old then s
    else { s with owed := smapDel old s.owed, shares := s.shares.filter fun r => r.run != old }
  let known := fun (r : StreamReg) (j : Nat) => match a.sqr[j]? with
    | some o => { r with index := o.index, isn := o.isn, addrs := o.addrs }
    | none => r
  (s.modSeq n fun q => { q with
    runId := run, copyLog := a.copies, sqr := Vector.ofFn fun j : Fin 4 => known q.sqr[j] j.val }).enterGroup n a.grp

/-- Load the privileged registers of a record into a context and the sequencer. -/
def loadPriv (s : State) (n c : Nat) (w : Nat → Word) : State :=
  let s := s.modSeq n fun q => { q with vcap := min 16 (fld (w 3) 0 5) }
  s.modCtx c fun x =>
    let lim := fld (w 4) 0 32
    { x with ctrap := toWord (fld (w 0) 12 36 * 4096),
             csump := if w 1 = 0 then 0 else csumpWrite (w 1),
             cptbase := w 2 &&& 0xFFFFFFFFFFFFF, cdet := cdetWrite (w 5),
             limit := lim, balance := if lim = x.limit then x.balance else lim * 1000 }

/-- CTXLD: it reads what the handler's own stores have left (15 R378), those that determinism mode holds included, and those to the
trap area come before its own writes there (log 49). -/
def execCtxld (ra : Reg) (s : State) : Res :=
  issue (.ctxld ra) (fun n => do
    let s ← get
    let q := s.seq n
    if q.mode != .handler then trapWith 0x15 0
    else
      let t := (q.getX ra).toNat
      let rec_ ← scalarAddr n (q.getX ra) 4096 .load tiersMW
      let w0 ← vaWord n t
      let hwm := (← vaWord n (t + 0x18)).toNat
      let x1 ← vaWord n (t + 0x80)
      let c' := recCtx s rec_.key q.ctx
      let hard := w0.getLsbD 62
      if !w0.getLsbD 63 || (hard && fld w0 32 7 != q.g) || hwm > q.g * twoMB || x1 != toWord q.winVa ||
          (s.ctx c').st = .ended then trapWith 0x0B t
      else match trapArea s n with
        | .error .migrating => waitFor (.migrating (fld (s.ctx q.ctx).ctrap 12 36 * 4096))
        | .error .held => waitFor .other
        | .error .fails => trapWith 0x06 (fld (s.ctx q.ctx).ctrap 12 36 * 4096)
        | .ok (p, s1) =>
          set s1
          needRoute (dieOf n) (fld (s.ctx q.ctx).ctrap 12 36 * 4096) p
          let k := p.key
          modify fun s => swapOut (drainAt n k 4096 (s.dirty (dieOf n) p)) n
          let copy ← vaRead n 3 (t + 0x40) 0xFC0
          let tds ← vaRead n 3 (t + 0x1000) 0x400
          let privs ← vaRead n 3 (t + 0x1400) 48
          let sqs ← vaRead n 3 (t + 0x1440) 128
          let cimg := fld (← vaWord n (t + 0x10)) 0 48
          let vimg := fld (← vaWord n (t + 0x20)) 0 48
          let vlen := (← vaWord n (t + 0x28)).toNat
          let word := fun (bs : List Byte) (j : Nat) => toWord (ofBytes ((bs.drop (8 * j)).take 8))
          forEach (fun j => loadGranule n cimg (4096 * j)) (List.range (hwm / 4096))
          let vs ← if hard then vaRead n (vlen / 4096 + 2) vimg vlen else pure []
          modify fun s =>
            let lo := q.winPa + hwm / 4096 * 4096
            let hi := q.winPa + q.g * twoMB
            let s := ({ s with mem := s.mem.zero lo hi, empty := s.empty.filter fun w => !(lo ≤ 8 * w && 8 * w < hi),
                               soft := s.soft.filter fun p => !(lo ≤ 8 * p.1 && 8 * p.1 < hi) } : State).watch lo (hi - lo)
            let s := s.poke (k + 0x40) copy
            let s := loadPriv s n c' (word privs)
            let s := s.poke (k + 0x180) (bytesOf 8 (min (fld (areaWord s k 0x180) 0 17) (s.seq n).vlCap))
            let s := s.modSeq n fun q =>
              { q with ctx := c', kernel := (s.ctx c').kernel, priv := w0.getLsbD 61,
                       td := Vector.ofFn fun j : Fin 16 => descOf fun m => word tds (8 * j.val + m),
                       sqr := Vector.ofFn fun j : Fin 4 => streamRegOf fun m => word sqs (4 * j.val + m),
                       versions := versionsOf (vlen / 80 + 1) vs, reads := [], kept := [], hwm := hwm, dirtyGran := [], dirtyX := 0,
                       dirtyC := 0, lastLoad := some t, taken := true, take := none, lbuf := [], fresh := 0,
                       monitor := none }
            checkAway (holdRun s n rec_.key) q.ctx
          pure .next) s

end Sys2Proof.Machine
end

