-- ==== Sys2Proof/Machine/Lease.lean ====
section
/-!
DEFINITION. The lease instructions (spec/09_leases.md R248 to R252), the lease queue of a die (R236 to R239), evictions
(R241 to R245) and the end of a release (R235).
-/
namespace Sys2Proof.Machine

/-! ## Instructions -/

/-- A request word that LEASE refuses (R236). -/
def leaseBad (q : Word) : Bool :=
  fld q 8 56 != 0 || q.getLsbD 3 || fld q 0 2 > 1 || (q.getLsbD 2 && fld q 0 2 = 1 && fld q 4 4 > 7)

/-- The lowest FREE slot of a context on a die. -/
def freeSlot (s : State) (d c : Nat) : Option Nat := (List.range 32).find? fun k => (s.lease d c k).st == .free

/-- LEASE (R249). -/
def execLease (rd ra : Reg) (s : State) : Res :=
  issue (.lease rd ra) (fun n => do
    let s ← get
    let q := s.seq n
    let w := q.getX ra
    let d := dieOf n
    if leaseBad w then putX n rd 0x8000000000000001
    else match freeSlot s d q.ctx with
      | none => putX n rd 0x8000000000000002
      | some k =>
        let l : Lease := { Lease.free q.ctx k (s.lease d q.ctx k).gen with
          st := .queued, kind := fld w 0 2, pin := w.getLsbD 2, engine := if w.getLsbD 2 then fld w 4 4 else 0,
          level := fld q.cprio 0 3, cap := fld q.cprio 8 3, asked := s.now, asker := n % 16 }
        modify fun s => s.setLease d l
        putX n rd (handleOf d l)
    pure .next) s

/-- Work on a lease is outstanding (R235): on its matrix engine, or an attention command that has issued and may use it (log 59). -/
def State.outstanding (s : State) (d : Nat) (l : Lease) : Bool :=
  (l.kind = 0 && ((s.die d).engine l.engine).busy) || !(cmdsOn s d l GCmd.uses).isEmpty

/-- LFREE on a lease (R235, R250). -/
def lfreeLease (s : State) (d : Nat) (l : Lease) : State := match l.st with
  | .queued | .waking | .evicted => freeLease s d l.ctx l.slot
  | .held | .parked =>
    if s.outstanding d l then s.setLease d { l with st := .releasing } else freeLease s d l.ctx l.slot
  | .free | .releasing => s

/-- LFREE (R250). -/
def execLfree (ra : Reg) (s : State) : Res :=
  issue (.lfree ra) (fun n => do
    let s ← get
    let q := s.seq n
    match liveLease s (dieOf n) q.ctx (q.getX ra) with
    | some l => set (lfreeLease s (dieOf n) l)
    | none => pure ()
    pure .next) s

/-- STATE of LSTAT (R251). -/
def leaseCode : LeaseSt → Nat
  | .free => 0
  | .queued => 1
  | .waking => 2
  | .held => 3
  | .parked => 4
  | .evicted => 5
  | .releasing => 6

/-- The status of a lease (R251); `none` for a dead handle. -/
def leaseStatus (s : State) (d : Nat) (l : Option Lease) : Word :=
  let free := (s.die d).unitsFree
  match l with
  | none => toWord (free * 2 ^ 50)
  | some l =>
    let lost := match l.st, l.lost with
      | .evicted, some (sq, isn) => sq % 16 * 2 ^ 44 + 2 ^ 32 + isn.toNat
      | _, _ => 0
    toWord (leaseCode l.st * 2 ^ 61 + l.level * 2 ^ 58 + (if l.st = .queued then 0 else l.engine * 2 ^ 54) + free * 2 ^ 50
      + l.kind * 2 ^ 48 + lost)

/-- A lease as it stands at a time: each full millisecond that a request has spent QUEUED counts, also one that no
LEASE_AGING has recorded yet (R237). -/
def Lease.aged (now : Nat) (l : Lease) : Lease :=
  let k := min ((now - l.asked) / 100000 - l.raised) (l.cap - l.level)
  if l.st = .queued then { l with raised := l.raised + k, level := l.level + k } else l

/-- LSTAT (R251), a logged event (21 R502). -/
def execLstat (rd ra : Reg) (s : State) : Res :=
  issue (.lstat rd ra) (fun n => do
    let s ← get
    let q := s.seq n
    let v ← loggedValue n q.isn 4 (leaseStatus s (dieOf n) ((liveLease s (dieOf n) q.ctx (q.getX ra)).map (Lease.aged s.now)))
    putX n rd v
    pure .next) s

/-- LWAIT need not wait: the lease is HELD, PARKED, EVICTED or FREE, or the handle is dead (R252). -/
def lwaitDone (s : State) (n : Nat) (h : Word) : Bool :=
  match liveLease s (dieOf n) (s.seq n).ctx h with
  | none => true
  | some l => match l.st with
    | .queued | .waking | .releasing => false
    | _ => true

/-- LWAIT (R252): it completes, or sleeps. -/
def execLwait (ra : Reg) (s : State) : Res :=
  issue (.lwait ra) (fun n => do
    let s ← get
    if lwaitDone s n ((s.seq n).getX ra) then pure .next
    else
      modSeqOp n fun q => { q with sleep := some (.lwait ra) }
      pure .stay) s

/-- A waiting LWAIT completes. -/
def tryLwaitComplete (n : Nat) (s : State) : Ev :=
  match (s.seq n).sleep with
  | some (.lwait ra) => wake n (do
      if lwaitDone (← get) n ((← getSeq n).getX ra) then finishSleep n (.lwait ra) else waitFor .other) s
  | _ => none
/-- LWAIT_COMPLETE (R252). -/
def execLwaitComplete (n : Nat) (s : State) : Res := occurs (tryLwaitComplete n s) s

/-! ## The queue of a die (R237 to R239) -/

/-- The head at a time: the first request of the highest level. R237 does not order two requests of one sequencer in one reference
cycle: the one whose slot was used first on the die goes first (log 59). -/
def Die.head (d : Die) (now : Nat) : Option Lease :=
  minBy (fun a b => b.level < a.level || (a.level = b.level && (a.asked < b.asked || (a.asked = b.asked && a.asker < b.asker))))
    ((d.leases.filter fun l => l.st == .queued).map (Lease.aged now))

/-- Engines of a kind on a die. -/
def enginesOf (kind : Nat) : Nat := if kind = 0 then Config.matrixEngines else Config.attentionEngines

/-- The engine that the die would grant to a request now (R238). -/
def Die.grantTo (d : Die) (l : Lease) : Option Nat :=
  if d.unitsFree < unitsOf l.kind then none
  else if l.pin then (if d.leased l.kind l.engine then none else some l.engine)
  else (List.range (enginesOf l.kind)).find? fun e => !d.leased l.kind e

/-- The head is granted. -/
def tryLeaseGrant (d : Nat) (s : State) : Ev :=
  if s.pkg.frozen || d ≥ 16 then none
  else match (s.die d).head s.now with
    | none => none
    | some l => ((s.die d).grantTo l).map fun e =>
        .next (s.setLease d { l with st := .waking, engine := e, granted := s.now })
/-- LEASE_GRANT (R238). -/
def execLeaseGrant (d : Nat) (s : State) : Res := occurs (tryLeaseGrant d s) s

/-- A request has spent a full millisecond more in its queue (R237). -/
def tryLeaseAging (d c k : Nat) (s : State) : Ev :=
  let l := s.lease d c k
  if s.pkg.frozen || d ≥ 16 || l.st != .queued || s.now < l.asked + (l.raised + 1) * 100000 || l.level ≥ l.cap then none
  else some (.next (s.setLease d { l with raised := l.raised + 1, level := l.level + 1 }))
/-- LEASE_AGING (R237). -/
def execLeaseAging (d c k : Nat) (s : State) : Res := occurs (tryLeaseAging d c k s) s

/-- An engine has woken, cleared (R239, R240); one whose lease was freed meanwhile is powered down (R235). -/
def tryWakeComplete (d c k : Nat) (s : State) : Ev :=
  let l := s.lease d c k
  let freed := fun (g : Lease) => g.ctx == c && g.slot == k
  if s.pkg.frozen || d ≥ 16 then none
  else if (s.die d).ghosts.any freed then some (.next (s.modDie d fun x => { x with ghosts := x.ghosts.eraseP freed }))
  else if l.st != .waking || l.evicting then none
  else
    let s := if l.kind = 0 then s.modDie d fun x => x.setEngine ⟨l.engine, [], [], none⟩ else s
    some (.next (s.setLease d { l with st := if s.runs c then .held else .parked }))
/-- WAKE_COMPLETE (R239). -/
def execWakeComplete (d c k : Nat) (s : State) : Res := occurs (tryWakeComplete d c k s) s

/-! ## Eviction (R241 to R245) -/

/-- R242 steps 2 to 5, with the rank that R244 gives a WAKING lease. -/
def victimBefore (a b : Lease) : Bool :=
  let rank := fun (l : Lease) => match l.st with
    | .parked => 0
    | .waking => 1
    | _ => 2
  rank a < rank b || (rank a = rank b && (a.level < b.level || (a.level = b.level &&
    (a.granted > b.granted || (a.granted = b.granted && a.engine > b.engine)))))

/-- Insert into a list in the order of victims. -/
def insertVictim (l : Lease) : List Lease → List Lease
  | [] => [l]
  | a :: r => if victimBefore l a then l :: a :: r else a :: insertVictim l r

/-- Leases in the order of victims. -/
def victimOrder (ls : List Lease) : List Lease := ls.foldr insertVictim []

/-- An eligible victim for a head at a level (R242). -/
def eligible (now level : Nat) (l : Lease) : Bool :=
  (l.st == .held || l.st == .parked) && !l.evicting && l.level < level && now - l.granted ≥ 5000

/-- Take leases until their units reach a need. -/
def takeUnits : Nat → List Lease → List Lease
  | _, [] => []
  | need, l :: r => if need = 0 then [] else l :: takeUnits (need - unitsOf l.kind) r

/-- Units that evictions already decided will free. -/
def Die.pendingUnits (d : Die) : Nat := d.leases.foldl (fun a l => if l.evicting && l.st.powered then a + unitsOf l.kind else a) 0

/-- The victims that the die evicts for its head (R241); none when there is no set. Units above the budget free nothing. -/
def Die.victims (d : Die) (now : Nat) : List Lease :=
  match d.head now with
  | none => []
  | some h =>
    if (d.grantTo h).isSome then []
    else
      let free : Int := d.budget - d.unitsUsed + d.pendingUnits
      let covers := fun (got : Nat) (ls : List Lease) => free + got + (ls.map fun l => unitsOf l.kind).sum ≥ unitsOf h.kind
      let cands := victimOrder (d.leases.filter (eligible now h.level))
      let pinned := if h.pin then d.leaseOn h.kind h.engine else none
      match pinned with
      | some p =>
        let rest := cands.filter fun l => !(l.ctx == p.ctx && l.slot == p.slot)
        let first := if p.evicting then [] else [p]
        let got := if p.evicting then 0 else unitsOf p.kind
        if !p.evicting && !eligible now h.level p then []
        else
          let more := takeUnits (unitsOf h.kind - free - got).toNat rest
          if covers got more then first ++ more else []
      | none =>
        let more := takeUnits (unitsOf h.kind - free).toNat cands
        if covers 0 more then more else []

/-- The die decides to evict for its head. -/
def tryEvictionDecided (d : Nat) (s : State) : Ev :=
  if s.pkg.frozen || d ≥ 16 then none
  else match (s.die d).victims s.now with
    | [] => none
    | vs => some (.next (vs.foldl (fun s l => s.setLease d { l with evicting := true }) s))
/-- EVICTION_DECIDED (R241). -/
def execEvictionDecided (d : Nat) (s : State) : Res := occurs (tryEvictionDecided d s) s

/-- The sequencer whose number an eviction's log entry carries: that of the first abandoned instruction, else the lowest that
holds a thread of the context, on the die before elsewhere (log 95). -/
def evictSeq (s : State) (d : Nat) (l : Lease) : Option Nat :=
  let any := ((s.threads l.ctx).find? fun p => dieOf p.1 == d).orElse fun _ => (s.threads l.ctx).head?
  match leaseFirst s d l with
  | some (sq, _) => if (s.seq sq).ctx = l.ctx && (s.seq sq).mode != .idle then some sq else any.map (·.1)
  | none => any.map (·.1)

/-- Word 2 of an eviction's log entry (21 R502). -/
def evictWord (s : State) (d : Nat) (l : Lease) : Word := match leaseFirst s d l with
  | some (_, isn) => toWord isn.toNat
  | none => 0xFFFFFFFFFFFFFFFF

/-- The log's part of an eviction (R245; 21 R502, R503): recorded, or taken from the log; an eviction that the log does
not hold raises REPLAYDIV. -/
def evictLog (n d : Nat) (l : Lease) : Op Unit := do
  let s ← get
  let q := s.seq n
  match logMode s q.ctx with
  | 1 => logRecord n q.isn 5 (handleOf d l) (evictWord s d l)
  | 2 => do
    let (pos, w0, w1, _) ← logPeek n
    if fld w0 0 8 = 5 && w1 = handleOf d l && fld w0 32 32 = q.isn.toNat then logConsume n pos
    else trapWith 0x12 0 pos
  | _ => pure ()

/-- In replay mode the log's next entry of a thread orders the eviction of a lease now. -/
def evictOrdered (s : State) (d : Nat) (l : Lease) : Bool := match evictSeq s d l with
  | none => false
  | some n => logMode s l.ctx = 2 && (match (logPeek n).run s with
    | .ok (_, w0, w1, _) _ => fld w0 0 8 = 5 && w1 = handleOf d l && fld w0 32 32 = (s.seq n).isn.toNat
    | .error _ _ => false)

/-- The same when no sequencer holds a thread of the context: logical number and ISN 0 stand in the entry (log 95). -/
def evictLogAway (d : Nat) (l : Lease) : Op Unit := do
  let s ← get
  if logMode s l.ctx = 1 then logPut (1024 + d) d l.ctx 0 0 5 (handleOf d l) (evictWord s d l) else pure ()

/-- An eviction takes effect at an interruptible step: not inside a DRAIN pass or a query block (R243); of a WAKING lease at
once (R244). -/
def tryEvictionEffect (d c k : Nat) (s : State) : Ev :=
  let l := s.lease d c k
  let able := match l.st with
    | .waking | .held | .parked | .releasing => l.evicting || evictOrdered s d l
    | _ => false
  if s.pkg.frozen || d ≥ 16 || !able || !atStep s d l then none
  else match evictSeq s d l with
    | none => match (evictLogAway d l).run s with
      | .error (.wait _) _ => none
      | .error (.fault f) _ => some (.fault f)
      | .ok _ s' | .error _ s' => some (.next (evictLease s' d c k))
    | some n => match (evictLog n d l).run s with
      | .ok _ s' => some (.next (evictLease s' d c k))
      | .error (.wait _) _ => none
      | .error (.trap r) s' =>
        if (s'.seq n).mode = .run && (s'.seq n).pend.isNone then
          some (.next (issueTrap ((evictLease s' d c k).modSeq n fun q => { q with sleep := none }) n r (s'.seq n).pc))
        else some (.next (evictLease s' d c k))
      | .error (.fault f) _ => some (.fault f)
      | .error _ s' => some (.next (evictLease s' d c k))
/-- EVICTION_EFFECT (R243). -/
def execEvictionEffect (d c k : Nat) (s : State) : Res := occurs (tryEvictionEffect d c k s) s

/-- The budget has fallen below the units in use: leases are evicted until the rest fits (R244). -/
def tryBudgetEviction (d : Nat) (s : State) : Ev :=
  let x := s.die d
  let used := x.unitsUsed - x.pendingUnits
  let cands := victimOrder (x.leases.filter fun l =>
    (l.st == .held || l.st == .parked || l.st == .waking) && !l.evicting)
  if s.pkg.frozen || d ≥ 16 || used ≤ x.budget then none
  else match takeUnits (used - x.budget) cands with
    | [] => none
    | vs => some (.next (vs.foldl (fun s l => s.setLease d { l with evicting := true }) s))
/-- BUDGET_EVICTION (R244). -/
def execBudgetEviction (d : Nat) (s : State) : Res := occurs (tryBudgetEviction d s) s

/-- The last outstanding work of a RELEASING lease is complete (R235). -/
def tryLeaseReleaseComplete (d c k : Nat) (s : State) : Ev :=
  let l := s.lease d c k
  if s.pkg.frozen || d ≥ 16 || l.st != .releasing || s.outstanding d l then none
  else some (.next (freeLease s d c k))
/-- LEASE_RELEASE_COMPLETE (R235). -/
def execLeaseReleaseComplete (d c k : Nat) (s : State) : Res := occurs (tryLeaseReleaseComplete d c k s) s

end Sys2Proof.Machine
end

