-- ==== Sys2Proof/Machine/Matrix.lean ====
section
/-!
DEFINITION. Tile descriptors, the tile instructions, and what a matrix engine does with them: steps, passes and reads
of bad data (spec/10_matrix.md R254 to R273, R519; spec/03_numbers.md R81 to R85, R95 to R98; spec/09_leases.md R246).
-/
namespace Sys2Proof.Machine

/-! ## Descriptors (R254 to R256) -/

/-- CODE of an etype. -/
def TileDesc.code (t : TileDesc) : Nat := bitsAt t.etype 0 5
/-- WM1 of an etype. -/
def TileDesc.wm1 (t : TileDesc) : Nat := bitsAt t.etype 5 3
/-- MBLK of an etype. -/
def TileDesc.mblk (t : TileDesc) : Bool := bitAt t.etype 8
/-- The tile is mld. -/
def TileDesc.mld (t : TileDesc) : Bool := t.code == 15

/-- The etype is valid (R255). -/
def TileDesc.valid (t : TileDesc) : Bool :=
  let blk := 1 ≤ t.wm1
  match t.code with
  | 9 | 10 => t.wm1 == 0 && !t.mblk
  | 14 => blk && !t.mblk
  | 15 => if t.mblk then blk else t.wm1 == 0
  | _ => false

/-- The mantissa width of a tile of blocks, of blk or of blk means. -/
def TileDesc.blkW (t : TileDesc) : Option Nat :=
  if t.code = 14 || (t.code = 15 && t.mblk) then some (t.wm1 + 1) else none

/-- The alignment that base and stride need (R268). -/
def TileDesc.align (t : TileDesc) : Nat := if t.blkW.isSome then 64 else 2

/-- Address and length of row r at base. -/
def TileDesc.mainRow (t : TileDesc) (r : Nat) : Nat × Nat :=
  (t.base + r * t.stride, match t.blkW with
    | some w => 64 * ceilDiv t.cols (blkN w)
    | none => 2 * t.cols)

/-- Address and length of row r of the codes at base2. -/
def TileDesc.rhoRow (t : TileDesc) (r : Nat) : Nat × Nat := (t.base2 + r * (64 * ceilDiv t.cols 64), t.cols)

/-! ## Translation of an engine's operands (R260 steps 4 to 6; R261) -/

/-- Pages translated so far, as (virtual, key) page bases, with the first address that failed on permission and the
first outside the cistern. -/
structure TilePages where
  pages : List (Nat × Nat)
  prot : Option Nat
  tier : Option Nat
  deriving DecidableEq, Repr

/-- The first address of a run of bytes in each 4 KB page. -/
def pageStarts (va len : Nat) : List Nat :=
  (List.range ((va + len - 1) / 4096 + 1 - va / 4096)).map fun j => if j = 0 then va else (va / 4096 + j) * 4096

/-- Translate the page of one address; a failure raises `fail` at the address. -/
def touchPage (who d c : Nat) (acc : Access) (fail va : Nat) (p : TilePages) : Op TilePages := do
  let pg := va / 4096 * 4096
  if p.pages.any fun x => x.1 == pg then return p
  else match ← xlateOp who d c va acc with
    | .ok k =>
      needRoute d va k
      let off := va - pg
      return { p with pages := p.pages ++ [(pg, k.key - off)],
                      tier := if k.tier = 0 then p.tier else some (p.tier.getD va) }
    | .prot => return { p with prot := some (p.prot.getD va) }
    | _ => trapWith fail va

/-- Translate every page of the rows of an operand. -/
def touchRows (who d c : Nat) (acc : Access) (fail : Nat) (rows : List (Nat × Nat)) (p : TilePages) : Op TilePages :=
  rows.foldlM (fun p r => (pageStarts r.1 r.2).foldlM (fun p va => touchPage who d c acc fail va p) p) p

/-- The rows of a tile's operands, in the order base, base2. -/
def TileDesc.operandRows (t : TileDesc) : List (Nat × Nat) :=
  (List.range t.rows).map t.mainRow ++ (if t.mld then (List.range t.rows).map t.rhoRow else [])

/-- R260 steps 4 to 6 for the operands of A and B. -/
def tilePages (who d c : Nat) (a b : TileDesc) : Op (List (Nat × Nat)) := do
  let p ← touchRows who d c .load 0x07 (a.operandRows ++ b.operandRows) ⟨[], none, none⟩
  match p.prot, p.tier with
  | some va, _ => trapWith 0x08 va
  | none, some va => trapWith 0x14 va
  | none, none => return p.pages

/-- R268's requirements on the descriptors and the place. -/
def mmaFits (a b : TileDesc) (arow acol : Nat) : Bool :=
  a.valid && b.valid && 1 ≤ a.rows && arow + a.rows ≤ 512 && 1 ≤ b.cols && acol + b.cols ≤ 128 && 1 ≤ a.cols &&
    a.cols == b.rows

/-- R260 step 3: base and stride of a descriptor. -/
def needTileAlign (t : TileDesc) : Op Unit :=
  if t.base % t.align != 0 || t.stride % t.align != 0 then trapWith 0x04 t.base else pure ()

/-- R260 steps 2 to 6 for a multiplication. -/
def mmaChecks (who d c : Nat) (a b : TileDesc) (arow acol : Nat) : Op (List (Nat × Nat)) := do
  if !mmaFits a b arow acol then trapWith 0x03 0
  else
    needTileAlign a
    needTileAlign b
    tilePages who d c a b

/-! ## Issue -/

/-- The lease that an engine instruction's handle names, of an engine kind, or LEASELOST (09 R246); an instruction that arrives after
an eviction has been decided meets LEASELOST too. -/
def namedLease (kind n : Nat) (h : Word) : Op Lease := do
  let s ← get
  match liveLease s (dieOf n) (s.seq n).ctx h with
  | none => trapWith 0x0C h.toNat h.toNat
  | some l =>
    if fld h 24 2 != kind || l.kind != kind || l.evicting then trapWith 0x0C h.toNat h.toNat
    else match l.st with
      | .releasing | .evicted | .free => trapWith 0x0C h.toNat h.toNat
      | .queued | .waking | .held | .parked => pure l

/-- An engine instruction waits while its lease is QUEUED or WAKING (09 R239). -/
def needGranted (l : Lease) : Op Unit := if l.st = .queued || l.st = .waking then waitFor .other else pure ()

/-- The granted lease of an engine instruction. -/
def engineLease (kind n : Nat) (h : Word) : Op Lease := do
  let l ← namedLease kind n h
  needGranted l
  pure l

/-- The lease of a tile instruction. -/
def tileLease (n : Nat) (h : Word) : Op Lease := engineLease 0 n h

/-- A place in the command queue, and the low-water ISN while bank → ME is withdrawn (R262; 21 R489). -/
def needQueue (n : Nat) (l : Lease) : Op Unit := do
  let s ← get
  if ((s.die (dieOf n)).engine l.engine).queue.length ≥ 8 then waitFor .other
  else if pairOff s n 3 && !(s.seq n).inflight.isEmpty then waitFor .other
  else pure ()

/-- The command enters the engine's queue (R262). -/
def pushCmd (n : Nat) (l : Lease) (k : MKind) (pages : List (Nat × Nat)) (issued : Bool) : Op Unit := modify fun s =>
  let q := s.seq n
  let e := (s.die (dieOf n)).engine l.engine
  let m : MCmd := ⟨n, q.runId, q.ctx, l.slot, q.isn, k, pages, issued, [], q.vtype, q.cgkey, q.cgdraw, 0, false, 0⟩
  s.modDie (dieOf n) fun d => d.setEngine { e with queue := e.queue ++ [m] }

/-- MMA and MMAE at issue (R260, R267, R268). -/
def mmaIssue (z : Bool) (h : Reg) (draw : Option Reg) (ta tb : BitVec 4) (arow : BitVec 9) (acol : BitVec 7) (n : Nat) :
    Op Ctl := do
  let q ← getSeq n
  let l ← tileLease n (q.getX h)
  let a := q.td[ta.toNat]
  let b := q.td[tb.toNat]
  let pages ← mmaChecks n (dieOf n) q.ctx a b arow.toNat acol.toNat
  needQueue n l
  pushCmd n l (.mma a b z arow.toNat acol.toNat (draw.map fun r => fld (q.getX r) 0 16)) pages true
  pure .next

/-- MMA (R269). -/
def execMma (z : Bool) (h : Reg) (ta tb : BitVec 4) (arow : BitVec 9) (acol : BitVec 7) (s : State) : Res :=
  issue (.mma z h ta tb arow acol) (mmaIssue z h none ta tb arow acol) s

/-- MMAE (R269). -/
def execMmae (z : Bool) (h draw : Reg) (ta tb : BitVec 4) (arow : BitVec 9) (acol : BitVec 7) (s : State) : Res :=
  issue (.mmae z h draw ta tb arow acol) (mmaIssue z h (some draw) ta tb arow acol) s

/-- ACCZ (R270). -/
def execAccz (h : Reg) (arow : BitVec 9) (acol : BitVec 7) (nrows1 : BitVec 9) (ncols1 : BitVec 7) (s : State) : Res :=
  issue (.accz h arow acol nrows1 ncols1) (fun n => do
    let l ← tileLease n ((← getSeq n).getX h)
    needQueue n l
    pushCmd n l (.accz arow.toNat acol.toNat (nrows1.toNat + 1) (ncols1.toNat + 1)) [] true
    pure .next) s

/-- ACCIN and DRAIN at issue: the command enters the queue, and the bank side the sequencer (R271, R272). DRAIN writes cld as every
instruction with a vector destination in memory does (01 R34), also with vl = 0, for which R273 says that it does nothing else (log
114). -/
def accIssue (i : Instr) (f : VForm) (h : Reg) (k : MKind) (n : Nat) : Op Ctl := do
  let l ← tileLease n ((← getSeq n).getX h)
  needQueue n l
  pushCmd n l k [] false
  vectorIssue i f n

/-- ACCIN (R271). -/
def execAccin (h : Reg) (a : Spec) (pol : Bool) (mask : MSel) (arow : BitVec 9) (acol ncol1 : BitVec 7) (s : State) :
    Res :=
  issue (.accin h a pol mask arow acol ncol1)
    (accIssue (.accin h a pol mask arow acol ncol1)
      { op := .accin arow acol ncol1, d := some (.scal h), a := some (.spec a pol), mask := mask } h
      (.accin arow.toNat acol.toNat (ncol1.toNat + 1))) s

/-- DRAIN (R272). -/
def execDrain (clr : Bool) (h : Reg) (d : Spec) (mask : MSel) (arow : BitVec 9) (acol ncol1 : BitVec 7) (s : State) :
    Res :=
  issue (.drain clr h d mask arow acol ncol1)
    (accIssue (.drain clr h d mask arow acol ncol1)
      { op := .drain clr arow acol ncol1, d := some d, a := some (.spec (.scal h) false), mask := mask } h
      (.drain clr arow.toNat acol.toNat (ncol1.toNat + 1))) s

/-! ## The accumulator store (R258) -/

/-- ACC[row, col]. -/
def MEngine.get (e : MEngine) (row col : Nat) : Nat := (smapGet (row * 128 + col) e.acc).getD 0

/-- Write ACC[row, col]; an entry of +0 is not listed. -/
def MEngine.put (e : MEngine) (row col v : Nat) : MEngine :=
  { e with acc := if v = 0 then smapDel (row * 128 + col) e.acc else smapSet (row * 128 + col) v e.acc }

/-! ## Fetch (R256, R263, R519) -/

/-- The key of a virtual address among an instruction's translations. -/
def pageKey (pages : List (Nat × Nat)) (va : Nat) : Nat :=
  ((pages.find? fun p => p.1 == va / 4096 * 4096).map (·.2)).getD 0 + va % 4096

/-- What a tile multiplication works on. -/
structure TileWork where
  a : TileDesc
  b : TileDesc
  z : Bool
  arow : Nat
  acol : Nat
  draw : Option Nat
  cgkey : Word
  pages : List (Nat × Nat)
  die : Nat
  deriving DecidableEq, Repr

/-- One operand element: its value, the flags of reading it, and the bad block that it lies in, as cause and address. -/
structure TileElem where
  val : Val
  flags : Nat
  bad : Option (Nat × Nat)
  deriving DecidableEq, Repr

/-- Read n bytes of an operand, once its words are full. -/
def fetchBytes (x : TileWork) (va n : Nat) : Op Nat := do
  let key := pageKey x.pages va
  needRoute x.die va ⟨key, 0, 0⟩
  return ofBytes (← readForeign va key n false)

/-- Element c of a row of blocks, as a mean: with the flag and the bad block of R519. -/
def blkMean (h w raw blk : Nat) : Mean × Nat × Option (Nat × Nat) :=
  if blkBad w h then (.nan, flNV, some (0x0B, blk))
  else if h % 8 = 0 then (.zero, 0, none)
  else if h / 256 = 255 then (.nan, 0, none)
  else if raw = 2 ^ (w - 1) then (.nan, flNV, some (0x0A, blk))
  else (.blk (signedOf w raw) w (h / 256), 0, none)

/-- Fetch element (r, c) of a descriptor. -/
def fetchElem (x : TileWork) (t : TileDesc) (r c : Nat) : Op TileElem := do
  let row := (t.mainRow r).1
  let (mu, fl, bad) ← (match t.blkW with
    | some w => do
      let blk := row + 64 * (c / blkN w)
      let f := (ETy.blk w).field c
      let h ← fetchBytes x blk 2
      let m ← fetchBytes x (row + f.1) f.2
      return blkMean h w (bitsAt m ((ETy.blk w).bitOff c) w) blk
    | none => do
      let v ← fetchBytes x (row + 2 * c) 2
      return (Mean.bf16 v, 0, none))
  if t.code = 10 then
    let v ← fetchBytes x (row + 2 * c) 2
    return ⟨Fmt.fp16.decode v, 0, none⟩
  else if t.mld then
    match x.draw with
    | some d =>
      let code ← fetchBytes x ((t.rhoRow r).1 + c) 1
      let e := ((t.orow + r) * t.gwidth + (t.ocol + c)) % 2 ^ 64
      let p := perturb x.cgkey t.stream d e (signedOf 8 code) mu
      return ⟨p.1, fl ||| p.2, bad⟩
    | none => return ⟨mu.val, fl, bad⟩
  else return ⟨mu.val, fl, bad⟩

/-! ## Steps (R264 to R269) -/

/-- Slices of K. -/
def TileWork.slices (x : TileWork) : Nat := ceilDiv x.a.cols 32

/-- Steps of the multiplication. -/
def TileWork.steps (x : TileWork) : Nat := ceilDiv x.a.rows 128 * x.slices

/-- Energy of a step in nanojoules (R266). For a step whose operands are of two formats, of which R266 does not speak, it is that of
the greater, as R264 says for its time (log 113). -/
def TileWork.energy (x : TileWork) : Nat :=
  let fmtE := fun (t : TileDesc) => match t.blkW with
    | none => 800
    | some w => if w ≥ 5 then 400 else 200
  let mldE := fun (t : TileDesc) => if t.mld then 100 else 0
  max (fmtE x.a) (fmtE x.b) + mldE x.a + mldE x.b

/-- What a step leaves: the engine, the flags raised and the first bad block read. -/
structure StepOut where
  eng : MEngine
  flags : Nat
  bad : Option (Nat × Nat)

/-- Step number pos: row block pos / slices, slice pos mod slices. -/
def tileStep (x : TileWork) (e : MEngine) (pos : Nat) : Op StepOut := do
  let b := pos / x.slices
  let j := pos % x.slices
  let rows := (List.range (min 128 (x.a.rows - 128 * b))).map (128 * b + ·)
  let ks := (List.range (min 32 (x.a.cols - 32 * j))).map (32 * j + ·)
  let cols := List.range x.b.cols
  let as_ ← rows.mapM fun r => ks.mapM fun k => fetchElem x x.a r k
  let bs ← cols.mapM fun c => ks.mapM fun k => fetchElem x x.b k c
  let all := as_.flatten ++ bs.flatten
  let exact := x.a.blkW.isSome && x.b.blkW.isSome
  let fl := all.foldl (fun f y => f ||| y.flags) 0
  let cell := fun (p : MEngine × Nat) (ra : Nat × List TileElem) (cb : Nat × List TileElem) =>
    let acc := if x.z && j = 0 then 0 else p.1.get (x.arow + ra.1) (x.acol + cb.1)
    let v := sliceVal exact ((ra.2.map (·.val)).zip (cb.2.map (·.val)))
    let r := accumulate acc v
    (p.1.put (x.arow + ra.1) (x.acol + cb.1) r.1, p.2 ||| r.2)
  let out := (rows.zip as_).foldl (fun p ra => (cols.zip bs).foldl (fun p cb => cell p ra cb) p) (e, fl)
  return ⟨out.1, out.2, all.findSome? (·.bad)⟩

/-! ## What an engine does next -/

/-- A move of a unit of context c, for work that sequencer `sq` issued, that stops with R396's machine check or the model's fault;
`who` waits on migrating pages. -/
def unitMove (who d c sq : Nat) (m : Op Unit) (s : State) : Ev := match m.run s with
  | .ok _ s' => some (.next s')
  | .error (.wait (.migrating va)) _ =>
    if (s.addMig who c va).migs.length = s.migs.length then none else some (.next (s.addMig who c va))
  | .error (.wait (.bucket b w)) _ => (joinBank s b w).map .next
  | .error (.mcheck a p) s' =>
    let r : SumpRec := { die := d, sq := sq, source := 4, cause := 0x10, addr := toWord a }
    some (.next (haltCtx (sumpWrite s' c r) c ⟨0x10, toWord a, if p then 1 else 0⟩))
  | .error (.fault f) _ => some (.fault f)
  | .error _ _ => none

/-- The number of a matrix engine among the agents that wait on migrating pages. -/
def engineWho (d idx : Nat) : Nat := 512 + 16 * d + idx

/-- Replace the head of a queue; `none` when it is complete: its flags accrue (03 R71), and its pass holds back no pull any more (21
R489). -/
def setHead (s : State) (d idx : Nat) (m : MCmd) (next : Option MCmd) : State :=
  let s := s.modDie d fun x =>
    let e := x.engine idx
    x.setEngine { e with queue := next.toList ++ e.queue.drop 1 }
  match next with
  | some _ => s
  | none => accrueTo (killMarks s m.sq m.runId m.isn) m.runId m.flags

/-- The work of an MMA or MMAE in a queue. -/
def MCmd.work (m : MCmd) : Option TileWork := match m.kind with
  | .mma a b z arow acol draw => some ⟨a, b, z, arow, acol, draw, m.cgkey, m.pages, dieOf m.sq⟩
  | _ => none

/-- One step of the head. -/
def tryMatrixStep (d idx : Nat) (s : State) : Ev :=
  match engineGo s d idx, engineHead s d idx with
  | some l, some m => match m.work with
    | some x => unitMove (engineWho d idx) d l.ctx m.sq (do
        let o ← tileStep x ((← get).die d |>.engine idx) m.pos
        let m' := { m with pos := m.pos + 1, flags := m.flags ||| o.flags, badSeen := m.badSeen || o.bad.isSome }
        modify fun s =>
          let s := s.modDie d (·.setEngine o.eng)
          let s := match o.bad with
            | some (c, a) => if m.badSeen then s
              else sumpWrite s m.ctx { die := d, sq := m.sq, isn := some m.isn, source := 1, cause := c, addr := toWord a }
            | none => s
          let s := setHead s d idx m' (if m'.pos ≥ x.steps then none else some m')
          chargeCtx s m.ctx (1000 * x.energy)) s
    | none => none
  | _, _ => none
/-- MATRIX_STEP (R264). -/
def execMatrixStep (d idx : Nat) (s : State) : Res := occurs (tryMatrixStep d idx s) s

/-- ACCZ's region is written (R270). -/
def tryAcczPass (d idx : Nat) (s : State) : Ev :=
  match engineGo s d idx, engineHead s d idx with
  | some _, some m => match m.kind with
    | .accz arow acol nr nc =>
      let inside := fun (p : Nat × Nat) => arow ≤ p.1 / 128 && p.1 / 128 < arow + nr && acol ≤ p.1 % 128 && p.1 % 128 < acol + nc
      let s := s.modDie d fun x =>
        let e := x.engine idx
        x.setEngine { e with acc := e.acc.filter fun p => !inside p }
      some (.next (setHead s d idx m none))
    | _ => none
  | _, _ => none
/-- ACCZ_PASS (R270). -/
def execAcczPass (d idx : Nat) (s : State) : Res := occurs (tryAcczPass d idx s) s

/-- ACCIN's pass writes every sent value, once the instruction is complete or abandoned (R271). -/
def tryAccinPass (d idx : Nat) (s : State) : Ev :=
  match engineGo s d idx, engineHead s d idx with
  | some _, some m => match m.kind with
    | .accin .. =>
      if !m.issued then none
      else
        let s := s.modDie d fun x => x.setEngine (m.items.foldl (fun e a => e.put a.row a.col a.val) (x.engine idx))
        some (.next (setHead s d idx m none))
    | _ => none
  | _, _ => none
/-- ACCIN_PASS (R271). -/
def execAccinPass (d idx : Nat) (s : State) : Res := occurs (tryAccinPass d idx s) s

/-! ## DRAIN's pass (R272, R273) -/

/-- Nothing below an element will be requested before it: every group has passed it, or stands still for a trap, or the thread
is in handler mode or saved, while landings of committed elements go on (R273; 15 R372, R388). -/
def drainSettled (s : State) (m : MCmd) (elem : Nat) : Bool :=
  m.issued || (match s.holder m.runId with
    | none => true
    | some n => (s.seq n).mode != .run || (match (s.seq n).inflight.find? fun e => e.isn == m.isn with
      | some e => e.gs.zipIdx.all fun g => g.1.fin || g.1.next > elem || !mayRun (s.seq n) g.2 e
      | none => true))

/-- The value of a requested entry, under the instruction's rounding. -/
def drainRnd (m : MCmd) (elem : Nat) : Rnd := rndOf m.vtype (if vtRND m.vtype = 4 then srU m.cgkey m.cgdraw elem else 0)

/-- Words that fill when an item lands: those that no other item of the instruction touches. -/
def lastWords (rest : List AccItem) (len : AccItem → Nat) (key n : Nat) : List Nat :=
  (wordsOf key n).filter fun w => !rest.any fun a => (wordsOf a.addr (len a)).contains w

/-- Bytes land at the destination of an item of engine idx of die d: in the window as a landing of the instruction, which the bucket
pays for line by line (12 R326), elsewhere as a write of path M. -/
def drainLand (d idx : Nat) (m : MCmd) (inWin : Bool) (key : Nat) (bs keep : List Byte) (ws : List Nat) : Op Unit := do
  if inWin then
    modify fun s => landNow s m.sq m.runId m.isn key bs keep ws
    payOp d (.drain idx) (List.replicate (linesDone (← get) m.sq m.runId m.isn key bs.length) 1)
  else
    needWay d key
    let s ← get
    writeKey key (mergeBytes (s.mem.read key bs.length) bs keep)

/-- One element of the pass. -/
def drainOne (d : Nat) (m : MCmd) (e : MEngine) (it : AccItem) (rest : List AccItem) : Op Nat := do
  let t := vtTy m.vtype
  let r := deliver t (drainRnd m it.elem) (.exact (Fmt.w48.decode (e.get it.row it.col)) 0)
  let len := (t.field it.elem).2
  let bs := if t.packed then bytesOf len (r.1 % 2 ^ t.bits * 2 ^ t.bitOff it.elem) else bytesOf t.size r.1
  let span := fun (a : AccItem) => if t.packed then (t.field a.elem).2 else t.size
  drainLand d e.idx m it.inWin it.addr bs (fieldMask t it.elem) (lastWords rest span it.addr bs.length)
  return r.2

/-- One block of the pass: its items, with the current values of the lanes that no item names. -/
def drainBlk (d : Nat) (m : MCmd) (e : MEngine) (w key : Nat) (items : List AccItem) : Op Nat := do
  let given := fun (j : Nat) => items.any fun a => a.elem % blkN w == j
  if !(List.range (blkN w)).all given then checkSoft none key 64
  let s ← get
  let b := ofBytes (s.mem.read key 64)
  let h := b % 2 ^ 16
  let first := ((items.head?.map (·.elem)).getD 0) / blkN w * blkN w
  let ins := (List.range (blkN w)).map fun j =>
    let u := (drainRnd m (first + j)).u
    match items.find? fun a => a.elem == first + j with
    | some a => if a.row ≥ 512 then (⟨.num (Ex.zero false), u, false⟩ : BlkIn)
      else ⟨Fmt.w48.decode (e.get a.row a.col), u, true⟩
    | none =>
      let raw := if h % 8 = 0 then 0 else if h / 256 = 255 then 2 ^ 20 else h / 256 * 256 + bitsAt b (16 + j * w) w
      ⟨(ETy.blk w).val raw, u, false⟩
  let r := blkWrite (vtRND m.vtype) w (vtSAT m.vtype) ins
  drainLand d e.idx m true key r.1 (List.replicate 64 0xFF) (wordsOf key 64)
  return r.2

/-- A lease whose context has ended goes FREE when the pass is complete (09 R235). -/
def endPass (s : State) (d : Nat) (l : Lease) : State := if l.ending then freeLease s d l.ctx l.slot else s

/-- The next item of the pass, or its end. -/
def drainMove (d idx : Nat) (l : Lease) (m : MCmd) (clr : Bool) : Op Unit := do
  let s ← get
  let e := (s.die d).engine idx
  match m.items with
  | [] => if m.issued then set (endPass (setHead s d idx m none) d l) else waitFor .other
  | it :: rest =>
    let blk := (vtTy m.vtype).isBlk
    let now := if blk then m.items.filter fun a => a.addr == it.addr else [it]
    let left := if blk then m.items.filter fun a => a.addr != it.addr else rest
    if !drainSettled s m it.elem then waitFor .other
    else
      let fl ← (match vtTy m.vtype with
        | .blk w => drainBlk d m e w it.addr now
        | _ => drainOne d m e it left)
      modify fun s =>
        let s := accrueTo s m.runId fl
        let e' := if clr then now.foldl (fun e a => if a.row < 512 then e.put a.row a.col 0 else e) e else e
        let s := s.modDie d (·.setEngine e')
        let m' := { m with items := left, pos := m.pos + 1 }
        if left.isEmpty && m.issued then endPass (setHead s d idx m' none) d l else setHead s d idx m' (some m')

/-- A DRAIN delivers its next entry. -/
def tryDrainPass (d idx : Nat) (s : State) : Ev :=
  match engineGo s d idx, engineHead s d idx with
  | some l, some m => match m.kind with
    | .drain clr _ _ _ => unitMove (engineWho d idx) d l.ctx m.sq (drainMove d idx l m clr) s
    | _ => none
  | _, _ => none
/-- DRAIN_PASS (R272). -/
def execDrainPass (d idx : Nat) (s : State) : Res := occurs (tryDrainPass d idx s) s

end Sys2Proof.Machine
end

