-- ==== Sys2Proof/Machine/Pump.lean ====
section
/-!
DEFINITION. Pump instructions at issue, and what a pump does with the elements that reach it (spec/11_pumps.md R281 to
R294; charges: spec/21_power_determinism.md R494, R495).
-/
namespace Sys2Proof.Machine

/-! ## Issue (R285) -/

/-- The row register breaks R284. -/
def badRow (r : Word) : Bool :=
  let len := fld r 0 32
  len % 8 != 0 || len < 8 || len > 65536 || fld r 32 32 % 8 != 0

/-- A landing or phase word at an address of context c, for agent `who` on die d: aligned, translated and permitted for writing, in a
tier of `tiers`. -/
def pumpWord (who d c va tiers : Nat) : Op Phys := do
  if va % 8 != 0 then trapWith 0x04 va
  else match ← xlateOp who d c va .store with
    | .ok p => if tiers.testBit p.tier then pure p else trapWith 0x14 va
    | .prot => trapWith 0x08 va
    | _ => trapWith 0x06 va

/-- The kind of a copy: 0 PCOPY, 1 PGATH, 2 PSCAT, 3 PRDC, 4 PFILL, 5 PFILL with an indexed destination. -/
def pumpKind (k : PKind) (d : Spec) : Nat := match k, d with
  | .copy, _ => 0
  | .gath, _ => 1
  | .scat, _ => 2
  | .rdc, _ => 3
  | .fill, .index _ => 5
  | .fill, _ => 4

/-- The byte distance between elements of an operand; the row pitch for rows by number. -/
def pumpStride (q : Seq) (sp : Spec) (size pitch : Nat) : Nat := match sp with
  | .stride _ => (q.auxOf .n1 sp).toNat
  | .index _ => pitch
  | _ => size

/-- The size of an element, or of a row (R283, R284). -/
def pumpSize (q : Seq) (k : PKind) (p : PumpArgs) (rr : Option Reg) : Nat := match k with
  | .rdc => (vtTy q.vtype).size
  | .gath | .scat => fld (q.getX (rr.getD 0)) 0 32
  | _ => 2 ^ p.sz.toNat

/-- The copy of a pump instruction. -/
def pumpCopy (q : Seq) (n : Nat) (k : PKind) (p : PumpArgs) (rr : Option Reg) (d a : Spec) (land phase : Nat) : Copy :=
  let size := pumpSize q k p rr
  let pitch := let w := fld (q.getX (rr.getD 0)) 32 32; if w = 0 then size else w
  { id := copyId q.runId q.isn, sq := n, runId := q.runId, ctx := q.ctx, isn := q.isn, kind := pumpKind k d,
    tag := p.tag.toNat, vl := q.vl, size := size, pitch := pitch, srcBase := (q.getX (specReg a)).toNat,
    srcStride := pumpStride q a size pitch, srcVal := q.getX (specReg a), dstBase := (q.getX (specReg d)).toNat,
    dstStride := pumpStride q d size pitch, landing := land, phase := phase, landVa := (q.getX p.xl).toNat,
    phaseVa := (q.getX p.xp).toNat, stale := false, vtype := q.vtype, cgkey := q.cgkey,
    cgdraw := q.cgdraw, open_ := true, abandoned := false, failed := none, ready := [], done := [], landed := 0,
    runs := [], flags := 0 }

/-- What BINDQ binds to the instruction (R295, R296). -/
def pumpStream (q : Seq) (p : PumpArgs) (c : Copy) (d : Spec) : StreamReg :=
  { bound := true, landing := (q.getX p.xl).toNat, pos := 0, sz := if c.kind = 1 || c.kind = 2 then 0 else c.size.log2,
    kind := min c.kind 4, base := c.dstBase,
    stride := c.dstStride, index := if c.kind = 5 then (q.auxOf .n1 d).toNat else 0,
    isn := c.isn, addrs := [] }

/-- The landing word as the instruction writes it (R289): in the grant's window a write of its ISN, after every lower
instruction that path V must wait for (08 R217; 13 R333). -/
def landingFirst (n va : Nat) (p : Phys) (w : Word) : Op Unit := do
  needRoute (dieOf n) va p
  dirtyOp (dieOf n) p
  let q ← getSeq n
  if q.inWin p.key then
    scalarOrder n q.isn .none
    if p.kind = 0 then scalarFar n q.isn p.key 8 0
    if q.doneBelow (q.ownerOf p.key) q.isn then writeOwn n q.isn p.key (bytesOf 8 w.toNat) else waitFor .other
  else writeCistern p.key (bytesOf 8 w.toNat)

/-- A copy without elements adds its E to the phase word at once (R288, R292). -/
def phaseAtOnce (n va : Nat) (p : Phys) : Op Unit := do
  needRoute (dieOf n) va p
  checkSoft (some va) p.key 8
  dirtyOp (dieOf n) p
  modify fun s => pumpPoke s p.key (toWord (s.mem.num p.key 8))

/-- A pump instruction at issue: R285's checks, then the landing word and the copy (R286, R288, R289). -/
def pumpIssue (i : Instr) (k : PKind) (p : PumpArgs) (rr : Option Reg) (d a : Spec) (n : Nat) : Op Ctl := do
  let q ← getSeq n
  if k == .rdc && !((vtTy q.vtype).clsI || (vtTy q.vtype).clsF) then trapWith 0x03 0
  else if (k == .gath || k == .scat) && badRow (q.getX (rr.getD 0)) then trapWith 0x03 0
  else
    let land ← pumpWord n (dieOf n) q.ctx (q.getX p.xl).toNat tiersCist
    let phase ← if p.xp = 0 then pure none else some <$> pumpWord n (dieOf n) q.ctx (q.getX p.xp).toNat tiersCMW
    let s ← get
    if (s.copies (dieOf n) (pumpOf n)).length ≥ 16 then waitFor .other
    else if pairOff s n 2 && !q.inflight.isEmpty then waitFor .other
    else
      let c := pumpCopy q n k p rr d a land.key ((phase.map (·.key + 1)).getD 0)
      landingFirst n (q.getX p.xl).toNat land c.word
      modSeqOp n fun q => { q with
        copyLog := pumpStream q p c d :: q.copyLog.filter fun r => r.landing != (q.getX p.xl).toNat }
      if q.vl = 0 then
        match phase with
        | some r => phaseAtOnce n (q.getX p.xp).toNat r
        | none => pure ()
      else modify fun s => s.modCopies (dieOf n) (pumpOf n) (· ++ [c])
      enqueue i (formPump k p rr.toList d a) n
      pure .next

/-- PCOPY (R287). -/
def execPcopy (p : PumpArgs) (d a : Spec) (s : State) : Res :=
  issue (.pcopy p d a) (pumpIssue (.pcopy p d a) .copy p none d a) s

/-- PGATH (R287). -/
def execPgath (p : PumpArgs) (rr : Reg) (d a : Spec) (s : State) : Res :=
  issue (.pgath p rr d a) (pumpIssue (.pgath p rr d a) .gath p (some rr) d a) s

/-- PSCAT (R287). -/
def execPscat (p : PumpArgs) (rr : Reg) (d a : Spec) (s : State) : Res :=
  issue (.pscat p rr d a) (pumpIssue (.pscat p rr d a) .scat p (some rr) d a) s

/-- PRDC (R287). -/
def execPrdc (p : PumpArgs) (d a : Spec) (s : State) : Res :=
  issue (.prdc p d a) (pumpIssue (.prdc p d a) .rdc p none d a) s

/-- PFILL (R287). -/
def execPfill (p : PumpArgs) (d a : Spec) (s : State) : Res :=
  issue (.pfill p d a) (pumpIssue (.pfill p d a) .fill p none d a) s

/-! ## Elements (R287) -/

/-- The number of a pump among the agents that wait on migrating pages. -/
def pumpWho (d p : Nat) : Nat := 256 + 4 * d + p

/-- The address base + i·stride (08 R211). -/
def strideAt (base i stride : Nat) : Nat := (toWord base + toWord i * toWord stride).toNat

/-- Where an element is read: none for PFILL. -/
def Copy.src (c : Copy) (e : PumpElem) : Option Nat := match c.kind with
  | 1 => some (strideAt c.srcBase e.arg c.pitch)
  | 4 | 5 => none
  | _ => some (strideAt c.srcBase e.idx c.srcStride)

/-- Where an element is written. -/
def Copy.dst (c : Copy) (e : PumpElem) : Nat := match c.kind with
  | 2 => strideAt c.dstBase e.arg c.pitch
  | 5 => e.arg
  | _ => strideAt c.dstBase e.idx c.dstStride

/-- Where an element that has not reached the pump will be written; unknown for an indexed destination. -/
def Copy.dstOf (c : Copy) (i : Nat) : Option Nat := match c.ready.find? fun e => e.idx == i with
  | some e => some (c.dst e)
  | none => if c.kind = 2 || c.kind = 5 then none else some (c.dst ⟨i, 0⟩)

/-- An element with a lower index that may write the same bytes has not finished (08 R224, R226). Of an abandoned copy only
the elements that have reached the pump are still due (R288). -/
def Copy.lowerClash (c : Copy) (e : PumpElem) : Bool :=
  let due := fun (i : Nat) => !(c.abandoned && !c.open_) || c.ready.any fun x => x.idx == i
  (List.range e.idx).any fun i => c.landed ≤ i && !c.done.contains i && due i && (match c.dstOf i with
    | some a => a < c.dst e + c.size && c.dst e < a + c.size
    | none => true)

/-- The tiers that a destination may lie in (R284). -/
def Copy.tiers (c : Copy) : Nat := match c.kind with
  | 1 => 1
  | 2 => 0b10111
  | 3 => 0b10111
  | _ => 0b11111

/-- The parts of n bytes at an address that lie in different pages. -/
def pageParts (va n : Nat) : List (Nat × Nat) :=
  (pageStarts va n).map fun a => (a, min (va + n) ((a / 4096 + 1) * 4096) - a)

/-- Translate the parts of an operand: permission after every page has translated. -/
def pumpXl (who d c : Nat) (acc : Access) (fail : Nat) (parts : List (Nat × Nat)) : Op (List Phys) := do
  let xs ← parts.mapM fun p => do
    match ← xlateOp who d c p.1 acc with
    | .ok k => return (some k)
    | .prot => return none
    | _ => trapWith fail p.1
  (parts.zip xs).mapM fun p => match p.2 with
    | some k => do
      needRoute d p.1.1 k
      pure k
    | none => trapWith 0x08 p.1.1

/-- Read an element through its translated parts: the current contents, full or empty (R282). -/
def pumpRead (parts : List (Nat × Nat)) (ps : List Phys) : Op (List Byte) := do
  let bs ← (parts.zip ps).mapM fun p => readKey (some p.1.1) p.2.key p.1.2
  return bs.flatten

/-- The words of a destination that no other element waiting at the pump touches. -/
def Copy.lastWords (c : Copy) (e : PumpElem) (va key n : Nat) : List Nat :=
  (wordsOf key n).filter fun w => !c.ready.any fun x => x.idx != e.idx &&
    (let lo := va / 8 * 8 + 8 * (w - key / 8); c.dst x < lo + 8 && lo < c.dst x + c.size)

/-- Write one part of an element of a copy of pump `pu`: a landing where the instruction marked a word empty, which takes `cost` of
the bucket for each line it completes (12 R326), else a write on path P. -/
def pumpPart (d pu : Nat) (c : Copy) (e : PumpElem) (cost va : Nat) (p : Phys) (bs : List Byte) : Op Unit := do
  if p.tier != 0 then writeKey p.key bs (some va)
  else
    let s ← get
    let mine := fun (m : Mark) => m.sq == c.sq && m.runId == c.runId && m.isn == c.isn
    let ws := wordsOf p.key bs.length
    if ws.any fun w => ((s.markOn w).map fun m => !mine m).getD false then waitFor .landing
    else if ws.any fun w => (s.markOn w).isSome then
      needKey (some va) p.key bs.length
      let s := landNow s c.sq c.runId c.isn p.key bs (bs.map fun _ => 0xFF) (c.lastWords e va p.key bs.length)
      set s
      payOp d (.pump pu c.id e.idx) (List.replicate (linesDone s c.sq c.runId c.isn p.key bs.length) cost)
    else writeCistern p.key bs

/-- Write an element through its translated parts. -/
def pumpWrite (d pu : Nat) (c : Copy) (e : PumpElem) (cost : Nat) : List ((Nat × Nat) × Phys) → List Byte → Op Unit
  | [], _ => pure ()
  | (part, p) :: r, bs => do
    pumpPart d pu c e cost part.1 p (bs.take part.2)
    pumpWrite d pu c e cost r (bs.drop part.2)

/-- PRDC's sum of old contents and source (R287): the bytes to write and the flags. -/
def reduceAdd (t : ETy) (rd : Rnd) (old src : Nat) : Nat × Nat :=
  if t.clsF then
    let r := fAdd rd.mode (t.val old) (t.val src)
    deliver t rd (.exact r.1 r.2)
  else deliver t rd (.int (t.intVal old + t.intVal src))

/-- The bytes that an element writes, with flags; reserved codes trap (R293). -/
def pumpData (c : Copy) (e : PumpElem) (sva : Nat) (src : List Byte) (parts : List (Nat × Nat)) (ps : List Phys) :
    Op (List Byte × Nat) := do
  if c.kind != 3 then return (src, 0)
  else
    let t := vtTy c.vtype
    for p in parts.zip ps do checkSoft (some p.1.1) p.2.key p.1.2
    let s ← get
    let old := ((parts.zip ps).map fun p => s.mem.read p.2.key p.1.2).flatten
    if reservedCode t [src] (ofBytes src) then trapWith 0x0A sva
    else if reservedCode t [old] (ofBytes old) then trapWith 0x0A (c.dst e)
    else
      let u := if vtRND c.vtype = 4 then srU c.cgkey c.cgdraw e.idx else 0
      let r := reduceAdd t (rndOf c.vtype u) (ofBytes old) (ofBytes src)
      return (bytesOf c.size r.1, r.2)

/-- Bytes of a unit of charge. -/
def Copy.runBytes (c : Copy) (r : Nat) : Nat :=
  if c.kind = 1 || c.kind = 2 then c.size else min 4096 (c.vl * c.size - 4096 * r)

/-- The addresses that element i reads and writes, once they are known. -/
def Copy.places (c : Copy) (i : Nat) : Option (List Nat) := match c.ready.find? fun e => e.idx == i with
  | some e => some ((c.src e).toList ++ [c.dst e])
  | none => if c.kind = 1 || c.kind = 2 || c.kind = 5 then none else some ((c.src ⟨i, 0⟩).toList ++ [c.dst ⟨i, 0⟩])

/-- The charge in picojoules of the unit of element e, which lies at `ps`: each 64 bytes by where they lie (R294). Bytes whose
place is not known yet go by that of e. -/
def Copy.cost (s : State) (d : Nat) (c : Copy) (e : PumpElem) (ps : List Phys) : Nat :=
  let near := fun (p : Phys) => inCist p.key && homeDie p.key == d
  let known := ps.all near
  let nearAt := fun a => ((probe s d c.ctx a).map near).getD known
  let r := c.run e.idx
  let part := fun (u : Nat) => if c.kind = 1 || c.kind = 2 then ((c.src e).toList ++ [c.dst e]).all fun a => nearAt (a + 64 * u)
    else (List.range (max 1 (64 / c.size))).all fun j => match c.places ((4096 * r + 64 * u) / c.size + j) with
      | some l => l.all nearAt
      | none => known
  ((List.range (ceilDiv (c.runBytes r) 64)).map fun u => if part u then 400 else 2000).sum

/-- Perform an element: translate, charge its unit, read, write. -/
def pumpDo (d p : Nat) (c : Copy) (e : PumpElem) : Op Unit := do
  let who := pumpWho d p
  let sparts := match c.src e with
    | some a => pageParts a c.size
    | none => []
  let sps ← pumpXl who d c.ctx .load 0x07 sparts
  let dparts := pageParts (c.dst e) c.size
  let dps ← pumpXl who d c.ctx (if c.kind = 3 then .atomic else .store) 0x06 dparts
  match dps.find? fun k => !c.tiers.testBit k.tier with
  | some _ => trapWith 0x14 (c.dst e)
  | none =>
    let src ← if (c.src e).isSome then pumpRead sparts sps else pure (bytesOf c.size c.srcVal.toNat)
    let (bs, fl) ← pumpData c e ((c.src e).getD 0) src dparts dps
    let cost := ((sps.map fun k => fabricCost k.key d).max?).getD 1
    for k in dps do dirtyOp d k
    pumpWrite d p c e cost (dparts.zip dps) bs
    modify fun s =>
      let fresh := !c.runs.contains (c.run e.idx)
      let c' := { c with ready := c.ready.filter (fun x => x.idx != e.idx), runs := nsetAdd (c.run e.idx) c.runs,
                         flags := c.flags ||| fl }
      let s := s.modCopies d p fun cs => updFirst (fun x => x.id == c.id) (fun _ => c') cs
      let s := copyDone s d p c.id e.idx
      if fresh then chargeCtx s c.ctx (Copy.cost s d c e (sps ++ dps)) else s

/-- A fault stops the copy: one sump entry, and no further element (R293). -/
def pumpFail (d p : Nat) (c : Copy) (e : PumpElem) (r : TrapReq) : Op Unit := modify fun s =>
  let s := sumpWrite s c.ctx { tag := c.tag, die := d, sq := c.sq, isn := some c.isn, source := 0, cause := r.cause,
                               addr := r.addr, elem := e.idx }
  copyTick (s.modCopies d p fun cs => updFirst (fun x => x.id == c.id) (fun x => { x with failed := some (e.idx, r) }) cs)
    d p c.id

/-- A copy finds the places of its landing word and its phase word again after a TLBINV (13 R343), and writes what it has not been
able to write; a place that has become bad is a fault of the copy (R293; log 119). -/
def pumpFind (d p : Nat) (c : Copy) : Op Unit := do
  let land ← pumpWord (pumpWho d p) d c.ctx c.landVa tiersCist
  let phase ← if c.phase = 0 then pure 0 else (·.key + 1) <$> pumpWord (pumpWho d p) d c.ctx c.phaseVa tiersCMW
  modify fun s => copyTick (s.modCopies d p fun cs => updFirst (fun x => x.id == c.id)
    (fun _ => { c with landing := land.key, phase := phase, stale := false }) cs) d p c.id

/-- A copy has its two words to find again, or a landing word to write that a link held back. -/
def Copy.behind (c : Copy) (s : State) (d : Nat) : Bool := c.stale || (!c.stuck s d && c.done.contains c.landed)

/-- A move of a pump for a copy: what traps in it is a fault of the copy at an element (R293). -/
def pumpMove (d p : Nat) (c : Copy) (e : PumpElem) (m : Op Unit) (s : State) : Ev :=
  unitMove (pumpWho d p) d c.ctx c.sq (do
    match ← attempt m with
    | .ok _ => pure ()
    | .error (.trap r) => pumpFail d p c e r
    | .error (.mcheck a phys) =>
      pumpFail d p c e ⟨0x10, toWord a, 0⟩
      throw (.mcheck a phys)
    | .error x => throw x) s

/-- A pump performs an element of one of its first four copies, where its charge allows; with i = vl, a copy catches up with its
landing word. -/
def tryPumpElement (d p k i : Nat) (s : State) : Ev :=
  if s.pkg.frozen || d ≥ 16 then none
  else match (s.copies d p)[k]? with
    | none => none
    | some c =>
      if c.failed.isSome then none
      else if i = c.vl && c.behind s d then pumpMove d p c ⟨c.landed, 0⟩ (pumpFind d p c) s
      else match c.ready.find? fun e => e.idx == i with
        | none => none
        | some e =>
          if k ≥ 4 || c.lowerClash e || !(c.runs.contains (c.run i) || s.canBegin c.ctx) then none
          else pumpMove d p c e (pumpDo d p c e) s

/-- PUMP_ELEMENT (R287). -/
def execPumpElement (d p k i : Nat) (s : State) : Res := occurs (tryPumpElement d p k i s) s

end Sys2Proof.Machine
end

