-- ==== Sys2Proof/Machine/Tasks.lean ====
section
/-!
DEFINITION. Tile tasks: TSUB, the die's engine task queue, its gates and its scheduler, and how an engine runs a task
(spec/10_matrix.md R274 to R280).
-/
namespace Sys2Proof.Machine

/-! ## The record (R275) -/

/-- Word k of a task's record. -/
def Task.w (t : Task) (k : Nat) : Word := (t.words[k]?).getD 0
/-- NG. -/
def Task.ng (t : Task) : Nat := fld (t.w 0) 8 3
/-- TAG. -/
def Task.tag (t : Task) : Nat := fld (t.w 0) 48 16
/-- PRIO. -/
def Task.prio (t : Task) : Nat := fld (t.w 0) 4 3
/-- CDONE. -/
def Task.cdone (t : Task) : Nat := fld (t.w 5) 0 48

/-- A record that TSUB refuses: a bit that R275 gives as 0, a reserved KIND or CMP, or NG above 4 (R274). -/
def taskBad (w : Nat → Word) : Bool :=
  let ng := fld (w 0) 8 3
  fld (w 0) 11 5 != 0 || (w 0).getLsbD 7 || fld (w 0) 2 2 != 0 || fld (w 0) 0 2 > 1 || ng > 4 ||
    [1, 2, 3, 5].any (fun k => fld (w k) 48 16 != 0) || fld (w 4) 13 19 != 0 || fld (w 4) 5 4 != 0 || w 6 != 0 ||
    w 7 != 0 || (List.range ng).any fun g => fld (w (8 + 2 * g)) 51 13 != 0 || fld (w (8 + 2 * g)) 48 3 > 5

/-- The sixteen scalar loads of a record whose halves have been translated (R274). -/
def taskWords (n : Nat) (va : Nat) (lo hi : Phys) : Op (List Word) := do
  let q ← getSeq n
  (List.range 16).mapM fun k =>
    let p := if k < 8 then { lo with key := lo.key + 8 * k } else { hi with key := hi.key + 8 * (k - 8) }
    scalarDo n q.isn ⟨.ld, 8, 0, 0, 0, 0, .none⟩ (va + 8 * k) p 0 0

/-- TSUB (R274). -/
def execTsub (rq : Reg) (s : State) : Res :=
  issue (.tsub rq) (fun n => do
    let q ← getSeq n
    let va := q.getX rq
    let lo ← scalarAddr n va 64 .load tiersCMW
    let hi ← scalarAddr n (va + 64) 64 .load tiersCMW
    let ws ← taskWords n va.toNat lo hi
    if taskBad fun k => (ws[k]?).getD 0 then trapWith 0x0B va.toNat
    else
      let s ← get
      if (s.die (dieOf n)).tasks.length ≥ 256 then waitFor .other
      else if pairOff s n 3 && !q.inflight.isEmpty then waitFor .other
      else
        let t : Task := ⟨n, q.runId, q.ctx, s.now, q.isn, ws, q.cgkey, q.cgdraw, fld ((ws[0]?).getD 0) 8 3 == 0⟩
        modify fun s => s.modDie (dieOf n) fun d => { d with tasks := d.tasks ++ [t] }
        pure .next) s

/-! ## Accesses of a task -/

/-- The number of a die's task scheduler among the agents that wait on migrating pages. -/
def taskWho (d : Nat) : Nat := 1024 + d

/-- Translate an access of a task to n aligned bytes. -/
def taskAddr (who d c : Nat) (va n : Nat) (acc : Access) : Op Phys := do
  let pf := if accWrites acc then 0x06 else 0x05
  if va % n != 0 then trapWith 0x04 va
  else match ← xlateOp who d c va acc with
    | .ok p =>
      needRoute d va p
      pure p
    | .prot => trapWith 0x08 va
    | _ => trapWith pf va

/-- Read n bytes for a task; an empty cistern word waits. -/
def taskRead (who d c : Nat) (va align n : Nat) : Op (List Byte) := do
  let p ← taskAddr who d c va align .load
  if p.tier = 0 then readForeign va p.key n false else readKey (some va) p.key n

/-- Write bytes at an address, at its place, on path M. -/
def taskWrite (tier va key : Nat) (bs : List Byte) : Op Unit :=
  if tier = 0 then writeCistern key bs else writeKey key bs (some va)

/-- A sump entry of a task (R279, R519). -/
def taskSump (d : Nat) (t : Task) (cause : Nat) (addr : Word) : Op Unit := modify fun s =>
  sumpWrite s t.ctx { tag := t.tag, die := d, sq := t.sq, source := 1, cause := cause, addr := addr }

/-- The completion word gains v (R279); a fault on it writes a sump entry only. -/
def taskDone (who d : Nat) (t : Task) (v : Nat) : Op Unit := do
  if t.cdone = 0 then pure ()
  else match ← attempt (do
      let p ← taskAddr who d t.ctx t.cdone 8 .atomic
      let bs ← if p.tier = 0 then readForeign t.cdone p.key 8 false else readKey (some t.cdone) p.key 8
      dirtyOp d p
      taskWrite p.tier t.cdone p.key (bytesOf 8 (ofBytes bs + v))) with
    | .ok _ => pure ()
    | .error (.trap r) => taskSump d t r.cause r.addr
    | .error e => throw e

/-- A failure abandons the task: a sump entry with its TAG, and 2^32 on the completion word (R279). -/
def taskFail (who d : Nat) (t : Task) (r : TrapReq) : Op Unit := do
  taskSump d t r.cause r.addr
  taskDone who d t (2 ^ 32)

/-! ## Gates (R277) -/

/-- CMP on two 64-bit numbers. -/
def gateCmp (cmp : Nat) (a b : Word) : Bool := match cmp with
  | 0 => a == b
  | 1 => a != b
  | 2 => !a.ult b
  | 3 => a.ult b
  | 4 => !a.slt b
  | _ => a.slt b

/-- Every gate from g on holds. -/
def gatesHold (who d : Nat) (t : Task) : Nat → Op Bool
  | 0 => pure true
  | k + 1 => do
    let g := t.ng - (k + 1)
    let va := fld (t.w (8 + 2 * g)) 0 48
    let v ← taskRead who d t.ctx va 8 8
    if gateCmp (fld (t.w (8 + 2 * g)) 48 3) (toWord (ofBytes v)) (t.w (9 + 2 * g)) then gatesHold who d t k else pure false

/-- The gates of a waiting task are read again; a fault on a gate word abandons it (R279). -/
def tryTaskGateEvaluation (d idx : Nat) (s : State) : Ev :=
  if s.pkg.frozen || d ≥ 16 then none
  else match (s.die d).tasks[idx]? with
    | none => none
    | some t =>
      if !s.runs t.ctx then none
      else
        let drop : Op Unit := modify fun s => s.modDie d fun x => { x with tasks := x.tasks.eraseIdx idx }
        unitMove (taskWho d) d t.ctx t.sq (do
          match ← attempt (gatesHold (taskWho d) d t t.ng) with
          | .ok v =>
            if v = t.ready then waitFor .other
            else modify fun s => s.modDie d fun x => { x with tasks := x.tasks.set idx { t with ready := v } }
          | .error (.trap r) => do
            taskFail (taskWho d) d t r
            drop
          | .error e => throw e) s
/-- TASK_GATE_EVALUATION (R277). -/
def execTaskGateEvaluation (d idx : Nat) (s : State) : Res := occurs (tryTaskGateEvaluation d idx s) s

/-! ## The scheduler (R278) -/

/-- The free engine of a context with the lowest index; one that is being evicted takes nothing more (09 R243). -/
def freeEngine (s : State) (d c : Nat) : Option Lease :=
  minBy (fun a b => a.engine < b.engine) ((s.die d).leases.filter fun l =>
    l.ctx == c && l.kind == 0 && l.st == .held && !l.evicting && !((s.die d).engine l.engine).busy)

/-- The order of R278 among ready tasks. -/
def taskBefore (a b : Task) : Bool :=
  a.prio > b.prio || (a.prio = b.prio && (a.age < b.age || (a.age = b.age && a.sq % 16 < b.sq % 16)))

/-- The task that the scheduler dispatches now, with its place in the queue. -/
def nextTask (s : State) (d : Nat) : Option (Task × Nat) :=
  minBy (fun a b => taskBefore a.1 b.1) ((s.die d).tasks.zipIdx.filter fun p =>
    p.1.ready && s.runs p.1.ctx && (freeEngine s d p.1.ctx).isSome)

/-- A ready task goes to a free engine. -/
def tryTaskDispatch (d : Nat) (s : State) : Ev :=
  if s.pkg.frozen || d ≥ 16 then none
  else match nextTask s d with
    | none => none
    | some (t, k) => (freeEngine s d t.ctx).map fun l =>
        .next (s.modDie d fun x =>
          let e := x.engine l.engine
          { x with tasks := x.tasks.eraseIdx k }.setEngine
            { e with task := some ⟨t, l.slot, TileDesc.zero, TileDesc.zero, false, [], [], 0, false, 0⟩ })
/-- TASK_DISPATCH (R278). -/
def execTaskDispatch (d : Nat) (s : State) : Res := occurs (tryTaskDispatch d s) s

/-! ## A task on its engine (R279) -/

/-- A descriptor image with a bit that R276 gives as 0. -/
def imageBad (w : Nat → Word) : Bool :=
  fld (w 0) 48 16 != 0 || fld (w 1) 48 16 != 0 || fld (w 2) 41 23 != 0 || fld (w 3) 32 32 != 0 || w 6 != 0 || w 7 != 0

/-- Read a descriptor image (R276). -/
def readImage (who d c va : Nat) : Op TileDesc := do
  let bs ← taskRead who d c va 64 64
  let w := fun k => toWord (ofBytes ((bs.drop (8 * k)).take 8))
  if imageBad w then trapWith 0x0B va else pure (descOf w)

/-- DEW as a type. -/
def Task.dty (t : Task) : ETy := etyOf (fld (t.w 4) 0 5) 0
/-- DDEST. -/
def Task.ddest (t : Task) : Nat := fld (t.w 3) 0 48
/-- DSTRIDE. -/
def Task.dstride (t : Task) : Nat := fld (t.w 4) 32 32

/-- The work of a task. -/
def TaskRun.work (r : TaskRun) : TileWork :=
  ⟨r.a, r.b, true, fld (r.task.w 0) 32 9, fld (r.task.w 0) 41 7,
    if fld (r.task.w 0) 0 2 = 1 then some (fld (r.task.w 0) 16 16) else none, r.task.cgkey, r.pages, dieOf r.task.sq⟩

/-- Steps 1 and 2: the checks, and the translation of the drain destination. -/
def taskChecks (who d : Nat) (r : TaskRun) : Op TaskRun := do
  let t := r.task
  let a ← readImage who d t.ctx (fld (t.w 1) 0 48)
  let b ← readImage who d t.ctx (fld (t.w 2) 0 48)
  let x := { r with a := a, b := b }.work
  let pages ← mmaChecks who d t.ctx a b x.arow x.acol
  if !(t.dty.clsI || t.dty.clsF) || fld (t.w 4) 9 3 > 4 then trapWith 0x03 0
  else if t.ddest % t.dty.size != 0 || t.dstride % t.dty.size != 0 then trapWith 0x04 t.ddest
  else
    let rows := (List.range a.rows).map fun k => (t.ddest + k * t.dstride, b.cols * t.dty.size)
    let p ← touchRows who d t.ctx .store 0x06 rows ⟨[], none, none⟩
    match p.prot with
    | some va => trapWith 0x08 va
    | none => return { r with a := a, b := b, checked := true, pages := pages, dpages := p.pages }

/-- Step 4: the region is drained row by row; the flags of delivery. -/
def taskDrain (d : Nat) (r : TaskRun) (e : MEngine) : Op Nat := do
  let x := r.work
  let t := r.task
  let mode := fld (t.w 4) 9 3
  (List.range (x.a.rows * x.b.cols)).foldlM (fun fl k => do
    let row := k / x.b.cols
    let col := k % x.b.cols
    let rd : Rnd := ⟨mode, (t.w 4).getLsbD 12, if mode = 4 then srU t.cgkey t.cgdraw k else 0⟩
    let v := deliver t.dty rd (.exact (Fmt.w48.decode (e.get (x.arow + row) (x.acol + col))) 0)
    let va := t.ddest + row * t.dstride + col * t.dty.size
    let key := pageKey r.dpages va
    needRoute d va ⟨key, 0, 0⟩
    modify fun s => s.dirtyAt d t.ctx va
    taskWrite (if inCist key then 0 else 1) va key (bytesOf t.dty.size v.1)
    return fl ||| v.2) 0

/-- The run of an engine's task, replaced or ended. -/
def setRun (d idx : Nat) (r : Option TaskRun) : Op Unit := modify fun s => s.modDie d fun x =>
  x.setEngine { x.engine idx with task := r }

/-- The next part of a task: its checks, one step, its drain, or its completion. -/
def taskMove (d idx : Nat) (r : TaskRun) : Op Unit := do
  let who := engineWho d idx
  let t := r.task
  let x := r.work
  let s ← get
  if !r.checked then
    match ← attempt (taskChecks who d r) with
    | .ok r' => setRun d idx (some r')
    | .error (.trap q) =>
      taskFail who d t q
      setRun d idx none
    | .error e => throw e
  else if r.pos < x.steps then
    let o ← tileStep x ((s.die d).engine idx) r.pos
    modify fun s => s.modDie d (·.setEngine o.eng)
    match o.bad with
    | some (c, a) => if !r.badSeen then taskSump d t c (toWord a)
    | none => pure ()
    setRun d idx (some { r with pos := r.pos + 1, badSeen := r.badSeen || o.bad.isSome, flags := r.flags ||| o.flags })
    modify fun s => chargeCtx s t.ctx (1000 * x.energy)
  else if r.pos = x.steps then
    let fl ← taskDrain d r ((s.die d).engine idx)
    setRun d idx (some { r with pos := r.pos + 1, flags := r.flags ||| fl })
  else
    taskDone who d t 1
    setRun d idx none
    modify fun s => accrueTo s t.runId r.flags

/-- A task makes progress. -/
def tryTaskRun (d idx : Nat) (s : State) : Ev :=
  match engineGo s d idx, ((s.die d).engine idx).task with
  | some l, some r => unitMove (engineWho d idx) d l.ctx r.task.sq (taskMove d idx r) s
  | _, _ => none
/-- TASK_RUN (R279). -/
def execTaskRun (d idx : Nat) (s : State) : Res := occurs (tryTaskRun d idx s) s

end Sys2Proof.Machine
end

