-- ==== Sys2Proof/Machine/Groups.lean ====
section
/-!
DEFINITION. Transactional command groups: GBEGIN, GCOMMIT, GABORT, shadows, and the commands ATTN, KVW and KVINV at
issue (spec/12_attention.md R300 to R323).
-/
namespace Sys2Proof.Machine

/-! ## The command record (R300, R301) -/

/-- Word k of a command's record. -/
def GCmd.w (m : GCmd) (k : Nat) : Word := (m.words[k]?).getD 0
/-- d. -/
def GCmd.dim (m : GCmd) : Nat := fld (m.w 7) 48 8 + 1
/-- NQ. -/
def GCmd.nq (m : GCmd) : Nat := fld (m.w 7) 32 16
/-- NPAGES. -/
def GCmd.npages (m : GCmd) : Nat := fld (m.w 4) 48 16
/-- KVET, as the etype of a descriptor. -/
def GCmd.et (m : GCmd) : TileDesc := { TileDesc.zero with etype := fld (m.w 9) 0 9 }
/-- OEW as a type. -/
def GCmd.oty (m : GCmd) : ETy := etyOf (fld (m.w 9) 16 5) 0

/-- A malformed record. -/
def recordBad (m : GCmd) : Bool :=
  let e := m.et
  let oew := fld (m.w 9) 16 5
  [2, 3, 5, 6].any (fun k => fld (m.w k) 48 16 != 0) || fld (m.w 7) 56 8 != 0 || fld (m.w 9) 25 39 != 0 ||
    fld (m.w 9) 9 7 != 0 || (m.words.drop 10).any (· != 0) || m.npages == 0 || m.nq == 0 || m.dim % 16 != 0 ||
    !(9 ≤ oew && oew ≤ 11) || fld (m.w 9) 21 3 > 3 || !e.valid || e.mld || fld (m.w 8) 0 32 % e.align != 0 ||
    fld (m.w 8) 32 32 % m.oty.size != 0 || fld (m.w 2) 0 48 % e.align != 0 || fld (m.w 3) 0 48 % m.oty.size != 0

/-- Byte length of a row of d elements (R297). -/
def GCmd.rowLen (m : GCmd) : Nat := match m.et.blkW with
  | some w => 64 * ceilDiv m.dim (blkN w)
  | none => 2 * m.dim

/-- The pitch P of the rows of a page (R297). -/
def GCmd.pitch (m : GCmd) : Nat := 64 * ceilDiv m.rowLen 64

/-! ## Commands at issue (R305, R311) -/

/-- The first checks of every command: an open group, the record's address and contents. -/
def commandRecord (kind : GCmdKind) (rc : Reg) (n : Nat) : Op GCmd := do
  let q ← getSeq n
  if q.grp.st = .none then trapWith 0x15 0
  else
    let va := q.getX rc
    let lo ← scalarAddr n va 64 .load tiersCist
    let hi ← scalarAddr n (va + 64) 64 .load tiersCist
    let ws ← taskWords n va.toNat lo hi
    let m : GCmd :=
      { sq := n, runId := q.runId, ctx := q.ctx, isn := q.isn, pc := q.pc, kind := kind, hint := .ae, words := ws,
        qb0 := 0, nqb := 0, pos := 0, src := 0, vl := q.vl, began := false, qb := 0, page := 0, rows := [],
        onMatrix := false, chose := false, badSeen := false, flags := 0, displaced := [] }
    if recordBad m then trapWith 0x0B va.toNat else pure m

/-- A command joins the group's order; a failed group discards it (R323). -/
def joinGroup (n : Nat) (m : GCmd) : Op Unit := modSeqOp n fun q =>
  if q.grp.st = .failed then q else { q with grp := { q.grp with cmds := q.grp.cmds ++ [m] } }

/-- ATTN (R304, R305): the handles that its hint names are all checked before one that is not granted makes it wait. -/
def execAttn (hint : AttnHint) (rc : Reg) (qb0 nqb1 : BitVec 16) (s : State) : Res :=
  issue (.attn hint rc qb0 nqb1) (fun n => do
    let m ← commandRecord .attn rc n
    if qb0.toNat + nqb1.toNat + 1 > ceilDiv m.nq 16 then trapWith 0x0B ((← getSeq n).getX rc).toNat
    else
      let m := { m with hint := hint, qb0 := qb0.toNat, nqb := nqb1.toNat + 1 }
      let ls ← m.handles.mapM fun k => namedLease (if k = 0 then 1 else 0) n (m.w k)
      for l in ls do needGranted l
      joinGroup n m
      pure .next) s

/-- KVW and KVINV at issue (R311). -/
def kvIssue (kind : GCmdKind) (rc ra rp : Reg) (n : Nat) : Op Ctl := do
  let m ← commandRecord kind rc n
  let q ← getSeq n
  let p := (q.getX rp).toNat
  if p + q.vl > 64 * m.npages then trapWith 0x0B (q.getX rc).toNat
  else if kind == .kvw && (q.getX ra).toNat % 64 != 0 then trapWith 0x04 (q.getX ra).toNat
  else
    joinGroup n { m with pos := p, src := (q.getX ra).toNat }
    pure .next

/-- KVW (R312). -/
def execKvw (rc ra rp : Reg) (s : State) : Res := issue (.kvw rc ra rp) (kvIssue .kvw rc ra rp) s

/-- KVINV (R313). -/
def execKvinv (rc ra rp : Reg) (s : State) : Res := issue (.kvinv rc ra rp) (kvIssue .kvinv rc ra rp) s

/-! ## Opening and closing a group -/

/-- Change the group of sequencer n. -/
def modGroup (n : Nat) (f : Group → Group) : Op Unit := modSeqOp n fun q => { q with grp := f q.grp }

/-- GBEGIN (R315), after the stop that a GABORT has left (R322). An area whose lines reach past the window raises TIER, as an address
outside it does (log 115). -/
def execGbegin (ra : Reg) (s : State) : Res :=
  issue (.gbegin ra) (fun n => do
    let q ← getSeq n
    let a := (q.getX ra).toNat
    if q.grp.st != .none then trapWith 0x15 0
    else if a % 64 != 0 then trapWith 0x04 a
    else match q.ownerVa a with
      | none => trapWith 0x14 a
      | some _ =>
        if !q.stopping.isEmpty then waitFor .other
        let s ← get
        let key := q.winPa + (a - q.winVa)
        scalarOrder n q.isn .none
        if (probe s (dieOf n) q.ctx a).any (·.kind == 0) then scalarFar n q.isn key 8 0
        let w := toWord (ofBytes (← pullOwn n q.isn 0 a key 8 false))
        if w = 0 || w.toNat > 32767 then trapWith 0x0B a
        else if (q.ownerVa (a + 64 * w.toNat)).isNone then trapWith 0x14 (a + 64 * w.toNat)
        else
          let hi := key + 64 * (w.toNat + 1)
          modify fun s =>
            let hidden := s.mem.cells.filter fun c => key ≤ c.1 && c.1 < hi
            let g : Group := { Group.none with st := .open_, area := key, nlines := w.toNat, hidden := hidden }
            ({ s with mem := s.mem.zero key hi } : State).modSeq n fun q => { q with grp := g }
          pure .next) s

/-- GABORT (R322). -/
def execGabort (s : State) : Res :=
  issue .gabort (fun n => do
    if (← getSeq n).grp.st = .none then trapWith 0x15 0
    else
      modify fun s => s.closeGroup n
      pure .next) s

/-! ## Shadows (R316, R319) -/

/-- The number of a sequencer's group among the agents that wait on migrating pages. -/
def groupWho (n : Nat) : Nat := 2048 + n

/-- The group fails (R316, R320): its commands and shadows are discarded; `status` is what GCOMMIT reports. -/
def failGroup (n status : Nat) (isn : BitVec 32) : Op Unit := modGroup n fun g =>
  { g with st := .failed, cmds := [], shadows := [], fault := ⟨status, 0, 0⟩, faultIsn := isn }

/-- Bytes that lie in one line, as the group's running command m reads them. It waits for words that are empty in the current line
alone; what it reads through a shadow or a displaced line is there already (log 107). -/
def groupLine (n : Nat) (m : GCmd) (va key len : Nat) : Op (List Byte) := do
  let g := (← getSeq n).grp
  let part := fun (d : List Byte) => (d.drop (key % 64)).take len
  match g.shadows.find? (fun sh => sh.line == key / 64), m.displaced.find? (fun d => d.1 == key / 64) with
  | some sh, _ => return part sh.data
  | none, some d => return part d.2
  | none, none => readForeign va key len false

/-- The pages of an access of a command: translated, permitted, and in the cistern. -/
def groupXl (n : Nat) (m : GCmd) (acc : Access) (va len : Nat) : Op (List ((Nat × Nat) × Phys)) := do
  let parts := pageParts va len
  let ps ← pumpXl (groupWho n) (dieOf n) m.ctx acc (if accWrites acc then 0x06 else 0x07) parts
  match (parts.zip ps).find? fun p => p.2.tier != 0 with
  | some p => trapWith 0x14 p.1.1
  | none => return parts.zip ps

/-- Bytes that a running command reads (R306). -/
def groupRead (n : Nat) (m : GCmd) (va len : Nat) : Op (List Byte) := do
  let ps ← groupXl n m .load va len
  let bs ← ps.mapM fun p => do
    let ls ← (lineParts (p.1.2 / 64 + 2) p.2.key p.1.2).mapM fun l => groupLine n m (p.1.1 + (l.1 - p.2.key)) l.1 l.2
    return ls.flatten
  return bs.flatten

/-- A word that a running command reads. -/
def cmdWord (n : Nat) (m : GCmd) (va : Nat) : Op Word := do return toWord (ofBytes (← groupRead n m va 8))

/-- Write bytes of one line into its shadow, which is taken at the first write; false when the area is full. -/
def shadowLine (n key : Nat) (bs : List Byte) : Op Bool := do
  let s ← get
  let g := (s.seq n).grp
  if g.covers key then
    modGroup n fun g => { g with dropped := true }
    return true
  else
    let put := fun (sh : Shadow) =>
      { sh with data := putBytes sh.data (key % 64) bs,
                words := (wordsOf key bs.length).foldl (fun l w => nsetAdd (w % 8) l) sh.words }
    if g.shadows.any fun sh => sh.line == key / 64 then
      modGroup n fun g => { g with shadows := g.shadows.map fun sh => if sh.line = key / 64 then put sh else sh }
      return true
    else if g.shadows.length ≥ g.nlines then return false
    else
      modGroup n fun g =>
        { g with shadows := g.shadows ++ [put ⟨key / 64, s.mem.read (key / 64 * 64) 64, [], false⟩] }
      return true

/-- Write pieces until one fails. -/
def shadowAll (n : Nat) : List (Nat × List Byte) → Op Bool
  | [] => pure true
  | p :: r => do if ← shadowLine n p.1 p.2 then shadowAll n r else pure false

/-- Cut bytes at a key into lines. -/
def linePieces (key : Nat) (bs : List Byte) : List (Nat × List Byte) :=
  (lineParts (bs.length / 64 + 2) key bs.length).map fun l => (l.1, (bs.drop (l.1 - key)).take l.2)

/-- A write of a running command goes to shadows (R316); a group that needs more lines than it has fails with OVERFLOW,
and the answer is false. -/
def groupWrite (n : Nat) (m : GCmd) (va : Nat) (bs : List Byte) : Op Bool := do
  let ps ← groupXl n m .store va bs.length
  for p in ps do dirtyOp (dieOf n) p.2
  let pieces := ps.map fun p => linePieces p.2.key ((bs.drop (p.1.1 - va)).take p.1.2)
  if ← shadowAll n pieces.flatten then return true
  else
    failGroup n 3 m.isn
    return false

/-! ## GCOMMIT (R317, R321) -/

/-- The shadows become current (R317), or the group has met a conflict: what is left, and xd's status. The lines that
the commit displaces are kept for running commands of other groups (R319). -/
def commitGroup (s : State) (n : Nat) : State × Nat :=
  let g := (s.seq n).grp
  if g.dropped || g.shadows.any (·.conflict) then (s.closeGroup n, 2)
  else
    let old := g.shadows.map fun sh => (sh.line, s.mem.read (64 * sh.line) 64)
    let keep := fun (m : GCmd) => if m.began then
        { m with displaced := m.displaced ++ old.filter fun o => !m.displaced.any fun d => d.1 == o.1 } else m
    let s := s.closeGroup n
    let kept := fun (h : Group) => { h with cmds := h.cmds.map keep }
    let s := { s with seqs := s.seqs.map fun p => (p.1, { p.2 with grp := kept p.2.grp }),
                      aside := s.aside.map fun a => { a with grp := kept a.grp } }
    (g.shadows.foldl (fun s sh =>
      let s := (if inCist (64 * sh.line) then s.keepOld (64 * sh.line) 64 else s).poke (64 * sh.line) sh.data
      if inCist (64 * sh.line) then s.markWords (sh.words.map (8 * sh.line + ·)) true else s) s, 0)

/-- A landing is due in a word that the group has written: the commit waits for it (02 R52). -/
def commitHeld (s : State) (g : Group) : Bool :=
  g.shadows.any fun sh => sh.words.any fun w => (s.markOn (8 * sh.line + w)).isSome

/-- What a GCOMMIT does now (R321). -/
inductive CommitDo where
  | sync | report (status : Word) | fault (isn : BitVec 32) (r : TrapReq) | restart | commit | wait
  deriving DecidableEq, Repr

/-- The table of R321. -/
def commitNow (s : State) (n : Nat) : CommitDo :=
  let q := s.seq n
  match q.grp.st with
  | .none => .sync
  | .failed => .report (toWord (q.grp.faultIsn.toNat * 2 ^ 32 + q.grp.fault.cause))
  | .suspended => if q.grp.told then .restart else .fault q.grp.faultIsn q.grp.fault
  | .open_ => if q.grp.cmds.isEmpty && q.inflight.isEmpty && !commitHeld s q.grp then .commit else .wait

/-- A GCOMMIT that finds nothing to wait for completes; the value of xd. -/
def commitDone (n : Nat) (rd : Reg) (d : CommitDo) : Op Unit := do
  match d with
  | .report w => do
    modify fun s => s.closeGroup n
    putX n rd w
  | _ => do
    drainNow n
    let r := commitGroup (← get) n
    set r.1
    putX n rd (toWord r.2)

/-- GCOMMIT (R321). -/
def execGcommit (rd : Reg) (s : State) : Res :=
  issue (.gcommit rd) (fun n => do
    match commitNow (← get) n with
    | .sync => trapWith 0x15 0
    | .fault isn r => throw (.ctrap isn r)
    | .restart =>
      modGroup n fun g => { g with st := .open_, told := false }
      modSeqOp n fun q => { q with sleep := some (.gcommit rd) }
      pure .stay
    | .wait =>
      modSeqOp n fun q => { q with sleep := some (.gcommit rd) }
      pure .stay
    | d =>
      commitDone n rd d
      pure .next) s

/-- A waiting GCOMMIT commits, reports a failure, or traps on a suspension. -/
def tryGroupCommit (n : Nat) (s : State) : Ev :=
  if s.pkg.frozen then none
  else match (s.seq n).sleep with
    | some (.gcommit rd) => match commitNow s n with
      | .fault isn r =>
        some (.next (commandTrap (s.modSeq n fun q => { q with sleep := none }) n isn r))
      | .report w => wake n (do
          commitDone n rd (.report w)
          finishSleep n (.gcommit rd)) s
      | .commit => wake n (do
          commitDone n rd .commit
          finishSleep n (.gcommit rd)) s
      | _ => none
    | _ => none
/-- GROUP_COMMIT (R317). -/
def execGroupCommit (n : Nat) (s : State) : Res := occurs (tryGroupCommit n s) s

end Sys2Proof.Machine
end

