-- ==== Sys2Proof/Machine/Attention.lean ====
section
/-!
DEFINITION. What the commands of a group do when they run (spec/12_attention.md R297 to R303, R306 to R308, R312 to
R320).
-/
namespace Sys2Proof.Machine

/-! ## Progress of the running command -/

/-- Change the first command of the group. -/
def modHead (n : Nat) (f : GCmd → GCmd) : Op Unit := modGroup n fun g =>
  { g with cmds := match g.cmds with
    | m :: r => f m :: r
    | [] => [] }

/-- The first command is complete: the next follows, and flags accrue to the thread that issued it (03 R71; 18 R448). -/
def endHead (n run flags : Nat) : Op Unit := do
  modGroup n fun g => { g with cmds := g.cmds.drop 1 }
  modify fun s => accrueTo s run flags

/-- A failure suspends the group at its running command, which will start again (R318, R321), on the engine that it has chosen (R308). -/
def suspendGroup (n : Nat) (m : GCmd) (r : TrapReq) : Op Unit := do
  modify fun s => sumpWrite s m.ctx { die := dieOf n, sq := n, isn := some m.isn, source := 2, cause := r.cause, addr := r.addr }
  modHead n fun m => { m with began := false, qb := 0, page := 0, rows := [], flags := 0, displaced := [] }
  modGroup n fun g => { g with st := .suspended, fault := r, faultIsn := m.isn, told := false }

/-- A move of the running command of sequencer n's group, while its context runs; an attention engine also ends the query block
that it is in (09 R243, R247). An uncorrectable error suspends the group as other failures do (R313), and halts the context (15
R396). -/
def groupUnit (n : Nat) (body : GCmd → Op Unit) (s : State) : Ev :=
  let q := s.seq n
  if s.pkg.frozen || q.grp.st != .open_ then none
  else match q.grp.cmds with
    | [] => none
    | m :: _ =>
      if !s.runs m.ctx && !m.midBlock then none
      else unitMove (groupWho n) (dieOf n) m.ctx n (do
        match ← attempt (body m) with
        | .ok _ => pure ()
        | .error (.trap r) => suspendGroup n m r
        | .error (.mcheck a p) =>
          suspendGroup n m ⟨0x10, toWord a, 0⟩
          throw (.mcheck a p)
        | .error e => throw e) s

/-! ## KVW and KVINV (R312, R313) -/

/-- Address of block-table entry k. -/
def GCmd.entry (m : GCmd) (k : Nat) : Nat := fld (m.w 4) 0 48 + 16 * k

/-- FILL of an entry's word 0; a value above 64 reads as 64. -/
def fillOf (w : Word) : Nat := min 64 (fld w 56 7)

/-- KVW's element i; false when the group has failed. -/
def kvwOne (n : Nat) (m : GCmd) (i : Nat) : Op Bool := do
  let t := m.pos + i
  let j := t % 64
  let ea := m.entry (t / 64)
  let w0 ← cmdWord n m ea
  let w1 ← cmdWord n m (ea + 8)
  let page := fld w0 0 48
  if page = 0 then trapWith 0x06 ea
  else
    let key ← groupRead n m (m.src + i * m.pitch) m.rowLen
    if ← groupWrite n m (page + j * m.pitch) key then
      let val ← groupRead n m (m.src + (m.vl + i) * m.pitch) m.rowLen
      if ← groupWrite n m (page + (64 + j) * m.pitch) val then
        let w0' := toWord (putBits w0.toNat 56 7 (max (fillOf w0) (j + 1)))
        if ← groupWrite n m ea (bytesOf 8 w0'.toNat) then groupWrite n m (ea + 8) (bytesOf 8 (w1 ||| ((1 : Word) <<< j)).toNat)
        else return false
      else return false
    else return false

/-- KVINV's element i. -/
def kvinvOne (n : Nat) (m : GCmd) (i : Nat) : Op Bool := do
  let b ← groupRead n m (m.src + i / 8) 1
  if !(ofBytes b).testBit (i % 8) then return true
  else
    let t := m.pos + i
    let ea := m.entry (t / 64) + 8
    let w1 ← cmdWord n m ea
    groupWrite n m ea (bytesOf 8 (w1 &&& ~~~((1 : Word) <<< (t % 64))).toNat)

/-- Elements in ascending order until the group fails. -/
def kvLoop (f : Nat → Op Bool) : Nat → Nat → Op Bool
  | 0, _ => pure true
  | k + 1, i => do if ← f i then kvLoop f k (i + 1) else pure false

/-- KVW or KVINV as a whole. -/
def kvRun (n : Nat) (m : GCmd) : Op Unit := do
  let one := if m.kind == .kvw then kvwOne n m else kvinvOne n m
  if ← kvLoop one m.vl 0 then endHead n m.runId 0 else pure ()

/-! ## Where ATTN runs (R307, R308) -/

/-- The choice of an ATTN that begins to run; one that has made it keeps it. -/
def attnMatrix (s : State) (n : Nat) (m : GCmd) : Bool := if m.chose then m.onMatrix else match m.hint with
  | .ae => false
  | .me => true
  | .auto => (s.die (dieOf n)).fabLast < (s.die (dieOf n)).fabThresh

/-- The lease of a running ATTN: `some true` when it may go on, `some false` when it must wait, none when it is lost. Within a query
block an attention engine goes on whatever becomes of its lease (09 R243), but for a page that the quota keeps from beginning (21
R495). -/
def attnLease (s : State) (n : Nat) (m : GCmd) : Option Bool :=
  match liveLease s (dieOf n) m.ctx (m.w (if m.onMatrix then 1 else 0)) with
  | none => none
  | some l =>
    let may := m.page ≥ m.npages || s.canBegin m.ctx
    match l.st with
    | .held | .releasing => some (may && (m.midBlock || (s.runs m.ctx && !l.evicting)))
    | .parked => some (may && m.midBlock)
    | .evicted | .free => none
    | _ => some false

/-- The next command of a group begins, or a KVW or KVINV that has begun is performed (R314). -/
def tryGroupCommandRun (n : Nat) (s : State) : Ev := groupUnit n (fun m => do
  let s ← get
  if !m.began then
    let mx := attnMatrix s n m
    modHead n fun m => { m with began := true, onMatrix := m.kind == .attn && mx, chose := m.kind == .attn }
  else if m.kind == .attn then waitFor .other
  else kvRun n m) s
/-- GROUP_COMMAND_RUN (R314). -/
def execGroupCommandRun (n : Nat) (s : State) : Res := occurs (tryGroupCommandRun n s) s

/-! ## Reading rows (R297, R519) -/

/-- Elements 0 to d - 1 of a row at an address, with the flags and the first bad block of reading them. -/
def rowRead (n : Nat) (m : GCmd) (va : Nat) : Op (List Val × Nat × Option (Nat × Nat)) := do
  let bs ← groupRead n m va m.rowLen
  let num := fun o l => ofBytes ((bs.drop o).take l)
  match m.et.blkW with
  | none =>
    let f := if m.et.code = 10 then Fmt.fp16 else Fmt.bf16
    return ((List.range m.dim).map fun c => f.decode (num (2 * c) 2), 0, none)
  | some w =>
    let es := (List.range m.dim).map fun c =>
      let o := 64 * (c / blkN w)
      let f := (ETy.blk w).field c
      blkMean (num o 2) w (bitsAt (num f.1 f.2) ((ETy.blk w).bitOff c) w) (va + o)
    return (es.map (·.1.val), es.foldl (fun a e => a ||| e.2.1) 0, es.findSome? (·.2.2))

/-- What reading rows has met so far. -/
structure ReadLog where
  flags : Nat
  bad : Option (Nat × Nat)
  deriving DecidableEq, Repr

/-- Read a row and add to the log. -/
def rowLogged (n : Nat) (m : GCmd) (lg : ReadLog) (va : Nat) : Op (List Val × ReadLog) := do
  let r ← rowRead n m va
  return (r.1, ⟨lg.flags ||| r.2.1, lg.bad.orElse fun _ => r.2.2⟩)

/-- Read several rows. -/
def rowsLogged (n : Nat) (m : GCmd) : ReadLog → List Nat → Op (List (List Val) × ReadLog)
  | lg, [] => pure ([], lg)
  | lg, va :: r => do
    let (x, lg) ← rowLogged n m lg va
    let (xs, lg) ← rowsLogged n m lg r
    return (x :: xs, lg)

/-! ## The softmax (R302) -/

/-- fp32 minus infinity. -/
def f32NegInf : Nat := 0xFF800000
/-- RoundW(v, fp32, RNE). -/
def toF32 (v : Val) : Nat := (roundW Fmt.fp32 Rnd.rne v).1
/-- RoundW(v, w48, RNE). -/
def toW48 (v : Val) : Nat := (roundW Fmt.w48 Rnd.rne v).1
/-- Exp2 of an fp32 pattern. -/
def exp2F32 (x : Nat) : Nat := toF32 (specFn .exp2 (Fmt.fp32.decode x)).1

/-- A list in slices of 32. -/
def slices32 {α : Type} : Nat → List α → List (List α)
  | 0, _ => []
  | k + 1, l => l.take 32 :: slices32 k (l.drop 32)

/-- The accumulation of R81 over pairs, from a starting value. -/
def sliceSums (exact : Bool) (start : Nat) (pairs : List (Val × Val)) : Nat × Nat :=
  (slices32 (ceilDiv pairs.length 32) pairs).foldl
    (fun (a : Nat × Nat) sl => let r := accumulate a.1 (sliceVal exact sl); (r.1, a.2 ||| r.2)) (start, 0)

/-- The value 1. -/
def oneVal : Val := .num ⟨false, 1, 0, false⟩
/-- The value +0. -/
def zeroVal : Val := .num (Ex.zero false)

/-- A row before its first page. -/
def AttnRow.start (d : Nat) : AttnRow := ⟨false, f32NegInf, 0, List.replicate d 0⟩

/-- One page's part of a row: scores and value rows of the enabled positions, by position. -/
def rowPage (r : AttnRow) (scores : List (Nat × Nat)) (vals : List (Nat × List Val)) : AttnRow × Nat :=
  let ss := scores.map fun p => Fmt.fp32.decode p.2
  let poison := ss.any fun v => v.isNan || (match v with
    | .inf neg => !neg
    | _ => false)
  if poison then ({ r with nan := true }, flNV)
  else
    let m := Fmt.fp32.decode r.m
    let m2 := ss.foldl (fun a v => if a.lt v then v else a) m
    match m2 with
    | .inf true => (r, 0)
    | _ =>
      let ex := fun v => Fmt.fp32.decode (exp2F32 (toF32 (fSub 0 v m2).1))
      let c := ex m
      let p := fun j => match smapGet j scores with
        | some s => ex (Fmt.fp32.decode s)
        | none => zeroVal
      let lc := fMul (Fmt.w48.decode r.l) c
      let l := sliceSums false (toW48 lc.1) ((List.range 64).map fun j => (p j, oneVal))
      let os := r.o.zipIdx.map fun o =>
        let oc := fMul (Fmt.w48.decode o.1) c
        let v := fun j => match smapGet j vals with
          | some row => (row[o.2]?).getD zeroVal
          | none => zeroVal
        let s := sliceSums false (toW48 oc.1) ((List.range 64).map fun j => (p j, v j))
        (s.1, oc.2 ||| s.2)
      ({ r with m := toF32 m2, l := l.1, o := os.map (·.1) }, lc.2 ||| l.2 ||| os.foldl (fun a o => a ||| o.2) 0)

/-- Enabled positions of an entry under a step-mask word (R298, R299). -/
def enabledAt (w0 w1 mask : Word) : List Nat :=
  if fld w0 0 48 = 0 then []
  else (List.range 64).filter fun j => j < fillOf w0 && w1.getLsbD j && mask.getLsbD j

/-- The step-mask word of a query block and a page. -/
def stepMask (n : Nat) (m : GCmd) (qb k : Nat) : Op Word :=
  let b := fld (m.w 5) 0 48
  if b = 0 then pure (BitVec.allOnes 64) else cmdWord n m (b + 8 * (qb * m.npages + k))

/-- Rows of a query block. -/
def GCmd.rowsOf (m : GCmd) (qb : Nat) : List Nat := (List.range (min 16 (m.nq - 16 * qb))).map (16 * qb + ·)

/-- A sump entry for the first bad block that a command reads (R519). -/
def badBlockSump (n : Nat) (m : GCmd) (bad : Option (Nat × Nat)) : Op Unit := do
  match bad, m.badSeen with
  | some (c, a), false =>
    modify fun s =>
      sumpWrite s m.ctx { die := dieOf n, sq := n, isn := some m.isn, source := 2, cause := c, addr := toWord a }
  | _, _ => pure ()

/-- The charges of one page: the quota's, and the bank softmax's on the matrix-engine path in the energy-budget regime
(R326; 21 R494). -/
def pageCharge (n : Nat) (m : GCmd) : Op Unit := do
  if m.onMatrix then payOp (dieOf n) (.page n) [48]
  modify fun s => chargeCtx s m.ctx 300000

/-- One page of the query block in progress: the command after it. A PAGE field that is not a multiple of 64 is used as it stands (log
72). -/
def attnPage (n : Nat) (m : GCmd) (rows : List AttnRow) : Op GCmd := do
  let qb := m.qb0 + m.qb
  let w0 ← cmdWord n m (m.entry m.page)
  let w1 ← cmdWord n m (m.entry m.page + 8)
  let mask ← stepMask n m qb m.page
  let en := enabledAt w0 w1 mask
  if en.isEmpty || rows.all (·.nan) then return { m with page := m.page + 1, rows := rows }
  else
    let page := fld w0 0 48
    let qa := fun r => fld (m.w 2) 0 48 + r * fld (m.w 8) 0 32
    let (qs, lg) ← rowsLogged n m ⟨0, none⟩ ((m.rowsOf qb).map qa)
    let (ks, lg) ← rowsLogged n m lg (en.map fun j => page + j * m.pitch)
    let (vs, lg) ← rowsLogged n m lg (en.map fun j => page + (64 + j) * m.pitch)
    pageCharge n m
    let exact := m.et.blkW.isSome
    let scale := Fmt.fp32.decode (fld (m.w 7) 0 32)
    let one := fun (r : AttnRow) (q : List Val) =>
      if r.nan then (r, 0) else
      let dots := (en.zip ks).map fun p => (p.1, sliceSums exact 0 (q.zip p.2))
      let scores := dots.map fun p => (p.1, toF32 (fMul scale (Fmt.w48.decode p.2.1)).1)
      let x := rowPage r scores (en.zip vs)
      (x.1, x.2 ||| dots.foldl (fun a p => a ||| p.2.2) 0)
    let out := (rows.zip qs).map fun p => one p.1 p.2
    badBlockSump n m lg.bad
    return { m with page := m.page + 1, rows := out.map (·.1), badSeen := m.badSeen || lg.bad.isSome,
                    flags := out.foldl (fun a o => a ||| o.2) (m.flags ||| lg.flags) }

/-- The output bytes of a row and the flags of rounding them (R302). -/
def rowOut (m : GCmd) (r : AttnRow) : List Byte × Nat :=
  let t := m.oty
  let rd : Rnd := ⟨fld (m.w 9) 21 3, (m.w 9).getLsbD 24, 0⟩
  let os := r.o.map fun o =>
    if r.nan then (t.fmt.nan, 0)
    else if r.l = 0 then (0, 0)
    else
      let x := deliver t rd (.exact (fDiv (Fmt.w48.decode o) (Fmt.w48.decode r.l)).1 0)
      (x.1, x.2 &&& (flOF ||| flSAT))
  ((os.map fun o => bytesOf t.size o.1).flatten, os.foldl (fun a o => a ||| o.2) 0)

/-- The statistics of a row (R301). -/
def rowStat (r : AttnRow) : List Byte :=
  bytesOf 8 (if r.nan then Fmt.fp32.nan else r.m) ++ bytesOf 8 (if r.nan then Fmt.w48.nan else r.l)

/-- Outputs and statistics of the rows of a block; false when the group has failed. -/
def rowsWrite (n : Nat) (m : GCmd) : List (Nat × AttnRow) → Op Bool
  | [] => pure true
  | (r, x) :: rest => do
    if ← groupWrite n m (fld (m.w 3) 0 48 + r * fld (m.w 8) 32 32) (rowOut m x).1 then
      let st := fld (m.w 6) 0 48
      let ok ← if st = 0 then pure true else groupWrite n m (st + 16 * r) (rowStat x)
      if ok then rowsWrite n m rest else return false
    else return false

/-- Rows 448 to 511 of the matrix engine's store hold +0 (R307). -/
def clearAttnRows (n : Nat) (m : GCmd) : Op Unit := do
  let s ← get
  match liveLease s (dieOf n) m.ctx (m.w 1) with
  | some l =>
    if l.kind = 0 && l.st.powered then
      modify fun s => s.modDie (dieOf n) fun d =>
        let e := d.engine l.engine
        d.setEngine { e with acc := e.acc.filter fun p => p.1 / 128 < 448 }
  | none => pure ()

/-- The end of a query block, and of the command with its last one. -/
def attnBlockEnd (n : Nat) (m : GCmd) (rows : List AttnRow) : Op Unit := do
  let qb := m.qb0 + m.qb
  let fl := rows.foldl (fun a r => a ||| (rowOut m r).2) m.flags
  if ← rowsWrite n m ((m.rowsOf qb).zip rows) then
    if m.qb + 1 ≥ m.nqb then
      if m.hint != .ae then clearAttnRows n m
      endHead n m.runId fl
    else modHead n fun m => { m with qb := m.qb + 1, page := 0, rows := [], flags := fl }
  else pure ()

/-- The rows of the query block in progress. -/
def GCmd.rowsNow (m : GCmd) : List AttnRow :=
  if m.page = 0 then (m.rowsOf (m.qb0 + m.qb)).map fun _ => AttnRow.start m.dim else m.rows

/-- A command whose group has closed is at its stop; a lease that has waited for that, its context having ended, goes FREE (09 R235). -/
def endStop (n : Nat) (m : GCmd) (s : State) : State :=
  let s := s.modSeq n fun q => { q with stopping := q.stopping.drop 1 }
  match liveLease s (dieOf n) m.ctx (m.w 0) with
  | some l => if l.ending then freeLease s (dieOf n) l.ctx l.slot else s
  | none => s

/-- The attention engine of a closed group does the next page of its query block, or stops at the block's end (R322). -/
def tryAttnStop (n : Nat) (m : GCmd) (s : State) : Ev :=
  if s.pkg.frozen then none
  else unitMove (groupWho n) (dieOf n) m.ctx n (do
    let s ← get
    if m.page ≥ m.npages || !s.canBegin m.ctx || (attnLease s n m).isNone then set (endStop n m s)
    else match ← attempt (attnPage n m m.rowsNow) with
      | .ok m' => modSeqOp n fun q => { q with stopping := m' :: q.stopping.drop 1 }
      | .error (.trap _) => modify (endStop n m)
      | .error (.mcheck a p) =>
        modify (endStop n m)
        throw (.mcheck a p)
      | .error e => throw e) s

/-- The running ATTN does its next page, or ends its query block; a lost lease fails the group (R320). -/
def tryAttnQueryBlock (n : Nat) (s : State) : Ev := match (s.seq n).stopping with
 | c :: _ => tryAttnStop n c s
 | [] => groupUnit n (fun m => do
  let s ← get
  if m.kind != .attn || !m.began then waitFor .other
  else match attnLease s n m with
    | none => failGroup n 1 m.isn
    | some false => waitFor .other
    | some true =>
      if m.page < m.npages then
        let m' ← attnPage n m m.rowsNow
        modHead n fun _ => m'
      else attnBlockEnd n m m.rowsNow) s
/-- ATTN_QUERY_BLOCK (R302). -/
def execAttnQueryBlock (n : Nat) (s : State) : Res := occurs (tryAttnQueryBlock n s) s

end Sys2Proof.Machine
end

