-- ==== Sys2Proof/Machine/Barriers.lean ====
section
/-!
DEFINITION. Barrier units (spec/19_barriers.md R452 to R464).
-/
namespace Sys2Proof.Machine

/-- The instance of a scope that contains sequencer n (R452). -/
def scopeInst (q : Seq) (n : Nat) : BScope → Nat
  | .clu => n / 4
  | .die => dieOf n
  | .pkg => 0
  | .stg => q.stage

/-- A unit's place. -/
structure UnitId where
  scope : BScope
  inst : Nat
  unit : Nat
  deriving DecidableEq, Repr

/-- The unit is the one of an entry. -/
def UnitId.is (u : UnitId) (b : Barrier) : Bool := b.scope == u.scope && b.inst == u.inst && b.unit == u.unit

/-- The bound unit, if it is bound. -/
def State.bar (s : State) (u : UnitId) : Option Barrier := s.bars.find? u.is

/-- Put a bound unit, or free it. -/
def State.setBar (s : State) (u : UnitId) (b : Option Barrier) : State :=
  let rest := s.bars.filter fun x => !u.is x
  { s with bars := match b with
    | some b => b :: rest
    | none => rest }

/-- The checks of R456: the unit of an instruction of sequencer n and its state. -/
def barCheck (n : Nat) (sc : BScope) (ra : Reg) (free : Bool) : Op (UnitId × Option Barrier) := do
  let s ← get
  let q := s.seq n
  let x := q.getX ra
  let u : UnitId := ⟨sc, scopeInst q n sc, x.toNat⟩
  if x.toNat > 7 then trapWith 0x15 0
  else match s.bar u with
    | some b => if b.owner = q.ctx then pure (u, some b) else trapWith 0x15 0
    | none => if free then pure (u, none) else trapWith 0x15 0

/-- BARCFG (R457). -/
def execBarcfg (sc : BScope) (ra rb : Reg) (s : State) : Res :=
  issue (.barcfg sc ra rb) (fun n => do
    let q ← getSeq n
    let (u, b) ← barCheck n sc ra true
    let v := q.getX rb
    let c := fld v 0 16
    if fld v 16 48 != 0 then trapWith 0x0B 0
    else match b with
      | none =>
        if c != 0 then modify fun s => s.setBar u (some ⟨u.scope, u.inst, u.unit, q.ctx, c, 0, 0, []⟩)
        pure .next
      | some b =>
        if b.a > 0 then trapWith 0x15 0
        else
          modify fun s => s.setBar u (if c = 0 then none else some { b with n := c })
          pure .next) s

/-- Insert an arrival into a batch, in ascending logical number (21 R500). -/
def batchAdd (x : Nat × Nat × Nat) : List (Nat × Nat × Nat) → List (Nat × Nat × Nat)
  | [] => [x]
  | p :: r => if x.1 < p.1 then x :: p :: r else p :: batchAdd x r

/-- How a wait on a token stands (R454): 0 it waits, 1 it is met, 2 it is ahead. -/
def waitState (p : BitVec 32) (token : Word) : Nat :=
  let d := (p - BitVec.ofNat 32 (fld token 0 32)).toNat
  if d = 0 then 0 else if d ≤ 2 ^ 31 then 1 else 2

/-- The ARRWAIT that sequencer n has in flight, with its unit. -/
def arrwaitOf (q : Seq) (n : Nat) : Option (Entry × UnitId) := match q.inflight.getLast? with
  | some e => match e.ins with
    | .arrwait sc _ => some (e, ⟨sc, scopeInst q n sc, ((e.cap[2]?).getD 0).toNat⟩)
    | _ => none
  | none => none

/-- The arrival that completes a phase has released an ARRWAIT, which pulls nothing else (R464). -/
def Entry.released (e : Entry) : Bool := !e.pulled.isEmpty

/-- A phase of a unit is complete: the waits of its context that it meets are released, whatever becomes of the unit before they end
(R464). -/
def releaseWaits (s : State) (u : UnitId) (b : Barrier) : State :=
  let free := fun (n : Nat) (q : Seq) =>
    if q.ctx != b.owner then q
    else match q.sleep with
      | some (.barrier sc k t false) =>
        if u == ⟨sc, scopeInst q n sc, k⟩ && waitState b.p t == 1 then { q with sleep := some (.barrier sc k t true) } else q
      | some _ => q
      | none => match arrwaitOf q n with
        | some (e, v) =>
          if u == v && waitState b.p e.token == 1 then q.modEntry e.isn fun e => { e with pulled := [(0, 0, 0)] } else q
        | none => q
  { s with seqs := s.seqs.map fun p => (p.1, free p.1 p.2) }

/-- An arrival at a unit (R458): the token, and whether it completed the phase; in determinism mode the writes
held at the arrivals of the phase are performed when it completes; until then the sequencer holds them (21 R500). -/
def arriveAt (n : Nat) (u : UnitId) (b : Barrier) : Op Word := do
  let s ← get
  let q := s.seq n
  let batch := if q.held.isEmpty then b.batch else batchAdd (q.logical, n, q.heldNum) b.batch
  if b.a + 1 = b.n then
    for p in batch do needDrain p.2.1
    let b' := { b with a := 0, p := b.p + 1, batch := [] }
    modify fun s => releaseWaits ((batch.foldl (fun s p => drainUpto p.2.1 p.2.2 s) s).setBar u (some b')) u b'
    pure (toWord (2 ^ 63 + b.p.toNat))
  else
    modify fun s => s.setBar u (some { b with a := b.a + 1, batch := batch })
    pure (toWord b.p.toNat)

/-- ARRIVE (R458): a release, which waits for every lower instruction. -/
def execArrive (sc : BScope) (rd ra : Reg) (s : State) : Res :=
  issue (.arrive sc rd ra) (fun n => do
    match ← barCheck n sc ra false with
    | (u, some b) => do
      needDone n
      let t ← arriveAt n u b
      putX n rd t
      pure .next
    | (_, none) => trapWith 0x15 0) s

/-- WAITB (R459): it completes, sleeps, or traps on a token that is ahead, with its ISN taken (R456). -/
def execWaitb (sc : BScope) (ra rb : Reg) (s : State) : Res :=
  issue (.waitb sc ra rb) (fun n => do
    match ← barCheck n sc ra false with
    | (u, some b) =>
      let q ← getSeq n
      match waitState b.p (q.getX rb) with
      | 0 => do
        modSeqOp n fun q => { q with sleep := some (.barrier sc u.unit (q.getX rb) false) }
        pure .stay
      | 1 => pure .next
      | _ => throw (.ltrap ⟨0x15, 0, 0⟩)
    | (_, none) => trapWith 0x15 0) s

/-- The in-flight entry of an ARRWAIT, which holds its token as R377 and R460 say (log 36). -/
def Seq.arrwaitEntry (q : Seq) (i : Instr) (ra : Reg) (t : Word) : Entry :=
  { isn := q.isn, pc := q.pc, ins := i, cap := [0, 0, q.getX ra, 0, 0, 0, 0, t, 0], capB1 := 0, capC1 := 0, vl := q.vl,
    vtype := q.vtype, maskAddr := 0, cvalid := q.cvalid, cgkey := q.cgkey, cgdraw := q.cgdraw,
    cldL := q.cld &&& 0xFFFFFFFFFFFF, sdest := none, token := t, gs := List.replicate q.g ⟨0, false, [], false⟩,
    pulled := [], waves := q.g, flags := 0, owners := [], odd := [] }

/-- ARRWAIT (R460): it arrives, and stays in flight unless its arrival completed the phase. -/
def execArrwait (sc : BScope) (ra : Reg) (s : State) : Res :=
  issue (.arrwait sc ra) (fun n => do
    match ← barCheck n sc ra false with
    | (u, some b) => do
      needDone n
      let t ← arriveAt n u b
      if !t.getLsbD 63 then modSeqOp n fun q => { q with inflight := q.inflight ++ [q.arrwaitEntry (.arrwait sc ra) ra t] }
      pure .next
    | (_, none) => trapWith 0x15 0) s

/-- A wait's unit and token: met, still waiting, or no longer this context's, or ahead, which an instruction that has taken its ISN
reports (R456, R459). -/
def waitMet (n : Nat) (u : UnitId) (t : Word) : Op Unit := do
  let s ← get
  match s.bar u with
  | some b =>
    if b.owner != (s.seq n).ctx then throw (.ltrap ⟨0x15, 0, 0⟩)
    else match waitState b.p t with
      | 0 => waitFor .other
      | 1 => pure ()
      | _ => throw (.ltrap ⟨0x15, 0, 0⟩)
  | none => throw (.ltrap ⟨0x15, 0, 0⟩)

/-- A waiting WAITB or ARRWAIT is met. The trap of an ARRWAIT is an issue trap of its own ISN and address (15 R375;
log 36). -/
def tryBarrierWaitMet (n : Nat) (s : State) : Ev :=
  let q := s.seq n
  match q.sleep with
  | some (.barrier sc u t met) => wake n (do
      if !met then waitMet n ⟨sc, scopeInst q n sc, u⟩ t
      finishSleep n (.waitb sc 0 0)) s
  | some _ => none
  | none => match arrwaitOf q n with
    | none => none
    | some (e, u) =>
      let leave := fun (s : State) => s.modSeq n fun q => { q with inflight := q.inflight.filter fun x => x.isn != e.isn }
      if q.mode != .run || s.pkg.frozen then none
      else if e.released then some (.next (leave s))
      else match (waitMet n u e.token).run s with
        | .ok _ s => some (.next (leave s))
        | .error (.ltrap r) s =>
          some (.next (trapEnter (leave s) n r { (s.seq n).issueHdr e.pc with isn := e.isn, pc := e.pc }))
        | .error _ _ => none
/-- BARRIER_WAIT_MET (R461). -/
def execBarrierWaitMet (n : Nat) (s : State) : Res := occurs (tryBarrierWaitMet n s) s

end Sys2Proof.Machine
end

