-- ==== Sys2Proof/Machine/Cobbler.lean ====
section
/-!
DEFINITION. How the cobblers of a queue's home die reach memory under the queue's page table
(spec/16_queues.md R410, R414), and the moves of a cobbler.
-/
namespace Sys2Proof.Machine

/-- The number of a queue's cobbler among the agents that wait on migrating pages. -/
def queueWho (q : Nat) : Nat := 4096 + q
/-- The number that stands for a queue's address space among those agents' contexts. -/
def queueCtx (q : Nat) : Nat := 2 ^ 32 + q

/-- Who accesses for a queue: its number, its home die and the cptbase value. -/
structure Cob where
  q : Nat
  home : Nat
  root : Word
  deriving DecidableEq, Repr

/-- Translate an access for a queue; one that its way does not carry fails, and counts a DROP where a link is DOWN (20 R470). -/
def Cob.addr (c : Cob) (va : Nat) (acc : Access) : Op Phys := do
  let s ← get
  let mine := fun (m : MigWait) => m.sq == queueWho c.q && m.ctx == queueCtx c.q && m.va == va
  let (x, s') := xlateRoot s c.home c.root va acc (s.migs.any fun m => mine m && m.expired)
  match x with
  | .migr => waitFor (.migrating va)
  | .mcheck k => throw (.mcheck k true)
  | .held => waitFor .other
  | .ok p => do
    set ({ s' with migs := s'.migs.filter fun m => !mine m } : State)
    match s'.wayTo c.home p.key with
    | .fails k =>
      modify fun s => s.countDrop k
      trapWith 0x05 va
    | .refused => trapWith 0x05 va
    | .held => waitFor .other
    | .clear => pure p
  | _ => do
    set ({ s' with migs := s'.migs.filter fun m => !mine m } : State)
    trapWith 0x05 va

/-- Read n bytes that lie in one page; an empty cistern word waits. -/
def Cob.read (c : Cob) (va n : Nat) : Op (List Byte) := do
  let p ← c.addr va .load
  if p.tier = 0 then readForeign va p.key n false else readKey (some va) p.key n

/-- The cobblers of die d reach a physical address; where a link is DOWN, the access is dropped and counted (20 R470). -/
def cobReaches (d key : Nat) : Op Bool := do
  match (← get).wayTo d key with
  | .clear => pure true
  | .held => waitFor .other
  | .fails k => do
    modify fun s => s.countDrop k
    pure false
  | .refused => pure false

/-- Write bytes at a translated place. -/
def Cob.write (c : Cob) (va : Nat) (p : Phys) (bs : List Byte) : Op Unit := do
  dirtyOp c.home p
  taskWrite p.tier va p.key bs

/-- Read n 64-bit words. -/
def Cob.words (c : Cob) (va n : Nat) : Op (List Word) :=
  (List.range n).mapM fun k => do return toWord (ofBytes (← c.read (va + 8 * k) 8))

/-- Read bytes page by page, in `fuel` runs at most. -/
def Cob.bytes (c : Cob) : Nat → Nat → Nat → Op (List Byte)
  | 0, _, _ => pure []
  | fuel + 1, va, n =>
    if n = 0 then pure []
    else do
      let k := min n (4096 - va % 4096)
      let a ← c.read va k
      let b ← c.bytes fuel (va + k) (n - k)
      pure (a ++ b)

/-- An access that fails, or that meets an uncorrectable error, answers nothing (R410, R414). -/
def Cob.try {α : Type} (m : Op α) : Op (Option α) := do
  match ← attempt m with
  | .ok a => pure (some a)
  | .error (.trap _) | .error (.mcheck _ _) => pure none
  | .error e => throw e

/-- A move of the cobblers for queue q: a wait on a migrating page is recorded. -/
def cobMove (q : Nat) (m : Op Unit) (s : State) : Ev :=
  if s.pkg.frozen then none
  else match m.run s with
    | .ok _ s' => some (.next s')
    | .error (.wait (.migrating va)) _ =>
      let s' := s.addMig (queueWho q) (queueCtx q) va
      if s'.migs.length = s.migs.length then none else some (.next s')
    | .error (.fault f) _ => some (.fault f)
    | .error _ _ => none

end Sys2Proof.Machine
end

