-- ==== Sys2Proof/Machine/Crypto.lean ====
section
/-!
DEFINITION. SHA-256 and the check of ECDSA signatures over P-256, which the spec names for kernel images (spec/17 R424,
R437, R438) and firmware images (spec/16 R420). Both algorithms are the public standards; the spec gives their names
alone (log 30).
-/
namespace Sys2Proof.Machine

/-! ## SHA-256 -/

/-- A 32-bit word of SHA-256. -/
abbrev W32 := BitVec 32

/-- The largest number whose e-th power is at most n, when r has its bits from k up: the lower bits follow one by one. -/
def intRoot (e n : Nat) : Nat → Nat → Nat
  | 0, r => r
  | k + 1, r => intRoot e n k (if (r + 2 ^ k) ^ e ≤ n then r + 2 ^ k else r)

/-- The first 64 primes. -/
def shaPrimes : List Nat := (List.range 312).filter fun n => 2 ≤ n && (List.range n).all fun d => d < 2 || n % d != 0

/-- 32 bits of the fraction of the e-th root of a prime. -/
def rootWord (e p : Nat) : W32 := BitVec.ofNat 32 (intRoot e (p * 2 ^ (32 * e)) 37 0)

/-- The constants of the rounds: the cube roots of the primes. -/
def roundConsts : List W32 := shaPrimes.map (rootWord 3)

/-- Half of the working variables, from the newest word of its chain to the oldest. -/
structure ShaHalf where
  w0 : W32
  w1 : W32
  w2 : W32
  w3 : W32
  deriving DecidableEq, Repr

/-- A word enters a chain. -/
def ShaHalf.push (q : ShaHalf) (v : W32) : ShaHalf := ⟨v, q.w0, q.w1, q.w2⟩

/-- The sum of two halves, word by word. -/
def ShaHalf.plus (q r : ShaHalf) : ShaHalf := ⟨q.w0 + r.w0, q.w1 + r.w1, q.w2 + r.w2, q.w3 + r.w3⟩

/-- The halves that the square roots of four primes give. -/
def ShaHalf.start (k : Nat) : ShaHalf :=
  let r := fun j => rootWord 2 ((shaPrimes[k + j]?).getD 0)
  ⟨r 0, r 1, r 2, r 3⟩

/-- The exclusive or of a word's rotations. -/
def turned (ks : List Nat) (w : W32) : W32 := ks.foldl (fun a k => a ^^^ w.rotateRight k) 0

/-- The word that follows a window of sixteen words of the message schedule. -/
def nextWord (w : List W32) : W32 :=
  let v := fun k => (w[k]?).getD 0
  v 0 + v 9 + (turned [7, 18] (v 1) ^^^ v 1 >>> 3) + (turned [17, 19] (v 14) ^^^ v 14 >>> 10)

/-- One round: the sum of constant and schedule word enters both chains. -/
def shaTurn (kw : W32) (u v : ShaHalf) : ShaHalf × ShaHalf :=
  let pick := v.w2 ^^^ (v.w0 &&& (v.w1 ^^^ v.w2))
  let most := (u.w0 &&& (u.w1 ||| u.w2)) ||| (u.w1 &&& u.w2)
  let t := kw + v.w3 + pick + turned [6, 11, 25] v.w0
  (u.push (t + most + turned [2, 13, 22] u.w0), v.push (u.w3 + t))

/-- The rounds of the given constants over a sliding window of the schedule. -/
def shaTurns : List W32 → List W32 → ShaHalf × ShaHalf → ShaHalf × ShaHalf
  | [], _, h => h
  | k :: ks, win, h => shaTurns ks (win.drop 1 ++ [nextWord win]) (shaTurn (k + (win.head?).getD 0) h.1 h.2)

/-- The number of big-endian bytes. -/
def bigNat (bs : List Byte) : Nat := ofBytes bs.reverse

/-- The bytes of a number, most significant first. -/
def bigBytes (n v : Nat) : List Byte := (bytesOf n v).reverse

/-- The hash after each block of n that remain of a padded message. -/
def shaFrom : Nat → List Byte → ShaHalf × ShaHalf → ShaHalf × ShaHalf
  | 0, _, h => h
  | n + 1, bs, h =>
    let win := (List.range 16).map fun j => BitVec.ofNat 32 (bigNat ((bs.drop (4 * j)).take 4))
    let g := shaTurns roundConsts win h
    shaFrom n (bs.drop 64) (h.1.plus g.1, h.2.plus g.2)

/-- SHA-256 of bytes, as a number of 256 bits whose most significant byte comes first. -/
def sha256 (bs : List Byte) : Nat :=
  let blocks := (bs.length + 8) / 64 + 1
  let tail := bigBytes (64 * blocks - bs.length - 1) (8 * bs.length)
  let h := shaFrom blocks (bs ++ 0x80 :: tail) (ShaHalf.start 0, ShaHalf.start 4)
  [h.1.w0, h.1.w1, h.1.w2, h.1.w3, h.2.w0, h.2.w1, h.2.w2, h.2.w3].foldl (fun a w => a <<< 32 ||| w.toNat) 0

/-! ## P-256 -/

/-- The field prime. -/
def p256 : Nat := 0xffffffff00000001000000000000000000000000ffffffffffffffffffffffff
/-- The order of the base point. -/
def n256 : Nat := 0xffffffff00000000ffffffffffffffffbce6faada7179e84f3b9cac2fc632551
/-- The curve's b. -/
def b256 : Nat := 0x5ac635d8aa3a93e7b3ebbd55769886bc651d06b0cc53b0f63bce3c3e27d2604b
/-- The base point. -/
def g256 : Nat × Nat :=
  (0x6b17d1f2e12c4247f8bce6e563a440f277037d812deb33a0f4a13945d898c296,
   0x4fe342e2fe1a7f9b8ee7eb4a7c0f9e162bce33576b315ececbb6406837bf51f5)

/-- A point in Jacobian coordinates; Z = 0 at infinity. -/
structure JPoint where
  x : Nat
  y : Nat
  z : Nat
  deriving DecidableEq, Repr

/-- The point at infinity. -/
def JPoint.inf : JPoint := ⟨1, 1, 0⟩

/-- a - b in the field. -/
def fsub256 (a b : Nat) : Nat := (a + p256 - b % p256) % p256

/-- Twice a point (a = -3). -/
def JPoint.dbl (q : JPoint) : JPoint :=
  let zz := q.z * q.z % p256
  let yy := q.y * q.y % p256
  let s := 4 * q.x * yy % p256
  let m := 3 * fsub256 q.x zz * ((q.x + zz) % p256) % p256
  let x := fsub256 (m * m) (2 * s)
  ⟨x, fsub256 (m * fsub256 s x) (8 * yy * yy), 2 * q.y * q.z % p256⟩

/-- The sum of two points. -/
def JPoint.add (a b : JPoint) : JPoint :=
  if a.z = 0 then b
  else if b.z = 0 then a
  else
    let z1 := a.z * a.z % p256
    let z2 := b.z * b.z % p256
    let u1 := a.x * z2 % p256
    let u2 := b.x * z1 % p256
    let s1 := a.y * z2 % p256 * b.z % p256
    let s2 := b.y * z1 % p256 * a.z % p256
    if u1 = u2 then (if s1 = s2 then a.dbl else JPoint.inf)
    else
      let h := fsub256 u2 u1
      let r := fsub256 s2 s1
      let h2 := h * h % p256
      let h3 := h * h2 % p256
      let v := u1 * h2 % p256
      let x := fsub256 (r * r) (h3 + 2 * v)
      ⟨x, fsub256 (r * fsub256 v x) (s1 * h3), a.z * b.z % p256 * h % p256⟩

/-- k times a point, over n bits of k from the highest down. -/
def JPoint.mul (q : JPoint) (k : Nat) : Nat → JPoint → JPoint
  | 0, acc => acc
  | n + 1, acc =>
    let d := acc.dbl
    JPoint.mul q k n (if k.testBit n then d.add q else d)

/-- b to the power e modulo m, over n bits of e from the highest down. -/
def powMod (m b e : Nat) : Nat → Nat → Nat
  | 0, acc => acc
  | n + 1, acc =>
    let d := acc * acc % m
    powMod m b e n (if e.testBit n then d * b % m else d)

/-- A public key is a point of the curve. -/
def onCurve (x y : Nat) : Bool :=
  x < p256 && y < p256 && y * y % p256 == (x * x % p256 * x + (p256 - 3) * x + b256) % p256

/-- The ECDSA check of a signature (r, s) over a digest against a public key. -/
def ecdsaOk (x y digest r s : Nat) : Bool :=
  if !onCurve x y || r = 0 || r ≥ n256 || s = 0 || s ≥ n256 then false
  else
    let w := powMod n256 s (n256 - 2) 256 1
    let u1 := digest * w % n256
    let u2 := r * w % n256
    let q := (JPoint.mul ⟨g256.1, g256.2, 1⟩ u1 256 JPoint.inf).add (JPoint.mul ⟨x, y, 1⟩ u2 256 JPoint.inf)
    if q.z = 0 then false
    else
      let zi := powMod p256 q.z (p256 - 2) 256 1
      q.x * (zi * zi % p256) % p256 % n256 == r

end Sys2Proof.Machine
end

