-- ==== Sys2Proof/Machine/Kernel.lean ====
section
/-!
DEFINITION. Kernels: the image and its checks (spec/17_kernels.md R424, R425, R430, R437), placement (R426 to R429,
R433, R438), the range of a range kernel (R434, R435) and the end of a kernel (R431, R432), with the start of a
continuation (R425; spec/01_notation.md R18; spec/18_groups.md R440).
-/
namespace Sys2Proof.Machine

/-! ## The image (R424) -/

/-- The header of a kernel image. -/
structure Header where
  w : List Word
  deriving DecidableEq, Repr

/-- Word k of the header. -/
def Header.word (h : Header) (k : Nat) : Word := (h.w[k]?).getD 0
/-- IMGLEN. -/
def Header.imgLen (h : Header) : Nat := fld (h.word 0) 0 32
/-- SIGNED. -/
def Header.signed (h : Header) : Bool := (h.word 0).getLsbD 40
/-- RANGEK. -/
def Header.rangek (h : Header) : Bool := (h.word 0).getLsbD 41
/-- ENTRY. -/
def Header.entry (h : Header) : Nat := fld (h.word 1) 0 32
/-- NARGK. -/
def Header.nargk (h : Header) : Nat := fld (h.word 1) 32 5
/-- CISTK. -/
def Header.cistk (h : Header) : Nat := fld (h.word 3) 0 32
/-- ARGREG of argument j. -/
def Header.argReg (h : Header) (j : Nat) : Nat := fld (h.word (4 + j / 12)) (5 * (j % 12)) 5
/-- SIGOFF. -/
def Header.sigOff (h : Header) : Nat := fld (h.word 7) 0 32
/-- The ARGREG fields of the kernel's arguments. -/
def Header.argRegs (h : Header) : List Nat := (List.range h.nargk).map h.argReg

/-- The list has no repeats. -/
def distinct : List Nat → Bool
  | [] => true
  | a :: r => !r.contains a && distinct r

/-- The header breaks R424, or ENTRY is not below IMGLEN (R430 code 2). Fields of arguments that the kernel does not
have are bits not named. -/
def Header.bad (h : Header) : Bool :=
  fld (h.word 0) 42 22 != 0 || fld (h.word 0) 32 8 != 1 || fld (h.word 1) 37 27 != 0 || vtVILL (vtWrite (h.word 2)) ||
    fld (h.word 3) 32 32 != 0 || fld (h.word 4) 60 4 != 0 || fld (h.word 5) 60 4 != 0 || fld (h.word 6) 30 34 != 0 ||
    fld (h.word 7) 32 32 != 0 || h.nargk > 30 ||
    ((List.range 30).any fun j => h.nargk ≤ j && h.argReg j != 0) || h.argRegs.any (· < 2) || !distinct h.argRegs ||
    h.entry % 2 != 0 || h.entry < 64 || h.entry ≥ h.imgLen || h.sigOff % 64 != 0 ||
    (if h.signed then h.imgLen != h.sigOff + 72 else h.sigOff != 0)

/-! ## The placement request (R426) -/

/-- SMODE. -/
def layoutSmode (l : Nat) : Nat := bitsAt l 30 2
/-- GREQ. -/
def layoutGreq (l : Nat) : Nat := bitsAt l 20 7
/-- NSEQ. -/
def layoutNseq (l : Nat) : Nat := bitsAt l 16 4 + 1
/-- The dies of DMASK, in ascending order; 0 means the home die alone. -/
def layoutDies (l home : Nat) : List Nat :=
  if bitsAt l 0 16 = 0 then [home] else (List.range 16).filter fun d => l.testBit d
/-- Gmin of a CIST (R427). -/
def gminOf (cist : Nat) : Nat := max 1 (ceilDiv cist twoMB)

/-- The working groups of a die in ascending order (02 R38). -/
def Die.working (d : Die) : List Nat := (List.range 64).filter fun g => !d.lanemap.getLsbD g

/-- LAYOUT is refused (R430 code 7). -/
def layoutBad (s : State) (l home cist : Nat) : Bool :=
  let g := layoutGreq l
  layoutSmode l = 3 || bitsAt l 27 3 != 0 || (g != 0 && g < gminOf cist) ||
    (layoutDies l home).any fun d =>
      let w := (s.die d).working.length
      w = 0 || layoutNseq l * max g (gminOf cist) > w

/-! ## Launch (R430) -/

/-- What a cobbler finds when it starts a LAUNCH: the arguments cannot be read, a refusal with its code, or a kernel. -/
inductive Launched where
  | fault
  | refused (code : Nat)
  | ok (k : Kernel)
  deriving DecidableEq, Repr

/-- The signature block: key index, r and s. -/
def sigOf (b : List Byte) : Nat × Nat × Nat :=
  (bitsAt (ofBytes (b.take 8)) 0 2, bigNat ((b.drop 8).take 32), bigNat ((b.drop 40).take 32))

/-- A signature verifies against an enrolled customer key (R437). -/
def sigOk (s : State) (key digest r t : Nat) : Bool := match s.pkg.custKeys.find? fun k => k.1 == key with
  | some k => ecdsaOk k.2.1 k.2.2 digest r t
  | none => false

/-- The checks of a launch in the order of R430, on packet words w. -/
def launch (c : Cob) (desc w : List Word) : Op Launched := do
  let pw := fun k => (w[k]?).getD (0 : Word)
  let code := (pw 1).toNat
  let narg := fld (pw 0) 24 5
  match ← Cob.try (c.words (pw 2).toNat narg) with
  | none => return .fault
  | some args =>
    match ← Cob.try (do
        let h : Header := ⟨← c.words code 8⟩
        let _ ← c.read (code + h.entry) 2
        let sig ← if h.signed then c.bytes (2 ^ 21) code (h.sigOff + 72) else pure []
        pure (h, sig)) with
    | none => return .refused 1
    | some (h, sig) =>
      if h.bad then return .refused 2
      else
        let s ← get
        let (key, r, t) := sigOf (sig.drop h.sigOff)
        let cist := fld (pw 5) 0 32
        let l := fld (pw 4) 0 32
        if (s.pkg.reqsig && !h.signed) || (h.signed && !sigOk s key (sha256 (sig.take h.sigOff)) r t) then return .refused 3
        else if h.nargk != narg + (if h.rangek then 2 else 0) then return .refused 4
        else if (pw 3 != 0) != h.rangek then return .refused 5
        else if cist < h.cistk then return .refused 6
        else if layoutBad s l c.home cist then return .refused 7
        else
          let digest ← if s.pkg.measureOn then do
              match ← Cob.try (c.bytes (2 ^ 21) code h.imgLen) with
              | some b => pure (some (sha256 b))
              | none => return .refused 1
            else pure none
          return .ok {
            id := s.kernCtr, queue := c.q, st := .placing, ctx := 0, code := code, entry := h.entry,
            vtype := vtWrite (h.word 2), argRegs := h.argRegs, args := args,
            range := if h.rangek then some (pw 3).toNat else none, layout := l, cist := cist, desc := desc,
            digest := digest, keyIndex := if h.signed then key else 0xFF, dies := layoutDies l c.home, seqs := [],
            cells := [] }

/-! ## Placement (R427, R428) -/

/-- HOME of a kernel. -/
def Kernel.home (k : Kernel) : Nat := fld ((k.desc[6]?).getD 0) 60 4
/-- The kernel holds its sequencers, groups and windows. -/
def Kernel.live (k : Kernel) : Bool := match k.st with
  | .running | .ending | .aborting => true
  | _ => false

/-- Sequencers of a die that belong to no kernel, in ascending order. -/
def freeSeqs (s : State) (d : Nat) : List Nat :=
  ((List.range 16).map (16 * d + ·)).filter fun n => !(s.kernels.any fun k => k.live && k.seqs.contains n)

/-- Working groups of a die that lie in no grant, in ascending order. -/
def freeGroups (s : State) (d : Nat) : List Nat :=
  (s.die d).working.filter fun g => !(s.seqs.any fun p => dieOf p.1 == d && p.2.groups.contains g)

/-- Groups of the grant of the sequencer of rank r, when F groups are free (R428). -/
def grantSize (l f r : Nat) : Nat :=
  if layoutGreq l != 0 then layoutGreq l
  else f / layoutNseq l + (if r < f % layoutNseq l then 1 else 0)

/-- Records that a die's queue holds at most (18 R441). -/
def recCapacity : Nat := 262144

/-- A die can take the launch (R427), and its queue has room for the root records (18 R441; log 97). -/
def dieTakes (s : State) (k : Kernel) (d : Nat) : Bool :=
  let n := layoutNseq k.layout
  let f := (freeGroups s d).length
  (freeSeqs s d).length ≥ n && (k.range.isSome || (s.die d).recs.length + n ≤ recCapacity) &&
    (if layoutGreq k.layout != 0 then f ≥ n * layoutGreq k.layout else f / n ≥ gminOf k.cist)

/-- The lowest free aligned span of g shares of 2 MB in a die's range (13 R335). -/
def windowSpan (s : State) (d g : Nat) : Option Nat :=
  let base := cistBase + d * 0x8000000
  let free := fun (o : Nat) => !(s.seqs.any fun p => !p.2.groups.isEmpty &&
    p.2.winPa < base + (o + g) * twoMB && base + o * twoMB < p.2.winPa + twoMB * p.2.groups.length)
  ((List.range (65 - g)).find? free).map fun o => base + o * twoMB

/-- Where the windows of contexts begin in their virtual space: the base that the run of 23 R514 has (log 31). -/
def windowBase : Nat := 0x10000000000
/-- The base virtual address of sequencer n's window (15 R395 reserves 128 MB at each). -/
def windowVa (n : Nat) : Nat := windowBase + n * 0x8000000

/-- The page of table `k` that the cobblers keep for queue q in the reservation of 18 R441 (log 31). -/
def tablePage (q k : Nat) : Nat := mainSize + q * 0x40000 + k * 4096

/-- The table that an entry names; when it names none, the given page is cleared and becomes it. -/
def subTable (s : State) (entry page : Nat) (level : Nat) : Nat × State :=
  let e := toWord (s.mem.num entry 8)
  if eV e && !eLeaf e && !malformed e level then (eFrame e * 4096, s)
  else (page, ({ s with mem := s.mem.zero page (page + 4096) } : State).poke entry (bytesOf 8 (page + 1)))

/-- The address of the level-1 entry of a virtual address in a tree, for queue q. -/
def leafSlot (s : State) (q : Nat) (root : Word) (va : Nat) : Nat × State :=
  let (t2, s) := subTable s (fld root 12 40 * 4096 + 8 * bitsAt va 39 9) (tablePage q 0) 3
  let (t1, s) := subTable s (t2 + 8 * bitsAt va 30 9) (tablePage q (1 + bitsAt va 30 5)) 2
  (t1 + 8 * bitsAt va 21 9, s)

/-- A leaf of tier cistern, kind RC, with R and W, for a physical address (13 R335). -/
def windowLeaf (pa : Nat) : Nat := pa + 0x683

/-- Cached translations of a space that lie in a range of addresses go. -/
def dropTlb (s : State) (space va len : Nat) : State :=
  { s with dies := s.dies.map (·.mapTlb (·.filter fun t =>
      !(t.space == space && t.vpn * 4096 < va + len && va < (t.vpn + t.pages) * 4096))) }

/-- Write the level-1 entries of a window of g shares. -/
def mapWindow (s : State) (q : Nat) (root : Word) (va g : Nat) (leaf : Nat → Nat) : State :=
  let s := (List.range g).foldl (fun s j =>
    let (k, s) := leafSlot s q root (va + j * twoMB)
    s.poke k (bytesOf 8 (leaf j))) s
  dropTlb s (fld root 0 12) va (g * twoMB)

/-- The bytes of a range become 0 and its words full (01 R20). -/
def clearWindow (s : State) (lo hi : Nat) : State :=
  let inside := fun (w : Nat) => lo ≤ 8 * w && 8 * w < hi
  { s with mem := s.mem.zero lo hi, empty := s.empty.filter fun w => !inside w,
           soft := s.soft.filter fun p => !inside p.1, marks := s.marks.filter fun m => !inside m.word,
           landings := s.landings.filter fun l => !(lo ≤ l.addr && l.addr < hi) }

/-- Word w of the descriptor of a kernel's queue. -/
def Kernel.descWord (k : Kernel) (w : Nat) : Word := (k.desc[w]?).getD 0

/-- The context of a kernel, from words 2 to 6 of its queue's descriptor (16 R399). -/
def ctxFor (k : Kernel) (c : Nat) : Ctx :=
  { id := c, kernel := some k.id, cptbase := k.descWord 2 &&& 0xFFFFFFFFFFFFF,
    ctrap := toWord (fld (k.descWord 3) 12 36 * 4096), csump := csumpWrite (k.descWord 4), cdet := 0,
    limit := fld (k.descWord 5) 0 32, balance := fld (k.descWord 5) 0 32 * 1000, st := .active, takeCause := 0,
    halt := ⟨0, 0, 0⟩, saved := [], records := [], logUsed := [] }

/-- SPRI of a kernel's queue. -/
def Kernel.spri (k : Kernel) : Nat := fld (k.descWord 6) 4 2

/-- Give sequencer n its grant, window and, for a kernel without a range, its root record (R428, R433). -/
def placeSeq (s : State) (k : Kernel) (dieRank rank n : Nat) (groups : List Nat) (pa : Nat) : State :=
  let g := groups.length
  let va := windowVa n
  let stage := match layoutSmode k.layout with
    | 1 => dieRank
    | 2 => rank
    | _ => 0
  let s := clearWindow s pa (pa + g * twoMB)
  let s := mapWindow s k.queue (k.descWord 2) va g fun j => windowLeaf (pa + j * twoMB)
  let s := s.modSeq n fun q =>
    { q with kernel := some k.id, ctx := k.ctx, stage := stage, dieRank := dieRank, seqRank := rank, groups := groups,
             winPa := pa, winVa := va, dirtyGran := [], hwm := 0 }
  if k.range.isSome then s
  else s.modDie (dieOf n) fun d =>
    { d with recs := d.recs ++ [⟨k.ctx, some k.id, toWord (k.code + k.entry), 0, 0, k.spri, s.now, 0, n % 16,
        16 * dieRank + rank, 0, some n⟩] }

/-- Place the sequencers of one die one after another; nothing when a window finds no span. -/
def placeSeqs (k : Kernel) (dieRank d f : Nat) : List (Nat × Nat) → State → Option State
  | [], s => some s
  | (n, rank) :: r, s =>
    let gs := (freeGroups s d).take (grantSize k.layout f rank)
    match windowSpan s d gs.length with
    | none => none
    | some pa => placeSeqs k dieRank d f r (placeSeq s k dieRank rank n gs pa)

/-- Place every die. -/
def placeDies (k : Kernel) : List (Nat × Nat) → State → Option State
  | [], s => some s
  | (d, rank) :: r, s =>
    match placeSeqs k rank d (freeGroups s d).length ((freeSeqs s d).take (layoutNseq k.layout)).zipIdx s with
    | none => none
    | some s => placeDies k r s

/-- The range cells of a kernel (R434). -/
def cellsOf (k : Kernel) : List RangeCell := match k.range with
  | none => []
  | some r => k.dies.zipIdx.map fun p =>
    ⟨p.1, r * p.2 / k.dies.length, r * (p.2 + 1) / k.dies.length, false⟩

/-- The measurement after a placed launch (R438). -/
def measured (m digest queue key : Nat) : Nat :=
  sha256 (bigBytes 32 m ++ bigBytes 32 digest ++ bigBytes 2 queue ++ bigBytes 1 key)

/-- The sequencers of a kernel that has just been placed: those whose grant names it. -/
def seqsOf (s : State) (k : Nat) : List Nat := (s.seqs.filter fun p => p.2.kernel == some k && !p.2.groups.isEmpty).map (·.1)

/-- The digest of a kernel's image for the measurement (R438): the one taken at the packet's start, else that of the image
as it stands at placement (log 96). -/
def imageDigest (k : Kernel) : Op (Option Nat) := do
  let s ← get
  if k.digest.isSome || !s.pkg.measureOn then return k.digest
  else
    let c : Cob := ⟨k.queue, k.home, k.descWord 2 &&& 0xFFFFFFFFFFFFF⟩
    Cob.try (do
      let h : Header := ⟨← c.words k.code 8⟩
      return sha256 (← c.bytes (2 ^ 21) k.code h.imgLen))

/-- Place a kernel on all its dies together, or on none. -/
def placeKernel (s : State) (k : Kernel) : Option State :=
  let k := { k with ctx := s.ctxCtr }
  let s0 := { s with ctxs := s.ctxs ++ [ctxFor k s.ctxCtr], ctxCtr := s.ctxCtr + 1 }
  (placeDies k k.dies.zipIdx s0).map fun s =>
    let s := s.modKernel k.id fun x =>
      { x with st := .running, ctx := k.ctx, seqs := seqsOf s k.id, cells := cellsOf k }
    match k.digest with
    | some d => if s.pkg.measureOn then
        { s with pkg := { s.pkg with measurement := measured s.pkg.measurement d k.queue k.keyIndex } } else s
    | none => s

/-- An earlier launch waits for a die of this one (R427). -/
def blockedByEarlier (s : State) (k : Kernel) : Bool :=
  s.kernels.any fun x => x.st == .placing && x.id < k.id && x.dies.any fun d => k.dies.contains d

/-- A waiting launch is placed; a firmware update of the home die pauses it (R432). -/
def tryKernelPlacement (id : Nat) (s : State) : Ev :=
  match s.kernel? id with
  | none => none
  | some k =>
    if s.pkg.frozen || k.st != .placing || (s.die k.home).fw.phase != 0 || blockedByEarlier s k ||
        !k.dies.all (dieTakes s k) then none
    else cobMove k.queue (do
      let d ← imageDigest k
      match placeKernel (← get) { k with digest := d } with
      | some t => set t
      | none => waitFor .other) s
/-- KERNEL_PLACEMENT (R427). -/
def execKernelPlacement (k : Nat) (s : State) : Res := occurs (tryKernelPlacement k s) s

/-! ## Starting a continuation -/

/-- A continuation starts on sequencer n: every register at its entry value but those given (R425; 01 R18; 18 R440); a
command group that an earlier one left open stays with the sequencer (log 58). -/
def beginThread (s : State) (n : Nat) (k : Kernel) (code : Word) (xs : List (Nat × Word)) : State :=
  let s := { s with runCtr := s.runCtr + 1 }
  s.modSeq n fun q =>
    { q with mode := .run, kernel := some k.id, ctx := k.ctx, priv := false, runId := s.runCtr,
             x := Vector.ofFn fun r : Fin 32 =>
               if r.val = 1 then toWord q.winVa else ((xs.find? fun p => p.1 == r.val).map (·.2)).getD 0,
             pc := code, isn := 0, vl := 0, vtype := k.vtype, cmask0 := 0, cmask1 := 0, cvalid := 0, cld := 0,
             cgkey := 0, cgdraw := 0, cflags := 0, cprio := toWord (fld (k.descWord 6) 8 3 * 256 + k.spri * 16),
             loops := [], lbuf := [], td := Vector.replicate 16 TileDesc.zero,
             sqr := Vector.replicate 4 StreamReg.none, copyLog := [], bkpt := Vector.replicate 8 (false, 0),
             bkSkip := none, monitor := none, sleep := none, logged := 0, inflight := [], versions := [], reads := [],
             kept := [], gtraps := [],
             fresh := 0, pend := none, take := none, taken := false, softPt := false, lastLoad := none }

/-- The kernel whose records and chunks an idle sequencer serves (18 R443). -/
def kernelFor (s : State) (n : Nat) : Option Kernel :=
  s.kernels.find? fun k => k.st == .running && k.seqs.contains n && (s.ctx k.ctx).st == .active

/-- Sequencer n is idle and serves its kernel. -/
def idleFor (s : State) (n : Nat) (k : Kernel) : Bool :=
  (s.seq n).mode == .idle && k.seqs.contains n && (s.ctx k.ctx).st == .active && k.st == .running

/-- A value that does not match its log entry starts the thread with REPLAYDIV at the entry's position (21 R503). -/
def divert (s : State) (n pos : Nat) : State := issueTrap s n ⟨0x12, 0, toWord pos⟩ (s.seq n).pc

/-- A record or chunk is taken by sequencer n, whose thread `s'` has begun: recorded, or held against the log's next
entry (21 R502, R503); in replay mode nothing happens while that entry is not present. -/
def logTaken (s' : State) (n : Nat) (w1 w2 : Word) : Option State :=
  match logMode s' (s'.seq n).ctx with
  | 1 => match (logRecord n 0 7 w1 w2).run s' with
    | .ok _ s => some s
    | .error (.trap r) s => some (issueTrap s n r (s.seq n).pc)
    | .error _ _ => none
  | 2 => match (logPeek n).run s' with
    | .ok (pos, v0, v1, v2) s =>
      if fld v0 0 8 = 7 && v1 = w1 && v2 = w2 then match (logConsume n pos).run s with
        | .ok _ s => some s
        | .error _ s => some s
      else if fld v0 0 8 = 7 then none
      else some (divert s n pos)
    | .error (.trap r) s => some (issueTrap s n r (s.seq n).pc)
    | .error _ _ => none
  | _ => some s'

/-! ## Range kernels (R434, R435) -/

/-- The cell of a die. -/
def Kernel.cell (k : Kernel) (d : Nat) : Option RangeCell := k.cells.find? fun c => c.die == d

/-- Replace the cell of a die. -/
def setCell (s : State) (k : Nat) (c : RangeCell) : State :=
  s.modKernel k fun x => { x with cells := updFirst (fun y => y.die == c.die) (fun _ => c) x.cells }

/-- In replay mode, the chunk that begins at lo is what the sequencer takes next by the log (21 R503). -/
def chunkLogged (s : State) (n lo : Nat) : Bool :=
  logMode s (s.seq n).ctx == 2 && (match (logPeek n).run s with
    | .ok (_, v0, v1, v2) _ => fld v0 0 8 == 7 && v1 == 0xFFFF && v2 == toWord lo
    | .error _ _ => false)

/-- An idle sequencer of a range kernel, on a die without records of it, starts the next chunk of the die's cell; in replay mode also
where the log has it take that chunk. -/
def tryRangeChunk (n : Nat) (s : State) : Ev :=
  if s.pkg.frozen then none
  else match kernelFor s n with
    | none => none
    | some k =>
      if (s.seq n).mode != .idle || k.range.isNone then none
      else match k.cell (dieOf n) with
        | none => none
        | some c =>
          let queued := (s.die (dieOf n)).recs.any fun r => r.kernel == some k.id
          if c.hi ≤ c.lo || (queued && !chunkLogged s n c.lo) then none
          else
            let e := c.lo + min (c.hi - c.lo) (vlmaxOf (s.seq n).g)
            let s := setCell s k.id { c with lo := e }
            let xs := k.argRegs.zip (k.args ++ [toWord c.lo, toWord e])
            (logTaken (beginThread s n k (toWord (k.code + k.entry)) xs) n 0xFFFF (toWord c.lo)).map .next
/-- RANGE_CHUNK (R434). -/
def execRangeChunk (n : Nat) (s : State) : Res := occurs (tryRangeChunk n s) s

/-- The victim of a steal: the cell with the most elements, the lowest die on a tie (R435). -/
def Kernel.victim (k : Kernel) (d : Nat) : Option RangeCell :=
  minBy (fun a b => a.hi - a.lo > b.hi - b.lo || (a.hi - a.lo = b.hi - b.lo && a.die < b.die))
    (k.cells.filter fun c => c.die != d)

/-- A die whose cell is empty cuts the largest other cell, or steals no more. -/
def tryRangeSteal (id d : Nat) (s : State) : Ev :=
  if s.pkg.frozen then none
  else match s.kernel? id with
    | none => none
    | some k =>
      if k.st != .running || !(k.seqs.any fun n => dieOf n == d && idleFor s n k) then none
      else match k.cell d with
        | none => none
        | some c =>
          if c.lo < c.hi || c.noSteal then none
          else match k.victim d with
            | some v =>
              if v.hi - v.lo ≥ 2 then
                let cut := v.hi - (v.hi - v.lo) / 2
                some (.next (setCell (setCell s id { v with hi := cut }) id { c with lo := cut, hi := v.hi }))
              else some (.next (setCell s id { c with noSteal := true }))
            | none => some (.next (setCell s id { c with noSteal := true }))
/-- RANGE_STEAL (R435). -/
def execRangeSteal (k d : Nat) (s : State) : Res := occurs (tryRangeSteal k d s) s

/-! ## The end of a kernel (R431, R432) -/

/-- Work of a context that will still write: copies, engine queues, running tasks, ready tasks that a held engine will
run, landings, and sump entries that wait (R432; 15 R378, R383; log 32). -/
def ctxWorking (s : State) (c : Nat) : Bool :=
  s.landings.any (fun l => l.ctx == c) || s.sumps.any (fun w => w.ctx == c) ||
    s.dies.toList.any fun d =>
      d.pumps.any (fun p => p.any fun x => x.ctx == c) ||
        (d.tasks.any (fun t => t.ctx == c && t.ready) && d.leases.any fun l => l.ctx == c && l.kind == 0 && l.st == .held) ||
        d.engines.any fun e => e.queue.any (fun m => m.ctx == c) || e.task.any fun t => t.task.ctx == c

/-- The sequencers of a kernel all stand idle. -/
def seqsIdle (s : State) (k : Kernel) : Bool := k.seqs.all fun n => (s.seq n).mode == .idle

/-- The barrier units of a context become FREE (19 R453). -/
def freeBarriers (s : State) (c : Nat) : State := { s with bars := s.bars.filter fun b => b.owner != c }

/-- A kernel gives back its leases, copies, windows, groups and sequencers; its context is ENDED, so that its records are
invalid (15 R368, R369), and its home die learns of it (R432). -/
def endKernel (s : State) (k : Kernel) (st : KernelSt) : State :=
  let s := freeBarriers (releaseCtx s k.ctx) k.ctx
  let held := fun (run : Nat) => (s.ctx k.ctx).saved.any fun p => p.2 == run
  let s := { s with owed := s.owed.filter fun p => !held p.1, aside := s.aside.filter fun a => !held a.run,
                    shares := s.shares.filter fun r => !held r.run }
  let s := k.seqs.foldl (fun s n =>
    let q := s.seq n
    let s := mapWindow s k.queue (k.descWord 2) q.winVa q.g fun _ => 0
    s.modSeq n fun q => { q with kernel := none, groups := [] }) s
  let s := s.modCtx k.ctx fun x => { x with st := .ended, saved := [] }
  let s := s.modKernel k.id fun x => { x with st := st, seqs := [], cells := [] }
  let s := { s with landings := s.landings.filter fun l => l.ctx != k.ctx }
  s.modDie (queueHome s k.queue) fun d => { d with events := d.events ++ [.completion k.queue (some k.id)] }

/-- A kernel without continuations completes once everything it writes is performed. -/
def tryKernelComplete (id : Nat) (s : State) : Ev :=
  match s.kernel? id with
  | none => none
  | some k =>
    let left := k.st == .ending || (k.st == .running && kernelDone s k)
    if s.pkg.frozen || !left || !seqsIdle s k || ctxWorking s k.ctx then none
    else some (.next (endKernel s k .complete))
/-- KERNEL_COMPLETE (R432). -/
def execKernelComplete (k : Nat) (s : State) : Res := occurs (tryKernelComplete k s) s

/-- The last thread of a halted context has been freed and what it still writes is performed: its kernel is ABORTED. -/
def tryKernelAbort (id : Nat) (s : State) : Ev :=
  match s.kernel? id with
  | none => none
  | some k =>
    if s.pkg.frozen || k.st != .aborting || !(s.threads k.ctx).isEmpty || !seqsIdle s k || ctxWorking s k.ctx then none
    else some (.next (endKernel s k .aborted))
/-- KERNEL_ABORT (R432). -/
def execKernelAbort (k : Nat) (s : State) : Res := occurs (tryKernelAbort k s) s

end Sys2Proof.Machine
end

