-- ==== Sys2Proof/Machine/Conts.lean ====
section
/-!
DEFINITION. Continuations: records, the queues of the dies, SPAWN, JOIN and EXIT (spec/18_groups.md R439 to R451).
-/
namespace Sys2Proof.Machine

/-- A record image is malformed (R439). -/
def imageMalformed (w : List Word) : Bool :=
  let v := fun k => (w[k]?).getD (0 : Word)
  fld (v 0) 48 16 != 0 || v 0 = 0 || (v 0).getLsbD 0 || fld (v 2) 48 16 != 0 || fld (v 2) 0 4 != 0 ||
    fld (v 3) 4 3 != 0 || fld (v 3) 8 56 != 0

/-- The die to which an image is pushed by a sequencer. -/
def imageDie (w : List Word) (n : Nat) : Nat :=
  let v := (w[3]?).getD (0 : Word)
  if v.getLsbD 7 then fld v 0 4 else dieOf n

/-- Push an image on a die's queue for sequencer n at its level (R442). -/
def pushRec (s : State) (n : Nat) (w : List Word) : State :=
  let q := s.seq n
  let v := fun k => (w[k]?).getD (0 : Word)
  s.modDie (imageDie w n) fun d =>
    { d with recs := d.recs ++ [⟨q.ctx, q.kernel, v 0, v 1, v 2, fld q.cprio 4 2, s.now, 0, n % 16, q.logical, q.isn, none⟩] }

/-- The words of an access by loads of 8 bytes each (R446). -/
def loadWords (n va : Nat) (p : Phys) (k : Nat) : Op (List Word) := do
  let q ← getSeq n
  (List.range k).mapM fun j => do
    return toWord (ofBytes (← scalarRead n q.isn .ld (va + 8 * j) (p.key + 8 * j) 8 p.tier))

/-- A record image at an address, or the trap that reading it raises. -/
def readImageAt (n : Nat) (va : Word) : Op (List Word) := do
  let p ← scalarAddr n va 32 .load tiersCMW
  needDone n
  let w ← loadWords n va.toNat p 4
  if imageMalformed w then trapWith 0x0B va.toNat else pure w

/-- A die has a sequencer of a thread's kernel. -/
def kernelOnDie (s : State) (n d : Nat) : Bool := match (s.seq n).kernel.bind fun k => s.kernel? k with
  | some k => k.seqs.any fun m => dieOf m == d
  | none => false

/-- SPAWN (R446): a release at package scope (14 R351), after which the record stands in the queue. -/
def execSpawn (ra : Reg) (s : State) : Res :=
  issue (.spawn ra) (fun n => do
    let w ← readImageAt n ((← getSeq n).getX ra)
    let s ← get
    let d := imageDie w n
    if !kernelOnDie s n d || recCapacity - (s.die d).recs.length < 16 then trapWith 0x15 0
    else
      drainNow n
      modify fun s => pushRec s n w
      pure .next) s

/-- JOIN (R447): word 1 is read before the counter, whose decrement is a release at package scope; the decrement to zero
pushes the parent. -/
def execJoin (ra : Reg) (s : State) : Res :=
  issue (.join ra) (fun n => do
    let q ← getSeq n
    let va := q.getX ra
    let p ← scalarAddr n va 16 .atomic tiersCMW
    needDone n
    let w1 := toWord (ofBytes (← scalarRead n q.isn .ld (va.toNat + 8) (p.key + 8) 8 p.tier))
    let parent ← if w1.getLsbD 63 then do
        if fld w1 0 48 % 32 != 0 then trapWith 0x0B va.toNat
        else
          let img ← readImageAt n (toWord (fld w1 0 48))
          let s ← get
          if (s.die (imageDie img n)).recs.length ≥ recCapacity then trapWith 0x15 0 else pure (some img)
      else pure none
    drainNow n
    let old := toWord (ofBytes (← scalarRead n q.isn (.amo .add) va.toNat p.key 8 p.tier))
    if old.toInt ≤ 0 then trapWith 0x15 0
    else
      scalarWrite n q.isn (.amo .add) va.toNat p (bytesOf 8 (old - 1).toNat)
      match parent with
      | some img => if old = 1 then modify fun s => pushRec s n img
      | none => pure ()
      pure .next) s

/-! ## EXIT (R448) -/

/-- Every group has completed every ISN of the continuation, every landing that is due has arrived, and what determinism mode holds can
be performed. -/
def exitDone (s : State) (n : Nat) : Bool :=
  let q := s.seq n
  q.inflight.isEmpty && !s.drainWaits n && !(s.marks.any fun m => m.sq == n && m.runId == q.runId && !m.dead) &&
    !(s.landings.any fun l => l.sq == n && l.runId == q.runId)

/-- The continuation ends: a drain point (21 R500), and the sequencer becomes idle. -/
def exitNow (n : Nat) (s : State) : State := freeSeq s n

/-- EXIT: in handler mode under 15 R370; else it ends the continuation, or sleeps until it may. -/
def exitOp (i : Instr) (s : State) : Res :=
  issue i (fun n => do
    let s ← get
    if (s.seq n).mode = .handler then
      modify fun s => handlerExit s n
      pure .gone
    else if exitDone s n then
      modify (exitNow n)
      pure .gone
    else
      modSeqOp n fun q => { q with sleep := some .exit }
      pure .stay) s

/-- EXIT. -/
def execExit (s : State) : Res := exitOp .exit s
/-- Compact EXIT (05 R118). -/
def execCExit (s : State) : Res := exitOp .cExit s

/-- A waiting EXIT ends its continuation. -/
def tryExitComplete (n : Nat) (s : State) : Ev :=
  match (s.seq n).sleep with
  | some .exit => if s.pkg.frozen || !exitDone s n then none else some (.next (exitNow n s))
  | _ => none
/-- EXIT_COMPLETE (R448). -/
def execExitComplete (n : Nat) (s : State) : Res := occurs (tryExitComplete n s) s

/-! ## Taking a record (R443) -/

/-- The level at which a record stands at a time: each full 256 microseconds in the queue counts, also one that no
RECORD_AGING has recorded yet (R442). -/
def Rec.levelAt (r : Rec) (now : Nat) : Nat := min 3 (r.level + ((now - r.pushed) / 25600 - r.raised))

/-- Record a is taken before record b at a time (R442). -/
def recBefore (now : Nat) (a b : Rec) : Bool :=
  let la := a.levelAt now
  let lb := b.levelAt now
  la > lb || (la = lb && (a.pushed < b.pushed || (a.pushed = b.pushed &&
    (a.pusher < b.pusher || (a.pusher = b.pusher && isnLt a.isn b.isn)))))

/-- Sequencer n of kernel k may take a record. -/
def Rec.forSeq (r : Rec) (k : Kernel) (n : Nat) : Bool :=
  r.ctx == k.ctx && r.kernel == some k.id && (r.pinned == none || r.pinned == some n)

/-- The first record that sequencer n could take. -/
def firstRec (s : State) (k : Kernel) (n : Nat) : Option Rec :=
  minBy (recBefore s.now) ((s.die (dieOf n)).recs.filter fun r => r.forSeq k n)

/-- A lower idle sequencer of the die takes the record. -/
def takenByLower (s : State) (k : Kernel) (n : Nat) (r : Rec) : Bool :=
  k.seqs.any fun m => dieOf m == dieOf n && m < n && idleFor s m k && firstRec s k m == some r

/-- Word 1 of the log's entry for a record (21 R502): a root shows all ones. -/
def Rec.logWord (r : Rec) : Word :=
  if r.pinned.isSome then 0xFFFF else toWord (r.isn.toNat * 2 ^ 32 + r.logical % 65536)

/-- Sequencer n starts the continuation of a record, which leaves the queue (R425, R440). -/
def startRec (s : State) (n : Nat) (k : Kernel) (r : Rec) : State :=
  let s := s.modDie (dieOf n) fun d => { d with recs := delFirst (fun x => x == r) d.recs }
  beginThread s n k r.code (if r.pinned.isSome then k.argRegs.zip k.args else [(2, r.frame), (3, r.jctr)])

/-- The record that sequencer n takes: the first one; in replay mode the one that the log names, when it does name
one (21 R503). -/
def chosenRec (s : State) (k : Kernel) (n : Nat) : Option Rec :=
  let s0 := s.modSeq n fun q => { q with ctx := k.ctx }
  if logMode s k.ctx = 2 then match (logPeek n).run s0 with
    | .ok (_, w0, w1, _) _ =>
      if fld w0 0 8 = 7 then (s.die (dieOf n)).recs.find? fun r => r.forSeq k n && r.logWord == w1
      else firstRec s k n
    | .error _ _ => none
  else match firstRec s k n with
    | some r => if takenByLower s k n r then none else some r
    | none => none

/-- An idle sequencer takes a record of its kernel. -/
def tryRecordTake (n : Nat) (s : State) : Ev :=
  if s.pkg.frozen || (s.seq n).mode != .idle then none
  else match kernelFor s n with
    | none => none
    | some k => match chosenRec s k n with
      | none => none
      | some r => (logTaken (startRec s n k r) n r.logWord 0).map .next
/-- RECORD_TAKE (R443). -/
def execRecordTake (n : Nat) (s : State) : Res := occurs (tryRecordTake n s) s

/-- A record has spent a full 256 µs more in its queue. -/
def tryRecordAging (d idx : Nat) (s : State) : Ev :=
  if s.pkg.frozen || d ≥ 16 then none
  else match (s.die d).recs[idx]? with
    | none => none
    | some r =>
      if r.level ≥ 3 || s.now < r.pushed + (r.raised + 1) * 25600 then none
      else some (.next (s.modDie d fun x =>
        { x with recs := x.recs.set idx { r with level := r.level + 1, raised := r.raised + 1 } }))
/-- RECORD_AGING (R442). -/
def execRecordAging (d idx : Nat) (s : State) : Res := occurs (tryRecordAging d idx s) s

end Sys2Proof.Machine
end

