-- ==== Sys2Proof/Machine/Masters.lean ====
section
/-!
DEFINITION. The masters: ownership (spec/21_power_determinism.md R485, R505, R506; spec/00_scope.md R6) and freeze
(21 R507, R508; spec/20_links.md R466, R467).
-/
namespace Sys2Proof.Machine

/-- The number of a master (R505). -/
def masterNum : Master → Nat
  | .host => 0
  | .mc => 1
  | .debug => 2
  | .peer => 3

/-- Change the package's registers. -/
def State.modPkg (s : State) (f : Package → Package) : State := { s with pkg := f s.pkg }

/-- A write of master m is dropped and counted, and m's transport answers it with its error status (R485; 00 R6). -/
def dropWrite (m : Master) (s : State) : State := s.modPkg fun p =>
  { p with ndrop := min 65535 (p.ndrop + 1),
           errAns := Vector.ofFn fun k : Fin 4 => if k.val = masterNum m then p.errAns[k] + 1 else p.errAns[k] }

/-- The interval of R506: 100 ms in reference cycles. -/
def ownInterval : Nat := 10000000

/-- No owner (R506). -/
def noOwner (p : Package) : Package := { p with owner := none, nonce := 0, pendSucc := none }

/-- Intervals that have elapsed take effect: an owner not heard for 100 ms, a handover not taken for 100 ms (R506). -/
def settleOwner (s : State) : State := s.modPkg fun p =>
  if p.owner.isSome && s.now - p.heard ≥ ownInterval then noOwner p
  else if p.pendSucc.isSome && s.now - p.pendSince ≥ ownInterval then { p with pendSucc := none }
  else p

/-- A write that only the owner may make: it has its effect, or is dropped and counted (R485). -/
def ownerWrite (m : Master) (s : State) (f : State → State) : State :=
  let s := settleOwner s
  if s.pkg.owner = some m then f s else dropWrite m s

/-- The link over which a master's requests come: the CXL port, or for the peer the first Vilrad Link port that carries flits, else the
first that is not DOWN (00 R6 names no port; log 118). The management controller and the debug port have their own transports. -/
def masterLink (s : State) : Master → Option Nat
  | .host => some 24
  | .peer =>
    let ports := (List.range 12).map (25 + ·)
    some (((ports.find? fun k => (s.link k).st.carries).orElse fun _ => ports.find? fun k => (s.link k).st != .down).getD 25)
  | .mc | .debug => none

/-- A request of a master: its port accepts none while the package is frozen; held while its link trains, dropped and counted where it is
DOWN (20 R466, R470, R471). -/
def fromMaster (m : Master) (f : State → State) (s : State) : Ev := match masterLink s m with
  | none => some (.next (f s))
  | some k => if s.pkg.frozen then none else match wayOver s k with
    | .clear | .refused => some (.next (f s))
    | .held => none
    | .fails _ => some (.next (s.countDrop k))

/-- A register write as a move. The owner's has its effect, but for one of the debug port while the package is frozen, which is dropped
(21 R485, R509; log 53). -/
def masterWrite (m : Master) (f : State → State) (s : State) : Res :=
  occurs (fromMaster m (fun s => ownerWrite m s fun s => if s.pkg.frozen && m == .debug then s else f s) s) s

/-! ## OWNCTL (R506) -/

/-- Master m becomes owner. -/
def takeOwnership (s : State) (m : Master) (nonce : BitVec 16) : State :=
  s.modPkg fun p => { p with owner := some m, nonce := nonce, heard := s.now, pendSucc := none }

/-- OP 1: a claim, a heartbeat, or the successor's claim while a handover is pending. -/
def ownClaim (m : Master) (nonce : BitVec 16) (s : State) : State :=
  let s := settleOwner s
  match s.pkg.owner with
  | none => takeOwnership s m nonce
  | some o =>
    if o = m then
      if nonce = s.pkg.nonce then s.modPkg fun p => { p with heard := s.now } else dropWrite m s
    else if s.pkg.pendSucc = some m then takeOwnership s m nonce
    else dropWrite m s

/-- An OP of the owner with its nonce, or a dropped write; without an owner nothing happens. -/
def ownOp (m : Master) (nonce : BitVec 16) (s : State) (f : Package → Package) : State :=
  let s := settleOwner s
  match s.pkg.owner with
  | none => s
  | some o => if o = m && nonce = s.pkg.nonce then s.modPkg f else dropWrite m s

/-- A write of OWNCTL: one that follows the write of a master of a higher number comes in a later reference cycle than that, since writes
of one cycle take effect in ascending order of their masters (R506). -/
def ownctlMove (m : Master) (f : State → State) (s : State) : Ev := fromMaster m (fun s =>
  let s := match s.pkg.ownWrite with
    | some (t, k) => if t = s.now && masterNum m < k then s.idleTurn else s
    | none => s
  f (s.modPkg fun p => { p with ownWrite := some (s.now, masterNum m) })) s

/-- OWN_CLAIM (R506). -/
def execOwnClaim (m : Master) (nonce : BitVec 16) (s : State) : Res := occurs (ownctlMove m (ownClaim m nonce) s) s

/-- OP 2: a handover to SUCC is pending. -/
def ownHandover (m succ : Master) (nonce : BitVec 16) (s : State) : State :=
  ownOp m nonce s fun p => { p with pendSucc := some succ, pendSince := s.now, succShown := masterNum succ }

/-- OWN_HANDOVER (R506). -/
def execOwnHandover (m succ : Master) (nonce : BitVec 16) (s : State) : Res := occurs (ownctlMove m (ownHandover m succ nonce) s) s

/-- OWN_RELEASE (R506). -/
def execOwnRelease (m : Master) (nonce : BitVec 16) (s : State) : Res :=
  occurs (ownctlMove m (fun s => ownOp m nonce s noOwner) s) s

/-- The owner has not been heard for 100 ms. -/
def tryOwnHeartbeatTimeout (s : State) : Ev :=
  if s.pkg.frozen || s.pkg.owner.isNone || s.now - s.pkg.heard < ownInterval then none
  else some (.next (settleOwner s))
/-- OWN_HEARTBEAT_TIMEOUT (R506). -/
def execOwnHeartbeatTimeout (s : State) : Res := occurs (tryOwnHeartbeatTimeout s) s

/-- A pending handover has not been taken for 100 ms. -/
def tryOwnHandoverTimeout (s : State) : Ev :=
  if s.pkg.frozen || s.pkg.pendSucc.isNone || s.now - s.pkg.pendSince < ownInterval then none
  else some (.next (settleOwner s))
/-- OWN_HANDOVER_TIMEOUT (R506). -/
def execOwnHandoverTimeout (s : State) : Res := occurs (tryOwnHandoverTimeout s) s

/-! ## Freeze (R507, R508) -/

/-- A cause of freezing stands. -/
def Package.wantsFreeze (p : Package) : Bool := p.pin || p.cmdFreeze

/-- The causes of freezing change; a freeze is asked for when the first of them comes to stand. -/
def askFreeze (s : State) (pin cmd : Bool) : State := s.modPkg fun p =>
  { p with pin := pin, cmdFreeze := cmd, frzAsked := if p.wantsFreeze then p.frzAsked else s.now }

/-- A write of FRZCTL by the owner, accepted also while frozen (R509): FREEZE requests and THAW withdraws the command
freeze; both together withdraw it (log 33). -/
def frzctlWrite (m : Master) (v : Word) (s : State) : State :=
  ownerWrite m s fun s => askFreeze s s.pkg.pin (!v.getLsbD 1 && (v.getLsbD 0 || s.pkg.cmdFreeze))

/-- FREEZE_REQUEST (R508). -/
def execFreezeRequest (m : Master) (s : State) : Res := occurs (fromMaster m (frzctlWrite m 1) s) s

/-- THAW_REQUEST (R508). -/
def execThawRequest (m : Master) (s : State) : Res := occurs (fromMaster m (frzctlWrite m 2) s) s

/-- FRZ_PIN (R508). -/
def execFrzPin (asserted : Bool) (s : State) : Res :=
  .next (askFreeze s asserted s.pkg.cmdFreeze)

/-- A link freezes, remembering its state, or resumes it (20 R467). -/
def Link.freeze (l : Link) (on : Bool) : Link := match on, l.st with
  | true, .up | true, .degraded | true, .training => { l with before := l.st, st := .frozen }
  | false, .frozen => { l with st := l.before }
  | _, _ => l

/-- The next reference cycle after n whose number is a multiple of 64. -/
def boundaryAfter (n : Nat) : Nat := (n / 64 + 1) * 64

/-- The freeze, or its end, takes effect at the first boundary after the request; while frozen the count of cycles
stands still and the thaw takes effect at the next one. Each link that it freezes or thaws changes its state (20 R472). -/
def tryFreezeTakeEffect (s : State) : Ev :=
  let want := s.pkg.wantsFreeze
  if want = s.pkg.frozen then none
  else if want && s.now < boundaryAfter s.pkg.frzAsked then none
  else some (.next ((List.range 37).foldl (fun s k => s.setLink k ((s.link k).freeze want)) (s.modPkg fun p => { p with frozen := want })))
/-- FREEZE_TAKE_EFFECT (R508). -/
def execFreezeTakeEffect (s : State) : Res := occurs (tryFreezeTakeEffect s) s

end Sys2Proof.Machine
end

