-- ==== Sys2Proof/Machine/Firmware.lean ====
section
/-!
DEFINITION. Cobbler firmware (spec/16_queues.md R420 to R423; spec/21_power_determinism.md R512) and the SPDM responder
(spec/17_kernels.md R437, R438).
-/
namespace Sys2Proof.Machine

/-- Bytes of an image from which its own description is read (log 38). -/
def imageHead : Nat := 4096

/-- The checks of R420, in their order: 0 accepted, 1 bad signature, 2 no version overlap, 3 another die busy. A die that
is itself updating counts as busy (log 38). -/
def firmwareCheck (s : State) (d image : Nat) : Nat × (Nat × Nat × Nat) :=
  let (len, r, t, pmax, pmin, ver) := Config.firmwareImage (s.mem.read image imageHead)
  let others := (List.range Config.dies).filter fun e => e != d
  let ok := ecdsaOk Config.fuseKeyX Config.fuseKeyY (sha256 (s.mem.read image len)) r t
  let fits := others.all fun e => pmin ≤ (s.die e).fw.pmax && (s.die e).fw.pmin ≤ pmax
  let busy := (List.range Config.dies).any fun e => (s.die e).fw.phase != 0
  (if !ok then 1 else if !fits then 2 else if busy then 3 else 0, (pmax, pmin, ver))

/-- A write of FWCTL (21 R512): IMAGE and DIE are stored, and GO starts an update. -/
def fwctlSet (v : Word) (s : State) : State :=
  let image := fld v 12 40 * 4096
  let d := fld v 8 4
  let s := { s with pkg := { s.pkg with fwImage := image, fwDie := d } }
  if !v.getLsbD 0 then s
  else
    let (res, next) := firmwareCheck s d image
    s.modDie d fun x => { x with fw := if res = 0 then { x.fw with phase := 1, result := 0, next := some next }
                                       else { x.fw with result := res } }

/-- FIRMWARE_UPDATE (16 R420). -/
def execFirmwareUpdate (m : Master) (v : Word) (s : State) : Res := masterWrite m (fwctlSet v) s

/-- The die's cobblers have finished their events: none holds a queue, and every packet that has completed is signalled
(R421). -/
def cobblersIdle (s : State) (d : Nat) : Bool :=
  !(s.queues.any fun x => (x.active || x.started.any (·.finished)) && queueHome s x.id == d)

/-- At restart die d begins an exchange with every other die: its message carries its range, and each answers with its own, from which
both take the version of the pair (16 R422). A first message goes out in the version that the pair has used until then, of those
that the image has. -/
def postVersions (s : State) (d : Nat) : State :=
  let f := (s.die d).fw
  { s with dies := Vector.ofFn fun e : Fin 16 =>
      let x := s.dies[e]
      if e.val = d then x
      else { x with events := x.events ++ [.mailbox d (max f.pmin (min f.pmax f.peers[e])) (some (f.pmin, f.pmax)) true] } }

/-- The next phase of an update (16 R421): the cobblers come to rest, the image loads, versions are negotiated, and the
cobblers take events again. -/
def tryFirmwareRestart (d : Nat) (s : State) : Ev :=
  let f := (s.die d).fw
  let put := fun (f : Firmware) => s.modDie d fun x => { x with fw := f }
  if s.pkg.frozen || d ≥ 16 then none
  else match f.phase with
    | 0 => none
    | 1 => if cobblersIdle s d then some (.next (put { f with phase := 2 })) else none
    | 2 => match f.next with
      | some (pmax, pmin, ver) =>
        some (.next (put { f with phase := 3, pmax := pmax, pmin := pmin, imgver := ver, next := none }))
      | none => some (.next (put { f with phase := 3 }))
    | _ => some (.next (postVersions (put { f with phase := 0 }) d))
/-- FIRMWARE_RESTART (16 R421). -/
def execFirmwareRestart (d : Nat) (s : State) : Res := occurs (tryFirmwareRestart d s) s

/-- The measurements that the responder reports: M and each die's IMGVER (17 R438; log 39). -/
def measurements (s : State) : List Nat := s.pkg.measurement :: s.dies.toList.map fun d => d.fw.imgver

/-- The responder's answer: measurements, signed with the device identity key over a nonce and their digest, or the
owner's enrolment of a customer key (17 R437, R438). -/
def spdmDo (s : State) : SpdmReq → State
  | .measure nonce =>
    let ms := measurements s
    let sig := Config.identitySign (sha256 (bigBytes 32 nonce ++ (ms.map (bigBytes 32)).flatten))
    { s with pkg := { s.pkg with spdm := ms ++ [sig.1, sig.2] } }
  | .enrol m k x y =>
    if s.pkg.owner = some m && onCurve x y then
      { s with pkg := { s.pkg with custKeys := (k.toNat, x, y) :: s.pkg.custKeys.filter fun e => e.1 != k.toNat, spdm := [0] } }
    else { s with pkg := { s.pkg with spdm := [1] } }

/-- SPDM_REQUEST (17 R438). -/
def execSpdmRequest (r : SpdmReq) (s : State) : Res := .next (if s.pkg.frozen then s else spdmDo s r)

end Sys2Proof.Machine
end

