-- ==== Sys2Proof/Machine/Links.lean ====
section
/-!
DEFINITION. Links: training, lanes, flits and failed routes (spec/20_links.md R465 to R471, R478), host accesses and
HOSTERR (R473 to R475, R479), the HDM decoders (R473), and requests from peers (R482, R483).
-/
namespace Sys2Proof.Machine

/-! ## States of links -/

/-- Data lanes of link k (R469). -/
def fullLanes (k : Nat) : Nat := if k < 24 then 512 else if k = 24 then 16 else 8
/-- Reduced width, which is also the minimum (R469). -/
def reducedLanes (k : Nat) : Nat := if k < 24 then 256 else if k = 24 then 8 else 4

/-- A link that works with a number of lanes, if they suffice (R466, R467). -/
def Link.up (l : Link) (k lanes : Nat) : Option Link :=
  if lanes ≥ fullLanes k then
    some { l with st := .up, lanes := lanes, width := fullLanes k, spares := lanes - fullLanes k }
  else if lanes ≥ reducedLanes k then
    some { l with st := .degraded, lanes := lanes, width := reducedLanes k, spares := 0 }
  else none

/-- A DOWN link: no lane is in use. -/
def Link.goDown (l : Link) : Link := { l with st := .down, width := 0, attempts := 3 }

/-- A link that begins to train. -/
def Link.train (l : Link) : Link := { l with st := .training, attempts := 1 }

/-- A training attempt ends with a number of lanes that pass; a link that is DOWN since reset begins to train
(R467). -/
def tryLinkTraining (k lanes : Nat) (s : State) : Ev :=
  let l := s.link k
  if s.pkg.frozen || k ≥ 37 then none
  else match l.st with
    | .down => if l.attempts = 0 then some (.next (s.setLink k l.train)) else none
    | .training => match l.up k (min lanes (fullLanes k + if k < 24 then 16 else 0)) with
      | some l => some (.next (s.setLink k l))
      | none => some (.next (s.setLink k (if l.attempts ≥ 3 then l.goDown else { l with attempts := l.attempts + 1 })))
    | _ => none
/-- LINK_TRAINING (R467). -/
def execLinkTraining (k lanes : Nat) (s : State) : Res := occurs (tryLinkTraining k lanes s) s

/-- A lane of a link fails: a spare is swapped in, the width is reduced, or the link goes DOWN; flits in flight are
replayed (R467, R468). -/
def tryLaneFailure (k : Nat) (s : State) : Ev :=
  let l := s.link k
  if s.pkg.frozen || k ≥ 37 || !(l.st == .up || l.st == .degraded) then none
  else
    let n := l.lanes - 1
    some (.next (s.setLink k (match l.st, l.up k n with
      | .degraded, some _ => { l with lanes := n, retry := min 4095 (l.retry + 1) }
      | _, some x => { x with retry := min 4095 (x.retry + 1) }
      | _, none => { l.goDown with lanes := n })))
/-- LANE_FAILURE (R467). -/
def execLaneFailure (k : Nat) (s : State) : Res := occurs (tryLaneFailure k s) s

/-- Sequence numbers of flits have 10 bits (R468). -/
def nextFlit (n : Nat) : Nat := (n + 1) % 1024

/-- The sender's side of a flit that arrives: one that its replay buffer holds, or the next one, for which it needs a credit and a place
in the buffer; no other flit can arrive (R468). -/
def LinkClass.sent (c : LinkClass) (num : Nat) : Option LinkClass :=
  if c.buf.contains num then some c
  else if num = c.next && c.buf.length < replayFlits && c.credits > 0 then
    some { c with next := nextFlit c.next, buf := c.buf ++ [num], credits := c.credits - 1 }
  else none

/-- A flit arrives: a bad one and every later one until the replay are discarded; the expected one is accepted, which frees its place in
the replay buffer and returns a credit (R468). -/
def LinkClass.receive (c : LinkClass) (num : Nat) (crcOk : Bool) : LinkClass :=
  if !crcOk then { c with discarding := true }
  else if num = c.expect && !c.discarding then
    { c with expect := nextFlit c.expect, replays := 0, buf := c.buf.filter (· != num), credits := c.credits + 1 }
  else c

/-- A flit of a class is received. -/
def tryFlitReceive (k cls num : Nat) (crcOk : Bool) (s : State) : Ev :=
  let l := s.link k
  if s.pkg.frozen || k ≥ 37 || !l.st.carries then none
  else (l.cls.toList[cls]?.bind fun c => c.sent num).map fun c => .next (s.setLink k
    { l with crcErr := if crcOk then l.crcErr else min 4095 (l.crcErr + 1),
             cls := l.cls.mapIdx fun i x => if i = cls then c.receive num crcOk else x })
/-- FLIT_RECEIVE (R468). -/
def execFlitReceive (k cls num : Nat) (crcOk : Bool) (s : State) : Res := occurs (tryFlitReceive k cls num crcOk s) s

/-- The sender replays from a failed flit; the sixteenth replay of one flit makes the link train (R467, R468). -/
def tryFlitReplay (k cls : Nat) (s : State) : Ev :=
  let l := s.link k
  match l.cls.toList[cls]? with
  | none => none
  | some c =>
    if s.pkg.frozen || k ≥ 37 || !l.st.carries || !c.discarding then none
    else
      let l := { l with retry := min 4095 (l.retry + 1) }
      let put := fun (c : LinkClass) => l.cls.mapIdx fun i x => if i = cls then c else x
      some (.next (s.setLink k (if c.replays + 1 ≥ 16 then { l with cls := put { c with discarding := false, replays := 0 } }.train
        else { l with cls := put { c with discarding := false, replays := c.replays + 1 } })))
/-- FLIT_REPLAY (R468). -/
def execFlitReplay (k cls : Nat) (s : State) : Res := occurs (tryFlitReplay k cls s) s

/-- RETRAIN on a link: one that is frozen or training is left alone (R467). -/
def retrainLink (k : Nat) (s : State) : State :=
  let l := s.link k
  match l.st with
  | .up | .degraded | .down => s.setLink k l.train
  | _ => s

/-- CLR on a link (R478). -/
def clrLink (k : Nat) (s : State) : State := s.setLink k { s.link k with retry := 0, crcErr := 0, drop := 0 }

/-- A write of LINKSTAT k (R478). -/
def linkstatWrite (k : Nat) (v : Word) (s : State) : State :=
  let s := if v.getLsbD 32 then clrLink k s else s
  if v.getLsbD 33 then retrainLink k s else s

/-- RETRAIN (R478). -/
def execRetrain (m : Master) (k : Nat) (s : State) : Res := masterWrite m (retrainLink k) s
/-- LINKSTAT_CLR (R478). -/
def execLinkstatClr (m : Master) (k : Nat) (s : State) : Res := masterWrite m (clrLink k) s

/-! ## Failed routes (R470) -/

/-- Traffic whose routes cross DOWN links fails: an uncorrectable error of its context, with a sump entry when an
engine or a pump made it, or a dropped access that LINKSTAT counts (R470). -/
def tryRouteFailure (src dst : Nat) (ctx : Option Nat) (addr : Nat) (byUnit : Bool) (s : State) : Ev :=
  if s.pkg.frozen then none
  else match failedRoute s src dst with
    | none => none
    | some k => match ctx with
      | some c =>
        if (s.ctx c).st = .ended then none
        else
          let r : SumpRec := { die := src, sq := 0, source := 4, cause := 0x10, addr := toWord addr }
          some (.next (haltCtx (if byUnit then sumpWrite s c r else s) c ⟨0x10, toWord addr, 1⟩))
      | none => some (.next (s.countDrop k))
/-- ROUTE_FAILURE (R470). -/
def execRouteFailure (src dst : Nat) (ctx : Option Nat) (addr : Nat) (byUnit : Bool) (s : State) : Res :=
  occurs (tryRouteFailure src dst ctx addr byUnit s) s

/-! ## Host accesses (R473 to R475) -/

/-- The ranges of the three decoders: device physical base and size. -/
def hdmRange : List (Nat × Nat) := [(0, mainSize), (wellBase, wellSize), (cistBase, cistSize)]

/-- The device physical address that a host physical address reaches. -/
def hdmDecode (s : State) (a : Nat) : Option Nat :=
  firstSome (fun p => match p.1 with
    | some b => if b ≤ a && a < b + p.2.2 then some (p.2.1 + (a - b)) else none
    | none => none) (s.pkg.hdm.toList.zip hdmRange)

/-- HDM_DECODER_PROGRAM (R473). -/
def execHdmDecoderProgram (dec base : Nat) (s : State) : Res :=
  occurs (fromMaster .host (fun s => { s with pkg := { s.pkg with hdm := s.pkg.hdm.setIfInBounds dec (some base) } }) s) s

/-- Log a host-access error, the first since VALID was cleared; MSI-X vector 1 goes with it (R472, R479). -/
def hostError (s : State) (kind addr : Nat) : State :=
  if s.pkg.hostErrV then s
  else { s with pkg := { s.pkg with hostErrV := true, hostErr := (kind, addr), msix := s.pkg.msix.set 1 (s.pkg.msix[1] + 1) } }

/-- The answer to a read from outside. -/
def answer (s : State) (ok : Bool) (bs : List Byte) : State :=
  { s with pkg := { s.pkg with replyOk := ok, reply := bs } }

/-- Some word of an access lies in a cistern address outside every window. -/
def outsideWindows (s : State) (key n : Nat) : Bool :=
  inCist key && ((s.winOf key).isNone || (s.winOf (key + n - 1)).isNone)

/-- A host read of device memory: an uncorrectable error answers all ones and raises CXL.io's internal error (R474, R475). -/
def hostRead (s : State) (key n : Nat) : State :=
  if outsideWindows s key n then answer (hostError s 2 key) true (List.replicate n 0)
  else match (checkSoft none key n).run s with
    | .ok _ s => answer s true (s.mem.read key n)
    | .error _ _ =>
      let s := hostError s 1 key
      answer { s with pkg := { s.pkg with cxlErr := s.pkg.cxlErr + 1 } } true (List.replicate n 0xFF)

/-- A host write of device memory; none while a landing is due in a word that it writes. -/
def hostWrite (s : State) (key : Nat) (bs : List Byte) : Option State :=
  if outsideWindows s key bs.length then some (hostError s 2 key)
  else if inCist key then match (writeCistern key bs).run s with
    | .ok _ s => some s
    | .error _ _ => none
  else some (s.poke key bs)

/-- A host access over CXL.mem: held while the port trains, dropped and counted while it is DOWN (R470, R474). -/
def tryHostMemAccess (addr : Nat) (acc : HostAcc) (s : State) : Ev :=
  let l := s.link 24
  if s.pkg.frozen then none
  else match l.st with
    | .down => some (.next (answer (s.countDrop 24) false []))
    | .up | .degraded => match hdmDecode s addr, acc with
      | none, _ => some (.next (answer s false []))
      | some k, .read n =>
        if (hdmDecode s (addr + n - 1)).isNone then some (.next (answer s false [])) else some (.next (hostRead s k n))
      | some k, .write bs =>
        if (hdmDecode s (addr + bs.length - 1)).isNone then some (.next (answer s false []))
        else (hostWrite s k bs).map .next
    | _ => none
/-- HOST_MEM_ACCESS (R474). -/
def execHostMemAccess (addr : Nat) (acc : HostAcc) (s : State) : Res := occurs (tryHostMemAccess addr acc s) s

/-- A 1 written to HOSTERR.VALID clears that bit; KIND and ADDR stay (R479; 00 R10). -/
def hosterrClear (s : State) : State := { s with pkg := { s.pkg with hostErrV := false } }
/-- HOSTERR_CLEAR (R479). -/
def execHosterrClear (m : Master) (s : State) : Res := masterWrite m hosterrClear s

/-! ## Peers (R482, R483) -/

/-- Bytes that a peer's request touches. -/
def peerSize : PeerReq → Nat
  | .read n => n
  | .write bs | .reduce _ _ bs => bs.length
  | .phaseAdd _ => 8

/-- A port's window accepts a range of device addresses. -/
def PeerWin.accepts (w : PeerWin) (a n : Nat) : Bool := w.en && w.base ≤ a && a + n ≤ w.base + w.size * 2 ^ 30

/-- Write into device memory for a peer, on path P: cistern words wait for landings and become full. -/
def peerWrite (key : Nat) (bs : List Byte) : Op Unit := if inCist key then writeCistern key bs else writeKey key bs

/-- An accepted request is performed. -/
def peerDo (key : Nat) : PeerReq → Op (List Byte)
  | .read n => do
    checkSoft none key n
    let s ← get
    pure (s.mem.read key n)
  | .write bs => do
    peerWrite key bs
    pure []
  | .phaseAdd e => do
    checkSoft none key 8
    let s ← get
    peerWrite key (bytesOf 8 (toWord (s.mem.num key 8) + e).toNat)
    pure []
  | .reduce vt u bs => do
    checkSoft none key bs.length
    let s ← get
    let old := s.mem.read key bs.length
    let t := vtTy vt
    if reservedCode t [bs] (ofBytes bs) || reservedCode t [old] (ofBytes old) then trapWith 0x0A key
    else
      peerWrite key (bytesOf bs.length (reduceAdd t (rndOf vt u) (ofBytes old) (ofBytes bs)).1)
      pure []

/-- A request from a peer: dropped at a DOWN port, refused outside the port's window, when nothing lies there or when it meets an
uncorrectable error, and counted then; else performed. -/
def tryPeerRequest (port addr : Nat) (req : PeerReq) (s : State) : Ev :=
  let k := 25 + port
  let l := s.link k
  let n := peerSize req
  let refuse := some (.next (answer (s.countDrop k) false []))
  if s.pkg.frozen || port ≥ 12 || wayOver s k == .held then none
  else if !l.st.carries then refuse
  else if n = 0 || !((s.pkg.peerWin.toList[port]?).getD ⟨false, 0, 0⟩).accepts addr n || inNotify addr || addr + n > 2 ^ 52 ||
      !keyExists addr || !keyExists (addr + n - 1) || outsideWindows s addr n then refuse
  else match (peerDo addr req).run s with
    | .ok bs s => some (.next (answer s true bs))
    | .error (.wait _) _ => none
    | .error _ _ => refuse
/-- PEER_REQUEST (R482). -/
def execPeerRequest (port addr : Nat) (req : PeerReq) (s : State) : Res := occurs (tryPeerRequest port addr req s) s

end Sys2Proof.Machine
end

