-- ==== Sys2Proof/Machine/Power.lean ====
section
/-!
DEFINITION. The power controller (spec/21_power_determinism.md R486 to R491), the bucket and BANKPWR
(spec/12_attention.md R324, R326), FABMON (12 R309), energy-quota periods (R496) and the period counter (R497, R498).
-/
namespace Sys2Proof.Machine

/-! ## Registers of a die -/

/-- Banks computing at once, in force: `ebanks` bounds them once stage 3 has been taken, and is the greatest number that the field holds
before (R488). -/
def Die.banksInForce (d : Die) : Nat := min d.banks d.ebanks
/-- Bucket refill in force, bounded by `erefill` in the same way (R488). -/
def Die.refillInForce (d : Die) : Nat := min d.refill d.erefill

/-- A write of LEASEBUD (R491). -/
def leasebudSet (d : Nat) (v : Word) (s : State) : State := s.modDie d fun x => { x with leaseCap := min 12 (fld v 0 4) }
/-- LEASEBUD_WRITE (R491). -/
def execLeasebudWrite (m : Master) (d : Nat) (v : Word) (s : State) : Res := masterWrite m (leasebudSet d v) s

/-- A write of BANKPWR: BANKS rounds down to a multiple of 16, at least 16, and the bucket fills to CAP (12 R324,
R326). -/
def bankpwrSet (d : Nat) (v : Word) (s : State) : State := s.modDie d fun x =>
  { x with regime := v.getLsbD 63, refill := fld v 32 16, bucketCap := fld v 16 16,
           banks := max 16 (fld v 0 11 / 16 * 16), bucket := fld v 16 16, refilled := s.now }
/-- BANKPWR_WRITE (12 R326). -/
def execBankpwrWrite (m : Master) (d : Nat) (v : Word) (s : State) : Res := masterWrite m (bankpwrSet d v) s

/-- A write of PWRDIE: FORCE (R488). -/
def forceSet (d : Nat) (v : Word) (s : State) : State := s.modDie d fun x => { x with force := fld v 0 5 }
/-- PWRDIE_FORCE (R489). -/
def execPwrdieForce (m : Master) (d : Nat) (v : Word) (s : State) : Res := masterWrite m (forceSet d v) s

/-- Clear both counts of ECCCNT (R511). -/
def ecccntClear (d : Nat) (s : State) : State := s.modDie d fun x => { x with cistce := 0, memce := 0 }
/-- ECCCNT_CLR (R511). -/
def execEcccntClr (m : Master) (d : Nat) (s : State) : Res := masterWrite m (ecccntClear d) s

/-- A 10 µs window ends with a utilisation of the die's fabric, in percent (12 R309). -/
def execFabmonWindow (d percent : Nat) (s : State) : Res :=
  .next (if s.pkg.frozen then s else s.modDie d fun x => { x with fabLast := min 100 percent })

/-- The bucket gains REFILL for each reference cycle, up to CAP (12 R326). -/
def tryBucketRefill (d : Nat) (s : State) : Ev :=
  let x := s.die d
  if s.pkg.frozen || d ≥ 16 || s.now ≤ x.refilled then none
  else some (.next (s.setDie d
    { x with bucket := min x.bucketCap (x.bucket + (s.now - x.refilled) * x.refillInForce), refilled := s.now }))
/-- BUCKET_REFILL (12 R326). -/
def execBucketRefill (d : Nat) (s : State) : Res := occurs (tryBucketRefill d s) s

/-! ## The controller (R487) -/

/-- The number with the greatest weight, the lowest one on a tie. -/
def maxDie (w : Nat → Nat) (ds : List Nat) : Option Nat := minBy (fun a b => w a > w b || (w a = w b && a < b)) ds

/-- The dies of the package. -/
def allDies : List Nat := List.range Config.dies

/-- The next measure, in stage order: a stage is used up before the next one begins (log 37). -/
def nextMeasure (s : State) (bank : Nat → Nat) : Option Measure :=
  match maxDie bank (allDies.filter fun d => !(s.die d).half) with
  | some d => some ⟨1, d, 0⟩
  | none => match (List.range 5).find? fun k => allDies.any fun d => !(s.die d).wd.testBit k with
    | some k => some ⟨2, 16, k⟩
    | none => match maxDie bank (allDies.filter fun d =>
        if (s.die d).regime then (s.die d).refillInForce > 64 else (s.die d).banksInForce > 16) with
      | some d => some ⟨3, d, if (s.die d).regime then (s.die d).erefill * 2 + 1 else (s.die d).ebanks * 2⟩
      | none => (maxDie (fun d => (s.die d).unitsUsed) (allDies.filter fun d => (s.die d).budget > 0)).map fun d =>
          ⟨4, d, (s.die d).stage4⟩

/-- A measure takes effect. -/
def applyMeasure (s : State) (m : Measure) : State :=
  let s := { s with pkg := { s.pkg with measures := m :: s.pkg.measures } }
  match m.stage with
  | 1 => s.modDie m.die fun d => { d with half := true }
  | 2 => { s with dies := s.dies.map fun d => { d with wd := d.wd ||| 2 ^ m.arg } }
  | 3 => s.modDie m.die fun d =>
      if m.arg % 2 = 1 then { d with erefill := max 64 (d.refillInForce / 2) } else { d with ebanks := max 16 (d.banksInForce / 2) }
  | _ => s.modDie m.die fun d => { d with stage4 := d.budget - 1 }

/-- The last measure is withdrawn. -/
def withdrawMeasure (s : State) : State := match s.pkg.measures with
  | [] => s
  | m :: r =>
    let s := { s with pkg := { s.pkg with measures := r } }
    match m.stage with
    | 1 => s.modDie m.die fun d => { d with half := false }
    | 2 => { s with dies := s.dies.map fun d => { d with wd := d.wd &&& (31 - 2 ^ m.arg) } }
    | 3 => s.modDie m.die fun d =>
        if m.arg % 2 = 1 then { d with erefill := m.arg / 2 } else { d with ebanks := m.arg / 2 }
    | _ => s.modDie m.die fun d => { d with stage4 := m.arg }

/-- The controller compares the package power of the last 10 µs with LIMIT; `bank` holds the bank power of each die. -/
def tryPowerComparison (watts : Nat) (bank : List Nat) (s : State) : Ev :=
  if s.pkg.frozen || s.now < s.pkg.lastCompare + 100 then none
  else
    let w := min 4095 watts
    let low := w * 100 ≤ s.pkg.pwrlim * 95
    let since := if low then some (s.pkg.belowSince.getD s.now) else none
    let s := { s with pkg := { s.pkg with power := w, lastCompare := s.now, belowSince := since } }
    if watts > s.pkg.pwrlim then match nextMeasure s fun d => (bank[d]?).getD 0 with
      | some m => some (.next (applyMeasure s m))
      | none => some (.next s)
    else if low && s.now - since.getD s.now ≥ 10000 then some (.next (withdrawMeasure s))
    else some (.next s)
/-- POWER_COMPARISON (R487). -/
def execPowerComparison (watts : Nat) (bank : List Nat) (s : State) : Res := occurs (tryPowerComparison watts bank s) s

/-! ## Periods -/

/-- A context's balance at a period boundary (R496). -/
def refillCtx (x : Ctx) : Ctx :=
  if x.limit = 0 then x else { x with balance := min (x.limit * 1000) (x.balance + x.limit * 1000) }

/-- A quota period ends: balances are refilled, and work that the quota has stopped goes on (log 110). -/
def tryQuotaPeriod (s : State) : Ev :=
  if s.pkg.frozen || s.now < s.pkg.quotaDue then none
  else
    let s := { s with ctxs := s.ctxs.map refillCtx, pkg := { s.pkg with quotaDue := s.pkg.quotaDue + 100000 } }
    some (.next ((s.ctxs.filter fun x => x.limit != 0).foldl (fun s x => refillResume s x.id) s))
/-- QUOTA_PERIOD (R496). -/
def execQuotaPeriod (s : State) : Res := occurs (tryQuotaPeriod s) s

/-- A period of the package counter ends; a new PERIOD takes effect (R497, R498). Sump entries that wait for migrating pages
try again (13 R336; 15 R383). -/
def tryTickPeriod (s : State) : Ev :=
  if s.pkg.frozen || s.now < s.pkg.tickDue then none
  else some (.next (sumpFlush { s with pkg := { s.pkg with
    tick := s.pkg.tick + 1, tickPeriod := s.pkg.tickNext, tickDue := s.pkg.tickDue + s.pkg.tickNext } }))
/-- TICK_PERIOD (R498). -/
def execTickPeriod (s : State) : Res := occurs (tryTickPeriod s) s

end Sys2Proof.Machine
end

