-- ==== Sys2Proof/Machine/Queue.lean ====
section
/-!
DEFINITION. User-mode queues: notify events, the hardware event queue of a die, descriptors, packets, completion
signals and errors (spec/16_queues.md R398 to R419).
-/
namespace Sys2Proof.Machine

/-! ## Descriptors (R399, R400) -/

/-- Word k of the captured descriptor. -/
def Queue.w (x : Queue) (k : Nat) : Word := (x.desc[k]?).getD 0
/-- RING. -/
def Queue.ring (x : Queue) : Nat := fld (x.w 0) 0 48
/-- N, the number of slots. -/
def Queue.slots (x : Queue) : Nat := 2 ^ fld (x.w 0) 48 5
/-- Who accesses for the queue. -/
def Queue.cob (x : Queue) : Cob := ⟨x.id, fld (x.w 6) 60 4, x.w 2 &&& 0xFFFFFFFFFFFFF⟩

/-- STATE of word 7. -/
def queueCode : QueueSt → Nat
  | .disabled => 0
  | .idle => 1
  | .busy => 2
  | .error => 3

/-- Word 7 of the descriptor. -/
def Queue.word7 (x : Queue) : Word :=
  toWord (queueCode x.st * 2 ^ 61 + x.epos.toNat * 2 ^ 24 + x.edepth * 2 ^ 12 + x.ecause)

/-- The descriptor of a queue is malformed (R399, R400): a nonzero unnamed bit of any word, SIZELOG or RING. -/
def descBad (w : List Word) : Bool :=
  let d := fun k => (w[k]?).getD (0 : Word)
  fld (d 0) 53 10 != 0 || fld (d 1) 32 32 != 0 || fld (d 2) 52 12 != 0 || fld (d 3) 48 16 != 0 || fld (d 4) 48 16 != 0 ||
    fld (d 6) 0 4 != 0 || fld (d 6) 6 2 != 0 || fld (d 6) 11 49 != 0 || fld (d 7) 8 4 != 0 || fld (d 7) 16 8 != 0 ||
    fld (d 7) 56 5 != 0 || fld (d 0) 48 5 < 4 || fld (d 0) 48 5 > 16 || fld (d 0) 0 12 != 0

/-- Replace a queue; the cobblers write READ and word 7 of its descriptor where they change. -/
def putQueue (x : Queue) (both : Bool := false) : Op Unit := do
  let s ← get
  let old := s.queue x.id
  let b := s.pkg.qtbase + 64 * x.id
  set (s.setQueue x)
  if both || x.read != old.read || x.word7 != old.word7 then
    if ← cobReaches (queueHome s x.id) b then
      if both || x.read != old.read then writeKey (b + 8) (bytesOf 8 x.read.toNat)
      if both || x.word7 != old.word7 then writeKey (b + 56) (bytesOf 8 x.word7.toNat)

/-! ## Notify (R401 to R403) -/

/-- A master's write to a notify register: the owner's posts, any other is dropped; a sequencer's posts. -/
def notifyBy (who : Option Master) (q : Nat) (v : Word) (s : State) : Res :=
  if q ≥ 1024 then .next s
  else match who with
    | some m => masterWrite m (fun s => notifyPost s q v) s
    | none => .next (if s.pkg.frozen then s else notifyPost s q v)

/-- NOTIFY (R403). -/
def execNotify (who : Option Master) (q : Nat) (s : State) : Res := notifyBy who q 0 s
/-- NOTIFY_RESET (R402). -/
def execNotifyReset (who : Option Master) (q : Nat) (pos : BitVec 32) (s : State) : Res :=
  notifyBy who q (toWord (2 ^ 63 + pos.toNat)) s
/-- NOTIFY_DISABLE (R402). -/
def execNotifyDisable (who : Option Master) (q : Nat) (s : State) : Res := notifyBy who q (toWord (2 ^ 62)) s

/-! ## Errors and finished packets -/

/-- Packets that an error costs record its cause, the first alone (R419); a DISABLED queue stays so. -/
def Queue.fail (x : Queue) (cause : Nat) (epos : BitVec 32) (depth : Nat) : Queue :=
  if x.st = .error || x.st = .disabled then x
  else { x with st := .error, ecause := cause, epos := epos, edepth := depth, active := false, blocked := false }

/-- A packet that has completed goes behind those that completed before it, and with the last packet of a buffer its INDIRECT
completes, and so on outwards, for `depth` levels at most (R409, R414). -/
def Queue.complete : Nat → Queue → Packet → Queue
  | depth, x, p =>
    let x := { x with started := (x.started.filter fun y => y.id != p.id) ++ [{ p with finished := true }] }
    match depth, p.parent.bind fun i => x.started.find? fun y => y.id == i with
    | depth + 1, some y =>
      let y := { y with left := y.left - 1 }
      if y.left = 0 then x.complete depth y else { x with started := x.started.map fun z => if z.id = y.id then y else z }
    | _, _ => x

/-- A packet has completed. -/
def Queue.finish (x : Queue) (p : Packet) : Queue := x.complete 4 p

/-- Levels that have started all their packets are left. -/
def Queue.trim (x : Queue) : Queue := { x with levels := x.levels.dropWhile fun l => l.next ≥ l.count }

/-- Open levels close: INDIRECT packets whose buffers have packets that will not start any more are forgotten (log 40). -/
def Queue.closeLevels (x : Queue) : Queue :=
  let x := x.trim
  { x with levels := [], started := x.started.filter fun p => !(x.levels.any fun l => l.packet == p.id) }

/-! ## Taking an event (R415, R416, R418) -/

/-- Most packets that a holder starts for one event (R416). -/
def eventBudget : Nat := 16

/-- A cobbler takes the queue's lock to examine the next packet. -/
def Queue.wake (x : Queue) : Queue :=
  { x with active := true, budget := eventBudget, blocked := false }

/-- A notify event of the queue waits untaken in some die (R403). -/
def notifyWaits (s : State) (q : Nat) : Bool := s.dies.toList.any fun d => d.events.any fun e => match e with
  | .notify k _ _ => k == q
  | _ => false

/-- A notify event on a queue whose descriptor may have to be captured (R418). -/
def takeNotify (q : Nat) (reset : Option (BitVec 32)) (dis : Bool) : Op Unit := do
  let s ← get
  let x := s.queue q
  let x := { x with notified := notifyWaits s q }
  if dis then
    if x.st = .disabled then putQueue x
    else
      let y := x.closeLevels
      putQueue { y with st := .disabled, active := false, blocked := false, badDesc := false }
  else match x.st with
    | .disabled =>
      let b := s.pkg.qtbase + 64 * q
      match ← attempt (do if ← cobReaches (queueHome s q) b then some <$> readKey none b 64 else pure none) with
      | .error (.mcheck _ _) | .ok none => putQueue x
      | .error e => throw e
      | .ok (some bs) =>
        let d := (List.range 8).map fun k => toWord (ofBytes ((bs.drop (8 * k)).take 8))
        if !((d[0]?).getD 0).getLsbD 63 then putQueue x
        else if descBad d then
          putQueue { x with desc := d, st := .error, read := 0, ecause := 1, epos := 0, edepth := 0, badDesc := true } true
        else
          let y := { x with desc := d, st := .idle, read := 0, ecause := 0, epos := 0, edepth := 0, badDesc := false,
                            levels := [] }
          putQueue y.wake true
    | .error => match reset with
      | some pos =>
        if x.badDesc then putQueue x
        else
          let y := x.closeLevels
          putQueue { y with st := .idle, read := pos }.wake
      | none => putQueue x
    | .idle | .busy => if reset.isSome then putQueue x else putQueue x.wake

/-- The packet of kernel k, which has ended, is finished; a kernel that aborted is an error of its packet (R419). -/
def takeCompletions (s : State) (k : Option Nat) (x : Queue) : Queue :=
  let stOf := fun (p : Packet) => (p.kernel.bind fun k => s.kernel? k).map fun (k : Kernel) => k.st
  let ended := fun (p : Packet) =>
    if p.finished || p.kernel.isNone || p.kernel != k then none
    else if stOf p = some .complete then some false
    else if stOf p = some .aborted then some true
    else none
  x.started.foldl (fun x p => match ended p with
    | some a => (if a then x.fail 0x05 (BitVec.ofNat 32 p.pos) p.depth else x).finish p
    | none => x) x

/-- The queue of an event; a mailbox message has none. -/
def Event.queue? : Event → Option Nat
  | .notify q _ _ => some q
  | .completion q _ => some q
  | .recheck q => some q
  | .mailbox .. => none

/-- The queue of an event is free for another cobbler. -/
def eventFree (s : State) (e : Event) : Bool := match e.queue? with
  | some q => !(s.queue q).active
  | none => true

/-- Cobblers of a die that hold a queue. -/
def cobblersBusy (s : State) (d : Nat) : Nat :=
  (s.queues.filter fun x => x.active && queueHome s x.id == d).length

/-- The version that a die uses with another from now on. -/
def setPeer (s : State) (d e version : Nat) : State :=
  s.modDie d fun x => { x with fw := { x.fw with peers := Vector.ofFn fun k : Fin 16 =>
    if k.val = e then version else x.fw.peers[k] } }

/-- A mailbox message: a range that it carries gives the version that the pair uses from now on. One that begins an exchange, or that is
in a version outside the die's range, is answered with that range (R422). -/
def takeMail (d sender version : Nat) (range : Option (Nat × Nat)) (ask : Bool) (s : State) : State :=
  let f := (s.die d).fw
  let s := match range with
    | some r => setPeer s d sender (min f.pmax r.2)
    | none => s
  if !ask && f.pmin ≤ version && version ≤ f.pmax then s
  else s.modDie sender fun x => { x with events := x.events ++ [.mailbox d version (some (f.pmin, f.pmax)) false] }

/-- A queue whose started packets are all complete looks at READ again, and becomes IDLE when the slot there is empty; one
that cannot be read leaves it BUSY (R417, R418). -/
def relook (q : Nat) : Op Unit := do
  let x := ((← get).queue q).trim
  if x.st != .busy || !x.started.isEmpty || x.active || x.blocked || !x.levels.isEmpty then pure ()
  else match ← Cob.try (x.cob.words (x.ring + 64 * (x.read.toNat % x.slots)) 1) with
    | some ws => if ((ws[0]?).getD 0).getLsbD 0 then pure () else putQueue { x with st := .idle }
    | none => pure ()

/-! ## WAIT packets (R408) -/

/-- The unfinished WAIT of a queue. -/
def Queue.waiting (x : Queue) : Option Packet := x.started.find? fun p => p.type == 3 && !p.finished

/-- Word k of a WAIT packet, from word 1 on. -/
def Packet.w (p : Packet) (k : Nat) : Word := (p.wait[k - 1]?).getD 0

/-- Cobblers of a queue's home die run. -/
def homeRuns (s : State) (q : Nat) : Bool := (s.die (queueHome s q)).fw.phase == 0

/-- The WAIT's word is read again: its condition holds, or it cannot be read, which is PKTFAULT (log 35). -/
def waitCheck (q : Nat) (p : Packet) : Op Unit := do
  let s ← get
  let x := s.queue q
  let c : Cob := { x.cob with root := p.root, home := queueHome s q }
  match ← Cob.try (do
      let k ← c.addr (p.w 1).toNat .load
      if k.tier > 3 then trapWith 0x14 0
      else if k.tier = 0 then readForeign (p.w 1).toNat k.key 8 false else readKey (some (p.w 1).toNat) k.key 8) with
  | none => putQueue ((x.fail 0x02 (BitVec.ofNat 32 p.pos) p.depth).finish p)
  | some bs =>
    if gateCmp (p.w 3).toNat (toWord (ofBytes bs)) (p.w 2) then putQueue (x.finish p) else waitFor .other

/-- A re-read that a cobbler takes from the event queue: a condition that does not hold changes nothing. -/
def waitPoll (q : Nat) : Op Unit := do
  match ((← get).queue q).waiting with
  | none => pure ()
  | some p => match ← attempt (waitCheck q p) with
    | .ok _ | .error (.wait .other) => pure ()
    | .error e => throw e

/-- What a cobbler does with an event. -/
def takeEvent (d : Nat) : Event → Op Unit
  | .notify q r dis => takeNotify q r dis
  | .completion q k => do
    let s ← get
    let x := takeCompletions s k (s.queue q)
    putQueue (if x.blocked && (x.st = .idle || x.st = .busy) then x.wake else x)
    relook q
  | .recheck q => waitPoll q
  | .mailbox e v r a => modify (takeMail d e v r a)

/-- The first event of die d, of those that follow `past`, that a cobbler can handle now, with `idle` idle cobblers: one whose queue no
cobbler holds, neither a holder nor one that waits in an earlier event of the queue, one of `held` (R415, R416). -/
def takeFirst (s : State) (d : Nat) : List Event → Nat → List Nat → List Event → Ev
  | [], _, _, _ => none
  | _, 0, _, _ => none
  | e :: r, idle + 1, held, past =>
    if !eventFree s e || e.queue?.any held.contains then takeFirst s d r (idle + 1) held (past ++ [e])
    else
      let m : Op Unit := do
        modify fun s => s.modDie d fun x => { x with events := past ++ r }
        takeEvent d e
      (cobMove (e.queue?.getD 0) m s).orElse fun _ => takeFirst s d r idle (e.queue?.toList ++ held) (past ++ [e])

/-- An idle cobbler of a die takes the oldest event that it can handle; events of a queue that another holds wait for it (R415,
R416). -/
def tryEventTake (d : Nat) (s : State) : Ev :=
  if s.pkg.frozen || d ≥ 16 || (s.die d).fw.phase != 0 then none
  else takeFirst s d (s.die d).events (12 - cobblersBusy s d) [] []
/-- EVENT_TAKE (R415). -/
def execEventTake (d : Nat) (s : State) : Res := occurs (tryEventTake d s) s

/-! ## Packets (R404 to R413) -/

/-- Word 7 holds a signal address or 0. -/
def csigOk (w : Word) : Bool := fld w 48 16 = 0 && fld w 0 3 = 0

/-- A packet is malformed (R410); KCODE's alignment to 4 KB (17 R424) is one of its alignments (log 34). -/
def packetBad (ws : List Word) : Bool :=
  let w := fun k => (ws[k]?).getD (0 : Word)
  let type := fld (w 0) 8 8
  let narg := fld (w 0) 24 5
  let zero := fun (ks : List Nat) => ks.all fun k => w k == 0
  let addr := fun (v : Word) (a : Nat) => fld v 48 16 == 0 && v.toNat % a == 0
  fld (w 0) 1 7 != 0 || fld (w 0) 17 7 != 0 || fld (w 0) 29 35 != 0 || !csigOk (w 7) || narg > 30 ||
    (narg != 0 && type != 2) ||
    (match type with
    | 1 => !zero [1, 2, 3, 4, 5, 6]
    | 2 => !addr (w 1) 4096 || !addr (w 2) 8 || fld (w 4) 32 32 != 0 || fld (w 5) 32 32 != 0 || !zero [6]
    | 3 => !addr (w 1) 8 || (w 3).toNat > 5 || !zero [5, 6]
    | 4 => !addr (w 1) 64 || (w 2).toNat = 0 || (w 2).toNat > 4096 || !zero [3, 4, 5, 6]
    | _ => true)

/-- Where the next packet is read: a slot of the ring, or the innermost open buffer (R404, R409). -/
def Queue.spot (x : Queue) : Nat := match x.levels with
  | [] => x.ring + 64 * (x.read.toNat % x.slots)
  | l :: _ => l.base + 64 * l.next

/-- The ring position of the packet at the spot, for EPOS: a buffer's packet has that of its outermost INDIRECT. -/
def Queue.spotPos (x : Queue) : BitVec 32 := if x.levels.isEmpty then x.read else x.read - 1

/-- The packet at the spot, of a type and signal. -/
def Queue.packetAt (x : Queue) (type csig : Nat) : Packet :=
  { id := x.nextPacket, type := type, pos := x.spotPos.toNat, depth := x.levels.length, csig := csig, kernel := none,
    parent := x.levels.head?.map (·.packet), left := 0, wait := [], since := 0, finished := false, root := x.cob.root }

/-- The packet at the spot causes an error; it counts as completed, and its signal is still decremented (R414). -/
def Queue.failAt (x : Queue) (cause csig : Nat) : Queue :=
  { (x.fail cause x.spotPos x.levels.length).finish (x.packetAt 0 csig) with nextPacket := x.nextPacket + 1 }

/-- The packet at the spot may not start yet: after an unfinished WAIT nothing does, and a BARRIER waits for every
earlier packet but the INDIRECTs whose buffers hold it (R413). -/
def Queue.mustWait (x : Queue) (w0 : Word) : Bool :=
  let enclosing := x.levels.map (·.packet)
  x.started.any (fun p => p.type == 3 && !p.finished) ||
    (w0.getLsbD 16 && x.started.any fun p => !enclosing.contains p.id)

/-- The queue after the packet at the spot has started: READ or the buffer's place advances, and the holder's budget
falls (R412, R416). -/
def Queue.advance (x : Queue) (p : Packet) : Queue :=
  let x := { x with st := .busy, nextPacket := x.nextPacket + 1, budget := x.budget - 1,
                    started := x.started ++ [p] }
  match x.levels with
  | [] => { x with read := x.read + 1 }
  | l :: r => { x with levels := { l with next := l.next + 1 } :: r }

/-- Begin the packet at the spot: the queue after it, or its error. -/
def beginPacket (x : Queue) (ws : List Word) : Op Queue := do
  let w := fun k => (ws[k]?).getD (0 : Word)
  let csig := fld (w 7) 0 48
  let p := x.packetAt (fld (w 0) 8 8) csig
  let s ← get
  match p.type with
  | 1 => return (x.advance p).finish p
  | 2 =>
    match ← launch x.cob x.desc ws with
    | .fault => return x.failAt 0x02 csig
    | .refused c => do
      if x.levels.isEmpty then
        let k ← x.cob.addr (x.spot + 48) .store
        x.cob.write (x.spot + 48) k (bytesOf 8 c)
      return x.failAt 0x04 csig
    | .ok k => do
      modify fun s => { s with kernels := s.kernels ++ [k], kernCtr := s.kernCtr + 1 }
      return x.advance { p with kernel := some k.id }
  | 3 => return x.advance { p with wait := (List.range 4).map fun k => w (k + 1), since := s.pkg.tick.toNat }
  | _ =>
    if x.levels.length ≥ 4 then return x.failAt 0x03 csig
    else
      let n := (w 2).toNat
      let y := x.advance { p with left := n }
      return { y with levels := ⟨(w 1).toNat, n, 0, p.id⟩ :: y.levels }

/-- The holder of a queue examines the next packet (R412). -/
def packetStart (q : Nat) : Op Unit := do
  let s ← get
  let x := (s.queue q).trim
  let ring := x.levels.isEmpty
  match ← Cob.try (x.cob.words x.spot 8) with
  | none => putQueue (x.failAt 0x02 0)
  | some ws =>
    let w0 := (ws[0]?).getD 0
    let w7 := (ws[7]?).getD 0
    let csig := if csigOk w7 then w7.toNat else 0
    if !w0.getLsbD 0 && ring then
      putQueue { x with active := false, st := if x.started.isEmpty then .idle else x.st }
    else if !w0.getLsbD 0 || packetBad ws then putQueue (x.failAt 0x01 csig)
    else if x.mustWait w0 then putQueue { x with active := false, blocked := true, st := .busy }
    else match ← Cob.try (if ring then do return some (← x.cob.addr x.spot .store) else pure none) with
      | none => putQueue (x.failAt 0x02 csig)
      | some slot =>
        let y ← beginPacket x ws
        match slot with
        | some k => if y.st != .error then x.cob.write x.spot k (bytesOf 8 0)
        | none => pure ()
        let done := y.st != .error && y.budget = 0
        putQueue (if done then { y with active := false } else y)
        if done then modify fun s =>
          (s.setQueue { s.queue q with notified := true }).modDie (queueHome s q) fun d =>
            { d with events := d.events ++ [.notify q none false] }

/-- The next packet of a queue that a cobbler holds. -/
def tryPacketStart (q : Nat) (s : State) : Ev :=
  if (s.queue q).active then cobMove q (packetStart q) s else none
/-- PACKET_START (R412). -/
def execPacketStart (q : Nat) (s : State) : Res := occurs (tryPacketStart q s) s

/-! ## WAIT packets (R408) -/

/-- A WAIT's word is read again. The re-read is an event of the home die (R415): a cobbler takes it at once when one is idle
and no older event can be taken, and its condition holds; else it is posted, once, and stands in the queue (log 35). -/
def tryWaitPacketCheck (q : Nat) (s : State) : Ev :=
  let d := queueHome s q
  let ev := Event.recheck q
  let evs := (s.die d).events
  let posted := evs.contains ev
  let line := if posted then evs else evs ++ [ev]
  match (s.queue q).waiting with
  | none => none
  | some p =>
    if s.pkg.frozen || !homeRuns s q then none
    else if cobblersBusy s d < 12 && line.find? (eventFree s) == some ev then
      cobMove q (do
        modify fun s => s.modDie d fun x => { x with events := x.events.erase ev }
        waitCheck q p) s
    else if posted then none
    else some (.next (s.modDie d fun x => { x with events := line }))
/-- WAIT_PACKET_CHECK (R408). -/
def execWaitPacketCheck (q : Nat) (s : State) : Res := occurs (tryWaitPacketCheck q s) s

/-- A WAIT's time-out expires while its condition does not hold; a condition that holds then has come first. -/
def tryWaitPacketTimeout (q : Nat) (s : State) : Ev :=
  match (s.queue q).waiting with
  | none => none
  | some p =>
    if !homeRuns s q || (s.queue q).active || p.w 4 = 0 || (s.pkg.tick - toWord p.since).toNat < (p.w 4).toNat then none
    else match cobMove q (waitCheck q p) s with
      | some o => some o
      | none => cobMove q (putQueue (((s.queue q).fail 0x06 (BitVec.ofNat 32 p.pos) p.depth).finish p)) s
/-- WAIT_PACKET_TIMEOUT (R408). -/
def execWaitPacketTimeout (q : Nat) (s : State) : Res := occurs (tryWaitPacketTimeout q s) s

/-! ## Completion (R414, R417) -/

/-- Subtract 1 from a completion signal, as one read-modify-write. -/
def decrement (c : Cob) (a : Nat) : Op Unit := do
  let k ← c.addr a .atomic
  let bs ← if k.tier = 0 then readForeign a k.key 8 false else readKey (some a) k.key 8
  c.write a k (bytesOf 8 (toWord (ofBytes bs) - 1).toNat)

/-- A completed packet leaves the queue. -/
def Queue.remove (x : Queue) (p : Packet) : Queue := { x with started := x.started.filter fun y => y.id != p.id }

/-- The signal of the first finished packet is decremented, and the packet leaves; the holder then looks again at what waits
behind it, or at READ, later where that read must wait. -/
def packetComplete (q : Nat) (p : Packet) : Op Unit := do
  let s ← get
  let c : Cob := ⟨q, queueHome s q, p.root⟩
  let ok ← if p.csig = 0 then pure (some ()) else Cob.try (decrement c p.csig)
  let s ← get
  let x := s.queue q
  let x := if ok.isNone then x.fail 0x07 (BitVec.ofNat 32 p.pos) p.depth else x
  let x := x.remove p
  putQueue x
  modify fun s => { s with kernels := s.kernels.filter fun k => some k.id != p.kernel }
  let post := modify fun s => s.modDie (queueHome s q) fun d => { d with events := d.events ++ [.completion q none] }
  if x.blocked then post
  else match ← attempt (relook q) with
    | .ok _ => pure ()
    | .error _ => post

/-- The next completed packet of a queue is signalled, in the order in which packets completed (R414); the cobblers of a die
whose update has been accepted finish what they have begun (R421). -/
def tryPacketComplete (q pk : Nat) (s : State) : Ev :=
  match (s.queue q).started.find? (·.finished) with
  | none => none
  | some p => if p.id = pk && (s.die (queueHome s q)).fw.phase ≤ 1 then cobMove q (packetComplete q p) s else none
/-- PACKET_COMPLETE (R414). -/
def execPacketComplete (q pk : Nat) (s : State) : Res := occurs (tryPacketComplete q pk s) s

end Sys2Proof.Machine
end

