-- ==== Sys2Proof/Machine/Registers.lean ====
section
/-!
DEFINITION. The register map of BAR0 (spec/20_links.md R476 to R483; spec/21_power_determinism.md R484 to R512;
spec/12_attention.md R309, R324; spec/16_queues.md R423; spec/17_kernels.md R437), the debug port (21 R509) and reset
(21 R510).
-/
namespace Sys2Proof.Machine

/-! ## Reading -/

/-- A bit at a place. -/
def bitW (b : Bool) (k : Nat) : Nat := if b then 2 ^ k else 0

/-- STATE of LINKSTAT. -/
def linkCode : LinkSt → Nat
  | .down => 0
  | .training => 1
  | .up => 2
  | .degraded => 3
  | .frozen => 4

/-- LINKSTAT (20 R478). -/
def linkstatRead (l : Link) : Word :=
  toWord (linkCode l.st * 2 ^ 61 + l.width * 2 ^ 40 + l.spares * 2 ^ 35 + l.drop * 2 ^ 24 + l.retry * 2 ^ 12 + l.crcErr)

/-- PEERWIN (20 R483). -/
def peerwinRead (w : PeerWin) : Word := toWord (bitW w.en 63 + w.base + w.size)

/-- A register of a die at an offset in its block (21 R484). -/
def dieRegRead (d : Die) (o : Nat) : Word :=
  if o = 0x00 then toWord (d.budget * 16 + d.leaseCap)
  else if o = 0x08 then
    toWord (bitW d.half 63 + d.banksInForce * 2 ^ 37 + d.refillInForce * 2 ^ 16 + d.wd * 2 ^ 8 + d.force)
  else if o = 0x10 then toWord (d.fabLast * 2 ^ 16 + d.fabThresh)
  else if o = 0x18 then toWord (bitW d.regime 63 + d.refill * 2 ^ 32 + d.bucketCap * 2 ^ 16 + d.banks)
  else if o = 0x20 then d.lanemap
  else if o = 0x28 then toWord (d.cistce * 2 ^ 32 + d.memce * 2)
  else if o = 0x30 then
    toWord (d.fw.phase * 2 ^ 62 + d.fw.result * 2 ^ 60 + d.fw.pmax % 256 * 2 ^ 40 + d.fw.pmin % 256 * 2 ^ 32 + d.fw.imgver % 2 ^ 32)
  else if 0x40 ≤ o && o < 0x80 && o % 8 = 0 then (d.regtrim.toList[(o - 0x40) / 8]?).getD 0
  else 0

/-- STAGE of PWRSTAT (21 R488). -/
def Package.stage (p : Package) : Nat := p.measures.foldl (fun a m => max a m.stage) 0

/-- OWNSTAT (21 R505). -/
def ownstatRead (p : Package) : Word :=
  toWord (bitW p.owner.isSome 63 + bitW p.pendSucc.isSome 62 + (p.owner.map masterNum).getD 0 * 2 ^ 60 + p.succShown * 2 ^ 58
    + p.ndrop * 2 ^ 16)

/-- The value that a read of the register at an offset of BAR0 returns; other offsets read as zero (20 R476; 21 R484,
R485). -/
def regRead (s : State) (o : Nat) : Word :=
  let p := s.pkg
  if o = 0x0000 then toWord p.qtbase
  else if o = 0x0008 then
    toWord ((p.custKeys.map fun k => 2 ^ (8 + k.1)).sum + bitW p.measureOn 1 + bitW p.reqsig 0)
  else if o = 0x0010 then toWord (bitW p.hostErrV 63 + p.hostErr.1 * 2 ^ 60 + p.hostErr.2)
  else if 0x100 ≤ o && o < 0x100 + 8 * 37 && o % 8 = 0 then linkstatRead (s.link ((o - 0x100) / 8))
  else if 0x300 ≤ o && o < 0x300 + 8 * 12 && o % 8 = 0 then
    peerwinRead ((p.peerWin.toList[(o - 0x300) / 8]?).getD ⟨false, 0, 0⟩)
  else if o = 0x1000 then toWord p.pwrlim
  else if o = 0x1008 then toWord (p.stage * 2 ^ 60 + p.power)
  else if o = 0x1010 then toWord p.tickNext
  else if o = 0x1020 then ownstatRead p
  else if o = 0x1028 then toWord (bitW p.frozen 63 + bitW p.pin 62)
  else if o = 0x1030 then toWord (p.fwImage + p.fwDie * 256)
  else if 0x2000 ≤ o && o < 0x3000 then dieRegRead (s.die ((o - 0x2000) / 256)) ((o - 0x2000) % 256)
  else 0

/-! ## Writing -/

/-- A write of a register of a die; read-only registers ignore it. -/
def dieRegWrite (d o : Nat) (v : Word) (s : State) : State :=
  if o = 0x00 then leasebudSet d v s
  else if o = 0x08 then forceSet d v s
  else if o = 0x10 then s.modDie d fun x => { x with fabThresh := fld v 0 7 }
  else if o = 0x18 then bankpwrSet d v s
  else if o = 0x28 then (if v.getLsbD 0 then ecccntClear d s else s)
  else s

/-- A write of QTBASE: ignored while any queue is not DISABLED (20 R477). -/
def qtbaseSet (v : Word) (s : State) : State :=
  if s.queues.any fun x => x.st != .disabled then s else s.modPkg fun p => { p with qtbase := fld v 16 36 * 65536 }

/-- A write that the owner makes to a register other than OWNCTL and FRZCTL. -/
def regSet (o : Nat) (v : Word) (s : State) : State :=
  if o = 0x0000 then qtbaseSet v s
  else if o = 0x0008 then s.modPkg fun p => { p with measureOn := v.getLsbD 1, reqsig := v.getLsbD 0 }
  else if o = 0x0010 then (if v.getLsbD 63 then hosterrClear s else s)
  else if 0x100 ≤ o && o < 0x100 + 8 * 37 && o % 8 = 0 then linkstatWrite ((o - 0x100) / 8) v s
  else if 0x300 ≤ o && o < 0x300 + 8 * 12 && o % 8 = 0 then s.modPkg fun p =>
    { p with peerWin := p.peerWin.setIfInBounds ((o - 0x300) / 8) ⟨v.getLsbD 63, fld v 30 22 * 2 ^ 30, fld v 0 22⟩ }
  else if o = 0x1000 then s.modPkg fun p => { p with pwrlim := max 1200 (min 3000 (fld v 0 12)) }
  else if o = 0x1010 then s.modPkg fun p => { p with tickNext := max 1 (fld v 0 16) }
  else if o = 0x1030 then fwctlSet v s
  else if 0x2000 ≤ o && o < 0x3000 then dieRegWrite ((o - 0x2000) / 256) ((o - 0x2000) % 256) v s
  else s

/-- A register stands at an offset of BAR0. -/
def isReg (o : Nat) : Bool :=
  o = 0x0000 || o = 0x0008 || o = 0x0010 || (0x100 ≤ o && o < 0x100 + 8 * 37 && o % 8 = 0) ||
    (0x300 ≤ o && o < 0x300 + 8 * 12 && o % 8 = 0) || (0x1000 ≤ o && o ≤ 0x1030 && o % 8 = 0) ||
    (0x2000 ≤ o && o < 0x3000 && o % 256 < 0x80 && o % 8 = 0 && o % 256 != 0x38)

/-- The master of a number (21 R505). -/
def masterOf (n : Nat) : Master := match n with
  | 0 => .host
  | 1 => .mc
  | 2 => .debug
  | _ => .peer

/-- A write of OWNCTL (21 R505, R506); OP 0 of the owner does nothing. -/
def ownctlWrite (m : Master) (v : Word) (s : State) : State :=
  let nonce := BitVec.ofNat 16 (fld v 0 16)
  match fld v 62 2 with
  | 1 => ownClaim m nonce s
  | 2 => ownHandover m (masterOf (fld v 16 2)) nonce s
  | 3 => ownOp m nonce s noOwner
  | _ => ownOp m nonce s fun p => p

/-- A master's write to an offset of BAR0: OWNCTL is accepted from every master, FRZCTL also while frozen (21 R485,
R505, R509). -/
def regWrite (m : Master) (o : Nat) (v : Word) (s : State) : Res :=
  if o = 0x1018 then occurs (ownctlMove m (ownctlWrite m v) s) s
  else if o = 0x1028 then occurs (fromMaster m (frzctlWrite m v) s) s
  else if isReg o then masterWrite m (regSet o v) s
  else occurs (fromMaster m id s) s

/-- REGISTER_WRITE (21 R485). -/
def execRegisterWrite (m : Master) (o : Nat) (v : Word) (s : State) : Res := regWrite m o v s

/-! ## The debug port (21 R509) -/

/-- The answer of the debug port to a read of a word. -/
def answerWord (s : State) (v : Word) : State := { s with pkg := { s.pkg with replyOk := true, regReply := v } }

/-- The answer to a read of other state: a word, and bytes where there are any; none answers nothing, nor does a read while
the package runs. -/
def answerState (s : State) (v : Option (Word × List Byte)) : State := match v with
  | some (w, bs) => if s.pkg.frozen then { s with pkg := { s.pkg with replyOk := true, reply := bs, regReply := w } }
    else answer s false []
  | none => answer s false []

/-- Entry k of a sequencer's version buffers: its line above its tag, then the line's bytes and its full bits. -/
def versionWord (q : Seq) (k : Nat) : Option (Word × List Byte) := (q.versions[k]?).map fun v =>
  (toWord (v.line * 2 ^ 32 + v.tag.toNat), v.data ++ [BitVec.ofNat 8 (v.full.zipIdx.map fun b => bitW b.1 b.2).sum])

/-- What an entry of an engine's queue shows first: its ISN above the number of its sequencer. -/
def entryWord (isn : BitVec 32) (sq : Nat) : Word := toWord (isn.toNat * 2 ^ 32 + sq)

/-- Numbers as words of an answer. -/
def numBytes (ns : List Nat) : List Byte := wordBytes (ns.map toWord)

/-- The operands of an instruction in an engine's queue. -/
def MKind.bytes : MKind → List Byte
  | .mma a b z arow acol draw =>
    numBytes [0, bitW z 0, arow, acol, (draw.map (· + 1)).getD 0] ++ wordBytes (a.words ++ b.words)
  | .accz arow acol nr nc => numBytes [1, arow, acol, nr, nc]
  | .accin arow acol nc => numBytes [2, arow, acol, nc]
  | .drain clr arow acol nc => numBytes [3, bitW clr 0, arow, acol, nc]

/-- Entry k of a matrix engine's queue. -/
def commandWord (e : MEngine) (k : Nat) : Option (Word × List Byte) := (e.queue[k]?).map fun m =>
  (entryWord m.isn m.sq, m.kind.bytes ++ wordBytes [m.vtype, m.cgkey, m.cgdraw] ++
    numBytes [m.ctx, m.slot, m.pos, bitW m.issued 0, m.flags] ++ numBytes (m.pages.map fun p => [p.1, p.2]).flatten ++
    numBytes (m.items.map fun a => [a.elem, a.row, a.col, a.val, a.addr]).flatten)

/-- Entry k of a pump's queue. -/
def copyWord (cs : List Copy) (k : Nat) : Option (Word × List Byte) := (cs[k]?).map fun c =>
  (entryWord c.isn c.sq, wordBytes [c.word, c.srcVal, c.vtype, c.cgkey, c.cgdraw] ++
    numBytes ([c.kind, c.size, c.pitch, c.srcBase, c.srcStride, c.dstBase, c.dstStride, c.landVa, c.phaseVa, c.flags] ++
      (c.ready.map fun e => [e.idx, e.arg]).flatten ++ c.done))

/-- Command k of a sequencer's group. -/
def groupCmdWord (g : Group) (k : Nat) : Option (Word × List Byte) := (g.cmds[k]?).map fun m =>
  (entryWord m.isn m.sq, wordBytes m.words ++ numBytes [m.qb0, m.nqb, m.pos, m.src, m.vl, bitW m.began 0, m.qb, m.page])

/-- Entry k of a die's task queue. -/
def taskWord (ts : List Task) (k : Nat) : Option (Word × List Byte) := (ts[k]?).map fun t =>
  (entryWord t.isn t.sq, wordBytes (t.words ++ [t.cgkey, t.cgdraw]) ++ numBytes [t.age, bitW t.ready 0])

/-- A class of a link: the numbers that its receiver expects and its sender sends next, whether the receiver discards, the replays and
the credits, and the flits of the replay buffer by their numbers. -/
def linkWord (l : Link) (c : Nat) : Option (Word × List Byte) := (l.cls.toList[c]?).map fun x =>
  (toWord (x.credits * 2 ^ 32 + x.next * 2 ^ 16 + x.replays * 2 ^ 11 + bitW x.discarding 10 + x.expect),
    (x.buf.map fun n => bytesOf 2 n).flatten)

/-- Other registers of a sequencer: a tile descriptor, a stream register, an open loop, innermost first, and a comparator. -/
def descWord (q : Seq) (k : Nat) : Option (Word × List Byte) := (q.td.toList[k]?).map fun t => (0, wordBytes t.words)
/-- Stream register k. -/
def streamWord (q : Seq) (k : Nat) : Option (Word × List Byte) := (q.sqr.toList[k]?).map fun r => (0, wordBytes r.words)
/-- Loop k of the stack. -/
def loopWord (q : Seq) (k : Nat) : Option (Word × List Byte) :=
  (q.loops[k]?).map fun l => (toWord q.loops.length, wordBytes [l.start, l.stop, l.count, l.index])
/-- Comparator k. -/
def bkptWord (q : Seq) (k : Nat) : Option (Word × List Byte) :=
  (q.bkpt.toList[k]?).map fun b => (toWord (bitW b.1 63 + b.2.toNat % 2 ^ 48), [])

/-- An access of the debug port: registers can be read at any time, other state while the package is frozen. A read of a
register by another master, for which the opcode table has no row, answers the same where its link carries it (00 R6; R485; log
98). -/
def debugDo (s : State) : DebugAcc → Res
  | .readReg m o => occurs (fromMaster m (fun s => answerWord s (regRead s o)) s) s
  | .writeReg o v => regWrite .debug o v s
  | .readMem a => .next (if s.pkg.frozen then answer s true [s.mem.get a, if s.full a then 1 else 0] else answer s false [])
  | .readX n r => .next (if s.pkg.frozen then answerWord s ((s.seq n).getX r) else answer s false [])
  | .readPc n => .next (answerState s (some ((s.seq n).pc, [])))
  | .readCreg n c => .next (answerState s (some (cregRead s n c, [])))
  | .readVersion n k => .next (answerState s (versionWord (s.seq n) k))
  | .readEngine d e k => .next (answerState s (commandWord ((s.die d).engine e) k))
  | .readLink k c => .next (answerState s (linkWord (s.link k) c))
  | .readDesc n k => .next (answerState s (descWord (s.seq n) k))
  | .readStream n k => .next (answerState s (streamWord (s.seq n) k))
  | .readLoop n k => .next (answerState s (loopWord (s.seq n) k))
  | .readBkpt n k => .next (answerState s (bkptWord (s.seq n) k))
  | .readPump d p k => .next (answerState s (copyWord (s.copies d p) k))
  | .readCommand n k => .next (answerState s (groupCmdWord (s.seq n).grp k))
  | .readTask d k => .next (answerState s (taskWord (s.die d).tasks k))
  | .readAcc d e k => .next
    (if s.pkg.frozen then answerWord s (toWord ((smapGet k ((s.die d).engine e).acc).getD 0)) else answer s false [])

/-- DEBUG_ACCESS (21 R509). -/
def execDebugAccess (a : DebugAcc) (s : State) : Res := debugDo s a

/-! ## Reset (21 R510) -/

/-- RESET: everything at its reset value. The bytes of memory and their full and empty bits stay (log 3); FRZ_N is a
pin, which reset does not change. -/
def execReset (s : State) : Res :=
  .next { State.reset with agenda := s.agenda, mem := s.mem, empty := s.empty, soft := s.soft,
                           pkg := { Package.reset with pin := s.pkg.pin } }

end Sys2Proof.Machine
end

