-- ==== Sys2Proof/Machine/Dispatch.lean ====
section
/-!
DEFINITION. One arm for each constructor of `Instr`: the instruction's own meaning.
-/
namespace Sys2Proof.Machine

/-- Execute one instruction, or let one event occur. -/
def exec (i : Instr) (s : State) : Host.Outcome State Fault Refusal :=
  match i with
  | .add rd ra rb => Sys2Proof.Machine.execAdd rd ra rb s
  | .sub rd ra rb => Sys2Proof.Machine.execSub rd ra rb s
  | .mul rd ra rb => Sys2Proof.Machine.execMul rd ra rb s
  | .mulh rd ra rb => Sys2Proof.Machine.execMulh rd ra rb s
  | .mulhu rd ra rb => Sys2Proof.Machine.execMulhu rd ra rb s
  | .div rd ra rb => Sys2Proof.Machine.execDiv rd ra rb s
  | .divu rd ra rb => Sys2Proof.Machine.execDivu rd ra rb s
  | .rem rd ra rb => Sys2Proof.Machine.execRem rd ra rb s
  | .remu rd ra rb => Sys2Proof.Machine.execRemu rd ra rb s
  | .and rd ra rb => Sys2Proof.Machine.execAnd rd ra rb s
  | .or rd ra rb => Sys2Proof.Machine.execOr rd ra rb s
  | .xor rd ra rb => Sys2Proof.Machine.execXor rd ra rb s
  | .andn rd ra rb => Sys2Proof.Machine.execAndn rd ra rb s
  | .sll rd ra rb => Sys2Proof.Machine.execSll rd ra rb s
  | .srl rd ra rb => Sys2Proof.Machine.execSrl rd ra rb s
  | .sra rd ra rb => Sys2Proof.Machine.execSra rd ra rb s
  | .slt rd ra rb => Sys2Proof.Machine.execSlt rd ra rb s
  | .sltu rd ra rb => Sys2Proof.Machine.execSltu rd ra rb s
  | .min rd ra rb => Sys2Proof.Machine.execMin rd ra rb s
  | .max rd ra rb => Sys2Proof.Machine.execMax rd ra rb s
  | .minu rd ra rb => Sys2Proof.Machine.execMinu rd ra rb s
  | .maxu rd ra rb => Sys2Proof.Machine.execMaxu rd ra rb s
  | .clz rd ra => Sys2Proof.Machine.execClz rd ra s
  | .ctz rd ra => Sys2Proof.Machine.execCtz rd ra s
  | .popc rd ra => Sys2Proof.Machine.execPopc rd ra s
  | .addi rd ra imm => Sys2Proof.Machine.execAddi rd ra imm s
  | .andi rd ra imm => Sys2Proof.Machine.execAndi rd ra imm s
  | .ori rd ra imm => Sys2Proof.Machine.execOri rd ra imm s
  | .xori rd ra imm => Sys2Proof.Machine.execXori rd ra imm s
  | .slti rd ra imm => Sys2Proof.Machine.execSlti rd ra imm s
  | .slli rd ra sh => Sys2Proof.Machine.execSlli rd ra sh s
  | .srli rd ra sh => Sys2Proof.Machine.execSrli rd ra sh s
  | .srai rd ra sh => Sys2Proof.Machine.execSrai rd ra sh s
  | .liShort rd imm => Sys2Proof.Machine.execLiShort rd imm s
  | .liLong rd imm => Sys2Proof.Machine.execLiLong rd imm s
  | .liHi rd imm => Sys2Proof.Machine.execLiHi rd imm s
  | .ld rd ra imm => Sys2Proof.Machine.execLd rd ra imm s
  | .st rs ra imm => Sys2Proof.Machine.execSt rs ra imm s
  | .ldfe rd ra imm => Sys2Proof.Machine.execLdfe rd ra imm s
  | .amo op ord w rd rb ra => Sys2Proof.Machine.execAmo op ord w rd rb ra s
  | .amocas ord w rd rb ra => Sys2Proof.Machine.execAmocas ord w rd rb ra s
  | .fadd t rd ra rb => Sys2Proof.Machine.execFadd t rd ra rb s
  | .fsub t rd ra rb => Sys2Proof.Machine.execFsub t rd ra rb s
  | .fmul t rd ra rb => Sys2Proof.Machine.execFmul t rd ra rb s
  | .ffma t rd ra rb => Sys2Proof.Machine.execFfma t rd ra rb s
  | .fdiv t rd ra rb => Sys2Proof.Machine.execFdiv t rd ra rb s
  | .fsqrt t rd ra => Sys2Proof.Machine.execFsqrt t rd ra s
  | .fmin t rd ra rb => Sys2Proof.Machine.execFmin t rd ra rb s
  | .fmax t rd ra rb => Sys2Proof.Machine.execFmax t rd ra rb s
  | .fcmp c t rd ra rb => Sys2Proof.Machine.execFcmp c t rd ra rb s
  | .fcvt dst src rd ra => Sys2Proof.Machine.execFcvt dst src rd ra s
  | .beq ra rb off => Sys2Proof.Machine.execBeq ra rb off s
  | .bne ra rb off => Sys2Proof.Machine.execBne ra rb off s
  | .blt ra rb off => Sys2Proof.Machine.execBlt ra rb off s
  | .bge ra rb off => Sys2Proof.Machine.execBge ra rb off s
  | .bltu ra rb off => Sys2Proof.Machine.execBltu ra rb off s
  | .bgeu ra rb off => Sys2Proof.Machine.execBgeu ra rb off s
  | .jal rd off => Sys2Proof.Machine.execJal rd off s
  | .jalr rd ra imm => Sys2Proof.Machine.execJalr rd ra imm s
  | .loop ra off => Sys2Proof.Machine.execLoop ra off s
  | .loopi n off => Sys2Proof.Machine.execLoopi n off s
  | .hintNop bits => Sys2Proof.Machine.execHintNop bits s
  | .fence sc => Sys2Proof.Machine.execFence sc s
  | .fencex c1 c2 => Sys2Proof.Machine.execFencex c1 c2 s
  | .iflush => Sys2Proof.Machine.execIflush s
  | .trap k => Sys2Proof.Machine.execTrap k s
  | .rett => Sys2Proof.Machine.execRett s
  | .bkpt => Sys2Proof.Machine.execBkpt s
  | .mon ra => Sys2Proof.Machine.execMon ra s
  | .mwait rd ra => Sys2Proof.Machine.execMwait rd ra s
  | .tick rd => Sys2Proof.Machine.execTick rd s
  | .movcWrite c ra => Sys2Proof.Machine.execMovcWrite c ra s
  | .movcRead rd c => Sys2Proof.Machine.execMovcRead rd c s
  | .movcw rd c rb => Sys2Proof.Machine.execMovcw rd c rb s
  | .setvl rd ra => Sys2Proof.Machine.execSetvl rd ra s
  | .setvlc rd ra rb => Sys2Proof.Machine.execSetvlc rd ra rb s
  | .pubhw ra rb => Sys2Proof.Machine.execPubhw ra rb s
  | .ownq rd ra => Sys2Proof.Machine.execOwnq rd ra s
  | .lix rd k => Sys2Proof.Machine.execLix rd k s
  | .lbrk => Sys2Proof.Machine.execLbrk s
  | .spawn ra => Sys2Proof.Machine.execSpawn ra s
  | .join ra => Sys2Proof.Machine.execJoin ra s
  | .exit => Sys2Proof.Machine.execExit s
  | .barcfg sc ra rb => Sys2Proof.Machine.execBarcfg sc ra rb s
  | .arrive sc rd ra => Sys2Proof.Machine.execArrive sc rd ra s
  | .waitb sc ra rb => Sys2Proof.Machine.execWaitb sc ra rb s
  | .arrwait sc ra => Sys2Proof.Machine.execArrwait sc ra s
  | .tlbinv ra rb => Sys2Proof.Machine.execTlbinv ra rb s
  | .pgq rd ra => Sys2Proof.Machine.execPgq rd ra s
  | .ctxld ra => Sys2Proof.Machine.execCtxld ra s
  | .ctxst ra => Sys2Proof.Machine.execCtxst ra s
  | .sumppop rd => Sys2Proof.Machine.execSumppop rd s
  | .lease rd ra => Sys2Proof.Machine.execLease rd ra s
  | .lfree ra => Sys2Proof.Machine.execLfree ra s
  | .lstat rd ra => Sys2Proof.Machine.execLstat rd ra s
  | .lwait ra => Sys2Proof.Machine.execLwait ra s
  | .movtd td f ra => Sys2Proof.Machine.execMovtd td f ra s
  | .rdtd rd td f => Sys2Proof.Machine.execRdtd rd td f s
  | .bindq q ra => Sys2Proof.Machine.execBindq q ra s
  | .unbindq q => Sys2Proof.Machine.execUnbindq q s
  | .gbegin ra => Sys2Proof.Machine.execGbegin ra s
  | .gcommit rd => Sys2Proof.Machine.execGcommit rd s
  | .gabort => Sys2Proof.Machine.execGabort s
  | .logmark ra => Sys2Proof.Machine.execLogmark ra s
  | .cAddi rd imm => Sys2Proof.Machine.execCAddi rd imm s
  | .cLi rd imm => Sys2Proof.Machine.execCLi rd imm s
  | .cSlli rd sh => Sys2Proof.Machine.execCSlli rd sh s
  | .cSrli rd sh => Sys2Proof.Machine.execCSrli rd sh s
  | .cSrai rd sh => Sys2Proof.Machine.execCSrai rd sh s
  | .cLd rd n => Sys2Proof.Machine.execCLd rd n s
  | .cSt rd n => Sys2Proof.Machine.execCSt rd n s
  | .cAdd rd ra => Sys2Proof.Machine.execCAdd rd ra s
  | .cSub rd ra => Sys2Proof.Machine.execCSub rd ra s
  | .cAnd rd ra => Sys2Proof.Machine.execCAnd rd ra s
  | .cOr rd ra => Sys2Proof.Machine.execCOr rd ra s
  | .cXor rd ra => Sys2Proof.Machine.execCXor rd ra s
  | .cSll rd ra => Sys2Proof.Machine.execCSll rd ra s
  | .cSrl rd ra => Sys2Proof.Machine.execCSrl rd ra s
  | .cSra rd ra => Sys2Proof.Machine.execCSra rd ra s
  | .cMul rd ra => Sys2Proof.Machine.execCMul rd ra s
  | .cMin rd ra => Sys2Proof.Machine.execCMin rd ra s
  | .cMax rd ra => Sys2Proof.Machine.execCMax rd ra s
  | .cMv rd ra => Sys2Proof.Machine.execCMv rd ra s
  | .cBeqz ra off => Sys2Proof.Machine.execCBeqz ra off s
  | .cBnez ra off => Sys2Proof.Machine.execCBnez ra off s
  | .cJ off => Sys2Proof.Machine.execCJ off s
  | .cNop => Sys2Proof.Machine.execCNop s
  | .cExit => Sys2Proof.Machine.execCExit s
  | .cBkpt => Sys2Proof.Machine.execCBkpt s
  | .cLbrk => Sys2Proof.Machine.execCLbrk s
  | .cVadd n => Sys2Proof.Machine.execCVadd n s
  | .cVsub n => Sys2Proof.Machine.execCVsub n s
  | .cVmul n => Sys2Proof.Machine.execCVmul n s
  | .cVand n => Sys2Proof.Machine.execCVand n s
  | .cVor n => Sys2Proof.Machine.execCVor n s
  | .cVxor n => Sys2Proof.Machine.execCVxor n s
  | .cVmin n => Sys2Proof.Machine.execCVmin n s
  | .cVmax n => Sys2Proof.Machine.execCVmax n s
  | .cVminu n => Sys2Proof.Machine.execCVminu n s
  | .cVmaxu n => Sys2Proof.Machine.execCVmaxu n s
  | .cVfadd n => Sys2Proof.Machine.execCVfadd n s
  | .cVfmul n => Sys2Proof.Machine.execCVfmul n s
  | .cVfmin n => Sys2Proof.Machine.execCVfmin n s
  | .cVfmax n => Sys2Proof.Machine.execCVfmax n s
  | .cVmand n => Sys2Proof.Machine.execCVmand n s
  | .cVmor n => Sys2Proof.Machine.execCVmor n s
  | .cVmxor n => Sys2Proof.Machine.execCVmxor n s
  | .cVmandn n => Sys2Proof.Machine.execCVmandn n s
  | .vadd v => Sys2Proof.Machine.execVadd v s
  | .vsub v => Sys2Proof.Machine.execVsub v s
  | .vrsub v => Sys2Proof.Machine.execVrsub v s
  | .vmul v => Sys2Proof.Machine.execVmul v s
  | .vmulh v => Sys2Proof.Machine.execVmulh v s
  | .vmulhu v => Sys2Proof.Machine.execVmulhu v s
  | .vdiv v => Sys2Proof.Machine.execVdiv v s
  | .vdivu v => Sys2Proof.Machine.execVdivu v s
  | .vrem v => Sys2Proof.Machine.execVrem v s
  | .vmin v => Sys2Proof.Machine.execVmin v s
  | .vmax v => Sys2Proof.Machine.execVmax v s
  | .vminu v => Sys2Proof.Machine.execVminu v s
  | .vmaxu v => Sys2Proof.Machine.execVmaxu v s
  | .vand v => Sys2Proof.Machine.execVand v s
  | .vor v => Sys2Proof.Machine.execVor v s
  | .vxor v => Sys2Proof.Machine.execVxor v s
  | .vandn v => Sys2Proof.Machine.execVandn v s
  | .vsll v => Sys2Proof.Machine.execVsll v s
  | .vsrl v => Sys2Proof.Machine.execVsrl v s
  | .vsra v => Sys2Proof.Machine.execVsra v s
  | .vadc v => Sys2Proof.Machine.execVadc v s
  | .vadcCo v => Sys2Proof.Machine.execVadcCo v s
  | .vsbc v => Sys2Proof.Machine.execVsbc v s
  | .vsbcCo v => Sys2Proof.Machine.execVsbcCo v s
  | .vcmp c v => Sys2Proof.Machine.execVcmp c v s
  | .vmerge v => Sys2Proof.Machine.execVmerge v s
  | .vmv v => Sys2Proof.Machine.execVmv v s
  | .vdots v => Sys2Proof.Machine.execVdots v s
  | .vscan op v => Sys2Proof.Machine.execVscan op v s
  | .vfadd v => Sys2Proof.Machine.execVfadd v s
  | .vfsub v => Sys2Proof.Machine.execVfsub v s
  | .vfmul v => Sys2Proof.Machine.execVfmul v s
  | .vffma v => Sys2Proof.Machine.execVffma v s
  | .vfdiv v => Sys2Proof.Machine.execVfdiv v s
  | .vfsqrt v => Sys2Proof.Machine.execVfsqrt v s
  | .vfmin v => Sys2Proof.Machine.execVfmin v s
  | .vfmax v => Sys2Proof.Machine.execVfmax v s
  | .vfcmp c v => Sys2Proof.Machine.execVfcmp c v s
  | .vexp2 v => Sys2Proof.Machine.execVexp2 v s
  | .vlog2 v => Sys2Proof.Machine.execVlog2 v s
  | .vrcp v => Sys2Proof.Machine.execVrcp v s
  | .vrsq v => Sys2Proof.Machine.execVrsq v s
  | .vtanh v => Sys2Proof.Machine.execVtanh v s
  | .vsin v => Sys2Proof.Machine.execVsin v s
  | .vcos v => Sys2Proof.Machine.execVcos v s
  | .vredsum v => Sys2Proof.Machine.execVredsum v s
  | .vredmax v => Sys2Proof.Machine.execVredmax v s
  | .vredmin v => Sys2Proof.Machine.execVredmin v s
  | .vredand v => Sys2Proof.Machine.execVredand v s
  | .vredor v => Sys2Proof.Machine.execVredor v s
  | .vredxor v => Sys2Proof.Machine.execVredxor v s
  | .vslideup cnt v => Sys2Proof.Machine.execVslideup cnt v s
  | .vslidedn cnt v => Sys2Proof.Machine.execVslidedn cnt v s
  | .vmand v => Sys2Proof.Machine.execVmand v s
  | .vmor v => Sys2Proof.Machine.execVmor v s
  | .vmxor v => Sys2Proof.Machine.execVmxor v s
  | .vmandn v => Sys2Proof.Machine.execVmandn v s
  | .vmnot v => Sys2Proof.Machine.execVmnot v s
  | .vmpop rd v => Sys2Proof.Machine.execVmpop rd v s
  | .vmfirst rd v => Sys2Proof.Machine.execVmfirst rd v s
  | .vmlast rd v => Sys2Proof.Machine.execVmlast rd v s
  | .vmany rd v => Sys2Proof.Machine.execVmany rd v s
  | .vgauss v => Sys2Proof.Machine.execVgauss v s
  | .vgaussPert v => Sys2Proof.Machine.execVgaussPert v s
  | .vrand v => Sys2Proof.Machine.execVrand v s
  | .vrandSr v => Sys2Proof.Machine.execVrandSr v s
  | .vld ord v => Sys2Proof.Machine.execVld ord v s
  | .vst ord v => Sys2Proof.Machine.execVst ord v s
  | .vstx ord v => Sys2Proof.Machine.execVstx ord v s
  | .vamo op ord v => Sys2Proof.Machine.execVamo op ord v s
  | .vcas ord v => Sys2Proof.Machine.execVcas ord v s
  | .vempty v => Sys2Proof.Machine.execVempty v s
  | .vfill v => Sys2Proof.Machine.execVfill v s
  | .vwait rt v => Sys2Proof.Machine.execVwait rt v s
  | .vown v => Sys2Proof.Machine.execVown v s
  | .vidx d start step => Sys2Proof.Machine.execVidx d start step s
  | .vmsh d a k => Sys2Proof.Machine.execVmsh d a k s
  | .vcvt src d a => Sys2Proof.Machine.execVcvt src d a s
  | .mma z h ta tb arow acol => Sys2Proof.Machine.execMma z h ta tb arow acol s
  | .mmae z h draw ta tb arow acol => Sys2Proof.Machine.execMmae z h draw ta tb arow acol s
  | .accz h arow acol nrows1 ncols1 => Sys2Proof.Machine.execAccz h arow acol nrows1 ncols1 s
  | .accin h a pol mask arow acol ncol1 => Sys2Proof.Machine.execAccin h a pol mask arow acol ncol1 s
  | .drain clr h d mask arow acol ncol1 => Sys2Proof.Machine.execDrain clr h d mask arow acol ncol1 s
  | .tsub rq => Sys2Proof.Machine.execTsub rq s
  | .pcopy p d a => Sys2Proof.Machine.execPcopy p d a s
  | .pgath p rr d a => Sys2Proof.Machine.execPgath p rr d a s
  | .pscat p rr d a => Sys2Proof.Machine.execPscat p rr d a s
  | .prdc p d a => Sys2Proof.Machine.execPrdc p d a s
  | .pfill p d a => Sys2Proof.Machine.execPfill p d a s
  | .attn hint rc qb0 nqb1 => Sys2Proof.Machine.execAttn hint rc qb0 nqb1 s
  | .kvw rc ra rp => Sys2Proof.Machine.execKvw rc ra rp s
  | .kvinv rc ra rp => Sys2Proof.Machine.execKvinv rc ra rp s
  | .reset => Sys2Proof.Machine.execReset s
  | .loadComplete sq grp => Sys2Proof.Machine.execLoadComplete sq grp s
  | .mwaitWake sq => Sys2Proof.Machine.execMwaitWake sq s
  | .streamRead sq => Sys2Proof.Machine.execStreamRead sq s
  | .setvlcWake sq => Sys2Proof.Machine.execSetvlcWake sq s
  | .exitComplete sq => Sys2Proof.Machine.execExitComplete sq s
  | .barrierWaitMet sq => Sys2Proof.Machine.execBarrierWaitMet sq s
  | .lwaitComplete sq => Sys2Proof.Machine.execLwaitComplete sq s
  | .groupCommit sq => Sys2Proof.Machine.execGroupCommit sq s
  | .vwaitWake sq => Sys2Proof.Machine.execVwaitWake sq s
  | .elementExecute sq grp => Sys2Proof.Machine.execElementExecute sq grp s
  | .vldLanding idx => Sys2Proof.Machine.execVldLanding idx s
  | .pageWalk die ctx va acc => Sys2Proof.Machine.execPageWalk die ctx va acc s
  | .migrationTimeout idx => Sys2Proof.Machine.execMigrationTimeout idx s
  | .trapEntry sq => Sys2Proof.Machine.execTrapEntry sq s
  | .haltStop sq => Sys2Proof.Machine.execHaltStop sq s
  | .machineCheck ctx addr phys => Sys2Proof.Machine.execMachineCheck ctx addr phys s
  | .preemptionRequest ctx => Sys2Proof.Machine.execPreemptionRequest ctx s
  | .softTake sq => Sys2Proof.Machine.execSoftTake sq s
  | .hardTake sq => Sys2Proof.Machine.execHardTake sq s
  | .leaseGrant die => Sys2Proof.Machine.execLeaseGrant die s
  | .leaseAging die ctx slot => Sys2Proof.Machine.execLeaseAging die ctx slot s
  | .wakeComplete die ctx slot => Sys2Proof.Machine.execWakeComplete die ctx slot s
  | .evictionDecided die => Sys2Proof.Machine.execEvictionDecided die s
  | .evictionEffect die ctx slot => Sys2Proof.Machine.execEvictionEffect die ctx slot s
  | .budgetEviction die => Sys2Proof.Machine.execBudgetEviction die s
  | .leaseReleaseComplete die ctx slot => Sys2Proof.Machine.execLeaseReleaseComplete die ctx slot s
  | .matrixStep die eng => Sys2Proof.Machine.execMatrixStep die eng s
  | .acczPass die eng => Sys2Proof.Machine.execAcczPass die eng s
  | .accinPass die eng => Sys2Proof.Machine.execAccinPass die eng s
  | .drainPass die eng => Sys2Proof.Machine.execDrainPass die eng s
  | .taskGateEvaluation die idx => Sys2Proof.Machine.execTaskGateEvaluation die idx s
  | .taskDispatch die => Sys2Proof.Machine.execTaskDispatch die s
  | .taskRun die eng => Sys2Proof.Machine.execTaskRun die eng s
  | .pumpElement die pump copy elem => Sys2Proof.Machine.execPumpElement die pump copy elem s
  | .groupCommandRun sq => Sys2Proof.Machine.execGroupCommandRun sq s
  | .attnQueryBlock sq => Sys2Proof.Machine.execAttnQueryBlock sq s
  | .fabmonWindow die percent => Sys2Proof.Machine.execFabmonWindow die percent s
  | .bucketRefill die => Sys2Proof.Machine.execBucketRefill die s
  | .bankWave sq => Sys2Proof.Machine.execBankWave sq s
  | .notify who q => Sys2Proof.Machine.execNotify who q s
  | .notifyReset who q pos => Sys2Proof.Machine.execNotifyReset who q pos s
  | .notifyDisable who q => Sys2Proof.Machine.execNotifyDisable who q s
  | .eventTake die => Sys2Proof.Machine.execEventTake die s
  | .packetStart q => Sys2Proof.Machine.execPacketStart q s
  | .waitPacketCheck q => Sys2Proof.Machine.execWaitPacketCheck q s
  | .waitPacketTimeout q => Sys2Proof.Machine.execWaitPacketTimeout q s
  | .packetComplete q pk => Sys2Proof.Machine.execPacketComplete q pk s
  | .kernelPlacement k => Sys2Proof.Machine.execKernelPlacement k s
  | .kernelComplete k => Sys2Proof.Machine.execKernelComplete k s
  | .kernelAbort k => Sys2Proof.Machine.execKernelAbort k s
  | .rangeChunk sq => Sys2Proof.Machine.execRangeChunk sq s
  | .rangeSteal k die => Sys2Proof.Machine.execRangeSteal k die s
  | .recordTake sq => Sys2Proof.Machine.execRecordTake sq s
  | .recordAging die idx => Sys2Proof.Machine.execRecordAging die idx s
  | .firmwareUpdate m val => Sys2Proof.Machine.execFirmwareUpdate m val s
  | .firmwareRestart die => Sys2Proof.Machine.execFirmwareRestart die s
  | .linkTraining link lanes => Sys2Proof.Machine.execLinkTraining link lanes s
  | .laneFailure link => Sys2Proof.Machine.execLaneFailure link s
  | .flitReceive link cls num crcOk => Sys2Proof.Machine.execFlitReceive link cls num crcOk s
  | .flitReplay link cls => Sys2Proof.Machine.execFlitReplay link cls s
  | .routeFailure src dst ctx addr byUnit => Sys2Proof.Machine.execRouteFailure src dst ctx addr byUnit s
  | .retrain m link => Sys2Proof.Machine.execRetrain m link s
  | .linkstatClr m link => Sys2Proof.Machine.execLinkstatClr m link s
  | .hostMemAccess addr acc => Sys2Proof.Machine.execHostMemAccess addr acc s
  | .hosterrClear m => Sys2Proof.Machine.execHosterrClear m s
  | .peerRequest port addr req => Sys2Proof.Machine.execPeerRequest port addr req s
  | .spdmRequest req => Sys2Proof.Machine.execSpdmRequest req s
  | .powerComparison watts bank => Sys2Proof.Machine.execPowerComparison watts bank s
  | .leasebudWrite m die val => Sys2Proof.Machine.execLeasebudWrite m die val s
  | .bankpwrWrite m die val => Sys2Proof.Machine.execBankpwrWrite m die val s
  | .pwrdieForce m die val => Sys2Proof.Machine.execPwrdieForce m die val s
  | .quotaPeriod => Sys2Proof.Machine.execQuotaPeriod s
  | .tickPeriod => Sys2Proof.Machine.execTickPeriod s
  | .logSpaceFree sq => Sys2Proof.Machine.execLogSpaceFree sq s
  | .ownClaim m nonce => Sys2Proof.Machine.execOwnClaim m nonce s
  | .ownHandover m succ nonce => Sys2Proof.Machine.execOwnHandover m succ nonce s
  | .ownRelease m nonce => Sys2Proof.Machine.execOwnRelease m nonce s
  | .ownHeartbeatTimeout => Sys2Proof.Machine.execOwnHeartbeatTimeout s
  | .ownHandoverTimeout => Sys2Proof.Machine.execOwnHandoverTimeout s
  | .freezeRequest m => Sys2Proof.Machine.execFreezeRequest m s
  | .thawRequest m => Sys2Proof.Machine.execThawRequest m s
  | .frzPin asserted => Sys2Proof.Machine.execFrzPin asserted s
  | .freezeTakeEffect => Sys2Proof.Machine.execFreezeTakeEffect s
  | .debugAccess acc => Sys2Proof.Machine.execDebugAccess acc s
  | .ecccntClr m die => Sys2Proof.Machine.execEcccntClr m die s
  | .registerWrite m off val => Sys2Proof.Machine.execRegisterWrite m off val s
  | .hdmDecoderProgram dec base => Sys2Proof.Machine.execHdmDecoderProgram dec base s

end Sys2Proof.Machine
end

