-- ==== Sys2Proof/Machine/Schedule.lean ====
section
/-!
DEFINITION. The move that happens when the environment names none (log 1): the first enabled event of the lists below,
else a turn of the next sequencer that would issue. The events need no value from outside but one: a link that trains is
taken to find every lane good (log 9).
-/
namespace Sys2Proof.Machine

/-- The next sequencer that would issue, after the one that moved last. -/
def nextSeq (s : State) (awake : Nat → Bool) : Nat :=
  ((List.range 256).map fun j => (s.cur + 1 + j) % 256).find? awake |>.getD s.cur

/-- The first enabled of some events. -/
def firstOf : List (State → Ev) → State → Ev
  | [], _ => none
  | f :: r, s => match f s with
    | some o => some o
    | none => firstOf r s

/-- The first enabled event over some numbers. -/
def firstOver (f : Nat → State → Ev) : List Nat → State → Ev
  | [], _ => none
  | n :: r, s => match f n s with
    | some o => some o
    | none => firstOver f r s

/-- Links, periods and time-outs. -/
def autoTime (s : State) : Ev := firstOf [
  firstOver (fun k => tryLinkTraining k 528) (List.range 37),
  tryFreezeTakeEffect, tryTickPeriod, tryQuotaPeriod, tryOwnHeartbeatTimeout, tryOwnHandoverTimeout,
  firstOver (fun d s => if (s.die d).regime && (s.die d).bucket < (s.die d).bucketCap then tryBucketRefill d s else none) allDies,
  firstOver tryMigrationTimeout (List.range s.migs.length)] s

/-- The events of one sequencer: its traps and takes, its sleeps, its groups. -/
def autoSeq (n : Nat) (s : State) : Ev :=
  if (s.seq n).mode = .idle then firstOf [tryRecordTake n, tryRangeChunk n] s
  else firstOf [
    tryHaltStop n, tryTrapEntry n, trySoftTake n, tryHardTake n, tryMwaitWake n, tryStreamRead n, trySetvlcWake n,
    tryExitComplete n, tryBarrierWaitMet n, tryLwaitComplete n, tryGroupCommit n, tryLogSpaceFree n, tryBankWave n,
    firstOver (tryElementExecute n) (List.range (s.seq n).g), firstOver (tryLoadComplete n) (List.range (s.seq n).g),
    tryVwaitWake n, tryGroupCommandRun n, tryAttnQueryBlock n] s

/-- The events of the leases of a die. -/
def autoLeases (d : Nat) (s : State) : Ev := firstOf [
  tryLeaseGrant d, tryEvictionDecided d, tryBudgetEviction d,
  firstOf (((s.die d).leases ++ (s.die d).ghosts).map fun l => firstOf [tryWakeComplete d l.ctx l.slot, tryEvictionEffect d l.ctx l.slot,
    tryLeaseReleaseComplete d l.ctx l.slot, tryLeaseAging d l.ctx l.slot])] s

/-- The events of one copy of a pump: its elements, and its landing word where it has fallen behind. -/
def autoCopy (d p k : Nat) (c : Copy) (s : State) : Ev :=
  firstOver (tryPumpElement d p k) (c.ready.map (·.idx) ++ [c.vl]) s

/-- The events of the engines, pumps, queues and cobblers of a die. -/
def autoDie (d : Nat) (s : State) : Ev := firstOf [
  autoLeases d,
  firstOver (fun e => firstOf [tryMatrixStep d e, tryAcczPass d e, tryAccinPass d e, tryDrainPass d e, tryTaskRun d e])
    ((s.die d).engines.map (·.idx)),
  firstOver (tryTaskGateEvaluation d) (List.range (s.die d).tasks.length), tryTaskDispatch d,
  firstOf (((s.die d).pumps.zipIdx.map fun p => p.1.zipIdx.map fun c => autoCopy d p.2 c.2 c.1).flatten),
  tryEventTake d, tryFirmwareRestart d, firstOver (tryRecordAging d) (List.range (s.die d).recs.length)] s

/-- The events of a queue. -/
def autoQueue (q : Nat) (s : State) : Ev := firstOf [
  tryPacketStart q, tryWaitPacketCheck q, tryWaitPacketTimeout q,
  firstOver (tryPacketComplete q) ((s.queue q).started.map (·.id))] s

/-- The events of a kernel. -/
def autoKernel (k : Nat) (s : State) : Ev := firstOf [
  tryKernelPlacement k, tryKernelComplete k, tryKernelAbort k, firstOver (tryRangeSteal k) allDies] s

/-- The internal event that is enabled now, if any. -/
def autoMove (s : State) : Ev := firstOf [
  autoTime, firstOver tryVldLanding (List.range s.landings.length), firstOver autoSeq (s.seqs.map (·.1)),
  firstOver autoDie allDies, firstOver autoQueue (s.queues.map (·.id)), firstOver autoKernel (s.kernels.map (·.id))] s

/-- Reference cycles pass; none while the module is frozen (21 R508). -/
def elapse (s : State) (k : Nat) : State := if s.pkg.frozen then s else { s with now := s.now + k }

/-- Bits of a 64-bit memory word are in error (15 R396, R397). -/
def softError (s : State) (w n : Nat) : State :=
  { s with soft := if n = 0 then smapDel w s.soft else smapSet w n s.soft }

end Sys2Proof.Machine
end

