-- ==== Sys2Proof/Machine/Step.lean ====
section
/-!
DEFINITION. One step of the machine: the move that the head of the agenda names, or the default move. A sequencer's
turn fetches at its pc, decodes and executes.
-/
namespace Sys2Proof.Machine

/-- A turn of sequencer n. -/
def turn (s : State) (n : Nat) : Res :=
  match fetchIns s n with
  | .hold => .next s.idleTurn
  | .trap r => .next (issueTrap s n r (s.seq n).pc)
  | .stop e s' => stopStep n .cNop s e s'
  | .ins i s' => exec i { s' with cur := n }

/-- The move that a pick names. -/
def act (s : State) : Pick → Res
  | .seq n => turn s n
  | .event i => if i.isEvent then exec i s else .refused .notAnEvent
  | .elapse k => .next (elapse s k)
  | .softError w n => .next (softError s w n)

/-- One step. -/
def step (s : State) : Host.Outcome State Fault Refusal :=
  match s.agenda with
  | p :: r => act { s with agenda := r } p
  | [] => match autoMove s with
    | some o => o
    | none => turn (elapse s 1) (nextSeq s (awake s))

/-- The thread that `withFetchWord` gives sequencer 0: running at address 0x2000 in context c, with a grant of one
group. -/
def fetchSeq (c : Nat) : Seq := { Seq.reset with mode := .run, ctx := c, pc := 0x2000, groups := [0], winPa := cistBase }

/-- The context of that thread: its tree is at main address 0x1000. -/
def fetchCtx (c : Nat) : Ctx := { Ctx.none with id := c, cptbase := 0x1000, st := .active }

/-- The one entry of that tree: 512 GB of main memory from address 0 on, readable, writable and executable. -/
def fetchLeaf : Nat := 0x0300000000000E93

/-- Load a program of one instruction, as a context object and a thread that the outside has set up: sequencer 0 fetches
it next (log 9). -/
def State.withFetchWord (s : State) (nbits w : Nat) : State :=
  let c := s.ctxCtr
  { s with
    agenda := [.seq 0],
    mem := (s.mem.write 0x1000 (bytesOf 8 fetchLeaf)).write 0x2000 (bytesOf 8 (w % 2 ^ nbits)),
    ctxs := fetchCtx c :: s.ctxs,
    ctxCtr := c + 1,
    seqs := smapSet 0 (fetchSeq c) s.seqs }

end Sys2Proof.Machine
end

