-- ==== Sys2Proof/Safety.lean ====
section
/-!
DEFINITION. What claims call a safe run: the machine goes on for k steps and meets no fault and no refusal.
-/
namespace Sys2Proof.Machine

/-- The first k steps from s all answer a next state. -/
def runsFor (k : Nat) (s : State) : Prop := ∃ t, Sys2Proof.core.run k s = .next t

end Sys2Proof.Machine
end

