-- ==== Sys2Proof/Certificates/Slice0/Obligations.lean ====
section
/-!
DEFINITION. The statements for the provers. The words that they share stand first, in Sys2Proof.Claim: each is a plain
name for an expression of the model, so that a statement says what exec answers and what the answer holds.
-/
namespace Sys2Proof.Claim
open Sys2Proof.Machine

/-- x register r of the sequencer whose turn it is. -/
def xr (s : State) (r : Reg) : Word := (s.seq s.cur).getX r

/-- Its program counter. -/
def pc (s : State) : Word := (s.seq s.cur).pc

/-- The current sequencer changed by f, and then gone on as an instruction i goes on with c: the ISN is taken (outside
handler mode), and the next address is reached under 06 R154. -/
def done (i : Instr) (c : Ctl) (f : Seq → Seq) (s : State) : State := s.modSeq s.cur fun q => (f q).retire i c

/-- When i passes the gate, exec answers the next state in which v is in xd and nothing else has happened but going on
with the next instruction. -/
def puts (i : Instr) (rd : Reg) (v : Word) (s : State) : Prop :=
  ready i s → exec i s = .next (done i .next (·.setX rd v) s)

/-- As `puts`, with flags accrued into cflags (03 R71). -/
def flagged (i : Instr) (rd : Reg) (v : Word) (fl : Nat) (s : State) : Prop :=
  ready i s → exec i s = .next (done i .next (fun q => (q.setX rd v).raise fl) s)

/-- When i passes the gate, exec answers the next state in which issue continues as c says and nothing else has
happened. -/
def goes (i : Instr) (c : Ctl) (s : State) : Prop := ready i s → exec i s = .next (done i c id s)

/-- When i passes the gate, exec answers the state in which i has raised a trap before any effect: the cause (15 R371),
the faulting address and INFO, with the instruction's own address to resume at. -/
def traps (i : Instr) (cause : Nat) (addr info : Word) (s : State) : Prop :=
  ready i s → exec i s = .next (issueTrap s s.cur ⟨cause, addr, info⟩ (pc s))

/-- Nothing is in flight on the current sequencer, and no write is held by determinism mode (21 R500). -/
def quiet (s : State) : Prop := (s.seq s.cur).inflight = [] ∧ (s.seq s.cur).held = []

/-- Every byte of memory reads as before. -/
def memKept (s t : State) : Prop := ∀ a, t.mem.get a = s.mem.get a

/-- The parts of a sequencer that going on to the next instruction changes (02 R47; 06 R154, R157, R175, R178; 21 R502): the ISN,
pc, the loop stack and the loop buffer with its IFLUSH mark, and the marks of a soft point, of a comparator and of logging. -/
def moved (p q : Seq) : Seq :=
  { p with isn := q.isn, pc := q.pc, loops := q.loops, lbuf := q.lbuf, fresh := q.fresh, softPt := q.softPt, bkSkip := q.bkSkip,
           logged := q.logged }

/-- Nothing of the machine changes but the current sequencer, and of it nothing but what `f` says and going on. -/
def onlySeq (s t : State) (f : Seq → Seq → Seq) : Prop :=
  memKept s t ∧ (∀ m, m ≠ s.cur → t.seq m = s.seq m) ∧ { t with seqs := s.seqs } = s ∧
    t.seq s.cur = f (moved (s.seq s.cur) (t.seq s.cur)) (t.seq s.cur)

/-- Of the current sequencer only register rd (with its dirty bit, 15 R389) and what going on changes. -/
def onlyX (s t : State) (rd : Reg) : Prop :=
  onlySeq s t (fun p q => { p with x := q.x, dirtyX := q.dirtyX }) ∧
    ∀ r, r ≠ rd → (t.seq s.cur).getX r = (s.seq s.cur).getX r

/-- The instructions that only write one x register and never trap at issue: their destination. -/
def intDest : Instr → Option Reg
  | .add rd _ _ | .sub rd _ _ | .mul rd _ _ | .mulh rd _ _ | .mulhu rd _ _ | .div rd _ _ | .divu rd _ _ | .rem rd _ _
  | .remu rd _ _ | .and rd _ _ | .or rd _ _ | .xor rd _ _ | .andn rd _ _ | .sll rd _ _ | .srl rd _ _ | .sra rd _ _
  | .slt rd _ _ | .sltu rd _ _ | .min rd _ _ | .max rd _ _ | .minu rd _ _ | .maxu rd _ _ | .clz rd _ | .ctz rd _
  | .popc rd _ | .addi rd _ _ | .andi rd _ _ | .ori rd _ _ | .xori rd _ _ | .slti rd _ _ | .slli rd _ _ | .srli rd _ _
  | .srai rd _ _ | .liShort rd _ | .liLong rd _ | .liHi rd _ | .cAddi rd _ | .cLi rd _ | .cSlli rd _ | .cSrli rd _
  | .cSrai rd _ | .cAdd rd _ | .cSub rd _ | .cAnd rd _ | .cOr rd _ | .cXor rd _ | .cSll rd _ | .cSrl rd _ | .cSra rd _
  | .cMul rd _ | .cMin rd _ | .cMax rd _ | .cMv rd _ | .ownq rd _ | .rdtd rd _ _ => some rd
  | _ => none

/-- The scalar floating-point instructions: their destination. -/
def fpDest : Instr → Option Reg
  | .fadd _ rd _ _ | .fsub _ rd _ _ | .fmul _ rd _ _ | .ffma _ rd _ _ | .fdiv _ rd _ _ | .fsqrt _ rd _ | .fmin _ rd _ _
  | .fmax _ rd _ _ | .fcmp _ _ rd _ _ | .fcvt _ _ rd _ => some rd
  | _ => none

/-- The branches, jumps without a link, and the instructions that do nothing but go on. -/
def isGo : Instr → Bool
  | .beq .. | .bne .. | .blt .. | .bge .. | .bltu .. | .bgeu .. | .cBeqz .. | .cBnez .. | .cJ .. | .hintNop .. | .cNop => true
  | _ => false

end Sys2Proof.Claim

open Sys2Proof Sys2Proof.Machine Sys2Proof.Claim

/-! ## Scalar results (chapter 06) -/

/-- O1. Division never traps (R138): when the instruction passes the gate it completes, with the values that the rule
gives for a zero divisor and for the most negative number by -1. -/
def Obligations.DivisionCorners : Prop := ∀ (rd ra rb : Reg) (s : State),
  (∃ v, puts (.div rd ra rb) rd v s) ∧ (∃ v, puts (.divu rd ra rb) rd v s) ∧ (∃ v, puts (.rem rd ra rb) rd v s) ∧
  (∃ v, puts (.remu rd ra rb) rd v s) ∧
  (xr s rb = 0 → puts (.div rd ra rb) rd 0xFFFFFFFFFFFFFFFF s ∧ puts (.divu rd ra rb) rd 0xFFFFFFFFFFFFFFFF s ∧
    puts (.rem rd ra rb) rd (xr s ra) s ∧ puts (.remu rd ra rb) rd (xr s ra) s) ∧
  (xr s ra = 0x8000000000000000 → xr s rb = 0xFFFFFFFFFFFFFFFF →
    puts (.div rd ra rb) rd 0x8000000000000000 s ∧ puts (.rem rd ra rb) rd 0 s)

/-- O2. The three-register integer instructions write what R137's table gives, in words and in integers; quotients truncate
toward zero and a remainder has the sign of xa, wherever the divisor is not 0 and the quotient fits. -/
def Obligations.IntegerResults : Prop :=
  (∀ (rd ra rb : Reg) (s : State),
  let a := xr s ra
  let b := xr s rb
  puts (.add rd ra rb) rd (a + b) s ∧ puts (.sub rd ra rb) rd (a - b) s ∧ puts (.mul rd ra rb) rd (a * b) s ∧
  (∃ v : Word, puts (.mulh rd ra rb) rd v s ∧ v.toInt * 2 ^ 64 + ((a * b).toNat : Int) = a.toInt * b.toInt) ∧
  (∃ v : Word, puts (.mulhu rd ra rb) rd v s ∧ v.toNat * 2 ^ 64 + (a * b).toNat = a.toNat * b.toNat) ∧
  puts (.and rd ra rb) rd (a &&& b) s ∧ puts (.or rd ra rb) rd (a ||| b) s ∧ puts (.xor rd ra rb) rd (a ^^^ b) s ∧
  puts (.andn rd ra rb) rd (a &&& ~~~b) s ∧
  puts (.sll rd ra rb) rd (a <<< (b.toNat % 64)) s ∧ puts (.srl rd ra rb) rd (a >>> (b.toNat % 64)) s ∧
  puts (.sra rd ra rb) rd (a.sshiftRight (b.toNat % 64)) s ∧
  puts (.slt rd ra rb) rd (if a.toInt < b.toInt then 1 else 0) s ∧
  puts (.sltu rd ra rb) rd (if a.toNat < b.toNat then 1 else 0) s ∧
  puts (.min rd ra rb) rd (if a.toInt ≤ b.toInt then a else b) s ∧
  puts (.max rd ra rb) rd (if a.toInt ≤ b.toInt then b else a) s ∧
  puts (.minu rd ra rb) rd (if a.toNat ≤ b.toNat then a else b) s ∧
  puts (.maxu rd ra rb) rd (if a.toNat ≤ b.toNat then b else a) s ∧
  (∃ k, k ≤ 64 ∧ puts (.clz rd ra) rd (BitVec.ofNat 64 k) s ∧ (∀ j, j < k → a.getLsbD (63 - j) = false) ∧
    (k < 64 → a.getLsbD (63 - k) = true)) ∧
  (∃ k, k ≤ 64 ∧ puts (.ctz rd ra) rd (BitVec.ofNat 64 k) s ∧ (∀ j, j < k → a.getLsbD j = false) ∧
    (k < 64 → a.getLsbD k = true)) ∧
  puts (.popc rd ra) rd (BitVec.ofNat 64 ((List.range 64).countP fun k => a.getLsbD k)) s) ∧
  (∀ (rd ra rb : Reg) (s : State),
  let a := xr s ra
  let b := xr s rb
  b ≠ 0 →
    (∃ v : Word, puts (.divu rd ra rb) rd v s ∧ v.toNat = a.toNat / b.toNat) ∧
    (∃ v : Word, puts (.remu rd ra rb) rd v s ∧ v.toNat = a.toNat % b.toNat) ∧
    (∃ v : Word, puts (.rem rd ra rb) rd v s ∧ v.toInt = a.toInt.tmod b.toInt) ∧
    (¬(a.toInt = -2 ^ 63 ∧ b.toInt = -1) →
      ∃ v : Word, puts (.div rd ra rb) rd v s ∧ v.toInt = a.toInt.tdiv b.toInt))

/-- O3. The immediate forms and LI (R139), with the immediate sign-extended as an integer, and the compact scalar forms, with
the values of the full instructions that they are written as (05 R118). -/
def Obligations.ImmediateResults : Prop :=
  (∀ (rd ra : Reg) (imm : BitVec 15) (sh : BitVec 6) (s : State),
  let a := xr s ra
  let v := BitVec.ofInt 64 imm.toInt
  puts (.addi rd ra imm) rd (a + v) s ∧ puts (.andi rd ra imm) rd (a &&& v) s ∧ puts (.ori rd ra imm) rd (a ||| v) s ∧
  puts (.xori rd ra imm) rd (a ^^^ v) s ∧ puts (.slti rd ra imm) rd (if a.toInt < imm.toInt then 1 else 0) s ∧
  puts (.slli rd ra sh) rd (a <<< sh.toNat) s ∧ puts (.srli rd ra sh) rd (a >>> sh.toNat) s ∧
  puts (.srai rd ra sh) rd (a.sshiftRight sh.toNat) s ∧
  (∀ k : BitVec 20, puts (.liShort rd k) rd (BitVec.ofInt 64 k.toInt) s) ∧
  (∀ k : BitVec 32, puts (.liLong rd k) rd (BitVec.ofInt 64 k.toInt) s) ∧
  ∀ k : BitVec 32, puts (.liHi rd k) rd (k ++ (xr s rd).extractLsb' 0 32) s) ∧
  (∀ (rd ra : Reg) (imm : BitVec 6) (s : State),
  let d := xr s rd
  let a := xr s ra
  let v := BitVec.ofInt 64 imm.toInt
  puts (.cAddi rd imm) rd (d + v) s ∧ puts (.cLi rd imm) rd v s ∧ puts (.cSlli rd imm) rd (d <<< imm.toNat) s ∧
  puts (.cSrli rd imm) rd (d >>> imm.toNat) s ∧ puts (.cSrai rd imm) rd (d.sshiftRight imm.toNat) s ∧
  puts (.cAdd rd ra) rd (d + a) s ∧ puts (.cSub rd ra) rd (d - a) s ∧ puts (.cAnd rd ra) rd (d &&& a) s ∧
  puts (.cOr rd ra) rd (d ||| a) s ∧ puts (.cXor rd ra) rd (d ^^^ a) s ∧
  puts (.cSll rd ra) rd (d <<< (a.toNat % 64)) s ∧ puts (.cSrl rd ra) rd (d >>> (a.toNat % 64)) s ∧
  puts (.cSra rd ra) rd (d.sshiftRight (a.toNat % 64)) s ∧ puts (.cMul rd ra) rd (d * a) s ∧
  puts (.cMin rd ra) rd (if d.toInt ≤ a.toInt then d else a) s ∧
  puts (.cMax rd ra) rd (if d.toInt ≤ a.toInt then a else d) s ∧ puts (.cMv rd ra) rd a s)

/-- O4. x0 reads as zero and a write to x0 is discarded (R135); a write to another register is read back, and leaves the
rest alone. -/
def Obligations.RegisterZero : Prop :=
  ∀ (q : Seq) (v : Word), q.getX 0 = 0 ∧ q.setX 0 v = q ∧
    ∀ r : Reg, r ≠ 0 → (q.setX r v).getX r = v ∧ ∀ t : Reg, t ≠ r → (q.setX r v).getX t = q.getX t

/-! ## Scalar floating point -/

/-- O5. FADD to FSQRT and FCVT deliver the exact result rounded once under vtype, in the low bits of xd, and accrue its flags
(R145, R146, R149); FCMP writes 1 when its condition holds and 0 otherwise (R148). -/
def Obligations.FloatResults : Prop :=
  (∀ (t : FType) (rd ra rb : Reg) (s : State),
  let f := FType.fmt t
  let a := f.decode ((xr s ra).toNat % 2 ^ f.bits)
  let b := f.decode ((xr s rb).toNat % 2 ^ f.bits)
  let d := f.decode ((xr s rd).toNat % 2 ^ f.bits)
  let rnd := rndScalar (s.seq s.cur).vtype
  let out := fun (i : Instr) (r : Val × Nat) =>
    flagged i rd (BitVec.ofNat 64 (roundW f rnd r.1).1) (r.2 ||| (roundW f rnd r.1).2) s
  out (.fadd t rd ra rb) (fAdd rnd.mode a b) ∧ out (.fsub t rd ra rb) (fSub rnd.mode a b) ∧
  out (.fmul t rd ra rb) (fMul a b) ∧ out (.fdiv t rd ra rb) (fDiv a b) ∧ out (.fsqrt t rd ra) (fSqrt a) ∧
  out (.ffma t rd ra rb) (fFma rnd.mode a b d) ∧
  (∀ src : CvtType, ∀ dst : CvtType, CvtType.fmt? dst = some t →
    out (.fcvt dst src rd ra) (cvtRead src (xr s ra), sigNV (cvtRead src (xr s ra)))) ∧
  ∀ src : CvtType,
    (let r := roundInt rnd (-2 ^ 63) (2 ^ 63 - 1) (cvtRead src (xr s ra))
     flagged (.fcvt .i64 src rd ra) rd (BitVec.ofInt 64 r.1) r.2 s) ∧
    (let r := roundInt rnd 0 (2 ^ 64 - 1) (cvtRead src (xr s ra))
     flagged (.fcvt .n64 src rd ra) rd (BitVec.ofInt 64 r.1) r.2 s)) ∧
  (∀ (c : FCond) (t : FType) (rd ra rb : Reg) (s : State),
  let f := FType.fmt t
  let x := f.decode ((xr s ra).toNat % 2 ^ f.bits)
  let y := f.decode ((xr s rb).toNat % 2 ^ f.bits)
  let un := x.isNan || y.isNan
  let holds : Bool := match c with
    | .eq => !un && x.eqv y
    | .lt => !un && x.lt y
    | .le => !un && (x.lt y || x.eqv y)
    | .un => un
  let nv : Bool := match c with
    | .eq | .un => x == .nan true || y == .nan true
    | .lt | .le => un
  flagged (.fcmp c t rd ra rb) rd (if holds then 1 else 0) (if nv then flNV else 0) s)

/-- O6. FMIN and FMAX (R147). -/
def Obligations.FloatMinMax : Prop := ∀ (t : FType) (rd ra rb : Reg) (s : State),
  let f := FType.fmt t
  let a := (xr s ra).toNat % 2 ^ f.bits
  let b := (xr s rb).toNat % 2 ^ f.bits
  let x := f.decode a
  let y := f.decode b
  ∃ lo hi fl, flagged (.fmin t rd ra rb) rd (BitVec.ofNat 64 lo) fl s ∧
    flagged (.fmax t rd ra rb) rd (BitVec.ofNat 64 hi) fl s ∧
    (fl = if x = .nan true ∨ y = .nan true then flNV else 0) ∧
    (x.isNan = true → y.isNan = true → lo = f.nan ∧ hi = f.nan) ∧
    (x.isNan = true → y.isNan = false → lo = b ∧ hi = b) ∧
    (x.isNan = false → y.isNan = true → lo = a ∧ hi = a) ∧
    (x.isNan = false → y.isNan = false →
      (x.lt y = true → y.lt x = false → lo = a ∧ hi = b) ∧ (y.lt x = true → x.lt y = false → lo = b ∧ hi = a) ∧
      (a = b → lo = a ∧ hi = a) ∧
      (x.isZero = true → y.isZero = true → x.neg = true → y.neg = false → lo = a ∧ hi = b) ∧
      (x.isZero = true → y.isZero = true → x.neg = false → y.neg = true → lo = b ∧ hi = a))

/-! ## Control flow -/

/-- O7. Branches (R150) and the jumps without a link: where issue continues; NOP (05 R118, R121). JAL and JALR (R151): the link
is the next instruction's address, xa is read before xd is written, and an odd target raises MISALIGN with that address
before any effect. -/
def Obligations.BranchesAndJumps : Prop :=
  (∀ (ra rb : Reg) (off : BitVec 15) (o6 : BitVec 6) (o11 : BitVec 11) (s : State),
  let a := xr s ra
  let b := xr s rb
  let dest := fun (c : Bool) => if c then Ctl.goto (pc s + BitVec.ofInt 64 (2 * off.toInt)) else Ctl.next
  let dest6 := fun (c : Bool) => if c then Ctl.goto (pc s + BitVec.ofInt 64 (2 * o6.toInt)) else Ctl.next
  goes (.beq ra rb off) (dest (a == b)) s ∧ goes (.bne ra rb off) (dest (a != b)) s ∧
  goes (.blt ra rb off) (dest (a.toInt < b.toInt)) s ∧ goes (.bge ra rb off) (dest (b.toInt ≤ a.toInt)) s ∧
  goes (.bltu ra rb off) (dest (a.toNat < b.toNat)) s ∧ goes (.bgeu ra rb off) (dest (b.toNat ≤ a.toNat)) s ∧
  goes (.cBeqz ra o6) (dest6 (a == 0)) s ∧ goes (.cBnez ra o6) (dest6 (a != 0)) s ∧
  goes (.cJ o11) (.goto (pc s + BitVec.ofInt 64 (2 * o11.toInt))) s ∧
  (∀ bits, goes (.hintNop bits) .next s) ∧ goes .cNop .next s) ∧
  (∀ (rd ra : Reg) (imm : BitVec 15) (off : BitVec 20) (s : State),
  let t := xr s ra + BitVec.ofInt 64 imm.toInt
  (ready (.jal rd off) s → exec (.jal rd off) s = .next (done (.jal rd off)
    (.goto (pc s + BitVec.ofInt 64 (2 * off.toInt))) (·.setX rd (pc s + 4)) s)) ∧
  (t.getLsbD 0 = false → ready (.jalr rd ra imm) s →
    exec (.jalr rd ra imm) s = .next (done (.jalr rd ra imm) (.goto t) (·.setX rd (pc s + 4)) s)) ∧
  (t.getLsbD 0 = true → traps (.jalr rd ra imm) 0x04 t 0 s))

/-- O8. The frame of the scalar instructions that touch no memory. One that only writes an x register leaves memory, every
other sequencer, every other register, flags, vector and control registers and all the rest of the machine as before; the pc
and the loop stack move as R154 says. A floating-point one may also add flags to cflags. A branch or a NOP changes nothing
but where the sequencer goes on. -/
def Obligations.ScalarFrame : Prop :=
  (∀ (i : Instr) (rd : Reg) (s t : State), intDest i = some rd → ready i s →
  exec i s = .next t → onlyX s t rd ∧
    ((s.seq s.cur).loops = [] → (t.seq s.cur).loops = [] ∧ (t.seq s.cur).pc = pc s + BitVec.ofNat 64 (2 * i.len)) ∧
    ((s.seq s.cur).mode ≠ .handler → (t.seq s.cur).isn = (s.seq s.cur).isn + 1) ∧
    ((s.seq s.cur).mode = .handler → (t.seq s.cur).isn = (s.seq s.cur).isn)) ∧
  (∀ (i : Instr) (rd : Reg) (s t : State), fpDest i = some rd → ready i s →
  exec i s = .next t →
    onlySeq s t (fun p q => { p with x := q.x, dirtyX := q.dirtyX, cflags := q.cflags, dirtyC := q.dirtyC }) ∧
    (∀ r, r ≠ rd → (t.seq s.cur).getX r = (s.seq s.cur).getX r) ∧
    ∃ fl, (t.seq s.cur).cflags = (s.seq s.cur).cflags ∨ (t.seq s.cur).cflags = ((s.seq s.cur).cflags ||| fl) % 32) ∧
  (∀ (i : Instr) (s t : State), isGo i = true → ready i s → exec i s = .next t →
  onlySeq s t (fun p _ => p))

/-- O9. LOOP and LOOPI (R153, R156): a count of 0 skips the body, another count pushes an entry with 48 bits of START and END (R152), and the seventh entry raises
LOOPOVF. LIX and LBRK (R155), in the full and the compact form. The text that runs after every instruction (R154): an
address that is the END of the innermost entry begins its next iteration, or pops the entry and is looked at again; any
other address stays. -/
def Obligations.HardwareLoops : Prop :=
  (∀ (ra : Reg) (n : BitVec 10) (off : BitVec 15) (s : State),
  let stop := pc s + BitVec.ofInt 64 (2 * off.toInt)
  let cut := fun (v : Word) => BitVec.ofNat 64 (v.toNat % 2 ^ 48)
  let push := fun (i : Instr) (c : Word) =>
    ready i s → exec i s = .next (done i .next (fun q => { q with loops := ⟨cut (pc s + 4), cut stop, c, 0⟩ :: q.loops }) s)
  (xr s ra = 0 → goes (.loop ra off) (.goto stop) s) ∧
  (xr s ra ≠ 0 → (s.seq s.cur).loops.length < 6 → push (.loop ra off) (xr s ra)) ∧
  (xr s ra ≠ 0 → 6 ≤ (s.seq s.cur).loops.length → traps (.loop ra off) 0x0E 0 0 s) ∧
  (n ≠ 0 → (s.seq s.cur).loops.length < 6 → push (.loopi n off) (BitVec.ofNat 64 n.toNat)) ∧
  (n ≠ 0 → 6 ≤ (s.seq s.cur).loops.length → traps (.loopi n off) 0x0E 0 0 s)) ∧
  (∀ (rd : Reg) (k : BitVec 5) (s : State),
  (∀ h : k.toNat < (s.seq s.cur).loops.length, puts (.lix rd k) rd ((s.seq s.cur).loops[k.toNat].index) s) ∧
  ((s.seq s.cur).loops.length ≤ k.toNat → traps (.lix rd k) 0x0E 0 0 s) ∧
  (∀ l r, (s.seq s.cur).loops = l :: r →
    (ready .lbrk s → exec .lbrk s = .next (done .lbrk (.goto l.stop) (fun q => { q with loops := r }) s)) ∧
    (ready .cLbrk s → exec .cLbrk s = .next (done .cLbrk (.goto l.stop) (fun q => { q with loops := r }) s))) ∧
  ((s.seq s.cur).loops = [] → traps .lbrk 0x0E 0 0 s ∧ traps .cLbrk 0x0E 0 0 s)) ∧
  (∀ (q : Seq) (a : Word),
  (q.loops = [] → (q.arrive a).pc = a ∧ (q.arrive a).loops = [] ∧ (q.arrive a).softPt = false) ∧
  ∀ l r, q.loops = l :: r →
    (a ≠ l.stop → (q.arrive a).pc = a ∧ (q.arrive a).loops = q.loops ∧ (q.arrive a).softPt = false) ∧
    (a = l.stop → (l.index + 1).toNat < l.count.toNat →
      (q.arrive a).pc = l.start ∧ (q.arrive a).loops = { l with index := l.index + 1 } :: r ∧
        (q.arrive a).softPt = true) ∧
    (a = l.stop → l.count.toNat ≤ (l.index + 1).toNat →
      (q.arrive a).softPt = true ∧ (q.arrive a).pc = ({ q with loops := r }.arrive a).pc ∧
        (q.arrive a).loops = ({ q with loops := r }.arrive a).loops))
/-! ## Issue and one step -/

namespace Sys2Proof.Claim

/-- Control registers whose every field is privileged (00 R10; 06 R158). -/
def privReg (c : CReg) : Bool := c = .vcap || c = .ctrap || c = .csump || c = .cdet || c = .cptbase

/-- Instructions that trap without privilege: RETT, CTXLD, CTXST, TLBINV, and MOVC and MOVCW of a register whose read or
write R10 makes trap; cquota may be read. -/
def privOnly : Instr → Bool
  | .rett | .ctxld _ | .ctxst _ | .tlbinv _ _ => true
  | .movcRead _ c => privReg c
  | .movcWrite c _ | .movcw _ c _ => privReg c || c = .cquota
  | _ => false

/-- Compact vector instructions (05 R119). -/
def compactVec : Instr → Bool
  | .cVadd .. | .cVsub .. | .cVmul .. | .cVand .. | .cVor .. | .cVxor .. | .cVmin .. | .cVmax .. | .cVminu .. | .cVmaxu ..
  | .cVfadd .. | .cVfmul .. | .cVfmin .. | .cVfmax .. | .cVmand .. | .cVmor .. | .cVmxor .. | .cVmandn .. => true
  | _ => false

/-- LI and LI.HI. -/
def isLi : Instr → Bool
  | .liLong .. | .liHi .. => true
  | _ => false

/-- The instructions of R123: every 48-bit one, every 64-bit one but LI and LI.HI, every compact vector one. -/
def r123 (i : Instr) : Bool := !i.isEvent && (i.len == 3 || (i.len == 4 && !isLi i) || compactVec i)

/-- The current sequencer is about to issue in run mode: the module runs, its context is not stopped, and neither a sleep, a
trap, a take at a soft point nor an instruction in flight keeps it. -/
def issuing (i : Instr) (s : State) : Prop :=
  let q := s.seq s.cur
  let c := s.ctx q.ctx
  s.pkg.frozen = false ∧ q.mode = .run ∧ q.sleep = none ∧ q.pend = none ∧ q.gtraps = [] ∧ q.inflight = [] ∧
    c.st ≠ .halted ∧ c.st ≠ .ended ∧ (q.take = none ∨ (q.softPt = false ∧ isSetvl i = false))

/-- The current sequencer is in handler mode, and neither a sleep nor a trap that waits keeps it. -/
def handling (s : State) : Prop :=
  let q := s.seq s.cur
  s.pkg.frozen = false ∧ q.mode = .handler ∧ q.sleep = none ∧ q.pend = none ∧ q.gtraps = []

/-- The instructions that R378 lets handler mode run. -/
def r378 : Instr → Bool
  | .add .. | .sub .. | .mul .. | .mulh .. | .mulhu .. | .div .. | .divu .. | .rem .. | .remu .. | .and .. | .or ..
  | .xor .. | .andn .. | .sll .. | .srl .. | .sra .. | .slt .. | .sltu .. | .min .. | .max .. | .minu .. | .maxu ..
  | .clz .. | .ctz .. | .popc .. | .addi .. | .andi .. | .ori .. | .xori .. | .slti .. | .slli .. | .srli .. | .srai ..
  | .liShort .. | .liLong .. | .liHi .. | .cAddi .. | .cLi .. | .cSlli .. | .cSrli .. | .cSrai .. | .cAdd .. | .cSub ..
  | .cAnd .. | .cOr .. | .cXor .. | .cSll .. | .cSrl .. | .cSra .. | .cMul .. | .cMin .. | .cMax .. | .cMv .. => true
  | .ld .. | .st .. | .ldfe .. | .cLd .. | .cSt .. | .amo .. | .amocas .. => true
  | .fadd .. | .fsub .. | .fmul .. | .ffma .. | .fdiv .. | .fsqrt .. | .fmin .. | .fmax .. | .fcmp .. | .fcvt .. => true
  | .beq .. | .bne .. | .blt .. | .bge .. | .bltu .. | .bgeu .. | .jal .. | .jalr .. | .cBeqz .. | .cBnez .. | .cJ .. => true
  | .movcRead .. | .movcWrite .. | .movcw .. | .tick .. | .fence .. | .fencex .. | .tlbinv .. | .pgq .. | .ctxld ..
  | .ctxst .. | .sumppop .. | .rett | .exit | .cExit | .hintNop .. | .cNop => true
  | _ => false

/-- The events that R508 and R509 let happen while the package is frozen, reset, and the register writes of the two masters whose
transports live then: R509 speaks of the debug port's, and that the management controller's have their effects is the model's reading
(log 53). -/
def whileFrozen : Instr → Bool
  | .reset | .freezeRequest _ | .thawRequest _ | .frzPin _ | .freezeTakeEffect | .debugAccess _ | .ownClaim _ _
  | .ownHandover _ _ _ | .ownRelease _ _ | .registerWrite _ _ _ => true
  | .leasebudWrite m _ _ | .bankpwrWrite m _ _ | .pwrdieForce m _ _ | .ecccntClr m _ | .hosterrClear m | .retrain m _ | .linkstatClr m _
  | .firmwareUpdate m _ | .notify (some m) _ | .notifyReset (some m) _ _ | .notifyDisable (some m) _ => m == .mc || m == .debug
  | _ => false

end Sys2Proof.Claim

/-- O10. When a sequencer in run mode is about to issue with nothing in flight, an instruction passes the gate if it has
the privilege it needs (R122), vtype is legal where R123 asks for it, no command of a group is left to run, and the
context's quota is not used up for a vector instruction. -/
def Obligations.IssuesInRunMode : Prop := ∀ (i : Instr) (s : State), issuing i s →
  (privOnly i = false ∨ (s.seq s.cur).priv = true) → (r123 i = true → vtVILL (s.seq s.cur).vtype = false) →
  (s.seq s.cur).grp.cmds = [] →
  (r123 i = true → (s.ctx (s.seq s.cur).ctx).limit = 0 ∨ 0 < (s.ctx (s.seq s.cur).ctx).balance) → ready i s

/-- O11. A privileged instruction raises PRIV before any effect when the sequencer is not privileged (R122); while vtype.VILL = 1
the instructions of R123 raise VTYPE before any effect. -/
def Obligations.TrapsBeforeIssue : Prop :=
  (∀ (i : Instr) (s : State), issuing i s → privOnly i = true →
  (s.seq s.cur).priv = false →
  exec i s = .next (issueTrap s s.cur ⟨0x02, 0, 0⟩ (pc s))) ∧
  (∀ (i : Instr) (s : State), issuing i s → r123 i = true →
  privOnly i = false → vtVILL (s.seq s.cur).vtype = true → exec i s = .next (issueTrap s s.cur ⟨0x03, 0, 0⟩ (pc s)))

/-- O12. In handler mode the instructions of R378 pass the gate, and every other encoded instruction is a double trap
that reports SYNC and the handler's pc, or VTYPE where vtype.VILL = 1 and R123 makes the instruction trap (15 R378; 05 R123). -/
def Obligations.HandlerModeIssue : Prop := ∀ (i : Instr) (s : State), handling s → i.isEvent = false →
  (r378 i = true → ready i s) ∧
  (r378 i = false → exec i s = .next
    (doubleTrap s s.cur (if r123 i = true ∧ vtVILL (s.seq s.cur).vtype = true then 0x03 else 0x15) (pc s)))

/-- O13. While the package is frozen nothing happens but what R508 and R509 name and, which is the model's reading (log 53), register
writes of the management controller and the debug port: every other instruction and event, also each write of the host and the peers,
whose ports accept nothing then (20 R471), leaves the machine as it was. -/
def Obligations.FrozenStandsStill : Prop := ∀ (i : Instr) (s : State), s.pkg.frozen = true → whileFrozen i = false →
  exec i s = .next s

/-- O14. What one step does with each move of the agenda. A turn of a sequencer that would issue reads its next
instruction and executes it with that sequencer current; an undecodable one raises ILLEGAL, and a comparator that matches
its address raises BKPT (05 R124; 06 R175). -/
def Obligations.StepFollowsAgenda : Prop := ∀ (s : State) (r : List Pick),
  (∀ n w i s', s.agenda = .seq n :: r → awake s n = true → (s.seq n).bkptHit = none →
    (fetchWord n).run { s with agenda := r } = .ok w s' → decode w = .ok i → step s = exec i { s' with cur := n }) ∧
  (∀ n w e s', s.agenda = .seq n :: r → awake s n = true → (s.seq n).bkptHit = none →
    (fetchWord n).run { s with agenda := r } = .ok w s' → decode w = .error e →
      step s = .next (issueTrap { s with agenda := r } n ⟨0x01, 0, 0⟩ (s.seq n).pc)) ∧
  (∀ n k, s.agenda = .seq n :: r → awake s n = true → (s.seq n).bkptHit = some k →
    step s = .next (issueTrap { s with agenda := r } n ⟨0x0F, (s.seq n).pc, BitVec.ofNat 64 k⟩ (s.seq n).pc)) ∧
  (∀ n, s.agenda = .seq n :: r → awake s n = false → s.pkg.frozen = false →
    step s = .next { s with agenda := r, now := s.now + 1 }) ∧
  (∀ i, s.agenda = .event i :: r → i.isEvent = true → step s = exec i { s with agenda := r }) ∧
  (∀ k, s.agenda = .elapse k :: r → s.pkg.frozen = false → step s = .next { s with agenda := r, now := s.now + k })

namespace Sys2Proof.Claim

/-- Die d holds a translation of va under a cptbase value that permits the access, and p is what it gives; a cistern address
lies in some window, the way there is open (20 R466, R470, R482), and no wait on a migrating page stands. -/
def reachesAt (s : State) (d : Nat) (root : Word) (acc : Access) (va : Nat) (p : Phys) : Prop :=
  va < 2 ^ 48 ∧ s.migs = [] ∧ (p.tier = 0 → (s.winOf p.key).isSome = true) ∧ s.wayTo d p.key = .clear ∧
    ∃ t, tlbHit (s.die d) (root.toNat % 4096) va = some t ∧ permits t.leaf acc = true ∧
      p = ⟨leafKey t.leaf t.level va, t.leaf, t.entry⟩

/-- As `reachesAt`, for the context of sequencer n on its die. -/
def reaches (s : State) (n : Nat) (acc : Access) (va : Nat) (p : Phys) : Prop :=
  reachesAt s (n / 16) (s.ctx (s.seq n).ctx).cptbase acc va p

/-- The same, with D set where the access writes (13 R339). -/
def mappedAt (s : State) (d : Nat) (root : Word) (acc : Access) (va : Nat) (p : Phys) : Prop :=
  reachesAt s d root acc va p ∧ (accWrites acc = true → eD p.leaf = true)

/-- As `mappedAt`, for the context of sequencer n on its die. -/
def mapped (s : State) (n : Nat) (acc : Access) (va : Nat) (p : Phys) : Prop :=
  mappedAt s (n / 16) (s.ctx (s.seq n).ctx).cptbase acc va p

/-- The n bytes at a key lie in main memory, the well or the cistern, outside the notify area, and no word of memory is
in error. -/
def sound (s : State) (key n : Nat) : Prop :=
  keyExists key = true ∧ keyExists (key + n - 1) = true ∧ key < hostKey ∧ inNotify key = false ∧ s.soft = []

end Sys2Proof.Claim

/-- O15. Outside loops, with no write held by determinism mode, when the bytes at the program counter lie in one page that the
sequencer may execute and decode to an instruction, a step of that sequencer is that instruction's execution (its own entry is
stored again as it is). -/
def Obligations.StepRunsDecoded : Prop := ∀ (s : State) (r : List Pick) (n key entry : Nat) (leaf : Word) (i : Instr),
  let q := s.seq n
  let len := lenOf (s.mem.num key 2)
  s.agenda = .seq n :: r → awake s n = true → q.bkptHit = none → q.loops = [] → q.lbuf = [] → q.held = [] →
  (∀ k, k < len → mapped s n .fetch (q.pc.toNat + 2 * k) ⟨key + 2 * k, leaf, entry⟩ ∧ sound s (key + 2 * k) 2) →
  decode (s.mem.num key (2 * len)) = .ok i → step s = exec i { (s.modSeq n id) with agenda := r, cur := n }

/-! ## Reset -/

/-- O16. The machine after reset: every sequencer is idle and in no kernel, with vtype 8 and cprio.LMAX 7; no unit is in
use; nothing is queued; the registers of chapters 20 and 21 hold their Reset values; links are DOWN; TICK is 0. That
memory reads as 0 is the model's choice (log 3). -/
def Obligations.ResetState : Prop :=
  let s := State.reset
  (∀ n, (s.seq n).mode = .idle ∧ (s.seq n).kernel = none ∧ (s.seq n).groups = [] ∧ (s.seq n).vtype = 8 ∧
    (s.seq n).vl = 0 ∧ (s.seq n).vcap = 16 ∧ (s.seq n).cprio = 0x700 ∧ (s.seq n).cflags = 0 ∧ (s.seq n).loops = [] ∧
    (s.seq n).inflight = [] ∧ (s.seq n).grp.st = .none) ∧
  (∀ a, s.mem.get a = 0) ∧ (∀ q, (s.queue q).st = .disabled) ∧ s.bars = [] ∧ s.kernels = [] ∧ s.ctxs = [] ∧
  (∀ d, d < 16 → (s.die d).budget = 12 ∧ (s.die d).unitsFree = 12 ∧ (s.die d).tlb = [] ∧ (s.die d).leases = [] ∧
    (s.die d).engines = [] ∧ (s.die d).pumps = [[], [], [], []] ∧ (s.die d).tasks = [] ∧ (s.die d).recs = [] ∧
    (s.die d).events = [] ∧ (s.die d).fabThresh = 70 ∧ (s.die d).cistce = 0 ∧ (s.die d).memce = 0) ∧
  (∀ k, k < 37 → (s.link k).st = .down) ∧
  s.pkg.owner = none ∧ s.pkg.ndrop = 0 ∧ s.pkg.frozen = false ∧ s.pkg.tick = 0 ∧ s.pkg.tickPeriod = 100 ∧
  s.pkg.pwrlim = 3000 ∧ s.pkg.hostErrV = false ∧ s.pkg.hostErr = (0, 0) ∧ s.pkg.qtbase = 0

/-! ## Encodings -/

/-- O17. Decoding the encoding of a well-formed scalar or compact instruction gives it back, for every operand. -/
def Obligations.ScalarRoundTrip : Prop := ∀ i : Instr, i.isEvent = false → i.len ≤ 2 → i.wf = true →
  decode (encode i) = .ok i

/-- O18. Decoding the encoding of a well-formed vector, tile, pump or attention instruction, or of LI with a 32-bit
immediate, gives it back, for every operand. -/
def Obligations.VectorRoundTrip : Prop := ∀ i : Instr, i.isEvent = false → 3 ≤ i.len → i.wf = true →
  decode (encode i) = .ok i

/-- O19. What the decoder accepts is well-formed and no event, and its length is what the first halfword says (05 R104);
an encoding that breaks a rule is refused. -/
def Obligations.DecodedIsWellFormed : Prop := ∀ (w : Nat) (i : Instr), decode w = .ok i →
  i.wf = true ∧ i.isEvent = false ∧ i.len = lenOf (w % 65536)

/-- O20. Words of the spec's examples and what they stand for (06 R137 to R156; 14 R351, R358; 15 R385; 19 R455). -/
def Obligations.ExampleWords : Prop :=
  decode 0x042F8C83 = .ok (.slt 25 24 23) ∧ decode 0x1CE9 = .ok (.cSub 25 26) ∧
  decode 0x0E8002EF = .ok (.sumppop 5) ∧ decode 0x0E40A06F = .ok (.ctxst 10) ∧ decode 0x0E00A06F = .ok (.ctxld 10) ∧
  decode 0x0000006F = .ok (.fence .seq) ∧ decode 0x000000EF = .ok (.fence .clu) ∧ decode 0x0000016F = .ok (.fence .die) ∧
  decode 0x000001EF = .ok (.fence .pkg) ∧ decode 0x0000026F = .ok (.fence .sys) ∧
  decode 0x0040306F = .ok (.fencex .p .v) ∧ decode 0x0042006F = .ok (.fencex .v .m) ∧
  decode 0x0046106F = .ok (.fencex .m .p) ∧ decode 0x0040406F = .ok (.fencex .h .v) ∧
  decode 0x0048006F = .ok (.fencex .v .h) ∧ decode 0x0816A06F = .ok (.barcfg .clu 10 11) ∧
  decode 0x0940A2EF = .ok (.arrive .die 5 10) ∧ decode 0x0A4A_A06F = .ok (.waitb .die 10 5) ∧
  decode 0x0B00A06F = .ok (.arrwait .clu 10)

/-! ## Fences, time, control registers, vector length -/

/-- O21. FENCE, FENCEX, IFLUSH, TICK and LOGMARK with nothing in flight: a fence performs the writes that determinism mode
holds (21 R500), whose ways no training link holds, and changes nothing else; IFLUSH empties the loop buffer and cuts the current
pass of every loop; TICK reads the package counter; without record or
replay LOGMARK does nothing (14 R352, R358; 06 R170, R178; 21 R504); a record that waits for space in the log goes on when
there is some (21 R501). -/
def Obligations.FencesAndTime : Prop := ∀ (s : State), (s.seq s.cur).inflight = [] →
  (∀ sc, s.drainWaits s.cur = false → ready (.fence sc) s →
    exec (.fence sc) s = .next (done (.fence sc) .next id (drainHeld s.cur s))) ∧
  (∀ c1 c2, (c1 = .m → tileWorkOf s s.cur = false) → s.drainWaits s.cur = false → ready (.fencex c1 c2) s →
    exec (.fencex c1 c2) s = .next (done (.fencex c1 c2) .next id (drainHeld s.cur s))) ∧
  (ready .iflush s → exec .iflush s = .next (done .iflush .next
    (fun q => { q with lbuf := [], fresh := q.loops.length }) s)) ∧
  (logMode s (s.seq s.cur).ctx = 0 → (∀ rd, puts (.tick rd) rd s.pkg.tick s) ∧ ∀ ra, goes (.logmark ra) .next s) ∧
  ((s.seq s.cur).held = [] → s.drainWaits s.cur = false ∧ drainHeld s.cur s = s) ∧
  ∀ n p, let x := (s.ctx (s.seq n).ctx).cdet.toNat
    s.pkg.frozen = false → (s.seq n).sleep = some .log → logMode s (s.seq n).ctx = 1 →
    mapped s n .load (x / 2 ^ 12 % 2 ^ 36 * 4096) p → p.tier = 1 ∨ p.tier = 2 → s.soft = [] →
    (BitVec.ofNat 64 (s.mem.num p.key 8) - BitVec.ofNat 64 (s.mem.num (p.key + 8) 8)).toNat < 2 ^ (x / 2 ^ 8 % 16 + 6) →
      exec (.logSpaceFree n) s = .next (s.modSeq n fun q => { q with sleep := none })

/-- O22. What MOVC reads from each control register (06 R158 to R161; 00 R11; 21 R492), once no lower instruction is in
flight where the register is cflags (03 R71). -/
def Obligations.ControlRegisterReads : Prop := ∀ (rd : Reg) (c : CReg) (s : State),
  let q := s.seq s.cur
  let x := s.ctx q.ctx
  let w := fun (n : Nat) => BitVec.ofNat 64 n
  let value : Word := match c with
    | .vl => w q.vl
    | .vtype => q.vtype
    | .vlmax => w (q.groups.length * 2 ^ 32 + vlmaxOf q.groups.length)
    | .vcap => w q.vcap
    | .cmask0 => q.cmask0
    | .cmask1 => q.cmask1
    | .cvalid => q.cvalid
    | .cld => q.cld
    | .cgkey => q.cgkey
    | .cgdraw => q.cgdraw
    | .cflags => w q.cflags
    | .ctrap => x.ctrap
    | .csump => x.csump
    | .cprio => q.cprio
    | .cstage => w q.stage
    | .cid => w (s.cur / 16 * 256 + s.cur % 16)
    | .cquota => BitVec.ofInt 64 (max (-2 ^ 31) (min (2 ^ 31 - 1) (x.balance / 1000)) * 2 ^ 32 + x.limit)
    | .cdet => x.cdet
    | .cptbase => x.cptbase
    | .sq0 | .sq1 | .sq2 | .sq3 => 0
  c.isStream = false → (c = .cflags → q.inflight = []) → puts (.movcRead rd c) rd value s

/-- O23. What MOVC writes into each control register: read-only and reserved fields ignore the write (06 R158 to R163; 05 R127
for vtype; 15 R373, R382; 21 R492, R499). MOVCW writes the register's old value into xd, and then xb into the register as
MOVC does (06 R162). -/
def Obligations.ControlRegisterWrites : Prop :=
  (∀ (c : CReg) (ra : Reg) (s : State),
  let q := s.seq s.cur
  let v := xr s ra
  let dirty := fun (q : Seq) => { q with dirtyC := q.dirtyC ||| (1 <<< cregNum c) }
  let seq := fun (k : CReg) (f : Seq → Seq) => c = k →
    exec (.movcWrite c ra) s = .next (done (.movcWrite c ra) .next (fun q => f (dirty q)) s)
  let ctx := fun (k : CReg) (f : Ctx → Ctx) => c = k →
    exec (.movcWrite c ra) s = .next (done (.movcWrite c ra) .next dirty (s.modCtx q.ctx f))
  let part := fun (lo n : Nat) => BitVec.ofNat 64 (v.toNat / 2 ^ lo % 2 ^ n * 2 ^ lo)
  ready (.movcWrite c ra) s →
    seq .vl id ∧ seq .vlmax id ∧ seq .cstage id ∧ seq .cid id ∧
    seq .vtype (fun q => { q with vtype := if vtLegal v then v else 0x8000000000000000 }) ∧
    seq .vcap (fun q => { q with vcap := min 16 (v.toNat % 32) }) ∧
    seq .cmask0 (fun q => { q with cmask0 := v &&& 0xFFFFFFFFFFFF }) ∧
    seq .cmask1 (fun q => { q with cmask1 := v &&& 0xFFFFFFFFFFFF }) ∧
    seq .cvalid (fun q => { q with cvalid := v &&& 0xFFFFFFFFFFFF }) ∧
    seq .cld (fun q => { q with cld := v &&& 0xFFFFFFFFFFFF }) ∧
    seq .cgkey (fun q => { q with cgkey := v }) ∧
    seq .cgdraw (fun q => { q with cgdraw := v &&& 0xFFFFFFFFFFFF0000 }) ∧
    seq .cflags (fun q => { q with cflags := v.toNat % 32 }) ∧
    ctx .ctrap (fun x => { x with ctrap := part 12 36 }) ∧
    ctx .cptbase (fun x => { x with cptbase := v &&& 0xFFFFFFFFFFFFF }) ∧
    seq .cprio (fun q =>
      let lmax := (if q.mode = .handler ∨ q.priv = true then v.toNat else q.cprio.toNat) / 256 % 8
      { q with cprio := BitVec.ofNat 64 (lmax * 256 + v.toNat / 16 % 4 * 16 + min (v.toNat % 8) lmax) }) ∧
    ctx .cdet (fun x => { x with cdet := part 12 36 + BitVec.ofNat 64 (min 10 (v.toNat / 256 % 16) * 256 +
      (if v.getLsbD 2 then 4 else 0) + if v.toNat % 4 = 3 then 0 else v.toNat % 4) }) ∧
    (c = .cquota → exec (.movcWrite c ra) s = .next (done (.movcWrite c ra) .next dirty (refillResume
      (s.modCtx q.ctx fun x => { x with limit := v.toNat % 2 ^ 32, balance := (v.toNat % 2 ^ 32 : Nat) * 1000 }) q.ctx))) ∧
    ctx .csump (fun x => { x with csump := part 12 36 + BitVec.ofNat 64 (max 6 (min 16 (v.toNat % 32))) })) ∧
  (∀ (rd : Reg) (c : CReg) (rb : Reg) (s : State), ready (.movcw rd c rb) s →
  (c = .cflags → (s.seq s.cur).inflight = []) →
  exec (.movcw rd c rb) s = .next (done (.movcw rd c rb) .next id
    (cregWrite (s.setX s.cur rd (cregRead s s.cur c)) s.cur c (xr s rb))))

/-- O24. SETVL (R164): the new vl is the smallest of xa, VLMAX and 2^CAPLOG, and xd receives it; the encoding. -/
def Obligations.SetVectorLength : Prop := ∀ (rd ra : Reg) (s : State),
  let vl := min (xr s ra).toNat (min (vlmaxOf (s.seq s.cur).groups.length) (2 ^ (s.seq s.cur).vcap))
  encode (.setvl rd ra) = 0x00C * 2 ^ 22 + ra.val * 2 ^ 12 + rd.val * 2 ^ 7 + 0x6F ∧
  (ready (.setvl rd ra) s → exec (.setvl rd ra) s = .next (done (.setvl rd ra) .next
    (fun q => ({ q with vl := vl, dirtyC := q.dirtyC ||| 1 } : Seq).setX rd (BitVec.ofNat 64 vl)) s))

/-- O25. VLMAX of a grant of G groups is 1,024 G rounded down to a power of two, and neither SETVL nor SETVLC grants more
than VLMAX or 2^CAPLOG elements (R42), whenever it completes. -/
def Obligations.VectorLengthLimit : Prop :=
  (∀ g, 0 < g → ∃ k, vlmaxOf g = 2 ^ k ∧ 2 ^ k ≤ 1024 * g ∧ 1024 * g < 2 ^ (k + 1)) ∧
  (∀ (rd ra : Reg) (s t : State), ready (.setvl rd ra) s → exec (.setvl rd ra) s = .next t →
    (t.seq s.cur).vl ≤ min (vlmaxOf (s.seq s.cur).groups.length) (2 ^ (s.seq s.cur).vcap)) ∧
  ∀ (n : Nat) (ra rb : Reg) (s t : State) (v : Nat), (setvlcRead n ra rb).run s = .ok (some v) t →
    v ≤ min (vlmaxOf (s.seq n).groups.length) (2 ^ (s.seq n).vcap)

/-! ## Scalar memory -/

namespace Sys2Proof.Claim

/-- The n bytes at p lie where the spec puts memory, outside the notify area; no word of memory is in error, no landing is due,
and nothing is kept of what a window word held: no version of a line, and no pull that a later write must not overtake. -/
def clear (s : State) (p : Phys) (n : Nat) : Prop :=
  keyExists p.key = true ∧ keyExists (p.key + n - 1) = true ∧ inNotify p.key = false ∧ s.soft = [] ∧ s.marks = [] ∧
    (∀ l, l ∈ s.landings → l.so = false) ∧ (s.seq s.cur).versions = [] ∧ (s.seq s.cur).kept = [] ∧
    ∀ i q, s.winOf p.key = some (i, q) → q.reads = []

/-- The words of a cistern place are full. -/
def fullAt (s : State) (p : Phys) (n : Nat) : Prop := p.tier = 0 → ∀ w, w ∈ wordsOf p.key n → s.full (8 * w) = true

/-- The state after a write of the current sequencer, with nothing in flight, reaches memory: D is set first (13 R339); a handler's
store into its window changes every version of the line (15 R379), and the words of a cistern place become full (08 R214). -/
def stored (s : State) (p : Phys) (bs : List Byte) : State :=
  let s := s.dirty (dieOf s.cur) p
  let q := s.seq s.cur
  let s2 := s.poke p.key bs
  let s3 := if p.tier = 0 then s2.markWords (wordsOf p.key bs.length) true else s2
  if p.tier = 0 && q.inWin p.key && q.mode == .handler then s3.modSeq s.cur fun q => storeVersions q p.key bs else s3

/-- The ticket that an .sc order draws (08 R218). -/
def ticketed (s : State) (o : Ord) : State := match o with
  | .scDie => s.modDie (dieOf s.cur) fun d => { d with ticket := d.ticket + 1 }
  | .scPkg => { s with pkg := { s.pkg with ticket := s.pkg.ticket + 1 } }
  | _ => s

end Sys2Proof.Claim

/-- O26. LD and C_LD (06 R141): with nothing in flight and an aligned address that translates, xd receives the eight bytes
there, the least significant first. -/
def Obligations.LoadResults : Prop := ∀ (rd ra : Reg) (imm : BitVec 15) (n : BitVec 6) (s : State) (p : Phys),
  let load := fun (i : Instr) (va : Word) => va.toNat % 8 = 0 → mapped s s.cur .load va.toNat p → p.tier ≤ 4 →
    clear s p 8 → fullAt s p 8 → (p.tier = 3 → logMode s (s.seq s.cur).ctx = 0) →
    puts i rd (BitVec.ofNat 64 (s.mem.num p.key 8)) s
  quiet s → load (.ld rd ra imm) (xr s ra + BitVec.ofInt 64 imm.toInt) ∧
    load (.cLd rd n) (xr s 1 + BitVec.ofNat 64 (8 * n.toNat))

/-- O27. ST and C_ST (06 R141): the eight bytes of xs are written at the address; under determinism mode a write to far
memory that is RC or UN is held instead (21 R500). -/
def Obligations.StoreResults : Prop := ∀ (rs ra : Reg) (imm : BitVec 15) (n : BitVec 6) (s : State) (p : Phys),
  let q := s.seq s.cur
  let bs := bytesOf 8 (xr s rs).toNat
  let store := fun (i : Instr) (va : Word) => va.toNat % 8 = 0 → reaches s s.cur .store va.toNat p → p.tier ≤ 4 →
    clear s p 8 → ready i s →
      ((p.tier = 0 ∨ s.det q.ctx = false ∨ p.kind = 0) → exec i s = .next (done i .next id (stored s p bs))) ∧
      (p.tier ≠ 0 → s.det q.ctx = true → p.kind ≠ 0 →
        exec i s = .next (done i .next (fun q => { q with
          held := [⟨q.heldNum, va.toNat, p.key, bs, List.replicate 8 0xFF⟩], heldNum := q.heldNum + 1 })
            (s.dirty (dieOf s.cur) p)))
  quiet s → store (.st rs ra imm) (xr s ra + BitVec.ofInt 64 imm.toInt) ∧
    store (.cSt rs n) (xr s 1 + BitVec.ofNat 64 (8 * n.toNat))

/-- O28. AMO and AMOCAS (06 R143), for every operation, width and order: xd receives the old value, sign-extended from 32 bits in
the .w forms, and memory the new one; AMOCAS writes only when the old value is that of xd. The new values of the atomic
operations (05 R109), on 64-bit words. -/
def Obligations.AtomicResults : Prop :=
  (∀ (op : AmoOp) (o : Ord) (w : Bool) (rd rb ra : Reg) (s : State) (p : Phys),
  let size := if w then 4 else 8
  let old := s.mem.num p.key size
  let b := (xr s rb).toNat % 2 ^ (8 * size)
  let res : Word := if w then (BitVec.ofNat 32 old).signExtend 64 else BitVec.ofNat 64 old
  quiet s → (xr s ra).toNat % size = 0 → reaches s s.cur .atomic (xr s ra).toNat p → p.tier ≤ 2 → clear s p size →
  fullAt s p size →
    (ready (.amo op o w rd rb ra) s → exec (.amo op o w rd rb ra) s = .next (done (.amo op o w rd rb ra) .next
      (·.setX rd res) (stored (ticketed s o) p (bytesOf size (amoApply op (8 * size) old b))))) ∧
    (ready (.amocas o w rd rb ra) s → exec (.amocas o w rd rb ra) s = .next (done (.amocas o w rd rb ra) .next
      (·.setX rd res) (if old = (xr s rd).toNat % 2 ^ (8 * size) then stored (ticketed s o) p (bytesOf size b)
        else ticketed s o)))) ∧
  (∀ a b : Word,
  let f := fun op => BitVec.ofNat 64 (amoApply op 64 a.toNat b.toNat)
  f .add = a + b ∧ f .and = a &&& b ∧ f .or = a ||| b ∧ f .xor = a ^^^ b ∧
  f .min = (if a.toInt ≤ b.toInt then a else b) ∧ f .max = (if a.toInt ≤ b.toInt then b else a) ∧
  f .minu = (if a.toNat ≤ b.toNat then a else b) ∧ f .maxu = (if a.toNat ≤ b.toNat then b else a) ∧ f .swap = b)

/-- O29. LDFE (06 R142): xd receives the full word at a cistern address, which becomes empty. -/
def Obligations.LoadAndEmpty : Prop := ∀ (rd ra : Reg) (imm : BitVec 15) (s : State) (p : Phys),
  let va := xr s ra + BitVec.ofInt 64 imm.toInt
  quiet s → va.toNat % 8 = 0 → mapped s s.cur .load va.toNat p → p.tier = 0 → clear s p 8 → fullAt s p 8 →
  ready (.ldfe rd ra imm) s → ∃ t, exec (.ldfe rd ra imm) s = .next t ∧
    (t.seq s.cur).getX rd = (if rd = 0 then 0 else BitVec.ofNat 64 (s.mem.num p.key 8)) ∧
    (∀ r, r ≠ rd → (t.seq s.cur).getX r = xr s r) ∧ t.full p.key = false ∧ memKept s t ∧
    (∀ m, m ≠ s.cur → (t.seq m).x = (s.seq m).x ∧ (t.seq m).pc = (s.seq m).pc)

/-- O30. What a store leaves in memory: the bytes stored at their address, D in the table entry of its page and in the die's copy of
it (13 R339), and every other byte as before, unless a command group is open (12 R315). -/
def Obligations.StoredBytes : Prop := ∀ (s : State) (p : Phys) (bs : List Byte),
  let d := dieOf s.cur
  s.seqs.all (fun q => q.2.grp.st == .none) = true →
    (∀ k, (h : k < bs.length) → (stored s p bs).mem.get (p.key + k) = bs[k]) ∧
    (∀ a, (a < p.key ∨ p.key + bs.length ≤ a) → (stored s p bs).mem.get a = (s.dirty d p).mem.get a) ∧
    (eD p.leaf = true → s.dirty d p = s) ∧
    (eD p.leaf = false → (s.dirty d p).mem.num p.entry 8 = s.mem.num p.entry 8 ||| 2 ^ 57 ∧
      (∀ a, (a < p.entry ∨ p.entry + 8 ≤ a) → (s.dirty d p).mem.get a = s.mem.get a) ∧
      ∀ space va t, d < 16 → tlbHit (s.die d) space va = some t → t.entry = p.entry → t.leaf = p.leaf →
        tlbHit ((s.dirty d p).die d) space va = some { t with leaf := t.leaf ||| 0x200000000000000 }) ∧
    (∀ m, ((stored s p bs).seq m).x = (s.seq m).x ∧ ((stored s p bs).seq m).pc = (s.seq m).pc ∧
      ((stored s p bs).seq m).isn = (s.seq m).isn ∧ ((stored s p bs).seq m).cflags = (s.seq m).cflags)

/-- O31. The checks of a scalar access in their order (06 R140): an address at or above 2^48 raises PFAULT-R, or PFAULT-W
for an access that writes; a misaligned one MISALIGN; a missing permission PROT; a tier that the instruction does not
accept TIER; each before any effect and with the address. -/
def Obligations.AddressTraps : Prop := ∀ (i : Instr) (a : SAcc) (s : State), smem i = some a →
  let va := xr s a.ra + a.off
  let acc := a.kind.acc
  (2 ^ 48 ≤ va.toNat → traps i (if accWrites acc then 0x06 else 0x05) va 0 s) ∧
  (va.toNat < 2 ^ 48 → va.toNat % a.size ≠ 0 → traps i 0x04 va 0 s) ∧
  (va.toNat < 2 ^ 48 → va.toNat % a.size = 0 → s.migs = [] → ∀ t,
    tlbHit (s.die (dieOf s.cur)) (fld (s.ctx (s.seq s.cur).ctx).cptbase 0 12) va.toNat = some t →
      permits t.leaf acc = false → traps i 0x08 va 0 s) ∧
  (∀ p, va.toNat % a.size = 0 → mapped s s.cur acc va.toNat p →
    (match i with
      | .ld .. | .st .. | .cLd .. | .cSt .. => 4 < p.tier
      | .ldfe .. => p.tier ≠ 0
      | _ => 2 < p.tier) → traps i 0x14 va 0 s)

/-! ## Chain words, ownership, descriptors, streams, monitors -/

/-- O32. PUBHW and SETVLC on a chain word (06 R165 to R167), with nothing in flight: PUBHW never lowers HW and never clears
CLOSED (that it does not wait for an empty cistern word, and leaves it full, is the model's choice, log 92); SETVLC takes what is published above the position, 0 elements from a closed word, and sleeps on an open one
until it finds elements there. -/
def Obligations.ChainWords : Prop := ∀ (rd ra rb : Reg) (s : State) (p : Phys),
  let old := s.mem.num p.key 8
  let b := (xr s rb).toNat
  let cap := min (vlmaxOf (s.seq s.cur).groups.length) (2 ^ (s.seq s.cur).vcap)
  let new := (if 2 ^ 63 ≤ old ∨ 2 ^ 63 ≤ b then 2 ^ 63 else 0) + max (old % 2 ^ 63) (b % 2 ^ 63)
  let put := fun (v : Nat) => exec (.setvlc rd ra rb) s = .next (done (.setvlc rd ra rb) .next
    (fun q => ({ q with vl := v, dirtyC := q.dirtyC ||| 1 } : Seq).setX rd (BitVec.ofNat 64 v)) s)
  quiet s → (xr s ra).toNat % 8 = 0 → p.tier ≤ 2 → clear s p 8 →
    (reaches s s.cur .atomic (xr s ra).toNat p → ready (.pubhw ra rb) s →
      exec (.pubhw ra rb) s = .next (done (.pubhw ra rb) .next id (stored s p (bytesOf 8 new)))) ∧
    (mapped s s.cur .load (xr s ra).toNat p → fullAt s p 8 →
      (b < old % 2 ^ 63 → ready (.setvlc rd ra rb) s → put (min (old % 2 ^ 63 - b) cap)) ∧
      (old % 2 ^ 63 ≤ b → 2 ^ 63 ≤ old → ready (.setvlc rd ra rb) s → put 0) ∧
      (old % 2 ^ 63 ≤ b → old < 2 ^ 63 → ready (.setvlc rd ra rb) s → exec (.setvlc rd ra rb) s = .next (s.modSeq s.cur fun q =>
        { q with sleep := some (.setvlc rd ra rb) })) ∧
      (b < old % 2 ^ 63 → s.pkg.frozen = false → (s.seq s.cur).sleep = some (.setvlc rd ra rb) →
        exec (.setvlcWake s.cur) s = .next (s.modSeq s.cur fun q =>
          let v := min (old % 2 ^ 63 - b) cap
          { ({ q with vl := v, dirtyC := q.dirtyC ||| 1 } : Seq).setX rd (BitVec.ofNat 64 v) with
            sleep := none }.retire (.setvlc rd ra rb) .next)))

/-- O33. OWNQ (R169): the row, group and bank of R41 for an address in the issuing grant's window, or NOTMINE; it
translates nothing and never traps. -/
def Obligations.OwnershipQuery : Prop := ∀ (rd ra : Reg) (s : State),
  let q := s.seq s.cur
  let a := (xr s ra).toNat
  let g := q.groups.length
  let k := (a - q.winVa) / 64
  encode (.ownq rd ra) = 0x00F * 2 ^ 22 + ra.val * 2 ^ 12 + rd.val * 2 ^ 7 + 0x6F ∧
  (q.winVa ≤ a → a < q.winVa + 0x200000 * g →
    puts (.ownq rd ra) rd (BitVec.ofNat 64 (k / (16 * g) * 2 ^ 16 + k % g * 2 ^ 8 + k / g % 16)) s ∧
      k / (16 * g) < 2048 ∧ k % g < g) ∧
  (¬(q.winVa ≤ a ∧ a < q.winVa + 0x200000 * g) → puts (.ownq rd ra) rd 0x8000000000000000 s)

/-- O34. MOVTD and RDTD (10 R254, R257): the low bits of xa go into the field, nothing else of the descriptor changes, and
RDTD reads the field. -/
def Obligations.TileDescriptors : Prop := ∀ (td : BitVec 4) (f : TdField) (ra rd : Reg) (s : State),
  let t := (s.seq s.cur).td[td.toNat]
  let width := fun (g : TdField) => match g with
    | .base | .base2 => 48
    | .rows | .cols => 16
    | .etype => 9
    | _ => 32
  (ready (.movtd td f ra) s → exec (.movtd td f ra) s = .next (done (.movtd td f ra) .next
    (fun q => { q with td := q.td.set td.toNat (t.put f (xr s ra)) }) s)) ∧
  puts (.rdtd rd td f) rd (BitVec.ofNat 64 (t.get f)) s ∧
  (t.put f (xr s ra)).get f = (xr s ra).toNat % 2 ^ width f ∧ ∀ g, g ≠ f → (t.put f (xr s ra)).get g = t.get g

/-- O35. BINDQ, UNBINDQ and reads of stream registers (11 R295, R296): BINDQ binds the last pump instruction that named
the landing word, unless there is none or it is PSCAT; a read of an unbound register, or one past the last element, raises
SYNC; one of an element that has not landed sleeps
until it has, and one that has landed is read whether its words are full or not; a PGATH, or an element of no MOVC size, gives its
address. -/
def Obligations.StreamRegisters : Prop := ∀ (rd ra : Reg) (k : Fin 4) (s : State),
  let q := s.seq s.cur
  let c : CReg := match k with
    | 0 => .sq0
    | 1 => .sq1
    | 2 => .sq2
    | 3 => .sq3
  let kb : BitVec 2 := BitVec.ofNat 2 k.val
  let bound := q.copyLog.find? fun c => c.landing == (xr s ra).toNat
  let r := q.sqr[k]
  (∀ x, bound = some x → x.kind ≠ 2 → ready (.bindq kb ra) s → exec (.bindq kb ra) s = .next (done (.bindq kb ra) .next
    (fun q => { q with sqr := q.sqr.set k.val { x with bound := true, pos := 0 } }) s)) ∧
  (bound = none → traps (.bindq kb ra) 0x15 0 0 s) ∧ (∀ x, bound = some x → x.kind = 2 → traps (.bindq kb ra) 0x15 0 0 s) ∧
  (ready (.unbindq kb) s → exec (.unbindq kb) s = .next (done (.unbindq kb) .next
    (fun q => { q with sqr := q.sqr.set k.val StreamReg.none }) s)) ∧
  (r.bound = false → traps (.movcRead rd c) 0x15 0 0 s) ∧
  ∀ p, r.bound = true → r.landing % 8 = 0 → r.landing < 2 ^ 48 → mapped s s.cur .load r.landing p → p.tier = 0 →
    clear s p 8 → fullAt s p 8 → q.inflight = [] →
      (s.mem.num p.key 8 / 2 ^ 24 % 2 ^ 24 ≤ r.pos → traps (.movcRead rd c) 0x15 0 0 s) ∧
      (r.pos < s.mem.num p.key 8 / 2 ^ 24 % 2 ^ 24 → s.mem.num p.key 8 % 2 ^ 24 ≤ r.pos → ready (.movcRead rd c) s →
        exec (.movcRead rd c) s = .next (s.modSeq s.cur fun q => { q with sleep := some (.stream rd k.val) })) ∧
      (r.pos < s.mem.num p.key 8 / 2 ^ 24 % 2 ^ 24 → r.pos < s.mem.num p.key 8 % 2 ^ 24 → r.index = 0 → r.kind = 1 ∨ 3 < r.sz →
        q.held = [] → ready (.movcRead rd c) s → exec (.movcRead rd c) s = .next (done (.movcRead rd c) .next (fun q =>
          { q.setX rd (BitVec.ofNat 64 (r.base + r.pos * r.stride)) with
            sqr := q.sqr.set k.val { r with pos := r.pos + 1 } }) s)) ∧
      (r.pos < s.mem.num p.key 8 / 2 ^ 24 % 2 ^ 24 → r.pos < s.mem.num p.key 8 % 2 ^ 24 → r.index = 0 → r.kind ≠ 1 →
        r.sz ≤ 3 → ∀ p', let a := r.base + r.pos * r.stride
        a < 2 ^ 48 → a % 2 ^ r.sz = 0 → mapped s s.cur .load a p' → p'.tier ≤ 2 → clear s p' (2 ^ r.sz) → quiet s →
          let read := fun (q : Seq) => { q.setX rd (BitVec.ofNat 64 (s.mem.num p'.key (2 ^ r.sz))) with
            sqr := q.sqr.set k.val { r with pos := r.pos + 1 } }
          (ready (.movcRead rd c) s →
            exec (.movcRead rd c) s = .next (done (.movcRead rd c) .next read s)) ∧
          (s.pkg.frozen = false → q.sleep = some (.stream rd k.val) → exec (.streamRead s.cur) s = .next
            (s.modSeq s.cur fun q => { read q with sleep := none }.retire (.movcRead rd c) .next)))

/-- O36. MON arms the monitor on the line of its address; MWAIT completes at once with 2 without a monitor, with 0 after a
write to the line, with 3 under a take request, and sleeps otherwise; its wake reports a write, an expired time-out and a take in
this order (that the time-out comes before the take is the model's choice, log 116), and disarms the monitor (06 R171, R172). -/
def Obligations.Monitors : Prop := ∀ (rd ra : Reg) (s : State) (n start : Nat) (line : Nat),
  let q := s.seq s.cur
  let put := fun (c : Word) => exec (.mwait rd ra) s = .next (done (.mwait rd ra) .next
    (fun q => { q.setX rd c with monitor := none }) s)
  (∀ p, (xr s ra).toNat < 2 ^ 48 → mapped s s.cur .load (xr s ra).toNat p → p.tier ≤ 2 → ready (.mon ra) s →
    exec (.mon ra) s = .next (done (.mon ra) .next (fun q => { q with monitor := some (p.key / 64, false) }) s)) ∧
  (logMode s q.ctx = 0 → ready (.mwait rd ra) s →
    (q.monitor = none → put 2) ∧ (q.monitor = some (line, true) → put 0) ∧
    (q.monitor = some (line, false) → q.take.isSome = true → put 3) ∧
    (q.monitor = some (line, false) → q.take = none → exec (.mwait rd ra) s = .next (s.modSeq s.cur fun q =>
      { q with sleep := some (.mwait rd ra s.pkg.tick.toNat) }))) ∧
  (s.pkg.frozen = false → (s.seq n).sleep = some (.mwait rd ra start) → logMode s (s.seq n).ctx = 0 →
    let limit := (s.seq n).getX ra
    let woken := fun (c : Word) => exec (.mwaitWake n) s = .next (s.modSeq n fun q =>
      { q.setX rd c with monitor := none, sleep := none }.retire (.mwait rd ra) .next)
    ((s.seq n).monitor = some (line, true) → woken 0) ∧
    ((s.seq n).monitor = some (line, false) → limit ≠ 0 → limit.toNat ≤ (s.pkg.tick - BitVec.ofNat 64 start).toNat →
      woken 1) ∧
    ((s.seq n).monitor = some (line, false) →
      (limit = 0 ∨ (s.pkg.tick - BitVec.ofNat 64 start).toNat < limit.toNat) → (s.seq n).take.isSome = true → woken 3))
/-! ## Translations, the sump -/

/-- O37. TLBINV (13 R342, R343): a reserved bit, a reserved scope, or an address above 2^48 where one is needed raises BADFMT;
else the translations of the space and the address go from the caches of the sequencer's die, or of all, and issue goes on once
nothing holds one of them any more. PGQ (13 R344): reason 4 for an address above 2^48, the walk's reason and level where it fails,
else the leaf's fields, with PORT and FRAME for a privileged reader alone. A miss walks the tree, sets A in the leaf and its copy
(13 R339, R340); a wait on a migrating page expires after 1,000,000 reference cycles (13 R336). -/
def Obligations.Translations : Prop :=
  (∀ (ra rb : Reg) (s : State),
  let ctl := (xr s rb).toNat
  let a := (xr s ra).toNat
  let bad := 2 ^ 18 ≤ ctl ∨ ctl / 2 ^ 14 % 4 ≠ 0 ∨ 2 ≤ ctl / 2 ^ 16 % 4 ∨ (ctl / 2 ^ 12 % 2 = 0 ∧ 2 ^ 48 ≤ a)
  let hit := fun (t : TlbEntry) => (ctl / 2 ^ 13 % 2 = 1 ∨ t.space = ctl % 2 ^ 12) ∧
    (ctl / 2 ^ 12 % 2 = 1 ∨ (t.vpn ≤ a / 4096 ∧ a / 4096 < t.vpn + t.pages))
  let dies := if ctl / 2 ^ 16 % 4 = 0 then [s.cur / 16] else List.range 16
  let gone := dies.foldl (fun t d => tlbRemove t d (xr s rb) a) s
  let holders := (dies.map fun d => tlbHolders s d (xr s rb) a).flatten
  (bad → traps (.tlbinv ra rb) 0x0B 0 0 s) ∧
  (gone.mem = s.mem ∧ ∀ d, d < 16 → (gone.die d).tlb = if ctl / 2 ^ 16 % 4 = 0 ∧ d ≠ s.cur / 16 then (s.die d).tlb
    else (s.die d).tlb.filter fun e => !(decide (hit e))) ∧
  (¬bad → quiet s → (s.seq s.cur).inv = none → ready (.tlbinv ra rb) s →
    (holders = [] → exec (.tlbinv ra rb) s = .next (done (.tlbinv ra rb) .next id gone)) ∧
    (holders ≠ [] → exec (.tlbinv ra rb) s = .next (gone.modSeq s.cur fun q => { q with inv := some holders }))) ∧
  (¬bad → ready (.tlbinv ra rb) s → ∀ hs, (s.seq s.cur).inv = some hs →
    (hs.any (stillHolds s) = true → exec (.tlbinv ra rb) s = .next s.idleTurn) ∧
    (hs.any (stillHolds s) = false →
      exec (.tlbinv ra rb) s = .next (done (.tlbinv ra rb) .next (fun q => { q with inv := none }) s)))) ∧
  (∀ (rd ra : Reg) (s : State),
  let q := s.seq s.cur
  let a := (xr s ra).toNat
  let w := walk s.mem (s.ctx q.ctx).cptbase a
  let e := w.leaf
  let put := fun (v : Nat) => puts (.pgq rd ra) rd (BitVec.ofNat 64 v) s
  let bit := fun (b : Bool) (k : Nat) => if b then 2 ^ k else 0
  let shown := q.mode = .handler ∨ q.priv = true
  quiet s → (a < 2 ^ 48 → s.soft = [] ∧ ∀ k, k ∈ w.path → s.wayTo (s.cur / 16) k = .clear) →
    (2 ^ 48 ≤ a → put (2 ^ 63 + 4 * 2 ^ 60)) ∧
    (a < 2 ^ 48 → w.reason ≠ 0 → put (2 ^ 63 + w.reason * 2 ^ 60 + w.level * 2 ^ 58)) ∧
    (a < 2 ^ 48 → w.reason = 0 → put (w.level * 2 ^ 58 + eS e * 2 ^ 56 +
      (if shown then ePort e * 2 ^ 52 + (pageBase e w.level + a % pageSize e w.level) / 4096 * 2 ^ 12 else 0) +
      eTier e * 2 ^ 9 + eKind e * 2 ^ 7 + bit (eX e) 6 + bit (eW e) 5 + bit (eR e) 4 + bit (eD e) 3 + bit (eA e) 2))) ∧
  (∀ (s : State) (d c va : Nat) (acc : Access),
    let space := (s.ctx c).cptbase.toNat % 4096
    let w := walk s.mem (s.ctx c).cptbase va
    let leaf := w.leaf ||| 0x100000000000000
    let size := pageSize w.leaf w.level
    s.pkg.frozen = false → d < 16 → (∃ p, p ∈ s.seqs ∧ p.2.ctx = c ∧ p.2.mode ≠ .idle ∧ p.1 / 16 = d) →
    tlbHit (s.die d) space va = none → va < 2 ^ 48 → s.soft = [] → w.reason = 0 → permits w.leaf acc = true →
    (eTier w.leaf = 0 → (s.winOf (leafKey w.leaf w.level va)).isSome = true) →
    s.seqs.all (fun q => q.2.grp.st == .none) = true → (∀ k, k ∈ w.path → s.wayTo d k = .clear) →
      ∃ t, exec (.pageWalk d c va acc) s = .next t ∧
        tlbHit (t.die d) space va = some ⟨space, va / size * (size / 4096), size / 4096, leaf, w.level, w.entry⟩ ∧
        t.mem.num w.entry 8 = leaf.toNat ∧ ∀ a, (a < w.entry ∨ w.entry + 8 ≤ a) → t.mem.get a = s.mem.get a) ∧
  ∀ (s : State) (k : Nat) (m : MigWait), s.pkg.frozen = false → s.migs[k]? = some m → m.expired = false →
    1000000 ≤ s.now - m.since → s.sumps = [] →
      exec (.migrationTimeout k) s = .next { s with migs := s.migs.set k { m with expired := true } }

/-- O38. SUMPPOP (15 R385): 0 without a sump or from an empty one; else the address of the next entry, which is
consumed. -/
def Obligations.SumpPop : Prop := ∀ (rd : Reg) (s : State) (p : Phys),
  let cs := (s.ctx (s.seq s.cur).ctx).csump.toNat
  let h := cs / 2 ^ 12 % 2 ^ 36 * 4096
  let put := s.mem.num p.key 8
  let got := s.mem.num (p.key + 8) 8
  (h = 0 → puts (.sumppop rd) rd 0 s) ∧
  (h ≠ 0 → quiet s → s.sumps = [] → mapped s s.cur .atomic h p → p.tier = 1 ∨ p.tier = 2 → clear s p 16 →
    clear s ⟨p.key + 8, p.leaf, p.entry⟩ 8 → ready (.sumppop rd) s →
      (put = got → exec (.sumppop rd) s = .next (done (.sumppop rd) .next (·.setX rd 0) s)) ∧
      (put ≠ got → exec (.sumppop rd) s = .next (done (.sumppop rd) .next id
        ((s.setX s.cur rd (BitVec.ofNat 64 (h + 64 + 64 * (got % 2 ^ (cs % 32))))).poke (p.key + 8) (bytesOf 8 (got + 1))))))

/-! ## Vector instructions -/

namespace Sys2Proof.Claim

/-- The vector instructions that join those in flight at once, and whose elements follow as moves of the groups. -/
def elementwise (i : Instr) : Bool := match vform i with
  | some f => match f.op with
    | .wait | .accin .. | .drain .. | .pump .. => false
    | _ => true
  | none => false

/-- The state in which a vector instruction has joined those in flight, with the values that it captures (15 R377); cld has
the base address of its memory destination (01 R34), and the context is charged for its lines (21 R494). -/
def joined (i : Instr) (f : VForm) (s : State) : State :=
  let q := s.seq s.cur
  let e := q.entryOf i f (sdestOf f)
  let q' := { q with inflight := q.inflight ++ [{ e with waves := waveSize s s.cur }] }
  chargeCtx (s.setSeq s.cur (q'.setCld f)) q.ctx (20 * f.op.weight (vtTy q.vtype) * quotaLines f e)

/-- Sequencer n is in run mode with the one instruction e in flight, nothing stops its groups, and group g, whose wave has
begun, has not completed it; no element that an unreadable index entry left with its home is due. -/
def running (s : State) (n g : Nat) (e : Entry) : Prop :=
  let q := s.seq n
  s.pkg.frozen = false ∧ q.mode = .run ∧ q.inflight = [e] ∧ q.gtraps = [] ∧ q.pend = none ∧ e.gs.length = q.groups.length ∧
    g < q.groups.length ∧ g < e.waves ∧ (e.ctr g).fin = false ∧ e.odd = []

/-- The caches of die d agree: the translations of the die's cache do not overlap, and those of its banks and groups are some of
them. -/
def cachesAgree (s : State) (d : Nat) : Prop :=
  ((s.die d).tlb.Pairwise fun t u => t.space = u.space → t.vpn + t.pages ≤ u.vpn ∨ u.vpn + u.pages ≤ t.vpn) ∧
    ∀ pl space va t, cacheHit (s.die d) pl space va = some t → tlbHit (s.die d) space va = some t

/-- A place of w bytes in the window of sequencer n, aligned, on a page that is not SO (13 R335). -/
def inWindow (s : State) (n : Nat) (acc : Access) (va w : Nat) (p : Phys) : Prop :=
  mapped s n acc va p ∧ p.tier = 0 ∧ p.kind ≠ 0 ∧ va % w = 0 ∧ p.key % w = 0 ∧ (s.seq n).winPa ≤ p.key ∧
    p.key + w ≤ (s.seq n).winPa + 0x200000 * (s.seq n).groups.length ∧ inCist p.key = true ∧ inCist (p.key + w - 1) = true

/-- The same, with full words. -/
def here (s : State) (n : Nat) (acc : Access) (va w : Nat) (p : Phys) : Prop :=
  inWindow s n acc va w p ∧ ∀ k, k < w → s.full (p.key + k) = true

/-- A place of w bytes in the main or well tier, aligned, that is no place of the window. -/
def outside (s : State) (n : Nat) (acc : Access) (va w : Nat) (p : Phys) : Prop :=
  mapped s n acc va p ∧ (p.tier = 1 ∨ p.tier = 2) ∧ va % w = 0 ∧ sound s p.key w ∧
    (p.key + w ≤ (s.seq n).winPa ∨ (s.seq n).winPa + 0x200000 * (s.seq n).groups.length ≤ p.key)

/-- A type whose elements are bits, or whole bytes. -/
def plain (t : ETy) : Prop := t = .n1 ∨ (t.packed = false ∧ t ≠ .mld)

/-- Bytes in which an element stands. -/
def span (t : ETy) : Nat := if t = .n1 then 1 else t.size

/-- Where element i of a vector stands, in modes 00 and 01 (01 R24, R25; 08 R211). -/
def elemVa (o : Opd) (t : ETy) (i : Nat) : Nat := match o.spec with
  | .stride _ => (o.base + BitVec.ofNat 64 i * o.aux).toNat
  | _ => (o.base.toNat + if t = .n1 then i / 8 else i * t.size) % 2 ^ 64

/-- The bits of element i in what stands there. -/
def pick (t : ETy) (i m : Nat) : Nat := if t = .n1 then m / 2 ^ (i % 8) % 2 else m

/-- A source operand gives element i the bits v: a register's, or those of a full place of the window, in each of the four modes
(01 R24; 07 R180; 08 R210). -/
def sourced (s : State) (n : Nat) (o : Option Opd) (t : ETy) (i v : Nat) : Prop := match o with
  | none => True
  | some o => plain t ∧ (t = .w48 → v < 2 ^ 48) ∧ match o.spec with
    | .scal _ => v = o.base.toNat % 2 ^ t.bits
    | .unit _ => ∃ p, here s n .load (elemVa o t i) (span t) p ∧ v = pick t i (s.mem.num p.key (span t))
    | .stride _ => t ≠ .n1 ∧ ∃ p, here s n .load (elemVa o t i) t.size p ∧ v = s.mem.num p.key t.size
    | .index _ => t ≠ .n1 ∧ ∃ k p, here s n .load ((o.aux.toNat + 4 * i) % 2 ^ 64) 4 k ∧
        here s n .load (o.base + BitVec.ofInt 64 (BitVec.ofNat 32 (s.mem.num k.key 4)).toInt).toNat t.size p ∧
        v = s.mem.num p.key t.size

/-- Group g of sequencer n owns the line at va (02 R41). -/
def owned (s : State) (n g va : Nat) : Prop :=
  (s.seq n).winVa ≤ va ∧ va < (s.seq n).winVa + 0x200000 * (s.seq n).groups.length ∧
    (va - (s.seq n).winVa) / 64 % (s.seq n).groups.length = g

/-- Element i of a destination in mode 00 or 01 stands at p, in a line of the window that group g owns. -/
def placed (s : State) (n g : Nat) (o : Option Opd) (t : ETy) (i : Nat) (p : Phys) : Prop := ∃ d, o = some d ∧ plain t ∧
  (match d.spec with
    | .unit _ => True
    | .stride _ => t ≠ .n1
    | _ => False) ∧
  inWindow s n .store (elemVa d t i) (span t) p ∧ owned s n g (elemVa d t i) ∧
  elemVa d t i - (s.seq n).winVa = p.key - (s.seq n).winPa

/-- Nothing but the entry in flight keeps group g at element i of it: no landing, error, version, held write, group or bucket. -/
def atElement (s : State) (n g i : Nat) (e : Entry) : Prop :=
  running s n g e ∧ (e.ctr g).next = i ∧ i < e.vl ∧ vtVCHK e.vtype = false ∧ (s.die (dieOf n)).regime = false ∧ s.soft = [] ∧
    s.marks = [] ∧ s.landings = [] ∧ (s.seq n).versions = [] ∧ (s.seq n).kept = [] ∧ (s.seq n).held = [] ∧
    (s.seqs.all fun q => q.2.grp.st == .none) = true ∧ cachesAgree s (dieOf n) ∧ (s.seq n).winVa % 64 = 0 ∧
    (s.seq n).winPa % 64 = 0

/-- The group stands after element i, and nothing else of the sequencers has changed but cflags, which have gained fl (03 R71). -/
def passed (s u : State) (n g i : Nat) (e : Entry) (fl : Nat) : Prop :=
  (∀ m r, (u.seq m).getX r = (s.seq m).getX r) ∧ (u.seq n).pc = (s.seq n).pc ∧ (u.seq n).isn = (s.seq n).isn ∧
    (u.seq n).cflags = (if fl = 0 then (s.seq n).cflags else ((s.seq n).cflags ||| fl) % 32) ∧
    ∃ e', (u.seq n).inflight = [e'] ∧ (e'.ctr g).next = i + 1 ∧ (e'.ctr g).fin = false ∧ e'.isn = e.isn ∧ e'.ins = e.ins

/-- A bit as a number. -/
def bit (b : Bool) : Nat := if b then 1 else 0

/-- The exact result of element i of a compute instruction on sources with bits a, b and c and values x, y and z (07 R187 to R198,
R206, R209); none for the other instructions. `scal` tells that A is a register. -/
def exactOf (o : VOp) (t : ETy) (e : Entry) (scal : Bool) (i a b c : Nat) (x y z : Val) : Option Out :=
  let n := t.bits
  let sg := fun (v : Nat) => (BitVec.ofNat n v).toInt
  let real := fun (r : Val × Nat) => some (Out.exact r.1 r.2)
  let un := x.isNan || y.isNan
  let nv := if x = .nan true ∨ y = .nan true then flNV else 0
  match o with
  | .ibin op => some (intBin op t a b)
  | .carry false false => some (.bits ((a + b + c) % 2 ^ n) 0)
  | .carry false true => some (.bits (bit (2 ^ n ≤ a + b + c)) 0)
  | .carry true false => some (.bits ((((a : Int) - b - c) % (2 ^ n : Nat)).toNat) 0)
  | .carry true true => some (.bits (bit (a < b + c)) 0)
  | .icmp .eq => some (.bits (bit (a = b)) 0)
  | .icmp .ne => some (.bits (bit (a ≠ b)) 0)
  | .icmp .lt => some (.bits (bit (sg a < sg b)) 0)
  | .icmp .ge => some (.bits (bit (sg b ≤ sg a)) 0)
  | .icmp .ltu => some (.bits (bit (a < b)) 0)
  | .icmp .geu => some (.bits (bit (b ≤ a)) 0)
  | .fcmp .eq => some (.bits (bit (!un && x.eqv y)) nv)
  | .fcmp .ne => some (.bits (bit (un || !x.eqv y)) nv)
  | .fcmp .lt => some (.bits (bit (!un && x.lt y)) (if un then flNV else 0))
  | .fcmp .le => some (.bits (bit (!un && (x.lt y || x.eqv y))) (if un then flNV else 0))
  | .fcmp .un => some (.bits (bit un) nv)
  | .mv => some (if scal && t.clsF then .exact x 0 else .bits a 0)
  | .idx st sp => some (.int (st.toInt + i * sp.toInt))
  | .fbin .add => real (fAdd (vtRND e.vtype) x y)
  | .fbin .sub => real (fSub (vtRND e.vtype) x y)
  | .fbin .mul => real (fMul x y)
  | .fbin .div => real (fDiv x y)
  | .fbin .min => real (if x.isNan && y.isNan then .nan false else if x.isNan then y else if y.isNan then x
      else if y.below x then y else x, nv)
  | .fbin .max => real (if x.isNan && y.isNan then .nan false else if x.isNan then y else if y.isNan then x
      else if x.below y then y else x, nv)
  | .ffma => real (fFma (vtRND e.vtype) x y z)
  | .fsqrt => real (fSqrt x)
  | .spec f => real (specFn f x)
  | .cvt src => match t, srcTy src with
    | .n1, _ => some (.bits (bit (a ≠ 0)) 0)
    | .int _ _, .n1 | .flt _, .n1 | .w48, .n1 => some (.int a)
    | .int _ _, .int w sgn => some (.int (if sgn then (BitVec.ofNat (8 * w) a).toInt else a % 2 ^ (8 * w)))
    | .int _ _, _ => some (.exact x 0)
    | _, .int _ _ => some (.exact x 0)
    | _, _ => some (.exact x (if x = .nan true then flNV else 0))
  | .mbin .and => some (.bits (bit (a = 1 ∧ b = 1)) 0)
  | .mbin .or => some (.bits (bit (a = 1 ∨ b = 1)) 0)
  | .mbin .xor => some (.bits (bit (a ≠ b)) 0)
  | .mbin .andn => some (.bits (bit (a = 1 ∧ b = 0)) 0)
  | .mbin .not => some (.bits (bit (a = 0)) 0)
  | .gauss pert => some (.bits (genOut (.gauss pert) t e.cgkey e.cgdraw (BitVec.ofNat 64 (if scal then a + i else a))) 0)
  | .rand sr => some (.bits (genOut (.rand sr) t e.cgkey e.cgdraw (BitVec.ofNat 64 (if scal then a + i else a))) 0)
  | _ => none

/-- Node k of level l of the reduction tree over leaves (03 R86), with the flags below it: two present children combine, under the
rounding of the lowest leaf of the right one. -/
def treeNode (o : RedOp) (e : Entry) (leaf : Nat → Option (Nat × Nat)) : Nat → Nat → Option Nat × Nat
  | 0, k => ((leaf k).map (·.1), ((leaf k).map (·.2)).getD 0)
  | l + 1, k =>
    let x := treeNode o e leaf l (2 * k)
    let y := treeNode o e leaf l (2 * k + 1)
    match x.1, y.1 with
    | some a, some b =>
      let r := combine o e.ty (e.rnd ((2 * k + 1) * 2 ^ l)) a b
      (some r.1, x.2 ||| y.2 ||| r.2)
    | some a, none => (some a, x.2 ||| y.2)
    | none, b => (b, x.2 ||| y.2)

/-- What a scan has reached after the elements below k (07 R204). -/
def scanned (o : RedOp) (e : Entry) : Nat → Option Nat
  | 0 => none
  | k + 1 => match e.got k, scanned o e k with
    | none, v => v
    | some a, none => some (leafOf e.ty a.1).1
    | some a, some v => some (combine o e.ty (e.rnd k) v a.1).1

/-- A combining instruction has pulled what it pulls: every group has passed the last element, its start has been kept, and what it has
pulled stands in order. -/
def gathered (s : State) (n g : Nat) (e : Entry) : Prop :=
  running s n g e ∧ (∀ k, k < (s.seq n).groups.length → e.vl ≤ (e.ctr k).next) ∧ 0 < e.vl ∧ e.vl ≤ 65536 ∧
    (e.got (2 ^ 32)).isSome = true ∧ (e.pulled.map (·.1)).Pairwise (· < ·) ∧ (∀ p, p ∈ e.pulled → p.1 < e.vl ∨ p.1 = 2 ^ 32) ∧
    s.copyHome (copyId (s.seq n).runId e.isn) = none

/-- A combining instruction has ended: nothing is in flight, and register rd holds v. -/
def answered (s u : State) (n : Nat) (rd : Reg) (v : Word) : Prop :=
  u.mem = s.mem ∧ (u.seq n).inflight = [] ∧ (u.seq n).pc = (s.seq n).pc ∧
    ∀ r, (u.seq n).getX r = if r = rd ∧ r ≠ 0 then v else (s.seq n).getX r

end Sys2Proof.Claim

/-- O39. A vector instruction that passes the gate joins the instructions in flight, whatever they are, and issue goes on;
memory and every x register are as before. VWAIT, with nothing in flight, also joins, and sleeps when it has taken the
values that its elements expect (02 R47; 08 R227). -/
def Obligations.VectorIssue : Prop :=
  (∀ (i : Instr) (f : VForm) (s : State), vform i = some f → elementwise i = true → ready i s →
    exec i s = .next (done i .next id (joined i f s)) ∧ (joined i f s).mem = s.mem ∧
      ∀ r, xr (joined i f s) r = xr s r) ∧
  ∀ (rt : Reg) (v : VAB) (f : VForm) (s : State), vform (.vwait rt v) = some f → (s.seq s.cur).inflight = [] →
    ready (.vwait rt v) s →
      (∀ ex t, (vwaitStart ⟨s.cur, (s.seq s.cur).entryOf (.vwait rt v) f none, f, 0⟩ (s.seq s.cur).vl).run
          (joined (.vwait rt v) f s) = .ok ex t →
        exec (.vwait rt v) s = .next (t.modSeq s.cur fun q =>
          { q with sleep := some (.vwait s.pkg.tick.toNat ex (ex.map (·.1)) []) })) ∧
      ((s.seq s.cur).vl = 0 → exec (.vwait rt v) s = .next ((joined (.vwait rt v) f s).modSeq s.cur fun q =>
        { q with sleep := some (.vwait s.pkg.tick.toNat [] [] []) }))

/-- O40. What an element delivers, in the group that executes it. An element of a compute instruction without a mask, with sources in
any mode and a destination at unit stride or with a stride: its exact result, delivered, stands in D, its flags in cflags (03 R60; 07
R180, R183, R187 to R198, R206, R209). A reduction that has pulled every active element answers the root of its tree, a scan writes
its prefixes, and a mask instruction counts or finds the set bits (07 R202 to R204, R207). An element of VLD is on its way, its words
empty; one of VST, VAMO or VCAS is stored outside the window; VEMPTY, VFILL and VOWN (08 R216, R220, R222, R225, R229). -/
def Obligations.VectorElements : Prop := ∀ (s : State) (n g i : Nat) (e : Entry) (f : VForm), vform e.ins = some f →
  let q := s.seq n
  let t := vtTy e.vtype
  let same := fun (u : State) (p : Phys) (w : Nat) => ∀ a, (a < p.key ∨ p.key + w ≤ a) → u.mem.get a = s.mem.get a
  let A := e.opdA f
  let tA := f.op.tyA e.rowLen t
  let tD := f.op.tyD e.rowLen t
  let lower := ∀ k, k < q.groups.length → i ≤ (e.ctr k).next
  let step := fun (P : State → Prop) => ∃ u, exec (.elementExecute n g) s = .next u ∧ P u
  (∀ (a b c : Nat) (out : Out) (pd : Phys), f.mask = .none → atElement s n g i e → f.op.accepts t = true →
    sourced s n A tA i a → sourced s n (e.opdB f) (f.op.tyB t) i b → sourced s n (e.opdC f) (f.op.tyC t) i c →
    placed s n g (e.opdD f) tD i pd →
    exactOf f.op (match f.op with | .carry .. | .icmp _ | .fcmp _ => t | _ => tD) e (A.any Opd.isScal) i a b c
      (tA.val a) ((f.op.tyB t).val b) ((f.op.tyC t).val c) = some out →
      let r := deliver tD (e.rnd i) out
      step fun u => pick tD i (u.mem.num pd.key (span tD)) = r.1 % 2 ^ tD.bits ∧ same u pd (span tD) ∧
        (tD = .n1 → ∀ j, j < 8 → j ≠ i % 8 → (u.mem.num pd.key 1).testBit j = (s.mem.num pd.key 1).testBit j) ∧
        passed s u n g i e r.2) ∧
  (∀ o rd, f.op = .red o → f.d = some (.scal rd) → f.op.accepts t = true → gathered s n g e →
    let r := treeNode o e (fun k => if k < e.vl then (e.got k).map fun p => leafOf t p.1 else none) 17 0
    step fun u => answered s u n rd (redScalar t (r.1.getD (redEmpty o t))) ∧
      (u.seq n).cflags = if r.2 = 0 then q.cflags else (q.cflags ||| r.2) % 32) ∧
  (∀ o rd, f.op = .mscal o → f.d = some (.scal rd) → gathered s n g e →
    let set := (List.range e.vl).filter fun k => (e.got k).any fun p => p.1 = 1
    step fun u => answered s u n rd (match o with
      | .pop => BitVec.ofNat 64 set.length
      | .first => (set.head?.map fun k => BitVec.ofNat 64 k).getD 0xFFFFFFFFFFFFFFFF
      | .last => (set.getLast?.map fun k => BitVec.ofNat 64 k).getD 0xFFFFFFFFFFFFFFFF
      | .any => if set = [] then 0 else 1)) ∧
  (∀ o, f.op = .scan o → f.op.accepts t = true → gathered s n g e → vtMPOL e.vtype = false → t.packed = false →
    s.soft = [] → s.marks = [] → q.versions = [] → (s.seqs.all fun q => q.2.grp.st == .none) = true → cachesAgree s (dieOf n) →
    q.winVa % 64 = 0 → q.winPa % 64 = 0 → (∀ k p, k < e.vl → e.got k = some p → ∃ pd h, placed s n h (e.opdD f) t k pd ∧ pd.key = p.2) →
    (∀ j k p r, j < k → e.got j = some p → e.got k = some r → p.2 + t.size ≤ r.2 ∨ r.2 + t.size ≤ p.2) →
      step fun u => (u.seq n).inflight = [] ∧
        (∀ k p v, k < e.vl → e.got k = some p → scanned o e (k + 1) = some v → u.mem.num p.2 t.size = v % 2 ^ (8 * t.size)) ∧
        ∀ a, (∀ k p, k < e.vl → e.got k = some p → a < p.2 ∨ p.2 + t.size ≤ a) → u.mem.get a = s.mem.get a) ∧
  (f.mask = .none → atElement s n g i e → f.op.accepts t = true → t.packed = false → t ≠ .mld → lower → ∀ (a d : Opd) (w : Nat),
    w = t.size → A = some a → e.opdD f = some d →
    (∀ o ra rd pa pd, f.op = .vld o → a.spec = .unit ra → d.spec = .unit rd → outside s n .load (elemVa a t i) w pa →
      placed s n g (some d) t i pd → step fun u => u.mem = s.mem ∧ (∀ k, k < w → u.full (pd.key + k) = false) ∧
        passed s u n g i e 0 ∧ ∃ l, u.landings = [l] ∧ l.sq = n ∧ l.isn = e.isn ∧ l.elem = i ∧ l.addr = pd.key ∧
          l.data = s.mem.read pa.key w ∧ l.keep = List.replicate w 0xFF) ∧
    (∀ o ra rd pa pd, f.op = .vst o → a.spec = .unit ra → d.spec = .unit rd → s.det q.ctx = false →
      here s n .load (elemVa a t i) w pa → owned s n g (elemVa a t i) → (t = .w48 → s.mem.num pa.key w < 2 ^ 48) →
      outside s n .store (elemVa d t i) w pd → step fun u => u.mem.num pd.key w = s.mem.num pa.key w ∧ same u pd w ∧
        passed s u n g i e 0) ∧
    (∀ ra pa pd b c, a.spec = .unit ra → outside s n .load (elemVa a t i) w pa → outside s n .store (elemVa a t i) w pa →
      placed s n g (some d) t i pd → (pa.key + w ≤ pd.key ∨ pd.key + w ≤ pa.key) → sourced s n (e.opdB f) t i b →
      sourced s n (e.opdC f) t i c →
        let old := s.mem.num pa.key w
        let swaps := fun (new : Nat) => step fun u => u.mem.num pa.key w = new ∧ u.mem.num pd.key w = old ∧
          (∀ x, (x < pa.key ∨ pa.key + w ≤ x) → (x < pd.key ∨ pd.key + w ≤ x) → u.mem.get x = s.mem.get x) ∧
          passed s u n g i e 0
        (∀ op o, f.op = .amo op o → swaps (amoApply op (8 * w) old b)) ∧
        (∀ o, f.op = .cas o → swaps (if old = b then c else old))) ∧
    (∀ ra pd, f.op = .own → a.spec = .unit ra → placed s n g (some d) (.int 8 false) i pd →
      let va := elemVa a t i
      let k := (va - q.winVa) / 64
      let gs := q.groups.length
      step fun u => same u pd 8 ∧ passed s u n g i e 0 ∧ u.mem.num pd.key 8 =
        if q.winVa ≤ va ∧ va < q.winVa + 0x200000 * gs then k / (16 * gs) * 2 ^ 16 + k % gs * 2 ^ 8 + k / gs % 16
        else 2 ^ 63)) ∧
  (f.mask = .none → atElement s n g i e → f.op.accepts t = true → ∀ pd, placed s n g (e.opdD f) t i pd →
    let marks := fun (b : Bool) => step fun u => u.mem = s.mem ∧ (∀ k, k < span t → u.full (pd.key + k) = b) ∧ passed s u n g i e 0
    (f.op = .empty → marks false) ∧ (f.op = .fill → marks true))

/-- O41. How groups end an instruction and what arrives for one. A group with no element left completes the instruction,
which leaves the sequencer when every group has (02 R48); a load in flight writes xd (06 R141); the next wave begins when
every group of the last has completed (12 R325); a sleeping VWAIT that reads a flag at its expected value counts it as met,
and completes when all are (08 R227); the one reply that is due lands: its bytes stand in the window and its words are full
(08 R220). -/
def Obligations.GroupMoves : Prop := ∀ (s : State) (n g : Nat) (e : Entry),
  let q := s.seq n
  s.copyHome (copyId q.runId e.isn) = none → q.held = [] → (∀ l, l ∈ s.landings → l.so = false) → running s n g e →
    (elementwise e.ins = true → (∀ f, vform e.ins = some f → f.op.combines = false) → e.vl ≤ (e.ctr g).next →
      ∃ u, exec (.elementExecute n g) s = .next u ∧ u.mem = s.mem ∧ (∀ r, (u.seq n).getX r = q.getX r) ∧
        ((∀ k, k < q.groups.length → k ≠ g → (e.ctr k).fin = true) → (u.seq n).inflight = []) ∧
        (∀ k, k < q.groups.length → k ≠ g → (e.ctr k).fin = false → ∃ e', (u.seq n).inflight = [e'] ∧
          (e'.ctr g).fin = true ∧ ∀ j, j < q.groups.length → j ≠ g → e'.ctr j = e.ctr j)) ∧
    (∀ (a : SAcc) (p : Phys) (l : Nat), smem e.ins = some a → a.kind = .ld → g = 0 →
      e.pulled = [(l, p.key, p.leaf.toNat)] →
      p.tier = 1 ∨ p.tier = 2 → keyExists p.key = true → keyExists (p.key + 7) = true → p.key < hostKey →
      inNotify p.key = false → s.soft = [] →
        ∃ u, exec (.loadComplete n g) s = .next u ∧ u.mem = s.mem ∧ (u.seq n).pc = q.pc ∧
          ∀ r, (u.seq n).getX r = if r = a.rd ∧ r ≠ 0 then BitVec.ofNat 64 (s.mem.num p.key 8) else q.getX r) ∧
    (e.waves < q.groups.length → (e.gs.take e.waves).all (·.fin) = true →
      exec (.bankWave n) s = .next (s.modSeq n fun q => { q with
        inflight := [{ e with waves := min q.groups.length (e.waves + waveSize s n) }] })) ∧
    (∀ (rt : Reg) (v : VAB) start expect unmet mask, e.ins = .vwait rt v → q.sleep = some (.vwait start expect unmet mask) →
      q.logged = 0 → logMode s q.ctx = 0 →
        (∀ (i w : Nat) (sg : Bool) (p : Phys) (ra : Reg), unmet = [i] → vtTy e.vtype = .int w sg → v.a = .unit ra →
          w ∈ [1, 2, 4, 8] → s.soft = [] → cachesAgree s (dieOf n) →
          let va := ((e.w 2).toNat + i * w) % 2 ^ 64
          va % w = 0 → mapped s n .load va p → p.tier = 1 ∨ p.tier = 2 → keyExists p.key = true →
          keyExists (p.key + w - 1) = true → p.key < hostKey → inNotify p.key = false →
          smapGet i expect = some (s.mem.num p.key w) →
            ∃ u, exec (.vwaitWake n) s = .next u ∧ u.mem = s.mem ∧ (u.seq n).sleep = some (.vwait start expect [] mask) ∧
              (u.seq n).inflight = [e] ∧ (u.seq n).pc = q.pc) ∧
        (unmet = [] → expect = [] → e.vl = 0 → e.isn = q.isn → ∃ u, exec (.vwaitWake n) s = .next u ∧ u.mem = s.mem ∧
          (u.seq n).inflight = [] ∧ (u.seq n).sleep = none ∧ (u.seq n).isn = q.isn + 1 ∧
          (q.loops = [] → (u.seq n).pc = q.pc + 6))) ∧
    (∀ l : Landing, s.landings = [l] → (∀ e, e ∈ (s.seq l.sq).inflight → e.isn ≠ l.isn) →
      l.keep = List.replicate l.data.length 0xFF → l.data ≠ [] → (s.die (l.sq / 16)).regime = false →
      s.seqs.all (fun q => q.2.grp.st == .none) = true →
        ∃ u, exec (.vldLanding 0) s = .next u ∧ u.landings = [] ∧
          (∀ k, (h : k < l.data.length) → u.mem.get (l.addr + k) = l.data[k] ∧ u.full (l.addr + k) = true) ∧
          (∀ a, (a < l.addr ∨ l.addr + l.data.length ≤ a) → u.mem.get a = s.mem.get a) ∧
          ∀ m r, (u.seq m).getX r = (s.seq m).getX r)

/-! ## Leases -/

namespace Sys2Proof.Claim

/-- The request words that LEASE refuses (09 R248, R249): a bit above 7 or bit 3, a kind above 1, or a pinned attention
engine above 7. -/
def badRequest (w : Nat) : Prop := 256 ≤ w ∨ w / 8 % 2 = 1 ∨ 2 ≤ w % 4 ∨ (w / 4 % 2 = 1 ∧ w % 4 = 1 ∧ 7 < w / 16 % 16)

/-- The handle of the lease in slot k (09 R232). -/
def handle (d k : Nat) (l : Lease) : Word := BitVec.ofNat 64 (l.gen.toNat * 2 ^ 32 + d * 2 ^ 28 + l.kind * 2 ^ 24 + k * 2 ^ 16)

/-- A word names the lease that slot k of die d has held under a generation: ERR, DIE and GEN decide (09 R232). -/
def names (h : Word) (d : Nat) (gen : BitVec 16) (k : Nat) : Prop :=
  h.toNat < 2 ^ 63 ∧ h.toNat / 2 ^ 28 % 16 = d ∧ h.toNat / 2 ^ 32 % 2 ^ 16 = gen.toNat ∧ h.toNat / 2 ^ 16 % 32 = k

/-- The level of a lease at a time: a request rises one level, up to its cap, for each full millisecond in its queue (09 R237). -/
def levelAt (now : Nat) (l : Lease) : Nat :=
  if l.st = .queued then l.level + min ((now - l.asked) / 100000 - l.raised) (l.cap - l.level) else l.level

/-- The number of a lease's state in LSTAT (09 R251). -/
def stateCode : LeaseSt → Nat
  | .free => 0
  | .queued => 1
  | .waking => 2
  | .held => 3
  | .parked => 4
  | .evicted => 5
  | .releasing => 6

end Sys2Proof.Claim

/-- O42. LEASE, LFREE, LSTAT and LWAIT (09 R232, R235, R248 to R252), for the leases of the issuing context on its die,
without record or replay. The work for which LFREE leaves a lease RELEASING is that of a matrix engine, of which R235 speaks, and every
attention command that has issued and may use the lease, which is the model's reading (log 59). -/
def Obligations.LeaseInstructions : Prop := ∀ (rd ra : Reg) (s : State) (k : Nat),
  let q := s.seq s.cur
  let d := s.cur / 16
  let w := (xr s ra).toNat
  let l := s.lease d q.ctx k
  let live := names (xr s ra) d l.gen k ∧ l.st ≠ .free
  let dead := ∀ j, j < 32 → names (xr s ra) d (s.lease d q.ctx j).gen j → (s.lease d q.ctx j).st = .free
  let free := (s.die d).unitsFree
  d < 16 → k < 32 →
    (badRequest w → puts (.lease rd ra) rd 0x8000000000000001 s) ∧
    (¬badRequest w → (∀ j, j < 32 → (s.lease d q.ctx j).st ≠ .free) → puts (.lease rd ra) rd 0x8000000000000002 s) ∧
    (¬badRequest w → l.st = .free → (∀ j, j < k → (s.lease d q.ctx j).st ≠ .free) → ready (.lease rd ra) s →
      ∃ t, exec (.lease rd ra) s = .next t ∧ t.mem = s.mem ∧
        let m := t.lease d q.ctx k
        m.st = .queued ∧ m.kind = w % 4 ∧ m.pin = (w / 4 % 2 == 1) ∧ m.engine = (if w / 4 % 2 = 1 then w / 16 % 16 else 0) ∧
        m.gen = l.gen ∧ m.level = q.cprio.toNat % 8 ∧ m.cap = q.cprio.toNat / 256 % 8 ∧ m.asked = s.now ∧
        (t.seq s.cur).getX rd = (if rd = 0 then 0 else handle d k m) ∧ ∀ r, r ≠ rd → (t.seq s.cur).getX r = xr s r) ∧
    (dead → goes (.lfree ra) .next s ∧ goes (.lwait ra) .next s) ∧
    (live → ready (.lfree ra) s → ∃ t, exec (.lfree ra) s = .next t ∧
      let m := t.lease d q.ctx k
      let e := (s.die d).engine l.engine
      let work := l.kind = 0 ∧ (e.queue ≠ [] ∨ e.task ≠ none) ∨ cmdsOn s d l GCmd.uses ≠ []
      ((l.st = .queued ∨ l.st = .waking ∨ l.st = .evicted ∨ ((l.st = .held ∨ l.st = .parked) ∧ ¬work)) →
        m.st = .free ∧ m.gen = l.gen + 1) ∧
      (l.st = .held ∨ l.st = .parked → work → m = { l with st := .releasing }) ∧
      (l.st = .releasing → m = l)) ∧
    (logMode s q.ctx = 0 → dead → puts (.lstat rd ra) rd (BitVec.ofNat 64 (free * 2 ^ 50)) s) ∧
    (logMode s q.ctx = 0 → live → puts (.lstat rd ra) rd (BitVec.ofNat 64 (stateCode l.st * 2 ^ 61 + levelAt s.now l * 2 ^ 58 +
      (if l.st = .queued then 0 else l.engine * 2 ^ 54) + free * 2 ^ 50 + l.kind * 2 ^ 48 +
      match l.st, l.lost with
        | .evicted, some x => x.1 % 16 * 2 ^ 44 + 2 ^ 32 + x.2.toNat
        | _, _ => 0)) s) ∧
    (live → l.st = .held ∨ l.st = .parked ∨ l.st = .evicted → goes (.lwait ra) .next s ∧
      (s.pkg.frozen = false → q.sleep = some (.lwait ra) → exec (.lwaitComplete s.cur) s = .next (s.modSeq s.cur fun q =>
        { q with sleep := none }.retire (.lwait ra) .next))) ∧
    (live → l.st = .queued ∨ l.st = .waking ∨ l.st = .releasing → ready (.lwait ra) s →
      exec (.lwait ra) s = .next (s.modSeq s.cur fun q => { q with sleep := some (.lwait ra) }))

/-- O43. The moves of a die's leases (09 R237 to R245): the head of the queue is granted the engine that it names, or the
lowest free one, when its units are free; a queued request rises a level for each millisecond; an engine wakes cleared, and
one whose lease was freed as it woke is powered down;
victims are HELD or PARKED, of a lower level than the head, and granted at least 50 microseconds ago; an eviction that
takes effect, at an interruptible step of its engine, destroys the lease; a released lease goes FREE when its work is done. Which request is
the head among those of one sequencer in one reference cycle, and that attention commands are such work, is the model's choice (log 59). -/
def Obligations.LeaseMoves : Prop := ∀ (s : State) (d c k : Nat),
  let x := s.die d
  let l := s.lease d c k
  d < 16 → s.pkg.frozen = false →
    (∀ h, x.head s.now = some h → (if h.kind = 0 then 3 else 2) ≤ x.unitsFree →
      let granted := fun (e : Nat) => exec (.leaseGrant d) s =
        .next (s.setLease d { h with st := .waking, engine := e, granted := s.now })
      (h.pin = true → x.leased h.kind h.engine = false → granted h.engine) ∧
      (h.pin = false → ∀ e, e < (if h.kind = 0 then 16 else 8) → x.leased h.kind e = false →
        (∀ j, j < e → x.leased h.kind j = true) → granted e)) ∧
    (l.st = .queued → l.asked + (l.raised + 1) * 100000 ≤ s.now → l.level < l.cap →
      exec (.leaseAging d c k) s = .next (s.setLease d { l with raised := l.raised + 1, level := l.level + 1 })) ∧
    (∀ g, x.ghosts = [g] → g.ctx = c → g.slot = k →
      exec (.wakeComplete d c k) s = .next (s.modDie d fun x => { x with ghosts := [] })) ∧
    (l.st = .waking → l.evicting = false → (∀ g, g ∈ x.ghosts → ¬(g.ctx = c ∧ g.slot = k)) → ∃ t, exec (.wakeComplete d c k) s = .next t ∧ t.mem = s.mem ∧
      t.lease d c k = { l with st := if s.runs c then .held else .parked } ∧
      (l.kind = 0 → (t.die d).engine l.engine = ⟨l.engine, [], [], none⟩)) ∧
    (∀ v, v ∈ x.victims s.now → (v.st = .held ∨ v.st = .parked) ∧ 5000 ≤ s.now - v.granted ∧
      ∃ h, x.head s.now = some h ∧ v.level < h.level) ∧
    (∀ v, x.victims s.now = [v] → exec (.evictionDecided d) s = .next (s.setLease d { v with evicting := true })) ∧
    (l.st = .waking ∨ l.st = .held ∨ l.st = .parked ∨ l.st = .releasing → l.evicting = true → logMode s c = 0 →
      (l.kind = 0 → (x.engine l.engine).draining = false) →
      (l.kind ≠ 0 → ∀ m, m ∈ cmdsOn s d l GCmd.path → m.midBlock = false) →
        exec (.evictionEffect d c k) s = .next (evictLease s d c k) ∧
        ((evictLease s d c k).lease d c k).st = (if l.st = .releasing then .free else .evicted)) ∧
    (∀ v, x.budget < x.unitsUsed - x.pendingUnits →
      (x.leases.filter fun l => (l.st == .held || l.st == .parked || l.st == .waking) && !l.evicting) = [v] →
        exec (.budgetEviction d) s = .next (s.setLease d { v with evicting := true })) ∧
    (l.st = .releasing → (l.kind ≠ 0 ∨ (x.engine l.engine).busy = false) → cmdsOn s d l GCmd.uses = [] → ∃ t,
      exec (.leaseReleaseComplete d c k) s = .next t ∧ (t.lease d c k).st = .free ∧ (t.lease d c k).gen = l.gen + 1)

/-! ## Matrix engines, tasks and pumps -/

namespace Sys2Proof.Claim

/-- xa names a HELD or PARKED matrix lease of the issuing context on its die that is not being evicted, and its engine's queue has a place, with
bank → ME not withdrawn while instructions are in flight (09 R246; 10 R260, R262; 21 R489). -/
def tileReady (s : State) (ra : Reg) (l : Lease) : Prop :=
  let q := s.seq s.cur
  let d := s.cur / 16
  d < 16 ∧ liveLease s d q.ctx (xr s ra) = some l ∧ (xr s ra).toNat / 2 ^ 24 % 4 = 0 ∧ l.kind = 0 ∧ (l.st = .held ∨ l.st = .parked) ∧
    l.evicting = false ∧
    ((s.die d).engine l.engine).queue.length < 8 ∧ (q.inflight = [] ∨ pairOff s s.cur 3 = false)

/-- The state in which a tile instruction has a place at the end of the engine's queue. -/
def queued (s : State) (l : Lease) (k : MKind) (pages : List (Nat × Nat)) (issued : Bool) : State :=
  let q := s.seq s.cur
  s.modDie (s.cur / 16) fun d =>
    let e := d.engine l.engine
    let m : MCmd := { sq := s.cur, runId := q.runId, ctx := q.ctx, slot := l.slot, isn := q.isn, kind := k, pages := pages,
                      issued := issued, items := [], vtype := q.vtype, cgkey := q.cgkey, cgdraw := q.cgdraw, pos := 0,
                      badSeen := false, flags := 0 }
    d.setEngine { e with queue := e.queue ++ [m] }

/-- Engine idx of die d may go on: its lease is HELD by a context that runs, and is not being evicted. -/
def engineOn (s : State) (d idx : Nat) (l : Lease) : Prop :=
  d < 16 ∧ s.pkg.frozen = false ∧ (s.die d).leaseOn 0 idx = some l ∧ l.st = .held ∧ l.evicting = false ∧ s.runs l.ctx = true ∧
    ((s.die d).engine idx).idx = idx

end Sys2Proof.Claim

/-- O44. The tile instructions (10 R260, R262, R267 to R273): a handle that is dead, of another kind, RELEASING, EVICTED or
about to be evicted raises LEASELOST with the handle (09 R246); MMA and MMAE whose descriptors break R268 raise VTYPE; else, when every operand page translates, they take a
place in the engine's queue with the descriptors as they stand; so does ACCZ; ACCIN and DRAIN take one and join the
instructions in flight. -/
def Obligations.TileInstructions : Prop := ∀ (s : State) (h draw : Reg) (l : Lease) (z clr : Bool) (ta tb : BitVec 4)
    (arow nr : BitVec 9) (acol nc : BitVec 7) (d a : Spec) (pol : Bool) (mask : MSel),
  let q := s.seq s.cur
  let x := q.td[ta.toNat]
  let y := q.td[tb.toNat]
  let lost := fun (i : Instr) => traps i 0x0C (xr s h) (xr s h) s
  let accin : Instr := .accin h a pol mask arow acol nc
  let drain : Instr := .drain clr h d mask arow acol nc
  ((∀ l, liveLease s (s.cur / 16) q.ctx (xr s h) = some l →
      (xr s h).toNat / 2 ^ 24 % 4 ≠ 0 ∨ l.kind ≠ 0 ∨ l.st = .releasing ∨ l.st = .evicted ∨ l.evicting = true) → lost (.mma z h ta tb arow acol) ∧
    lost (.mmae z h draw ta tb arow acol) ∧ lost (.accz h arow acol nr nc) ∧ lost accin ∧ lost drain) ∧
  (tileReady s h l →
    (mmaFits x y arow.toNat acol.toNat = false →
      traps (.mma z h ta tb arow acol) 0x03 0 0 s ∧ traps (.mmae z h draw ta tb arow acol) 0x03 0 0 s) ∧
    (∀ pages, mmaFits x y arow.toNat acol.toNat = true → x.base % x.align = 0 → x.stride % x.align = 0 →
      y.base % y.align = 0 → y.stride % y.align = 0 → (tilePages s.cur (s.cur / 16) q.ctx x y).run s = .ok pages s →
        (ready (.mma z h ta tb arow acol) s → exec (.mma z h ta tb arow acol) s = .next (done (.mma z h ta tb arow acol)
          .next id (queued s l (.mma x y z arow.toNat acol.toNat none) pages true))) ∧
        (ready (.mmae z h draw ta tb arow acol) s → exec (.mmae z h draw ta tb arow acol) s = .next
          (done (.mmae z h draw ta tb arow acol) .next id
            (queued s l (.mma x y z arow.toNat acol.toNat (some ((xr s draw).toNat % 65536))) pages true)))) ∧
    (ready (.accz h arow acol nr nc) s → exec (.accz h arow acol nr nc) s = .next (done (.accz h arow acol nr nc) .next id
      (queued s l (.accz arow.toNat acol.toNat (nr.toNat + 1) (nc.toNat + 1)) [] true))) ∧
    (∀ f, vform accin = some f → ready accin s → exec accin s = .next (done accin .next id
      (joined accin f (queued s l (.accin arow.toNat acol.toNat (nc.toNat + 1)) [] false)))) ∧
    (∀ f, vform drain = some f → ready drain s → exec drain s = .next (done drain .next id
      (joined drain f (queued s l (.drain clr arow.toNat acol.toNat (nc.toNat + 1)) [] false)))))

/-- O45. What an engine does with the head of its queue (10 R264, R269 to R273): a step of a multiplication that reads its
operands leaves the queue one step on, with the flags, and charges the context; where each element of its operands reads, it adds
to each entry of its rows and columns the slice of up to 32 products, in one accumulation, from 0 on the first slice of an MMA
that asks for it (03 R81 to R83); an element of a 16-bit tile is the number in its place. ACCZ zeroes its region and nothing else;
ACCIN writes what the groups sent once the instruction is complete; a DRAIN delivers its next entry, rounded to its type, at its
destination, and clears it where it is asked to; one with nothing left to deliver ends. -/
def Obligations.EngineMoves : Prop := ∀ (s : State) (d idx : Nat) (l : Lease) (m : MCmd) (r : List MCmd),
  let e := (s.die d).engine idx
  engineOn s d idx l → e.task = none → e.queue = m :: r → e.draining = false →
    (∀ w o, m.work = some w → (tileStep w e m.pos).run s = .ok o s → o.bad = none → (s.ctx m.ctx).limit = 0 →
      o.eng.idx = idx → o.eng.queue = e.queue → o.eng.task = none → ∃ t, exec (.matrixStep d idx) s = .next t ∧
        t.mem = s.mem ∧ ((t.die d).engine idx).acc = o.eng.acc ∧ ((t.die d).engine idx).queue =
          if w.steps ≤ m.pos + 1 then r else { m with pos := m.pos + 1, flags := m.flags ||| o.flags } :: r) ∧
    (∀ (w : TileWork) (fa fb : Nat → Nat → Val × Nat), m.work = some w → mmaFits w.a w.b w.arow w.acol = true → m.pos < w.steps →
      (s.ctx m.ctx).limit = 0 →
      (∀ i k, i < w.a.rows → k < w.a.cols → (fetchElem w w.a i k).run s = .ok ⟨(fa i k).1, (fa i k).2, none⟩ s) →
      (∀ k j, k < w.b.rows → j < w.b.cols → (fetchElem w w.b k j).run s = .ok ⟨(fb k j).1, (fb k j).2, none⟩ s) →
        let block := m.pos / w.slices
        let slice := m.pos % w.slices
        let exact := w.a.blkW.isSome && w.b.blkW.isSome
        let pairs := fun (i j : Nat) => (List.range (min 32 (w.a.cols - 32 * slice))).map fun k =>
          ((fa i (32 * slice + k)).1, (fb (32 * slice + k) j).1)
        ∃ t, exec (.matrixStep d idx) s = .next t ∧ t.mem = s.mem ∧ ∀ row col, col < 128 → ((t.die d).engine idx).get row col =
          if w.arow + 128 * block ≤ row ∧ row < w.arow + min w.a.rows (128 * block + 128) ∧ w.acol ≤ col ∧ col < w.acol + w.b.cols
          then (accumulate (if w.z = true ∧ slice = 0 then 0 else e.get row col)
            (sliceVal exact (pairs (row - w.arow) (col - w.acol)))).1
          else e.get row col) ∧
    (∀ (w : TileWork) (t : TileDesc) (i k : Nat), t.code = 9 ∨ t.code = 10 →
      let va := t.base + i * t.stride + 2 * k
      let key := pageKey w.pages va
      s.wayTo w.die key = .clear → sound s key 2 → s.marks = [] → s.full key = true → s.full (key + 1) = true →
        (fetchElem w t i k).run s =
          .ok ⟨(if t.code = 9 then Fmt.bf16 else Fmt.fp16).decode (s.mem.num key 2), 0, none⟩ s) ∧
    (∀ arow acol nr nc, m.kind = .accz arow acol nr nc → ∃ t, exec (.acczPass d idx) s = .next t ∧ t.mem = s.mem ∧
      let e' := (t.die d).engine idx
      e'.queue = r ∧ ∀ row col, col < 128 → e'.get row col =
        if arow ≤ row ∧ row < arow + nr ∧ acol ≤ col ∧ col < acol + nc then 0 else e.get row col) ∧
    (∀ arow acol nc, m.kind = .accin arow acol nc → m.issued = true →
      ∃ t, exec (.accinPass d idx) s = .next t ∧ t.mem = s.mem ∧ ((t.die d).engine idx).queue = r ∧
        (∀ it, m.items = [it] → it.col < 128 → ∀ row col, col < 128 → ((t.die d).engine idx).get row col =
          if row = it.row ∧ col = it.col then it.val else e.get row col) ∧
        (m.items = [] → ((t.die d).engine idx).acc = e.acc)) ∧
    (∀ clr arow acol nc, m.kind = .drain clr arow acol nc → m.items = [] → m.issued = true → l.ending = false →
      ∃ t, exec (.drainPass d idx) s = .next t ∧ t.mem = s.mem ∧ ((t.die d).engine idx).queue = r ∧
        ((t.die d).engine idx).acc = e.acc) ∧
    (∀ clr arow acol nc it rest, m.kind = .drain clr arow acol nc → m.items = it :: rest → m.issued = true → l.ending = false →
      let ty := vtTy m.vtype
      let n := ty.size
      ty.clsI = true ∨ ty.clsF = true ∨ ty = .w48 → it.inWin = false → it.row < 512 → it.col < 128 → sound s it.addr n →
      s.wayTo d it.addr = .clear → s.seqs.all (fun q => q.2.grp.st == .none) = true →
        ∃ t, exec (.drainPass d idx) s = .next t ∧
          t.mem.num it.addr n = (deliver ty (drainRnd m it.elem) (.exact (Fmt.w48.decode (e.get it.row it.col)) 0)).1 % 2 ^ (8 * n) ∧
          (∀ a, (a < it.addr ∨ it.addr + n ≤ a) → t.mem.get a = s.mem.get a) ∧
          ((t.die d).engine idx).queue = (if rest = [] then r else { m with items := rest, pos := m.pos + 1 } :: r) ∧
          ∀ row col, col < 128 → ((t.die d).engine idx).get row col =
            if clr = true ∧ row = it.row ∧ col = it.col then 0 else e.get row col)

/-- O46. Tile tasks (10 R274 to R279): TSUB reads its record of sixteen words and puts the task into the die's queue, or
raises BADFMT when the record breaks R275, which is also the model's reading of a reserved CMP (log 71); a waiting task's gate is
compared with the word that it names, and one that no longer holds makes the task wait again until it is dispatched (log 71); a ready
task of a running context goes to its lowest free engine; a task whose checks are done does its next step, and one that has drained
adds 1 to its completion word, or to no word when CDONE is 0, and leaves. -/
def Obligations.TileTasks : Prop := ∀ (rq : Reg) (s : State) (lo hi : Phys),
  let q := s.seq s.cur
  let va := (xr s rq).toNat
  let w := fun (k : Nat) => BitVec.ofNat 64 (if k < 8 then s.mem.num (lo.key + 8 * k) 8 else s.mem.num (hi.key + 8 * (k - 8)) 8)
  let bad := taskBad fun k => if k < 16 then w k else 0
  s.cur / 16 < 16 →
  (quiet s → va % 64 = 0 → mapped s s.cur .load va lo → mapped s s.cur .load (va + 64) hi → lo.tier = 1 ∨ lo.tier = 2 →
    hi.tier = 1 ∨ hi.tier = 2 → (∀ k, k < 64 → sound s (lo.key + k) 1 ∧ sound s (hi.key + k) 1) →
      (bad = true → traps (.tsub rq) 0x0B (xr s rq) 0 s) ∧
      (bad = false → (s.die (s.cur / 16)).tasks.length < 256 → ready (.tsub rq) s →
        exec (.tsub rq) s = .next (done (.tsub rq) .next id (s.modDie (s.cur / 16) fun d => { d with tasks := d.tasks ++
          [⟨s.cur, q.runId, q.ctx, s.now, q.isn, (List.range 16).map w, q.cgkey, q.cgdraw,
            (w 0).toNat / 256 % 8 == 0⟩] })))) ∧
  ∀ d n idx t, s.pkg.frozen = false → d < 16 → dieOf n = d →
    (∀ p : Phys, (s.die d).tasks[idx]? = some t → (s.seq n).ctx = t.ctx → s.runs t.ctx = true → (t.w 0).toNat / 256 % 8 = 1 →
      let g := (t.w 8).toNat % 2 ^ 48
      let v := BitVec.ofNat 64 (s.mem.num p.key 8)
      let holds := match (t.w 8).toNat / 2 ^ 48 % 8 with
        | 0 => v = t.w 9
        | 1 => v ≠ t.w 9
        | 2 => (t.w 9).toNat ≤ v.toNat
        | 3 => v.toNat < (t.w 9).toNat
        | 4 => (t.w 9).toInt ≤ v.toInt
        | _ => v.toInt < (t.w 9).toInt
      g % 8 = 0 → mapped s n .load g p → p.tier = 1 ∨ p.tier = 2 → sound s p.key 8 →
        (holds → t.ready = false → exec (.taskGateEvaluation d idx) s =
          .next (s.modDie d fun x => { x with tasks := x.tasks.set idx { t with ready := true } })) ∧
        (¬holds → t.ready = true → exec (.taskGateEvaluation d idx) s =
          .next (s.modDie d fun x => { x with tasks := x.tasks.set idx { t with ready := false } }))) ∧
    (∀ l, (s.die d).tasks = [t] → t.ready = true → s.runs t.ctx = true → freeEngine s d t.ctx = some l →
      exec (.taskDispatch d) s = .next (s.modDie d fun x => ({ x with tasks := [] } : Die).setEngine
        { (x.engine l.engine) with
          task := some ⟨t, l.slot, TileDesc.zero, TileDesc.zero, false, [], [], 0, false, 0⟩ })) ∧
    (∀ l r, engineOn s d idx l → ((s.die d).engine idx).draining = false → ((s.die d).engine idx).task = some r →
      r.checked = true → r.work.steps < r.pos → (r.task.w 5).toNat % 2 ^ 48 = 0 →
        ∃ u, exec (.taskRun d idx) s = .next u ∧ u.mem = s.mem ∧ ((u.die d).engine idx).task = none ∧
          ((u.die d).engine idx).acc = ((s.die d).engine idx).acc) ∧
    (∀ l r o, engineOn s d idx l → ((s.die d).engine idx).draining = false → ((s.die d).engine idx).task = some r →
      r.checked = true → r.pos < r.work.steps → (s.ctx r.task.ctx).limit = 0 →
      (tileStep r.work ((s.die d).engine idx) r.pos).run s = .ok o s → o.bad = none → o.eng.idx = idx →
        ∃ u, exec (.taskRun d idx) s = .next u ∧ u.mem = s.mem ∧ ((u.die d).engine idx).acc = o.eng.acc ∧
          ((u.die d).engine idx).task = some { r with pos := r.pos + 1, flags := r.flags ||| o.flags }) ∧
    ∀ l r (p : Phys), engineOn s d idx l → ((s.die d).engine idx).draining = false → ((s.die d).engine idx).task = some r →
      r.checked = true → r.work.steps < r.pos → s.seqs.all (fun q => q.2.grp.st == .none) = true →
      let c := (r.task.w 5).toNat % 2 ^ 48
      c ≠ 0 → c % 8 = 0 → mappedAt s d (s.ctx r.task.ctx).cptbase .atomic c p → p.tier = 1 ∨ p.tier = 2 → sound s p.key 8 →
        ∃ u, exec (.taskRun d idx) s = .next u ∧ u.mem.num p.key 8 = (s.mem.num p.key 8 + 1) % 2 ^ 64 ∧
          (∀ b, (b < p.key ∨ p.key + 8 ≤ b) → u.mem.get b = s.mem.get b) ∧ ((u.die d).engine idx).task = none

/-- O47. Pumps (11 R283 to R293): a pump instruction with its landing word in the window writes TAG, E and L = 0 there,
which becomes full, and gives the pump a copy of its E elements; PRDC of a type that it refuses, and PGATH and PSCAT with a
bad row, raise VTYPE; an element of PCOPY or PFILL that has reached the pump is
read and written, also at an address that is no multiple of its size: that the pump makes no alignment check is the model's reading
(log 66). -/
def Obligations.PumpInstructions : Prop := ∀ (s : State) (p : PumpArgs) (rr : Reg) (d a : Spec),
  let q := s.seq s.cur
  let n := s.cur
  let row := xr s rr
  let badR := (row.toNat % 2 ^ 32) % 8 ≠ 0 ∨ row.toNat % 2 ^ 32 < 8 ∨ 65536 < row.toNat % 2 ^ 32 ∨ row.toNat / 2 ^ 32 % 8 ≠ 0
  let badT := ((vtTy q.vtype).clsI || (vtTy q.vtype).clsF) = false
  let starts := fun (i : Instr) (k : PKind) (r : Option Reg) => ∀ (land : Phys) (phase : Nat), n / 16 < 16 →
    (∀ j, j < 4 → ((s.die (n / 16)).pumps[j]?).isSome = true) → quiet s → (xr s p.xl).toNat % 8 = 0 →
    mapped s n .store (xr s p.xl).toNat land → land.tier = 0 → q.inWin land.key = true → clear s land 8 →
    ((p.xp = 0 ∧ phase = 0) ∨ (p.xp ≠ 0 ∧ (xr s p.xp).toNat % 8 = 0 ∧ ∃ w, mapped s n .store (xr s p.xp).toNat w ∧
      w.tier ≤ 2 ∧ phase = w.key + 1)) → (s.copies (dieOf n) (pumpOf n)).length < 16 →
    s.seqs.all (fun q => q.2.grp.st == .none) = true → ready i s →
      ∃ t, exec i s = .next t ∧ t.mem.num land.key 8 = p.tag.toNat * 2 ^ 48 + q.vl % 2 ^ 24 * 2 ^ 24 ∧
        t.full land.key = true ∧ (∀ b, (b < land.key ∨ land.key + 8 ≤ b) → t.mem.get b = s.mem.get b) ∧
        t.copies (dieOf n) (pumpOf n) = s.copies (dieOf n) (pumpOf n) ++
          (if q.vl = 0 then [] else [pumpCopy q n k p r d a land.key phase]) ∧
        (t.seq n).inflight.length = 1 ∧ ∀ r, (t.seq n).getX r = xr s r
  starts (.pcopy p d a) .copy none ∧ starts (.pfill p d a) .fill none ∧
  (badT → traps (.prdc p d a) 0x03 0 0 s) ∧ (¬badT → starts (.prdc p d a) .rdc none) ∧
  (badR → traps (.pgath p rr d a) 0x03 0 0 s ∧ traps (.pscat p rr d a) 0x03 0 0 s) ∧
  (¬badR → starts (.pgath p rr d a) .gath (some rr) ∧ starts (.pscat p rr d a) .scat (some rr)) ∧
  ∀ (die pump k : Nat) (c : Copy) (e : PumpElem) (t r : Phys) (m : Nat), s.pkg.frozen = false → die < 16 → k < 4 →
    dieOf m = die → (s.seq m).ctx = c.ctx → (s.copies die pump)[k]? = some c → c.ready.find? (fun x => x.idx == e.idx) = some e →
    (s.copies die pump).find? (fun x => x.id == c.id) = some c →
    c.kind = 4 ∨ c.kind = 0 → c.size = 8 → c.failed = none → c.lowerClash e = false → (s.ctx c.ctx).limit = 0 →
    let va := ((BitVec.ofNat 64 c.dstBase) + BitVec.ofNat 64 e.idx * BitVec.ofNat 64 c.dstStride).toNat
    let vs := ((BitVec.ofNat 64 c.srcBase) + BitVec.ofNat 64 e.idx * BitVec.ofNat 64 c.srcStride).toNat
    e.idx < c.vl → va % 4096 ≤ 4088 → mapped s m .store va t → t.tier = 1 ∨ t.tier = 2 → sound s t.key 8 → c.landed ≠ e.idx →
    (c.kind = 0 → vs % 4096 ≤ 4088 ∧ mapped s m .load vs r ∧ (r.tier = 1 ∨ r.tier = 2) ∧ sound s r.key 8) →
    s.seqs.all (fun q => q.2.grp.st == .none) = true → c.landed < c.vl → c.abandoned = false → (∀ j, j ∈ c.done → j ≠ c.landed) →
      ∃ u, exec (.pumpElement die pump k e.idx) s = .next u ∧ u.mem.num t.key 8 =
        (if c.kind = 4 then c.srcVal.toNat else s.mem.num r.key 8) ∧
        ∀ b, (b < t.key ∨ t.key + 8 ≤ b) → u.mem.get b = s.mem.get b

/-! ## Attention commands and their groups -/

namespace Sys2Proof.Claim

/-- The group of sequencer n is open, the context of its first command m lets it go on, and no engine is still at work for a group that
has closed. -/
def commanding (s : State) (n : Nat) (m : GCmd) (r : List GCmd) : Prop :=
  let q := s.seq n
  s.pkg.frozen = false ∧ q.grp.st = .open_ ∧ s.runs m.ctx = true ∧ q.grp.cmds = m :: r ∧ q.stopping = []

/-- A word names a HELD or PARKED lease of a kind of the issuing context on its die that is not being evicted. -/
def leaseOf (s : State) (kind : Nat) (h : Word) : Prop :=
  ∃ l, liveLease s (s.cur / 16) (s.seq s.cur).ctx h = some l ∧ h.toNat / 2 ^ 24 % 4 = kind ∧ l.kind = kind ∧
    (l.st = .held ∨ l.st = .parked) ∧ l.evicting = false

end Sys2Proof.Claim

/-- O48. Command groups (12 R305, R308, R311, R314 to R317, R320 to R322). GBEGIN opens a group over the shadow area, which reads
as zero; a command whose record is in order joins it; the first command begins, on the path that its hint names, or for .auto on the
one that the fabric's use decides, once; a commit makes the shadows current, or reports a conflict; a failed group reports its command
and status; GABORT closes the group and keeps nothing of it. A running attention command does its next page; that GCOMMIT waits for
every lower instruction in flight (log 73), and when a lost lease fails the group (log 60), is the model's reading. -/
def Obligations.CommandGroups : Prop := ∀ (s : State) (rd ra rc rp : Reg) (hint : AttnHint) (qb nb : BitVec 16),
  let n := s.cur
  let q := s.seq n
  let g := q.grp
  let a := (xr s ra).toNat
  let alone := ∀ p, p ∈ s.seqs → p.1 ≠ n → p.2.grp.st = .none
  let sync := fun (i : Instr) => traps i 0x15 0 0 s
  (g.st = .none → sync (.gcommit rd) ∧ sync .gabort ∧ sync (.attn hint rc qb nb) ∧ sync (.kvw rc ra rp) ∧
    sync (.kvinv rc ra rp)) ∧
  (g.st ≠ .none → sync (.gbegin ra)) ∧
  (g.st = .none → a % 64 ≠ 0 → traps (.gbegin ra) 0x04 (xr s ra) 0 s) ∧
  (g.st = .none → a % 64 = 0 → ¬(q.winVa ≤ a ∧ a < q.winVa + 0x200000 * q.groups.length) →
    traps (.gbegin ra) 0x14 (xr s ra) 0 s) ∧
  (g.st = .none → a % 64 = 0 → q.winVa ≤ a → a < q.winVa + 0x200000 * q.groups.length → quiet s → q.versions = [] →
    s.marks = [] → s.soft = [] →
      let key := q.winPa + (a - q.winVa)
      let w := s.mem.num key 8
      key % 64 = 0 → s.full key = true → inCist key = true → inCist (key + 7) = true → q.stopping = [] → q.kept = [] →
      (∀ l, l ∈ s.landings → l.so = false) →
        (w = 0 ∨ 32767 < w → traps (.gbegin ra) 0x0B (xr s ra) 0 s) ∧
        (1 ≤ w → w ≤ 32767 → a + 64 * w < q.winVa + 0x200000 * q.groups.length → a + 64 * w < 2 ^ 64 → ready (.gbegin ra) s →
          ∃ t, exec (.gbegin ra) s = .next t ∧ (t.seq n).grp.st = .open_ ∧ (t.seq n).grp.area = key ∧
            (t.seq n).grp.nlines = w ∧ (t.seq n).grp.cmds = [] ∧ (t.seq n).grp.shadows = [] ∧
            ∀ b, t.mem.get b = if key ≤ b ∧ b < key + 64 * (w + 1) then 0 else s.mem.get b)) ∧
  (g.st ≠ .none → ready .gabort s → ∃ t, exec .gabort s = .next t ∧ (t.seq n).grp = Group.none ∧
    (g.hidden = [] → g.shadows = [] → t.mem = s.mem)) ∧
  (∀ m, g.st ≠ .none → g.st ≠ .failed → (commandRecord .kvw rc n).run s = .ok m s →
    let p := (xr s rp).toNat
    let joins := fun (i : Instr) (m : GCmd) => ready i s →
      exec i s = .next (done i .next (fun q => { q with grp := { q.grp with cmds := q.grp.cmds ++ [m] } }) s)
    (64 * m.npages < p + q.vl → traps (.kvw rc ra rp) 0x0B (xr s rc) 0 s ∧ traps (.kvinv rc ra rp) 0x0B (xr s rc) 0 s) ∧
    (p + q.vl ≤ 64 * m.npages → joins (.kvinv rc ra rp) { m with kind := .kvinv, pos := p, src := a } ∧
      (a % 64 ≠ 0 → traps (.kvw rc ra rp) 0x04 (xr s ra) 0 s) ∧
      (a % 64 = 0 → joins (.kvw rc ra rp) { m with pos := p, src := a })) ∧
    ((m.nq + 15) / 16 < qb.toNat + nb.toNat + 1 → traps (.attn hint rc qb nb) 0x0B (xr s rc) 0 s) ∧
    (qb.toNat + nb.toNat + 1 ≤ (m.nq + 15) / 16 → (hint ≠ .me → leaseOf s 1 (m.w 0)) → (hint ≠ .ae → leaseOf s 0 (m.w 1)) →
      joins (.attn hint rc qb nb)
        { m with kind := .attn, hint := hint, qb0 := qb.toNat, nqb := nb.toNat + 1 })) ∧
  (g.st = .open_ → (g.cmds ≠ [] ∨ q.inflight ≠ []) → ready (.gcommit rd) s →
    exec (.gcommit rd) s = .next (s.modSeq n fun q => { q with sleep := some (.gcommit rd) })) ∧
  (g.st = .open_ → g.cmds = [] → quiet s → s.marks = [] → g.hidden = [] → alone → ready (.gcommit rd) s → ∃ t,
    exec (.gcommit rd) s = .next t ∧ (t.seq n).grp = Group.none ∧
      (g.dropped = true ∨ g.shadows.any (·.conflict) = true → (t.seq n).getX rd = if rd = 0 then 0 else 2) ∧
      (∀ sh, g.dropped = false → g.shadows = [sh] → sh.conflict = false → sh.data.length = 64 →
        (t.seq n).getX rd = 0 ∧ ∀ k, (h : k < 64) → (j : k < sh.data.length) → t.mem.get (64 * sh.line + k) = sh.data[k])) ∧
  (g.st = .failed → ready (.gcommit rd) s → ∃ t, exec (.gcommit rd) s = .next t ∧ (t.seq n).grp = Group.none ∧
    (t.seq n).getX rd = if rd = 0 then 0 else BitVec.ofNat 64 (g.faultIsn.toNat * 2 ^ 32 + g.fault.cause)) ∧
  (s.pkg.frozen = false → q.sleep = some (.gcommit rd) → g.st = .open_ → g.cmds = [] → quiet s → g.shadows = [] →
    g.hidden = [] → g.dropped = false → ∃ t, exec (.groupCommit n) s = .next t ∧ t.mem = s.mem ∧
      (t.seq n).grp = Group.none ∧ (t.seq n).getX rd = 0 ∧ (t.seq n).sleep = none) ∧
  ∀ k m r, commanding s k m r →
    let head := fun (f : GCmd → GCmd) => s.modSeq k fun q => { q with grp := { q.grp with cmds := f m :: r } }
    (m.began = false → m.kind ≠ .attn →
      exec (.groupCommandRun k) s = .next (head fun m => { m with began := true, onMatrix := false, chose := false })) ∧
    (m.began = false → m.kind = .attn → exec (.groupCommandRun k) s = .next (head fun m => { m with
      began := true, chose := true, onMatrix := if m.chose then m.onMatrix else match m.hint with
        | .ae => false
        | .me => true
        | .auto => decide ((s.die (k / 16)).fabLast < (s.die (k / 16)).fabThresh) })) ∧
    (m.began = true → m.kind = .attn → liveLease s (k / 16) m.ctx (m.w (if m.onMatrix then 1 else 0)) = none →
      ∃ t, exec (.attnQueryBlock k) s = .next t ∧ t.mem = s.mem ∧ (t.seq k).grp.st = .failed ∧ (t.seq k).grp.cmds = [] ∧
        (t.seq k).grp.shadows = [] ∧ (t.seq k).grp.fault.cause = 1 ∧ (t.seq k).grp.faultIsn = m.isn) ∧
    (∀ l u m', m.began = true → m.kind = .attn → m.page < m.npages →
      liveLease s (k / 16) m.ctx (m.w (if m.onMatrix then 1 else 0)) = some l → l.st = .held → l.evicting = false →
      (attnPage k m (if m.page = 0 then (m.rowsOf (m.qb0 + m.qb)).map (fun _ => AttnRow.start m.dim) else m.rows)).run s =
        .ok m' u → exec (.attnQueryBlock k) s = .next (u.modSeq k fun q => { q with grp := { q.grp with
          cmds := match q.grp.cmds with
            | _ :: r => m' :: r
            | [] => [] } }))

/-! ## Continuations and kernels -/

namespace Sys2Proof.Claim

/-- Word k at a key. -/
def wordAt (s : State) (key k : Nat) : Nat := s.mem.num (key + 8 * k) 8

/-- The current sequencer can read n words at p at once. -/
def readable (s : State) (p : Phys) (n : Nat) : Prop :=
  p.tier ≤ 2 ∧ ∀ j, j < n → clear s ⟨p.key + 8 * j, p.leaf, p.entry⟩ 8 ∧ fullAt s ⟨p.key + 8 * j, p.leaf, p.entry⟩ 8

/-- A record image that is malformed (18 R439): a CODE that is 0 or odd, an address above 2^48, a JCTR that is not aligned,
or a reserved bit. -/
def badImage (w : Nat → Nat) : Prop :=
  w 0 = 0 ∨ w 0 % 2 = 1 ∨ 2 ^ 48 ≤ w 0 ∨ 2 ^ 48 ≤ w 2 ∨ w 2 % 16 ≠ 0 ∨ w 3 / 2 ^ 4 % 8 ≠ 0 ∨ 2 ^ 8 ≤ w 3

/-- The die that an image names, or the issuing one. -/
def imageTo (s : State) (w : Nat → Nat) : Nat := if w 3 / 2 ^ 7 % 2 = 1 then w 3 % 16 else s.cur / 16

/-- The state in which the record of an image stands in the queue of its die, at the level of cprio (18 R442). -/
def pushed (s : State) (w : Nat → Nat) : State :=
  let q := s.seq s.cur
  let v := fun k => BitVec.ofNat 64 (w k)
  s.modDie (imageTo s w) fun d => { d with recs := d.recs ++
    [⟨q.ctx, q.kernel, v 0, v 1, v 2, q.cprio.toNat / 16 % 4, s.now, 0, s.cur % 16, 16 * q.dieRank + q.seqRank, q.isn, none⟩] }

/-- Sequencer n has ended its continuation and stands idle; nothing else of the machine has moved but the states of
contexts and kernels. -/
def ended (s t : State) (n : Nat) : Prop :=
  (t.seq n).mode = .idle ∧ (t.seq n).inflight = [] ∧ (t.seq n).loops = [] ∧ (t.seq n).groups = (s.seq n).groups ∧
    (t.seq n).winPa = (s.seq n).winPa ∧ (t.seq n).grp = (s.seq n).grp ∧ t.mem = s.mem ∧ (∀ m, m ≠ n → t.seq m = s.seq m) ∧
    ∀ d, d < 16 → (t.die d).recs = (s.die d).recs ∧ (t.die d).events = (s.die d).events

/-- Nothing of sequencer n's thread is left to happen but commands of its group (18 R448). -/
def settledThread (s : State) (n : Nat) : Prop :=
  (s.seq n).inflight = [] ∧ (s.seq n).held = [] ∧ s.marks = [] ∧ s.landings = []

/-- The level of a record at a time (18 R442). -/
def recLevel (now : Nat) (r : Rec) : Nat := min 3 (r.level + ((now - r.pushed) / 25600 - r.raised))

/-- Sequencer n has begun a continuation of kernel k at an address (17 R425; 18 R440; 01 R18): x1 is its window's base, the
other registers are what xs gives, or 0. -/
def began (s t : State) (n : Nat) (k : Kernel) (code : Word) (xs : List (Nat × Word)) : Prop :=
  let q := t.seq n
  q.mode = .run ∧ q.pc = code ∧ q.ctx = k.ctx ∧ q.kernel = some k.id ∧ q.priv = false ∧ q.isn = 0 ∧ q.vl = 0 ∧
    q.vtype = k.vtype ∧ q.cflags = 0 ∧ q.loops = [] ∧ q.inflight = [] ∧ q.cgkey = 0 ∧ q.cgdraw = 0 ∧ q.cmask0 = 0 ∧
    q.cmask1 = 0 ∧ q.cvalid = 0 ∧ q.cld = 0 ∧ (∀ j : Fin 4, q.sqr[j].bound = false) ∧ q.getX 1 = BitVec.ofNat 64 (s.seq n).winVa ∧
    (∀ r : Reg, 2 ≤ r.val → q.getX r = ((xs.find? fun p => p.1 == r.val).map (·.2)).getD 0) ∧ t.mem = s.mem ∧
    ∀ m, m ≠ n → t.seq m = s.seq m

end Sys2Proof.Claim

/-- O49. SPAWN, JOIN and EXIT (18 R439 to R448), and the records of a die. SPAWN puts the record of its image into the
queue, or raises BADFMT for a malformed one, and SYNC where the die has no sequencer of the kernel or fewer than 16 places.
JOIN decrements its counter, and the decrement to zero pushes the parent, whose word's bits 62:48 the model ignores (log 48). EXIT ends
the continuation once nothing of it is left, and sleeps until then; that an open group stays with the sequencer is the model's reading
(log 58). An idle sequencer takes the first record of the highest level, and starts its continuation; a
record rises a level for each 256 microseconds that it waits. -/
def Obligations.Continuations : Prop :=
  (∀ (ra : Reg) (s : State) (p : Phys), let n := s.cur
    let va := xr s ra
    let w := wordAt s p.key
    let at_ := ∃ k kk m, (s.seq n).kernel = some k ∧ s.kernel? k = some kk ∧ m ∈ kk.seqs ∧ m / 16 = imageTo s w
    quiet s → va.toNat % 32 = 0 → mapped s n .load va.toNat p → readable s p 4 →
      (badImage w → traps (.spawn ra) 0x0B va 0 s) ∧
      (¬badImage w → ¬(at_ ∧ (s.die (imageTo s w)).recs.length + 16 ≤ 262144) → traps (.spawn ra) 0x15 0 0 s) ∧
      (¬badImage w → at_ → (s.die (imageTo s w)).recs.length + 16 ≤ 262144 → ready (.spawn ra) s →
        exec (.spawn ra) s = .next (done (.spawn ra) .next id (pushed s w)))) ∧
  (∀ (ra : Reg) (s : State) (p : Phys), let n := s.cur
    let va := xr s ra
    let old := wordAt s p.key 0
    let par := wordAt s p.key 1
    let less := stored s p (bytesOf 8 (old - 1))
    quiet s → va.toNat % 16 = 0 → mapped s n .atomic va.toNat p → readable s p 2 →
      (par < 2 ^ 63 → old = 0 ∨ 2 ^ 63 ≤ old → traps (.join ra) 0x15 0 0 s) ∧
      (par < 2 ^ 63 → 0 < old → old < 2 ^ 63 → ready (.join ra) s →
        exec (.join ra) s = .next (done (.join ra) .next id less)) ∧
      (2 ^ 63 ≤ par → par % 32 ≠ 0 → traps (.join ra) 0x0B va 0 s) ∧
      ∀ i, 2 ^ 63 ≤ par → par % 32 = 0 → mapped s n .load (par % 2 ^ 48) i → readable s i 4 →
        (badImage (wordAt s i.key) → traps (.join ra) 0x0B (BitVec.ofNat 64 (par % 2 ^ 48)) 0 s) ∧
        (¬badImage (wordAt s i.key) → (s.die (imageTo s (wordAt s i.key))).recs.length < 262144 →
          (old = 0 ∨ 2 ^ 63 ≤ old → traps (.join ra) 0x15 0 0 s) ∧
          (0 < old → old < 2 ^ 63 → ready (.join ra) s → exec (.join ra) s = .next (done (.join ra) .next id
            (if old = 1 then pushed less (wordAt s i.key) else less))))) ∧
  (∀ (s : State), let n := s.cur
    (s.seq n).mode ≠ .handler →
      (settledThread s n → (ready .exit s → ∃ t, exec .exit s = .next t ∧ ended s t n) ∧
        (ready .cExit s → ∃ t, exec .cExit s = .next t ∧ ended s t n)) ∧
      ((s.seq n).inflight ≠ [] ∨ (∃ l, l ∈ s.landings ∧ l.sq = n ∧ l.runId = (s.seq n).runId) →
        let sleeps := Host.Outcome.next (s.modSeq n fun q => { q with sleep := some .exit })
        (ready .exit s → exec .exit s = sleeps) ∧ (ready .cExit s → exec .cExit s = sleeps))) ∧
  (∀ (s : State) (n : Nat), s.pkg.frozen = false → (s.seq n).sleep = some .exit → settledThread s n →
    ∃ t, exec (.exitComplete n) s = .next t ∧ ended s t n) ∧
  (∀ (s : State) (n : Nat) (k : Kernel) (r : Rec), firstRec s k n = some r →
    r ∈ (s.die (n / 16)).recs ∧ ∀ x, x ∈ (s.die (n / 16)).recs → x.ctx = k.ctx → x.kernel = some k.id →
      (x.pinned = none ∨ x.pinned = some n) → recLevel s.now x ≤ recLevel s.now r ∧
        (recLevel s.now x = recLevel s.now r → r.pushed ≤ x.pushed)) ∧
  (∀ (s : State) (n : Nat) (k : Kernel) (r : Rec), n / 16 < 16 → s.pkg.frozen = false → (s.seq n).mode = .idle →
    kernelFor s n = some k → logMode s k.ctx = 0 → firstRec s k n = some r →
    (∀ m, m ∈ k.seqs → m / 16 = n / 16 → m < n → (s.seq m).mode ≠ .idle) →
      ∃ t, exec (.recordTake n) s = .next t ∧ (t.die (n / 16)).recs.length + 1 = (s.die (n / 16)).recs.length ∧
        began s t n k r.code (if r.pinned.isSome then k.argRegs.zip k.args else [(2, r.frame), (3, r.jctr)])) ∧
  ∀ (s : State) (d k : Nat) (r : Rec), s.pkg.frozen = false → d < 16 → (s.die d).recs[k]? = some r → r.level < 3 →
    r.pushed + (r.raised + 1) * 25600 ≤ s.now → exec (.recordAging d k) s = .next (s.modDie d fun x =>
      { x with recs := x.recs.set k { r with level := r.level + 1, raised := r.raised + 1 } })

/-- O50. Kernels (17 R427 to R435). A waiting launch on one die with one sequencer is placed on the lowest sequencer of an
empty die: it has the working groups that LAYOUT asks for, or all, the lowest window, a context from its queue's descriptor,
and a root record. An idle sequencer of a range kernel starts the next chunk of its die's cell, of VLMAX elements at most; a
die whose cell is empty takes the upper half of the cell with the most elements left, and steals no more when that has
fewer than 2. A kernel with nothing left completes, and one of a halted context aborts: its sequencers have no grant, its
context is ENDED, and its queue's home die, which word 6 of its descriptor names, is told. Which window is the lowest, and where it
lies, is the model's reading of R335 (log 31). -/
def Obligations.Kernels : Prop :=
  (∀ (s : State) (k : Kernel) (d : Nat), let g := k.layout / 2 ^ 20 % 2 ^ 7
    let ws := (s.die d).working
    let n := 16 * d
    d < 16 → s.kernels = [k] → k.st = .placing → s.pkg.frozen = false → (s.die k.home).fw.phase = 0 → k.dies = [d] →
    k.layout / 2 ^ 16 % 16 = 0 → k.range = none → s.pkg.measureOn = false → (s.die d).recs.length < 262144 →
    (∀ p, p ∈ s.seqs → p.2.groups = []) →
    (∀ x, x ∈ s.ctxs → x.id ≠ s.ctxCtr) → ws ≠ [] →
    (if g = 0 then max 1 ((k.cist + 0x1FFFFF) / 0x200000) ≤ ws.length else g ≤ ws.length) →
      ∃ t k', exec (.kernelPlacement k.id) s = .next t ∧ t.kernel? k.id = some k' ∧ k'.st = .running ∧ k'.seqs = [n] ∧
        k'.ctx = s.ctxCtr ∧ (t.seq n).kernel = some k.id ∧ (t.seq n).ctx = s.ctxCtr ∧
        (t.seq n).groups = (if g = 0 then ws else ws.take g) ∧ (t.seq n).winPa = 0xF000000000000 + d * 0x8000000 ∧
        (t.seq n).stage = 0 ∧ (t.seq n).dieRank = 0 ∧ (t.seq n).seqRank = 0 ∧ (t.ctx s.ctxCtr).st = .active ∧
        (t.ctx s.ctxCtr).cptbase = k.descWord 2 &&& 0xFFFFFFFFFFFFF ∧
        (t.ctx s.ctxCtr).limit = (k.descWord 5).toNat % 2 ^ 32 ∧ (t.die d).recs = (s.die d).recs ++
          [⟨s.ctxCtr, some k.id, BitVec.ofNat 64 (k.code + k.entry), 0, 0, (k.descWord 6).toNat / 2 ^ 4 % 4, s.now, 0, 0, 0, 0,
            some n⟩]) ∧
  (∀ (s : State) (n : Nat) (k : Kernel) (c : RangeCell), s.pkg.frozen = false → n / 16 < 16 → kernelFor s n = some k →
    s.kernel? k.id = some k → (s.seq n).mode = .idle → k.range.isSome = true →
    (∀ r, r ∈ (s.die (n / 16)).recs → r.kernel ≠ some k.id) → k.cell (n / 16) = some c → c.lo < c.hi →
    logMode s k.ctx = 0 →
      let e := c.lo + min (c.hi - c.lo) (vlmaxOf (s.seq n).groups.length)
      ∃ t k', exec (.rangeChunk n) s = .next t ∧ t.kernel? k.id = some k' ∧ k'.cell (n / 16) = some { c with lo := e } ∧
        began s t n k (BitVec.ofNat 64 (k.code + k.entry))
          (k.argRegs.zip (k.args ++ [BitVec.ofNat 64 c.lo, BitVec.ofNat 64 e]))) ∧
  (∀ (k : Kernel) (d : Nat) (v : RangeCell), k.victim d = some v → v ∈ k.cells ∧ v.die ≠ d ∧
    ∀ x, x ∈ k.cells → x.die ≠ d → x.hi - x.lo ≤ v.hi - v.lo) ∧
  (∀ (s : State) (d : Nat) (k : Kernel) (c v : RangeCell), s.pkg.frozen = false → s.kernel? k.id = some k →
    k.st = .running → (s.ctx k.ctx).st = .active → (∃ n, n ∈ k.seqs ∧ n / 16 = d ∧ (s.seq n).mode = .idle) →
    k.cell d = some c → c.hi ≤ c.lo → c.noSteal = false → k.victim d = some v →
      let cut := v.hi - (v.hi - v.lo) / 2
      ∃ t k', exec (.rangeSteal k.id d) s = .next t ∧ t.kernel? k.id = some k' ∧ t.mem = s.mem ∧
        (2 ≤ v.hi - v.lo → k'.cell v.die = some { v with hi := cut } ∧ k'.cell d = some { c with lo := cut, hi := v.hi }) ∧
        (v.hi - v.lo < 2 → k'.cell d = some { c with noSteal := true })) ∧
  ∀ (s : State) (k : Kernel), s.pkg.frozen = false → s.kernel? k.id = some k →
    (∀ n, n ∈ k.seqs → (s.seq n).mode = .idle) → (s.ctxs.any fun x => x.id == k.ctx) = true →
    (∀ b, b ∈ s.bars → b.batch = []) →
      let ends := fun (i : Instr) (st : KernelSt) => ∃ t k', exec i s = .next t ∧ t.kernel? k.id = some k' ∧ k'.st = st ∧
        k'.seqs = [] ∧ (t.ctx k.ctx).st = .ended ∧ (∀ n, n ∈ k.seqs → (t.seq n).groups = [] ∧ (t.seq n).kernel = none) ∧
        (∀ b, b ∈ t.bars → b.owner ≠ k.ctx) ∧ (∃ h, h < 16 ∧ Event.completion k.queue (some k.id) ∈ (t.die h).events) ∧
        ∀ w, (s.queue k.queue).st ≠ .disabled → (s.queue k.queue).desc[6]? = some w →
          Event.completion k.queue (some k.id) ∈ (t.die (w.toNat / 2 ^ 60)).events
      (k.st = .ending → ctxWorking s k.ctx = false → ends (.kernelComplete k.id) .complete) ∧
      (k.st = .aborting → s.threads k.ctx = [] → ctxWorking s k.ctx = false → ends (.kernelAbort k.id) .aborted)

/-! ## Barriers -/

namespace Sys2Proof.Claim

/-- Unit k of the instance of a scope that contains the current sequencer (19 R452). -/
def unitAt (s : State) (sc : BScope) (k : Nat) : UnitId := ⟨sc, match sc with
  | .clu => s.cur / 4
  | .die => s.cur / 16
  | .pkg => 0
  | .stg => (s.seq s.cur).stage, k⟩

/-- Of the barrier units only u has changed, to b; of memory nothing, and of the current sequencer only what f says and
going on. -/
def unitTo (s t : State) (u : UnitId) (b : Option Barrier) (i : Instr) (f : Seq → Seq) : Prop :=
  t.bar u = b ∧ (∀ v, v ≠ u → t.bar v = s.bar v) ∧ t.mem = s.mem ∧ t.seq s.cur = (f (s.seq s.cur)).retire i .next ∧
    (∀ m, m ≠ s.cur → t.seq m = s.seq m) ∧ { t with bars := s.bars, seqs := s.seqs } = s

/-- A phase of unit u has completed, and b is what the unit is now: the waits of its context that this meets are released (19 R464), and
nothing else has happened but what f says of the current sequencer and going on. -/
def phaseTo (s t : State) (u : UnitId) (b : Barrier) (i : Instr) (f : Seq → Seq) : Prop :=
  let rest := fun (q : Seq) => { q with sleep := none, inflight := [] }
  t.bar u = some b ∧ (∀ v, v ≠ u → t.bar v = s.bar v) ∧ t.mem = s.mem ∧ t.seq s.cur = (f (s.seq s.cur)).retire i .next ∧
    { t with bars := s.bars, seqs := s.seqs } = s ∧ ∀ m, m ≠ s.cur → let q := s.seq m
      rest (t.seq m) = rest q ∧ (q.ctx ≠ b.owner → t.seq m = q) ∧
      ∀ sc k token, q.sleep = some (.barrier sc k token false) →
        let behind := (b.p - BitVec.ofNat 32 (token.toNat % 2 ^ 32)).toNat
        (t.seq m).sleep = some (.barrier sc k token
          (decide (q.ctx = b.owner ∧ u = ⟨sc, scopeInst q m sc, k⟩ ∧ 0 < behind ∧ behind ≤ 2 ^ 31)))

end Sys2Proof.Claim

/-- O51. BARCFG, ARRIVE, WAITB and ARRWAIT (19 R452 to R461). A unit number above 7, a unit of another context and, but for
BARCFG, a FREE unit raise SYNC. BARCFG binds, changes or frees a unit with no arrivals. An arrival answers the phase number,
and the one that completes the phase sets bit 63 of it, while the count of arrivals goes back to 0 and the next phase begins.
A wait on a token of an earlier phase completes, one on the current phase sleeps, and one on a token that is ahead raises
SYNC after it has taken its ISN. A wait is met when the phase has passed; the arrival that completes a phase releases the waits
that it meets, which end whatever becomes of the unit. Writes that determinism mode holds stay held after an arrival, and are
performed when the phase completes (21 R500): that the unit names them by a number counted over all that the sequencer has held is the
model's choice (log 49). -/
def Obligations.Barriers : Prop := ∀ (sc : BScope) (rd ra rb : Reg) (s : State) (b : Barrier),
  let q := s.seq s.cur
  let k := (xr s ra).toNat
  let u := unitAt s sc k
  let v := (xr s rb).toNat
  let sync := fun (i : Instr) => traps i 0x15 0 0 s
  let all := sync (.barcfg sc ra rb) ∧ sync (.arrive sc rd ra) ∧ sync (.waitb sc ra rb) ∧ sync (.arrwait sc ra)
  let behind := fun (t : Nat) => (b.p - BitVec.ofNat 32 t).toNat
  (7 < k → all) ∧
  (s.bar u = some b → b.owner ≠ q.ctx → all) ∧
  (k ≤ 7 → s.bar u = none → sync (.arrive sc rd ra) ∧ sync (.waitb sc ra rb) ∧ sync (.arrwait sc ra) ∧
    (65536 ≤ v → traps (.barcfg sc ra rb) 0x0B 0 0 s) ∧ (v = 0 → goes (.barcfg sc ra rb) .next s) ∧
    (0 < v → v < 65536 → ready (.barcfg sc ra rb) s → ∃ t, exec (.barcfg sc ra rb) s = .next t ∧
      unitTo s t u (some ⟨sc, u.inst, k, q.ctx, v, 0, 0, []⟩) (.barcfg sc ra rb) id)) ∧
  (k ≤ 7 → s.bar u = some b → b.owner = q.ctx →
    (65536 ≤ v → traps (.barcfg sc ra rb) 0x0B 0 0 s) ∧ (v < 65536 → 0 < b.a → sync (.barcfg sc ra rb)) ∧
    (v < 65536 → b.a = 0 → ready (.barcfg sc ra rb) s → ∃ t, exec (.barcfg sc ra rb) s = .next t ∧
      unitTo s t u (if v = 0 then none else some { b with n := v }) (.barcfg sc ra rb) id) ∧
    (quiet s → b.batch = [] →
      let last := b.a + 1 = b.n
      let b' := if b.a + 1 = b.n then { b with a := 0, p := b.p + 1 } else { b with a := b.a + 1 }
      let token := BitVec.ofNat 64 ((if b.a + 1 = b.n then 2 ^ 63 else 0) + b.p.toNat)
      (ready (.arrive sc rd ra) s → ∃ t, exec (.arrive sc rd ra) s = .next t ∧
        (¬last → unitTo s t u (some b') (.arrive sc rd ra) (·.setX rd token)) ∧
        (last → phaseTo s t u b' (.arrive sc rd ra) (·.setX rd token))) ∧
      (ready (.arrwait sc ra) s → ∃ t, exec (.arrwait sc ra) s = .next t ∧ t.mem = s.mem ∧ t.bar u = some b' ∧
        (t.seq s.cur).isn = (q.retire (.arrwait sc ra) .next).isn ∧ (t.seq s.cur).pc = (q.retire (.arrwait sc ra) .next).pc ∧
        (∀ r, (t.seq s.cur).getX r = xr s r) ∧ (last → (t.seq s.cur).inflight = []) ∧
        (¬last → ∃ e, (t.seq s.cur).inflight = [e] ∧ e.ins = .arrwait sc ra ∧ e.isn = q.isn ∧ e.token = token))) ∧
    (q.inflight = [] → q.held ≠ [] → b.batch = [] → s.drainWaits s.cur = false → (∀ h, h ∈ q.held → h.num < q.heldNum) →
      ready (.arrive sc rd ra) s →
      ∃ t, exec (.arrive sc rd ra) s = .next t ∧
        (b.a + 1 ≠ b.n → t.mem = s.mem ∧ (t.seq s.cur).held = q.held ∧ t.bar u = some { b with
          a := b.a + 1, batch := [(16 * q.dieRank + q.seqRank, s.cur, q.heldNum)] }) ∧
        (b.a + 1 = b.n → t.mem = (performHeld s.cur s q.held).mem ∧ (t.seq s.cur).held = [] ∧
          t.bar u = some { b with a := 0, p := b.p + 1 })) ∧
    let t32 := v % 2 ^ 32
    (behind t32 = 0 → ready (.waitb sc ra rb) s → exec (.waitb sc ra rb) s = .next (s.modSeq s.cur fun q =>
      { q with sleep := some (.barrier sc k (xr s rb) false) })) ∧
    (0 < behind t32 → behind t32 ≤ 2 ^ 31 → goes (.waitb sc ra rb) .next s) ∧
    (2 ^ 31 < behind t32 → ready (.waitb sc ra rb) s → exec (.waitb sc ra rb) s = .next (lateTrap s s.cur ⟨0x15, 0, 0⟩)) ∧
    (s.pkg.frozen = false → q.sleep = some (.barrier sc k (xr s rb) false) → 0 < behind t32 → behind t32 ≤ 2 ^ 31 →
      exec (.barrierWaitMet s.cur) s = .next (s.modSeq s.cur fun q =>
        { q with sleep := none }.retire (.waitb sc ra rb) .next)) ∧
    ∀ e, s.pkg.frozen = false → q.sleep = none → q.mode = .run → q.inflight = [e] → e.ins = .arrwait sc ra →
      (e.w 2).toNat = k → 0 < behind (e.token.toNat % 2 ^ 32) → behind (e.token.toNat % 2 ^ 32) ≤ 2 ^ 31 →
        exec (.barrierWaitMet s.cur) s = .next (s.modSeq s.cur fun q => { q with inflight := [] })) ∧
  (∀ token, s.pkg.frozen = false → q.sleep = some (.barrier sc k token true) →
    exec (.barrierWaitMet s.cur) s = .next (s.modSeq s.cur fun q =>
      { q with sleep := none }.retire (.waitb sc ra rb) .next)) ∧
  ∀ e, s.pkg.frozen = false → q.sleep = none → q.mode = .run → q.inflight = [e] → e.ins = .arrwait sc ra → e.pulled ≠ [] →
    exec (.barrierWaitMet s.cur) s = .next (s.modSeq s.cur fun q => { q with inflight := [] })

/-! ## Traps and takes (chapter 15) -/

namespace Sys2Proof.Claim

/-- No command group is open. -/
def noGroup (s : State) : Prop := s.seqs.all (fun q => q.2.grp.st == .none) = true

/-- BASE of ctrap (15 R373), for the context of sequencer n. -/
def trapBase (s : State) (n : Nat) : Nat := (s.ctx (s.seq n).ctx).ctrap.toNat / 2 ^ 12 % 2 ^ 36 * 4096

/-- The trap area of sequencer n's context can be read and written, at p; nothing of the sequencer is held back. -/
def hasArea (s : State) (n : Nat) (p : Phys) : Prop :=
  trapBase s n ≠ 0 ∧ mapped s n .atomic (trapBase s n) p ∧ (p.tier = 1 ∨ p.tier = 2) ∧ keyExists p.key = true ∧
    s.softOf p.key ≤ 1 ∧ noGroup s ∧ (s.seq n).held = [] ∧ (s.seq n).loops.length ≤ 6

/-- Sequencer n has entered its handler (15 R372 to R375): the trap area holds the status word `status`, the ISNs `next` and
`isn`, PC, RESUME, ADDR, VSTART and INFO, every x register, the control block and the loop stack; the handler's address is
that of its word 0; registers and all memory outside the trap area are as before. -/
def entered (s t : State) (n : Nat) (p : Phys) (status : Nat) (r : TrapReq) (next isn : BitVec 32) (pc resume : Word)
    (vstart : Nat) : Prop :=
  let q := s.seq n
  let w := fun o => t.mem.num (p.key + o) 8
  (t.seq n).mode = .handler ∧ (t.seq n).pc = BitVec.ofNat 64 (s.mem.num p.key 8) ∧ (t.seq n).sleep = none ∧
    (t.seq n).pend = none ∧ (t.seq n).gtraps = [] ∧ (∀ k, (t.seq n).getX k = q.getX k) ∧
    w 0x40 = status ∧ w 0x48 = next.toNat * 2 ^ 32 + isn.toNat ∧ w 0x50 = pc.toNat % 2 ^ 48 ∧
    w 0x58 = resume.toNat % 2 ^ 48 ∧ w 0x60 = r.addr.toNat ∧ w 0x68 = vstart ∧ w 0x70 = r.info.toNat ∧
    (∀ k : Reg, k ≠ 0 → w (0x80 + 8 * (k.val - 1)) = (q.getX k).toNat) ∧
    w 0x180 = q.vl % 2 ^ 64 ∧ w 0x188 = q.vtype.toNat ∧ w 0x190 = q.cmask0.toNat ∧ w 0x198 = q.cmask1.toNat ∧
    w 0x1A0 = q.cvalid.toNat ∧ w 0x1A8 = q.cld.toNat ∧ w 0x1B0 = q.cgkey.toNat ∧ w 0x1B8 = q.cgdraw.toNat ∧
    w 0x1C0 = q.cflags % 2 ^ 64 ∧ w 0x1C8 = q.cprio.toNat ∧ w 0x1D0 = q.loops.length ∧
    (∀ j, (h : j < q.loops.reverse.length) → let l := q.loops.reverse[j]
      w (0x200 + 32 * j) = l.start.toNat ∧ w (0x208 + 32 * j) = l.stop.toNat ∧ w (0x210 + 32 * j) = l.count.toNat ∧
        w (0x218 + 32 * j) = l.index.toNat) ∧
    (∀ a, (a < p.key ∨ p.key + 4096 ≤ a) → t.mem.get a = s.mem.get a) ∧ ∀ m, m ≠ n →
      (t.seq m).x = (s.seq m).x ∧ (t.seq m).pc = (s.seq m).pc ∧ (t.seq m).mode = (s.seq m).mode

/-- Sequencer n has freed itself in a double trap, and its context is stopped (15 R378). -/
def stopped (s t : State) (n : Nat) : Prop :=
  (t.seq n).mode = .idle ∧ ((t.ctx (s.seq n).ctx).st = .halted ∨ (t.ctx (s.seq n).ctx).st = .ended) ∧
    ∀ d, d < 16 → ∀ r, r ∈ (t.die d).recs → r.ctx ≠ (s.seq n).ctx

end Sys2Proof.Claim

/-- O52. Taking a trap (06 R173, R174; 15 R372 to R378). An issue trap with nothing in flight enters the handler at once with
the trapping instruction's own address in RESUME; with something in flight it waits. A trap in handler mode, or one without a
trap area, is a double trap: the sequencer frees itself and its context stops. TRAP takes its ISN, and RESUME is the next
address; an instruction that traps after its checks has taken its ISN too, and RESUME is its own address (19 R456); BKPT traps with
INFO 8. -/
def Obligations.TakingATrap : Prop :=
  (∀ (s : State) (n : Nat) (r : TrapReq) (resume : Word) (p : Phys), let q := s.seq n
    (q.mode ≠ .handler → q.inflight = [] → hasArea s n p → r.cause < 256 →
      entered s (issueTrap s n r resume) n p r.cause r q.isn q.isn q.pc resume 0 ∧ ((issueTrap s n r resume).seq n).isn = q.isn) ∧
    (q.mode ≠ .handler → q.inflight ≠ [] →
      issueTrap s n r resume = s.modSeq n fun q => { q with pend := some ⟨r, q.isn, q.pc, resume, false, false⟩ }) ∧
    (q.mode = .handler → issueTrap s n r resume = doubleTrap s n r.cause q.pc) ∧
    (q.mode ≠ .handler → q.inflight = [] → trapBase s n = 0 → issueTrap s n r resume = doubleTrap s n r.cause 0) ∧
    (q.mode ≠ .handler → q.inflight = [] → hasArea s n p → r.cause < 256 →
      entered s (lateTrap s n r) n p r.cause r (q.isn + 1) q.isn q.pc q.pc 0)) ∧
  (∀ (s : State) (n cause : Nat) (addr : Word), (s.ctxs.any fun x => x.id == (s.seq n).ctx) = true →
    (s.ctx (s.seq n).ctx).st ≠ .halted → (s.ctx (s.seq n).ctx).st ≠ .ended → stopped s (doubleTrap s n cause addr) n) ∧
  ∀ (s : State) (k : BitVec 5) (p : Phys), let q := s.seq s.cur
    (q.mode ≠ .handler → q.inflight = [] → q.loops = [] → hasArea s s.cur p → ready (.trap k) s →
      ∃ t, exec (.trap k) s = .next t ∧
        entered s t s.cur p 0x13 ⟨0x13, 0, BitVec.ofNat 64 k.toNat⟩ (q.isn + 1) q.isn q.pc (q.pc + 4) 0) ∧
    traps .bkpt 0x0F 0 8 s ∧ traps .cBkpt 0x0F 0 8 s

/-- O53. The moves that lead to a handler, and that stop threads (15 R369, R372, R386, R387, R396, R520). A trap that waited
is entered once nothing is in flight, and an element trap once the groups have settled, with the instruction in flight
recorded. A take request at a soft point enters the handler; 10,000 reference cycles after it, or when its context is
HALTED, a thread stops where it is. An uncorrectable error halts its context, and a pre-emption request takes every thread of
an ACTIVE one. -/
def Obligations.TrapMoves : Prop := ∀ (s : State) (n : Nat) (p : Phys),
  let q := s.seq n
  let c := s.ctx q.ctx
  s.pkg.frozen = false →
    (q.mode = .run → hasArea s n p →
      (∀ x, q.gtraps = [] → q.inflight = [] → q.pend = some x → x.hard = false → x.nores = false → x.req.cause < 256 →
        x.req.cause ≠ 0x13 → ∃ t, exec (.trapEntry n) s = .next t ∧
          entered s t n p x.req.cause x.req q.isn x.isn x.pc x.resume 0) ∧
      (∀ g e, q.gtraps = [g] → (∀ x, q.pend = some x → x.nores = false) → settled s n = true → q.inflight = [e] → e.gs.all (·.fin) = false → e.isn = g.isn →
        g.req.cause < 256 → g.elem < 2 ^ 64 → ∃ t, exec (.trapEntry n) s = .next t ∧ (t.seq n).inflight = [] ∧
          entered s t n p (2 ^ 16 + g.req.cause) g.req q.isn g.isn e.pc q.pc g.elem ∧
          t.mem.num (p.key + 0x500) 8 = e.pc.toNat % 2 ^ 48 ∧ t.mem.num (p.key + 0x508) 8 = encode e.ins % 2 ^ 64) ∧
      (∀ cause since, q.take = some (cause, since) → cause = 0x0D ∨ cause = 0x11 → q.pend = none → q.gtraps = [] →
        q.sleep = none → q.softPt = true → q.inflight = [] → ∃ t, exec (.softTake n) s = .next t ∧
          entered s t n p cause ⟨cause, 0, 0⟩ q.isn q.isn q.pc q.pc 0 ∧ (t.seq n).take = none ∧ (t.seq n).taken = true)) ∧
    (∀ cause since, q.mode = .run → q.take = some (cause, since) → q.pend = none → q.sleep = none → 10000 ≤ s.now - since →
      ∃ t, exec (.hardTake n) s = .next t ∧ t.mem = s.mem ∧
        (t.seq n).pend = some ⟨⟨cause, 0, 0⟩, q.isn, q.pc, q.pc, true, false⟩ ∧ ∀ k, (t.seq n).getX k = q.getX k) ∧
    (q.mode = .run → c.st = .halted → (∀ x, q.pend = some x → x.nores = false) → ∃ t, exec (.haltStop n) s = .next t ∧
      t.mem = s.mem ∧ (t.seq n).pend = some ⟨c.halt, q.isn, q.pc, q.pc, true, true⟩ ∧ (t.seq n).gtraps = [] ∧
        ∀ k, (t.seq n).getX k = q.getX k) ∧
    ∀ x, let y := s.ctx x
      (s.ctxs.any fun z => z.id == x) = true →
      (∀ addr phys, y.st ≠ .halted → y.st ≠ .ended → ∃ t, exec (.machineCheck x addr phys) s = .next t ∧
        (t.ctx x).st = .halted ∧ (t.ctx x).halt = ⟨0x10, BitVec.ofNat 64 addr, if phys then 1 else 0⟩ ∧
        ∀ d, d < 16 → ∀ r, r ∈ (t.die d).recs → r.ctx ≠ x) ∧
      (y.st = .active → ∃ t, exec (.preemptionRequest x) s = .next t ∧ t.mem = s.mem ∧
        ((t.ctx x).st = .taking ∨ (t.ctx x).st = .away) ∧ (t.ctx x).takeCause = 0x0D ∧
        ∀ m, (s.seq m).ctx = x → (s.seq m).mode = .run → (t.seq m).take = some (0x0D, s.now))

/-- O54. RETT, CTXST and CTXLD (15 R369, R380, R390 to R394). RETT with nothing recorded in flight restores ISN, RESUME, the
x registers, the control block and the loop stack from the trap area, and the thread runs on; a malformed area is a double
trap; with NORES, or in a HALTED context, the thread ends; while its context is TAKING, RETT records the take and enters the
handler again. CTXST copies the trap area, the descriptors and the privileged registers into the thread record, which is
then SAVED; CTXLD brings such a record back into the trap area and the sequencer, and clears the rest of the window. That RETT adds
the flags which engine work owes the thread to those that it restores (log 65), that it takes a thread again whose quota is used up (21
R495), and that a record which no context has written goes to the loader's own (log 68), is the model's reading. -/
def Obligations.ContextSaving : Prop := ∀ (s : State) (p : Phys) (ra : Reg) (rec_ entry : Nat) (leaf : Word),
  let n := s.cur
  let q := s.seq n
  let c := s.ctx q.ctx
  let area := fun o => s.mem.num (p.key + o) 8
  let g := q.groups.length
  let w := fun (k : Nat) => BitVec.ofNat 64 k
  q.mode = .handler → hasArea s n p → s.soft = [] → (s.ctxs.any fun x => x.id == q.ctx) = true →
    (c.st = .active ∨ c.st = .away → ready .rett s → area 0x40 / 2 ^ 16 % 16 = 0 → area 0x40 / 2 ^ 8 % 4 = 0 →
      area 0x1D0 % 8 ≤ 6 → (∀ k, k < g → area (0x300 + 8 * k) / 2 ^ 48 % 16 = 0) → c.limit ≠ 0 → c.balance ≤ 0 →
        ∃ t, exec .rett s = .next t ∧ t.mem = s.mem ∧ (t.seq n).mode = .run ∧ (t.ctx q.ctx).st = .taking ∧
          (t.ctx q.ctx).takeCause = 0x11 ∧ (t.seq n).take = some (0x11, s.now)) ∧
    (c.st = .active ∨ c.st = .away → ready .rett s → area 0x40 / 2 ^ 16 % 16 = 0 → area 0x40 / 2 ^ 8 % 4 = 0 →
      area 0x1D0 % 8 ≤ 6 → (∀ k, k < g → area (0x300 + 8 * k) / 2 ^ 48 % 16 = 0) → (c.limit = 0 ∨ 0 < c.balance) →
        ∃ t, exec .rett s = .next t ∧ t.mem = s.mem ∧ (t.ctx q.ctx).st = .active ∧
          let r := t.seq n
          r.mode = .run ∧ r.pc = w (area 0x58 % 2 ^ 48) ∧ r.isn = BitVec.ofNat 32 (area 0x48 / 2 ^ 32) ∧ r.inflight = [] ∧
            (∀ k : Reg, k ≠ 0 → r.getX k = w (area (0x80 + 8 * (k.val - 1)))) ∧
            r.vl = min (area 0x180 % 2 ^ 17) (min (vlmaxOf g) (2 ^ q.vcap)) ∧
            r.vtype = (if vtLegal (w (area 0x188)) then w (area 0x188) else 0x8000000000000000) ∧
            r.cmask0 = w (area 0x190 % 2 ^ 48) ∧ r.cmask1 = w (area 0x198 % 2 ^ 48) ∧ r.cvalid = w (area 0x1A0 % 2 ^ 48) ∧
            r.cld = w (area 0x1A8 % 2 ^ 48) ∧ r.cgkey = w (area 0x1B0) ∧
            r.cgdraw = w (area 0x1B8 / 2 ^ 16 * 2 ^ 16) ∧ r.cflags = area 0x1C0 % 32 ||| (smapGet q.runId s.owed).getD 0 ∧ r.loops.length = area 0x1D0 % 8 ∧
            (∀ j, (h : j < r.loops.reverse.length) → r.loops.reverse[j].start = w (area (0x200 + 32 * j) % 2 ^ 48) ∧
              r.loops.reverse[j].stop = w (area (0x208 + 32 * j) % 2 ^ 48) ∧ r.loops.reverse[j].count = w (area (0x210 + 32 * j)) ∧
              r.loops.reverse[j].index = w (area (0x218 + 32 * j)))) ∧
    (c.st = .active ∨ c.st = .away → ready .rett s → 9 < area 0x40 / 2 ^ 16 % 16 →
      exec .rett s = .next (doubleTrap s n 0x0B q.pc)) ∧
    (c.st = .active ∨ c.st = .away → ready .rett s → area 0x40 / 2 ^ 16 % 16 = 0 → area 0x40 / 2 ^ 8 % 2 = 1 →
      area 0x1D0 % 8 ≤ 6 → (∀ k, k < g → area (0x300 + 8 * k) / 2 ^ 48 % 16 = 0) →
        ∃ t, exec .rett s = .next t ∧ (t.seq n).mode = .idle) ∧
    (c.st = .halted ∨ c.st = .ended → ready .rett s → ∃ t, exec .rett s = .next t ∧ (t.seq n).mode = .idle) ∧
    (c.st = .taking → ready .rett s → ∃ t, exec .rett s = .next t ∧
      t.mem.num (p.key + 0x40) 8 = (area 0x40 / 2 ^ 11 * 2 ^ 11 + 2 ^ 10 + area 0x40 / 2 ^ 8 % 4 * 2 ^ 8 + c.takeCause) % 2 ^ 64 ∧
      t.mem.num (p.key + 0x70) 8 = 0 ∧ (t.seq n).mode = .handler ∧ (t.seq n).pc = w (area 0) ∧ (t.seq n).take = none ∧
      (t.seq n).taken = true ∧ ∀ k, (t.seq n).getX k = q.getX k) ∧
    let va := (xr s ra).toNat
    let place := fun (acc : Access) => ∀ o, o < 0x2000 → mapped s n acc (va + o) ⟨rec_ + o, leaf, entry⟩
    va % 4096 = 0 → va + 0x2000 ≤ 2 ^ 48 → (eTier leaf = 1 ∨ eTier leaf = 2) → (∀ o, o < 0x2000 → sound s (rec_ + o) 1) →
    (∀ o, o < 0x1000 → sound s (p.key + o) 1) → (rec_ + 0x2000 ≤ p.key ∨ p.key + 0x1000 ≤ rec_) → place .load →
      let old := fun o => s.mem.num (rec_ + o) 8
      (place .store → mapped s n .atomic va ⟨rec_, leaf, entry⟩ → s.marks = [] → s.landings = [] → q.hwm = 0 →
        q.lastLoad ≠ some va → area 0x40 / 2 ^ 10 % 2 = 0 → g < 128 → ready (.ctxst ra) s →
          ∃ t, exec (.ctxst ra) s = .next t ∧
            t.mem.num rec_ 8 = 2 ^ 63 + (if q.priv then 2 ^ 61 else 0) + g * 2 ^ 32 + vlmaxOf g ∧
            (∀ o, o < 8 → t.mem.num (rec_ + 0x40 + 8 * o) 8 = area (0x40 + 8 * o)) ∧
            (∀ k : Reg, k ≠ 0 → t.mem.num (rec_ + 0x80 + 8 * (k.val - 1)) 8 = area (0x80 + 8 * (k.val - 1))) ∧
            (∀ j, j < 10 → t.mem.num (rec_ + 0x180 + 8 * j) 8 = area (0x180 + 8 * j)) ∧
            (∀ j : Fin 16, t.mem.num (rec_ + 0x1000 + 64 * j.val) 8 = q.td[j].base % 2 ^ 64) ∧
            t.mem.num (rec_ + 0x1400) 8 = c.ctrap.toNat ∧ t.mem.num (rec_ + 0x1410) 8 = c.cptbase.toNat ∧
            (rec_, q.runId) ∈ (t.ctx q.ctx).saved ∧ rec_ ∈ (t.ctx q.ctx).records ∧
            ∀ a, (a < rec_ ∨ rec_ + 0x2000 ≤ a) → t.mem.get a = s.mem.get a) ∧
      (old 0 / 2 ^ 63 = 0 → ready (.ctxld ra) s → exec (.ctxld ra) s = .next (doubleTrap s n 0x0B q.pc)) ∧
      (old 0 / 2 ^ 62 = 2 → old 0x18 = 0 → old 0x80 = q.winVa → (∀ x, x ∈ s.ctxs → rec_ ∉ x.records ∧ ∀ y, y ∈ x.saved → y.1 ≠ rec_) →
        (∀ a, a ∈ s.aside → a.run ≠ s.runCtr + 1) → c.st ≠ .ended →
        q.winPa % 8 = 0 → rec_ + 0x2000 ≤ q.winPa → p.key + 0x1000 ≤ q.winPa → ready (.ctxld ra) s →
          ∃ t, exec (.ctxld ra) s = .next t ∧ (∀ o, o < 8 → t.mem.num (p.key + 0x40 + 8 * o) 8 = old (0x40 + 8 * o)) ∧
            (∀ k : Reg, k ≠ 0 → t.mem.num (p.key + 0x80 + 8 * (k.val - 1)) 8 = old (0x80 + 8 * (k.val - 1))) ∧
            (∀ j : Fin 16, (t.seq n).td[j].base = old (0x1000 + 64 * j.val) % 2 ^ 48) ∧
            (t.seq n).priv = (old 0 / 2 ^ 61 % 2 == 1) ∧ (t.ctx q.ctx).ctrap = w (old 0x1400 / 2 ^ 12 % 2 ^ 36 * 2 ^ 12) ∧
            (t.ctx q.ctx).cptbase = w (old 0x1410 % 2 ^ 52) ∧ (t.seq n).lastLoad = some va ∧ (t.seq n).mode = .handler ∧
            (∀ a, q.winPa ≤ a → a < q.winPa + 0x200000 * g → t.mem.get a = 0 ∧ t.full a = true) ∧
            ∀ a, (a < p.key ∨ p.key + 0x1000 ≤ a) → (a < q.winPa ∨ q.winPa + 0x200000 * g ≤ a) → t.mem.get a = s.mem.get a)

/-! ## Queues (chapter 16) -/

namespace Sys2Proof.Claim

/-- The link over which requests of master m come carries them (20 R466, R470, R471): the CXL port for the host, and for the peer the
port of the model's choice (log 118); the other masters have transports of their own. -/
def carried (s : State) (m : Master) : Prop := ∀ k, masterLink s m = some k →
  s.pkg.frozen = false ∧ ((s.link k).st = .up ∨ (s.link k).st = .degraded)

/-- Master m is the owner, has been heard within 100 ms, no handover is pending (21 R506), and its requests are carried. -/
def owns (s : State) (m : Master) : Prop :=
  s.pkg.owner = some m ∧ s.now - s.pkg.heard < 10000000 ∧ s.pkg.pendSucc = none ∧ carried s m

/-- No master of a higher number than m has written OWNCTL in this reference cycle (21 R506). -/
def inOrder (s : State) (m : Master) : Prop := ∀ t k, s.pkg.ownWrite = some (t, k) → t = s.now → k ≤ masterNum m

/-- A write of master m is dropped and counted, and m is answered with its error status; nothing else changes but what elapsed
intervals have done to the ownership (00 R6; 21 R485, R506). -/
def drops (m : Master) (i : Instr) (s : State) : Prop :=
  ∃ t, exec i s = .next t ∧ t.pkg.ndrop = min 65535 (s.pkg.ndrop + 1) ∧
    (∀ k : Fin 4, t.pkg.errAns[k] = s.pkg.errAns[k] + if k.val = masterNum m then 1 else 0) ∧
    { t with pkg := s.pkg } = s ∧ { t.pkg with
      ndrop := s.pkg.ndrop, errAns := s.pkg.errAns, owner := s.pkg.owner, nonce := s.pkg.nonce,
      pendSucc := s.pkg.pendSucc, ownWrite := s.pkg.ownWrite } = s.pkg

/-- A queue descriptor that is malformed (16 R399, R400). -/
def badDescriptor (w : Nat → Nat) : Prop :=
  w 0 / 2 ^ 53 % 2 ^ 10 ≠ 0 ∨ 2 ^ 32 ≤ w 1 ∨ 2 ^ 52 ≤ w 2 ∨ 2 ^ 48 ≤ w 3 ∨ 2 ^ 48 ≤ w 4 ∨ w 6 % 2 ^ 4 ≠ 0 ∨
    w 6 / 2 ^ 6 % 2 ^ 2 ≠ 0 ∨ w 6 / 2 ^ 11 % 2 ^ 49 ≠ 0 ∨ w 7 / 2 ^ 8 % 2 ^ 4 ≠ 0 ∨ w 7 / 2 ^ 16 % 2 ^ 8 ≠ 0 ∨
    w 7 / 2 ^ 56 % 2 ^ 5 ≠ 0 ∨ w 0 / 2 ^ 48 % 2 ^ 5 < 4 ∨ 16 < w 0 / 2 ^ 48 % 2 ^ 5 ∨ w 0 % 4096 ≠ 0

/-- The comparison of a gate or a WAIT (10 R275). -/
def compares (cmp : Nat) (a b : Word) : Prop := match cmp with
  | 0 => a = b
  | 1 => a ≠ b
  | 2 => b.toNat ≤ a.toNat
  | 3 => a.toNat < b.toNat
  | 4 => b.toInt ≤ a.toInt
  | _ => a.toInt < b.toInt

/-- The n bytes that agents of die d reach at va under a cptbase value lie at p in the main or well tier, whole. -/
def farAt (s : State) (d : Nat) (root : Word) (acc : Access) (va : Nat) (p : Phys) (n : Nat) : Prop :=
  mappedAt s d root acc va p ∧ (p.tier = 1 ∨ p.tier = 2) ∧ sound s p.key n

/-- Another notify event of queue q waits in some die when the only event of die d has been taken (16 R403). -/
def othersWait (s : State) (d q : Nat) : Bool := notifyWaits (s.modDie d fun x => { x with events := [] }) q

end Sys2Proof.Claim

/-- O55. Queues (16 R399 to R419). A notify posts one event at the home die, unless one waits; a master that is not the owner
is refused. A cobbler that takes the event does what R418 says for the state of the queue. The packet at READ is started: a
NOP is complete at once, its slot is cleared and READ advances; an empty slot ends the processing; a TYPE outside R406 is
BADPKT. A WAIT whose condition holds is complete, and one whose time-out has passed is WAITTO; its re-read is an event of the
home die while no cobbler may take it. The signal of a completed packet is decremented, and the packet leaves; when none is
left the queue looks at READ, and is IDLE when the slot there is empty. -/
def Obligations.Queues : Prop := ∀ (s : State) (q : Nat),
  let x := s.queue q
  let h := queueHome s q
  let b := s.pkg.qtbase + 64 * q
  let word := fun (k : Nat) => s.mem.num (b + 8 * k) 8
  q < 1024 → s.pkg.frozen = false →
    (∀ who : Option Master, (∀ m, who = some m → owns s m) →
      let posts := fun (i : Instr) (e : Event) => ∃ t, exec i s = .next t ∧ t.mem = s.mem ∧
        (t.die h).events = (s.die h).events ++ [e] ∧ t.queue q = { x with notified := true }
      (x.notified = true → exec (.notify who q) s = .next s) ∧
      (x.notified = false → posts (.notify who q) (.notify q none false)) ∧
      (∀ pos, posts (.notifyReset who q pos) (.notify q (some pos) false)) ∧
      posts (.notifyDisable who q) (.notify q none true)) ∧
    (∀ m, s.pkg.owner ≠ some m → carried s m → drops m (.notify (some m) q) s ∧ (∀ pos, drops m (.notifyReset (some m) q pos) s) ∧
      drops m (.notifyDisable (some m) q) s) ∧
    ((∀ k, k < 64 → sound s (b + k) 1) → s.wayTo h b = .clear →
      (∀ d reset dis, d < 16 → (s.die d).fw.phase = 0 → cobblersBusy s d < 12 →
        (s.die d).events = [.notify q reset dis] → x.active = false →
          let same : Queue := { x with notified := othersWait s d q }
          let takes := fun (f : Queue → Prop) => ∃ t, exec (.eventTake d) s = .next t ∧ (t.die d).events = [] ∧ f (t.queue q)
          (dis = true → takes fun y => y.st = .disabled ∧ y.active = false) ∧
          (dis = false → x.st = .idle ∨ x.st = .busy → (reset = none → takes fun y =>
              y.st = x.st ∧ y.active = true ∧ y.budget = 16 ∧ y.read = x.read ∧ y.notified = same.notified) ∧
            (reset.isSome = true → takes fun y => y = same)) ∧
          (dis = false → x.st = .error → (reset = none → takes fun y => y.st = .error ∧ y.active = false) ∧
            (∀ pos, reset = some pos → x.badDesc = true → takes fun y => y = same) ∧
            (∀ pos, reset = some pos → x.badDesc = false → takes fun y =>
              y.st = .idle ∧ y.read = pos ∧ y.levels = [] ∧ y.active = true)) ∧
          (dis = false → x.st = .disabled → (word 0 < 2 ^ 63 → takes fun y => y.st = .disabled ∧ y.active = false) ∧
            (2 ^ 63 ≤ word 0 → badDescriptor word → takes fun y =>
              y.st = .error ∧ y.read = 0 ∧ y.ecause = 1 ∧ y.epos = 0 ∧ y.edepth = 0 ∧ y.active = false) ∧
            (2 ^ 63 ≤ word 0 → ¬badDescriptor word → takes fun y => y.st = .idle ∧ y.read = 0 ∧ y.active = true ∧
              ∀ k, k < 8 → y.desc[k]? = some (BitVec.ofNat 64 (word k))))) ∧
      (∀ key leaf entry, let a := (x.w 0).toNat % 2 ^ 48 + 64 * (x.read.toNat % 2 ^ ((x.w 0).toNat / 2 ^ 48 % 2 ^ 5))
        let root := x.w 2 &&& 0xFFFFFFFFFFFFF
        let home := (x.w 6).toNat / 2 ^ 60
        let pw := fun (k : Nat) => s.mem.num (key + 8 * k) 8
        x.active = true → x.st = .idle ∨ x.st = .busy → x.levels = [] → x.started = [] → 2 ≤ x.budget → noGroup s →
        (∀ k, k < 8 → farAt s home root .load (a + 8 * k) ⟨key + 8 * k, leaf, entry⟩ 8) →
        farAt s home root .store a ⟨key, leaf, entry⟩ 8 →
        (key + 64 ≤ b ∨ b + 64 ≤ key) →
          (pw 0 % 2 = 0 → ∃ t, exec (.packetStart q) s = .next t ∧ (t.queue q).active = false ∧ (t.queue q).st = .idle ∧
            (t.queue q).read = x.read ∧ (t.queue q).started = []) ∧
          (pw 0 % 2 = 1 → pw 0 / 2 ^ 8 % 2 ^ 8 = 0 ∨ 4 < pw 0 / 2 ^ 8 % 2 ^ 8 → ∃ t, exec (.packetStart q) s = .next t ∧
            (t.queue q).st = .error ∧ (t.queue q).ecause = 1 ∧ (t.queue q).epos = x.read ∧ (t.queue q).edepth = 0 ∧
            (t.queue q).active = false) ∧
          (pw 0 = 0x101 → (∀ k, 1 ≤ k → k ≤ 6 → pw k = 0) → pw 7 < 2 ^ 48 → pw 7 % 8 = 0 →
            ∃ t, exec (.packetStart q) s = .next t ∧ t.mem.num key 8 = 0 ∧ (t.queue q).read = x.read + 1 ∧
              (t.queue q).st = .busy ∧ (t.queue q).active = true ∧ t.mem.num (b + 8) 8 = (x.read + 1).toNat ∧
              ∃ p, (t.queue q).started = [p] ∧ p.type = 1 ∧ p.finished = true ∧ p.csig = pw 7)) ∧
      (∀ p k w1 w2 w3 w4, x.started = [p] → p.type = 3 → p.finished = false → p.parent ≠ some p.id → p.wait = [w1, w2, w3, w4] →
        x.st = .idle ∨ x.st = .busy → (s.die h).fw.phase = 0 → farAt s h p.root .load w1.toNat k 8 →
          let v := BitVec.ofNat 64 (s.mem.num k.key 8)
          (x.active = true → Event.recheck q ∉ (s.die h).events → exec (.waitPacketCheck q) s = .next (s.modDie h fun x =>
            { x with events := x.events ++ [.recheck q] })) ∧
          (compares w3.toNat v w2 → x.active = false → (s.die h).events = [] → cobblersBusy s h < 12 → ∃ t, exec (.waitPacketCheck q) s = .next t ∧
            (t.queue q).started = [{ p with finished := true }] ∧ (t.queue q).st = x.st) ∧
          (¬compares w3.toNat v w2 → x.active = false → w4 ≠ 0 → w4.toNat ≤ (s.pkg.tick - BitVec.ofNat 64 p.since).toNat →
            ∃ t, exec (.waitPacketTimeout q) s = .next t ∧ (t.queue q).started = [{ p with finished := true }] ∧
              (t.queue q).st = .error ∧ (t.queue q).ecause = 6 ∧ (t.queue q).epos = BitVec.ofNat 32 p.pos)) ∧
      ∀ p r, x.started = p :: r → p.finished = true → p.parent = none → (∀ y, y ∈ r → y.id ≠ p.id) →
        (s.die h).fw.phase = 0 → noGroup s →
          let a := (x.w 0).toNat % 2 ^ 48 + 64 * (x.read.toNat % 2 ^ ((x.w 0).toNat / 2 ^ 48 % 2 ^ 5))
          let slot := farAt s ((x.w 6).toNat / 2 ^ 60) (x.w 2 &&& 0xFFFFFFFFFFFFF) .load a
          (p.csig = 0 → ∃ t, exec (.packetComplete q p.id) s = .next t ∧ (t.queue q).started = r) ∧
          (∀ j, p.csig = 0 → r = [] → x.st = .busy → x.active = false → x.blocked = false → x.levels = [] → slot j 8 →
            ∃ t, exec (.packetComplete q p.id) s = .next t ∧ (t.queue q).started = [] ∧
              (t.queue q).st = if s.mem.num j.key 8 % 2 = 0 then .idle else .busy) ∧
          ∀ j k, p.csig ≠ 0 → farAt s h p.root .atomic p.csig k 8 → (k.key + 8 ≤ b ∨ b + 64 ≤ k.key) → slot j 8 →
            ∃ t, exec (.packetComplete q p.id) s = .next t ∧ (t.queue q).started = r ∧
              t.mem.num k.key 8 = (s.mem.num k.key 8 + 2 ^ 64 - 1) % 2 ^ 64)

/-! ## Masters, registers, power (chapters 20 and 21) -/

/-- O56. Ownership and freezing (21 R485, R506 to R508). Without an owner, or after 100 ms of silence, a claim makes its
master owner; the owner's claim with its nonce is a heartbeat; a successor named in a handover takes over. Another master's
write, or one with another nonce, is dropped and counted; the writes of one reference cycle take effect in ascending order of their
masters, a later one of a lower number in the next cycle. The owner's command and the pin ask for a freeze, which takes effect at a
boundary of 64 reference cycles, and ends when no cause of it stands, the count of cycles standing still meanwhile; the links freeze and
go on with the package, and each that changes its state so sends a message on vector 0 (20 R472; log 52). -/
def Obligations.Ownership : Prop := ∀ (s : State) (m o succ : Master) (nonce : BitVec 16) (b : Bool),
  let p := s.pkg
  let becomes := fun (i : Instr) (f : Package) => exec i s = .next { s with pkg := f }
  let writes := fun (i : Instr) (f : Package) => carried s m → inOrder s m →
    exec i s = .next { s with pkg := { f with ownWrite := some (s.now, masterNum m) } }
  let refused := fun (i : Instr) => carried s m → inOrder s m → drops m i s
  let changed := fun (f : Nat → Bool) => p.msix.set 0 (p.msix[0] + (List.range 37).countP f)
  let owner : Package := { p with owner := some m, nonce := nonce, heard := s.now, pendSucc := none }
  let none_ : Package := { p with owner := none, nonce := 0, pendSucc := none }
  let recent := s.now - p.heard < 10000000
  (p.owner = none → writes (.ownClaim m nonce) owner) ∧
  (p.owner.isSome = true → ¬recent → writes (.ownClaim m nonce) owner) ∧
  (p.owner = some m → p.nonce = nonce → recent → p.pendSucc = none →
    writes (.ownClaim m nonce) { p with heard := s.now } ∧
    writes (.ownHandover m succ nonce) { p with pendSucc := some succ, pendSince := s.now, succShown := masterNum succ } ∧
    writes (.ownRelease m nonce) none_) ∧
  (p.owner = some m → p.nonce ≠ nonce → recent →
    refused (.ownClaim m nonce) ∧ refused (.ownHandover m succ nonce) ∧ refused (.ownRelease m nonce)) ∧
  (p.owner = some o → o ≠ m → recent → (p.pendSucc = some m → s.now - p.pendSince < 10000000 → writes (.ownClaim m nonce) owner) ∧
    (p.pendSucc ≠ some m → refused (.ownClaim m nonce)) ∧ refused (.ownHandover m succ nonce) ∧ refused (.ownRelease m nonce)) ∧
  (∀ k, p.ownWrite = some (s.now, k) → masterNum m < k → carried s m → p.frozen = false →
    exec (.ownClaim m nonce) s = exec (.ownClaim m nonce) { s with now := s.now + 1 }) ∧
  (p.frozen = false → p.owner.isSome = true → ¬recent → becomes .ownHeartbeatTimeout none_) ∧
  (p.frozen = false → p.owner.isSome = true → recent → p.pendSucc.isSome = true → 10000000 ≤ s.now - p.pendSince →
    becomes .ownHandoverTimeout { p with pendSucc := none }) ∧
  (let asked : Bool → Bool → Package := fun pin cmd =>
      { p with pin := pin, cmdFreeze := cmd, frzAsked := if p.pin || p.cmdFreeze then p.frzAsked else s.now };
    (owns s m → becomes (.freezeRequest m) (asked p.pin true) ∧ becomes (.thawRequest m) (asked p.pin false)) ∧
    (p.owner ≠ some m → carried s m → drops m (.freezeRequest m) s ∧ drops m (.thawRequest m) s) ∧
    becomes (.frzPin b) (asked b p.cmdFreeze)) ∧
  (p.pin = true ∨ p.cmdFreeze = true → p.frozen = false → (s.now < (p.frzAsked / 64 + 1) * 64 →
      exec .freezeTakeEffect s = .next s) ∧
    ((p.frzAsked / 64 + 1) * 64 ≤ s.now → ∃ t, exec .freezeTakeEffect s = .next t ∧ t.pkg = { p with
        frozen := true, msix := changed fun k => (s.link k).st == .up || (s.link k).st == .degraded || (s.link k).st == .training } ∧
      { t with pkg := s.pkg, links := s.links } = s ∧ ∀ k, k < 37 → t.link k =
        if (s.link k).st = .up ∨ (s.link k).st = .degraded ∨ (s.link k).st = .training then
          { s.link k with st := .frozen, before := (s.link k).st } else s.link k)) ∧
  (p.pin = false → p.cmdFreeze = false → p.frozen = true → ∃ t, exec .freezeTakeEffect s = .next t ∧
    t.pkg = { p with frozen := false, msix := changed fun k => (s.link k).st == .frozen && (s.link k).before != .frozen } ∧
    { t with pkg := s.pkg, links := s.links } = s ∧ ∀ k, k < 37 → t.link k =
      if (s.link k).st = .frozen then { s.link k with st := (s.link k).before } else s.link k)

/-- O57. Registers, reset and periods (12 R309, R324, R326; 20 R477; 21 R485 to R498, R509 to R511). The owner's writes have
their effects, another master's are dropped, and an offset without a register ignores them; the debug port reads registers
at any time and other state while the package is frozen; every master reads registers where its link carries the read (log 98), and a
read of the host or the peer waits while the package is frozen (20 R471; log 53); that x registers and the pc are other state, which a
running package does not show, is log 53; reset leaves everything at its reset value but memory, which the
model keeps (log 3). Every 10 microseconds the controller compares the power with LIMIT: above it the next measure of the
lowest stage takes effect, stage 1 on every die before stage 2, which is the model's reading (log 37), and after 100 microseconds at 95% or less the last one is withdrawn. Quota periods refill balances,
TICK counts periods, and the bucket fills. -/
def Obligations.Registers : Prop := ∀ (s : State) (m : Master) (d : Nat) (v : Word),
  let p := s.pkg
  let x := s.die d
  let b := fun (lo n : Nat) => v.toNat / 2 ^ lo % 2 ^ n
  let die := fun (i : Instr) (f : Die → Die) => exec i s = .next (s.modDie d f)
  let pkg := fun (o : Nat) (f : Package) => exec (.registerWrite m o v) s = .next { s with pkg := f }
  (p.frozen = false → owns s m →
    die (.leasebudWrite m d v) (fun x => { x with leaseCap := min 12 (b 0 4) }) ∧
    die (.bankpwrWrite m d v) (fun x => { x with
      regime := v.getLsbD 63, refill := b 32 16, bucketCap := b 16 16, banks := max 16 (b 0 11 / 16 * 16), bucket := b 16 16, refilled := s.now }) ∧
    die (.pwrdieForce m d v) (fun x => { x with force := b 0 5 }) ∧
    die (.ecccntClr m d) (fun x => { x with cistce := 0, memce := 0 }) ∧
    (d < 16 → die (.registerWrite m (0x2000 + 256 * d) v) (fun x => { x with leaseCap := min 12 (b 0 4) }) ∧
      die (.registerWrite m (0x2010 + 256 * d) v) (fun x => { x with fabThresh := b 0 7 })) ∧
    ((∀ q, q ∈ s.queues → q.st = .disabled) → pkg 0 { p with qtbase := b 16 36 * 2 ^ 16 }) ∧
    ((∃ q, q ∈ s.queues ∧ q.st ≠ .disabled) → pkg 0 p) ∧
    pkg 8 { p with measureOn := v.getLsbD 1, reqsig := v.getLsbD 0 } ∧
    pkg 0x1000 { p with pwrlim := max 1200 (min 3000 (b 0 12)) } ∧ pkg 0x1010 { p with tickNext := max 1 (b 0 16) } ∧
    pkg 0x1008 p ∧ pkg 0x1020 p) ∧
  (p.frozen = false → p.owner ≠ some m → carried s m → drops m (.leasebudWrite m d v) s ∧ drops m (.bankpwrWrite m d v) s ∧
    drops m (.pwrdieForce m d v) s ∧ drops m (.ecccntClr m d) s ∧ drops m (.registerWrite m 0 v) s ∧
    drops m (.registerWrite m 0x1000 v) s) ∧
  (carried s m → ∀ o, 0x4000 ≤ o → pkg o p) ∧
  (let reads := fun (o : Nat) (r : Word) =>
      let r := { s with pkg := { p with replyOk := true, regReply := r } }
      exec (.debugAccess (.readReg .debug o)) s = .next r ∧ (carried s m → exec (.debugAccess (.readReg m o)) s = .next r) ∧
        (p.frozen = true → m = .host ∨ m = .peer → exec (.debugAccess (.readReg m o)) s = .next s);
    reads 0x1000 (BitVec.ofNat 64 p.pwrlim) ∧ reads 0x1010 (BitVec.ofNat 64 p.tickNext) ∧
    (d < 16 → reads (0x2020 + 256 * d) x.lanemap ∧ reads (0x2028 + 256 * d) (BitVec.ofNat 64 (x.cistce * 2 ^ 32 + x.memce * 2)) ∧
      reads (0x2000 + 256 * d) (BitVec.ofNat 64 (x.budget * 16 + x.leaseCap)) ∧
      reads (0x2010 + 256 * d) (BitVec.ofNat 64 (x.fabLast * 2 ^ 16 + x.fabThresh))) ∧
    ∀ n r, exec (.debugAccess (.readX n r)) s = .next { s with pkg := (if p.frozen
      then { p with replyOk := true, regReply := (s.seq n).getX r } else { p with replyOk := false, reply := [] }) } ∧
      exec (.debugAccess (.readPc n)) s = .next { s with pkg := (if p.frozen
        then { p with replyOk := true, reply := [], regReply := (s.seq n).pc } else { p with replyOk := false, reply := [] }) } ∧
      exec (.debugAccess (.readCreg n .vtype)) s = .next { s with pkg := (if p.frozen
        then { p with replyOk := true, reply := [], regReply := (s.seq n).vtype } else { p with replyOk := false, reply := [] }) }) ∧
  (∃ t, exec .reset s = .next t ∧ t.mem = s.mem ∧ t.pkg = { Package.reset with pin := p.pin } ∧ t.now = 0 ∧
    (∀ n, t.seq n = Seq.reset) ∧ (∀ k, t.queue k = Queue.reset k) ∧ t.dies = State.reset.dies ∧
    (∀ k, (t.link k).st = .down) ∧ t.ctxs = [] ∧ t.kernels = [] ∧ t.bars = []) ∧
  (p.frozen = false →
    (∀ n, exec (.fabmonWindow d n) s = .next (s.modDie d fun x => { x with fabLast := min 100 n })) ∧
    (d < 16 → x.refilled < s.now → exec (.bucketRefill d) s = .next (s.modDie d fun x =>
      { x with bucket := min x.bucketCap (x.bucket + (s.now - x.refilled) * min x.refill x.erefill), refilled := s.now })) ∧
    (s.sumps = [] → p.tickDue ≤ s.now → exec .tickPeriod s = .next { s with pkg := { p with 
        tick := p.tick + 1, tickPeriod := p.tickNext, tickDue := p.tickDue + p.tickNext } }) ∧
    (p.quotaDue ≤ s.now → ∃ t, exec .quotaPeriod s = .next t ∧ t.mem = s.mem ∧ t.pkg.quotaDue = p.quotaDue + 100000 ∧
      ∀ c, let y := s.ctx c;
        (t.ctx c).limit = y.limit ∧
          (t.ctx c).balance = if y.limit = 0 then y.balance else min (y.limit * 1000 : Nat) (y.balance + (y.limit * 1000 : Nat))) ∧
    ∀ w bank, p.lastCompare + 100 ≤ s.now → ∃ t, exec (.powerComparison w bank) s = .next t ∧ t.mem = s.mem ∧
      t.pkg.power = min 4095 w ∧ t.pkg.lastCompare = s.now ∧
      (w ≤ p.pwrlim → w ≤ 4095 → 95 * p.pwrlim < 100 * w → t.pkg.measures = p.measures) ∧
      (p.pwrlim < w → (∃ e, e < 16 ∧ (s.die e).half = false) → ∃ e, e < 16 ∧ (s.die e).half = false ∧
        (t.die e).half = true ∧ t.pkg.measures = ⟨1, e, 0⟩ :: p.measures ∧
        ∀ f, f < 16 → (s.die f).half = false → (bank[f]?).getD 0 ≤ (bank[e]?).getD 0) ∧
      (∀ since k r, p.belowSince = some since → w * 100 ≤ 95 * p.pwrlim → w ≤ 4095 → 10000 ≤ s.now - since →
        p.measures = k :: r → t.pkg.measures = r))

/-! ## Links, and what acts from outside -/

namespace Sys2Proof.Claim

/-- Link k has become l; the count of messages on vector 0 has risen when its state has changed (20 R472); nothing else has
changed. -/
def linkTo (s t : State) (k : Nat) (l : Link) : Prop :=
  t.link k = l ∧ (∀ j, j ≠ k → t.link j = s.link j) ∧ { t with links := s.links, pkg := s.pkg } = s ∧
    t.pkg = { s.pkg with msix := if (s.link k).st = l.st then s.pkg.msix else s.pkg.msix.set 0 (s.pkg.msix[0] + 1) }

/-- i is performed, and of the machine only link k changes, to l. -/
def links (i : Instr) (s : State) (k : Nat) (l : Link) : Prop := ∃ t, exec i s = .next t ∧ linkTo s t k l

/-- Data lanes of link k (20 R469). -/
def full (k : Nat) : Nat := if k < 24 then 512 else if k = 24 then 16 else 8

/-- Spare lanes of link k (20 R469). -/
def spares (k : Nat) : Nat := if k < 24 then 16 else 0

/-- Flit n of a class can arrive (20 R468): the replay buffer holds it, or it is the next one, with a credit and a place there. -/
def sendable (x : LinkClass) (n : Nat) : Prop := n ∈ x.buf ∨ (n = x.next ∧ x.buf.length < 256 ∧ 0 < x.credits)

/-- The class after the sender's part in the arrival of flit n. -/
def sentOnce (x : LinkClass) (n : Nat) : LinkClass :=
  if n ∈ x.buf then x else { x with next := (x.next + 1) % 1024, buf := x.buf ++ [n], credits := x.credits - 1 }

/-- An answer to a read from outside. -/
def answers (i : Instr) (s : State) (ok : Bool) (bs : List Byte) : Prop :=
  exec i s = .next { s with pkg := { s.pkg with replyOk := ok, reply := bs } }

end Sys2Proof.Claim

/-- O58. Links (20 R466 to R470, R478). A link that is DOWN after reset trains; an attempt in which all lanes pass makes it UP, also
one in which spares make up for data lanes that fail (log 51), with half of them DEGRADED, and the third that finds fewer makes it
DOWN. A failed lane of an UP link takes a spare, or half of the width, or the link; one of a DEGRADED link leaves it so, or takes the
link. A flit that is bad, or not the one expected, changes nothing but the counts and the discarding; the expected one is accepted,
which frees its place in the replay buffer and returns a credit (log 78); the sixteenth replay of one flit makes the link train. A
change of a link's state sends a message on vector 0 (20 R472; log 52). Traffic without a way halts its context, or is
counted. RETRAIN and CLR are the owner's. -/
def Obligations.Links : Prop := ∀ (s : State) (k : Nat) (m : Master),
  let l := s.link k
  k < 37 → s.pkg.frozen = false →
    (l.st = .down → l.attempts = 0 → ∀ n, links (.linkTraining k n) s k { l with st := .training, attempts := 1 }) ∧
    (l.st = .training → ∀ n, let m := min n (full k + spares k)
      (full k ≤ n → links (.linkTraining k n) s k { l with st := .up, lanes := m, width := full k, spares := m - full k }) ∧
      (n < full k → full k / 2 ≤ n →
        links (.linkTraining k n) s k { l with st := .degraded, lanes := n, width := full k / 2, spares := 0 }) ∧
      (n < full k / 2 → (l.attempts < 3 → links (.linkTraining k n) s k { l with attempts := l.attempts + 1 }) ∧
        (3 ≤ l.attempts → links (.linkTraining k n) s k { l with st := .down, width := 0, attempts := 3 }))) ∧
    (l.st = .up → let n := l.lanes - 1;
      (full k ≤ n → links (.laneFailure k) s k
        { l with lanes := n, width := full k, spares := n - full k, retry := min 4095 (l.retry + 1) }) ∧
      (n < full k → full k / 2 ≤ n → links (.laneFailure k) s k
        { l with st := .degraded, lanes := n, width := full k / 2, spares := 0, retry := min 4095 (l.retry + 1) }) ∧
      (n < full k / 2 → links (.laneFailure k) s k { l with st := .down, width := 0, attempts := 3, lanes := n })) ∧
    (l.st = .degraded → let n := l.lanes - 1;
      (full k / 2 ≤ n → links (.laneFailure k) s k { l with lanes := n, retry := min 4095 (l.retry + 1) }) ∧
      (n < full k / 2 → links (.laneFailure k) s k { l with st := .down, width := 0, attempts := 3, lanes := n })) ∧
    (l.st = .up ∨ l.st = .degraded → ∀ c : Fin 2, let x := l.cls[c];
      (∀ n, sendable x n → ∃ t, exec (.flitReceive k c.val n false) s = .next t ∧ (t.link k).crcErr = min 4095 (l.crcErr + 1) ∧
        (t.link k).cls[c] = { (sentOnce x n) with discarding := true } ∧ (t.link k).st = l.st) ∧
      (sendable x x.expect → x.discarding = false → let y := sentOnce x x.expect
        ∃ t, exec (.flitReceive k c.val x.expect true) s = .next t ∧ (t.link k).cls[c] = { y with
          expect := (x.expect + 1) % 1024, replays := 0, buf := y.buf.filter (· != x.expect), credits := y.credits + 1 } ∧
        (t.link k).crcErr = l.crcErr ∧ (t.link k).st = l.st) ∧
      (∀ n, sendable x n → n ≠ x.expect ∨ x.discarding = true → ∃ t, exec (.flitReceive k c.val n true) s = .next t ∧
        (t.link k).cls[c] = sentOnce x n ∧ (t.link k).crcErr = l.crcErr ∧ (t.link k).st = l.st) ∧
      (∀ n ok, ¬sendable x n → exec (.flitReceive k c.val n ok) s = .next s) ∧
      (x.discarding = true → x.replays < 15 → ∃ t, exec (.flitReplay k c.val) s = .next t ∧
        (t.link k).cls[c] = { x with discarding := false, replays := x.replays + 1 } ∧ (t.link k).retry = min 4095 (l.retry + 1) ∧
        (t.link k).st = l.st) ∧
      (x.discarding = true → 15 ≤ x.replays → ∃ t, exec (.flitReplay k c.val) s = .next t ∧ (t.link k).st = .training ∧
        (t.link k).attempts = 1)) ∧
    (24 ≤ k → l.st = .down → ∀ addr, (∃ t, exec (.routeFailure 0 k none addr false) s = .next t ∧
        linkTo s t k { l with drop := min 255 (l.drop + 1) }) ∧
      ∀ c, (s.ctxs.any fun x => x.id == c) = true → (s.ctx c).st = .active → ∃ t,
        exec (.routeFailure 0 k (some c) addr false) s = .next t ∧ (t.ctx c).st = .halted ∧
          (t.ctx c).halt = ⟨0x10, BitVec.ofNat 64 addr, 1⟩) ∧
    (owns s m → links (.linkstatClr m k) s k { l with retry := 0, crcErr := 0, drop := 0 } ∧
      (l.st = .up ∨ l.st = .degraded ∨ l.st = .down → links (.retrain m k) s k { l with st := .training, attempts := 1 }) ∧
      (l.st = .training ∨ l.st = .frozen → exec (.retrain m k) s = .next s)) ∧
    (s.pkg.owner ≠ some m → carried s m → drops m (.linkstatClr m k) s ∧ drops m (.retrain m k) s)

/-- O59. The host, the peers, the firmware and the responder (16 R420 to R422; 17 R438; 20 R473 to R483). A host read
answers the bytes at the decoded address, outside every window zeros with KIND 2 in HOSTERR; a host write stores; without a
decoder, which is answered as an error (log 52), or with the port DOWN nothing is reached. A peer's request inside the port's window is performed, another is refused
and counted. A firmware update that fails a check leaves its result; an accepted one goes through its phases, and the die
has the versions of the image; it then begins an exchange with every other die, and a die that takes a message uses the version that
the range in it gives, and answers one that begins an exchange or is in a version that it does not have. A measurement request is
answered with M, the dies' versions and a signature; what the answer holds, and the answer 1 to an enrolment by another than the owner,
is the model's choice (log 39). -/
def Obligations.OutsideRequests : Prop := ∀ (s : State) (m : Master) (d port a n key : Nat) (bs : List Byte) (v : Word),
  let p := s.pkg
  p.frozen = false →
    (carried s .host → ∀ dec b, exec (.hdmDecoderProgram dec b) s = .next { s with pkg := { p with hdm := p.hdm.setIfInBounds dec (some b) } }) ∧
    (owns s m → exec (.hosterrClear m) s = .next { s with pkg := { p with hostErrV := false } }) ∧
    (p.owner ≠ some m → carried s m → drops m (.hosterrClear m) s ∧ drops m (.firmwareUpdate m v) s) ∧
    (∀ acc, (s.link 24).st = .down → ∃ t, exec (.hostMemAccess a acc) s = .next t ∧ t.mem = s.mem ∧ t.pkg.replyOk = false ∧
      (t.link 24).drop = min 255 ((s.link 24).drop + 1)) ∧
    ((s.link 24).st = .up ∨ (s.link 24).st = .degraded →
      (p.hdm[0] = none → p.hdm[1] = none → p.hdm[2] = none → ∀ acc, answers (.hostMemAccess a acc) s false []) ∧
      ∀ b0, p.hdm[0] = some b0 → b0 ≤ a → a + n ≤ b0 + mainSize → 0 < n → s.soft = [] →
        answers (.hostMemAccess a (.read n)) s true (s.mem.read (a - b0) n) ∧
        (bs.length = n → noGroup s → ∃ t, exec (.hostMemAccess a (.write bs)) s = .next t ∧
          (∀ k, (h : k < bs.length) → t.mem.get (a - b0 + k) = bs[k]) ∧
          ∀ x, (x < a - b0 ∨ a - b0 + n ≤ x) → t.mem.get x = s.mem.get x)) ∧
    ((s.link 24).st = .up → p.hdm[0] = none → p.hdm[1] = none → ∀ b2, p.hdm[2] = some b2 → b2 ≤ a →
      a + n ≤ b2 + cistSize → 0 < n → s.seqs = [] → ∃ t, exec (.hostMemAccess a (.read n)) s = .next t ∧ t.mem = s.mem ∧
        t.pkg.replyOk = true ∧ t.pkg.reply = List.replicate n 0 ∧
        t.pkg.hostErrV = true ∧ t.pkg.hostErr = if p.hostErrV = true then p.hostErr else (2, 0xF000000000000 + (a - b2))) ∧
    (port < 12 → (s.link (25 + port)).st = .up ∨ (s.link (25 + port)).st = .degraded → s.soft = [] →
      let w := (p.peerWin.toList[port]?).getD ⟨false, 0, 0⟩
      let inside := fun (n : Nat) => 0 < n ∧ w.en = true ∧ w.base ≤ key ∧ key + n ≤ w.base + w.size * 2 ^ 30 ∧ key + n ≤ mainSize
      (w.en = false → ∀ req, ∃ t, exec (.peerRequest port key req) s = .next t ∧ t.mem = s.mem ∧ t.pkg.replyOk = false ∧
        (t.link (25 + port)).drop = min 255 ((s.link (25 + port)).drop + 1)) ∧
      (inside n → answers (.peerRequest port key (.read n)) s true (s.mem.read key n)) ∧
      (inside bs.length → noGroup s → ∃ t, exec (.peerRequest port key (.write bs)) s = .next t ∧ t.pkg.replyOk = true ∧
        ∀ x, t.mem.get x = if h : key ≤ x ∧ x < key + bs.length then bs[x - key] else s.mem.get x) ∧
      (∀ e, inside 8 → noGroup s → ∃ t, exec (.peerRequest port key (.phaseAdd e)) s = .next t ∧ t.pkg.replyOk = true ∧
        t.mem.num key 8 = (s.mem.num key 8 + e.toNat) % 2 ^ 64 ∧
        ∀ x, (x < key ∨ key + 8 ≤ x) → t.mem.get x = s.mem.get x)) ∧
    (let img := v.toNat / 2 ^ 12 % 2 ^ 40 * 4096;
      let e := v.toNat / 2 ^ 8 % 16
      let r := firmwareCheck s e img
      owns s m → ∃ t, exec (.firmwareUpdate m v) s = .next t ∧ t.mem = s.mem ∧ t.pkg = { p with fwImage := img, fwDie := e } ∧
        (v.getLsbD 0 = false → t.dies = s.dies) ∧
        (v.getLsbD 0 = true → r.1 ≠ 0 → (t.die e).fw = { (s.die e).fw with result := r.1 }) ∧
        (v.getLsbD 0 = true → r.1 = 0 → (t.die e).fw = { (s.die e).fw with phase := 1, result := 0, next := some r.2 })) ∧
    (d < 16 → let f := (s.die d).fw;
      (f.phase = 0 → exec (.firmwareRestart d) s = .next s) ∧
      (f.phase = 1 → (∀ x, x ∈ s.queues → x.active = false ∧ ∀ y, y ∈ x.started → y.finished = false) →
        exec (.firmwareRestart d) s = .next (s.modDie d fun x => { x with fw := { f with phase := 2 } })) ∧
      (∀ pmax pmin ver, f.phase = 2 → f.next = some (pmax, pmin, ver) → exec (.firmwareRestart d) s =
        .next (s.modDie d fun x => { x with fw :=
          { f with phase := 3, pmax := pmax, pmin := pmin, imgver := ver, next := none } })) ∧
      (f.phase = 3 → ∃ t, exec (.firmwareRestart d) s = .next t ∧ t.mem = s.mem ∧ (t.die d).fw = { f with phase := 0 } ∧
        ∀ e : Fin 16, e.val ≠ d → (t.die e.val).fw = (s.die e.val).fw ∧ (t.die e.val).events = (s.die e.val).events ++
          [.mailbox d (max f.pmin (min f.pmax f.peers[e])) (some (f.pmin, f.pmax)) true]) ∧
      ∀ (e : Fin 16) (version lo hi : Nat) (ask : Bool), e.val ≠ d → f.phase = 0 → cobblersBusy s d < 12 →
        (s.die d).events = [.mailbox e.val version (some (lo, hi)) ask] → ∃ t, exec (.eventTake d) s = .next t ∧ t.mem = s.mem ∧
          (t.die d).events = [] ∧ (t.die d).fw.peers[e] = min f.pmax hi ∧
          (∀ x : Fin 16, x ≠ e → (t.die d).fw.peers[x] = f.peers[x]) ∧ (t.die e.val).events = (s.die e.val).events ++
            if ask = true ∨ version < f.pmin ∨ f.pmax < version then [.mailbox d version (some (f.pmin, f.pmax)) false] else []) ∧
    (∀ nonce, ∃ t, exec (.spdmRequest (.measure nonce)) s = .next t ∧ { t with pkg := p } = s ∧
      ∃ sig : Nat × Nat, t.pkg.spdm = p.measurement :: (s.dies.toList.map fun d => d.fw.imgver) ++ [sig.1, sig.2]) ∧
    ∀ k : BitVec 2, ∀ x y : Nat,
      (p.owner ≠ some m → exec (.spdmRequest (.enrol m k x y)) s = .next { s with pkg := { p with spdm := [1] } }) ∧
      (p.owner = some m → onCurve x y = true → ∃ t, exec (.spdmRequest (.enrol m k x y)) s = .next t ∧
        (t.pkg.custKeys.find? fun e => e.1 == k.toNat) = some (k.toNat, x, y) ∧ { t with pkg := p } = s)

/-- O60. The ownership and freeze events complete (21 R485, R506 to R508). A claim without an owner makes its master the
owner; the owner's handover, release, freeze and thaw requests and the pin have their effects; an owner that has been silent
for 100 ms, and a handover that has not been taken for 100 ms, end; a freeze that has been asked for takes effect once a
boundary of 64 reference cycles has passed, and its end once no cause of it is left. Nothing but the package's registers
changes, and the links at a freeze, each of which sends a message on vector 0 when its state changes (20 R472; log 52). -/
def Obligations.OwnershipCompletes : Prop := ∀ (s : State) (m succ : Master) (nonce : BitVec 16) (b : Bool),
  let p := s.pkg
  let changed := fun (f : Nat → Bool) => p.msix.set 0 (p.msix[0] + (List.range 37).countP f)
  (p.owner = none → carried s m → inOrder s m → ∃ t, exec (.ownClaim m nonce) s = .next t ∧ t.pkg.owner = some m ∧ t.pkg.nonce = nonce ∧
    t.pkg.heard = s.now ∧ { t with pkg := p } = s) ∧
  (owns s m → inOrder s m → nonce = p.nonce →
    (∃ t, exec (.ownHandover m succ nonce) s = .next t ∧ t.pkg.owner = some m ∧ t.pkg.pendSucc = some succ ∧
      t.pkg.pendSince = s.now ∧ { t with pkg := p } = s) ∧
    ∃ t, exec (.ownRelease m nonce) s = .next t ∧ t.pkg.owner = none ∧ t.pkg.pendSucc = none ∧ { t with pkg := p } = s) ∧
  (p.frozen = false → p.owner.isSome = true → 10000000 ≤ s.now - p.heard →
    ∃ t, exec .ownHeartbeatTimeout s = .next t ∧ t.pkg.owner = none ∧ t.pkg.pendSucc = none ∧ { t with pkg := p } = s) ∧
  (p.frozen = false → p.owner.isSome = true → s.now - p.heard < 10000000 → p.pendSucc.isSome = true →
    10000000 ≤ s.now - p.pendSince → ∃ t, exec .ownHandoverTimeout s = .next t ∧ t.pkg.owner = p.owner ∧
      t.pkg.pendSucc = none ∧ { t with pkg := p } = s) ∧
  (owns s m →
    (∃ t, exec (.freezeRequest m) s = .next t ∧ t.pkg.cmdFreeze = true ∧ t.pkg.pin = p.pin ∧ t.pkg.frozen = p.frozen ∧
      { t with pkg := p } = s) ∧
    ∃ t, exec (.thawRequest m) s = .next t ∧ t.pkg.cmdFreeze = false ∧ t.pkg.pin = p.pin ∧ t.pkg.frozen = p.frozen ∧
      { t with pkg := p } = s) ∧
  (∃ t, exec (.frzPin b) s = .next t ∧ t.pkg.pin = b ∧ t.pkg.cmdFreeze = p.cmdFreeze ∧ t.pkg.frozen = p.frozen ∧
    { t with pkg := p } = s) ∧
  (p.pin = true ∨ p.cmdFreeze = true → p.frozen = false → (p.frzAsked / 64 + 1) * 64 ≤ s.now →
    ∃ t, exec .freezeTakeEffect s = .next t ∧ t.pkg = { p with frozen := true, msix := changed fun k =>
      (s.link k).st == .up || (s.link k).st == .degraded || (s.link k).st == .training } ∧ { t with pkg := p, links := s.links } = s) ∧
  (p.pin = false → p.cmdFreeze = false → p.frozen = true →
    ∃ t, exec .freezeTakeEffect s = .next t ∧ t.pkg = { p with frozen := false, msix := changed fun k =>
      (s.link k).st == .frozen && (s.link k).before != .frozen } ∧ { t with pkg := p, links := s.links } = s)
end

