-- ==== Sys2Proof/Laws/Exec.lean ====
section
/-!
SUPPORT. What `exec` calls, one lemma per constructor of Instr: later proofs rewrite with these and never unfold the
dispatch.
-/
namespace Sys2Proof.Machine

@[simp] theorem exec_add (rd ra rb : Reg) (s : State) :
    exec (.add rd ra rb) s = Sys2Proof.Machine.execAdd rd ra rb s := rfl
@[simp] theorem exec_sub (rd ra rb : Reg) (s : State) :
    exec (.sub rd ra rb) s = Sys2Proof.Machine.execSub rd ra rb s := rfl
@[simp] theorem exec_mul (rd ra rb : Reg) (s : State) :
    exec (.mul rd ra rb) s = Sys2Proof.Machine.execMul rd ra rb s := rfl
@[simp] theorem exec_mulh (rd ra rb : Reg) (s : State) :
    exec (.mulh rd ra rb) s = Sys2Proof.Machine.execMulh rd ra rb s := rfl
@[simp] theorem exec_mulhu (rd ra rb : Reg) (s : State) :
    exec (.mulhu rd ra rb) s = Sys2Proof.Machine.execMulhu rd ra rb s := rfl
@[simp] theorem exec_div (rd ra rb : Reg) (s : State) :
    exec (.div rd ra rb) s = Sys2Proof.Machine.execDiv rd ra rb s := rfl
@[simp] theorem exec_divu (rd ra rb : Reg) (s : State) :
    exec (.divu rd ra rb) s = Sys2Proof.Machine.execDivu rd ra rb s := rfl
@[simp] theorem exec_rem (rd ra rb : Reg) (s : State) :
    exec (.rem rd ra rb) s = Sys2Proof.Machine.execRem rd ra rb s := rfl
@[simp] theorem exec_remu (rd ra rb : Reg) (s : State) :
    exec (.remu rd ra rb) s = Sys2Proof.Machine.execRemu rd ra rb s := rfl
@[simp] theorem exec_and (rd ra rb : Reg) (s : State) :
    exec (.and rd ra rb) s = Sys2Proof.Machine.execAnd rd ra rb s := rfl
@[simp] theorem exec_or (rd ra rb : Reg) (s : State) :
    exec (.or rd ra rb) s = Sys2Proof.Machine.execOr rd ra rb s := rfl
@[simp] theorem exec_xor (rd ra rb : Reg) (s : State) :
    exec (.xor rd ra rb) s = Sys2Proof.Machine.execXor rd ra rb s := rfl
@[simp] theorem exec_andn (rd ra rb : Reg) (s : State) :
    exec (.andn rd ra rb) s = Sys2Proof.Machine.execAndn rd ra rb s := rfl
@[simp] theorem exec_sll (rd ra rb : Reg) (s : State) :
    exec (.sll rd ra rb) s = Sys2Proof.Machine.execSll rd ra rb s := rfl
@[simp] theorem exec_srl (rd ra rb : Reg) (s : State) :
    exec (.srl rd ra rb) s = Sys2Proof.Machine.execSrl rd ra rb s := rfl
@[simp] theorem exec_sra (rd ra rb : Reg) (s : State) :
    exec (.sra rd ra rb) s = Sys2Proof.Machine.execSra rd ra rb s := rfl
@[simp] theorem exec_slt (rd ra rb : Reg) (s : State) :
    exec (.slt rd ra rb) s = Sys2Proof.Machine.execSlt rd ra rb s := rfl
@[simp] theorem exec_sltu (rd ra rb : Reg) (s : State) :
    exec (.sltu rd ra rb) s = Sys2Proof.Machine.execSltu rd ra rb s := rfl
@[simp] theorem exec_min (rd ra rb : Reg) (s : State) :
    exec (.min rd ra rb) s = Sys2Proof.Machine.execMin rd ra rb s := rfl
@[simp] theorem exec_max (rd ra rb : Reg) (s : State) :
    exec (.max rd ra rb) s = Sys2Proof.Machine.execMax rd ra rb s := rfl
@[simp] theorem exec_minu (rd ra rb : Reg) (s : State) :
    exec (.minu rd ra rb) s = Sys2Proof.Machine.execMinu rd ra rb s := rfl
@[simp] theorem exec_maxu (rd ra rb : Reg) (s : State) :
    exec (.maxu rd ra rb) s = Sys2Proof.Machine.execMaxu rd ra rb s := rfl
@[simp] theorem exec_clz (rd ra : Reg) (s : State) :
    exec (.clz rd ra) s = Sys2Proof.Machine.execClz rd ra s := rfl
@[simp] theorem exec_ctz (rd ra : Reg) (s : State) :
    exec (.ctz rd ra) s = Sys2Proof.Machine.execCtz rd ra s := rfl
@[simp] theorem exec_popc (rd ra : Reg) (s : State) :
    exec (.popc rd ra) s = Sys2Proof.Machine.execPopc rd ra s := rfl
@[simp] theorem exec_addi (rd ra : Reg) (imm : BitVec 15) (s : State) :
    exec (.addi rd ra imm) s = Sys2Proof.Machine.execAddi rd ra imm s := rfl
@[simp] theorem exec_andi (rd ra : Reg) (imm : BitVec 15) (s : State) :
    exec (.andi rd ra imm) s = Sys2Proof.Machine.execAndi rd ra imm s := rfl
@[simp] theorem exec_ori (rd ra : Reg) (imm : BitVec 15) (s : State) :
    exec (.ori rd ra imm) s = Sys2Proof.Machine.execOri rd ra imm s := rfl
@[simp] theorem exec_xori (rd ra : Reg) (imm : BitVec 15) (s : State) :
    exec (.xori rd ra imm) s = Sys2Proof.Machine.execXori rd ra imm s := rfl
@[simp] theorem exec_slti (rd ra : Reg) (imm : BitVec 15) (s : State) :
    exec (.slti rd ra imm) s = Sys2Proof.Machine.execSlti rd ra imm s := rfl
@[simp] theorem exec_slli (rd ra : Reg) (sh : BitVec 6) (s : State) :
    exec (.slli rd ra sh) s = Sys2Proof.Machine.execSlli rd ra sh s := rfl
@[simp] theorem exec_srli (rd ra : Reg) (sh : BitVec 6) (s : State) :
    exec (.srli rd ra sh) s = Sys2Proof.Machine.execSrli rd ra sh s := rfl
@[simp] theorem exec_srai (rd ra : Reg) (sh : BitVec 6) (s : State) :
    exec (.srai rd ra sh) s = Sys2Proof.Machine.execSrai rd ra sh s := rfl
@[simp] theorem exec_liShort (rd : Reg) (imm : BitVec 20) (s : State) :
    exec (.liShort rd imm) s = Sys2Proof.Machine.execLiShort rd imm s := rfl
@[simp] theorem exec_liLong (rd : Reg) (imm : BitVec 32) (s : State) :
    exec (.liLong rd imm) s = Sys2Proof.Machine.execLiLong rd imm s := rfl
@[simp] theorem exec_liHi (rd : Reg) (imm : BitVec 32) (s : State) :
    exec (.liHi rd imm) s = Sys2Proof.Machine.execLiHi rd imm s := rfl
@[simp] theorem exec_ld (rd ra : Reg) (imm : BitVec 15) (s : State) :
    exec (.ld rd ra imm) s = Sys2Proof.Machine.execLd rd ra imm s := rfl
@[simp] theorem exec_st (rs ra : Reg) (imm : BitVec 15) (s : State) :
    exec (.st rs ra imm) s = Sys2Proof.Machine.execSt rs ra imm s := rfl
@[simp] theorem exec_ldfe (rd ra : Reg) (imm : BitVec 15) (s : State) :
    exec (.ldfe rd ra imm) s = Sys2Proof.Machine.execLdfe rd ra imm s := rfl
@[simp] theorem exec_amo (op : AmoOp) (ord : Ord) (w : Bool) (rd rb ra : Reg) (s : State) :
    exec (.amo op ord w rd rb ra) s = Sys2Proof.Machine.execAmo op ord w rd rb ra s := rfl
@[simp] theorem exec_amocas (ord : Ord) (w : Bool) (rd rb ra : Reg) (s : State) :
    exec (.amocas ord w rd rb ra) s = Sys2Proof.Machine.execAmocas ord w rd rb ra s := rfl
@[simp] theorem exec_fadd (t : FType) (rd ra rb : Reg) (s : State) :
    exec (.fadd t rd ra rb) s = Sys2Proof.Machine.execFadd t rd ra rb s := rfl
@[simp] theorem exec_fsub (t : FType) (rd ra rb : Reg) (s : State) :
    exec (.fsub t rd ra rb) s = Sys2Proof.Machine.execFsub t rd ra rb s := rfl
@[simp] theorem exec_fmul (t : FType) (rd ra rb : Reg) (s : State) :
    exec (.fmul t rd ra rb) s = Sys2Proof.Machine.execFmul t rd ra rb s := rfl
@[simp] theorem exec_ffma (t : FType) (rd ra rb : Reg) (s : State) :
    exec (.ffma t rd ra rb) s = Sys2Proof.Machine.execFfma t rd ra rb s := rfl
@[simp] theorem exec_fdiv (t : FType) (rd ra rb : Reg) (s : State) :
    exec (.fdiv t rd ra rb) s = Sys2Proof.Machine.execFdiv t rd ra rb s := rfl
@[simp] theorem exec_fsqrt (t : FType) (rd ra : Reg) (s : State) :
    exec (.fsqrt t rd ra) s = Sys2Proof.Machine.execFsqrt t rd ra s := rfl
@[simp] theorem exec_fmin (t : FType) (rd ra rb : Reg) (s : State) :
    exec (.fmin t rd ra rb) s = Sys2Proof.Machine.execFmin t rd ra rb s := rfl
@[simp] theorem exec_fmax (t : FType) (rd ra rb : Reg) (s : State) :
    exec (.fmax t rd ra rb) s = Sys2Proof.Machine.execFmax t rd ra rb s := rfl
@[simp] theorem exec_fcmp (c : FCond) (t : FType) (rd ra rb : Reg) (s : State) :
    exec (.fcmp c t rd ra rb) s = Sys2Proof.Machine.execFcmp c t rd ra rb s := rfl
@[simp] theorem exec_fcvt (dst src : CvtType) (rd ra : Reg) (s : State) :
    exec (.fcvt dst src rd ra) s = Sys2Proof.Machine.execFcvt dst src rd ra s := rfl
@[simp] theorem exec_beq (ra rb : Reg) (off : BitVec 15) (s : State) :
    exec (.beq ra rb off) s = Sys2Proof.Machine.execBeq ra rb off s := rfl
@[simp] theorem exec_bne (ra rb : Reg) (off : BitVec 15) (s : State) :
    exec (.bne ra rb off) s = Sys2Proof.Machine.execBne ra rb off s := rfl
@[simp] theorem exec_blt (ra rb : Reg) (off : BitVec 15) (s : State) :
    exec (.blt ra rb off) s = Sys2Proof.Machine.execBlt ra rb off s := rfl
@[simp] theorem exec_bge (ra rb : Reg) (off : BitVec 15) (s : State) :
    exec (.bge ra rb off) s = Sys2Proof.Machine.execBge ra rb off s := rfl
@[simp] theorem exec_bltu (ra rb : Reg) (off : BitVec 15) (s : State) :
    exec (.bltu ra rb off) s = Sys2Proof.Machine.execBltu ra rb off s := rfl
@[simp] theorem exec_bgeu (ra rb : Reg) (off : BitVec 15) (s : State) :
    exec (.bgeu ra rb off) s = Sys2Proof.Machine.execBgeu ra rb off s := rfl
@[simp] theorem exec_jal (rd : Reg) (off : BitVec 20) (s : State) :
    exec (.jal rd off) s = Sys2Proof.Machine.execJal rd off s := rfl
@[simp] theorem exec_jalr (rd ra : Reg) (imm : BitVec 15) (s : State) :
    exec (.jalr rd ra imm) s = Sys2Proof.Machine.execJalr rd ra imm s := rfl
@[simp] theorem exec_loop (ra : Reg) (off : BitVec 15) (s : State) :
    exec (.loop ra off) s = Sys2Proof.Machine.execLoop ra off s := rfl
@[simp] theorem exec_loopi (n : BitVec 10) (off : BitVec 15) (s : State) :
    exec (.loopi n off) s = Sys2Proof.Machine.execLoopi n off s := rfl
@[simp] theorem exec_hintNop (bits : BitVec 25) (s : State) :
    exec (.hintNop bits) s = Sys2Proof.Machine.execHintNop bits s := rfl
@[simp] theorem exec_fence (sc : Scope) (s : State) :
    exec (.fence sc) s = Sys2Proof.Machine.execFence sc s := rfl
@[simp] theorem exec_fencex (c1 c2 : PathClass) (s : State) :
    exec (.fencex c1 c2) s = Sys2Proof.Machine.execFencex c1 c2 s := rfl
@[simp] theorem exec_iflush (s : State) :
    exec (.iflush) s = Sys2Proof.Machine.execIflush s := rfl
@[simp] theorem exec_trap (k : BitVec 5) (s : State) :
    exec (.trap k) s = Sys2Proof.Machine.execTrap k s := rfl
@[simp] theorem exec_rett (s : State) :
    exec (.rett) s = Sys2Proof.Machine.execRett s := rfl
@[simp] theorem exec_bkpt (s : State) :
    exec (.bkpt) s = Sys2Proof.Machine.execBkpt s := rfl
@[simp] theorem exec_mon (ra : Reg) (s : State) :
    exec (.mon ra) s = Sys2Proof.Machine.execMon ra s := rfl
@[simp] theorem exec_mwait (rd ra : Reg) (s : State) :
    exec (.mwait rd ra) s = Sys2Proof.Machine.execMwait rd ra s := rfl
@[simp] theorem exec_tick (rd : Reg) (s : State) :
    exec (.tick rd) s = Sys2Proof.Machine.execTick rd s := rfl
@[simp] theorem exec_movcWrite (c : CReg) (ra : Reg) (s : State) :
    exec (.movcWrite c ra) s = Sys2Proof.Machine.execMovcWrite c ra s := rfl
@[simp] theorem exec_movcRead (rd : Reg) (c : CReg) (s : State) :
    exec (.movcRead rd c) s = Sys2Proof.Machine.execMovcRead rd c s := rfl
@[simp] theorem exec_movcw (rd : Reg) (c : CReg) (rb : Reg) (s : State) :
    exec (.movcw rd c rb) s = Sys2Proof.Machine.execMovcw rd c rb s := rfl
@[simp] theorem exec_setvl (rd ra : Reg) (s : State) :
    exec (.setvl rd ra) s = Sys2Proof.Machine.execSetvl rd ra s := rfl
@[simp] theorem exec_setvlc (rd ra rb : Reg) (s : State) :
    exec (.setvlc rd ra rb) s = Sys2Proof.Machine.execSetvlc rd ra rb s := rfl
@[simp] theorem exec_pubhw (ra rb : Reg) (s : State) :
    exec (.pubhw ra rb) s = Sys2Proof.Machine.execPubhw ra rb s := rfl
@[simp] theorem exec_ownq (rd ra : Reg) (s : State) :
    exec (.ownq rd ra) s = Sys2Proof.Machine.execOwnq rd ra s := rfl
@[simp] theorem exec_lix (rd : Reg) (k : BitVec 5) (s : State) :
    exec (.lix rd k) s = Sys2Proof.Machine.execLix rd k s := rfl
@[simp] theorem exec_lbrk (s : State) :
    exec (.lbrk) s = Sys2Proof.Machine.execLbrk s := rfl
@[simp] theorem exec_spawn (ra : Reg) (s : State) :
    exec (.spawn ra) s = Sys2Proof.Machine.execSpawn ra s := rfl
@[simp] theorem exec_join (ra : Reg) (s : State) :
    exec (.join ra) s = Sys2Proof.Machine.execJoin ra s := rfl
@[simp] theorem exec_exit (s : State) :
    exec (.exit) s = Sys2Proof.Machine.execExit s := rfl
@[simp] theorem exec_barcfg (sc : BScope) (ra rb : Reg) (s : State) :
    exec (.barcfg sc ra rb) s = Sys2Proof.Machine.execBarcfg sc ra rb s := rfl
@[simp] theorem exec_arrive (sc : BScope) (rd ra : Reg) (s : State) :
    exec (.arrive sc rd ra) s = Sys2Proof.Machine.execArrive sc rd ra s := rfl
@[simp] theorem exec_waitb (sc : BScope) (ra rb : Reg) (s : State) :
    exec (.waitb sc ra rb) s = Sys2Proof.Machine.execWaitb sc ra rb s := rfl
@[simp] theorem exec_arrwait (sc : BScope) (ra : Reg) (s : State) :
    exec (.arrwait sc ra) s = Sys2Proof.Machine.execArrwait sc ra s := rfl
@[simp] theorem exec_tlbinv (ra rb : Reg) (s : State) :
    exec (.tlbinv ra rb) s = Sys2Proof.Machine.execTlbinv ra rb s := rfl
@[simp] theorem exec_pgq (rd ra : Reg) (s : State) :
    exec (.pgq rd ra) s = Sys2Proof.Machine.execPgq rd ra s := rfl
@[simp] theorem exec_ctxld (ra : Reg) (s : State) :
    exec (.ctxld ra) s = Sys2Proof.Machine.execCtxld ra s := rfl
@[simp] theorem exec_ctxst (ra : Reg) (s : State) :
    exec (.ctxst ra) s = Sys2Proof.Machine.execCtxst ra s := rfl
@[simp] theorem exec_sumppop (rd : Reg) (s : State) :
    exec (.sumppop rd) s = Sys2Proof.Machine.execSumppop rd s := rfl
@[simp] theorem exec_lease (rd ra : Reg) (s : State) :
    exec (.lease rd ra) s = Sys2Proof.Machine.execLease rd ra s := rfl
@[simp] theorem exec_lfree (ra : Reg) (s : State) :
    exec (.lfree ra) s = Sys2Proof.Machine.execLfree ra s := rfl
@[simp] theorem exec_lstat (rd ra : Reg) (s : State) :
    exec (.lstat rd ra) s = Sys2Proof.Machine.execLstat rd ra s := rfl
@[simp] theorem exec_lwait (ra : Reg) (s : State) :
    exec (.lwait ra) s = Sys2Proof.Machine.execLwait ra s := rfl
@[simp] theorem exec_movtd (td : BitVec 4) (f : TdField) (ra : Reg) (s : State) :
    exec (.movtd td f ra) s = Sys2Proof.Machine.execMovtd td f ra s := rfl
@[simp] theorem exec_rdtd (rd : Reg) (td : BitVec 4) (f : TdField) (s : State) :
    exec (.rdtd rd td f) s = Sys2Proof.Machine.execRdtd rd td f s := rfl
@[simp] theorem exec_bindq (q : BitVec 2) (ra : Reg) (s : State) :
    exec (.bindq q ra) s = Sys2Proof.Machine.execBindq q ra s := rfl
@[simp] theorem exec_unbindq (q : BitVec 2) (s : State) :
    exec (.unbindq q) s = Sys2Proof.Machine.execUnbindq q s := rfl
@[simp] theorem exec_gbegin (ra : Reg) (s : State) :
    exec (.gbegin ra) s = Sys2Proof.Machine.execGbegin ra s := rfl
@[simp] theorem exec_gcommit (rd : Reg) (s : State) :
    exec (.gcommit rd) s = Sys2Proof.Machine.execGcommit rd s := rfl
@[simp] theorem exec_gabort (s : State) :
    exec (.gabort) s = Sys2Proof.Machine.execGabort s := rfl
@[simp] theorem exec_logmark (ra : Reg) (s : State) :
    exec (.logmark ra) s = Sys2Proof.Machine.execLogmark ra s := rfl
@[simp] theorem exec_cAddi (rd : Reg) (imm : BitVec 6) (s : State) :
    exec (.cAddi rd imm) s = Sys2Proof.Machine.execCAddi rd imm s := rfl
@[simp] theorem exec_cLi (rd : Reg) (imm : BitVec 6) (s : State) :
    exec (.cLi rd imm) s = Sys2Proof.Machine.execCLi rd imm s := rfl
@[simp] theorem exec_cSlli (rd : Reg) (sh : BitVec 6) (s : State) :
    exec (.cSlli rd sh) s = Sys2Proof.Machine.execCSlli rd sh s := rfl
@[simp] theorem exec_cSrli (rd : Reg) (sh : BitVec 6) (s : State) :
    exec (.cSrli rd sh) s = Sys2Proof.Machine.execCSrli rd sh s := rfl
@[simp] theorem exec_cSrai (rd : Reg) (sh : BitVec 6) (s : State) :
    exec (.cSrai rd sh) s = Sys2Proof.Machine.execCSrai rd sh s := rfl
@[simp] theorem exec_cLd (rd : Reg) (n : BitVec 6) (s : State) :
    exec (.cLd rd n) s = Sys2Proof.Machine.execCLd rd n s := rfl
@[simp] theorem exec_cSt (rd : Reg) (n : BitVec 6) (s : State) :
    exec (.cSt rd n) s = Sys2Proof.Machine.execCSt rd n s := rfl
@[simp] theorem exec_cAdd (rd ra : Reg) (s : State) :
    exec (.cAdd rd ra) s = Sys2Proof.Machine.execCAdd rd ra s := rfl
@[simp] theorem exec_cSub (rd ra : Reg) (s : State) :
    exec (.cSub rd ra) s = Sys2Proof.Machine.execCSub rd ra s := rfl
@[simp] theorem exec_cAnd (rd ra : Reg) (s : State) :
    exec (.cAnd rd ra) s = Sys2Proof.Machine.execCAnd rd ra s := rfl
@[simp] theorem exec_cOr (rd ra : Reg) (s : State) :
    exec (.cOr rd ra) s = Sys2Proof.Machine.execCOr rd ra s := rfl
@[simp] theorem exec_cXor (rd ra : Reg) (s : State) :
    exec (.cXor rd ra) s = Sys2Proof.Machine.execCXor rd ra s := rfl
@[simp] theorem exec_cSll (rd ra : Reg) (s : State) :
    exec (.cSll rd ra) s = Sys2Proof.Machine.execCSll rd ra s := rfl
@[simp] theorem exec_cSrl (rd ra : Reg) (s : State) :
    exec (.cSrl rd ra) s = Sys2Proof.Machine.execCSrl rd ra s := rfl
@[simp] theorem exec_cSra (rd ra : Reg) (s : State) :
    exec (.cSra rd ra) s = Sys2Proof.Machine.execCSra rd ra s := rfl
@[simp] theorem exec_cMul (rd ra : Reg) (s : State) :
    exec (.cMul rd ra) s = Sys2Proof.Machine.execCMul rd ra s := rfl
@[simp] theorem exec_cMin (rd ra : Reg) (s : State) :
    exec (.cMin rd ra) s = Sys2Proof.Machine.execCMin rd ra s := rfl
@[simp] theorem exec_cMax (rd ra : Reg) (s : State) :
    exec (.cMax rd ra) s = Sys2Proof.Machine.execCMax rd ra s := rfl
@[simp] theorem exec_cMv (rd ra : Reg) (s : State) :
    exec (.cMv rd ra) s = Sys2Proof.Machine.execCMv rd ra s := rfl
@[simp] theorem exec_cBeqz (ra : Reg) (off : BitVec 6) (s : State) :
    exec (.cBeqz ra off) s = Sys2Proof.Machine.execCBeqz ra off s := rfl
@[simp] theorem exec_cBnez (ra : Reg) (off : BitVec 6) (s : State) :
    exec (.cBnez ra off) s = Sys2Proof.Machine.execCBnez ra off s := rfl
@[simp] theorem exec_cJ (off : BitVec 11) (s : State) :
    exec (.cJ off) s = Sys2Proof.Machine.execCJ off s := rfl
@[simp] theorem exec_cNop (s : State) :
    exec (.cNop) s = Sys2Proof.Machine.execCNop s := rfl
@[simp] theorem exec_cExit (s : State) :
    exec (.cExit) s = Sys2Proof.Machine.execCExit s := rfl
@[simp] theorem exec_cBkpt (s : State) :
    exec (.cBkpt) s = Sys2Proof.Machine.execCBkpt s := rfl
@[simp] theorem exec_cLbrk (s : State) :
    exec (.cLbrk) s = Sys2Proof.Machine.execCLbrk s := rfl
@[simp] theorem exec_cVadd (n : Reg) (s : State) :
    exec (.cVadd n) s = Sys2Proof.Machine.execCVadd n s := rfl
@[simp] theorem exec_cVsub (n : Reg) (s : State) :
    exec (.cVsub n) s = Sys2Proof.Machine.execCVsub n s := rfl
@[simp] theorem exec_cVmul (n : Reg) (s : State) :
    exec (.cVmul n) s = Sys2Proof.Machine.execCVmul n s := rfl
@[simp] theorem exec_cVand (n : Reg) (s : State) :
    exec (.cVand n) s = Sys2Proof.Machine.execCVand n s := rfl
@[simp] theorem exec_cVor (n : Reg) (s : State) :
    exec (.cVor n) s = Sys2Proof.Machine.execCVor n s := rfl
@[simp] theorem exec_cVxor (n : Reg) (s : State) :
    exec (.cVxor n) s = Sys2Proof.Machine.execCVxor n s := rfl
@[simp] theorem exec_cVmin (n : Reg) (s : State) :
    exec (.cVmin n) s = Sys2Proof.Machine.execCVmin n s := rfl
@[simp] theorem exec_cVmax (n : Reg) (s : State) :
    exec (.cVmax n) s = Sys2Proof.Machine.execCVmax n s := rfl
@[simp] theorem exec_cVminu (n : Reg) (s : State) :
    exec (.cVminu n) s = Sys2Proof.Machine.execCVminu n s := rfl
@[simp] theorem exec_cVmaxu (n : Reg) (s : State) :
    exec (.cVmaxu n) s = Sys2Proof.Machine.execCVmaxu n s := rfl
@[simp] theorem exec_cVfadd (n : Reg) (s : State) :
    exec (.cVfadd n) s = Sys2Proof.Machine.execCVfadd n s := rfl
@[simp] theorem exec_cVfmul (n : Reg) (s : State) :
    exec (.cVfmul n) s = Sys2Proof.Machine.execCVfmul n s := rfl
@[simp] theorem exec_cVfmin (n : Reg) (s : State) :
    exec (.cVfmin n) s = Sys2Proof.Machine.execCVfmin n s := rfl
@[simp] theorem exec_cVfmax (n : Reg) (s : State) :
    exec (.cVfmax n) s = Sys2Proof.Machine.execCVfmax n s := rfl
@[simp] theorem exec_cVmand (n : Reg) (s : State) :
    exec (.cVmand n) s = Sys2Proof.Machine.execCVmand n s := rfl
@[simp] theorem exec_cVmor (n : Reg) (s : State) :
    exec (.cVmor n) s = Sys2Proof.Machine.execCVmor n s := rfl
@[simp] theorem exec_cVmxor (n : Reg) (s : State) :
    exec (.cVmxor n) s = Sys2Proof.Machine.execCVmxor n s := rfl
@[simp] theorem exec_cVmandn (n : Reg) (s : State) :
    exec (.cVmandn n) s = Sys2Proof.Machine.execCVmandn n s := rfl
@[simp] theorem exec_vadd (v : VAB) (s : State) :
    exec (.vadd v) s = Sys2Proof.Machine.execVadd v s := rfl
@[simp] theorem exec_vsub (v : VAB) (s : State) :
    exec (.vsub v) s = Sys2Proof.Machine.execVsub v s := rfl
@[simp] theorem exec_vrsub (v : VAB) (s : State) :
    exec (.vrsub v) s = Sys2Proof.Machine.execVrsub v s := rfl
@[simp] theorem exec_vmul (v : VAB) (s : State) :
    exec (.vmul v) s = Sys2Proof.Machine.execVmul v s := rfl
@[simp] theorem exec_vmulh (v : VAB) (s : State) :
    exec (.vmulh v) s = Sys2Proof.Machine.execVmulh v s := rfl
@[simp] theorem exec_vmulhu (v : VAB) (s : State) :
    exec (.vmulhu v) s = Sys2Proof.Machine.execVmulhu v s := rfl
@[simp] theorem exec_vdiv (v : VAB) (s : State) :
    exec (.vdiv v) s = Sys2Proof.Machine.execVdiv v s := rfl
@[simp] theorem exec_vdivu (v : VAB) (s : State) :
    exec (.vdivu v) s = Sys2Proof.Machine.execVdivu v s := rfl
@[simp] theorem exec_vrem (v : VAB) (s : State) :
    exec (.vrem v) s = Sys2Proof.Machine.execVrem v s := rfl
@[simp] theorem exec_vmin (v : VAB) (s : State) :
    exec (.vmin v) s = Sys2Proof.Machine.execVmin v s := rfl
@[simp] theorem exec_vmax (v : VAB) (s : State) :
    exec (.vmax v) s = Sys2Proof.Machine.execVmax v s := rfl
@[simp] theorem exec_vminu (v : VAB) (s : State) :
    exec (.vminu v) s = Sys2Proof.Machine.execVminu v s := rfl
@[simp] theorem exec_vmaxu (v : VAB) (s : State) :
    exec (.vmaxu v) s = Sys2Proof.Machine.execVmaxu v s := rfl
@[simp] theorem exec_vand (v : VAB) (s : State) :
    exec (.vand v) s = Sys2Proof.Machine.execVand v s := rfl
@[simp] theorem exec_vor (v : VAB) (s : State) :
    exec (.vor v) s = Sys2Proof.Machine.execVor v s := rfl
@[simp] theorem exec_vxor (v : VAB) (s : State) :
    exec (.vxor v) s = Sys2Proof.Machine.execVxor v s := rfl
@[simp] theorem exec_vandn (v : VAB) (s : State) :
    exec (.vandn v) s = Sys2Proof.Machine.execVandn v s := rfl
@[simp] theorem exec_vsll (v : VAB) (s : State) :
    exec (.vsll v) s = Sys2Proof.Machine.execVsll v s := rfl
@[simp] theorem exec_vsrl (v : VAB) (s : State) :
    exec (.vsrl v) s = Sys2Proof.Machine.execVsrl v s := rfl
@[simp] theorem exec_vsra (v : VAB) (s : State) :
    exec (.vsra v) s = Sys2Proof.Machine.execVsra v s := rfl
@[simp] theorem exec_vadc (v : VABC) (s : State) :
    exec (.vadc v) s = Sys2Proof.Machine.execVadc v s := rfl
@[simp] theorem exec_vadcCo (v : VABC) (s : State) :
    exec (.vadcCo v) s = Sys2Proof.Machine.execVadcCo v s := rfl
@[simp] theorem exec_vsbc (v : VABC) (s : State) :
    exec (.vsbc v) s = Sys2Proof.Machine.execVsbc v s := rfl
@[simp] theorem exec_vsbcCo (v : VABC) (s : State) :
    exec (.vsbcCo v) s = Sys2Proof.Machine.execVsbcCo v s := rfl
@[simp] theorem exec_vcmp (c : ICond) (v : VAB) (s : State) :
    exec (.vcmp c v) s = Sys2Proof.Machine.execVcmp c v s := rfl
@[simp] theorem exec_vmerge (v : VAB) (s : State) :
    exec (.vmerge v) s = Sys2Proof.Machine.execVmerge v s := rfl
@[simp] theorem exec_vmv (v : VA) (s : State) :
    exec (.vmv v) s = Sys2Proof.Machine.execVmv v s := rfl
@[simp] theorem exec_vdots (v : VABC) (s : State) :
    exec (.vdots v) s = Sys2Proof.Machine.execVdots v s := rfl
@[simp] theorem exec_vscan (op : RedOp) (v : VA) (s : State) :
    exec (.vscan op v) s = Sys2Proof.Machine.execVscan op v s := rfl
@[simp] theorem exec_vfadd (v : VAB) (s : State) :
    exec (.vfadd v) s = Sys2Proof.Machine.execVfadd v s := rfl
@[simp] theorem exec_vfsub (v : VAB) (s : State) :
    exec (.vfsub v) s = Sys2Proof.Machine.execVfsub v s := rfl
@[simp] theorem exec_vfmul (v : VAB) (s : State) :
    exec (.vfmul v) s = Sys2Proof.Machine.execVfmul v s := rfl
@[simp] theorem exec_vffma (v : VABC) (s : State) :
    exec (.vffma v) s = Sys2Proof.Machine.execVffma v s := rfl
@[simp] theorem exec_vfdiv (v : VAB) (s : State) :
    exec (.vfdiv v) s = Sys2Proof.Machine.execVfdiv v s := rfl
@[simp] theorem exec_vfsqrt (v : VA) (s : State) :
    exec (.vfsqrt v) s = Sys2Proof.Machine.execVfsqrt v s := rfl
@[simp] theorem exec_vfmin (v : VAB) (s : State) :
    exec (.vfmin v) s = Sys2Proof.Machine.execVfmin v s := rfl
@[simp] theorem exec_vfmax (v : VAB) (s : State) :
    exec (.vfmax v) s = Sys2Proof.Machine.execVfmax v s := rfl
@[simp] theorem exec_vfcmp (c : VFCond) (v : VAB) (s : State) :
    exec (.vfcmp c v) s = Sys2Proof.Machine.execVfcmp c v s := rfl
@[simp] theorem exec_vexp2 (v : VA) (s : State) :
    exec (.vexp2 v) s = Sys2Proof.Machine.execVexp2 v s := rfl
@[simp] theorem exec_vlog2 (v : VA) (s : State) :
    exec (.vlog2 v) s = Sys2Proof.Machine.execVlog2 v s := rfl
@[simp] theorem exec_vrcp (v : VA) (s : State) :
    exec (.vrcp v) s = Sys2Proof.Machine.execVrcp v s := rfl
@[simp] theorem exec_vrsq (v : VA) (s : State) :
    exec (.vrsq v) s = Sys2Proof.Machine.execVrsq v s := rfl
@[simp] theorem exec_vtanh (v : VA) (s : State) :
    exec (.vtanh v) s = Sys2Proof.Machine.execVtanh v s := rfl
@[simp] theorem exec_vsin (v : VA) (s : State) :
    exec (.vsin v) s = Sys2Proof.Machine.execVsin v s := rfl
@[simp] theorem exec_vcos (v : VA) (s : State) :
    exec (.vcos v) s = Sys2Proof.Machine.execVcos v s := rfl
@[simp] theorem exec_vredsum (v : VA) (s : State) :
    exec (.vredsum v) s = Sys2Proof.Machine.execVredsum v s := rfl
@[simp] theorem exec_vredmax (v : VA) (s : State) :
    exec (.vredmax v) s = Sys2Proof.Machine.execVredmax v s := rfl
@[simp] theorem exec_vredmin (v : VA) (s : State) :
    exec (.vredmin v) s = Sys2Proof.Machine.execVredmin v s := rfl
@[simp] theorem exec_vredand (v : VA) (s : State) :
    exec (.vredand v) s = Sys2Proof.Machine.execVredand v s := rfl
@[simp] theorem exec_vredor (v : VA) (s : State) :
    exec (.vredor v) s = Sys2Proof.Machine.execVredor v s := rfl
@[simp] theorem exec_vredxor (v : VA) (s : State) :
    exec (.vredxor v) s = Sys2Proof.Machine.execVredxor v s := rfl
@[simp] theorem exec_vslideup (cnt : Reg) (v : VA) (s : State) :
    exec (.vslideup cnt v) s = Sys2Proof.Machine.execVslideup cnt v s := rfl
@[simp] theorem exec_vslidedn (cnt : Reg) (v : VA) (s : State) :
    exec (.vslidedn cnt v) s = Sys2Proof.Machine.execVslidedn cnt v s := rfl
@[simp] theorem exec_vmand (v : VAB) (s : State) :
    exec (.vmand v) s = Sys2Proof.Machine.execVmand v s := rfl
@[simp] theorem exec_vmor (v : VAB) (s : State) :
    exec (.vmor v) s = Sys2Proof.Machine.execVmor v s := rfl
@[simp] theorem exec_vmxor (v : VAB) (s : State) :
    exec (.vmxor v) s = Sys2Proof.Machine.execVmxor v s := rfl
@[simp] theorem exec_vmandn (v : VAB) (s : State) :
    exec (.vmandn v) s = Sys2Proof.Machine.execVmandn v s := rfl
@[simp] theorem exec_vmnot (v : VA) (s : State) :
    exec (.vmnot v) s = Sys2Proof.Machine.execVmnot v s := rfl
@[simp] theorem exec_vmpop (rd : Reg) (v : VA1) (s : State) :
    exec (.vmpop rd v) s = Sys2Proof.Machine.execVmpop rd v s := rfl
@[simp] theorem exec_vmfirst (rd : Reg) (v : VA1) (s : State) :
    exec (.vmfirst rd v) s = Sys2Proof.Machine.execVmfirst rd v s := rfl
@[simp] theorem exec_vmlast (rd : Reg) (v : VA1) (s : State) :
    exec (.vmlast rd v) s = Sys2Proof.Machine.execVmlast rd v s := rfl
@[simp] theorem exec_vmany (rd : Reg) (v : VA1) (s : State) :
    exec (.vmany rd v) s = Sys2Proof.Machine.execVmany rd v s := rfl
@[simp] theorem exec_vgauss (v : VA) (s : State) :
    exec (.vgauss v) s = Sys2Proof.Machine.execVgauss v s := rfl
@[simp] theorem exec_vgaussPert (v : VA) (s : State) :
    exec (.vgaussPert v) s = Sys2Proof.Machine.execVgaussPert v s := rfl
@[simp] theorem exec_vrand (v : VA) (s : State) :
    exec (.vrand v) s = Sys2Proof.Machine.execVrand v s := rfl
@[simp] theorem exec_vrandSr (v : VA) (s : State) :
    exec (.vrandSr v) s = Sys2Proof.Machine.execVrandSr v s := rfl
@[simp] theorem exec_vld (ord : Ord) (v : VA) (s : State) :
    exec (.vld ord v) s = Sys2Proof.Machine.execVld ord v s := rfl
@[simp] theorem exec_vst (ord : Ord) (v : VA) (s : State) :
    exec (.vst ord v) s = Sys2Proof.Machine.execVst ord v s := rfl
@[simp] theorem exec_vstx (ord : Ord) (v : VA) (s : State) :
    exec (.vstx ord v) s = Sys2Proof.Machine.execVstx ord v s := rfl
@[simp] theorem exec_vamo (op : AmoOp) (ord : Ord) (v : VAB) (s : State) :
    exec (.vamo op ord v) s = Sys2Proof.Machine.execVamo op ord v s := rfl
@[simp] theorem exec_vcas (ord : Ord) (v : VABC) (s : State) :
    exec (.vcas ord v) s = Sys2Proof.Machine.execVcas ord v s := rfl
@[simp] theorem exec_vempty (v : VD) (s : State) :
    exec (.vempty v) s = Sys2Proof.Machine.execVempty v s := rfl
@[simp] theorem exec_vfill (v : VD) (s : State) :
    exec (.vfill v) s = Sys2Proof.Machine.execVfill v s := rfl
@[simp] theorem exec_vwait (rt : Reg) (v : VAB) (s : State) :
    exec (.vwait rt v) s = Sys2Proof.Machine.execVwait rt v s := rfl
@[simp] theorem exec_vown (v : VA) (s : State) :
    exec (.vown v) s = Sys2Proof.Machine.execVown v s := rfl
@[simp] theorem exec_vidx (d : Spec) (start step : BitVec 16) (s : State) :
    exec (.vidx d start step) s = Sys2Proof.Machine.execVidx d start step s := rfl
@[simp] theorem exec_vmsh (d a : Spec) (k : BitVec 32) (s : State) :
    exec (.vmsh d a k) s = Sys2Proof.Machine.execVmsh d a k s := rfl
@[simp] theorem exec_vcvt (src : SrcType) (d a : Spec) (s : State) :
    exec (.vcvt src d a) s = Sys2Proof.Machine.execVcvt src d a s := rfl
@[simp] theorem exec_mma (z : Bool) (h : Reg) (ta tb : BitVec 4) (arow : BitVec 9) (acol : BitVec 7) (s : State) :
    exec (.mma z h ta tb arow acol) s = Sys2Proof.Machine.execMma z h ta tb arow acol s := rfl
@[simp] theorem exec_mmae (z : Bool) (h draw : Reg) (ta tb : BitVec 4) (arow : BitVec 9) (acol : BitVec 7) (s : State) :
    exec (.mmae z h draw ta tb arow acol) s = Sys2Proof.Machine.execMmae z h draw ta tb arow acol s := rfl
@[simp] theorem exec_accz (h : Reg) (arow : BitVec 9) (acol : BitVec 7) (nrows1 : BitVec 9) (ncols1 : BitVec 7) (s : State) :
    exec (.accz h arow acol nrows1 ncols1) s = Sys2Proof.Machine.execAccz h arow acol nrows1 ncols1 s := rfl
@[simp] theorem exec_accin (h : Reg) (a : Spec) (pol : Bool) (mask : MSel) (arow : BitVec 9) (acol ncol1 : BitVec 7) (s : State) :
    exec (.accin h a pol mask arow acol ncol1) s = Sys2Proof.Machine.execAccin h a pol mask arow acol ncol1 s := rfl
@[simp] theorem exec_drain (clr : Bool) (h : Reg) (d : Spec) (mask : MSel) (arow : BitVec 9) (acol ncol1 : BitVec 7) (s : State) :
    exec (.drain clr h d mask arow acol ncol1) s = Sys2Proof.Machine.execDrain clr h d mask arow acol ncol1 s := rfl
@[simp] theorem exec_tsub (rq : Reg) (s : State) :
    exec (.tsub rq) s = Sys2Proof.Machine.execTsub rq s := rfl
@[simp] theorem exec_pcopy (p : PumpArgs) (d a : Spec) (s : State) :
    exec (.pcopy p d a) s = Sys2Proof.Machine.execPcopy p d a s := rfl
@[simp] theorem exec_pgath (p : PumpArgs) (rr : Reg) (d a : Spec) (s : State) :
    exec (.pgath p rr d a) s = Sys2Proof.Machine.execPgath p rr d a s := rfl
@[simp] theorem exec_pscat (p : PumpArgs) (rr : Reg) (d a : Spec) (s : State) :
    exec (.pscat p rr d a) s = Sys2Proof.Machine.execPscat p rr d a s := rfl
@[simp] theorem exec_prdc (p : PumpArgs) (d a : Spec) (s : State) :
    exec (.prdc p d a) s = Sys2Proof.Machine.execPrdc p d a s := rfl
@[simp] theorem exec_pfill (p : PumpArgs) (d a : Spec) (s : State) :
    exec (.pfill p d a) s = Sys2Proof.Machine.execPfill p d a s := rfl
@[simp] theorem exec_attn (hint : AttnHint) (rc : Reg) (qb0 nqb1 : BitVec 16) (s : State) :
    exec (.attn hint rc qb0 nqb1) s = Sys2Proof.Machine.execAttn hint rc qb0 nqb1 s := rfl
@[simp] theorem exec_kvw (rc ra rp : Reg) (s : State) :
    exec (.kvw rc ra rp) s = Sys2Proof.Machine.execKvw rc ra rp s := rfl
@[simp] theorem exec_kvinv (rc ra rp : Reg) (s : State) :
    exec (.kvinv rc ra rp) s = Sys2Proof.Machine.execKvinv rc ra rp s := rfl
@[simp] theorem exec_reset (s : State) :
    exec (.reset) s = Sys2Proof.Machine.execReset s := rfl
@[simp] theorem exec_loadComplete (sq grp : Nat) (s : State) :
    exec (.loadComplete sq grp) s = Sys2Proof.Machine.execLoadComplete sq grp s := rfl
@[simp] theorem exec_mwaitWake (sq : Nat) (s : State) :
    exec (.mwaitWake sq) s = Sys2Proof.Machine.execMwaitWake sq s := rfl
@[simp] theorem exec_streamRead (sq : Nat) (s : State) :
    exec (.streamRead sq) s = Sys2Proof.Machine.execStreamRead sq s := rfl
@[simp] theorem exec_setvlcWake (sq : Nat) (s : State) :
    exec (.setvlcWake sq) s = Sys2Proof.Machine.execSetvlcWake sq s := rfl
@[simp] theorem exec_exitComplete (sq : Nat) (s : State) :
    exec (.exitComplete sq) s = Sys2Proof.Machine.execExitComplete sq s := rfl
@[simp] theorem exec_barrierWaitMet (sq : Nat) (s : State) :
    exec (.barrierWaitMet sq) s = Sys2Proof.Machine.execBarrierWaitMet sq s := rfl
@[simp] theorem exec_lwaitComplete (sq : Nat) (s : State) :
    exec (.lwaitComplete sq) s = Sys2Proof.Machine.execLwaitComplete sq s := rfl
@[simp] theorem exec_groupCommit (sq : Nat) (s : State) :
    exec (.groupCommit sq) s = Sys2Proof.Machine.execGroupCommit sq s := rfl
@[simp] theorem exec_vwaitWake (sq : Nat) (s : State) :
    exec (.vwaitWake sq) s = Sys2Proof.Machine.execVwaitWake sq s := rfl
@[simp] theorem exec_elementExecute (sq grp : Nat) (s : State) :
    exec (.elementExecute sq grp) s = Sys2Proof.Machine.execElementExecute sq grp s := rfl
@[simp] theorem exec_vldLanding (idx : Nat) (s : State) :
    exec (.vldLanding idx) s = Sys2Proof.Machine.execVldLanding idx s := rfl
@[simp] theorem exec_pageWalk (die ctx va : Nat) (acc : Access) (s : State) :
    exec (.pageWalk die ctx va acc) s = Sys2Proof.Machine.execPageWalk die ctx va acc s := rfl
@[simp] theorem exec_migrationTimeout (idx : Nat) (s : State) :
    exec (.migrationTimeout idx) s = Sys2Proof.Machine.execMigrationTimeout idx s := rfl
@[simp] theorem exec_trapEntry (sq : Nat) (s : State) :
    exec (.trapEntry sq) s = Sys2Proof.Machine.execTrapEntry sq s := rfl
@[simp] theorem exec_haltStop (sq : Nat) (s : State) :
    exec (.haltStop sq) s = Sys2Proof.Machine.execHaltStop sq s := rfl
@[simp] theorem exec_machineCheck (ctx addr : Nat) (phys : Bool) (s : State) :
    exec (.machineCheck ctx addr phys) s = Sys2Proof.Machine.execMachineCheck ctx addr phys s := rfl
@[simp] theorem exec_preemptionRequest (ctx : Nat) (s : State) :
    exec (.preemptionRequest ctx) s = Sys2Proof.Machine.execPreemptionRequest ctx s := rfl
@[simp] theorem exec_softTake (sq : Nat) (s : State) :
    exec (.softTake sq) s = Sys2Proof.Machine.execSoftTake sq s := rfl
@[simp] theorem exec_hardTake (sq : Nat) (s : State) :
    exec (.hardTake sq) s = Sys2Proof.Machine.execHardTake sq s := rfl
@[simp] theorem exec_leaseGrant (die : Nat) (s : State) :
    exec (.leaseGrant die) s = Sys2Proof.Machine.execLeaseGrant die s := rfl
@[simp] theorem exec_leaseAging (die ctx slot : Nat) (s : State) :
    exec (.leaseAging die ctx slot) s = Sys2Proof.Machine.execLeaseAging die ctx slot s := rfl
@[simp] theorem exec_wakeComplete (die ctx slot : Nat) (s : State) :
    exec (.wakeComplete die ctx slot) s = Sys2Proof.Machine.execWakeComplete die ctx slot s := rfl
@[simp] theorem exec_evictionDecided (die : Nat) (s : State) :
    exec (.evictionDecided die) s = Sys2Proof.Machine.execEvictionDecided die s := rfl
@[simp] theorem exec_evictionEffect (die ctx slot : Nat) (s : State) :
    exec (.evictionEffect die ctx slot) s = Sys2Proof.Machine.execEvictionEffect die ctx slot s := rfl
@[simp] theorem exec_budgetEviction (die : Nat) (s : State) :
    exec (.budgetEviction die) s = Sys2Proof.Machine.execBudgetEviction die s := rfl
@[simp] theorem exec_leaseReleaseComplete (die ctx slot : Nat) (s : State) :
    exec (.leaseReleaseComplete die ctx slot) s = Sys2Proof.Machine.execLeaseReleaseComplete die ctx slot s := rfl
@[simp] theorem exec_matrixStep (die eng : Nat) (s : State) :
    exec (.matrixStep die eng) s = Sys2Proof.Machine.execMatrixStep die eng s := rfl
@[simp] theorem exec_acczPass (die eng : Nat) (s : State) :
    exec (.acczPass die eng) s = Sys2Proof.Machine.execAcczPass die eng s := rfl
@[simp] theorem exec_accinPass (die eng : Nat) (s : State) :
    exec (.accinPass die eng) s = Sys2Proof.Machine.execAccinPass die eng s := rfl
@[simp] theorem exec_drainPass (die eng : Nat) (s : State) :
    exec (.drainPass die eng) s = Sys2Proof.Machine.execDrainPass die eng s := rfl
@[simp] theorem exec_taskGateEvaluation (die idx : Nat) (s : State) :
    exec (.taskGateEvaluation die idx) s = Sys2Proof.Machine.execTaskGateEvaluation die idx s := rfl
@[simp] theorem exec_taskDispatch (die : Nat) (s : State) :
    exec (.taskDispatch die) s = Sys2Proof.Machine.execTaskDispatch die s := rfl
@[simp] theorem exec_taskRun (die eng : Nat) (s : State) :
    exec (.taskRun die eng) s = Sys2Proof.Machine.execTaskRun die eng s := rfl
@[simp] theorem exec_pumpElement (die pump copy elem : Nat) (s : State) :
    exec (.pumpElement die pump copy elem) s = Sys2Proof.Machine.execPumpElement die pump copy elem s := rfl
@[simp] theorem exec_groupCommandRun (sq : Nat) (s : State) :
    exec (.groupCommandRun sq) s = Sys2Proof.Machine.execGroupCommandRun sq s := rfl
@[simp] theorem exec_attnQueryBlock (sq : Nat) (s : State) :
    exec (.attnQueryBlock sq) s = Sys2Proof.Machine.execAttnQueryBlock sq s := rfl
@[simp] theorem exec_fabmonWindow (die percent : Nat) (s : State) :
    exec (.fabmonWindow die percent) s = Sys2Proof.Machine.execFabmonWindow die percent s := rfl
@[simp] theorem exec_bucketRefill (die : Nat) (s : State) :
    exec (.bucketRefill die) s = Sys2Proof.Machine.execBucketRefill die s := rfl
@[simp] theorem exec_bankWave (sq : Nat) (s : State) :
    exec (.bankWave sq) s = Sys2Proof.Machine.execBankWave sq s := rfl
@[simp] theorem exec_notify (who : Option Master) (q : Nat) (s : State) :
    exec (.notify who q) s = Sys2Proof.Machine.execNotify who q s := rfl
@[simp] theorem exec_notifyReset (who : Option Master) (q : Nat) (pos : BitVec 32) (s : State) :
    exec (.notifyReset who q pos) s = Sys2Proof.Machine.execNotifyReset who q pos s := rfl
@[simp] theorem exec_notifyDisable (who : Option Master) (q : Nat) (s : State) :
    exec (.notifyDisable who q) s = Sys2Proof.Machine.execNotifyDisable who q s := rfl
@[simp] theorem exec_eventTake (die : Nat) (s : State) :
    exec (.eventTake die) s = Sys2Proof.Machine.execEventTake die s := rfl
@[simp] theorem exec_packetStart (q : Nat) (s : State) :
    exec (.packetStart q) s = Sys2Proof.Machine.execPacketStart q s := rfl
@[simp] theorem exec_waitPacketCheck (q : Nat) (s : State) :
    exec (.waitPacketCheck q) s = Sys2Proof.Machine.execWaitPacketCheck q s := rfl
@[simp] theorem exec_waitPacketTimeout (q : Nat) (s : State) :
    exec (.waitPacketTimeout q) s = Sys2Proof.Machine.execWaitPacketTimeout q s := rfl
@[simp] theorem exec_packetComplete (q pk : Nat) (s : State) :
    exec (.packetComplete q pk) s = Sys2Proof.Machine.execPacketComplete q pk s := rfl
@[simp] theorem exec_kernelPlacement (k : Nat) (s : State) :
    exec (.kernelPlacement k) s = Sys2Proof.Machine.execKernelPlacement k s := rfl
@[simp] theorem exec_kernelComplete (k : Nat) (s : State) :
    exec (.kernelComplete k) s = Sys2Proof.Machine.execKernelComplete k s := rfl
@[simp] theorem exec_kernelAbort (k : Nat) (s : State) :
    exec (.kernelAbort k) s = Sys2Proof.Machine.execKernelAbort k s := rfl
@[simp] theorem exec_rangeChunk (sq : Nat) (s : State) :
    exec (.rangeChunk sq) s = Sys2Proof.Machine.execRangeChunk sq s := rfl
@[simp] theorem exec_rangeSteal (k die : Nat) (s : State) :
    exec (.rangeSteal k die) s = Sys2Proof.Machine.execRangeSteal k die s := rfl
@[simp] theorem exec_recordTake (sq : Nat) (s : State) :
    exec (.recordTake sq) s = Sys2Proof.Machine.execRecordTake sq s := rfl
@[simp] theorem exec_recordAging (die idx : Nat) (s : State) :
    exec (.recordAging die idx) s = Sys2Proof.Machine.execRecordAging die idx s := rfl
@[simp] theorem exec_firmwareUpdate (m : Master) (val : Word) (s : State) :
    exec (.firmwareUpdate m val) s = Sys2Proof.Machine.execFirmwareUpdate m val s := rfl
@[simp] theorem exec_firmwareRestart (die : Nat) (s : State) :
    exec (.firmwareRestart die) s = Sys2Proof.Machine.execFirmwareRestart die s := rfl
@[simp] theorem exec_linkTraining (link lanes : Nat) (s : State) :
    exec (.linkTraining link lanes) s = Sys2Proof.Machine.execLinkTraining link lanes s := rfl
@[simp] theorem exec_laneFailure (link : Nat) (s : State) :
    exec (.laneFailure link) s = Sys2Proof.Machine.execLaneFailure link s := rfl
@[simp] theorem exec_flitReceive (link cls num : Nat) (crcOk : Bool) (s : State) :
    exec (.flitReceive link cls num crcOk) s = Sys2Proof.Machine.execFlitReceive link cls num crcOk s := rfl
@[simp] theorem exec_flitReplay (link cls : Nat) (s : State) :
    exec (.flitReplay link cls) s = Sys2Proof.Machine.execFlitReplay link cls s := rfl
@[simp] theorem exec_routeFailure (src dst : Nat) (ctx : Option Nat) (addr : Nat) (byUnit : Bool) (s : State) :
    exec (.routeFailure src dst ctx addr byUnit) s = Sys2Proof.Machine.execRouteFailure src dst ctx addr byUnit s := rfl
@[simp] theorem exec_retrain (m : Master) (link : Nat) (s : State) :
    exec (.retrain m link) s = Sys2Proof.Machine.execRetrain m link s := rfl
@[simp] theorem exec_linkstatClr (m : Master) (link : Nat) (s : State) :
    exec (.linkstatClr m link) s = Sys2Proof.Machine.execLinkstatClr m link s := rfl
@[simp] theorem exec_hostMemAccess (addr : Nat) (acc : HostAcc) (s : State) :
    exec (.hostMemAccess addr acc) s = Sys2Proof.Machine.execHostMemAccess addr acc s := rfl
@[simp] theorem exec_hosterrClear (m : Master) (s : State) :
    exec (.hosterrClear m) s = Sys2Proof.Machine.execHosterrClear m s := rfl
@[simp] theorem exec_peerRequest (port addr : Nat) (req : PeerReq) (s : State) :
    exec (.peerRequest port addr req) s = Sys2Proof.Machine.execPeerRequest port addr req s := rfl
@[simp] theorem exec_spdmRequest (req : SpdmReq) (s : State) :
    exec (.spdmRequest req) s = Sys2Proof.Machine.execSpdmRequest req s := rfl
@[simp] theorem exec_powerComparison (watts : Nat) (bank : List Nat) (s : State) :
    exec (.powerComparison watts bank) s = Sys2Proof.Machine.execPowerComparison watts bank s := rfl
@[simp] theorem exec_leasebudWrite (m : Master) (die : Nat) (val : Word) (s : State) :
    exec (.leasebudWrite m die val) s = Sys2Proof.Machine.execLeasebudWrite m die val s := rfl
@[simp] theorem exec_bankpwrWrite (m : Master) (die : Nat) (val : Word) (s : State) :
    exec (.bankpwrWrite m die val) s = Sys2Proof.Machine.execBankpwrWrite m die val s := rfl
@[simp] theorem exec_pwrdieForce (m : Master) (die : Nat) (val : Word) (s : State) :
    exec (.pwrdieForce m die val) s = Sys2Proof.Machine.execPwrdieForce m die val s := rfl
@[simp] theorem exec_quotaPeriod (s : State) :
    exec (.quotaPeriod) s = Sys2Proof.Machine.execQuotaPeriod s := rfl
@[simp] theorem exec_tickPeriod (s : State) :
    exec (.tickPeriod) s = Sys2Proof.Machine.execTickPeriod s := rfl
@[simp] theorem exec_logSpaceFree (sq : Nat) (s : State) :
    exec (.logSpaceFree sq) s = Sys2Proof.Machine.execLogSpaceFree sq s := rfl
@[simp] theorem exec_ownClaim (m : Master) (nonce : BitVec 16) (s : State) :
    exec (.ownClaim m nonce) s = Sys2Proof.Machine.execOwnClaim m nonce s := rfl
@[simp] theorem exec_ownHandover (m succ : Master) (nonce : BitVec 16) (s : State) :
    exec (.ownHandover m succ nonce) s = Sys2Proof.Machine.execOwnHandover m succ nonce s := rfl
@[simp] theorem exec_ownRelease (m : Master) (nonce : BitVec 16) (s : State) :
    exec (.ownRelease m nonce) s = Sys2Proof.Machine.execOwnRelease m nonce s := rfl
@[simp] theorem exec_ownHeartbeatTimeout (s : State) :
    exec (.ownHeartbeatTimeout) s = Sys2Proof.Machine.execOwnHeartbeatTimeout s := rfl
@[simp] theorem exec_ownHandoverTimeout (s : State) :
    exec (.ownHandoverTimeout) s = Sys2Proof.Machine.execOwnHandoverTimeout s := rfl
@[simp] theorem exec_freezeRequest (m : Master) (s : State) :
    exec (.freezeRequest m) s = Sys2Proof.Machine.execFreezeRequest m s := rfl
@[simp] theorem exec_thawRequest (m : Master) (s : State) :
    exec (.thawRequest m) s = Sys2Proof.Machine.execThawRequest m s := rfl
@[simp] theorem exec_frzPin (asserted : Bool) (s : State) :
    exec (.frzPin asserted) s = Sys2Proof.Machine.execFrzPin asserted s := rfl
@[simp] theorem exec_freezeTakeEffect (s : State) :
    exec (.freezeTakeEffect) s = Sys2Proof.Machine.execFreezeTakeEffect s := rfl
@[simp] theorem exec_debugAccess (acc : DebugAcc) (s : State) :
    exec (.debugAccess acc) s = Sys2Proof.Machine.execDebugAccess acc s := rfl
@[simp] theorem exec_ecccntClr (m : Master) (die : Nat) (s : State) :
    exec (.ecccntClr m die) s = Sys2Proof.Machine.execEcccntClr m die s := rfl
@[simp] theorem exec_registerWrite (m : Master) (off : Nat) (val : Word) (s : State) :
    exec (.registerWrite m off val) s = Sys2Proof.Machine.execRegisterWrite m off val s := rfl
@[simp] theorem exec_hdmDecoderProgram (dec base : Nat) (s : State) :
    exec (.hdmDecoderProgram dec base) s = Sys2Proof.Machine.execHdmDecoderProgram dec base s := rfl

end Sys2Proof.Machine
end

