-- ==== Sys2Proof/Laws/State.lean ====
section
/-!
SUPPORT. Tables keyed by a number, and one lemma per field for each named update of State and of a sequencer: what the
update leaves, true by rfl, for `simp`.
-/
namespace Sys2Proof.Machine

/-! ## Sparse lists -/

/-- Nothing is found at a key just removed. -/
@[simp] theorem smapGet_del_same {α : Type} (k : Nat) (l : List (Nat × α)) : smapGet k (smapDel k l) = none := by
  induction l with
  | nil => rfl
  | cons p r ih => by_cases h : p.1 = k <;> simp_all [smapDel, smapGet]

/-- Removing a key leaves every other alone. -/
theorem smapGet_del_other {α : Type} (k m : Nat) (l : List (Nat × α)) (h : m ≠ k) :
    smapGet m (smapDel k l) = smapGet m l := by
  induction l with
  | nil => rfl
  | cons p r ih =>
    by_cases hp : p.1 = k
    · subst hp
      simpa [smapDel, smapGet, List.filter_cons, Ne.symm h] using ih
    · simp only [smapDel, List.filter_cons, smapGet] at ih ⊢
      simp [hp, smapGet, ih]

/-- Removing a key twice. -/
@[simp] theorem smapDel_del {α : Type} (k : Nat) (l : List (Nat × α)) : smapDel k (smapDel k l) = smapDel k l := by
  simp [smapDel]

/-- The value just put at a key is found there. -/
@[simp] theorem smapGet_set_same {α : Type} (k : Nat) (v : α) (l : List (Nat × α)) :
    smapGet k (smapSet k v l) = some v := by
  induction l with
  | nil => simp [smapSet, smapGet]
  | cons p r ih =>
    unfold smapSet
    split
    · simp [smapGet]
    · split
      · simp [smapGet]
      · rename_i h
        simp [smapGet, h, ih]

/-- Putting a value at a key leaves every other key alone. -/
theorem smapGet_set_other {α : Type} (k m : Nat) (v : α) (l : List (Nat × α)) (h : m ≠ k) :
    smapGet m (smapSet k v l) = smapGet m l := by
  induction l with
  | nil => simp [smapSet, smapGet, Ne.symm h]
  | cons p r ih =>
    unfold smapSet
    split
    · simp [smapGet, Ne.symm h, smapGet_del_other k m r h]
    · split
      · rename_i hk
        subst hk
        simp [smapGet, Ne.symm h, smapGet_del_other _ m r h]
      · simp only [smapGet, ih]

/-- The second of two values put at one key stays. -/
@[simp] theorem smapSet_set {α : Type} (k : Nat) (u v : α) (l : List (Nat × α)) :
    smapSet k v (smapSet k u l) = smapSet k v l := by
  induction l with
  | nil => simp [smapSet, smapDel]
  | cons p r ih =>
    by_cases h1 : k < p.1
    · have : p.1 ≠ k := by omega
      have hd : smapDel k (p :: smapDel k r) = p :: smapDel k r := by
        rw [smapDel, List.filter_cons, if_pos (by simpa using this)]
        exact congrArg _ (smapDel_del k r)
      simp [smapSet, h1, hd]
    · by_cases h2 : p.1 = k
      · simp [smapSet, h2]
      · simp [smapSet, h1, h2, ih]
/-! ## Sequencers -/

/-- A sequencer just replaced is read back. -/
@[simp] theorem State.seq_setSeq (s : State) (n : Nat) (q : Seq) : (s.setSeq n q).seq n = q := by
  simp [State.seq, State.setSeq]

/-- Replacing a sequencer leaves every other alone. -/
theorem State.seq_setSeq_other (s : State) (n m : Nat) (q : Seq) (h : m ≠ n) : (s.setSeq n q).seq m = s.seq m := by
  simp [State.seq, State.setSeq, smapGet_set_other n m q s.seqs h]

/-- Replacing a sequencer twice. -/
@[simp] theorem State.setSeq_setSeq (s : State) (n : Nat) (p q : Seq) : (s.setSeq n p).setSeq n q = s.setSeq n q := by
  simp [State.setSeq]

/-- A sequencer just changed. -/
@[simp] theorem State.seq_modSeq (s : State) (n : Nat) (f : Seq → Seq) : (s.modSeq n f).seq n = f (s.seq n) := by
  simp [State.modSeq]

/-- Changing a sequencer leaves every other alone. -/
theorem State.seq_modSeq_other (s : State) (n m : Nat) (f : Seq → Seq) (h : m ≠ n) :
    (s.modSeq n f).seq m = s.seq m := by
  simp [State.modSeq, State.seq_setSeq_other s n m _ h]

/-- Changing a sequencer that has just been replaced. -/
@[simp] theorem State.modSeq_setSeq (s : State) (n : Nat) (q : Seq) (f : Seq → Seq) :
    (s.setSeq n q).modSeq n f = s.setSeq n (f q) := by
  simp [State.modSeq]

/-- Two changes of one sequencer are one. -/
@[simp] theorem State.modSeq_modSeq (s : State) (n : Nat) (f g : Seq → Seq) :
    (s.modSeq n f).modSeq n g = s.modSeq n fun q => g (f q) := by
  simp [State.modSeq]

/-- A write of an x register is a change of the sequencer. -/
theorem State.setX_eq (s : State) (n : Nat) (r : Reg) (v : Word) : s.setX n r v = s.modSeq n fun q => q.setX r v := rfl

/-! ## x registers (06 R135) -/

/-- x0 reads as zero. -/
@[simp] theorem Seq.getX_zero (q : Seq) : q.getX 0 = 0 := rfl

/-- A write to x0 is discarded. -/
@[simp] theorem Seq.setX_zero (q : Seq) (v : Word) : q.setX 0 v = q := rfl

/-- A register other than x0 reads as written. -/
theorem Seq.getX_setX_same (q : Seq) (r : Reg) (v : Word) (h : r ≠ 0) : (q.setX r v).getX r = v := by
  simp [Seq.getX, Seq.setX, h]

/-- A write leaves every other register alone. -/
theorem Seq.getX_setX_other (q : Seq) (r t : Reg) (v : Word) (h : t ≠ r) : (q.setX r v).getX t = q.getX t := by
  have h' : r.val ≠ t.val := fun e => h (Fin.ext e.symm)
  by_cases hr : r = 0
  · simp [Seq.setX, hr]
  · simp [Seq.getX, Seq.setX, hr, h']


/-! ## setSeq -/

@[simp] theorem State.setSeq_agenda (s : State) (n : Nat) (q : Seq) : (s.setSeq n q).agenda = s.agenda := rfl
@[simp] theorem State.setSeq_cur (s : State) (n : Nat) (q : Seq) : (s.setSeq n q).cur = s.cur := rfl
@[simp] theorem State.setSeq_now (s : State) (n : Nat) (q : Seq) : (s.setSeq n q).now = s.now := rfl
@[simp] theorem State.setSeq_mem (s : State) (n : Nat) (q : Seq) : (s.setSeq n q).mem = s.mem := rfl
@[simp] theorem State.setSeq_empty (s : State) (n : Nat) (q : Seq) : (s.setSeq n q).empty = s.empty := rfl
@[simp] theorem State.setSeq_soft (s : State) (n : Nat) (q : Seq) : (s.setSeq n q).soft = s.soft := rfl
@[simp] theorem State.setSeq_ctxs (s : State) (n : Nat) (q : Seq) : (s.setSeq n q).ctxs = s.ctxs := rfl
@[simp] theorem State.setSeq_kernels (s : State) (n : Nat) (q : Seq) : (s.setSeq n q).kernels = s.kernels := rfl
@[simp] theorem State.setSeq_dies (s : State) (n : Nat) (q : Seq) : (s.setSeq n q).dies = s.dies := rfl
@[simp] theorem State.setSeq_queues (s : State) (n : Nat) (q : Seq) : (s.setSeq n q).queues = s.queues := rfl
@[simp] theorem State.setSeq_bars (s : State) (n : Nat) (q : Seq) : (s.setSeq n q).bars = s.bars := rfl
@[simp] theorem State.setSeq_links (s : State) (n : Nat) (q : Seq) : (s.setSeq n q).links = s.links := rfl
@[simp] theorem State.setSeq_marks (s : State) (n : Nat) (q : Seq) : (s.setSeq n q).marks = s.marks := rfl
@[simp] theorem State.setSeq_landings (s : State) (n : Nat) (q : Seq) : (s.setSeq n q).landings = s.landings := rfl
@[simp] theorem State.setSeq_migs (s : State) (n : Nat) (q : Seq) : (s.setSeq n q).migs = s.migs := rfl
@[simp] theorem State.setSeq_owed (s : State) (n : Nat) (q : Seq) : (s.setSeq n q).owed = s.owed := rfl
@[simp] theorem State.setSeq_shares (s : State) (n : Nat) (q : Seq) : (s.setSeq n q).shares = s.shares := rfl
@[simp] theorem State.setSeq_aside (s : State) (n : Nat) (q : Seq) : (s.setSeq n q).aside = s.aside := rfl
@[simp] theorem State.setSeq_sumps (s : State) (n : Nat) (q : Seq) : (s.setSeq n q).sumps = s.sumps := rfl
@[simp] theorem State.setSeq_runCtr (s : State) (n : Nat) (q : Seq) : (s.setSeq n q).runCtr = s.runCtr := rfl
@[simp] theorem State.setSeq_ctxCtr (s : State) (n : Nat) (q : Seq) : (s.setSeq n q).ctxCtr = s.ctxCtr := rfl
@[simp] theorem State.setSeq_kernCtr (s : State) (n : Nat) (q : Seq) : (s.setSeq n q).kernCtr = s.kernCtr := rfl
@[simp] theorem State.setSeq_pkg (s : State) (n : Nat) (q : Seq) : (s.setSeq n q).pkg = s.pkg := rfl

/-! ## modSeq -/

@[simp] theorem State.modSeq_agenda (s : State) (n : Nat) (f : Seq → Seq) : (s.modSeq n f).agenda = s.agenda := rfl
@[simp] theorem State.modSeq_cur (s : State) (n : Nat) (f : Seq → Seq) : (s.modSeq n f).cur = s.cur := rfl
@[simp] theorem State.modSeq_now (s : State) (n : Nat) (f : Seq → Seq) : (s.modSeq n f).now = s.now := rfl
@[simp] theorem State.modSeq_mem (s : State) (n : Nat) (f : Seq → Seq) : (s.modSeq n f).mem = s.mem := rfl
@[simp] theorem State.modSeq_empty (s : State) (n : Nat) (f : Seq → Seq) : (s.modSeq n f).empty = s.empty := rfl
@[simp] theorem State.modSeq_soft (s : State) (n : Nat) (f : Seq → Seq) : (s.modSeq n f).soft = s.soft := rfl
@[simp] theorem State.modSeq_ctxs (s : State) (n : Nat) (f : Seq → Seq) : (s.modSeq n f).ctxs = s.ctxs := rfl
@[simp] theorem State.modSeq_kernels (s : State) (n : Nat) (f : Seq → Seq) : (s.modSeq n f).kernels = s.kernels := rfl
@[simp] theorem State.modSeq_dies (s : State) (n : Nat) (f : Seq → Seq) : (s.modSeq n f).dies = s.dies := rfl
@[simp] theorem State.modSeq_queues (s : State) (n : Nat) (f : Seq → Seq) : (s.modSeq n f).queues = s.queues := rfl
@[simp] theorem State.modSeq_bars (s : State) (n : Nat) (f : Seq → Seq) : (s.modSeq n f).bars = s.bars := rfl
@[simp] theorem State.modSeq_links (s : State) (n : Nat) (f : Seq → Seq) : (s.modSeq n f).links = s.links := rfl
@[simp] theorem State.modSeq_marks (s : State) (n : Nat) (f : Seq → Seq) : (s.modSeq n f).marks = s.marks := rfl
@[simp] theorem State.modSeq_landings (s : State) (n : Nat) (f : Seq → Seq) : (s.modSeq n f).landings = s.landings := rfl
@[simp] theorem State.modSeq_migs (s : State) (n : Nat) (f : Seq → Seq) : (s.modSeq n f).migs = s.migs := rfl
@[simp] theorem State.modSeq_owed (s : State) (n : Nat) (f : Seq → Seq) : (s.modSeq n f).owed = s.owed := rfl
@[simp] theorem State.modSeq_shares (s : State) (n : Nat) (f : Seq → Seq) : (s.modSeq n f).shares = s.shares := rfl
@[simp] theorem State.modSeq_aside (s : State) (n : Nat) (f : Seq → Seq) : (s.modSeq n f).aside = s.aside := rfl
@[simp] theorem State.modSeq_sumps (s : State) (n : Nat) (f : Seq → Seq) : (s.modSeq n f).sumps = s.sumps := rfl
@[simp] theorem State.modSeq_runCtr (s : State) (n : Nat) (f : Seq → Seq) : (s.modSeq n f).runCtr = s.runCtr := rfl
@[simp] theorem State.modSeq_ctxCtr (s : State) (n : Nat) (f : Seq → Seq) : (s.modSeq n f).ctxCtr = s.ctxCtr := rfl
@[simp] theorem State.modSeq_kernCtr (s : State) (n : Nat) (f : Seq → Seq) : (s.modSeq n f).kernCtr = s.kernCtr := rfl
@[simp] theorem State.modSeq_pkg (s : State) (n : Nat) (f : Seq → Seq) : (s.modSeq n f).pkg = s.pkg := rfl

/-! ## setX -/

@[simp] theorem State.setX_agenda (s : State) (n : Nat) (r : Reg) (v : Word) : (s.setX n r v).agenda = s.agenda := rfl
@[simp] theorem State.setX_cur (s : State) (n : Nat) (r : Reg) (v : Word) : (s.setX n r v).cur = s.cur := rfl
@[simp] theorem State.setX_now (s : State) (n : Nat) (r : Reg) (v : Word) : (s.setX n r v).now = s.now := rfl
@[simp] theorem State.setX_mem (s : State) (n : Nat) (r : Reg) (v : Word) : (s.setX n r v).mem = s.mem := rfl
@[simp] theorem State.setX_empty (s : State) (n : Nat) (r : Reg) (v : Word) : (s.setX n r v).empty = s.empty := rfl
@[simp] theorem State.setX_soft (s : State) (n : Nat) (r : Reg) (v : Word) : (s.setX n r v).soft = s.soft := rfl
@[simp] theorem State.setX_ctxs (s : State) (n : Nat) (r : Reg) (v : Word) : (s.setX n r v).ctxs = s.ctxs := rfl
@[simp] theorem State.setX_kernels (s : State) (n : Nat) (r : Reg) (v : Word) : (s.setX n r v).kernels = s.kernels := rfl
@[simp] theorem State.setX_dies (s : State) (n : Nat) (r : Reg) (v : Word) : (s.setX n r v).dies = s.dies := rfl
@[simp] theorem State.setX_queues (s : State) (n : Nat) (r : Reg) (v : Word) : (s.setX n r v).queues = s.queues := rfl
@[simp] theorem State.setX_bars (s : State) (n : Nat) (r : Reg) (v : Word) : (s.setX n r v).bars = s.bars := rfl
@[simp] theorem State.setX_links (s : State) (n : Nat) (r : Reg) (v : Word) : (s.setX n r v).links = s.links := rfl
@[simp] theorem State.setX_marks (s : State) (n : Nat) (r : Reg) (v : Word) : (s.setX n r v).marks = s.marks := rfl
@[simp] theorem State.setX_landings (s : State) (n : Nat) (r : Reg) (v : Word) : (s.setX n r v).landings = s.landings := rfl
@[simp] theorem State.setX_migs (s : State) (n : Nat) (r : Reg) (v : Word) : (s.setX n r v).migs = s.migs := rfl
@[simp] theorem State.setX_owed (s : State) (n : Nat) (r : Reg) (v : Word) : (s.setX n r v).owed = s.owed := rfl
@[simp] theorem State.setX_shares (s : State) (n : Nat) (r : Reg) (v : Word) : (s.setX n r v).shares = s.shares := rfl
@[simp] theorem State.setX_aside (s : State) (n : Nat) (r : Reg) (v : Word) : (s.setX n r v).aside = s.aside := rfl
@[simp] theorem State.setX_sumps (s : State) (n : Nat) (r : Reg) (v : Word) : (s.setX n r v).sumps = s.sumps := rfl
@[simp] theorem State.setX_runCtr (s : State) (n : Nat) (r : Reg) (v : Word) : (s.setX n r v).runCtr = s.runCtr := rfl
@[simp] theorem State.setX_ctxCtr (s : State) (n : Nat) (r : Reg) (v : Word) : (s.setX n r v).ctxCtr = s.ctxCtr := rfl
@[simp] theorem State.setX_kernCtr (s : State) (n : Nat) (r : Reg) (v : Word) : (s.setX n r v).kernCtr = s.kernCtr := rfl
@[simp] theorem State.setX_pkg (s : State) (n : Nat) (r : Reg) (v : Word) : (s.setX n r v).pkg = s.pkg := rfl

/-! ## setDie -/

@[simp] theorem State.setDie_agenda (s : State) (d : Nat) (x : Die) : (s.setDie d x).agenda = s.agenda := rfl
@[simp] theorem State.setDie_cur (s : State) (d : Nat) (x : Die) : (s.setDie d x).cur = s.cur := rfl
@[simp] theorem State.setDie_now (s : State) (d : Nat) (x : Die) : (s.setDie d x).now = s.now := rfl
@[simp] theorem State.setDie_mem (s : State) (d : Nat) (x : Die) : (s.setDie d x).mem = s.mem := rfl
@[simp] theorem State.setDie_empty (s : State) (d : Nat) (x : Die) : (s.setDie d x).empty = s.empty := rfl
@[simp] theorem State.setDie_soft (s : State) (d : Nat) (x : Die) : (s.setDie d x).soft = s.soft := rfl
@[simp] theorem State.setDie_seqs (s : State) (d : Nat) (x : Die) : (s.setDie d x).seqs = s.seqs := rfl
@[simp] theorem State.setDie_ctxs (s : State) (d : Nat) (x : Die) : (s.setDie d x).ctxs = s.ctxs := rfl
@[simp] theorem State.setDie_kernels (s : State) (d : Nat) (x : Die) : (s.setDie d x).kernels = s.kernels := rfl
@[simp] theorem State.setDie_queues (s : State) (d : Nat) (x : Die) : (s.setDie d x).queues = s.queues := rfl
@[simp] theorem State.setDie_bars (s : State) (d : Nat) (x : Die) : (s.setDie d x).bars = s.bars := rfl
@[simp] theorem State.setDie_links (s : State) (d : Nat) (x : Die) : (s.setDie d x).links = s.links := rfl
@[simp] theorem State.setDie_marks (s : State) (d : Nat) (x : Die) : (s.setDie d x).marks = s.marks := rfl
@[simp] theorem State.setDie_landings (s : State) (d : Nat) (x : Die) : (s.setDie d x).landings = s.landings := rfl
@[simp] theorem State.setDie_migs (s : State) (d : Nat) (x : Die) : (s.setDie d x).migs = s.migs := rfl
@[simp] theorem State.setDie_owed (s : State) (d : Nat) (x : Die) : (s.setDie d x).owed = s.owed := rfl
@[simp] theorem State.setDie_shares (s : State) (d : Nat) (x : Die) : (s.setDie d x).shares = s.shares := rfl
@[simp] theorem State.setDie_aside (s : State) (d : Nat) (x : Die) : (s.setDie d x).aside = s.aside := rfl
@[simp] theorem State.setDie_sumps (s : State) (d : Nat) (x : Die) : (s.setDie d x).sumps = s.sumps := rfl
@[simp] theorem State.setDie_runCtr (s : State) (d : Nat) (x : Die) : (s.setDie d x).runCtr = s.runCtr := rfl
@[simp] theorem State.setDie_ctxCtr (s : State) (d : Nat) (x : Die) : (s.setDie d x).ctxCtr = s.ctxCtr := rfl
@[simp] theorem State.setDie_kernCtr (s : State) (d : Nat) (x : Die) : (s.setDie d x).kernCtr = s.kernCtr := rfl
@[simp] theorem State.setDie_pkg (s : State) (d : Nat) (x : Die) : (s.setDie d x).pkg = s.pkg := rfl

/-! ## modDie -/

@[simp] theorem State.modDie_agenda (s : State) (d : Nat) (f : Die → Die) : (s.modDie d f).agenda = s.agenda := rfl
@[simp] theorem State.modDie_cur (s : State) (d : Nat) (f : Die → Die) : (s.modDie d f).cur = s.cur := rfl
@[simp] theorem State.modDie_now (s : State) (d : Nat) (f : Die → Die) : (s.modDie d f).now = s.now := rfl
@[simp] theorem State.modDie_mem (s : State) (d : Nat) (f : Die → Die) : (s.modDie d f).mem = s.mem := rfl
@[simp] theorem State.modDie_empty (s : State) (d : Nat) (f : Die → Die) : (s.modDie d f).empty = s.empty := rfl
@[simp] theorem State.modDie_soft (s : State) (d : Nat) (f : Die → Die) : (s.modDie d f).soft = s.soft := rfl
@[simp] theorem State.modDie_seqs (s : State) (d : Nat) (f : Die → Die) : (s.modDie d f).seqs = s.seqs := rfl
@[simp] theorem State.modDie_ctxs (s : State) (d : Nat) (f : Die → Die) : (s.modDie d f).ctxs = s.ctxs := rfl
@[simp] theorem State.modDie_kernels (s : State) (d : Nat) (f : Die → Die) : (s.modDie d f).kernels = s.kernels := rfl
@[simp] theorem State.modDie_queues (s : State) (d : Nat) (f : Die → Die) : (s.modDie d f).queues = s.queues := rfl
@[simp] theorem State.modDie_bars (s : State) (d : Nat) (f : Die → Die) : (s.modDie d f).bars = s.bars := rfl
@[simp] theorem State.modDie_links (s : State) (d : Nat) (f : Die → Die) : (s.modDie d f).links = s.links := rfl
@[simp] theorem State.modDie_marks (s : State) (d : Nat) (f : Die → Die) : (s.modDie d f).marks = s.marks := rfl
@[simp] theorem State.modDie_landings (s : State) (d : Nat) (f : Die → Die) : (s.modDie d f).landings = s.landings := rfl
@[simp] theorem State.modDie_migs (s : State) (d : Nat) (f : Die → Die) : (s.modDie d f).migs = s.migs := rfl
@[simp] theorem State.modDie_owed (s : State) (d : Nat) (f : Die → Die) : (s.modDie d f).owed = s.owed := rfl
@[simp] theorem State.modDie_shares (s : State) (d : Nat) (f : Die → Die) : (s.modDie d f).shares = s.shares := rfl
@[simp] theorem State.modDie_aside (s : State) (d : Nat) (f : Die → Die) : (s.modDie d f).aside = s.aside := rfl
@[simp] theorem State.modDie_sumps (s : State) (d : Nat) (f : Die → Die) : (s.modDie d f).sumps = s.sumps := rfl
@[simp] theorem State.modDie_runCtr (s : State) (d : Nat) (f : Die → Die) : (s.modDie d f).runCtr = s.runCtr := rfl
@[simp] theorem State.modDie_ctxCtr (s : State) (d : Nat) (f : Die → Die) : (s.modDie d f).ctxCtr = s.ctxCtr := rfl
@[simp] theorem State.modDie_kernCtr (s : State) (d : Nat) (f : Die → Die) : (s.modDie d f).kernCtr = s.kernCtr := rfl
@[simp] theorem State.modDie_pkg (s : State) (d : Nat) (f : Die → Die) : (s.modDie d f).pkg = s.pkg := rfl

/-! ## modCtx -/

@[simp] theorem State.modCtx_agenda (s : State) (c : Nat) (f : Ctx → Ctx) : (s.modCtx c f).agenda = s.agenda := rfl
@[simp] theorem State.modCtx_cur (s : State) (c : Nat) (f : Ctx → Ctx) : (s.modCtx c f).cur = s.cur := rfl
@[simp] theorem State.modCtx_now (s : State) (c : Nat) (f : Ctx → Ctx) : (s.modCtx c f).now = s.now := rfl
@[simp] theorem State.modCtx_mem (s : State) (c : Nat) (f : Ctx → Ctx) : (s.modCtx c f).mem = s.mem := rfl
@[simp] theorem State.modCtx_empty (s : State) (c : Nat) (f : Ctx → Ctx) : (s.modCtx c f).empty = s.empty := rfl
@[simp] theorem State.modCtx_soft (s : State) (c : Nat) (f : Ctx → Ctx) : (s.modCtx c f).soft = s.soft := rfl
@[simp] theorem State.modCtx_seqs (s : State) (c : Nat) (f : Ctx → Ctx) : (s.modCtx c f).seqs = s.seqs := rfl
@[simp] theorem State.modCtx_kernels (s : State) (c : Nat) (f : Ctx → Ctx) : (s.modCtx c f).kernels = s.kernels := rfl
@[simp] theorem State.modCtx_dies (s : State) (c : Nat) (f : Ctx → Ctx) : (s.modCtx c f).dies = s.dies := rfl
@[simp] theorem State.modCtx_queues (s : State) (c : Nat) (f : Ctx → Ctx) : (s.modCtx c f).queues = s.queues := rfl
@[simp] theorem State.modCtx_bars (s : State) (c : Nat) (f : Ctx → Ctx) : (s.modCtx c f).bars = s.bars := rfl
@[simp] theorem State.modCtx_links (s : State) (c : Nat) (f : Ctx → Ctx) : (s.modCtx c f).links = s.links := rfl
@[simp] theorem State.modCtx_marks (s : State) (c : Nat) (f : Ctx → Ctx) : (s.modCtx c f).marks = s.marks := rfl
@[simp] theorem State.modCtx_landings (s : State) (c : Nat) (f : Ctx → Ctx) : (s.modCtx c f).landings = s.landings := rfl
@[simp] theorem State.modCtx_migs (s : State) (c : Nat) (f : Ctx → Ctx) : (s.modCtx c f).migs = s.migs := rfl
@[simp] theorem State.modCtx_owed (s : State) (c : Nat) (f : Ctx → Ctx) : (s.modCtx c f).owed = s.owed := rfl
@[simp] theorem State.modCtx_shares (s : State) (c : Nat) (f : Ctx → Ctx) : (s.modCtx c f).shares = s.shares := rfl
@[simp] theorem State.modCtx_aside (s : State) (c : Nat) (f : Ctx → Ctx) : (s.modCtx c f).aside = s.aside := rfl
@[simp] theorem State.modCtx_sumps (s : State) (c : Nat) (f : Ctx → Ctx) : (s.modCtx c f).sumps = s.sumps := rfl
@[simp] theorem State.modCtx_runCtr (s : State) (c : Nat) (f : Ctx → Ctx) : (s.modCtx c f).runCtr = s.runCtr := rfl
@[simp] theorem State.modCtx_ctxCtr (s : State) (c : Nat) (f : Ctx → Ctx) : (s.modCtx c f).ctxCtr = s.ctxCtr := rfl
@[simp] theorem State.modCtx_kernCtr (s : State) (c : Nat) (f : Ctx → Ctx) : (s.modCtx c f).kernCtr = s.kernCtr := rfl
@[simp] theorem State.modCtx_pkg (s : State) (c : Nat) (f : Ctx → Ctx) : (s.modCtx c f).pkg = s.pkg := rfl

/-! ## modKernel -/

@[simp] theorem State.modKernel_agenda (s : State) (k : Nat) (f : Kernel → Kernel) : (s.modKernel k f).agenda = s.agenda := rfl
@[simp] theorem State.modKernel_cur (s : State) (k : Nat) (f : Kernel → Kernel) : (s.modKernel k f).cur = s.cur := rfl
@[simp] theorem State.modKernel_now (s : State) (k : Nat) (f : Kernel → Kernel) : (s.modKernel k f).now = s.now := rfl
@[simp] theorem State.modKernel_mem (s : State) (k : Nat) (f : Kernel → Kernel) : (s.modKernel k f).mem = s.mem := rfl
@[simp] theorem State.modKernel_empty (s : State) (k : Nat) (f : Kernel → Kernel) : (s.modKernel k f).empty = s.empty := rfl
@[simp] theorem State.modKernel_soft (s : State) (k : Nat) (f : Kernel → Kernel) : (s.modKernel k f).soft = s.soft := rfl
@[simp] theorem State.modKernel_seqs (s : State) (k : Nat) (f : Kernel → Kernel) : (s.modKernel k f).seqs = s.seqs := rfl
@[simp] theorem State.modKernel_ctxs (s : State) (k : Nat) (f : Kernel → Kernel) : (s.modKernel k f).ctxs = s.ctxs := rfl
@[simp] theorem State.modKernel_dies (s : State) (k : Nat) (f : Kernel → Kernel) : (s.modKernel k f).dies = s.dies := rfl
@[simp] theorem State.modKernel_queues (s : State) (k : Nat) (f : Kernel → Kernel) : (s.modKernel k f).queues = s.queues := rfl
@[simp] theorem State.modKernel_bars (s : State) (k : Nat) (f : Kernel → Kernel) : (s.modKernel k f).bars = s.bars := rfl
@[simp] theorem State.modKernel_links (s : State) (k : Nat) (f : Kernel → Kernel) : (s.modKernel k f).links = s.links := rfl
@[simp] theorem State.modKernel_marks (s : State) (k : Nat) (f : Kernel → Kernel) : (s.modKernel k f).marks = s.marks := rfl
@[simp] theorem State.modKernel_landings (s : State) (k : Nat) (f : Kernel → Kernel) : (s.modKernel k f).landings = s.landings := rfl
@[simp] theorem State.modKernel_migs (s : State) (k : Nat) (f : Kernel → Kernel) : (s.modKernel k f).migs = s.migs := rfl
@[simp] theorem State.modKernel_owed (s : State) (k : Nat) (f : Kernel → Kernel) : (s.modKernel k f).owed = s.owed := rfl
@[simp] theorem State.modKernel_shares (s : State) (k : Nat) (f : Kernel → Kernel) : (s.modKernel k f).shares = s.shares := rfl
@[simp] theorem State.modKernel_aside (s : State) (k : Nat) (f : Kernel → Kernel) : (s.modKernel k f).aside = s.aside := rfl
@[simp] theorem State.modKernel_sumps (s : State) (k : Nat) (f : Kernel → Kernel) : (s.modKernel k f).sumps = s.sumps := rfl
@[simp] theorem State.modKernel_runCtr (s : State) (k : Nat) (f : Kernel → Kernel) : (s.modKernel k f).runCtr = s.runCtr := rfl
@[simp] theorem State.modKernel_ctxCtr (s : State) (k : Nat) (f : Kernel → Kernel) : (s.modKernel k f).ctxCtr = s.ctxCtr := rfl
@[simp] theorem State.modKernel_kernCtr (s : State) (k : Nat) (f : Kernel → Kernel) : (s.modKernel k f).kernCtr = s.kernCtr := rfl
@[simp] theorem State.modKernel_pkg (s : State) (k : Nat) (f : Kernel → Kernel) : (s.modKernel k f).pkg = s.pkg := rfl

/-! ## setQueue -/

@[simp] theorem State.setQueue_agenda (s : State) (x : Queue) : (s.setQueue x).agenda = s.agenda := rfl
@[simp] theorem State.setQueue_cur (s : State) (x : Queue) : (s.setQueue x).cur = s.cur := rfl
@[simp] theorem State.setQueue_now (s : State) (x : Queue) : (s.setQueue x).now = s.now := rfl
@[simp] theorem State.setQueue_mem (s : State) (x : Queue) : (s.setQueue x).mem = s.mem := rfl
@[simp] theorem State.setQueue_empty (s : State) (x : Queue) : (s.setQueue x).empty = s.empty := rfl
@[simp] theorem State.setQueue_soft (s : State) (x : Queue) : (s.setQueue x).soft = s.soft := rfl
@[simp] theorem State.setQueue_seqs (s : State) (x : Queue) : (s.setQueue x).seqs = s.seqs := rfl
@[simp] theorem State.setQueue_ctxs (s : State) (x : Queue) : (s.setQueue x).ctxs = s.ctxs := rfl
@[simp] theorem State.setQueue_kernels (s : State) (x : Queue) : (s.setQueue x).kernels = s.kernels := rfl
@[simp] theorem State.setQueue_dies (s : State) (x : Queue) : (s.setQueue x).dies = s.dies := rfl
@[simp] theorem State.setQueue_bars (s : State) (x : Queue) : (s.setQueue x).bars = s.bars := rfl
@[simp] theorem State.setQueue_links (s : State) (x : Queue) : (s.setQueue x).links = s.links := rfl
@[simp] theorem State.setQueue_marks (s : State) (x : Queue) : (s.setQueue x).marks = s.marks := rfl
@[simp] theorem State.setQueue_landings (s : State) (x : Queue) : (s.setQueue x).landings = s.landings := rfl
@[simp] theorem State.setQueue_migs (s : State) (x : Queue) : (s.setQueue x).migs = s.migs := rfl
@[simp] theorem State.setQueue_owed (s : State) (x : Queue) : (s.setQueue x).owed = s.owed := rfl
@[simp] theorem State.setQueue_shares (s : State) (x : Queue) : (s.setQueue x).shares = s.shares := rfl
@[simp] theorem State.setQueue_aside (s : State) (x : Queue) : (s.setQueue x).aside = s.aside := rfl
@[simp] theorem State.setQueue_sumps (s : State) (x : Queue) : (s.setQueue x).sumps = s.sumps := rfl
@[simp] theorem State.setQueue_runCtr (s : State) (x : Queue) : (s.setQueue x).runCtr = s.runCtr := rfl
@[simp] theorem State.setQueue_ctxCtr (s : State) (x : Queue) : (s.setQueue x).ctxCtr = s.ctxCtr := rfl
@[simp] theorem State.setQueue_kernCtr (s : State) (x : Queue) : (s.setQueue x).kernCtr = s.kernCtr := rfl
@[simp] theorem State.setQueue_pkg (s : State) (x : Queue) : (s.setQueue x).pkg = s.pkg := rfl

/-! ## poke -/

@[simp] theorem State.poke_agenda (s : State) (k : Nat) (bs : List Byte) : (s.poke k bs).agenda = s.agenda := rfl
@[simp] theorem State.poke_cur (s : State) (k : Nat) (bs : List Byte) : (s.poke k bs).cur = s.cur := rfl
@[simp] theorem State.poke_now (s : State) (k : Nat) (bs : List Byte) : (s.poke k bs).now = s.now := rfl
@[simp] theorem State.poke_empty (s : State) (k : Nat) (bs : List Byte) : (s.poke k bs).empty = s.empty := rfl
@[simp] theorem State.poke_ctxs (s : State) (k : Nat) (bs : List Byte) : (s.poke k bs).ctxs = s.ctxs := rfl
@[simp] theorem State.poke_kernels (s : State) (k : Nat) (bs : List Byte) : (s.poke k bs).kernels = s.kernels := rfl
@[simp] theorem State.poke_dies (s : State) (k : Nat) (bs : List Byte) : (s.poke k bs).dies = s.dies := rfl
@[simp] theorem State.poke_queues (s : State) (k : Nat) (bs : List Byte) : (s.poke k bs).queues = s.queues := rfl
@[simp] theorem State.poke_bars (s : State) (k : Nat) (bs : List Byte) : (s.poke k bs).bars = s.bars := rfl
@[simp] theorem State.poke_links (s : State) (k : Nat) (bs : List Byte) : (s.poke k bs).links = s.links := rfl
@[simp] theorem State.poke_marks (s : State) (k : Nat) (bs : List Byte) : (s.poke k bs).marks = s.marks := rfl
@[simp] theorem State.poke_landings (s : State) (k : Nat) (bs : List Byte) : (s.poke k bs).landings = s.landings := rfl
@[simp] theorem State.poke_migs (s : State) (k : Nat) (bs : List Byte) : (s.poke k bs).migs = s.migs := rfl
@[simp] theorem State.poke_owed (s : State) (k : Nat) (bs : List Byte) : (s.poke k bs).owed = s.owed := rfl
@[simp] theorem State.poke_shares (s : State) (k : Nat) (bs : List Byte) : (s.poke k bs).shares = s.shares := rfl
@[simp] theorem State.poke_sumps (s : State) (k : Nat) (bs : List Byte) : (s.poke k bs).sumps = s.sumps := rfl
@[simp] theorem State.poke_runCtr (s : State) (k : Nat) (bs : List Byte) : (s.poke k bs).runCtr = s.runCtr := rfl
@[simp] theorem State.poke_ctxCtr (s : State) (k : Nat) (bs : List Byte) : (s.poke k bs).ctxCtr = s.ctxCtr := rfl
@[simp] theorem State.poke_kernCtr (s : State) (k : Nat) (bs : List Byte) : (s.poke k bs).kernCtr = s.kernCtr := rfl
@[simp] theorem State.poke_pkg (s : State) (k : Nat) (bs : List Byte) : (s.poke k bs).pkg = s.pkg := rfl

/-! ## note -/

@[simp] theorem State.note_agenda (s : State) (k n : Nat) : (s.note k n).agenda = s.agenda := rfl
@[simp] theorem State.note_cur (s : State) (k n : Nat) : (s.note k n).cur = s.cur := rfl
@[simp] theorem State.note_now (s : State) (k n : Nat) : (s.note k n).now = s.now := rfl
@[simp] theorem State.note_mem (s : State) (k n : Nat) : (s.note k n).mem = s.mem := rfl
@[simp] theorem State.note_empty (s : State) (k n : Nat) : (s.note k n).empty = s.empty := rfl
@[simp] theorem State.note_soft (s : State) (k n : Nat) : (s.note k n).soft = s.soft := rfl
@[simp] theorem State.note_ctxs (s : State) (k n : Nat) : (s.note k n).ctxs = s.ctxs := rfl
@[simp] theorem State.note_kernels (s : State) (k n : Nat) : (s.note k n).kernels = s.kernels := rfl
@[simp] theorem State.note_dies (s : State) (k n : Nat) : (s.note k n).dies = s.dies := rfl
@[simp] theorem State.note_queues (s : State) (k n : Nat) : (s.note k n).queues = s.queues := rfl
@[simp] theorem State.note_bars (s : State) (k n : Nat) : (s.note k n).bars = s.bars := rfl
@[simp] theorem State.note_links (s : State) (k n : Nat) : (s.note k n).links = s.links := rfl
@[simp] theorem State.note_marks (s : State) (k n : Nat) : (s.note k n).marks = s.marks := rfl
@[simp] theorem State.note_landings (s : State) (k n : Nat) : (s.note k n).landings = s.landings := rfl
@[simp] theorem State.note_migs (s : State) (k n : Nat) : (s.note k n).migs = s.migs := rfl
@[simp] theorem State.note_owed (s : State) (k n : Nat) : (s.note k n).owed = s.owed := rfl
@[simp] theorem State.note_shares (s : State) (k n : Nat) : (s.note k n).shares = s.shares := rfl
@[simp] theorem State.note_sumps (s : State) (k n : Nat) : (s.note k n).sumps = s.sumps := rfl
@[simp] theorem State.note_runCtr (s : State) (k n : Nat) : (s.note k n).runCtr = s.runCtr := rfl
@[simp] theorem State.note_ctxCtr (s : State) (k n : Nat) : (s.note k n).ctxCtr = s.ctxCtr := rfl
@[simp] theorem State.note_kernCtr (s : State) (k n : Nat) : (s.note k n).kernCtr = s.kernCtr := rfl
@[simp] theorem State.note_pkg (s : State) (k n : Nat) : (s.note k n).pkg = s.pkg := rfl

/-! ## setLease -/

@[simp] theorem State.setLease_agenda (s : State) (d : Nat) (l : Lease) : (s.setLease d l).agenda = s.agenda := rfl
@[simp] theorem State.setLease_cur (s : State) (d : Nat) (l : Lease) : (s.setLease d l).cur = s.cur := rfl
@[simp] theorem State.setLease_now (s : State) (d : Nat) (l : Lease) : (s.setLease d l).now = s.now := rfl
@[simp] theorem State.setLease_mem (s : State) (d : Nat) (l : Lease) : (s.setLease d l).mem = s.mem := rfl
@[simp] theorem State.setLease_empty (s : State) (d : Nat) (l : Lease) : (s.setLease d l).empty = s.empty := rfl
@[simp] theorem State.setLease_soft (s : State) (d : Nat) (l : Lease) : (s.setLease d l).soft = s.soft := rfl
@[simp] theorem State.setLease_seqs (s : State) (d : Nat) (l : Lease) : (s.setLease d l).seqs = s.seqs := rfl
@[simp] theorem State.setLease_ctxs (s : State) (d : Nat) (l : Lease) : (s.setLease d l).ctxs = s.ctxs := rfl
@[simp] theorem State.setLease_kernels (s : State) (d : Nat) (l : Lease) : (s.setLease d l).kernels = s.kernels := rfl
@[simp] theorem State.setLease_queues (s : State) (d : Nat) (l : Lease) : (s.setLease d l).queues = s.queues := rfl
@[simp] theorem State.setLease_bars (s : State) (d : Nat) (l : Lease) : (s.setLease d l).bars = s.bars := rfl
@[simp] theorem State.setLease_links (s : State) (d : Nat) (l : Lease) : (s.setLease d l).links = s.links := rfl
@[simp] theorem State.setLease_marks (s : State) (d : Nat) (l : Lease) : (s.setLease d l).marks = s.marks := rfl
@[simp] theorem State.setLease_landings (s : State) (d : Nat) (l : Lease) : (s.setLease d l).landings = s.landings := rfl
@[simp] theorem State.setLease_migs (s : State) (d : Nat) (l : Lease) : (s.setLease d l).migs = s.migs := rfl
@[simp] theorem State.setLease_owed (s : State) (d : Nat) (l : Lease) : (s.setLease d l).owed = s.owed := rfl
@[simp] theorem State.setLease_shares (s : State) (d : Nat) (l : Lease) : (s.setLease d l).shares = s.shares := rfl
@[simp] theorem State.setLease_aside (s : State) (d : Nat) (l : Lease) : (s.setLease d l).aside = s.aside := rfl
@[simp] theorem State.setLease_sumps (s : State) (d : Nat) (l : Lease) : (s.setLease d l).sumps = s.sumps := rfl
@[simp] theorem State.setLease_runCtr (s : State) (d : Nat) (l : Lease) : (s.setLease d l).runCtr = s.runCtr := rfl
@[simp] theorem State.setLease_ctxCtr (s : State) (d : Nat) (l : Lease) : (s.setLease d l).ctxCtr = s.ctxCtr := rfl
@[simp] theorem State.setLease_kernCtr (s : State) (d : Nat) (l : Lease) : (s.setLease d l).kernCtr = s.kernCtr := rfl
@[simp] theorem State.setLease_pkg (s : State) (d : Nat) (l : Lease) : (s.setLease d l).pkg = s.pkg := rfl

/-! ## Seq.setX -/

@[simp] theorem Seq.setX_mode (q : Seq) (r : Reg) (v : Word) : (q.setX r v).mode = q.mode := by unfold Seq.setX; split <;> rfl
@[simp] theorem Seq.setX_kernel (q : Seq) (r : Reg) (v : Word) : (q.setX r v).kernel = q.kernel := by unfold Seq.setX; split <;> rfl
@[simp] theorem Seq.setX_ctx (q : Seq) (r : Reg) (v : Word) : (q.setX r v).ctx = q.ctx := by unfold Seq.setX; split <;> rfl
@[simp] theorem Seq.setX_priv (q : Seq) (r : Reg) (v : Word) : (q.setX r v).priv = q.priv := by unfold Seq.setX; split <;> rfl
@[simp] theorem Seq.setX_runId (q : Seq) (r : Reg) (v : Word) : (q.setX r v).runId = q.runId := by unfold Seq.setX; split <;> rfl
@[simp] theorem Seq.setX_pc (q : Seq) (r : Reg) (v : Word) : (q.setX r v).pc = q.pc := by unfold Seq.setX; split <;> rfl
@[simp] theorem Seq.setX_isn (q : Seq) (r : Reg) (v : Word) : (q.setX r v).isn = q.isn := by unfold Seq.setX; split <;> rfl
@[simp] theorem Seq.setX_vl (q : Seq) (r : Reg) (v : Word) : (q.setX r v).vl = q.vl := by unfold Seq.setX; split <;> rfl
@[simp] theorem Seq.setX_vtype (q : Seq) (r : Reg) (v : Word) : (q.setX r v).vtype = q.vtype := by unfold Seq.setX; split <;> rfl
@[simp] theorem Seq.setX_vcap (q : Seq) (r : Reg) (v : Word) : (q.setX r v).vcap = q.vcap := by unfold Seq.setX; split <;> rfl
@[simp] theorem Seq.setX_cmask0 (q : Seq) (r : Reg) (v : Word) : (q.setX r v).cmask0 = q.cmask0 := by unfold Seq.setX; split <;> rfl
@[simp] theorem Seq.setX_cmask1 (q : Seq) (r : Reg) (v : Word) : (q.setX r v).cmask1 = q.cmask1 := by unfold Seq.setX; split <;> rfl
@[simp] theorem Seq.setX_cvalid (q : Seq) (r : Reg) (v : Word) : (q.setX r v).cvalid = q.cvalid := by unfold Seq.setX; split <;> rfl
@[simp] theorem Seq.setX_cld (q : Seq) (r : Reg) (v : Word) : (q.setX r v).cld = q.cld := by unfold Seq.setX; split <;> rfl
@[simp] theorem Seq.setX_cgkey (q : Seq) (r : Reg) (v : Word) : (q.setX r v).cgkey = q.cgkey := by unfold Seq.setX; split <;> rfl
@[simp] theorem Seq.setX_cgdraw (q : Seq) (r : Reg) (v : Word) : (q.setX r v).cgdraw = q.cgdraw := by unfold Seq.setX; split <;> rfl
@[simp] theorem Seq.setX_cflags (q : Seq) (r : Reg) (v : Word) : (q.setX r v).cflags = q.cflags := by unfold Seq.setX; split <;> rfl
@[simp] theorem Seq.setX_cprio (q : Seq) (r : Reg) (v : Word) : (q.setX r v).cprio = q.cprio := by unfold Seq.setX; split <;> rfl
@[simp] theorem Seq.setX_stage (q : Seq) (r : Reg) (v : Word) : (q.setX r v).stage = q.stage := by unfold Seq.setX; split <;> rfl
@[simp] theorem Seq.setX_dieRank (q : Seq) (r : Reg) (v : Word) : (q.setX r v).dieRank = q.dieRank := by unfold Seq.setX; split <;> rfl
@[simp] theorem Seq.setX_seqRank (q : Seq) (r : Reg) (v : Word) : (q.setX r v).seqRank = q.seqRank := by unfold Seq.setX; split <;> rfl
@[simp] theorem Seq.setX_groups (q : Seq) (r : Reg) (v : Word) : (q.setX r v).groups = q.groups := by unfold Seq.setX; split <;> rfl
@[simp] theorem Seq.setX_winPa (q : Seq) (r : Reg) (v : Word) : (q.setX r v).winPa = q.winPa := by unfold Seq.setX; split <;> rfl
@[simp] theorem Seq.setX_winVa (q : Seq) (r : Reg) (v : Word) : (q.setX r v).winVa = q.winVa := by unfold Seq.setX; split <;> rfl
@[simp] theorem Seq.setX_loops (q : Seq) (r : Reg) (v : Word) : (q.setX r v).loops = q.loops := by unfold Seq.setX; split <;> rfl
@[simp] theorem Seq.setX_lbuf (q : Seq) (r : Reg) (v : Word) : (q.setX r v).lbuf = q.lbuf := by unfold Seq.setX; split <;> rfl
@[simp] theorem Seq.setX_td (q : Seq) (r : Reg) (v : Word) : (q.setX r v).td = q.td := by unfold Seq.setX; split <;> rfl
@[simp] theorem Seq.setX_sqr (q : Seq) (r : Reg) (v : Word) : (q.setX r v).sqr = q.sqr := by unfold Seq.setX; split <;> rfl
@[simp] theorem Seq.setX_copyLog (q : Seq) (r : Reg) (v : Word) : (q.setX r v).copyLog = q.copyLog := by unfold Seq.setX; split <;> rfl
@[simp] theorem Seq.setX_bkpt (q : Seq) (r : Reg) (v : Word) : (q.setX r v).bkpt = q.bkpt := by unfold Seq.setX; split <;> rfl
@[simp] theorem Seq.setX_bkSkip (q : Seq) (r : Reg) (v : Word) : (q.setX r v).bkSkip = q.bkSkip := by unfold Seq.setX; split <;> rfl
@[simp] theorem Seq.setX_monitor (q : Seq) (r : Reg) (v : Word) : (q.setX r v).monitor = q.monitor := by unfold Seq.setX; split <;> rfl
@[simp] theorem Seq.setX_sleep (q : Seq) (r : Reg) (v : Word) : (q.setX r v).sleep = q.sleep := by unfold Seq.setX; split <;> rfl
@[simp] theorem Seq.setX_logged (q : Seq) (r : Reg) (v : Word) : (q.setX r v).logged = q.logged := by unfold Seq.setX; split <;> rfl
@[simp] theorem Seq.setX_inflight (q : Seq) (r : Reg) (v : Word) : (q.setX r v).inflight = q.inflight := by unfold Seq.setX; split <;> rfl
@[simp] theorem Seq.setX_versions (q : Seq) (r : Reg) (v : Word) : (q.setX r v).versions = q.versions := by unfold Seq.setX; split <;> rfl
@[simp] theorem Seq.setX_gtraps (q : Seq) (r : Reg) (v : Word) : (q.setX r v).gtraps = q.gtraps := by unfold Seq.setX; split <;> rfl
@[simp] theorem Seq.setX_pend (q : Seq) (r : Reg) (v : Word) : (q.setX r v).pend = q.pend := by unfold Seq.setX; split <;> rfl
@[simp] theorem Seq.setX_take (q : Seq) (r : Reg) (v : Word) : (q.setX r v).take = q.take := by unfold Seq.setX; split <;> rfl
@[simp] theorem Seq.setX_taken (q : Seq) (r : Reg) (v : Word) : (q.setX r v).taken = q.taken := by unfold Seq.setX; split <;> rfl
@[simp] theorem Seq.setX_softPt (q : Seq) (r : Reg) (v : Word) : (q.setX r v).softPt = q.softPt := by unfold Seq.setX; split <;> rfl
@[simp] theorem Seq.setX_dirtyC (q : Seq) (r : Reg) (v : Word) : (q.setX r v).dirtyC = q.dirtyC := by unfold Seq.setX; split <;> rfl
@[simp] theorem Seq.setX_dirtyGran (q : Seq) (r : Reg) (v : Word) : (q.setX r v).dirtyGran = q.dirtyGran := by unfold Seq.setX; split <;> rfl
@[simp] theorem Seq.setX_hwm (q : Seq) (r : Reg) (v : Word) : (q.setX r v).hwm = q.hwm := by unfold Seq.setX; split <;> rfl
@[simp] theorem Seq.setX_lastLoad (q : Seq) (r : Reg) (v : Word) : (q.setX r v).lastLoad = q.lastLoad := by unfold Seq.setX; split <;> rfl
@[simp] theorem Seq.setX_fresh (q : Seq) (r : Reg) (v : Word) : (q.setX r v).fresh = q.fresh := by unfold Seq.setX; split <;> rfl
@[simp] theorem Seq.setX_held (q : Seq) (r : Reg) (v : Word) : (q.setX r v).held = q.held := by unfold Seq.setX; split <;> rfl
@[simp] theorem Seq.setX_heldNum (q : Seq) (r : Reg) (v : Word) : (q.setX r v).heldNum = q.heldNum := by unfold Seq.setX; split <;> rfl
@[simp] theorem Seq.setX_grp (q : Seq) (r : Reg) (v : Word) : (q.setX r v).grp = q.grp := by unfold Seq.setX; split <;> rfl
@[simp] theorem Seq.setX_reads (q : Seq) (r : Reg) (v : Word) : (q.setX r v).reads = q.reads := by unfold Seq.setX; split <;> rfl
@[simp] theorem Seq.setX_kept (q : Seq) (r : Reg) (v : Word) : (q.setX r v).kept = q.kept := by unfold Seq.setX; split <;> rfl
@[simp] theorem Seq.setX_inv (q : Seq) (r : Reg) (v : Word) : (q.setX r v).inv = q.inv := by unfold Seq.setX; split <;> rfl
@[simp] theorem Seq.setX_stopping (q : Seq) (r : Reg) (v : Word) : (q.setX r v).stopping = q.stopping := by unfold Seq.setX; split <;> rfl

/-! ## Seq.arrive -/

@[simp] theorem Seq.arrive_mode (q : Seq) (a : Word) : (q.arrive a).mode = q.mode := rfl
@[simp] theorem Seq.arrive_kernel (q : Seq) (a : Word) : (q.arrive a).kernel = q.kernel := rfl
@[simp] theorem Seq.arrive_ctx (q : Seq) (a : Word) : (q.arrive a).ctx = q.ctx := rfl
@[simp] theorem Seq.arrive_priv (q : Seq) (a : Word) : (q.arrive a).priv = q.priv := rfl
@[simp] theorem Seq.arrive_runId (q : Seq) (a : Word) : (q.arrive a).runId = q.runId := rfl
@[simp] theorem Seq.arrive_x (q : Seq) (a : Word) : (q.arrive a).x = q.x := rfl
@[simp] theorem Seq.arrive_isn (q : Seq) (a : Word) : (q.arrive a).isn = q.isn := rfl
@[simp] theorem Seq.arrive_vl (q : Seq) (a : Word) : (q.arrive a).vl = q.vl := rfl
@[simp] theorem Seq.arrive_vtype (q : Seq) (a : Word) : (q.arrive a).vtype = q.vtype := rfl
@[simp] theorem Seq.arrive_vcap (q : Seq) (a : Word) : (q.arrive a).vcap = q.vcap := rfl
@[simp] theorem Seq.arrive_cmask0 (q : Seq) (a : Word) : (q.arrive a).cmask0 = q.cmask0 := rfl
@[simp] theorem Seq.arrive_cmask1 (q : Seq) (a : Word) : (q.arrive a).cmask1 = q.cmask1 := rfl
@[simp] theorem Seq.arrive_cvalid (q : Seq) (a : Word) : (q.arrive a).cvalid = q.cvalid := rfl
@[simp] theorem Seq.arrive_cld (q : Seq) (a : Word) : (q.arrive a).cld = q.cld := rfl
@[simp] theorem Seq.arrive_cgkey (q : Seq) (a : Word) : (q.arrive a).cgkey = q.cgkey := rfl
@[simp] theorem Seq.arrive_cgdraw (q : Seq) (a : Word) : (q.arrive a).cgdraw = q.cgdraw := rfl
@[simp] theorem Seq.arrive_cflags (q : Seq) (a : Word) : (q.arrive a).cflags = q.cflags := rfl
@[simp] theorem Seq.arrive_cprio (q : Seq) (a : Word) : (q.arrive a).cprio = q.cprio := rfl
@[simp] theorem Seq.arrive_stage (q : Seq) (a : Word) : (q.arrive a).stage = q.stage := rfl
@[simp] theorem Seq.arrive_dieRank (q : Seq) (a : Word) : (q.arrive a).dieRank = q.dieRank := rfl
@[simp] theorem Seq.arrive_seqRank (q : Seq) (a : Word) : (q.arrive a).seqRank = q.seqRank := rfl
@[simp] theorem Seq.arrive_groups (q : Seq) (a : Word) : (q.arrive a).groups = q.groups := rfl
@[simp] theorem Seq.arrive_winPa (q : Seq) (a : Word) : (q.arrive a).winPa = q.winPa := rfl
@[simp] theorem Seq.arrive_winVa (q : Seq) (a : Word) : (q.arrive a).winVa = q.winVa := rfl
@[simp] theorem Seq.arrive_td (q : Seq) (a : Word) : (q.arrive a).td = q.td := rfl
@[simp] theorem Seq.arrive_sqr (q : Seq) (a : Word) : (q.arrive a).sqr = q.sqr := rfl
@[simp] theorem Seq.arrive_copyLog (q : Seq) (a : Word) : (q.arrive a).copyLog = q.copyLog := rfl
@[simp] theorem Seq.arrive_bkpt (q : Seq) (a : Word) : (q.arrive a).bkpt = q.bkpt := rfl
@[simp] theorem Seq.arrive_monitor (q : Seq) (a : Word) : (q.arrive a).monitor = q.monitor := rfl
@[simp] theorem Seq.arrive_sleep (q : Seq) (a : Word) : (q.arrive a).sleep = q.sleep := rfl
@[simp] theorem Seq.arrive_inflight (q : Seq) (a : Word) : (q.arrive a).inflight = q.inflight := rfl
@[simp] theorem Seq.arrive_versions (q : Seq) (a : Word) : (q.arrive a).versions = q.versions := rfl
@[simp] theorem Seq.arrive_gtraps (q : Seq) (a : Word) : (q.arrive a).gtraps = q.gtraps := rfl
@[simp] theorem Seq.arrive_pend (q : Seq) (a : Word) : (q.arrive a).pend = q.pend := rfl
@[simp] theorem Seq.arrive_take (q : Seq) (a : Word) : (q.arrive a).take = q.take := rfl
@[simp] theorem Seq.arrive_taken (q : Seq) (a : Word) : (q.arrive a).taken = q.taken := rfl
@[simp] theorem Seq.arrive_dirtyX (q : Seq) (a : Word) : (q.arrive a).dirtyX = q.dirtyX := rfl
@[simp] theorem Seq.arrive_dirtyC (q : Seq) (a : Word) : (q.arrive a).dirtyC = q.dirtyC := rfl
@[simp] theorem Seq.arrive_dirtyGran (q : Seq) (a : Word) : (q.arrive a).dirtyGran = q.dirtyGran := rfl
@[simp] theorem Seq.arrive_hwm (q : Seq) (a : Word) : (q.arrive a).hwm = q.hwm := rfl
@[simp] theorem Seq.arrive_lastLoad (q : Seq) (a : Word) : (q.arrive a).lastLoad = q.lastLoad := rfl
@[simp] theorem Seq.arrive_held (q : Seq) (a : Word) : (q.arrive a).held = q.held := rfl
@[simp] theorem Seq.arrive_heldNum (q : Seq) (a : Word) : (q.arrive a).heldNum = q.heldNum := rfl
@[simp] theorem Seq.arrive_grp (q : Seq) (a : Word) : (q.arrive a).grp = q.grp := rfl
@[simp] theorem Seq.arrive_reads (q : Seq) (a : Word) : (q.arrive a).reads = q.reads := rfl
@[simp] theorem Seq.arrive_kept (q : Seq) (a : Word) : (q.arrive a).kept = q.kept := rfl
@[simp] theorem Seq.arrive_inv (q : Seq) (a : Word) : (q.arrive a).inv = q.inv := rfl
@[simp] theorem Seq.arrive_stopping (q : Seq) (a : Word) : (q.arrive a).stopping = q.stopping := rfl

/-! ## Seq.retire -/

@[simp] theorem Seq.retire_mode (q : Seq) (i : Instr) (c : Ctl) : (q.retire i c).mode = q.mode := by
  unfold Seq.retire; dsimp only; split <;> (try split) <;> rfl
@[simp] theorem Seq.retire_kernel (q : Seq) (i : Instr) (c : Ctl) : (q.retire i c).kernel = q.kernel := by
  unfold Seq.retire; dsimp only; split <;> (try split) <;> rfl
@[simp] theorem Seq.retire_ctx (q : Seq) (i : Instr) (c : Ctl) : (q.retire i c).ctx = q.ctx := by
  unfold Seq.retire; dsimp only; split <;> (try split) <;> rfl
@[simp] theorem Seq.retire_priv (q : Seq) (i : Instr) (c : Ctl) : (q.retire i c).priv = q.priv := by
  unfold Seq.retire; dsimp only; split <;> (try split) <;> rfl
@[simp] theorem Seq.retire_runId (q : Seq) (i : Instr) (c : Ctl) : (q.retire i c).runId = q.runId := by
  unfold Seq.retire; dsimp only; split <;> (try split) <;> rfl
@[simp] theorem Seq.retire_x (q : Seq) (i : Instr) (c : Ctl) : (q.retire i c).x = q.x := by
  unfold Seq.retire; dsimp only; split <;> (try split) <;> rfl
@[simp] theorem Seq.retire_vl (q : Seq) (i : Instr) (c : Ctl) : (q.retire i c).vl = q.vl := by
  unfold Seq.retire; dsimp only; split <;> (try split) <;> rfl
@[simp] theorem Seq.retire_vtype (q : Seq) (i : Instr) (c : Ctl) : (q.retire i c).vtype = q.vtype := by
  unfold Seq.retire; dsimp only; split <;> (try split) <;> rfl
@[simp] theorem Seq.retire_vcap (q : Seq) (i : Instr) (c : Ctl) : (q.retire i c).vcap = q.vcap := by
  unfold Seq.retire; dsimp only; split <;> (try split) <;> rfl
@[simp] theorem Seq.retire_cmask0 (q : Seq) (i : Instr) (c : Ctl) : (q.retire i c).cmask0 = q.cmask0 := by
  unfold Seq.retire; dsimp only; split <;> (try split) <;> rfl
@[simp] theorem Seq.retire_cmask1 (q : Seq) (i : Instr) (c : Ctl) : (q.retire i c).cmask1 = q.cmask1 := by
  unfold Seq.retire; dsimp only; split <;> (try split) <;> rfl
@[simp] theorem Seq.retire_cvalid (q : Seq) (i : Instr) (c : Ctl) : (q.retire i c).cvalid = q.cvalid := by
  unfold Seq.retire; dsimp only; split <;> (try split) <;> rfl
@[simp] theorem Seq.retire_cld (q : Seq) (i : Instr) (c : Ctl) : (q.retire i c).cld = q.cld := by
  unfold Seq.retire; dsimp only; split <;> (try split) <;> rfl
@[simp] theorem Seq.retire_cgkey (q : Seq) (i : Instr) (c : Ctl) : (q.retire i c).cgkey = q.cgkey := by
  unfold Seq.retire; dsimp only; split <;> (try split) <;> rfl
@[simp] theorem Seq.retire_cgdraw (q : Seq) (i : Instr) (c : Ctl) : (q.retire i c).cgdraw = q.cgdraw := by
  unfold Seq.retire; dsimp only; split <;> (try split) <;> rfl
@[simp] theorem Seq.retire_cflags (q : Seq) (i : Instr) (c : Ctl) : (q.retire i c).cflags = q.cflags := by
  unfold Seq.retire; dsimp only; split <;> (try split) <;> rfl
@[simp] theorem Seq.retire_cprio (q : Seq) (i : Instr) (c : Ctl) : (q.retire i c).cprio = q.cprio := by
  unfold Seq.retire; dsimp only; split <;> (try split) <;> rfl
@[simp] theorem Seq.retire_stage (q : Seq) (i : Instr) (c : Ctl) : (q.retire i c).stage = q.stage := by
  unfold Seq.retire; dsimp only; split <;> (try split) <;> rfl
@[simp] theorem Seq.retire_dieRank (q : Seq) (i : Instr) (c : Ctl) : (q.retire i c).dieRank = q.dieRank := by
  unfold Seq.retire; dsimp only; split <;> (try split) <;> rfl
@[simp] theorem Seq.retire_seqRank (q : Seq) (i : Instr) (c : Ctl) : (q.retire i c).seqRank = q.seqRank := by
  unfold Seq.retire; dsimp only; split <;> (try split) <;> rfl
@[simp] theorem Seq.retire_groups (q : Seq) (i : Instr) (c : Ctl) : (q.retire i c).groups = q.groups := by
  unfold Seq.retire; dsimp only; split <;> (try split) <;> rfl
@[simp] theorem Seq.retire_winPa (q : Seq) (i : Instr) (c : Ctl) : (q.retire i c).winPa = q.winPa := by
  unfold Seq.retire; dsimp only; split <;> (try split) <;> rfl
@[simp] theorem Seq.retire_winVa (q : Seq) (i : Instr) (c : Ctl) : (q.retire i c).winVa = q.winVa := by
  unfold Seq.retire; dsimp only; split <;> (try split) <;> rfl
@[simp] theorem Seq.retire_td (q : Seq) (i : Instr) (c : Ctl) : (q.retire i c).td = q.td := by
  unfold Seq.retire; dsimp only; split <;> (try split) <;> rfl
@[simp] theorem Seq.retire_sqr (q : Seq) (i : Instr) (c : Ctl) : (q.retire i c).sqr = q.sqr := by
  unfold Seq.retire; dsimp only; split <;> (try split) <;> rfl
@[simp] theorem Seq.retire_copyLog (q : Seq) (i : Instr) (c : Ctl) : (q.retire i c).copyLog = q.copyLog := by
  unfold Seq.retire; dsimp only; split <;> (try split) <;> rfl
@[simp] theorem Seq.retire_bkpt (q : Seq) (i : Instr) (c : Ctl) : (q.retire i c).bkpt = q.bkpt := by
  unfold Seq.retire; dsimp only; split <;> (try split) <;> rfl
@[simp] theorem Seq.retire_monitor (q : Seq) (i : Instr) (c : Ctl) : (q.retire i c).monitor = q.monitor := by
  unfold Seq.retire; dsimp only; split <;> (try split) <;> rfl
@[simp] theorem Seq.retire_sleep (q : Seq) (i : Instr) (c : Ctl) : (q.retire i c).sleep = q.sleep := by
  unfold Seq.retire; dsimp only; split <;> (try split) <;> rfl
@[simp] theorem Seq.retire_inflight (q : Seq) (i : Instr) (c : Ctl) : (q.retire i c).inflight = q.inflight := by
  unfold Seq.retire; dsimp only; split <;> (try split) <;> rfl
@[simp] theorem Seq.retire_versions (q : Seq) (i : Instr) (c : Ctl) : (q.retire i c).versions = q.versions := by
  unfold Seq.retire; dsimp only; split <;> (try split) <;> rfl
@[simp] theorem Seq.retire_gtraps (q : Seq) (i : Instr) (c : Ctl) : (q.retire i c).gtraps = q.gtraps := by
  unfold Seq.retire; dsimp only; split <;> (try split) <;> rfl
@[simp] theorem Seq.retire_pend (q : Seq) (i : Instr) (c : Ctl) : (q.retire i c).pend = q.pend := by
  unfold Seq.retire; dsimp only; split <;> (try split) <;> rfl
@[simp] theorem Seq.retire_take (q : Seq) (i : Instr) (c : Ctl) : (q.retire i c).take = q.take := by
  unfold Seq.retire; dsimp only; split <;> (try split) <;> rfl
@[simp] theorem Seq.retire_taken (q : Seq) (i : Instr) (c : Ctl) : (q.retire i c).taken = q.taken := by
  unfold Seq.retire; dsimp only; split <;> (try split) <;> rfl
@[simp] theorem Seq.retire_dirtyX (q : Seq) (i : Instr) (c : Ctl) : (q.retire i c).dirtyX = q.dirtyX := by
  unfold Seq.retire; dsimp only; split <;> (try split) <;> rfl
@[simp] theorem Seq.retire_dirtyC (q : Seq) (i : Instr) (c : Ctl) : (q.retire i c).dirtyC = q.dirtyC := by
  unfold Seq.retire; dsimp only; split <;> (try split) <;> rfl
@[simp] theorem Seq.retire_dirtyGran (q : Seq) (i : Instr) (c : Ctl) : (q.retire i c).dirtyGran = q.dirtyGran := by
  unfold Seq.retire; dsimp only; split <;> (try split) <;> rfl
@[simp] theorem Seq.retire_hwm (q : Seq) (i : Instr) (c : Ctl) : (q.retire i c).hwm = q.hwm := by
  unfold Seq.retire; dsimp only; split <;> (try split) <;> rfl
@[simp] theorem Seq.retire_lastLoad (q : Seq) (i : Instr) (c : Ctl) : (q.retire i c).lastLoad = q.lastLoad := by
  unfold Seq.retire; dsimp only; split <;> (try split) <;> rfl
@[simp] theorem Seq.retire_held (q : Seq) (i : Instr) (c : Ctl) : (q.retire i c).held = q.held := by
  unfold Seq.retire; dsimp only; split <;> (try split) <;> rfl
@[simp] theorem Seq.retire_heldNum (q : Seq) (i : Instr) (c : Ctl) : (q.retire i c).heldNum = q.heldNum := by
  unfold Seq.retire; dsimp only; split <;> (try split) <;> rfl
@[simp] theorem Seq.retire_grp (q : Seq) (i : Instr) (c : Ctl) : (q.retire i c).grp = q.grp := by
  unfold Seq.retire; dsimp only; split <;> (try split) <;> rfl
@[simp] theorem Seq.retire_reads (q : Seq) (i : Instr) (c : Ctl) : (q.retire i c).reads = q.reads := by
  unfold Seq.retire; dsimp only; split <;> (try split) <;> rfl
@[simp] theorem Seq.retire_kept (q : Seq) (i : Instr) (c : Ctl) : (q.retire i c).kept = q.kept := by
  unfold Seq.retire; dsimp only; split <;> (try split) <;> rfl
@[simp] theorem Seq.retire_inv (q : Seq) (i : Instr) (c : Ctl) : (q.retire i c).inv = q.inv := by
  unfold Seq.retire; dsimp only; split <;> (try split) <;> rfl
@[simp] theorem Seq.retire_stopping (q : Seq) (i : Instr) (c : Ctl) : (q.retire i c).stopping = q.stopping := by
  unfold Seq.retire; dsimp only; split <;> (try split) <;> rfl

/-! ## Seq.raise -/

@[simp] theorem Seq.raise_mode (q : Seq) (fl : Nat) : (q.raise fl).mode = q.mode := by unfold Seq.raise; split <;> rfl
@[simp] theorem Seq.raise_kernel (q : Seq) (fl : Nat) : (q.raise fl).kernel = q.kernel := by unfold Seq.raise; split <;> rfl
@[simp] theorem Seq.raise_ctx (q : Seq) (fl : Nat) : (q.raise fl).ctx = q.ctx := by unfold Seq.raise; split <;> rfl
@[simp] theorem Seq.raise_priv (q : Seq) (fl : Nat) : (q.raise fl).priv = q.priv := by unfold Seq.raise; split <;> rfl
@[simp] theorem Seq.raise_runId (q : Seq) (fl : Nat) : (q.raise fl).runId = q.runId := by unfold Seq.raise; split <;> rfl
@[simp] theorem Seq.raise_x (q : Seq) (fl : Nat) : (q.raise fl).x = q.x := by unfold Seq.raise; split <;> rfl
@[simp] theorem Seq.raise_pc (q : Seq) (fl : Nat) : (q.raise fl).pc = q.pc := by unfold Seq.raise; split <;> rfl
@[simp] theorem Seq.raise_isn (q : Seq) (fl : Nat) : (q.raise fl).isn = q.isn := by unfold Seq.raise; split <;> rfl
@[simp] theorem Seq.raise_vl (q : Seq) (fl : Nat) : (q.raise fl).vl = q.vl := by unfold Seq.raise; split <;> rfl
@[simp] theorem Seq.raise_vtype (q : Seq) (fl : Nat) : (q.raise fl).vtype = q.vtype := by unfold Seq.raise; split <;> rfl
@[simp] theorem Seq.raise_vcap (q : Seq) (fl : Nat) : (q.raise fl).vcap = q.vcap := by unfold Seq.raise; split <;> rfl
@[simp] theorem Seq.raise_cmask0 (q : Seq) (fl : Nat) : (q.raise fl).cmask0 = q.cmask0 := by unfold Seq.raise; split <;> rfl
@[simp] theorem Seq.raise_cmask1 (q : Seq) (fl : Nat) : (q.raise fl).cmask1 = q.cmask1 := by unfold Seq.raise; split <;> rfl
@[simp] theorem Seq.raise_cvalid (q : Seq) (fl : Nat) : (q.raise fl).cvalid = q.cvalid := by unfold Seq.raise; split <;> rfl
@[simp] theorem Seq.raise_cld (q : Seq) (fl : Nat) : (q.raise fl).cld = q.cld := by unfold Seq.raise; split <;> rfl
@[simp] theorem Seq.raise_cgkey (q : Seq) (fl : Nat) : (q.raise fl).cgkey = q.cgkey := by unfold Seq.raise; split <;> rfl
@[simp] theorem Seq.raise_cgdraw (q : Seq) (fl : Nat) : (q.raise fl).cgdraw = q.cgdraw := by unfold Seq.raise; split <;> rfl
@[simp] theorem Seq.raise_cprio (q : Seq) (fl : Nat) : (q.raise fl).cprio = q.cprio := by unfold Seq.raise; split <;> rfl
@[simp] theorem Seq.raise_stage (q : Seq) (fl : Nat) : (q.raise fl).stage = q.stage := by unfold Seq.raise; split <;> rfl
@[simp] theorem Seq.raise_dieRank (q : Seq) (fl : Nat) : (q.raise fl).dieRank = q.dieRank := by unfold Seq.raise; split <;> rfl
@[simp] theorem Seq.raise_seqRank (q : Seq) (fl : Nat) : (q.raise fl).seqRank = q.seqRank := by unfold Seq.raise; split <;> rfl
@[simp] theorem Seq.raise_groups (q : Seq) (fl : Nat) : (q.raise fl).groups = q.groups := by unfold Seq.raise; split <;> rfl
@[simp] theorem Seq.raise_winPa (q : Seq) (fl : Nat) : (q.raise fl).winPa = q.winPa := by unfold Seq.raise; split <;> rfl
@[simp] theorem Seq.raise_winVa (q : Seq) (fl : Nat) : (q.raise fl).winVa = q.winVa := by unfold Seq.raise; split <;> rfl
@[simp] theorem Seq.raise_loops (q : Seq) (fl : Nat) : (q.raise fl).loops = q.loops := by unfold Seq.raise; split <;> rfl
@[simp] theorem Seq.raise_lbuf (q : Seq) (fl : Nat) : (q.raise fl).lbuf = q.lbuf := by unfold Seq.raise; split <;> rfl
@[simp] theorem Seq.raise_td (q : Seq) (fl : Nat) : (q.raise fl).td = q.td := by unfold Seq.raise; split <;> rfl
@[simp] theorem Seq.raise_sqr (q : Seq) (fl : Nat) : (q.raise fl).sqr = q.sqr := by unfold Seq.raise; split <;> rfl
@[simp] theorem Seq.raise_copyLog (q : Seq) (fl : Nat) : (q.raise fl).copyLog = q.copyLog := by unfold Seq.raise; split <;> rfl
@[simp] theorem Seq.raise_bkpt (q : Seq) (fl : Nat) : (q.raise fl).bkpt = q.bkpt := by unfold Seq.raise; split <;> rfl
@[simp] theorem Seq.raise_bkSkip (q : Seq) (fl : Nat) : (q.raise fl).bkSkip = q.bkSkip := by unfold Seq.raise; split <;> rfl
@[simp] theorem Seq.raise_monitor (q : Seq) (fl : Nat) : (q.raise fl).monitor = q.monitor := by unfold Seq.raise; split <;> rfl
@[simp] theorem Seq.raise_sleep (q : Seq) (fl : Nat) : (q.raise fl).sleep = q.sleep := by unfold Seq.raise; split <;> rfl
@[simp] theorem Seq.raise_logged (q : Seq) (fl : Nat) : (q.raise fl).logged = q.logged := by unfold Seq.raise; split <;> rfl
@[simp] theorem Seq.raise_inflight (q : Seq) (fl : Nat) : (q.raise fl).inflight = q.inflight := by unfold Seq.raise; split <;> rfl
@[simp] theorem Seq.raise_versions (q : Seq) (fl : Nat) : (q.raise fl).versions = q.versions := by unfold Seq.raise; split <;> rfl
@[simp] theorem Seq.raise_gtraps (q : Seq) (fl : Nat) : (q.raise fl).gtraps = q.gtraps := by unfold Seq.raise; split <;> rfl
@[simp] theorem Seq.raise_pend (q : Seq) (fl : Nat) : (q.raise fl).pend = q.pend := by unfold Seq.raise; split <;> rfl
@[simp] theorem Seq.raise_take (q : Seq) (fl : Nat) : (q.raise fl).take = q.take := by unfold Seq.raise; split <;> rfl
@[simp] theorem Seq.raise_taken (q : Seq) (fl : Nat) : (q.raise fl).taken = q.taken := by unfold Seq.raise; split <;> rfl
@[simp] theorem Seq.raise_softPt (q : Seq) (fl : Nat) : (q.raise fl).softPt = q.softPt := by unfold Seq.raise; split <;> rfl
@[simp] theorem Seq.raise_dirtyX (q : Seq) (fl : Nat) : (q.raise fl).dirtyX = q.dirtyX := by unfold Seq.raise; split <;> rfl
@[simp] theorem Seq.raise_dirtyGran (q : Seq) (fl : Nat) : (q.raise fl).dirtyGran = q.dirtyGran := by unfold Seq.raise; split <;> rfl
@[simp] theorem Seq.raise_hwm (q : Seq) (fl : Nat) : (q.raise fl).hwm = q.hwm := by unfold Seq.raise; split <;> rfl
@[simp] theorem Seq.raise_lastLoad (q : Seq) (fl : Nat) : (q.raise fl).lastLoad = q.lastLoad := by unfold Seq.raise; split <;> rfl
@[simp] theorem Seq.raise_fresh (q : Seq) (fl : Nat) : (q.raise fl).fresh = q.fresh := by unfold Seq.raise; split <;> rfl
@[simp] theorem Seq.raise_held (q : Seq) (fl : Nat) : (q.raise fl).held = q.held := by unfold Seq.raise; split <;> rfl
@[simp] theorem Seq.raise_heldNum (q : Seq) (fl : Nat) : (q.raise fl).heldNum = q.heldNum := by unfold Seq.raise; split <;> rfl
@[simp] theorem Seq.raise_grp (q : Seq) (fl : Nat) : (q.raise fl).grp = q.grp := by unfold Seq.raise; split <;> rfl
@[simp] theorem Seq.raise_reads (q : Seq) (fl : Nat) : (q.raise fl).reads = q.reads := by unfold Seq.raise; split <;> rfl
@[simp] theorem Seq.raise_kept (q : Seq) (fl : Nat) : (q.raise fl).kept = q.kept := by unfold Seq.raise; split <;> rfl
@[simp] theorem Seq.raise_inv (q : Seq) (fl : Nat) : (q.raise fl).inv = q.inv := by unfold Seq.raise; split <;> rfl
@[simp] theorem Seq.raise_stopping (q : Seq) (fl : Nat) : (q.raise fl).stopping = q.stopping := by unfold Seq.raise; split <;> rfl

end Sys2Proof.Machine
end

