-- ==== Sys2Proof/Laws/Issue.lean ====
section
/-!
SUPPORT. The monad of moves, and what issue does: one lemma for each way in which an instruction can leave `issue`, and
one for each cause that the gate gives.
-/
namespace Sys2Proof.Machine

/-! ## Moves -/

/-- A move that answers a value at once. -/
@[simp] theorem Op.run_pure {α : Type} (a : α) (s : State) : (pure a : Op α).run s = .ok a s := rfl

/-- A move that stops. -/
@[simp] theorem Op.run_throw {α : Type} (e : Stop) (s : State) : (throw e : Op α).run s = .error e s := rfl

/-- A trap. -/
@[simp] theorem Op.run_trapWith {α : Type} (c a i : Nat) (s : State) :
    (trapWith c a i : Op α).run s = .error (.trap ⟨c, toWord a, toWord i⟩) s := rfl

/-- A wait. -/
@[simp] theorem Op.run_waitFor {α : Type} (k : WaitKind) (s : State) : (waitFor k : Op α).run s = .error (.wait k) s := rfl

/-- Reading the state. -/
@[simp] theorem Op.run_get (s : State) : (get : Op State).run s = .ok s s := rfl

/-- Replacing the state. -/
@[simp] theorem Op.run_set (s t : State) : (set t : Op PUnit).run s = .ok ⟨⟩ t := rfl

/-- Changing the state. -/
@[simp] theorem Op.run_modify (f : State → State) (s : State) : (modify f : Op PUnit).run s = .ok ⟨⟩ (f s) := rfl

/-- The sequencer as a move sees it. -/
@[simp] theorem Op.run_getSeq (n : Nat) (s : State) : (getSeq n).run s = .ok (s.seq n) s := rfl

/-- Changing a sequencer. -/
@[simp] theorem Op.run_modSeqOp (n : Nat) (f : Seq → Seq) (s : State) :
    (modSeqOp n f).run s = .ok ⟨⟩ (s.modSeq n f) := rfl

/-- Writing an x register. -/
@[simp] theorem Op.run_putX (n : Nat) (r : Reg) (v : Word) (s : State) :
    (putX n r v).run s = .ok ⟨⟩ (s.modSeq n fun q => q.setX r v) := rfl

/-- One move after another. -/
theorem Op.run_bind {α β : Type} (m : Op α) (f : α → Op β) (s : State) :
    (m >>= f).run s = match m.run s with
      | .ok a t => (f a).run t
      | .error e t => .error e t := by
  change EStateM.bind m f s = _
  unfold EStateM.bind EStateM.run
  cases m s <;> rfl

/-- One move after another that answers. -/
theorem Op.run_bind_ok {α β : Type} {m : Op α} {f : α → Op β} {s t : State} {a : α} (h : m.run s = .ok a t) :
    (m >>= f).run s = (f a).run t := by
  rw [Op.run_bind, h]

/-- One move after another that stops. -/
theorem Op.run_bind_error {α β : Type} {m : Op α} {f : α → Op β} {s t : State} {e : Stop} (h : m.run s = .error e t) :
    (m >>= f).run s = .error e t := by
  rw [Op.run_bind, h]

/-- What a sequence of moves answered, its first move answered too. -/
theorem Op.bind_ok {α β : Type} {m : Op α} {f : α → Op β} {s u : State} {b : β} (h : (m >>= f).run s = .ok b u) :
    ∃ a t, m.run s = .ok a t ∧ (f a).run t = .ok b u := by
  rw [Op.run_bind] at h
  cases hm : m.run s with
  | ok a t => rw [hm] at h; exact ⟨a, t, rfl, h⟩
  | error e t => rw [hm] at h; cases h

/-! ## Issue -/

/-- The instruction's own effect: it passes the gate and its body completes. -/
theorem issue_ok {i : Instr} {body : Nat → Op Ctl} {s t : State} {c : Ctl} (h : ready i s)
    (hb : (body s.cur).run s = .ok c t) : issue i body s = .next (t.modSeq s.cur fun q => q.retire i c) := by
  unfold issue
  simp only [show gate s.cur i s = .go from h, hb]

/-- The instruction passes the gate and its body stops. -/
theorem issue_stop {i : Instr} {body : Nat → Op Ctl} {s t : State} {e : Stop} (h : ready i s)
    (hb : (body s.cur).run s = .error e t) : issue i body s = stopStep s.cur i s e t := by
  unfold issue
  simp only [show gate s.cur i s = .go from h, hb]

/-- The gate holds the instruction: only time passes. -/
theorem issue_hold {i : Instr} (body : Nat → Op Ctl) {s : State} (h : gate s.cur i s = .hold) :
    issue i body s = .next s.idleTurn := by
  unfold issue
  simp only [h]

/-- The gate traps the instruction: PRIV, VTYPE, or a double trap. -/
theorem issue_trap {i : Instr} (body : Nat → Op Ctl) {s : State} {c : Nat} (h : gate s.cur i s = .trap c) :
    issue i body s = .next (issueTrap s s.cur ⟨c, 0, 0⟩ (s.seq s.cur).pc) := by
  unfold issue
  simp only [h]

/-- Everything that issue can answer. -/
theorem issue_cases {i : Instr} {body : Nat → Op Ctl} {s : State} {r : Res} (h : issue i body s = r) :
    (gate s.cur i s = .hold ∧ r = .next s.idleTurn) ∨
    (∃ c, gate s.cur i s = .trap c ∧ r = .next (issueTrap s s.cur ⟨c, 0, 0⟩ (s.seq s.cur).pc)) ∨
    (ready i s ∧ ∃ c t, (body s.cur).run s = .ok c t ∧ r = .next (t.modSeq s.cur fun q => q.retire i c)) ∨
    (ready i s ∧ ∃ e t, (body s.cur).run s = .error e t ∧ r = stopStep s.cur i s e t) := by
  cases hg : gate s.cur i s with
  | hold => left; exact ⟨rfl, by rw [← h, issue_hold body hg]⟩
  | trap c => right; left; exact ⟨c, rfl, by rw [← h, issue_trap body hg]⟩
  | go =>
    cases hb : (body s.cur).run s with
    | ok c t => right; right; left; exact ⟨hg, c, t, rfl, by rw [← h, issue_ok hg hb]⟩
    | error e t => right; right; right; exact ⟨hg, e, t, rfl, by rw [← h, issue_stop hg hb]⟩

/-! ## The gate -/

/-- Frozen, idle, asleep or stopped by a trap: nothing issues. -/
theorem gate_hold {n : Nat} {i : Instr} {s : State}
    (h : s.pkg.frozen = true ∨ (s.seq n).mode = .idle ∨ (s.seq n).sleep.isSome = true ∨ (s.seq n).pend.isSome = true ∨
      (s.seq n).gtraps.isEmpty = false) : gate n i s = .hold := by
  unfold gate
  rw [if_pos]
  rcases h with h | h | h | h | h <;> simp [h]

/-- While the module is frozen nothing issues (21 R508). -/
theorem gate_frozen {n : Nat} {i : Instr} {s : State} (h : s.pkg.frozen = true) : gate n i s = .hold := gate_hold (.inl h)

/-- While the module is frozen an instruction changes nothing, not even time. -/
theorem issue_frozen {i : Instr} (body : Nat → Op Ctl) {s : State} (h : s.pkg.frozen = true) :
    issue i body s = .next s := by
  rw [issue_hold body (gate_frozen h)]
  simp [State.idleTurn, h]

/-! ## Events -/

/-- An event that is enabled. -/
@[simp] theorem occurs_some (r : Res) (s : State) : occurs (some r) s = r := rfl

/-- An event that is not enabled does nothing. -/
@[simp] theorem occurs_none (s : State) : occurs none s = .next s := rfl

/-- A move of an event that completes. -/
theorem wake_ok {n : Nat} {m : Op Unit} {s t : State} (hf : s.pkg.frozen = false) (h : m.run s = .ok () t) :
    wake n m s = some (.next t) := by
  unfold wake
  simp [hf, h]

/-- A move of an event that would wait, but for a migrating page, is not enabled. -/
theorem wake_wait {n : Nat} {m : Op Unit} {s t : State} {k : WaitKind} (h : m.run s = .error (.wait k) t)
    (hk : ∀ va, k ≠ .migrating va) : wake n m s = none := by
  unfold wake
  split
  · rfl
  · rw [h]
    cases k with
    | migrating va => exact absurd rfl (hk va)
    | _ => rfl

/-- A wait on a migrating page is recorded, once (13 R336). -/
theorem wake_migrating {n va : Nat} {m : Op Unit} {s t : State} (hf : s.pkg.frozen = false)
    (h : m.run s = .error (.wait (.migrating va)) t) :
    wake n m s = if (s.addMig n (s.seq n).ctx va).migs.length = s.migs.length then none
      else some (.next (s.addMig n (s.seq n).ctx va)) := by
  unfold wake
  rw [if_neg (by simp [hf]), h]

/-- While the module is frozen no such event is enabled. -/
theorem wake_frozen {n : Nat} {m : Op Unit} {s : State} (h : s.pkg.frozen = true) : wake n m s = none := by
  unfold wake
  simp [h]

/-! ## Moving on (06 R154) -/

/-- With no hardware loop the next address is where issue goes. -/
theorem Seq.arrive_noloop (q : Seq) (a : Word) (h : q.loops = []) :
    q.arrive a = { q with pc := a, softPt := false, bkSkip := none, logged := 0, lbuf := [], fresh := 0 } := by
  cases q
  simp only at h
  subst h
  simp [Seq.arrive, loopEnd, keepBuf, heldLoops, freshAfter]

/-- Away from the end of the innermost loop, the next address is where issue goes. -/
theorem Seq.arrive_inside (q : Seq) (a : Word) (l : Loop) (r : List Loop) (h : q.loops = l :: r) (ha : a ≠ l.stop) :
    q.arrive a = { q with pc := a, softPt := false, bkSkip := none, logged := 0, lbuf := keepBuf (heldLoops q.fresh q.loops) q.lbuf,
                          fresh := min q.fresh q.loops.length } := by
  simp [Seq.arrive, h, loopEnd, ha, freshAfter]

end Sys2Proof.Machine
end

