-- ==== Sys2Proof/Laws/Memory.lean ====
section
/-!
SUPPORT. Memory: a read after a write, what a write leaves alone, and that every memory operation keeps the canonical
form.
-/
namespace Sys2Proof.Machine

/-- An address below the first entry reads as unlisted. -/
theorem Memory.get_below (a : Nat) (l : List Host.Cell) (h : ∀ d ∈ l.head?, a < d.1) :
    Memory.get a l = unlistedByte := by
  cases l with
  | nil => rfl
  | cons c r =>
    have : a < c.1 := by simpa using h
    unfold Memory.get
    rw [if_neg (by omega), if_pos this]

/-- The byte just written is read back. -/
theorem Memory.get_set_same (a : Nat) (b : Byte) (l : List Host.Cell) (h : Memory.wf l = true) :
    Memory.get a (Memory.set a b l) = b := by
  induction l with
  | nil => unfold Memory.set; split <;> simp_all [Memory.get]
  | cons c r ih =>
    have h' := (Memory.wf_cons c r).1 h
    unfold Memory.set
    split
    · split
      · rename_i hb
        rw [hb]
        exact Memory.get_below a _ (by simpa using ‹a < c.1›)
      · simp [Memory.get]
    · split
      · split
        · rename_i hac hb
          rw [hb, hac]
          exact Memory.get_below _ _ h'.2.1
        · simp [Memory.get]
      · unfold Memory.get
        rw [if_neg (by omega), if_neg (by omega)]
        exact ih h'.2.2

/-- A write leaves every other address alone. -/
theorem Memory.get_set_other (a x : Nat) (b : Byte) (l : List Host.Cell) (h : Memory.wf l = true) (hx : x ≠ a) :
    Memory.get x (Memory.set a b l) = Memory.get x l := by
  induction l with
  | nil =>
    unfold Memory.set
    split
    · rfl
    · unfold Memory.get
      rw [if_neg (Ne.symm hx)]
      split <;> simp [Memory.get]
  | cons c r ih =>
    have h' := (Memory.wf_cons c r).1 h
    unfold Memory.set
    split
    · split
      · rfl
      · rename_i hac hb
        by_cases h1 : x < a
        · rw [Memory.get_below x ((a, b) :: c :: r) (by simpa using h1),
            Memory.get_below x (c :: r) (by simpa using (by omega : x < c.1))]
        · rw [Memory.get, if_neg (Ne.symm hx), if_neg h1]
    · split
      · rename_i hac
        split
        · by_cases h1 : x < c.1
          · rw [Memory.get_below x (c :: r) (by simpa using h1)]
            exact Memory.get_below x r fun d hd => Nat.lt_trans h1 (h'.2.1 d hd)
          · conv_rhs => rw [Memory.get, if_neg (by omega), if_neg h1]
        · conv_rhs => rw [Memory.get]
          conv_lhs => rw [Memory.get]
          simp only [← hac]
          rw [if_neg (Ne.symm hx), if_neg (Ne.symm hx)]
      · conv_rhs => rw [Memory.get]
        conv_lhs => rw [Memory.get]
        rw [ih h'.2.2]

/-- The byte just written is read back. -/
@[simp] theorem Mem.get_set_same (m : Mem) (a : Nat) (b : Byte) : (m.set a b).get a = b :=
  Memory.get_set_same a b m.cells m.wf

/-- A write of one byte leaves every other address alone. -/
theorem Mem.get_set_other (m : Mem) (a x : Nat) (b : Byte) (h : x ≠ a) : (m.set a b).get x = m.get x :=
  Memory.get_set_other a x b m.cells m.wf h

/-- A write of bytes leaves every address outside them alone. -/
theorem Mem.get_write_other (m : Mem) (a x : Nat) (bs : List Byte) (h : x < a ∨ a + bs.length ≤ x) :
    (m.write a bs).get x = m.get x := by
  induction bs generalizing m a with
  | nil => rfl
  | cons b r ih =>
    simp only [List.length_cons] at h
    rw [Mem.write, ih (m.set a b) (a + 1) (by omega), Mem.get_set_other m a x b (by omega)]

/-- Bytes written are read back one by one. -/
theorem Mem.get_write (m : Mem) (a : Nat) (bs : List Byte) (k : Nat) (h : k < bs.length) :
    (m.write a bs).get (a + k) = bs[k] := by
  induction bs generalizing m a k with
  | nil => simp at h
  | cons b r ih =>
    cases k with
    | zero =>
      rw [Mem.write, Mem.get_write_other _ (a + 1) (a + 0) r (Or.inl (by omega))]
      simp
    | succ k =>
      have := ih (m.set a b) (a + 1) k (by simpa using h)
      rw [Mem.write, show a + (k + 1) = a + 1 + k by omega, this]
      simp

/-- The number of bytes read. -/
@[simp] theorem Mem.read_length (m : Mem) (a n : Nat) : (m.read a n).length = n := by
  induction n generalizing a with
  | zero => rfl
  | succ n ih => simp [Mem.read, ih]

/-- A read is its bytes. -/
theorem Mem.read_get (m : Mem) (a n k : Nat) (h : k < n) : (m.read a n)[k]? = some (m.get (a + k)) := by
  induction n generalizing a k with
  | zero => omega
  | succ n ih =>
    cases k with
    | zero => simp [Mem.read]
    | succ k =>
      have := ih (a + 1) k (by omega)
      simpa [Mem.read, Nat.add_comm, Nat.add_left_comm] using this

/-- Reads of equal bytes are equal. -/
theorem Mem.read_congr (m m' : Mem) (a n : Nat) (h : ∀ k < n, m.get (a + k) = m'.get (a + k)) :
    m.read a n = m'.read a n := by
  apply List.ext_getElem?
  intro k
  by_cases hk : k < n
  · rw [Mem.read_get m a n k hk, Mem.read_get m' a n k hk, h k hk]
  · rw [List.getElem?_eq_none (by simp; omega), List.getElem?_eq_none (by simp; omega)]

/-- What has just been written is read back. -/
theorem Mem.read_write (m : Mem) (a : Nat) (bs : List Byte) : (m.write a bs).read a bs.length = bs := by
  apply List.ext_getElem?
  intro k
  by_cases hk : k < bs.length
  · rw [Mem.read_get _ a _ k hk, Mem.get_write m a bs k hk, List.getElem?_eq_getElem hk]
  · rw [List.getElem?_eq_none (by simp; omega), List.getElem?_eq_none (by omega)]

/-- A write elsewhere leaves a read alone. -/
theorem Mem.read_write_other (m : Mem) (a b n : Nat) (bs : List Byte) (h : b + n ≤ a ∨ a + bs.length ≤ b) :
    (m.write a bs).read b n = m.read b n :=
  Mem.read_congr _ _ _ _ fun k hk => Mem.get_write_other m a (b + k) bs (by omega)

/-- The bytes of a number, put together again. -/
theorem ofBytes_bytesOf (n v : Nat) : ofBytes (bytesOf n v) = v % 256 ^ n := by
  induction n generalizing v with
  | zero => simp [bytesOf, ofBytes, Nat.mod_one]
  | succ n ih =>
    have : (BitVec.ofNat 8 v).toNat = v % 256 := by simp
    simp only [bytesOf, ofBytes, ih, this, Nat.pow_succ']
    rw [Nat.mod_mul]

/-- Bytes of a number. -/
@[simp] theorem bytesOf_length (n v : Nat) : (bytesOf n v).length = n := by
  induction n generalizing v with
  | zero => rfl
  | succ n ih => simp [bytesOf, ih]

/-- A word just written is read back. -/
theorem Mem.num_write (m : Mem) (a : Nat) (v : Word) : toWord ((m.write a (bytesOf 8 v.toNat)).num a 8) = v := by
  have h := Mem.read_write m a (bytesOf 8 v.toNat)
  rw [bytesOf_length] at h
  rw [Mem.num, h, ofBytes_bytesOf, show (256 : Nat) ^ 8 = 2 ^ 64 by norm_num, Nat.mod_eq_of_lt v.isLt]
  simp [toWord]

/-- Zeroing a range leaves the addresses outside it alone. -/
theorem Mem.get_zero_other (m : Mem) (lo hi x : Nat) (h : x < lo ∨ hi ≤ x) : (m.zero lo hi).get x = m.get x := by
  suffices ∀ l : List Host.Cell, Memory.wf l = true → Memory.get x (Memory.drop lo hi l) = Memory.get x l from
    this m.cells m.wf
  intro l
  induction l with
  | nil => intro _; rfl
  | cons c r ih =>
    intro hw
    have h' := (Memory.wf_cons c r).1 hw
    unfold Memory.drop
    split
    · rename_i hc
      simp only [Bool.and_eq_true, decide_eq_true_eq] at hc
      rw [ih h'.2.2]
      conv_rhs => rw [Memory.get, if_neg (by omega)]
      split
      · rename_i hx
        exact Memory.get_below x r fun d hd => Nat.lt_trans hx (h'.2.1 d hd)
      · rfl
    · conv_rhs => rw [Memory.get]
      conv_lhs => rw [Memory.get]
      rw [ih h'.2.2]

/-! ## The canonical form -/

/-- Every memory is in canonical form: a write of one byte keeps it. -/
theorem Mem.wf_set (m : Mem) (a : Nat) (b : Byte) : Memory.wf (m.set a b).cells = true := (m.set a b).wf

/-- A write of bytes keeps the canonical form. -/
theorem Mem.wf_write (m : Mem) (a : Nat) (bs : List Byte) : Memory.wf (m.write a bs).cells = true := (m.write a bs).wf

/-- Zeroing a range keeps the canonical form. -/
theorem Mem.wf_zero (m : Mem) (lo hi : Nat) : Memory.wf (m.zero lo hi).cells = true := (m.zero lo hi).wf

/-- The memory at reset is in canonical form. -/
theorem reset_mem_wf : Memory.wf State.reset.mem.cells = true := rfl

/-- Two memories that read alike are equal data: below the first entry of one, the other lists nothing. -/
theorem Memory.ext (l k : List Host.Cell) (hl : Memory.wf l = true) (hk : Memory.wf k = true)
    (h : ∀ a, Memory.get a l = Memory.get a k) : l = k := by
  induction l generalizing k with
  | nil =>
    cases k with
    | nil => rfl
    | cons c r =>
      have h' := (Memory.wf_cons c r).1 hk
      have := h c.1
      simp only [Memory.get, if_pos] at this
      exact absurd this.symm h'.1
  | cons c r ih =>
    have hc := (Memory.wf_cons c r).1 hl
    cases k with
    | nil =>
      have := h c.1
      simp only [Memory.get, if_pos] at this
      exact absurd this hc.1
    | cons d t =>
      have hd := (Memory.wf_cons d t).1 hk
      have hcd : c.1 = d.1 := by
        have h1 := h c.1
        have h2 := h d.1
        simp only [Memory.get, if_pos] at h1 h2
        by_contra hne
        rw [if_neg (Ne.symm hne)] at h1
        rw [if_neg hne] at h2
        rcases Nat.lt_or_gt_of_ne hne with hlt | hgt
        · rw [if_pos hlt] at h1; exact hc.1 h1
        · rw [if_pos hgt] at h2; exact hd.1 h2.symm
      have hv : c.2 = d.2 := by
        have h1 := h c.1
        simp only [Memory.get, if_pos, hcd] at h1
        exact h1
      have htail : r = t := ih t hc.2.2 hd.2.2 fun a => by
        by_cases ha : c.1 < a
        · have h1 := h a
          simp only [Memory.get] at h1
          rw [if_neg (by omega), if_neg (by omega), if_neg (by omega), if_neg (by omega)] at h1
          exact h1
        · rw [Memory.get_below a r fun e he => Nat.lt_of_le_of_lt (by omega) (hc.2.1 e he),
            Memory.get_below a t fun e he => Nat.lt_of_le_of_lt (by omega) (hd.2.1 e he)]
      rw [htail, Prod.ext hcd hv]

/-- Equal memories are equal data. -/
theorem Mem.ext_get (m m' : Mem) (h : ∀ a, m.get a = m'.get a) : m = m' := by
  have : m.cells = m'.cells := Memory.ext _ _ m.wf m'.wf h
  cases m; cases m'; simp_all

end Sys2Proof.Machine
end

