-- ==== Sys2Proof/Laws/PerInstr.lean ====
section
/-!
SUPPORT. Statements made per instruction. Family WordRange: the encoding of an instruction fits the halfwords of its length
(spec/05_encoding.md R104, R112, R116, R118), so that no bit of a later instruction belongs to it; an event has no bits.
-/
namespace Sys2Proof.Laws

/-- Packing a field below m bits gives m bits more than the field has. -/
theorem pk_lt {n m : Nat} (x : BitVec n) {r : Nat} (h : r < 2 ^ m) : pk n x r < 2 ^ (n + m) := by
  have hx := x.isLt
  have h2 : 2 ^ n * (r + 1) ≤ 2 ^ n * 2 ^ m := Nat.mul_le_mul_left _ h
  rw [pk, Nat.pow_add]
  rw [Nat.mul_add] at h2
  omega

/-- The empty rest has no bits. -/
theorem rest_lt : 0 < 2 ^ 0 := by decide

theorem e3_lt (maj : BitVec 5) (d a b : Reg) (f : BitVec 10) : e3 maj d a b f < 2 ^ 32 :=
  pk_lt _ (pk_lt _ (pk_lt _ (pk_lt _ (pk_lt _ (pk_lt _ rest_lt)))))

theorem eI_lt (maj : BitVec 5) (d a : Reg) (i : BitVec 15) : eI maj d a i < 2 ^ 32 :=
  pk_lt _ (pk_lt _ (pk_lt _ (pk_lt _ (pk_lt _ rest_lt))))

theorem eJ_lt (maj : BitVec 5) (d : Reg) (i : BitVec 20) : eJ maj d i < 2 ^ 32 :=
  pk_lt _ (pk_lt _ (pk_lt _ (pk_lt _ rest_lt)))

theorem e48_lt (op : BitVec 6) (f : BitVec 3) (d a b c : BitVec 7) (m : MSel) (pa pb pc : Bool) :
    e48 op f d a b c m pa pb pc < 2 ^ 48 :=
  pk_lt _ (pk_lt _ (pk_lt _ (pk_lt _ (pk_lt _ (pk_lt _ (pk_lt _ (pk_lt _ (pk_lt _ (pk_lt _ (pk_lt _ rest_lt))))))))))

theorem e64_lt (op : BitVec 6) (d a : BitVec 7) (f6 : BitVec 6) (i : BitVec 32) : e64 op d a f6 i < 2 ^ 64 :=
  pk_lt _ (pk_lt _ (pk_lt _ (pk_lt _ (pk_lt _ (pk_lt _ rest_lt)))))

theorem eC0_lt (f : BitVec 3) (r : Reg) (n : BitVec 6) : eC0 f r n < 2 ^ 16 :=
  pk_lt _ (pk_lt _ (pk_lt _ (pk_lt _ rest_lt)))

theorem eC1_lt (f : BitVec 4) (d a : Reg) : eC1 f d a < 2 ^ 16 := pk_lt _ (pk_lt _ (pk_lt _ (pk_lt _ rest_lt)))

theorem eC2_lt (f : BitVec 3) (r : Reg) (n : BitVec 6) : eC2 f r n < 2 ^ 16 :=
  pk_lt _ (pk_lt _ (pk_lt _ (pk_lt _ rest_lt)))

theorem eC3_lt (f : BitVec 3) (n : BitVec 11) : eC3 f n < 2 ^ 16 := pk_lt _ (pk_lt _ (pk_lt _ rest_lt))

namespace WordRange

/-- The encoding lies in the halfwords of the instruction's length. -/
def Statement (i : Instr) : Prop := encode i < 2 ^ (16 * i.len)

theorem add (rd ra rb : Reg) : Statement (.add rd ra rb) := e3_lt ..
theorem sub (rd ra rb : Reg) : Statement (.sub rd ra rb) := e3_lt ..
theorem mul (rd ra rb : Reg) : Statement (.mul rd ra rb) := e3_lt ..
theorem mulh (rd ra rb : Reg) : Statement (.mulh rd ra rb) := e3_lt ..
theorem mulhu (rd ra rb : Reg) : Statement (.mulhu rd ra rb) := e3_lt ..
theorem div (rd ra rb : Reg) : Statement (.div rd ra rb) := e3_lt ..
theorem divu (rd ra rb : Reg) : Statement (.divu rd ra rb) := e3_lt ..
theorem rem (rd ra rb : Reg) : Statement (.rem rd ra rb) := e3_lt ..
theorem remu (rd ra rb : Reg) : Statement (.remu rd ra rb) := e3_lt ..
theorem and (rd ra rb : Reg) : Statement (.and rd ra rb) := e3_lt ..
theorem or (rd ra rb : Reg) : Statement (.or rd ra rb) := e3_lt ..
theorem xor (rd ra rb : Reg) : Statement (.xor rd ra rb) := e3_lt ..
theorem andn (rd ra rb : Reg) : Statement (.andn rd ra rb) := e3_lt ..
theorem sll (rd ra rb : Reg) : Statement (.sll rd ra rb) := e3_lt ..
theorem srl (rd ra rb : Reg) : Statement (.srl rd ra rb) := e3_lt ..
theorem sra (rd ra rb : Reg) : Statement (.sra rd ra rb) := e3_lt ..
theorem slt (rd ra rb : Reg) : Statement (.slt rd ra rb) := e3_lt ..
theorem sltu (rd ra rb : Reg) : Statement (.sltu rd ra rb) := e3_lt ..
theorem min (rd ra rb : Reg) : Statement (.min rd ra rb) := e3_lt ..
theorem max (rd ra rb : Reg) : Statement (.max rd ra rb) := e3_lt ..
theorem minu (rd ra rb : Reg) : Statement (.minu rd ra rb) := e3_lt ..
theorem maxu (rd ra rb : Reg) : Statement (.maxu rd ra rb) := e3_lt ..
theorem clz (rd ra : Reg) : Statement (.clz rd ra) := e3_lt ..
theorem ctz (rd ra : Reg) : Statement (.ctz rd ra) := e3_lt ..
theorem popc (rd ra : Reg) : Statement (.popc rd ra) := e3_lt ..
theorem addi (rd ra : Reg) (imm : BitVec 15) : Statement (.addi rd ra imm) := eI_lt ..
theorem andi (rd ra : Reg) (imm : BitVec 15) : Statement (.andi rd ra imm) := eI_lt ..
theorem ori (rd ra : Reg) (imm : BitVec 15) : Statement (.ori rd ra imm) := eI_lt ..
theorem xori (rd ra : Reg) (imm : BitVec 15) : Statement (.xori rd ra imm) := eI_lt ..
theorem slti (rd ra : Reg) (imm : BitVec 15) : Statement (.slti rd ra imm) := eI_lt ..
theorem slli (rd ra : Reg) (sh : BitVec 6) : Statement (.slli rd ra sh) := eI_lt ..
theorem srli (rd ra : Reg) (sh : BitVec 6) : Statement (.srli rd ra sh) := eI_lt ..
theorem srai (rd ra : Reg) (sh : BitVec 6) : Statement (.srai rd ra sh) := eI_lt ..
theorem liShort (rd : Reg) (imm : BitVec 20) : Statement (.liShort rd imm) := eJ_lt ..
theorem liLong (rd : Reg) (imm : BitVec 32) : Statement (.liLong rd imm) := e64_lt ..
theorem liHi (rd : Reg) (imm : BitVec 32) : Statement (.liHi rd imm) := e64_lt ..
theorem ld (rd ra : Reg) (imm : BitVec 15) : Statement (.ld rd ra imm) := eI_lt ..
theorem st (rs ra : Reg) (imm : BitVec 15) : Statement (.st rs ra imm) := eI_lt ..
theorem ldfe (rd ra : Reg) (imm : BitVec 15) : Statement (.ldfe rd ra imm) := eI_lt ..
theorem amo (op : AmoOp) (ord : Ord) (w : Bool) (rd rb ra : Reg) : Statement (.amo op ord w rd rb ra) := e3_lt ..
theorem amocas (ord : Ord) (w : Bool) (rd rb ra : Reg) : Statement (.amocas ord w rd rb ra) := e3_lt ..
theorem fadd (t : FType) (rd ra rb : Reg) : Statement (.fadd t rd ra rb) := e3_lt ..
theorem fsub (t : FType) (rd ra rb : Reg) : Statement (.fsub t rd ra rb) := e3_lt ..
theorem fmul (t : FType) (rd ra rb : Reg) : Statement (.fmul t rd ra rb) := e3_lt ..
theorem ffma (t : FType) (rd ra rb : Reg) : Statement (.ffma t rd ra rb) := e3_lt ..
theorem fdiv (t : FType) (rd ra rb : Reg) : Statement (.fdiv t rd ra rb) := e3_lt ..
theorem fsqrt (t : FType) (rd ra : Reg) : Statement (.fsqrt t rd ra) := e3_lt ..
theorem fmin (t : FType) (rd ra rb : Reg) : Statement (.fmin t rd ra rb) := e3_lt ..
theorem fmax (t : FType) (rd ra rb : Reg) : Statement (.fmax t rd ra rb) := e3_lt ..
theorem fcmp (c : FCond) (t : FType) (rd ra rb : Reg) : Statement (.fcmp c t rd ra rb) := e3_lt ..
theorem fcvt (dst src : CvtType) (rd ra : Reg) : Statement (.fcvt dst src rd ra) := e3_lt ..
theorem beq (ra rb : Reg) (off : BitVec 15) : Statement (.beq ra rb off) := eI_lt ..
theorem bne (ra rb : Reg) (off : BitVec 15) : Statement (.bne ra rb off) := eI_lt ..
theorem blt (ra rb : Reg) (off : BitVec 15) : Statement (.blt ra rb off) := eI_lt ..
theorem bge (ra rb : Reg) (off : BitVec 15) : Statement (.bge ra rb off) := eI_lt ..
theorem bltu (ra rb : Reg) (off : BitVec 15) : Statement (.bltu ra rb off) := eI_lt ..
theorem bgeu (ra rb : Reg) (off : BitVec 15) : Statement (.bgeu ra rb off) := eI_lt ..
theorem jal (rd : Reg) (off : BitVec 20) : Statement (.jal rd off) := eJ_lt ..
theorem jalr (rd ra : Reg) (imm : BitVec 15) : Statement (.jalr rd ra imm) := eI_lt ..
theorem loop (ra : Reg) (off : BitVec 15) : Statement (.loop ra off) := eI_lt ..
theorem loopi (n : BitVec 10) (off : BitVec 15) : Statement (.loopi n off) := pk_lt _ (pk_lt _ (pk_lt _ (pk_lt _ rest_lt)))
theorem hintNop (bits : BitVec 25) : Statement (.hintNop bits) := pk_lt _ (pk_lt _ (pk_lt _ rest_lt))
theorem fence (sc : Scope) : Statement (.fence sc) := e3_lt ..
theorem fencex (c1 c2 : PathClass) : Statement (.fencex c1 c2) := e3_lt ..
theorem iflush : Statement (.iflush) := e3_lt ..
theorem trap (k : BitVec 5) : Statement (.trap k) := e3_lt ..
theorem rett : Statement (.rett) := e3_lt ..
theorem bkpt : Statement (.bkpt) := e3_lt ..
theorem mon (ra : Reg) : Statement (.mon ra) := e3_lt ..
theorem mwait (rd ra : Reg) : Statement (.mwait rd ra) := e3_lt ..
theorem tick (rd : Reg) : Statement (.tick rd) := e3_lt ..
theorem movcWrite (c : CReg) (ra : Reg) : Statement (.movcWrite c ra) := e3_lt ..
theorem movcRead (rd : Reg) (c : CReg) : Statement (.movcRead rd c) := e3_lt ..
theorem movcw (rd : Reg) (c : CReg) (rb : Reg) : Statement (.movcw rd c rb) := e3_lt ..
theorem setvl (rd ra : Reg) : Statement (.setvl rd ra) := e3_lt ..
theorem setvlc (rd ra rb : Reg) : Statement (.setvlc rd ra rb) := e3_lt ..
theorem pubhw (ra rb : Reg) : Statement (.pubhw ra rb) := e3_lt ..
theorem ownq (rd ra : Reg) : Statement (.ownq rd ra) := e3_lt ..
theorem lix (rd : Reg) (k : BitVec 5) : Statement (.lix rd k) := e3_lt ..
theorem lbrk : Statement (.lbrk) := e3_lt ..
theorem spawn (ra : Reg) : Statement (.spawn ra) := e3_lt ..
theorem join (ra : Reg) : Statement (.join ra) := e3_lt ..
theorem exit : Statement (.exit) := e3_lt ..
theorem barcfg (sc : BScope) (ra rb : Reg) : Statement (.barcfg sc ra rb) := e3_lt ..
theorem arrive (sc : BScope) (rd ra : Reg) : Statement (.arrive sc rd ra) := e3_lt ..
theorem waitb (sc : BScope) (ra rb : Reg) : Statement (.waitb sc ra rb) := e3_lt ..
theorem arrwait (sc : BScope) (ra : Reg) : Statement (.arrwait sc ra) := e3_lt ..
theorem tlbinv (ra rb : Reg) : Statement (.tlbinv ra rb) := e3_lt ..
theorem pgq (rd ra : Reg) : Statement (.pgq rd ra) := e3_lt ..
theorem ctxld (ra : Reg) : Statement (.ctxld ra) := e3_lt ..
theorem ctxst (ra : Reg) : Statement (.ctxst ra) := e3_lt ..
theorem sumppop (rd : Reg) : Statement (.sumppop rd) := e3_lt ..
theorem lease (rd ra : Reg) : Statement (.lease rd ra) := e3_lt ..
theorem lfree (ra : Reg) : Statement (.lfree ra) := e3_lt ..
theorem lstat (rd ra : Reg) : Statement (.lstat rd ra) := e3_lt ..
theorem lwait (ra : Reg) : Statement (.lwait ra) := e3_lt ..
theorem movtd (td : BitVec 4) (f : TdField) (ra : Reg) : Statement (.movtd td f ra) := e3_lt ..
theorem rdtd (rd : Reg) (td : BitVec 4) (f : TdField) : Statement (.rdtd rd td f) := e3_lt ..
theorem bindq (q : BitVec 2) (ra : Reg) : Statement (.bindq q ra) := e3_lt ..
theorem unbindq (q : BitVec 2) : Statement (.unbindq q) := e3_lt ..
theorem gbegin (ra : Reg) : Statement (.gbegin ra) := e3_lt ..
theorem gcommit (rd : Reg) : Statement (.gcommit rd) := e3_lt ..
theorem gabort : Statement (.gabort) := e3_lt ..
theorem logmark (ra : Reg) : Statement (.logmark ra) := e3_lt ..
theorem cAddi (rd : Reg) (imm : BitVec 6) : Statement (.cAddi rd imm) := eC0_lt ..
theorem cLi (rd : Reg) (imm : BitVec 6) : Statement (.cLi rd imm) := eC0_lt ..
theorem cSlli (rd : Reg) (sh : BitVec 6) : Statement (.cSlli rd sh) := eC0_lt ..
theorem cSrli (rd : Reg) (sh : BitVec 6) : Statement (.cSrli rd sh) := eC0_lt ..
theorem cSrai (rd : Reg) (sh : BitVec 6) : Statement (.cSrai rd sh) := eC0_lt ..
theorem cLd (rd : Reg) (n : BitVec 6) : Statement (.cLd rd n) := eC0_lt ..
theorem cSt (rd : Reg) (n : BitVec 6) : Statement (.cSt rd n) := eC0_lt ..
theorem cAdd (rd ra : Reg) : Statement (.cAdd rd ra) := eC1_lt ..
theorem cSub (rd ra : Reg) : Statement (.cSub rd ra) := eC1_lt ..
theorem cAnd (rd ra : Reg) : Statement (.cAnd rd ra) := eC1_lt ..
theorem cOr (rd ra : Reg) : Statement (.cOr rd ra) := eC1_lt ..
theorem cXor (rd ra : Reg) : Statement (.cXor rd ra) := eC1_lt ..
theorem cSll (rd ra : Reg) : Statement (.cSll rd ra) := eC1_lt ..
theorem cSrl (rd ra : Reg) : Statement (.cSrl rd ra) := eC1_lt ..
theorem cSra (rd ra : Reg) : Statement (.cSra rd ra) := eC1_lt ..
theorem cMul (rd ra : Reg) : Statement (.cMul rd ra) := eC1_lt ..
theorem cMin (rd ra : Reg) : Statement (.cMin rd ra) := eC1_lt ..
theorem cMax (rd ra : Reg) : Statement (.cMax rd ra) := eC1_lt ..
theorem cMv (rd ra : Reg) : Statement (.cMv rd ra) := eC1_lt ..
theorem cBeqz (ra : Reg) (off : BitVec 6) : Statement (.cBeqz ra off) := eC2_lt ..
theorem cBnez (ra : Reg) (off : BitVec 6) : Statement (.cBnez ra off) := eC2_lt ..
theorem cJ (off : BitVec 11) : Statement (.cJ off) := eC3_lt ..
theorem cNop : Statement (.cNop) := eC3_lt ..
theorem cExit : Statement (.cExit) := eC3_lt ..
theorem cBkpt : Statement (.cBkpt) := eC3_lt ..
theorem cLbrk : Statement (.cLbrk) := eC3_lt ..
theorem cVadd (n : Reg) : Statement (.cVadd n) := eC2_lt ..
theorem cVsub (n : Reg) : Statement (.cVsub n) := eC2_lt ..
theorem cVmul (n : Reg) : Statement (.cVmul n) := eC2_lt ..
theorem cVand (n : Reg) : Statement (.cVand n) := eC2_lt ..
theorem cVor (n : Reg) : Statement (.cVor n) := eC2_lt ..
theorem cVxor (n : Reg) : Statement (.cVxor n) := eC2_lt ..
theorem cVmin (n : Reg) : Statement (.cVmin n) := eC2_lt ..
theorem cVmax (n : Reg) : Statement (.cVmax n) := eC2_lt ..
theorem cVminu (n : Reg) : Statement (.cVminu n) := eC2_lt ..
theorem cVmaxu (n : Reg) : Statement (.cVmaxu n) := eC2_lt ..
theorem cVfadd (n : Reg) : Statement (.cVfadd n) := eC2_lt ..
theorem cVfmul (n : Reg) : Statement (.cVfmul n) := eC2_lt ..
theorem cVfmin (n : Reg) : Statement (.cVfmin n) := eC2_lt ..
theorem cVfmax (n : Reg) : Statement (.cVfmax n) := eC2_lt ..
theorem cVmand (n : Reg) : Statement (.cVmand n) := eC2_lt ..
theorem cVmor (n : Reg) : Statement (.cVmor n) := eC2_lt ..
theorem cVmxor (n : Reg) : Statement (.cVmxor n) := eC2_lt ..
theorem cVmandn (n : Reg) : Statement (.cVmandn n) := eC2_lt ..
theorem vadd (v : VAB) : Statement (.vadd v) := e48_lt ..
theorem vsub (v : VAB) : Statement (.vsub v) := e48_lt ..
theorem vrsub (v : VAB) : Statement (.vrsub v) := e48_lt ..
theorem vmul (v : VAB) : Statement (.vmul v) := e48_lt ..
theorem vmulh (v : VAB) : Statement (.vmulh v) := e48_lt ..
theorem vmulhu (v : VAB) : Statement (.vmulhu v) := e48_lt ..
theorem vdiv (v : VAB) : Statement (.vdiv v) := e48_lt ..
theorem vdivu (v : VAB) : Statement (.vdivu v) := e48_lt ..
theorem vrem (v : VAB) : Statement (.vrem v) := e48_lt ..
theorem vmin (v : VAB) : Statement (.vmin v) := e48_lt ..
theorem vmax (v : VAB) : Statement (.vmax v) := e48_lt ..
theorem vminu (v : VAB) : Statement (.vminu v) := e48_lt ..
theorem vmaxu (v : VAB) : Statement (.vmaxu v) := e48_lt ..
theorem vand (v : VAB) : Statement (.vand v) := e48_lt ..
theorem vor (v : VAB) : Statement (.vor v) := e48_lt ..
theorem vxor (v : VAB) : Statement (.vxor v) := e48_lt ..
theorem vandn (v : VAB) : Statement (.vandn v) := e48_lt ..
theorem vsll (v : VAB) : Statement (.vsll v) := e48_lt ..
theorem vsrl (v : VAB) : Statement (.vsrl v) := e48_lt ..
theorem vsra (v : VAB) : Statement (.vsra v) := e48_lt ..
theorem vadc (v : VABC) : Statement (.vadc v) := e48_lt ..
theorem vadcCo (v : VABC) : Statement (.vadcCo v) := e48_lt ..
theorem vsbc (v : VABC) : Statement (.vsbc v) := e48_lt ..
theorem vsbcCo (v : VABC) : Statement (.vsbcCo v) := e48_lt ..
theorem vcmp (c : ICond) (v : VAB) : Statement (.vcmp c v) := e48_lt ..
theorem vmerge (v : VAB) : Statement (.vmerge v) := e48_lt ..
theorem vmv (v : VA) : Statement (.vmv v) := e48_lt ..
theorem vdots (v : VABC) : Statement (.vdots v) := e48_lt ..
theorem vscan (op : RedOp) (v : VA) : Statement (.vscan op v) := e48_lt ..
theorem vfadd (v : VAB) : Statement (.vfadd v) := e48_lt ..
theorem vfsub (v : VAB) : Statement (.vfsub v) := e48_lt ..
theorem vfmul (v : VAB) : Statement (.vfmul v) := e48_lt ..
theorem vffma (v : VABC) : Statement (.vffma v) := e48_lt ..
theorem vfdiv (v : VAB) : Statement (.vfdiv v) := e48_lt ..
theorem vfsqrt (v : VA) : Statement (.vfsqrt v) := e48_lt ..
theorem vfmin (v : VAB) : Statement (.vfmin v) := e48_lt ..
theorem vfmax (v : VAB) : Statement (.vfmax v) := e48_lt ..
theorem vfcmp (c : VFCond) (v : VAB) : Statement (.vfcmp c v) := e48_lt ..
theorem vexp2 (v : VA) : Statement (.vexp2 v) := e48_lt ..
theorem vlog2 (v : VA) : Statement (.vlog2 v) := e48_lt ..
theorem vrcp (v : VA) : Statement (.vrcp v) := e48_lt ..
theorem vrsq (v : VA) : Statement (.vrsq v) := e48_lt ..
theorem vtanh (v : VA) : Statement (.vtanh v) := e48_lt ..
theorem vsin (v : VA) : Statement (.vsin v) := e48_lt ..
theorem vcos (v : VA) : Statement (.vcos v) := e48_lt ..
theorem vredsum (v : VA) : Statement (.vredsum v) := e48_lt ..
theorem vredmax (v : VA) : Statement (.vredmax v) := e48_lt ..
theorem vredmin (v : VA) : Statement (.vredmin v) := e48_lt ..
theorem vredand (v : VA) : Statement (.vredand v) := e48_lt ..
theorem vredor (v : VA) : Statement (.vredor v) := e48_lt ..
theorem vredxor (v : VA) : Statement (.vredxor v) := e48_lt ..
theorem vslideup (cnt : Reg) (v : VA) : Statement (.vslideup cnt v) := e48_lt ..
theorem vslidedn (cnt : Reg) (v : VA) : Statement (.vslidedn cnt v) := e48_lt ..
theorem vmand (v : VAB) : Statement (.vmand v) := e48_lt ..
theorem vmor (v : VAB) : Statement (.vmor v) := e48_lt ..
theorem vmxor (v : VAB) : Statement (.vmxor v) := e48_lt ..
theorem vmandn (v : VAB) : Statement (.vmandn v) := e48_lt ..
theorem vmnot (v : VA) : Statement (.vmnot v) := e48_lt ..
theorem vmpop (rd : Reg) (v : VA1) : Statement (.vmpop rd v) := e48_lt ..
theorem vmfirst (rd : Reg) (v : VA1) : Statement (.vmfirst rd v) := e48_lt ..
theorem vmlast (rd : Reg) (v : VA1) : Statement (.vmlast rd v) := e48_lt ..
theorem vmany (rd : Reg) (v : VA1) : Statement (.vmany rd v) := e48_lt ..
theorem vgauss (v : VA) : Statement (.vgauss v) := e48_lt ..
theorem vgaussPert (v : VA) : Statement (.vgaussPert v) := e48_lt ..
theorem vrand (v : VA) : Statement (.vrand v) := e48_lt ..
theorem vrandSr (v : VA) : Statement (.vrandSr v) := e48_lt ..
theorem vld (ord : Ord) (v : VA) : Statement (.vld ord v) := e48_lt ..
theorem vst (ord : Ord) (v : VA) : Statement (.vst ord v) := e48_lt ..
theorem vstx (ord : Ord) (v : VA) : Statement (.vstx ord v) := e48_lt ..
theorem vamo (op : AmoOp) (ord : Ord) (v : VAB) : Statement (.vamo op ord v) := e48_lt ..
theorem vcas (ord : Ord) (v : VABC) : Statement (.vcas ord v) := e48_lt ..
theorem vempty (v : VD) : Statement (.vempty v) := e48_lt ..
theorem vfill (v : VD) : Statement (.vfill v) := e48_lt ..
theorem vwait (rt : Reg) (v : VAB) : Statement (.vwait rt v) := e48_lt ..
theorem vown (v : VA) : Statement (.vown v) := e48_lt ..
theorem vidx (d : Spec) (start step : BitVec 16) : Statement (.vidx d start step) := e64_lt ..
theorem vmsh (d a : Spec) (k : BitVec 32) : Statement (.vmsh d a k) := e64_lt ..
theorem vcvt (src : SrcType) (d a : Spec) : Statement (.vcvt src d a) := e64_lt ..
theorem mma (z : Bool) (h : Reg) (ta tb : BitVec 4) (arow : BitVec 9) (acol : BitVec 7) : Statement (.mma z h ta tb arow acol) := e64_lt ..
theorem mmae (z : Bool) (h draw : Reg) (ta tb : BitVec 4) (arow : BitVec 9) (acol : BitVec 7) : Statement (.mmae z h draw ta tb arow acol) := e64_lt ..
theorem accz (h : Reg) (arow : BitVec 9) (acol : BitVec 7) (nrows1 : BitVec 9) (ncols1 : BitVec 7) : Statement (.accz h arow acol nrows1 ncols1) := e64_lt ..
theorem accin (h : Reg) (a : Spec) (pol : Bool) (mask : MSel) (arow : BitVec 9) (acol ncol1 : BitVec 7) : Statement (.accin h a pol mask arow acol ncol1) := e64_lt ..
theorem drain (clr : Bool) (h : Reg) (d : Spec) (mask : MSel) (arow : BitVec 9) (acol ncol1 : BitVec 7) : Statement (.drain clr h d mask arow acol ncol1) := e64_lt ..
theorem tsub (rq : Reg) : Statement (.tsub rq) := e64_lt ..
theorem pcopy (p : PumpArgs) (d a : Spec) : Statement (.pcopy p d a) := e64_lt ..
theorem pgath (p : PumpArgs) (rr : Reg) (d a : Spec) : Statement (.pgath p rr d a) := e64_lt ..
theorem pscat (p : PumpArgs) (rr : Reg) (d a : Spec) : Statement (.pscat p rr d a) := e64_lt ..
theorem prdc (p : PumpArgs) (d a : Spec) : Statement (.prdc p d a) := e64_lt ..
theorem pfill (p : PumpArgs) (d a : Spec) : Statement (.pfill p d a) := e64_lt ..
theorem attn (hint : AttnHint) (rc : Reg) (qb0 nqb1 : BitVec 16) : Statement (.attn hint rc qb0 nqb1) := e64_lt ..
theorem kvw (rc ra rp : Reg) : Statement (.kvw rc ra rp) := e64_lt ..
theorem kvinv (rc ra rp : Reg) : Statement (.kvinv rc ra rp) := e64_lt ..
theorem reset : Statement (.reset) := Nat.one_pos
theorem loadComplete (sq grp : Nat) : Statement (.loadComplete sq grp) := Nat.one_pos
theorem mwaitWake (sq : Nat) : Statement (.mwaitWake sq) := Nat.one_pos
theorem streamRead (sq : Nat) : Statement (.streamRead sq) := Nat.one_pos
theorem setvlcWake (sq : Nat) : Statement (.setvlcWake sq) := Nat.one_pos
theorem exitComplete (sq : Nat) : Statement (.exitComplete sq) := Nat.one_pos
theorem barrierWaitMet (sq : Nat) : Statement (.barrierWaitMet sq) := Nat.one_pos
theorem lwaitComplete (sq : Nat) : Statement (.lwaitComplete sq) := Nat.one_pos
theorem groupCommit (sq : Nat) : Statement (.groupCommit sq) := Nat.one_pos
theorem vwaitWake (sq : Nat) : Statement (.vwaitWake sq) := Nat.one_pos
theorem elementExecute (sq grp : Nat) : Statement (.elementExecute sq grp) := Nat.one_pos
theorem vldLanding (idx : Nat) : Statement (.vldLanding idx) := Nat.one_pos
theorem pageWalk (die ctx va : Nat) (acc : Access) : Statement (.pageWalk die ctx va acc) := Nat.one_pos
theorem migrationTimeout (idx : Nat) : Statement (.migrationTimeout idx) := Nat.one_pos
theorem trapEntry (sq : Nat) : Statement (.trapEntry sq) := Nat.one_pos
theorem haltStop (sq : Nat) : Statement (.haltStop sq) := Nat.one_pos
theorem machineCheck (ctx addr : Nat) (phys : Bool) : Statement (.machineCheck ctx addr phys) := Nat.one_pos
theorem preemptionRequest (ctx : Nat) : Statement (.preemptionRequest ctx) := Nat.one_pos
theorem softTake (sq : Nat) : Statement (.softTake sq) := Nat.one_pos
theorem hardTake (sq : Nat) : Statement (.hardTake sq) := Nat.one_pos
theorem leaseGrant (die : Nat) : Statement (.leaseGrant die) := Nat.one_pos
theorem leaseAging (die ctx slot : Nat) : Statement (.leaseAging die ctx slot) := Nat.one_pos
theorem wakeComplete (die ctx slot : Nat) : Statement (.wakeComplete die ctx slot) := Nat.one_pos
theorem evictionDecided (die : Nat) : Statement (.evictionDecided die) := Nat.one_pos
theorem evictionEffect (die ctx slot : Nat) : Statement (.evictionEffect die ctx slot) := Nat.one_pos
theorem budgetEviction (die : Nat) : Statement (.budgetEviction die) := Nat.one_pos
theorem leaseReleaseComplete (die ctx slot : Nat) : Statement (.leaseReleaseComplete die ctx slot) := Nat.one_pos
theorem matrixStep (die eng : Nat) : Statement (.matrixStep die eng) := Nat.one_pos
theorem acczPass (die eng : Nat) : Statement (.acczPass die eng) := Nat.one_pos
theorem accinPass (die eng : Nat) : Statement (.accinPass die eng) := Nat.one_pos
theorem drainPass (die eng : Nat) : Statement (.drainPass die eng) := Nat.one_pos
theorem taskGateEvaluation (die idx : Nat) : Statement (.taskGateEvaluation die idx) := Nat.one_pos
theorem taskDispatch (die : Nat) : Statement (.taskDispatch die) := Nat.one_pos
theorem taskRun (die eng : Nat) : Statement (.taskRun die eng) := Nat.one_pos
theorem pumpElement (die pump copy elem : Nat) : Statement (.pumpElement die pump copy elem) := Nat.one_pos
theorem groupCommandRun (sq : Nat) : Statement (.groupCommandRun sq) := Nat.one_pos
theorem attnQueryBlock (sq : Nat) : Statement (.attnQueryBlock sq) := Nat.one_pos
theorem fabmonWindow (die percent : Nat) : Statement (.fabmonWindow die percent) := Nat.one_pos
theorem bucketRefill (die : Nat) : Statement (.bucketRefill die) := Nat.one_pos
theorem bankWave (sq : Nat) : Statement (.bankWave sq) := Nat.one_pos
theorem notify (who : Option Master) (q : Nat) : Statement (.notify who q) := Nat.one_pos
theorem notifyReset (who : Option Master) (q : Nat) (pos : BitVec 32) : Statement (.notifyReset who q pos) := Nat.one_pos
theorem notifyDisable (who : Option Master) (q : Nat) : Statement (.notifyDisable who q) := Nat.one_pos
theorem eventTake (die : Nat) : Statement (.eventTake die) := Nat.one_pos
theorem packetStart (q : Nat) : Statement (.packetStart q) := Nat.one_pos
theorem waitPacketCheck (q : Nat) : Statement (.waitPacketCheck q) := Nat.one_pos
theorem waitPacketTimeout (q : Nat) : Statement (.waitPacketTimeout q) := Nat.one_pos
theorem packetComplete (q pk : Nat) : Statement (.packetComplete q pk) := Nat.one_pos
theorem kernelPlacement (k : Nat) : Statement (.kernelPlacement k) := Nat.one_pos
theorem kernelComplete (k : Nat) : Statement (.kernelComplete k) := Nat.one_pos
theorem kernelAbort (k : Nat) : Statement (.kernelAbort k) := Nat.one_pos
theorem rangeChunk (sq : Nat) : Statement (.rangeChunk sq) := Nat.one_pos
theorem rangeSteal (k die : Nat) : Statement (.rangeSteal k die) := Nat.one_pos
theorem recordTake (sq : Nat) : Statement (.recordTake sq) := Nat.one_pos
theorem recordAging (die idx : Nat) : Statement (.recordAging die idx) := Nat.one_pos
theorem firmwareUpdate (m : Master) (val : Word) : Statement (.firmwareUpdate m val) := Nat.one_pos
theorem firmwareRestart (die : Nat) : Statement (.firmwareRestart die) := Nat.one_pos
theorem linkTraining (link lanes : Nat) : Statement (.linkTraining link lanes) := Nat.one_pos
theorem laneFailure (link : Nat) : Statement (.laneFailure link) := Nat.one_pos
theorem flitReceive (link cls num : Nat) (crcOk : Bool) : Statement (.flitReceive link cls num crcOk) := Nat.one_pos
theorem flitReplay (link cls : Nat) : Statement (.flitReplay link cls) := Nat.one_pos
theorem routeFailure (src dst : Nat) (ctx : Option Nat) (addr : Nat) (byUnit : Bool) : Statement (.routeFailure src dst ctx addr byUnit) := Nat.one_pos
theorem retrain (m : Master) (link : Nat) : Statement (.retrain m link) := Nat.one_pos
theorem linkstatClr (m : Master) (link : Nat) : Statement (.linkstatClr m link) := Nat.one_pos
theorem hostMemAccess (addr : Nat) (acc : HostAcc) : Statement (.hostMemAccess addr acc) := Nat.one_pos
theorem hosterrClear (m : Master) : Statement (.hosterrClear m) := Nat.one_pos
theorem peerRequest (port addr : Nat) (req : PeerReq) : Statement (.peerRequest port addr req) := Nat.one_pos
theorem spdmRequest (req : SpdmReq) : Statement (.spdmRequest req) := Nat.one_pos
theorem powerComparison (watts : Nat) (bank : List Nat) : Statement (.powerComparison watts bank) := Nat.one_pos
theorem leasebudWrite (m : Master) (die : Nat) (val : Word) : Statement (.leasebudWrite m die val) := Nat.one_pos
theorem bankpwrWrite (m : Master) (die : Nat) (val : Word) : Statement (.bankpwrWrite m die val) := Nat.one_pos
theorem pwrdieForce (m : Master) (die : Nat) (val : Word) : Statement (.pwrdieForce m die val) := Nat.one_pos
theorem quotaPeriod : Statement (.quotaPeriod) := Nat.one_pos
theorem tickPeriod : Statement (.tickPeriod) := Nat.one_pos
theorem logSpaceFree (sq : Nat) : Statement (.logSpaceFree sq) := Nat.one_pos
theorem ownClaim (m : Master) (nonce : BitVec 16) : Statement (.ownClaim m nonce) := Nat.one_pos
theorem ownHandover (m succ : Master) (nonce : BitVec 16) : Statement (.ownHandover m succ nonce) := Nat.one_pos
theorem ownRelease (m : Master) (nonce : BitVec 16) : Statement (.ownRelease m nonce) := Nat.one_pos
theorem ownHeartbeatTimeout : Statement (.ownHeartbeatTimeout) := Nat.one_pos
theorem ownHandoverTimeout : Statement (.ownHandoverTimeout) := Nat.one_pos
theorem freezeRequest (m : Master) : Statement (.freezeRequest m) := Nat.one_pos
theorem thawRequest (m : Master) : Statement (.thawRequest m) := Nat.one_pos
theorem frzPin (asserted : Bool) : Statement (.frzPin asserted) := Nat.one_pos
theorem freezeTakeEffect : Statement (.freezeTakeEffect) := Nat.one_pos
theorem debugAccess (acc : DebugAcc) : Statement (.debugAccess acc) := Nat.one_pos
theorem ecccntClr (m : Master) (die : Nat) : Statement (.ecccntClr m die) := Nat.one_pos
theorem registerWrite (m : Master) (off : Nat) (val : Word) : Statement (.registerWrite m off val) := Nat.one_pos
theorem hdmDecoderProgram (dec base : Nat) : Statement (.hdmDecoderProgram dec base) := Nat.one_pos

end WordRange
end Sys2Proof.Laws
end

