-- ==== Sys2Proof/Tests/Slice0.lean ====
section
/-! SUPPORT. The model's own tests. Ill-formed terms that WellFormed refuses; words written out from the spec's encodings
with the instructions that they stand for; a witness for the hypotheses of every statement, on small states; and single
steps whose results are worked out by hand from the rules. -/

namespace Sys2Proof.Tests
open Sys2Proof Sys2Proof.Machine Sys2Proof.Claim

/-- A word decodes to an instruction. -/
def reads (w : Nat) (i : Instr) : Bool := match decode w with
  | .ok j => j == i
  | .error _ => false

/-- An ill-formed term, and the decoder's refusal of the bits that would stand for it. -/
def refusedForm (i : Instr) : Bool := !i.wf && (match decode (encode i) with
  | .ok j => j != i
  | .error _ => true)

/-- Equal and two integer types of FCVT (05 R107). -/
theorem test_wf_fcvt : refusedForm (.fcvt .fp32 .fp32 5 6) && refusedForm (.fcvt .i64 .n64 5 6) = true := by decide
/-- Loops shorter than three halfwords, and LOOPI's count of 0 (05 R105; 06 R153). -/
theorem test_wf_loops : refusedForm (.loop 9 2) && refusedForm (.loopi 1 2) && refusedForm (.loopi 0 4) = true := by decide
/-- Equal classes of FENCEX (05 R110). -/
theorem test_wf_fencex : refusedForm (.fencex .v .v) = true := by decide
/-- Writes of stream registers (05 R111). -/
theorem test_wf_streamWrites : refusedForm (.movcWrite .sq0 5) && refusedForm (.movcw 4 .sq3 5) = true := by decide
/-- A depth above 5 (05 R110). -/
theorem test_wf_lix : refusedForm (.lix 5 6) = true := by decide
/-- Compact forms with x0 (05 R118). -/
theorem test_wf_compact : refusedForm (.cAddi 0 1) && refusedForm (.cAdd 0 3) && refusedForm (.cVadd 0) = true := by decide
/-- Mode 11 as a memory destination, policy 1 on mode 11, and N = 31 in modes 01 and 10 (01 R24; 05 R113). -/
theorem test_wf_specs : refusedForm (.vadd ⟨.scal 1, .unit 2, .unit 3, false, false, .none⟩) &&
    refusedForm (.vadd ⟨.unit 1, .scal 2, .unit 3, true, false, .none⟩) &&
    refusedForm (.vffma ⟨.unit 1, .unit 2, .unit 3, .scal 4, false, false, true, .none⟩) &&
    refusedForm (.vsub ⟨.stride 31, .unit 2, .unit 3, false, false, .none⟩) &&
    refusedForm (.vmv ⟨.unit 1, .index 31, false, .none⟩) &&
    refusedForm (.vdots ⟨.unit 1, .unit 2, .unit 3, .stride 31, false, false, false, .none⟩) &&
    refusedForm (.vredsum ⟨.index 31, .unit 2, false, .none⟩) && refusedForm (.vmpop 1 ⟨.scal 2, true, .none⟩) &&
    refusedForm (.vempty ⟨.scal 2, .none⟩) = true := by decide
/-- VMERGE without a mask, VOWN with another mode than 00, VAMO into another x register than x0 (05 R115). -/
theorem test_wf_roles : refusedForm (.vmerge ⟨.unit 1, .unit 2, .unit 3, false, false, .none⟩) &&
    refusedForm (.vown ⟨.stride 1, .unit 2, false, .none⟩) &&
    refusedForm (.vamo .add .none ⟨.scal 1, .unit 2, .unit 3, false, false, .none⟩) = true := by decide
/-- VIDX, VMSH and VCVT with a mode-11 destination, and VCVT's source fields (05 R117; 07 R197). -/
theorem test_wf_wide : refusedForm (.vidx (.scal 1) 0 0) && refusedForm (.vmsh (.scal 1) (.unit 2) 0) &&
    refusedForm (.vcvt ⟨3, 0⟩ (.scal 1) (.unit 2)) && refusedForm (.vcvt ⟨18, 0⟩ (.unit 1) (.unit 2)) &&
    refusedForm (.vcvt ⟨14, 0⟩ (.unit 1) (.unit 2)) && refusedForm (.vcvt ⟨3, 1⟩ (.unit 1) (.unit 2)) = true := by decide
/-- Regions that leave the accumulator store (10 R270 to R272). -/
theorem test_wf_tiles : refusedForm (.accz 5 500 0 12 0) && refusedForm (.accz 5 0 120 0 8) &&
    refusedForm (.accin 5 (.unit 3) false .none 0 127 1) && refusedForm (.drain false 5 (.unit 3) .none 0 100 28) &&
    refusedForm (.drain false 5 (.scal 3) .none 0 0 0) = true := by decide
/-- Pump fields: xL = x0, SZ = 7, and the modes and fields of each instruction (11 R283, R284). -/
theorem test_wf_pumps : refusedForm (.pcopy ⟨1, 2, 0, 3, false, .none⟩ (.unit 3) (.unit 4)) &&
    refusedForm (.pcopy ⟨1, 2, 3, 7, false, .none⟩ (.unit 3) (.unit 4)) &&
    refusedForm (.pcopy ⟨1, 2, 3, 3, false, .none⟩ (.index 3) (.unit 4)) &&
    refusedForm (.pgath ⟨1, 2, 3, 1, false, .none⟩ 6 (.unit 3) (.index 4)) &&
    refusedForm (.pgath ⟨1, 2, 3, 0, false, .none⟩ 0 (.unit 3) (.index 4)) &&
    refusedForm (.pgath ⟨1, 2, 3, 0, false, .none⟩ 6 (.unit 3) (.unit 4)) &&
    refusedForm (.pscat ⟨1, 2, 3, 0, false, .none⟩ 6 (.unit 3) (.unit 4)) &&
    refusedForm (.prdc ⟨1, 2, 3, 1, false, .none⟩ (.unit 3) (.unit 4)) &&
    refusedForm (.pfill ⟨1, 2, 3, 4, false, .none⟩ (.unit 3) (.scal 4)) &&
    refusedForm (.pfill ⟨1, 2, 3, 3, false, .none⟩ (.unit 3) (.unit 4)) = true := by decide
/-- The zero halfword, unlisted operations, reserved majors, registers, scopes and fields, and unlisted opcodes are
ILLEGAL (05 R104 to R121). -/
theorem test_reservedWords : [0x0000, 25 * 2 ^ 22 + 3, 0x73, 0x77, 9 * 2 ^ 28 + 0x33, 10 * 2 ^ 28 + 0x3B,
    0x61 * 2 ^ 22 + 0x6F, 10 * 2 ^ 22 + 19 * 2 ^ 12 + 0x6F, 5 * 2 ^ 7 + 0x6F, 0x48 * 2 ^ 22 + 10 * 2 ^ 17 + 0x6F,
    12 * 2 ^ 12 + 2 ^ 7 + 1, 5 * 2 ^ 13 + 2, 0x29 * 2 ^ 6 + 0x1F, 4 * 2 ^ 6 + 0x3F].all (fun w =>
      match decode w with
      | .ok _ => false
      | .error _ => true) = true := by decide


/-- Words written out from 05 R104, R106. -/
theorem test_decodeInteger1 : [
    ((0xBE083 : Nat), (.add 1 30 5 : Instr)),
    ((0x4FD103 : Nat), (.sub 2 29 7 : Instr)),
    ((0x93C183 : Nat), (.mul 3 28 9 : Instr)),
    ((0xD7B203 : Nat), (.mulh 4 27 11 : Instr)),
    ((0x11BA283 : Nat), (.mulhu 5 26 13 : Instr)),
    ((0x15F9303 : Nat), (.div 6 25 15 : Instr)),
    ((0x1A38383 : Nat), (.divu 7 24 17 : Instr)),
    ((0x1E77403 : Nat), (.rem 8 23 19 : Instr)),
    ((0x22B6483 : Nat), (.remu 9 22 21 : Instr)),
    ((0x26F5503 : Nat), (.and 10 21 23 : Instr)),
    ((0x2B34583 : Nat), (.or 11 20 25 : Instr)),
    ((0x2F73603 : Nat), (.xor 12 19 27 : Instr)),
    ((0x33B2683 : Nat), (.andn 13 18 29 : Instr)),
    ((0x37F1703 : Nat), (.sll 14 17 31 : Instr)),
    ((0x3830783 : Nat), (.srl 15 16 1 : Instr)),
    ((0x3C6F803 : Nat), (.sra 16 15 3 : Instr))].all (fun p => reads p.1 p.2) = true := by decide
/-- Words written out from 05 R104, R106. -/
theorem test_decodeInteger2 : [
    ((0x40AE883 : Nat), (.slt 17 14 5 : Instr)),
    ((0x44ED903 : Nat), (.sltu 18 13 7 : Instr)),
    ((0x492C983 : Nat), (.min 19 12 9 : Instr)),
    ((0x4D6BA03 : Nat), (.max 20 11 11 : Instr)),
    ((0x51AAA83 : Nat), (.minu 21 10 13 : Instr)),
    ((0x55E9B03 : Nat), (.maxu 22 9 15 : Instr)),
    ((0x5807F83 : Nat), (.clz 31 7 : Instr)),
    ((0x5C08F03 : Nat), (.ctz 30 8 : Instr)),
    ((0x6009E83 : Nat), (.popc 29 9 : Instr))].all (fun p => reads p.1 p.2) = true := by decide
/-- Words written out from 05 R105, R117. -/
theorem test_decodeImmediate : [
    ((0x80006287 : Nat), (.addi 5 6 0x4000 : Instr)),
    ((0x8002730B : Nat), (.andi 6 7 0x4001 : Instr)),
    ((0x8004838F : Nat), (.ori 7 8 0x4002 : Instr)),
    ((0x80069413 : Nat), (.xori 8 9 0x4003 : Instr)),
    ((0x8008A497 : Nat), (.slti 9 10 0x4004 : Instr)),
    ((0x7E629B : Nat), (.slli 5 6 63 : Instr)),
    ((0xFC731B : Nat), (.srli 6 7 62 : Instr)),
    ((0x17A839B : Nat), (.srai 7 8 61 : Instr)),
    ((0xFFFFE3A3 : Nat), (.liShort 7 0xFFFFE : Instr)),
    ((0x80000001000650FF : Nat), (.liLong 5 0x80000001 : Instr)),
    ((0x89ABCDEF040650FF : Nat), (.liHi 5 0x89ABCDEF : Instr))].all (fun p => reads p.1 p.2) = true := by decide
/-- Words written out from 05 R105, R108, R109; the first AMO word is 06 R143's own. -/
theorem test_decodeMemory : [
    ((0xFFF024A7 : Nat), (.ld 9 2 0x7FF8 : Instr)),
    ((0xFFE0352B : Nat), (.st 10 3 0x7FF0 : Instr)),
    ((0xFFD045AF : Nat), (.ldfe 11 4 0x7FE8 : Instr)),
    ((0x60C72B3 : Nat), (.amo .add .relDie false 5 6 7 : Instr)),
    ((0xC72B3 : Nat), (.amo .add .none false 5 6 7 : Instr)),
    ((0x124C72B3 : Nat), (.amo .and .acqDie true 5 6 7 : Instr)),
    ((0x240C72B3 : Nat), (.amo .or .acqPkg false 5 6 7 : Instr)),
    ((0x364C72B3 : Nat), (.amo .xor .relDie true 5 6 7 : Instr)),
    ((0x480C72B3 : Nat), (.amo .min .relPkg false 5 6 7 : Instr)),
    ((0x5A4C72B3 : Nat), (.amo .max .scDie true 5 6 7 : Instr)),
    ((0x6C0C72B3 : Nat), (.amo .minu .scPkg false 5 6 7 : Instr)),
    ((0x704C72B3 : Nat), (.amo .maxu .none true 5 6 7 : Instr)),
    ((0x820C72B3 : Nat), (.amo .swap .acqDie false 5 6 7 : Instr)),
    ((0xC4C72B7 : Nat), (.amocas .scPkg true 5 6 7 : Instr))].all (fun p => reads p.1 p.2) = true := by decide
/-- Words written out from 05 R107; the last word is 06 R149's own. -/
theorem test_decodeFloat1 : [
    ((0xE62BB : Nat), (.fadd .bf16 5 6 7 : Instr)),
    ((0x140E62BB : Nat), (.fsub .fp16 5 6 7 : Instr)),
    ((0x280E62BB : Nat), (.fmul .fp32 5 6 7 : Instr)),
    ((0x3C0E62BB : Nat), (.ffma .fp64 5 6 7 : Instr)),
    ((0x400E62BB : Nat), (.fdiv .bf16 5 6 7 : Instr)),
    ((0x540062BB : Nat), (.fsqrt .fp16 5 6 : Instr)),
    ((0x680E62BB : Nat), (.fmin .fp32 5 6 7 : Instr)),
    ((0x7C0E62BB : Nat), (.fmax .fp64 5 6 7 : Instr)),
    ((0x800E62BB : Nat), (.fcmp .eq .bf16 5 6 7 : Instr)),
    ((0x844E62BB : Nat), (.fcmp .lt .fp16 5 6 7 : Instr)),
    ((0x888E62BB : Nat), (.fcmp .le .fp32 5 6 7 : Instr)),
    ((0x8CCE62BB : Nat), (.fcmp .un .fp64 5 6 7 : Instr)),
    ((0x914062BB : Nat), (.fcvt .bf16 .n64 5 6 : Instr)),
    ((0x934062BB : Nat), (.fcvt .fp16 .n64 5 6 : Instr)),
    ((0x940062BB : Nat), (.fcvt .fp32 .bf16 5 6 : Instr)),
    ((0x964062BB : Nat), (.fcvt .fp64 .fp16 5 6 : Instr))].all (fun p => reads p.1 p.2) = true := by decide
/-- Words written out from 05 R107; the last word is 06 R149's own. -/
theorem test_decodeFloat2 : [
    ((0x988062BB : Nat), (.fcvt .i64 .fp32 5 6 : Instr)),
    ((0x9AC062BB : Nat), (.fcvt .n64 .fp64 5 6 : Instr)),
    ((0x380E62BB : Nat), (.ffma .fp32 5 6 7 : Instr))].all (fun p => reads p.1 p.2) = true := by decide
/-- Words written out from 05 R104, R105. -/
theorem test_decodeControl : [
    ((0x800041C3 : Nat), (.beq 3 4 0x4000 : Instr)),
    ((0x80025247 : Nat), (.bne 4 5 0x4001 : Instr)),
    ((0x800462CB : Nat), (.blt 5 6 0x4002 : Instr)),
    ((0x8006734F : Nat), (.bge 6 7 0x4003 : Instr)),
    ((0x800883D3 : Nat), (.bltu 7 8 0x4004 : Instr)),
    ((0x800A9457 : Nat), (.bgeu 8 9 0x4005 : Instr)),
    ((0x60DB : Nat), (.jal 1 6 : Instr)),
    ((0xFFFE20E3 : Nat), (.jalr 1 2 0x7FFF : Instr)),
    ((0x604E7 : Nat), (.loop 9 3 : Instr)),
    ((0x8026B : Nat), (.loopi 4 4 : Instr)),
    ((0x7B : Nat), (.hintNop 0 : Instr)),
    ((0xFFFFFFFB : Nat), (.hintNop 0x1FFFFFF : Instr))].all (fun p => reads p.1 p.2) = true := by decide
/-- Words written out from 05 R110, with the words that the entries of 10, 11, 12, 13, 15 and 21 give. -/
theorem test_decodeSystem1 : [
    ((0x6F : Nat), (.fence .seq : Instr)),
    ((0xEF : Nat), (.fence .clu : Instr)),
    ((0x16F : Nat), (.fence .die : Instr)),
    ((0x1EF : Nat), (.fence .pkg : Instr)),
    ((0x26F : Nat), (.fence .sys : Instr)),
    ((0x42006F : Nat), (.fencex .v .m : Instr)),
    ((0x44106F : Nat), (.fencex .m .a : Instr)),
    ((0x46206F : Nat), (.fencex .a .p : Instr)),
    ((0x48306F : Nat), (.fencex .p .h : Instr)),
    ((0x40406F : Nat), (.fencex .h .v : Instr)),
    ((0x80006F : Nat), (.iflush : Instr)),
    ((0xC1F06F : Nat), (.trap 31 : Instr)),
    ((0x100006F : Nat), (.rett : Instr)),
    ((0x140006F : Nat), (.bkpt : Instr)),
    ((0x180906F : Nat), (.mon 9 : Instr)),
    ((0x1C0946F : Nat), (.mwait 8 9 : Instr))].all (fun p => reads p.1 p.2) = true := by decide
/-- Words written out from 05 R110, with the words that the entries of 10, 11, 12, 13, 15 and 21 give. -/
theorem test_decodeSystem2 : [
    ((0x200046F : Nat), (.tick 8 : Instr)),
    ((0x30062EF : Nat), (.setvl 5 6 : Instr)),
    ((0x34E62EF : Nat), (.setvlc 5 6 7 : Instr)),
    ((0x38E606F : Nat), (.pubhw 6 7 : Instr)),
    ((0x3C062EF : Nat), (.ownq 5 6 : Instr)),
    ((0x40052EF : Nat), (.lix 5 5 : Instr)),
    ((0x440006F : Nat), (.lbrk : Instr)),
    ((0x600906F : Nat), (.spawn 9 : Instr)),
    ((0x640906F : Nat), (.join 9 : Instr)),
    ((0x680006F : Nat), (.exit : Instr)),
    ((0x816A06F : Nat), (.barcfg .clu 10 11 : Instr)),
    ((0x900A2EF : Nat), (.arrive .clu 5 10 : Instr)),
    ((0xA0AA06F : Nat), (.waitb .clu 10 5 : Instr)),
    ((0xB00A06F : Nat), (.arrwait .clu 10 : Instr)),
    ((0x856A06F : Nat), (.barcfg .die 10 11 : Instr)),
    ((0x940A2EF : Nat), (.arrive .die 5 10 : Instr))].all (fun p => reads p.1 p.2) = true := by decide
/-- Words written out from 05 R110, with the words that the entries of 10, 11, 12, 13, 15 and 21 give. -/
theorem test_decodeSystem3 : [
    ((0xA4AA06F : Nat), (.waitb .die 10 5 : Instr)),
    ((0xB40A06F : Nat), (.arrwait .die 10 : Instr)),
    ((0x896A06F : Nat), (.barcfg .pkg 10 11 : Instr)),
    ((0x980A2EF : Nat), (.arrive .pkg 5 10 : Instr)),
    ((0xA8AA06F : Nat), (.waitb .pkg 10 5 : Instr)),
    ((0xB80A06F : Nat), (.arrwait .pkg 10 : Instr)),
    ((0x8D6A06F : Nat), (.barcfg .stg 10 11 : Instr)),
    ((0x9C0A2EF : Nat), (.arrive .stg 5 10 : Instr)),
    ((0xACAA06F : Nat), (.waitb .stg 10 5 : Instr)),
    ((0xBC0A06F : Nat), (.arrwait .stg 10 : Instr)),
    ((0xC16A06F : Nat), (.tlbinv 10 11 : Instr)),
    ((0xC40A2EF : Nat), (.pgq 5 10 : Instr)),
    ((0xE00A06F : Nat), (.ctxld 10 : Instr)),
    ((0xE40A06F : Nat), (.ctxst 10 : Instr)),
    ((0xE8002EF : Nat), (.sumppop 5 : Instr)),
    ((0x1000A2EF : Nat), (.lease 5 10 : Instr))].all (fun p => reads p.1 p.2) = true := by decide
/-- Words written out from 05 R110, with the words that the entries of 10, 11, 12, 13, 15 and 21 give. -/
theorem test_decodeSystem4 : [
    ((0x1040A06F : Nat), (.lfree 10 : Instr)),
    ((0x1080A2EF : Nat), (.lstat 5 10 : Instr)),
    ((0x10C0A06F : Nat), (.lwait 10 : Instr)),
    ((0x120067EF : Nat), (.movtd 15 .base 6 : Instr)),
    ((0x124003EF : Nat), (.rdtd 7 0 .base : Instr)),
    ((0x1202676F : Nat), (.movtd 14 .base2 6 : Instr)),
    ((0x124213EF : Nat), (.rdtd 7 1 .base2 : Instr)),
    ((0x120466EF : Nat), (.movtd 13 .rows 6 : Instr)),
    ((0x124423EF : Nat), (.rdtd 7 2 .rows : Instr)),
    ((0x1206666F : Nat), (.movtd 12 .cols 6 : Instr)),
    ((0x124633EF : Nat), (.rdtd 7 3 .cols : Instr)),
    ((0x120865EF : Nat), (.movtd 11 .etype 6 : Instr)),
    ((0x124843EF : Nat), (.rdtd 7 4 .etype : Instr)),
    ((0x120A656F : Nat), (.movtd 10 .stride 6 : Instr)),
    ((0x124A53EF : Nat), (.rdtd 7 5 .stride : Instr)),
    ((0x120C64EF : Nat), (.movtd 9 .orow 6 : Instr))].all (fun p => reads p.1 p.2) = true := by decide
/-- Words written out from 05 R110, with the words that the entries of 10, 11, 12, 13, 15 and 21 give. -/
theorem test_decodeSystem5 : [
    ((0x124C63EF : Nat), (.rdtd 7 6 .orow : Instr)),
    ((0x120E646F : Nat), (.movtd 8 .ocol 6 : Instr)),
    ((0x124E73EF : Nat), (.rdtd 7 7 .ocol : Instr)),
    ((0x121063EF : Nat), (.movtd 7 .gwidth 6 : Instr)),
    ((0x125083EF : Nat), (.rdtd 7 8 .gwidth : Instr)),
    ((0x1212636F : Nat), (.movtd 6 .stream 6 : Instr)),
    ((0x125293EF : Nat), (.rdtd 7 9 .stream : Instr)),
    ((0x120460EF : Nat), (.movtd 1 .rows 6 : Instr)),
    ((0x124413EF : Nat), (.rdtd 7 1 .rows : Instr)),
    ((0x1400E0EF : Nat), (.bindq 1 14 : Instr)),
    ((0x144000EF : Nat), (.unbindq 1 : Instr)),
    ((0x1600A06F : Nat), (.gbegin 10 : Instr)),
    ((0x164002EF : Nat), (.gcommit 5 : Instr)),
    ((0x1680006F : Nat), (.gabort : Instr)),
    ((0x1800506F : Nat), (.logmark 5 : Instr))].all (fun p => reads p.1 p.2) = true := by decide
/-- Words written out from 05 R110, R111, with the words of 11 R296 and 17 R426. -/
theorem test_decodeRegisters1 : [
    ((0x28004EF : Nat), (.movcRead 9 .vl : Instr)),
    ((0x240906F : Nat), (.movcWrite .vl 9 : Instr)),
    ((0x2CE046F : Nat), (.movcw 8 .vl 7 : Instr)),
    ((0x28014EF : Nat), (.movcRead 9 .vtype : Instr)),
    ((0x24090EF : Nat), (.movcWrite .vtype 9 : Instr)),
    ((0x2CE146F : Nat), (.movcw 8 .vtype 7 : Instr)),
    ((0x28024EF : Nat), (.movcRead 9 .vlmax : Instr)),
    ((0x240916F : Nat), (.movcWrite .vlmax 9 : Instr)),
    ((0x2CE246F : Nat), (.movcw 8 .vlmax 7 : Instr)),
    ((0x28034EF : Nat), (.movcRead 9 .vcap : Instr)),
    ((0x24091EF : Nat), (.movcWrite .vcap 9 : Instr)),
    ((0x2CE346F : Nat), (.movcw 8 .vcap 7 : Instr)),
    ((0x28044EF : Nat), (.movcRead 9 .cmask0 : Instr)),
    ((0x240926F : Nat), (.movcWrite .cmask0 9 : Instr)),
    ((0x2CE446F : Nat), (.movcw 8 .cmask0 7 : Instr)),
    ((0x28054EF : Nat), (.movcRead 9 .cmask1 : Instr))].all (fun p => reads p.1 p.2) = true := by decide
/-- Words written out from 05 R110, R111, with the words of 11 R296 and 17 R426. -/
theorem test_decodeRegisters2 : [
    ((0x24092EF : Nat), (.movcWrite .cmask1 9 : Instr)),
    ((0x2CE546F : Nat), (.movcw 8 .cmask1 7 : Instr)),
    ((0x28064EF : Nat), (.movcRead 9 .cvalid : Instr)),
    ((0x240936F : Nat), (.movcWrite .cvalid 9 : Instr)),
    ((0x2CE646F : Nat), (.movcw 8 .cvalid 7 : Instr)),
    ((0x28074EF : Nat), (.movcRead 9 .cld : Instr)),
    ((0x24093EF : Nat), (.movcWrite .cld 9 : Instr)),
    ((0x2CE746F : Nat), (.movcw 8 .cld 7 : Instr)),
    ((0x28084EF : Nat), (.movcRead 9 .cgkey : Instr)),
    ((0x240946F : Nat), (.movcWrite .cgkey 9 : Instr)),
    ((0x2CE846F : Nat), (.movcw 8 .cgkey 7 : Instr)),
    ((0x28094EF : Nat), (.movcRead 9 .cgdraw : Instr)),
    ((0x24094EF : Nat), (.movcWrite .cgdraw 9 : Instr)),
    ((0x2CE946F : Nat), (.movcw 8 .cgdraw 7 : Instr)),
    ((0x280A4EF : Nat), (.movcRead 9 .cflags : Instr)),
    ((0x240956F : Nat), (.movcWrite .cflags 9 : Instr))].all (fun p => reads p.1 p.2) = true := by decide
/-- Words written out from 05 R110, R111, with the words of 11 R296 and 17 R426. -/
theorem test_decodeRegisters3 : [
    ((0x2CEA46F : Nat), (.movcw 8 .cflags 7 : Instr)),
    ((0x280B4EF : Nat), (.movcRead 9 .ctrap : Instr)),
    ((0x24095EF : Nat), (.movcWrite .ctrap 9 : Instr)),
    ((0x2CEB46F : Nat), (.movcw 8 .ctrap 7 : Instr)),
    ((0x280C4EF : Nat), (.movcRead 9 .csump : Instr)),
    ((0x240966F : Nat), (.movcWrite .csump 9 : Instr)),
    ((0x2CEC46F : Nat), (.movcw 8 .csump 7 : Instr)),
    ((0x280D4EF : Nat), (.movcRead 9 .cprio : Instr)),
    ((0x24096EF : Nat), (.movcWrite .cprio 9 : Instr)),
    ((0x2CED46F : Nat), (.movcw 8 .cprio 7 : Instr)),
    ((0x280E4EF : Nat), (.movcRead 9 .cstage : Instr)),
    ((0x240976F : Nat), (.movcWrite .cstage 9 : Instr)),
    ((0x2CEE46F : Nat), (.movcw 8 .cstage 7 : Instr)),
    ((0x280F4EF : Nat), (.movcRead 9 .cid : Instr)),
    ((0x24097EF : Nat), (.movcWrite .cid 9 : Instr)),
    ((0x2CEF46F : Nat), (.movcw 8 .cid 7 : Instr))].all (fun p => reads p.1 p.2) = true := by decide
/-- Words written out from 05 R110, R111, with the words of 11 R296 and 17 R426. -/
theorem test_decodeRegisters4 : [
    ((0x28104EF : Nat), (.movcRead 9 .cquota : Instr)),
    ((0x240986F : Nat), (.movcWrite .cquota 9 : Instr)),
    ((0x2CF046F : Nat), (.movcw 8 .cquota 7 : Instr)),
    ((0x28114EF : Nat), (.movcRead 9 .cdet : Instr)),
    ((0x24098EF : Nat), (.movcWrite .cdet 9 : Instr)),
    ((0x2CF146F : Nat), (.movcw 8 .cdet 7 : Instr)),
    ((0x28124EF : Nat), (.movcRead 9 .cptbase : Instr)),
    ((0x240996F : Nat), (.movcWrite .cptbase 9 : Instr)),
    ((0x2CF246F : Nat), (.movcw 8 .cptbase 7 : Instr)),
    ((0x28184EF : Nat), (.movcRead 9 .sq0 : Instr)),
    ((0x28194EF : Nat), (.movcRead 9 .sq1 : Instr)),
    ((0x281A4EF : Nat), (.movcRead 9 .sq2 : Instr)),
    ((0x281B4EF : Nat), (.movcRead 9 .sq3 : Instr)),
    ((0x28194EF : Nat), (.movcRead 9 .sq1 : Instr)),
    ((0x280E2EF : Nat), (.movcRead 5 .cstage : Instr))].all (fun p => reads p.1 p.2) = true := by decide
/-- Words written out from 05 R118, R119. -/
theorem test_decodeCompact1 : [
    ((0x9A0 : Nat), (.cAddi 9 40 : Instr)),
    ((0x2AA4 : Nat), (.cLi 10 41 : Instr)),
    ((0x4BA8 : Nat), (.cSlli 11 42 : Instr)),
    ((0x6CAC : Nat), (.cSrli 12 43 : Instr)),
    ((0x8DB0 : Nat), (.cSrai 13 44 : Instr)),
    ((0xAEB4 : Nat), (.cLd 14 45 : Instr)),
    ((0xCFB8 : Nat), (.cSt 15 46 : Instr)),
    ((0x4F9 : Nat), (.cAdd 9 30 : Instr)),
    ((0x1575 : Nat), (.cSub 10 29 : Instr)),
    ((0x25F1 : Nat), (.cAnd 11 28 : Instr)),
    ((0x366D : Nat), (.cOr 12 27 : Instr)),
    ((0x46E9 : Nat), (.cXor 13 26 : Instr)),
    ((0x5765 : Nat), (.cSll 14 25 : Instr)),
    ((0x67E1 : Nat), (.cSrl 15 24 : Instr)),
    ((0x785D : Nat), (.cSra 16 23 : Instr)),
    ((0x88D9 : Nat), (.cMul 17 22 : Instr))].all (fun p => reads p.1 p.2) = true := by decide
/-- Words written out from 05 R118, R119. -/
theorem test_decodeCompact2 : [
    ((0x9955 : Nat), (.cMin 18 21 : Instr)),
    ((0xA9D1 : Nat), (.cMax 19 20 : Instr)),
    ((0xBA4D : Nat), (.cMv 20 19 : Instr)),
    ((0x1CE9 : Nat), (.cSub 25 26 : Instr)),
    ((0x986 : Nat), (.cBeqz 9 33 : Instr)),
    ((0x2986 : Nat), (.cBnez 9 33 : Instr)),
    ((0x5FFA : Nat), (.cJ 0x7FE : Instr)),
    ((0x6002 : Nat), (.cNop : Instr)),
    ((0x6006 : Nat), (.cExit : Instr)),
    ((0x600A : Nat), (.cBkpt : Instr)),
    ((0x600E : Nat), (.cLbrk : Instr)),
    ((0x9F02 : Nat), (.cVadd 31 : Instr)),
    ((0x9E06 : Nat), (.cVsub 30 : Instr)),
    ((0x9D0A : Nat), (.cVmul 29 : Instr)),
    ((0x9C0E : Nat), (.cVand 28 : Instr)),
    ((0x9B12 : Nat), (.cVor 27 : Instr))].all (fun p => reads p.1 p.2) = true := by decide
/-- Words written out from 05 R118, R119. -/
theorem test_decodeCompact3 : [
    ((0x9A16 : Nat), (.cVxor 26 : Instr)),
    ((0x991A : Nat), (.cVmin 25 : Instr)),
    ((0x981E : Nat), (.cVmax 24 : Instr)),
    ((0x9722 : Nat), (.cVminu 23 : Instr)),
    ((0x9626 : Nat), (.cVmaxu 22 : Instr)),
    ((0x952A : Nat), (.cVfadd 21 : Instr)),
    ((0x942E : Nat), (.cVfmul 20 : Instr)),
    ((0x9332 : Nat), (.cVfmin 19 : Instr)),
    ((0x9236 : Nat), (.cVfmax 18 : Instr)),
    ((0x913A : Nat), (.cVmand 17 : Instr)),
    ((0x903E : Nat), (.cVmor 16 : Instr)),
    ((0x8F42 : Nat), (.cVmxor 15 : Instr)),
    ((0x8E46 : Nat), (.cVmandn 14 : Instr))].all (fun p => reads p.1 p.2) = true := by decide
/-- Words written out from 05 R112 to R115. -/
theorem test_decodeVectorInteger1 : [
    ((0x8011D18A01F : Nat), (.vadd ⟨.unit 10, .stride 3, .index 7, false, true, .none⟩ : Instr)),
    ((0x5011E22C05F : Nat), (.vsub ⟨.stride 12, .index 4, .index 7, true, false, .cmask0⟩ : Instr)),
    ((0xA00232CE09F : Nat), (.vrsub ⟨.index 14, .scal 5, .unit 8, false, true, .cmask1⟩ : Instr)),
    ((0x7002030A0DF : Nat), (.vmul ⟨.unit 10, .unit 6, .unit 8, true, false, .notCmask0⟩ : Instr)),
    ((0x800A51AC11F : Nat), (.vmulh ⟨.stride 12, .stride 3, .stride 9, false, true, .none⟩ : Instr)),
    ((0x2500A624E11F : Nat), (.vmulhu ⟨.index 14, .index 4, .stride 9, true, false, .cmask0⟩ : Instr)),
    ((0x201AF28A15F : Nat), (.vdiv ⟨.unit 10, .scal 5, .scal 11, false, false, .cmask1⟩ : Instr)),
    ((0x2701AC32C15F : Nat), (.vdivu ⟨.stride 12, .unit 6, .scal 11, true, false, .notCmask0⟩ : Instr)),
    ((0x48011D1CE15F : Nat), (.vrem ⟨.index 14, .stride 3, .index 7, false, true, .none⟩ : Instr)),
    ((0x5011E20A19F : Nat), (.vmin ⟨.unit 10, .index 4, .index 7, true, false, .cmask0⟩ : Instr)),
    ((0x2A00232AC19F : Nat), (.vmax ⟨.stride 12, .scal 5, .unit 8, false, true, .cmask1⟩ : Instr)),
    ((0x47002034E19F : Nat), (.vminu ⟨.index 14, .unit 6, .unit 8, true, false, .notCmask0⟩ : Instr)),
    ((0x6800A518A19F : Nat), (.vmaxu ⟨.unit 10, .stride 3, .stride 9, false, true, .none⟩ : Instr)),
    ((0x500A622C1DF : Nat), (.vand ⟨.stride 12, .index 4, .stride 9, true, false, .cmask0⟩ : Instr)),
    ((0x2201AF2CE1DF : Nat), (.vor ⟨.index 14, .scal 5, .scal 11, false, false, .cmask1⟩ : Instr)),
    ((0x4701AC30A1DF : Nat), (.vxor ⟨.unit 10, .unit 6, .scal 11, true, false, .notCmask0⟩ : Instr))].all (fun p => reads p.1 p.2) = true := by decide
/-- Words written out from 05 R112 to R115. -/
theorem test_decodeVectorInteger2 : [
    ((0x68011D1AC1DF : Nat), (.vandn ⟨.stride 12, .stride 3, .index 7, false, true, .none⟩ : Instr)),
    ((0x5011E24E21F : Nat), (.vsll ⟨.index 14, .index 4, .index 7, true, false, .cmask0⟩ : Instr)),
    ((0x2A002328A21F : Nat), (.vsrl ⟨.unit 10, .scal 5, .unit 8, false, true, .cmask1⟩ : Instr)),
    ((0x47002032C21F : Nat), (.vsra ⟨.stride 12, .unit 6, .unit 8, true, false, .notCmask0⟩ : Instr)),
    ((0x186AA51CE25F : Nat), (.vadc ⟨.index 14, .stride 3, .stride 9, .stride 21, false, true, true, .none⟩ : Instr)),
    ((0x35ACA620A25F : Nat), (.vadcCo ⟨.unit 10, .index 4, .stride 9, .index 22, true, false, true, .cmask0⟩ : Instr)),
    ((0x2EFAF2AC29F : Nat), (.vsbc ⟨.stride 12, .scal 5, .scal 11, .scal 23, false, false, false, .cmask1⟩ : Instr)),
    ((0x3729AC34E29F : Nat), (.vsbcCo ⟨.index 14, .unit 6, .scal 11, .unit 20, true, false, true, .notCmask0⟩ : Instr)),
    ((0x8011D18A2DF : Nat), (.vcmp .eq ⟨.unit 10, .stride 3, .index 7, false, true, .none⟩ : Instr)),
    ((0x25011E22C2DF : Nat), (.vcmp .ne ⟨.stride 12, .index 4, .index 7, true, false, .cmask0⟩ : Instr)),
    ((0x4A00232CE2DF : Nat), (.vcmp .lt ⟨.index 14, .scal 5, .unit 8, false, true, .cmask1⟩ : Instr)),
    ((0x67002030A2DF : Nat), (.vcmp .ge ⟨.unit 10, .unit 6, .unit 8, true, false, .notCmask0⟩ : Instr)),
    ((0x8800A51AC2DF : Nat), (.vcmp .ltu ⟨.stride 12, .stride 3, .stride 9, false, true, .none⟩ : Instr)),
    ((0xA500A624E2DF : Nat), (.vcmp .geu ⟨.index 14, .index 4, .stride 9, true, false, .cmask0⟩ : Instr)),
    ((0x201AF28A31F : Nat), (.vmerge ⟨.unit 10, .scal 5, .scal 11, false, false, .cmask1⟩ : Instr)),
    ((0x7000032C35F : Nat), (.vmv ⟨.stride 12, .unit 6, true, .notCmask0⟩ : Instr))].all (fun p => reads p.1 p.2) = true := by decide
/-- Words written out from 05 R112 to R115. -/
theorem test_decodeVectorInteger3 : [
    ((0x186B1D1E939F : Nat), (.vdots ⟨.scal 9, .stride 3, .index 7, .stride 21, false, true, true, .none⟩ : Instr)),
    ((0x5000220A3DF : Nat), (.vscan .sum ⟨.unit 10, .index 4, true, .cmask0⟩ : Instr)),
    ((0x2200032AC3DF : Nat), (.vscan .max ⟨.stride 12, .scal 5, false, .cmask1⟩ : Instr)),
    ((0x47000034E3DF : Nat), (.vscan .min ⟨.index 14, .unit 6, true, .notCmask0⟩ : Instr)),
    ((0x60000118A3DF : Nat), (.vscan .and ⟨.unit 10, .stride 3, false, .none⟩ : Instr)),
    ((0x85000222C3DF : Nat), (.vscan .or ⟨.stride 12, .index 4, true, .cmask0⟩ : Instr)),
    ((0xA200032CE3DF : Nat), (.vscan .xor ⟨.index 14, .scal 5, false, .cmask1⟩ : Instr))].all (fun p => reads p.1 p.2) = true := by decide
/-- Words written out from 05 R112 to R115. -/
theorem test_decodeVectorFloat1 : [
    ((0x701AC30A41F : Nat), (.vfadd ⟨.unit 10, .unit 6, .scal 11, true, false, .notCmask0⟩ : Instr)),
    ((0x8011D1AC45F : Nat), (.vfsub ⟨.stride 12, .stride 3, .index 7, false, true, .none⟩ : Instr)),
    ((0x5011E24E49F : Nat), (.vfmul ⟨.index 14, .index 4, .index 7, true, false, .cmask0⟩ : Instr)),
    ((0xAEE2328A4DF : Nat), (.vffma ⟨.unit 10, .scal 5, .unit 8, .scal 23, false, true, false, .cmask1⟩ : Instr)),
    ((0x7002032C51F : Nat), (.vfdiv ⟨.stride 12, .unit 6, .unit 8, true, false, .notCmask0⟩ : Instr)),
    ((0x11CE55F : Nat), (.vfsqrt ⟨.index 14, .stride 3, false, .none⟩ : Instr)),
    ((0x500A620A59F : Nat), (.vfmin ⟨.unit 10, .index 4, .stride 9, true, false, .cmask0⟩ : Instr)),
    ((0x2201AF2AC59F : Nat), (.vfmax ⟨.stride 12, .scal 5, .scal 11, false, false, .cmask1⟩ : Instr)),
    ((0x701AC34E5DF : Nat), (.vfcmp .eq ⟨.index 14, .unit 6, .scal 11, true, false, .notCmask0⟩ : Instr)),
    ((0x28011D18A5DF : Nat), (.vfcmp .ne ⟨.unit 10, .stride 3, .index 7, false, true, .none⟩ : Instr)),
    ((0x45011E22C5DF : Nat), (.vfcmp .lt ⟨.stride 12, .index 4, .index 7, true, false, .cmask0⟩ : Instr)),
    ((0x6A00232CE5DF : Nat), (.vfcmp .le ⟨.index 14, .scal 5, .unit 8, false, true, .cmask1⟩ : Instr)),
    ((0x87002030A5DF : Nat), (.vfcmp .un ⟨.unit 10, .unit 6, .unit 8, true, false, .notCmask0⟩ : Instr)),
    ((0x11AC61F : Nat), (.vexp2 ⟨.stride 12, .stride 3, false, .none⟩ : Instr)),
    ((0x25000224E61F : Nat), (.vlog2 ⟨.index 14, .index 4, true, .cmask0⟩ : Instr)),
    ((0x42000328A61F : Nat), (.vrcp ⟨.unit 10, .scal 5, false, .cmask1⟩ : Instr))].all (fun p => reads p.1 p.2) = true := by decide
/-- Words written out from 05 R112 to R115. -/
theorem test_decodeVectorFloat2 : [
    ((0x67000032C61F : Nat), (.vrsq ⟨.stride 12, .unit 6, true, .notCmask0⟩ : Instr)),
    ((0x8000011CE61F : Nat), (.vtanh ⟨.index 14, .stride 3, false, .none⟩ : Instr)),
    ((0xA5000220A61F : Nat), (.vsin ⟨.unit 10, .index 4, true, .cmask0⟩ : Instr)),
    ((0xC200032AC61F : Nat), (.vcos ⟨.stride 12, .scal 5, false, .cmask1⟩ : Instr))].all (fun p => reads p.1 p.2) = true := by decide
/-- Words written out from 05 R112 to R115. -/
theorem test_decodeVectorOther1 : [
    ((0x7000034E69F : Nat), (.vredsum ⟨.index 14, .unit 6, true, .notCmask0⟩ : Instr)),
    ((0x2000011E769F : Nat), (.vredmax ⟨.scal 7, .stride 3, false, .none⟩ : Instr)),
    ((0x45000222C69F : Nat), (.vredmin ⟨.stride 12, .index 4, true, .cmask0⟩ : Instr)),
    ((0x6200032E769F : Nat), (.vredand ⟨.scal 7, .scal 5, false, .cmask1⟩ : Instr)),
    ((0x87000030A69F : Nat), (.vredor ⟨.unit 10, .unit 6, true, .notCmask0⟩ : Instr)),
    ((0xA000011E769F : Nat), (.vredxor ⟨.scal 7, .stride 3, false, .none⟩ : Instr)),
    ((0x501A624E6DF : Nat), (.vslideup 9 ⟨.index 14, .index 4, true, .cmask0⟩ : Instr)),
    ((0x2201A728A6DF : Nat), (.vslidedn 9 ⟨.unit 10, .scal 5, false, .cmask1⟩ : Instr)),
    ((0x7002032C71F : Nat), (.vmand ⟨.stride 12, .unit 6, .unit 8, true, false, .notCmask0⟩ : Instr)),
    ((0x2800A51CE71F : Nat), (.vmor ⟨.index 14, .stride 3, .stride 9, false, true, .none⟩ : Instr)),
    ((0x4500A620A71F : Nat), (.vmxor ⟨.unit 10, .index 4, .stride 9, true, false, .cmask0⟩ : Instr)),
    ((0x6201AF2AC71F : Nat), (.vmandn ⟨.stride 12, .scal 5, .scal 11, false, false, .cmask1⟩ : Instr)),
    ((0x87000034E71F : Nat), (.vmnot ⟨.index 14, .unit 6, true, .notCmask0⟩ : Instr)),
    ((0x11E775F : Nat), (.vmpop 7 ⟨.stride 3, false, .none⟩ : Instr)),
    ((0x25000226775F : Nat), (.vmfirst 7 ⟨.index 4, true, .cmask0⟩ : Instr)),
    ((0x4200032E775F : Nat), (.vmlast 7 ⟨.scal 5, false, .cmask1⟩ : Instr))].all (fun p => reads p.1 p.2) = true := by decide
/-- Words written out from 05 R112 to R115. -/
theorem test_decodeVectorOther2 : [
    ((0x67000036775F : Nat), (.vmany 7 ⟨.unit 6, true, .notCmask0⟩ : Instr)),
    ((0x11AC79F : Nat), (.vgauss ⟨.stride 12, .stride 3, false, .none⟩ : Instr)),
    ((0x25000224E79F : Nat), (.vgaussPert ⟨.index 14, .index 4, true, .cmask0⟩ : Instr)),
    ((0x2000328A7DF : Nat), (.vrand ⟨.unit 10, .scal 5, false, .cmask1⟩ : Instr)),
    ((0x27000032C7DF : Nat), (.vrandSr ⟨.stride 12, .unit 6, true, .notCmask0⟩ : Instr))].all (fun p => reads p.1 p.2) = true := by decide
/-- Words written out from 05 R108, R112 to R117. -/
theorem test_decodeVectorMemory1 : [
    ((0x4000011CE81F : Nat), (.vld .acqPkg ⟨.index 14, .stride 3, false, .none⟩ : Instr)),
    ((0x85000220A85F : Nat), (.vst .relPkg ⟨.unit 10, .index 4, true, .cmask0⟩ : Instr)),
    ((0xC200032AC89F : Nat), (.vstx .scPkg ⟨.stride 12, .scal 5, false, .cmask1⟩ : Instr)),
    ((0x400101E08DF : Nat), (.vamo .add .none ⟨.scal 0, .unit 3, .unit 4, true, false, .none⟩ : Instr)),
    ((0x24021018A8DF : Nat), (.vamo .and .acqDie ⟨.unit 10, .unit 3, .unit 4, true, false, .none⟩ : Instr)),
    ((0x44041018A8DF : Nat), (.vamo .or .acqPkg ⟨.unit 10, .unit 3, .unit 4, true, false, .none⟩ : Instr)),
    ((0x64061018A8DF : Nat), (.vamo .xor .relDie ⟨.unit 10, .unit 3, .unit 4, true, false, .none⟩ : Instr)),
    ((0x84081018A8DF : Nat), (.vamo .min .relPkg ⟨.unit 10, .unit 3, .unit 4, true, false, .none⟩ : Instr)),
    ((0xA40A1018A8DF : Nat), (.vamo .max .scDie ⟨.unit 10, .unit 3, .unit 4, true, false, .none⟩ : Instr)),
    ((0xC40C1018A8DF : Nat), (.vamo .minu .scPkg ⟨.unit 10, .unit 3, .unit 4, true, false, .none⟩ : Instr)),
    ((0x40E1018A8DF : Nat), (.vamo .maxu .none ⟨.unit 10, .unit 3, .unit 4, true, false, .none⟩ : Instr)),
    ((0x24101018A8DF : Nat), (.vamo .swap .acqDie ⟨.unit 10, .unit 3, .unit 4, true, false, .none⟩ : Instr)),
    ((0xB7282034E91F : Nat), (.vcas .scDie ⟨.index 14, .unit 6, .unit 8, .unit 20, true, false, true, .notCmask0⟩ : Instr)),
    ((0x3000002C95F : Nat), (.vempty ⟨.stride 12, .notCmask0⟩ : Instr)),
    ((0x1000004C99F : Nat), (.vfill ⟨.index 12, .cmask0⟩ : Instr)),
    ((0xCD31018A9DF : Nat), (.vwait 9 ⟨.unit 10, .unit 3, .index 4, true, true, .none⟩ : Instr))].all (fun p => reads p.1 p.2) = true := by decide
/-- Words written out from 05 R108, R112 to R117. -/
theorem test_decodeVectorMemory2 : [
    ((0x118AA1F : Nat), (.vown ⟨.unit 10, .stride 3, false, .none⟩ : Instr)),
    ((0xFFFF00030002803F : Nat), (.vidx (.stride 8) 3 0xFFFF : Instr)),
    ((0xFFFFFFF00248807F : Nat), (.vmsh (.unit 8) (.index 9) 0xFFFFFFF0 : Instr)),
    ((0x4381010BF : Nat), (.vcvt ⟨14, 4⟩ (.unit 1) (.unit 2) : Instr))].all (fun p => reads p.1 p.2) = true := by decide
/-- Words written out from 05 R117, 10 R267 to R274, 11 R283, 12 R304 to R313, with the words that these give. -/
theorem test_decodeUnits1 : [
    ((0x100400523F : Nat), (.mma true 5 0 1 0 0 : Instr)),
    ((0x80320048527F : Nat), (.mmae false 5 9 2 3 128 0 : Instr)),
    ((0xFFFFED0000523F : Nat), (.mma false 5 13 14 511 127 : Instr)),
    ((0xE631211000052BF : Nat), (.accz 5 17 9 99 7 : Instr)),
    ((0x641390321852FF : Nat), (.accin 5 (.index 3) true .cmask1 400 9 100 : Instr)),
    ((0x300000828C33F : Nat), (.drain false 5 (.unit 12) .cmask0 0 0 3 : Instr)),
    ((0x6413901C2AC33F : Nat), (.drain true 5 (.stride 12) .notCmask0 400 9 100 : Instr)),
    ((0x737F : Nat), (.tsub 7 : Instr)),
    ((0x701EE6018C43F : Nat), (.pcopy ⟨7, 15, 14, 3, false, .none⟩ (.unit 12) (.unit 3) : Instr)),
    ((0x9400E02A0C47F : Nat), (.pgath ⟨9, 0, 14, 0, false, .none⟩ 16 (.unit 12) (.index 20) : Instr)),
    ((0xFFFF41EE141CC4BF : Nat), (.pscat ⟨0xFFFF, 15, 14, 0, true, .cmask0⟩ 16 (.index 12) (.unit 3) : Instr)),
    ((0x501EE081AC4FF : Nat), (.prdc ⟨5, 15, 14, 0, false, .cmask1⟩ (.stride 12) (.unit 3) : Instr)),
    ((0x501EE731CC53F : Nat), (.pfill ⟨5, 15, 14, 3, true, .none⟩ (.index 12) (.scal 3) : Instr)),
    ((0x100000800C63F : Nat), (.attn .auto 12 0 1 : Instr)),
    ((0xFFFF00030400C63F : Nat), (.attn .me 12 3 0xFFFF : Instr)),
    ((0x90068C67F : Nat), (.kvw 12 13 9 : Instr))].all (fun p => reads p.1 p.2) = true := by decide
/-- Words written out from 05 R117, 10 R267 to R274, 11 R283, 12 R304 to R313, with the words that these give. -/
theorem test_decodeUnits2 : [
    ((0x90070C6BF : Nat), (.kvinv 12 14 9 : Instr))].all (fun p => reads p.1 p.2) = true := by decide


/-! ## Small states -/

/-- A sequencer in run mode with two groups. -/
def q0 : Seq := { Seq.reset with
  mode := .run, ctx := 7, kernel := some 1, runId := 4, pc := 0x2000, groups := [0, 1], winPa := cistBase,
  winVa := 0x10000000000, isn := 77, vl := 10, vtype := 4 }

/-- A cached translation of 64 pages from va to key in a tier. -/
def page (va key tier kind : Nat) : TlbEntry :=
  ⟨0, va / 4096, 64, toWord (1 + 2 + 3 * 4 + tier * 16 + kind * 128 + 7 * 512 + key % 2 ^ 52 + 2 ^ 56 + 2 ^ 57), 0, 0⟩

/-- Main memory at address 0. -/
def pMain : TlbEntry := page 0 0 1 1
/-- Main memory on strongly ordered pages. -/
def pSo : TlbEntry := page 0x40000 0x40000 1 0
/-- The window of sequencer 3. -/
def pWin : TlbEntry := page 0x10000000000 cistBase 0 1

/-- Its context. -/
def c0 : Ctx := { Ctx.none with id := 7, st := .active, kernel := some 1 }

/-- Die 0 with these translations. -/
def withTlb (s : State) : State := s.modDie 0 fun d => { d with tlb := [pMain, pSo, pWin] }

/-- Sequencer 3 about to issue, with registers, context and memory as given. -/
def run (f : Seq → Seq) (g : Ctx → Ctx := id) (m : List (Nat × Nat) := []) : State :=
  withTlb { State.resetWith [] with
    cur := 3, seqs := [(3, f q0)], ctxs := [g c0],
    mem := m.foldl (fun m p => m.write p.1 (bytesOf 8 p.2)) State.reset.mem }

/-- Put values into registers. -/
def regs (l : List (Reg × Word)) (q : Seq) : Seq := l.foldl (fun q p => q.setX p.1 p.2) q

/-- All of these pass the gate. -/
def go (s : State) (l : List Instr) : Bool := l.all fun i => decide (gate s.cur i s = .go)

theorem ready_of_go {s : State} {l : List Instr} (h : go s l = true) (i : Instr) (hi : i ∈ l) : ready i s :=
  of_decide_eq_true (p := gate s.cur i s = .go) (List.all_eq_true.mp h i hi)

/-- The outcome is a next state. -/
def isNext (r : Res) : Bool := match r with
  | .next _ => true
  | _ => false

theorem next_of {r : Res} (h : isNext r = true) : ∃ t, r = .next t := by
  cases r with
  | next t => exact ⟨t, rfl⟩
  | fault _ => exact absurd h (by simp [isNext])
  | refused _ => exact absurd h (by simp [isNext])

/-- The next state, or the state after reset. -/
def after (r : Res) : State := match r with
  | .next t => t
  | _ => State.reset

theorem mapped_of {s : State} {n va : Nat} {acc : Access} {p : Phys} (t : TlbEntry)
    (h : va < 2 ^ 48 ∧ s.migs = [] ∧ (p.tier = 0 → (s.winOf p.key).isSome = true) ∧ s.wayTo (n / 16) p.key = .clear ∧
      tlbHit (s.die (n / 16)) ((s.ctx (s.seq n).ctx).cptbase.toNat % 4096) va = some t ∧ permits t.leaf acc = true ∧
      (accWrites acc = true → eD p.leaf = true) ∧ p = ⟨leafKey t.leaf t.level va, t.leaf, t.entry⟩) : mapped s n acc va p :=
  ⟨⟨h.1, h.2.1, h.2.2.1, h.2.2.2.1, t, h.2.2.2.2.1, h.2.2.2.2.2.1, h.2.2.2.2.2.2.2⟩, h.2.2.2.2.2.2.1⟩

/-- No group keeps a pull of the window that holds a key. -/
def unread (s : State) (key : Nat) : Bool := match s.winOf key with
  | some (_, q) => q.reads.isEmpty
  | none => true

theorem clear_of {s : State} {p : Phys} {n : Nat}
    (h : keyExists p.key = true ∧ keyExists (p.key + n - 1) = true ∧ inNotify p.key = false ∧ s.soft = [] ∧ s.marks = [] ∧
      s.landings = [] ∧ (s.seq s.cur).versions = [] ∧ (s.seq s.cur).kept = [] ∧ unread s p.key = true) : clear s p n := by
  obtain ⟨h1, h2, h3, h4, h5, h6, h7, h8, h9⟩ := h
  refine ⟨h1, h2, h3, h4, h5, fun l hl => absurd (h6 ▸ hl) List.not_mem_nil, h7, h8, fun i q hw => ?_⟩
  simpa [unread, hw] using h9

/-- Where address va of main memory lies. -/
def atMain (va : Nat) : Phys := ⟨va, pMain.leaf, 0⟩
/-- Where an offset of the window lies. -/
def atWin (o : Nat) : Phys := ⟨cistBase + o, pWin.leaf, 0⟩

/-! ## Witnesses: the hypotheses of each statement are met -/

/-- Registers 6 and 7 as given. -/
def two (a b : Word) : State := run (regs [(6, a), (7, b)])

theorem witness_DivisionCorners : go (two 5 0) [.div 5 6 7, .divu 5 6 7, .rem 5 6 7, .remu 5 6 7] = true ∧
    xr (two 5 0) 7 = 0 ∧
    go (two 0x8000000000000000 0xFFFFFFFFFFFFFFFF) [.div 5 6 7, .rem 5 6 7] = true ∧
    xr (two 0x8000000000000000 0xFFFFFFFFFFFFFFFF) 6 = 0x8000000000000000 ∧
    xr (two 0x8000000000000000 0xFFFFFFFFFFFFFFFF) 7 = 0xFFFFFFFFFFFFFFFF := by decide

theorem witness_IntegerResults : go (two 5 3) [.add 5 6 7, .sub 5 6 7, .mul 5 6 7, .mulh 5 6 7, .mulhu 5 6 7, .and 5 6 7,
      .or 5 6 7, .xor 5 6 7, .andn 5 6 7, .sll 5 6 7, .srl 5 6 7, .sra 5 6 7, .slt 5 6 7, .sltu 5 6 7, .min 5 6 7,
      .max 5 6 7, .minu 5 6 7, .maxu 5 6 7, .clz 5 6, .ctz 5 6, .popc 5 6, .div 5 6 7, .divu 5 6 7, .rem 5 6 7,
      .remu 5 6 7] = true ∧
    xr (two 5 3) 7 ≠ 0 ∧ ¬((xr (two 5 3) 6).toInt = -2 ^ 63 ∧ (xr (two 5 3) 7).toInt = -1) ∧
    ¬((xr (two 0x8000000000000000 1) 6).toInt = -2 ^ 63 ∧ (xr (two 0x8000000000000000 1) 7).toInt = -1) := by decide

theorem witness_ImmediateResults : go (two 5 3) [.addi 5 6 7, .andi 5 6 7, .ori 5 6 7, .xori 5 6 7, .slti 5 6 7,
      .slli 5 6 7, .srli 5 6 7, .srai 5 6 7, .liShort 5 6, .liLong 5 6, .liHi 5 6, .cAddi 5 6, .cLi 5 6, .cSlli 5 6,
      .cSrli 5 6, .cSrai 5 6, .cAdd 5 6, .cSub 5 6, .cAnd 5 6, .cOr 5 6, .cXor 5 6, .cSll 5 6, .cSrl 5 6, .cSra 5 6,
      .cMul 5 6, .cMin 5 6, .cMax 5 6, .cMv 5 6] = true := by decide

theorem witness_RegisterZero : (31 : Reg) ≠ 0 ∧ (0 : Reg) ≠ 31 := by decide

theorem witness_FloatResults : go (two 5 3) [.fadd .fp16 5 6 7, .fsub .fp32 5 6 7, .fmul .fp64 5 6 7, .ffma .bf16 5 6 7,
      .fdiv .fp32 5 6 7, .fsqrt .fp32 5 6, .fcmp .eq .fp32 5 6 7, .fcvt .fp32 .i64 5 6, .fcvt .i64 .fp32 5 6,
      .fcvt .n64 .fp64 5 6] = true ∧ CvtType.fmt? .fp32 = some .fp32 := by decide

/-- Patterns of fp32. -/
def f32 (x : Nat) : Val := (FType.fmt .fp32).decode x

/-- Each clause of FMIN and FMAX: both NaNs, either one, in order, equal, and zeros of both signs. -/
theorem witness_FloatMinMax : go (two 0x7F800001 0x3F800000) [.fmin .fp32 5 6 7, .fmax .fp32 5 6 7] = true ∧
    (f32 0x7F800001 = .nan true) ∧ ((f32 0x7FC00000).isNan = true) ∧ ((f32 0x3F800000).isNan = false) ∧
    ((f32 0x3F800000).lt (f32 0x40000000) = true ∧ (f32 0x40000000).lt (f32 0x3F800000) = false) ∧
    ((f32 0x80000000).isZero = true ∧ (f32 0).isZero = true ∧ (f32 0x80000000).neg = true ∧ (f32 0).neg = false) ∧
    (xr (two 7 7) 6).toNat % 2 ^ 32 = (xr (two 7 7) 7).toNat % 2 ^ 32 := by decide

theorem witness_BranchesAndJumps : go (two 5 3) [.beq 6 7 8, .bne 6 7 8, .blt 6 7 8, .bge 6 7 8, .bltu 6 7 8, .bgeu 6 7 8,
      .cBeqz 6 8, .cBnez 6 8, .cJ 8, .hintNop 0, .cNop, .jal 5 8, .jalr 5 6 1, .jalr 5 6 2] = true ∧
    (xr (two 5 3) 6 + BitVec.ofInt 64 (1 : BitVec 15).toInt).getLsbD 0 = false ∧
    (xr (two 5 3) 6 + BitVec.ofInt 64 (2 : BitVec 15).toInt).getLsbD 0 = true := by decide

/-- In run mode outside loops, and in handler mode. -/
def inHandler (s : State) : State := s.modSeq 3 fun q => { q with mode := .handler }

theorem witness_ScalarFrame : (intDest (.add 5 6 7) = some 5 ∧ go (two 5 3) [.add 5 6 7] = true ∧
      isNext (exec (.add 5 6 7) (two 5 3)) = true ∧ ((two 5 3).seq 3).loops = [] ∧ ((two 5 3).seq 3).mode ≠ .handler) ∧
    (go (inHandler (two 5 3)) [.add 5 6 7] = true ∧ isNext (exec (.add 5 6 7) (inHandler (two 5 3))) = true ∧
      ((inHandler (two 5 3)).seq 3).mode = .handler) ∧
    (fpDest (.fadd .fp32 5 6 7) = some 5 ∧ go (two 5 3) [.fadd .fp32 5 6 7] = true ∧
      isNext (exec (.fadd .fp32 5 6 7) (two 5 3)) = true) ∧
    isGo .cNop = true ∧ go (two 5 3) [.cNop] = true ∧ isNext (exec .cNop (two 5 3)) = true := by decide

/-- n entries on the loop stack. -/
def loops (n : Nat) : List Loop := List.replicate n ⟨0x1000, 0x2010, 3, 1⟩

theorem witness_HardwareLoops :
    (go (two 0 3) [.loop 6 4] = true ∧ xr (two 0 3) 6 = 0) ∧
    (∃ s, s = run (fun q => { regs [(6, 9)] q with loops := loops 5 }) ∧ go s [.loop 6 4, .loopi 1 4, .lix 5 4, .lbrk, .cLbrk] = true ∧
      xr s 6 ≠ 0 ∧ (s.seq s.cur).loops.length < 6 ∧ (1 : BitVec 10) ≠ 0 ∧ (4 : BitVec 5).toNat < (s.seq s.cur).loops.length ∧
      (s.seq s.cur).loops.length ≤ (5 : BitVec 5).toNat ∧ ∃ l r, (s.seq s.cur).loops = l :: r) ∧
    (∃ s, s = run (fun q => { regs [(6, 9)] q with loops := loops 6 }) ∧ go s [.loop 6 4, .loopi 1 4] = true ∧ xr s 6 ≠ 0 ∧
      6 ≤ (s.seq s.cur).loops.length) ∧
    ((two 0 3).seq 3).loops = [] ∧ go (two 0 3) [.lix 5 0, .lbrk, .cLbrk] = true ∧
    (0x2000 : Word) ≠ (⟨0x1000, 0x2010, 3, 1⟩ : Loop).stop ∧ ((1 : Word) + 1).toNat < (3 : Word).toNat ∧
    (3 : Word).toNat ≤ ((2 : Word) + 1).toNat :=
  ⟨by decide, ⟨_, rfl, by decide, by decide, by decide, by decide, by decide, by decide, _, _, rfl⟩,
    ⟨_, rfl, by decide, by decide, by decide⟩, by decide⟩

theorem witness_IssuesInRunMode :
    (issuing (.vadd ⟨.unit 6, .unit 7, .unit 8, false, false, .none⟩) (run id (fun c => { c with limit := 5, balance := 1 })) ∧
      privOnly (.vadd ⟨.unit 6, .unit 7, .unit 8, false, false, .none⟩) = false ∧ vtVILL ((run id).seq 3).vtype = false ∧
      ((run id).seq 3).grp.cmds = [] ∧
      0 < ((run id (fun c => { c with limit := 5, balance := 1 })).ctx ((run id).seq 3).ctx).balance) ∧
    (issuing .rett (run fun q => { q with priv := true, take := some (0x0D, 5) }) ∧ privOnly .rett = true ∧ r123 .rett = false ∧
      ((run fun q => { q with priv := true, take := some (0x0D, 5) }).seq 3).priv = true) := by
  unfold issuing
  decide

theorem witness_TrapsBeforeIssue :
    ([.rett, .ctxld 5, .ctxst 5, .tlbinv 5 6, .movcRead 5 .ctrap, .movcWrite .cquota 5, .movcw 5 .vcap 6].all
      (fun i => privOnly i) = true ∧ issuing .rett (run id) ∧ ((run id).seq 3).priv = false) ∧
    ([.cVadd 5, .vmv ⟨.unit 6, .unit 7, false, .none⟩, .tsub 5].all (fun i => r123 i && !privOnly i) = true ∧
      issuing (.cVadd 5) (run fun q => { q with vtype := 0x8000000000000000 }) ∧
      vtVILL ((run fun q => { q with vtype := 0x8000000000000000 }).seq 3).vtype = true) := by
  unfold issuing
  decide

theorem witness_HandlerModeIssue : handling (inHandler (run id)) ∧ r378 .rett = true ∧ Instr.rett.isEvent = false ∧
    r378 (.lwait 5) = false ∧ (Instr.lwait 5).isEvent = false ∧
    handling (inHandler (run fun q => { q with vtype := 0x8000000000000000 })) ∧ r378 (.tsub 5) = false ∧ r123 (.tsub 5) = true ∧
    (Instr.tsub 5).isEvent = false ∧ vtVILL ((inHandler (run fun q => { q with vtype := 0x8000000000000000 })).seq 3).vtype = true := by
  unfold handling
  decide

/-- The package frozen. -/
def frozen (s : State) : State := { s with pkg := { s.pkg with frozen := true } }

theorem witness_FrozenStandsStill : (frozen (run id)).pkg.frozen = true ∧ whileFrozen (.add 5 6 7) = false ∧
    whileFrozen (.tickPeriod) = false ∧ whileFrozen (.retrain .host 0) = false ∧ whileFrozen (.notify (some .peer) 3) = false := by decide

/-- A word is fetched, and whether it decodes. -/
def fetches (n : Nat) (s : State) (ok : Bool) : Bool := match (fetchWord n).run s with
  | .ok w _ => (match decode w with
    | .ok _ => ok
    | .error _ => !ok)
  | .error _ _ => false

theorem fetches_ok {n : Nat} {s : State} (h : fetches n s true = true) :
    ∃ w i s', (fetchWord n).run s = .ok w s' ∧ decode w = .ok i := by
  unfold fetches at h
  split at h
  · split at h
    · exact ⟨_, _, _, ‹_›, ‹_›⟩
    · exact absurd h (by decide)
  · exact absurd h (by decide)

theorem fetches_bad {n : Nat} {s : State} (h : fetches n s false = true) :
    ∃ w e s', (fetchWord n).run s = .ok w s' ∧ decode w = .error e := by
  unfold fetches at h
  split at h
  · split at h
    · exact absurd h (by decide)
    · exact ⟨_, _, _, ‹_›, ‹_›⟩
  · exact absurd h (by decide)

/-- A turn of sequencer 3 next, with memory as given at its pc. -/
def turn (w : Nat) (f : Seq → Seq := id) : State := { run f id [(0x2000, w)] with agenda := [.seq 3] }

theorem witness_StepFollowsAgenda :
    (∃ w i s', (turn 0x042F8C83).agenda = [.seq 3] ∧ awake (turn 0x042F8C83) 3 = true ∧
      ((turn 0x042F8C83).seq 3).bkptHit = none ∧
      (fetchWord 3).run { turn 0x042F8C83 with agenda := [] } = .ok w s' ∧ decode w = .ok i) ∧
    (∃ w e s', (turn 0).agenda = [.seq 3] ∧ awake (turn 0) 3 = true ∧ ((turn 0).seq 3).bkptHit = none ∧
      (fetchWord 3).run { turn 0 with agenda := [] } = .ok w s' ∧ decode w = .error e) ∧
    (∃ k, ((turn 0 fun q => { q with bkpt := q.bkpt.set 7 (true, 0x2000) }).seq 3).bkptHit = some k ∧
      awake (turn 0 fun q => { q with bkpt := q.bkpt.set 7 (true, 0x2000) }) 3 = true) ∧
    (awake (turn 0 fun q => { q with mode := .idle }) 3 = false ∧
      (turn 0 fun q => { q with mode := .idle }).pkg.frozen = false) ∧
    ({ turn 0 with agenda := [.event .tickPeriod] } : State).agenda = [.event .tickPeriod] ∧ Instr.tickPeriod.isEvent = true ∧
    ({ turn 0 with agenda := [.elapse 5] } : State).agenda = [.elapse 5] := by
  refine ⟨?_, ?_, ⟨7, by decide, by decide⟩, by decide, rfl, by decide, rfl⟩
  · obtain ⟨w, i, s', h1, h2⟩ := fetches_ok (n := 3) (s := { turn 0x042F8C83 with agenda := [] }) (by decide)
    exact ⟨w, i, s', rfl, by decide, by decide, h1, h2⟩
  · obtain ⟨w, i, s', h1, h2⟩ := fetches_bad (n := 3) (s := { turn 0 with agenda := [] }) (by decide)
    exact ⟨w, i, s', rfl, by decide, by decide, h1, h2⟩

theorem witness_StepRunsDecoded :
    let s := turn 0x042F8C83
    (s.agenda = [.seq 3] ∧ awake s 3 = true ∧ (s.seq 3).bkptHit = none ∧ (s.seq 3).loops = [] ∧ (s.seq 3).lbuf = []) ∧
    lenOf (s.mem.num 0x2000 2) = 2 ∧
    (∀ k, k < 2 → mapped s 3 .fetch ((s.seq 3).pc.toNat + 2 * k) ⟨0x2000 + 2 * k, pMain.leaf, 0⟩ ∧
      sound s (0x2000 + 2 * k) 2) ∧
    decode (s.mem.num 0x2000 (2 * 2)) = .ok (.slt 25 24 23) := by
  refine ⟨by decide, by decide, ?_, by rfl⟩
  intro k hk
  have : k = 0 ∨ k = 1 := by omega
  rcases this with rfl | rfl
  · exact ⟨mapped_of pMain (by decide), by unfold sound; decide⟩
  · exact ⟨mapped_of pMain (by decide), by unfold sound; decide⟩

theorem witness_ScalarRoundTrip : (Instr.add 5 6 7).isEvent = false ∧ (Instr.add 5 6 7).len ≤ 2 ∧
    (Instr.add 5 6 7).wf = true := by decide

theorem witness_VectorRoundTrip : (Instr.tsub 5).isEvent = false ∧ 3 ≤ (Instr.tsub 5).len ∧ (Instr.tsub 5).wf = true := by
  decide

theorem witness_DecodedIsWellFormed : decode 0x042F8C83 = .ok (.slt 25 24 23) := by rfl

/-- A context in record mode with its log at 0x5000, and what its header holds. -/
def logged (p c : Nat) (f : Seq → Seq) : State := run f (fun x => { x with cdet := 0x5001 }) [(0x5000, p), (0x5008, c)]

theorem witness_FencesAndTime :
    (((run id).seq 3).inflight = [] ∧ go (run id) [.fence .seq, .fence .sys, .fencex .v .m, .fencex .m .p, .iflush, .tick 5,
      .logmark 6] = true ∧ tileWorkOf (run id) 3 = false ∧ logMode (run id) 7 = 0 ∧ ((run id).seq 3).held = []) ∧
    (∃ s, s = logged 63 0 (fun q => { q with sleep := some .log }) ∧ s.pkg.frozen = false ∧ (s.seq 3).sleep = some .log ∧
      logMode s (s.seq 3).ctx = 1 ∧ mapped s 3 .load ((s.ctx (s.seq 3).ctx).cdet.toNat / 2 ^ 12 % 2 ^ 36 * 4096) (atMain 0x5000) ∧
      (atMain 0x5000).tier = 1 ∧
      (BitVec.ofNat 64 (s.mem.num (atMain 0x5000).key 8) - BitVec.ofNat 64 (s.mem.num ((atMain 0x5000).key + 8) 8)).toNat <
        2 ^ ((s.ctx (s.seq 3).ctx).cdet.toNat / 2 ^ 8 % 16 + 6)) :=
  ⟨by decide, _, rfl, by decide, by decide, by decide, mapped_of pMain (by decide), by decide, by decide⟩

/-- Every control register that is not a stream register. -/
def cregs : List CReg := [.vl, .vtype, .vlmax, .vcap, .cmask0, .cmask1, .cvalid, .cld, .cgkey, .cgdraw, .cflags, .ctrap,
  .csump, .cprio, .cstage, .cid, .cquota, .cdet, .cptbase]

theorem witness_ControlRegisterReads : cregs.all (fun c => !c.isStream) = true ∧
    go (run fun q => { q with priv := true }) (cregs.map (.movcRead 5 ·)) = true ∧ ((run id).seq 3).inflight = [] := by decide

theorem witness_ControlRegisterWrites :
    go (run fun q => { q with priv := true }) (cregs.map (.movcWrite · 5) ++ cregs.map (.movcw 5 · 6)) = true ∧
    ((run id).seq 3).inflight = [] := by decide

theorem witness_SetVectorLength : go (two 5 3) [.setvl 5 6] = true := by decide

/-- A SETVLC that finds elements. -/
def finds (s : State) : Bool := match (setvlcRead 3 6 7).run s with
  | .ok (some _) _ => true
  | _ => false

theorem witness_VectorLengthLimit : 0 < 1 ∧ go (two 5 3) [.setvl 5 6] = true ∧ isNext (exec (.setvl 5 6) (two 5 3)) = true ∧
    ∃ t v, (setvlcRead 3 6 7).run (run (regs [(6, 0x4000), (7, 3)]) id [(0x4000, 9)]) = .ok (some v) t := by
  refine ⟨by decide, by decide, by decide, ?_⟩
  have h : finds (run (regs [(6, 0x4000), (7, 3)]) id [(0x4000, 9)]) = true := by decide
  unfold finds at h
  split at h
  · exact ⟨_, _, ‹_›⟩
  · exact absurd h (by decide)

theorem quiet_of {s : State} (h : (s.seq s.cur).inflight = [] ∧ (s.seq s.cur).held = []) : quiet s := h

theorem full_of {s : State} {p : Phys} {n : Nat} (h : p.tier ≠ 0 ∨ (wordsOf p.key n).all (fun w => s.full (8 * w)) = true) :
    fullAt s p n := fun h0 w hw => h.elim (fun h => absurd h0 h) (fun h => List.all_eq_true.mp h w hw)

theorem witness_LoadResults :
    (∃ s, s = run (regs [(6, 0x3FF8)]) ∧ quiet s ∧ (xr s 6 + BitVec.ofInt 64 (0x7FF8 : BitVec 15).toInt).toNat % 8 = 0 ∧
      mapped s 3 .load (xr s 6 + BitVec.ofInt 64 (0x7FF8 : BitVec 15).toInt).toNat (atMain 0x3FF0) ∧ (atMain 0x3FF0).tier ≤ 4 ∧
      clear s (atMain 0x3FF0) 8 ∧ fullAt s (atMain 0x3FF0) 8 ∧ logMode s (s.seq 3).ctx = 0 ∧ go s [.ld 5 6 0x7FF8] = true) ∧
    (∃ s, s = run (regs [(1, 0x10000000000)]) ∧ quiet s ∧ (xr s 1 + BitVec.ofNat 64 (8 * (63 : BitVec 6).toNat)).toNat % 8 = 0 ∧
      mapped s 3 .load (xr s 1 + BitVec.ofNat 64 (8 * (63 : BitVec 6).toNat)).toNat (atWin 504) ∧ (atWin 504).tier ≤ 4 ∧
      clear s (atWin 504) 8 ∧ fullAt s (atWin 504) 8 ∧ go s [.cLd 5 63] = true) :=
  ⟨⟨_, rfl, quiet_of (by decide), by decide, mapped_of pMain (by decide), by decide, clear_of (by decide),
      full_of (by decide), by decide, by decide⟩,
    ⟨_, rfl, quiet_of (by decide), by decide, mapped_of pWin (by decide), by decide, clear_of (by decide),
      full_of (by decide), by decide⟩⟩

/-- Determinism mode. -/
def detCtx (c : Ctx) : Ctx := { c with cdet := 4 }

theorem witness_StoreResults :
    (∃ s, s = run (regs [(1, 0x10000000000), (6, 0x10000000008)]) ∧ quiet s ∧ mapped s 3 .store 0x10000000008 (atWin 8) ∧
      (xr s 6 + BitVec.ofInt 64 (0 : BitVec 15).toInt).toNat = 0x10000000008 ∧
      (xr s 1 + BitVec.ofNat 64 (8 * (1 : BitVec 6).toNat)).toNat = 0x10000000008 ∧ (atWin 8).tier = 0 ∧
      clear s (atWin 8) 8 ∧ go s [.st 5 6 0, .cSt 5 1] = true) ∧
    (∃ s, s = run (regs [(6, 0x4000)]) detCtx ∧ quiet s ∧ mapped s 3 .store 0x4000 (atMain 0x4000) ∧
      (xr s 6 + BitVec.ofInt 64 (0 : BitVec 15).toInt).toNat = 0x4000 ∧ (atMain 0x4000).tier ≠ 0 ∧
      s.det (s.seq 3).ctx = true ∧ (atMain 0x4000).kind ≠ 0 ∧ clear s (atMain 0x4000) 8 ∧ go s [.st 5 6 0] = true) ∧
    (∃ s, s = run (regs [(6, 0x40000)]) detCtx ∧ quiet s ∧ mapped s 3 .store 0x40000 ⟨0x40000, pSo.leaf, 0⟩ ∧
      (xr s 6 + BitVec.ofInt 64 (0 : BitVec 15).toInt).toNat = 0x40000 ∧ (⟨0x40000, pSo.leaf, 0⟩ : Phys).kind = 0 ∧
      clear s ⟨0x40000, pSo.leaf, 0⟩ 8 ∧ go s [.st 5 6 0] = true) :=
  ⟨⟨_, rfl, quiet_of (by decide), mapped_of pWin (by decide), by decide, by decide, by decide, clear_of (by decide), by decide⟩,
    ⟨_, rfl, quiet_of (by decide), mapped_of pMain (by decide), by decide, by decide, by decide, by decide,
      clear_of (by decide), by decide⟩,
    ⟨_, rfl, quiet_of (by decide), mapped_of pSo (by decide), by decide, by decide, clear_of (by decide), by decide⟩⟩

theorem witness_AtomicResults :
    (∃ s, s = run (regs [(7, 0x4000)]) ∧ quiet s ∧ (xr s 7).toNat % 8 = 0 ∧ mapped s 3 .atomic (xr s 7).toNat (atMain 0x4000) ∧
      (atMain 0x4000).tier ≤ 2 ∧ clear s (atMain 0x4000) 8 ∧ fullAt s (atMain 0x4000) 8 ∧
      go s [.amo .add .scPkg false 5 6 7, .amocas .relDie false 5 6 7] = true) ∧
    (∃ s, s = run (regs [(7, 0x10000000004)]) ∧ quiet s ∧ (xr s 7).toNat % 4 = 0 ∧
      mapped s 3 .atomic (xr s 7).toNat (atWin 4) ∧ clear s (atWin 4) 4 ∧ fullAt s (atWin 4) 4 ∧
      go s [.amo .swap .scDie true 5 6 7, .amocas .none true 5 6 7] = true) :=
  ⟨⟨_, rfl, quiet_of (by decide), by decide, mapped_of pMain (by decide), by decide, clear_of (by decide),
      full_of (by decide), by decide⟩,
    ⟨_, rfl, quiet_of (by decide), by decide, mapped_of pWin (by decide), clear_of (by decide), full_of (by decide), by decide⟩⟩

theorem witness_LoadAndEmpty :
    ∃ s, s = run (regs [(6, 0x10000000008)]) ∧ quiet s ∧ (xr s 6 + BitVec.ofInt 64 (0 : BitVec 15).toInt).toNat % 8 = 0 ∧
      mapped s 3 .load (xr s 6 + BitVec.ofInt 64 (0 : BitVec 15).toInt).toNat (atWin 8) ∧ (atWin 8).tier = 0 ∧
      clear s (atWin 8) 8 ∧ fullAt s (atWin 8) 8 ∧ go s [.ldfe 5 6 0, .ldfe 0 6 0] = true :=
  ⟨_, rfl, quiet_of (by decide), by decide, mapped_of pWin (by decide), by decide, clear_of (by decide), full_of (by decide),
    by decide⟩

theorem witness_StoredBytes : (run id).seqs.all (fun q => q.2.grp.st == .none) = true ∧ 7 < (bytesOf 8 5).length ∧
    0x4008 < (atMain 0x4000).key ∨ (atMain 0x4000).key + (bytesOf 8 5).length ≤ 0x4008 := by decide

/-- Pages of a tier that a scalar load does not accept, and one that cannot be written. -/
def oddTlb (s : State) : State := s.modDie 0 fun d => { d with
  tlb := [page 0x200000 0x200000 5 1, page 0x300000 0x300000 3 1,
    { pMain with leaf := pMain.leaf &&& ~~~(toWord 0x400) }] }

/-- The same, with the CXL port UP. -/
def hostTlb (s : State) : State := { oddTlb s with links := s.links.setIfInBounds 24 { Link.reset 24 with st := .up } }

theorem witness_AddressTraps :
    (smem (.st 5 6 0) = some ⟨.st, 8, 5, 6, 0, 0, .none⟩ ∧ 2 ^ 48 ≤ (xr (two 0x1000000000000 0) 6 + 0).toNat ∧
      go (two 0x1000000000000 0) [.st 5 6 0] = true) ∧
    ((xr (two 0xFFFFFFFFFFFF 0) 6 + 0).toNat < 2 ^ 48 ∧ (xr (two 0xFFFFFFFFFFFF 0) 6 + 0).toNat % 8 ≠ 0 ∧
      go (two 0xFFFFFFFFFFFF 0) [.st 5 6 0] = true) ∧
    (∃ t, (two 0x4000 0).migs = [] ∧ tlbHit (({ two 0x4000 0 with dies := (oddTlb (two 0x4000 0)).dies }).die (dieOf 3))
        (fld ((two 0x4000 0).ctx ((two 0x4000 0).seq 3).ctx).cptbase 0 12) 0x4000 = some t ∧ permits t.leaf .store = false) ∧
    (mapped (oddTlb (two 0x200000 0)) 3 .load 0x200000 ⟨0x200000, (page 0x200000 0x200000 5 1).leaf, 0⟩ ∧
      4 < (⟨0x200000, (page 0x200000 0x200000 5 1).leaf, 0⟩ : Phys).tier ∧ go (oddTlb (two 0x200000 0)) [.ld 5 6 0] = true) ∧
    (smem (.ldfe 5 6 0) = some ⟨.ldfe, 8, 5, 6, 0, 0, .none⟩ ∧ mapped (two 0x4000 0) 3 .load 0x4000 (atMain 0x4000) ∧
      (atMain 0x4000).tier ≠ 0 ∧ go (two 0x4000 0) [.ldfe 5 6 0] = true) ∧
    (smem (.amo .add .none true 5 6 7) = some ⟨.amo .add, 4, 5, 7, 6, 0, .none⟩ ∧
      2 < (⟨leafKey (page 0x300000 0x300000 3 1).leaf 0 0x300000, (page 0x300000 0x300000 3 1).leaf, 0⟩ : Phys).tier ∧
      mapped (hostTlb (two 0 0x300000)) 3 .atomic 0x300000
        ⟨leafKey (page 0x300000 0x300000 3 1).leaf 0 0x300000, (page 0x300000 0x300000 3 1).leaf, 0⟩ ∧
      go (hostTlb (two 0 0x300000)) [.amo .add .none true 5 6 7] = true) :=
  ⟨by decide, by decide, ⟨_, rfl, rfl, by decide⟩, ⟨mapped_of (page 0x200000 0x200000 5 1) (by decide), by decide, by decide⟩,
    ⟨by decide, mapped_of pMain (by decide), by decide, by decide⟩,
    ⟨by decide, by decide, mapped_of (page 0x300000 0x300000 3 1) (by decide), by decide⟩⟩

/-- A chain word at 0x4000, x6 its address and x7 a position. -/
def chain (w : Nat) (x7 : Word) (f : Seq → Seq := id) : State := run (fun q => f (regs [(6, 0x4000), (7, x7)] q)) id [(0x4000, w)]

theorem chain_ok (w : Nat) (x7 : Word) : quiet (chain w x7) ∧ mapped (chain w x7) 3 .load 0x4000 (atMain 0x4000) ∧
    mapped (chain w x7) 3 .atomic 0x4000 (atMain 0x4000) ∧ clear (chain w x7) (atMain 0x4000) 8 ∧
    fullAt (chain w x7) (atMain 0x4000) 8 ∧ (atMain 0x4000).tier ≤ 2 :=
  ⟨quiet_of ⟨rfl, rfl⟩, mapped_of pMain ⟨by decide, rfl, fun h => absurd h (by decide), rfl, rfl, by decide, by decide, by decide⟩,
    mapped_of pMain ⟨by decide, rfl, fun h => absurd h (by decide), rfl, rfl, by decide, by decide, by decide⟩,
    clear_of ⟨by decide, by decide, by decide, rfl, rfl, rfl, rfl, rfl, rfl⟩, full_of (.inl (by decide)), by decide⟩

/-- Elements found, a closed word, an open one, and the wake; `chain_ok` has the hypotheses that they share. -/
theorem witness_ChainWords :
    (go (chain 9 8) [.pubhw 6 7, .setvlc 5 6 7] = true ∧ (xr (chain 9 8) 6).toNat % 8 = 0 ∧
      (xr (chain 9 8) 7).toNat < (chain 9 8).mem.num (atMain 0x4000).key 8 % 2 ^ 63) ∧
    (go (chain (2 ^ 63 + 9) 9) [.setvlc 5 6 7] = true ∧
      (chain (2 ^ 63 + 9) 9).mem.num (atMain 0x4000).key 8 % 2 ^ 63 ≤ (xr (chain (2 ^ 63 + 9) 9) 7).toNat ∧
      2 ^ 63 ≤ (chain (2 ^ 63 + 9) 9).mem.num (atMain 0x4000).key 8) ∧
    (go (chain 9 9) [.setvlc 5 6 7] = true ∧ (chain 9 9).mem.num (atMain 0x4000).key 8 % 2 ^ 63 ≤ (xr (chain 9 9) 7).toNat ∧
      (chain 9 9).mem.num (atMain 0x4000).key 8 < 2 ^ 63) ∧
    ((chain 9 8 fun q => { q with sleep := some (.setvlc 5 6 7) }).pkg.frozen = false ∧
      ((chain 9 8 fun q => { q with sleep := some (.setvlc 5 6 7) }).seq 3).sleep = some (.setvlc 5 6 7) ∧
      (xr (chain 9 8 fun q => { q with sleep := some (.setvlc 5 6 7) }) 7).toNat <
        (chain 9 8 fun q => { q with sleep := some (.setvlc 5 6 7) }).mem.num (atMain 0x4000).key 8 % 2 ^ 63) := by decide

theorem witness_OwnershipQuery :
    (∃ s, s = two 0x100003FFFFF 0 ∧ (s.seq 3).winVa ≤ (xr s 6).toNat ∧
      (xr s 6).toNat < (s.seq 3).winVa + 0x200000 * (s.seq 3).groups.length ∧ go s [.ownq 5 6] = true) ∧
    (∃ s, s = two 0x10000400000 0 ∧ ¬((s.seq 3).winVa ≤ (xr s 6).toNat ∧
      (xr s 6).toNat < (s.seq 3).winVa + 0x200000 * (s.seq 3).groups.length) ∧ go s [.ownq 5 6] = true) :=
  ⟨⟨_, rfl, by decide⟩, ⟨_, rfl, by decide⟩⟩

theorem witness_TileDescriptors : go (two 5 3) [.movtd 15 .rows 6, .rdtd 5 15 .rows] = true ∧ TdField.base ≠ .rows := by decide

/-- A copy that sequencer 3 has started, at landing word `land`. -/
def stream (land kind : Nat) : StreamReg :=
  { bound := true, landing := land, pos := 2, sz := 3, kind := kind, base := 0x4000, stride := 8, index := 0, isn := 0, addrs := [] }

/-- A landing word at window offset 64 with E = 5, and stream register 1 bound to it. -/
def landed (l : Nat) (f : Seq → Seq := id) : State :=
  run (fun q => f { regs [(6, 0x10000000040)] q with
    copyLog := [stream 0x10000000040 0], sqr := q.sqr.set 1 (stream 0x10000000040 0) }) id [(cistBase + 64, 5 * 2 ^ 24 + l)]

theorem landed_ok (l : Nat) : mapped (landed l) 3 .load 0x10000000040 (atWin 64) ∧ clear (landed l) (atWin 64) 8 :=
  ⟨mapped_of pWin ⟨by decide, rfl, fun _ => rfl, rfl, rfl, by decide, by decide, by decide⟩,
    clear_of ⟨by decide, by decide, by decide, rfl, rfl, rfl, rfl, rfl, rfl⟩⟩

theorem witness_StreamRegisters :
    (∃ x, ((landed 3).seq 3).copyLog.find? (fun c => c.landing == (xr (landed 3) 6).toNat) = some x ∧ x.kind ≠ 2 ∧
      go (landed 3) [.bindq 1 6, .unbindq 1] = true) ∧
    (((run id).seq 3).copyLog.find? (fun c => c.landing == (xr (run id) 6).toNat) = none ∧ go (run id) [.bindq 1 6] = true) ∧
    (∃ s x, s = run (fun q => { q with copyLog := [stream 0 2] }) ∧
      (s.seq 3).copyLog.find? (fun c => c.landing == (xr s 6).toNat) = some x ∧ x.kind = 2 ∧ go s [.bindq 1 6] = true) ∧
    (((run id).seq 3).sqr[1].bound = false ∧ go (run id) [.movcRead 5 .sq1] = true) ∧
    (let r := ((landed 3).seq 3).sqr[1];
      r.bound = true ∧ r.landing % 8 = 0 ∧ r.landing < 2 ^ 48 ∧ (atWin 64).tier = 0 ∧ fullAt (landed 3) (atWin 64) 8 ∧
        r.pos < (landed 3).mem.num (atWin 64).key 8 / 2 ^ 24 % 2 ^ 24 ∧ r.pos < (landed 3).mem.num (atWin 64).key 8 % 2 ^ 24 ∧
        r.index = 0 ∧ r.kind ≠ 1 ∧ r.sz ≤ 3 ∧ (r.base + r.pos * r.stride) < 2 ^ 48 ∧
        (r.base + r.pos * r.stride) % 2 ^ r.sz = 0 ∧
        mapped (landed 3) 3 .load (r.base + r.pos * r.stride) (atMain 0x4010) ∧ (atMain 0x4010).tier ≤ 2 ∧
        clear (landed 3) (atMain 0x4010) (2 ^ r.sz) ∧ fullAt (landed 3) (atMain 0x4010) (2 ^ r.sz) ∧ quiet (landed 3) ∧
        go (landed 3) [.movcRead 5 .sq1] = true ∧
        (landed 2).mem.num (atWin 64).key 8 % 2 ^ 24 ≤ ((landed 2).seq 3).sqr[1].pos ∧ go (landed 2) [.movcRead 5 .sq1] = true ∧
        ((landed 3 fun q => { q with sleep := some (.stream 5 1) }).seq 3).sleep = some (.stream 5 1)) ∧
    (let s := landed 3 fun q => { q with sqr := q.sqr.set 1 { stream 0x10000000040 0 with pos := 5 } };
      s.mem.num (atWin 64).key 8 / 2 ^ 24 % 2 ^ 24 ≤ (s.seq 3).sqr[1].pos ∧ go s [.movcRead 5 .sq1] = true) ∧
    (∀ k : Fin 2, let s := landed 3 fun q => { q with sqr := q.sqr.set 1 { stream 0x10000000040 ([1, 0][k]) with sz := [3, 10][k] } };
      let r := (s.seq 3).sqr[1];
      r.pos < s.mem.num (atWin 64).key 8 / 2 ^ 24 % 2 ^ 24 ∧ r.pos < s.mem.num (atWin 64).key 8 % 2 ^ 24 ∧ r.index = 0 ∧
        (r.kind = 1 ∨ 3 < r.sz) ∧ (s.seq 3).held = [] ∧ go s [.movcRead 5 .sq1] = true) :=
  ⟨⟨_, rfl, by decide, by decide⟩, ⟨by decide, by decide⟩, ⟨_, _, rfl, rfl, by decide, by decide⟩, ⟨by decide, by decide⟩,
    ⟨by decide, by decide, by decide, by decide, full_of (by decide), by decide, by decide, by decide, by decide, by decide,
      by decide, by decide, mapped_of pMain (by decide), by decide, clear_of (by decide), full_of (by decide),
      quiet_of (by decide), by decide, by decide, by decide, by decide⟩, by decide, by decide⟩

/-- A monitor armed on line 256, triggered or not, with a take request or not. -/
def armed (hit : Bool) (take : Bool) (f : Seq → Seq := id) : State :=
  run fun q => f { q with monitor := some (256, hit), take := if take then some (0x0D, 0) else none }

theorem witness_Monitors :
    (mapped (two 0x4000 0) 3 .load (xr (two 0x4000 0) 6).toNat (atMain 0x4000) ∧ (xr (two 0x4000 0) 6).toNat < 2 ^ 48 ∧
      (atMain 0x4000).tier ≤ 2 ∧ go (two 0x4000 0) [.mon 6] = true) ∧
    (logMode (run id) 7 = 0 ∧ go (run id) [.mwait 5 6] = true ∧ ((run id).seq 3).monitor = none) ∧
    (go (armed true false) [.mwait 5 6] = true ∧ ((armed true false).seq 3).monitor = some (256, true)) ∧
    (go (armed false true) [.mwait 5 6] = true ∧ ((armed false true).seq 3).take.isSome = true) ∧
    (go (armed false false) [.mwait 5 6] = true ∧ ((armed false false).seq 3).monitor = some (256, false) ∧
      ((armed false false).seq 3).take = none) ∧
    (let s := armed false false fun q => { regs [(6, 100)] q with sleep := some (.mwait 5 6 0) };
      s.pkg.frozen = false ∧ (s.seq 3).sleep = some (.mwait 5 6 0) ∧ logMode s (s.seq 3).ctx = 0 ∧ (s.seq 3).getX 6 ≠ 0 ∧
      (s.pkg.tick - BitVec.ofNat 64 0).toNat < ((s.seq 3).getX 6).toNat ∧
      ((s.seq 3).getX 6).toNat ≤ (({ s with pkg := { s.pkg with tick := 100 } } : State).pkg.tick - BitVec.ofNat 64 0).toNat) ∧
    (let s := armed false true fun q => { q with sleep := some (.mwait 5 6 0) };
      (s.seq 3).getX 6 = 0 ∧ (s.seq 3).take.isSome = true) :=
  ⟨⟨mapped_of pMain (by decide), by decide, by decide, by decide⟩, by decide⟩

/-- A tree at 0x8000 whose first entry of level 3 is a leaf for main memory at 0, not accessed yet. -/
def tree (leaf : Nat) : State :=
  { State.resetWith [] with
    cur := 3, seqs := [(3, regs [(6, 0x4000), (7, 0)] { q0 with priv := true })],
    ctxs := [{ c0 with cptbase := 0x8000 }],
    mem := State.reset.mem.write 0x8000 (bytesOf 8 leaf) }

/-- A leaf of level 3 for main memory, readable and writable. -/
def leaf3 : Nat := 1 + 2 + 16 + 128 + 7 * 512

/-- A reply of four bytes is due at offset 0x108 of the window. -/
def reply : Landing := ⟨3, 4, 70, 0, cistBase + 0x108, [1, 2, 3, 4], [255, 255, 255, 255], false, 7, 0, false⟩

/-- That reply is due, x6 names the window and x7 is 0; what a TLBINV that has removed the translations waits for. -/
def landing (inv : Option (List Holder)) : State :=
  { run (fun q => { regs [(6, 0x10000000000), (7, 0)] q with priv := true, inv := inv }) with landings := [reply] }

theorem witness_Translations :
    (∃ s, s = run (fun q => { regs [(6, 0x1000000000000), (7, 0)] q with priv := true }) ∧ (xr s 7).toNat / 2 ^ 12 % 2 = 0 ∧
      2 ^ 48 ≤ (xr s 6).toNat ∧ go s [.tlbinv 6 7, .pgq 5 6] = true) ∧
    (¬(2 ^ 18 ≤ (xr (tree leaf3) 7).toNat ∨ (xr (tree leaf3) 7).toNat / 2 ^ 14 % 4 ≠ 0 ∨
        2 ≤ (xr (tree leaf3) 7).toNat / 2 ^ 16 % 4 ∨ ((xr (tree leaf3) 7).toNat / 2 ^ 12 % 2 = 0 ∧ 2 ^ 48 ≤ (xr (tree leaf3) 6).toNat)) ∧
      go (tree leaf3) [.tlbinv 6 7, .pgq 5 6] = true ∧ ((tree leaf3).seq 3).inflight = [] ∧ ((tree leaf3).seq 3).held = [] ∧
      ((tree leaf3).seq 3).inv = none ∧ tlbHolders (tree leaf3) 0 (xr (tree leaf3) 7) (xr (tree leaf3) 6).toNat = []) ∧
    (go (landing none) [.tlbinv 6 7] = true ∧ ((landing none).seq 3).inv = none ∧
      tlbHolders (landing none) 0 (xr (landing none) 7) (xr (landing none) 6).toNat ≠ []) ∧
    (∀ late : Bool, let s := landing (some [.landing 3 4 (if late then 71 else 70) 0 (cistBase + 0x108)]);
      go s [.tlbinv 6 7] = true ∧ ∃ hs, (s.seq 3).inv = some hs ∧ hs.any (stillHolds s) = !late) ∧
    ((walk (tree leaf3).mem ((tree leaf3).ctx 7).cptbase 0x4000).reason = 0 ∧
      (walk (tree 0).mem ((tree 0).ctx 7).cptbase 0x4000).reason ≠ 0 ∧ go (tree 0) [.pgq 5 6] = true) ∧
    ((tree leaf3).pkg.frozen = false ∧ (∃ p, p ∈ (tree leaf3).seqs ∧ p.2.ctx = 7 ∧ p.2.mode ≠ .idle ∧ p.1 / 16 = 0) ∧
      tlbHit ((tree leaf3).die 0) (((tree leaf3).ctx 7).cptbase.toNat % 4096) 0x4000 = none ∧ (tree leaf3).soft = [] ∧
      permits (walk (tree leaf3).mem ((tree leaf3).ctx 7).cptbase 0x4000).leaf .store = true ∧
      eTier (walk (tree leaf3).mem ((tree leaf3).ctx 7).cptbase 0x4000).leaf ≠ 0 ∧
      (tree leaf3).seqs.all (fun q => q.2.grp.st == .none) = true ∧
      ∀ k, k ∈ (walk (tree leaf3).mem ((tree leaf3).ctx 7).cptbase 0x4000).path → (tree leaf3).wayTo 0 k = .clear) ∧
    (∃ s m, s = { tree 0 with migs := [⟨3, 7, 0x4000, 5, false⟩], now := 1000005 } ∧ s.pkg.frozen = false ∧
      s.migs[0]? = some m ∧ m.expired = false ∧ 1000000 ≤ s.now - m.since ∧ s.sumps = []) :=
  ⟨⟨_, rfl, by decide, by decide, by decide⟩, ⟨by decide, by decide, by decide, by decide, by decide, by decide⟩, by decide,
    fun late => ⟨by revert late; decide, _, rfl, by revert late; decide⟩, by decide,
    ⟨by decide, ⟨_, List.mem_singleton.mpr rfl, by decide, by decide, by decide⟩, by decide, by decide, by decide, by decide,
      by decide⟩, ⟨_, _, rfl, rfl, rfl, by decide, by decide⟩⟩

/-- A sump at 0x4000 of 64 entries with PUT and GET as given. -/
def sump (put got : Nat) : State :=
  run (fun q => { q with priv := true }) (fun c => { c with csump := 0x4006 }) [(0x4000, put), (0x4008, got)]

theorem sump_ok (put got : Nat) : quiet (sump put got) ∧ mapped (sump put got) 3 .atomic 0x4000 (atMain 0x4000) ∧
    clear (sump put got) (atMain 0x4000) 16 ∧ clear (sump put got) ⟨(atMain 0x4000).key + 8, pMain.leaf, 0⟩ 8 ∧
    (atMain 0x4000).tier = 1 :=
  ⟨quiet_of ⟨rfl, rfl⟩, mapped_of pMain ⟨by decide, rfl, fun h => absurd h (by decide), rfl, rfl, by decide, by decide, by decide⟩,
    clear_of ⟨by decide, by decide, by decide, rfl, rfl, rfl, rfl, rfl, rfl⟩,
    clear_of ⟨by decide, by decide, by decide, rfl, rfl, rfl, rfl, rfl, rfl⟩, by decide⟩

/-- Without a sump, an empty one, and one with an entry; `sump_ok` has the hypotheses that they share. -/
theorem witness_SumpPop : (((run id).ctx 7).csump.toNat / 2 ^ 12 % 2 ^ 36 * 4096 = 0 ∧ go (run id) [.sumppop 5] = true) ∧
    (((sump 3 3).ctx 7).csump.toNat / 2 ^ 12 % 2 ^ 36 * 4096 = 0x4000 ∧ go (sump 3 3) [.sumppop 5] = true ∧
      (sump 3 3).mem.num (atMain 0x4000).key 8 = (sump 3 3).mem.num ((atMain 0x4000).key + 8) 8) ∧
    (go (sump 4 3) [.sumppop 5] = true ∧
      (sump 4 3).mem.num (atMain 0x4000).key 8 ≠ (sump 4 3).mem.num ((atMain 0x4000).key + 8) 8) := by decide


/-- Elementwise operands from x6, x7 and x8. -/
def abd : VAB := ⟨.unit 6, .unit 7, .unit 8, false, true, .none⟩

/-- An operation that succeeds. -/
def isOk {α : Type} (r : EStateM.Result Stop State α) : Bool := match r with
  | .ok _ _ => true
  | .error _ _ => false

theorem ok_of {α : Type} {r : EStateM.Result Stop State α} (h : isOk r = true) : ∃ a s, r = .ok a s := by
  cases r with
  | ok a s => exact ⟨a, s, rfl⟩
  | error _ _ => exact absurd h (by simp [isOk])

/-- The operands of a VWAIT on 64-bit elements at 0x4000, whose expected values are those elements. -/
def waitOn : VAB := ⟨.unit 6, .unit 7, .unit 8, false, false, .none⟩

/-- About to issue a VWAIT over vl elements. -/
def waits (vl : Nat) : State := run fun q => { regs [(6, 0x10000000000), (7, 0x4000), (8, 0x10000000100)] q with vl := vl, vtype := 3 }

theorem witness_VectorIssue :
    ((vform (.vadd abd)).isSome = true ∧ elementwise (.vadd abd) = true ∧ go (run id) [.vadd abd] = true) ∧
    (∃ f, vform (.vwait 9 waitOn) = some f ∧ ((waits 1).seq 3).inflight = [] ∧ go (waits 1) [.vwait 9 waitOn] = true ∧
      ∃ ex t, (vwaitStart ⟨3, ((waits 1).seq 3).entryOf (.vwait 9 waitOn) f none, f, 0⟩ ((waits 1).seq 3).vl).run
        (joined (.vwait 9 waitOn) f (waits 1)) = .ok ex t) ∧
    (((waits 0).seq 3).vl = 0 ∧ go (waits 0) [.vwait 9 waitOn] = true) :=
  ⟨by decide, ⟨_, rfl, by decide, by decide, ok_of (by decide +kernel)⟩, by decide⟩

/-- Instruction i in flight on sequencer 3 over 10 elements of a type; its groups stand as given. -/
def flying (i : Instr) (vt : Word) (gs : List GCtr) (f : Seq → Seq := id) (m : List (Nat × Nat) := []) : State :=
  (run (fun q => { regs [(6, 0x10000000000), (7, 0x10000008000), (8, 0x10000010000)] q with vtype := vt }) id m).modSeq 3 fun q =>
    f { q with isn := 78, inflight := match vform i with
      | some o => [{ q.entryOf i o none with gs := gs }]
      | none => [] }

/-- A group's place. -/
def at_ (k : Nat) (fin : Bool := false) : GCtr := ⟨k, fin, [], false⟩

/-- The one entry in flight. -/
def only (s : State) : Entry := ((s.seq 3).inflight[0]?).getD ((s.seq 3).entryOf .cNop { op := .wait } none)

/-- The caches of groups and banks are empty. -/
theorem agree_of {s : State} {d : Nat} (h : (s.die d).bankTlb = [] ∧ (s.die d).groupTlb = [] ∧
    (s.die d).tlb.Pairwise fun t u => t.space = u.space → t.vpn + t.pages ≤ u.vpn ∨ u.vpn + u.pages ≤ t.vpn) : cachesAgree s d :=
  ⟨h.2.2, fun pl space va t ht => by
    cases pl with
    | none => exact ht
    | some p => simpa [cacheHit, h.1, h.2.1, smapGet, tlbFind] using ht⟩

theorem atElement_of {s : State} {n g i : Nat} {e : Entry} (hr : running s n g e) (ha : cachesAgree s (dieOf n))
    (h : (e.ctr g).next = i ∧ i < e.vl ∧ vtVCHK e.vtype = false ∧ (s.die (dieOf n)).regime = false ∧ s.soft = [] ∧
      s.marks = [] ∧ s.landings = [] ∧ (s.seq n).versions = [] ∧ (s.seq n).kept = [] ∧ (s.seq n).held = [] ∧
      (s.seqs.all fun q => q.2.grp.st == .none) = true ∧ (s.seq n).winVa % 64 = 0 ∧ (s.seq n).winPa % 64 = 0) :
    atElement s n g i e := by
  obtain ⟨h1, h2, h3, h4, h5, h6, h7, h8, h9, h10, h11, h12⟩ := h
  exact ⟨hr, h1, h2, h3, h4, h5, h6, h7, h8, h9, h10, h11, ha, h12⟩

/-- i in flight on sequencer 3 over 10 elements of type vt, on registers; both groups stand at element k; what it has pulled. -/
def fly (i : Instr) (vt : Word) (l : List (Reg × Word)) (k : Nat) (pulled : List (Nat × Nat × Nat) := []) : State :=
  (run fun q => { regs l q with vtype := vt }).modSeq 3 fun q =>
    { q with isn := 78, inflight := match vform i with
      | some o => [{ q.entryOf i o none with gs := [at_ k, at_ k], pulled := pulled }]
      | none => [] }

/-- The exact result of an element is stated, for sources of zeros. -/
def answer (f : VForm) (e : Entry) (i : Nat) : Bool :=
  let t := vtTy e.vtype
  (exactOf f.op (match f.op with | .carry .. | .icmp _ | .fcmp _ => t | _ => f.op.tyD e.rowLen t) e
    ((e.opdA f).any Opd.isScal) i 0 0 0 ((f.op.tyA e.rowLen t).val 0) ((f.op.tyB t).val 0) ((f.op.tyC t).val 0)).isSome

theorem witness_ComputeElements :
    (∃ s e f, s = fly (.vadd abd) 8 [(6, 0x10000000000), (7, 0x10000008000), (8, 0x10000010000)] 2 ∧ e = only s ∧
      vform e.ins = some f ∧ f.mask = .none ∧ atElement s 3 0 2 e ∧ f.op.accepts (vtTy e.vtype) = true ∧
      sourced s 3 (e.opdA f) (f.op.tyA e.rowLen (vtTy e.vtype)) 2 0 ∧ sourced s 3 (e.opdB f) (f.op.tyB (vtTy e.vtype)) 2 0 ∧
      sourced s 3 (e.opdC f) (f.op.tyC (vtTy e.vtype)) 2 0 ∧
      placed s 3 0 (e.opdD f) (f.op.tyD e.rowLen (vtTy e.vtype)) 2 (atWin 16) ∧
      answer f e 2 = true) ∧
    ∃ s e f, s = fly (.vfcmp .lt ⟨.unit 6, .stride 7, .index 9, false, false, .none⟩) 11
        [(6, 0x10000000000), (7, 0x10000008000), (8, 16), (9, 0x10000010000), (10, 0x10000018000)] 9 ∧ e = only s ∧
      vform e.ins = some f ∧ f.mask = .none ∧ atElement s 3 0 9 e ∧ f.op.accepts (vtTy e.vtype) = true ∧
      sourced s 3 (e.opdA f) (f.op.tyA e.rowLen (vtTy e.vtype)) 9 0 ∧ sourced s 3 (e.opdB f) (f.op.tyB (vtTy e.vtype)) 9 0 ∧
      sourced s 3 (e.opdC f) (f.op.tyC (vtTy e.vtype)) 9 0 ∧
      placed s 3 0 (e.opdD f) (f.op.tyD e.rowLen (vtTy e.vtype)) 9 (atWin 1) ∧ answer f e 9 = true :=
  ⟨⟨_, _, _, rfl, rfl, rfl, rfl, atElement_of (by unfold running; decide) (agree_of (by decide)) (by decide), by decide,
      ⟨.inr (by decide), by decide, atWin 0x8010, ⟨⟨mapped_of pWin (by decide), by decide⟩, by decide⟩, by decide⟩,
      ⟨.inr (by decide), by decide, atWin 0x10010, ⟨⟨mapped_of pWin (by decide), by decide⟩, by decide⟩, by decide⟩, trivial,
      ⟨_, rfl, .inr (by decide), trivial, ⟨mapped_of pWin (by decide), by decide⟩, by unfold owned; decide, by decide⟩, by decide⟩,
    ⟨_, _, _, rfl, rfl, rfl, rfl, atElement_of (by unfold running; decide) (agree_of (by decide)) (by decide), by decide,
      ⟨.inr (by decide), by decide, by decide, atWin 0x8090, ⟨⟨mapped_of pWin (by decide), by decide⟩, by decide⟩, by decide⟩,
      ⟨.inr (by decide), by decide, by decide, atWin 0x18024, atWin 0x10000, ⟨⟨mapped_of pWin (by decide), by decide⟩, by decide⟩,
        ⟨⟨mapped_of pWin (by decide), by decide⟩, by decide⟩, by decide⟩, trivial,
      ⟨_, rfl, .inl rfl, trivial, ⟨mapped_of pWin (by decide), by decide⟩, by unfold owned; decide, by decide⟩, by decide⟩⟩

/-- Pulled elements 0 and 1 for keys 0 and 8 of the window, and the start of a combining instruction. -/
def leaves : List (Nat × Nat × Nat) := [(0, 5, cistBase), (1, 1, cistBase + 8), (4294967296, 0, 0)]

theorem witness_CombiningElements :
    (∃ s e f o rd, s = fly (.vredsum ⟨.scal 9, .unit 7, false, .none⟩) 8 [(7, 0x10000008000)] 10 leaves ∧ e = only s ∧
      vform e.ins = some f ∧ f.op = .red o ∧ f.d = some (.scal rd) ∧ f.op.accepts (vtTy e.vtype) = true ∧ gathered s 3 0 e) ∧
    (∃ s e f o rd, s = fly (.vmpop 9 ⟨.unit 7, false, .none⟩) 8 [(7, 0x10000008000)] 10 leaves ∧ e = only s ∧
      vform e.ins = some f ∧ f.op = .mscal o ∧ f.d = some (.scal rd) ∧ gathered s 3 0 e) ∧
    (∃ s e f o, s = fly (.vscan .sum ⟨.unit 6, .unit 7, false, .none⟩) 8 [(6, 0x10000000000), (7, 0x10000008000)] 10 leaves ∧
      e = only s ∧ vform e.ins = some f ∧ f.op = .scan o ∧ f.op.accepts (vtTy e.vtype) = true ∧ gathered s 3 0 e ∧
      vtMPOL e.vtype = false ∧ (vtTy e.vtype).packed = false ∧ s.soft = [] ∧ s.marks = [] ∧ (s.seq 3).versions = [] ∧
      (s.seqs.all fun q => q.2.grp.st == .none) = true ∧ cachesAgree s (dieOf 3) ∧ (s.seq 3).winVa % 64 = 0 ∧
      (s.seq 3).winPa % 64 = 0 ∧ (∀ k, k < e.vl → k ≠ 0 → k ≠ 1 → e.got k = none) ∧ e.got 0 = some (5, cistBase) ∧
      e.got 1 = some (1, cistBase + 8) ∧ placed s 3 0 (e.opdD f) (vtTy e.vtype) 0 (atWin 0) ∧
      placed s 3 0 (e.opdD f) (vtTy e.vtype) 1 (atWin 8)) :=
  ⟨⟨_, _, _, _, _, rfl, rfl, rfl, rfl, rfl, by decide, by unfold gathered running; decide⟩,
    ⟨_, _, _, _, _, rfl, rfl, rfl, rfl, rfl, by unfold gathered running; decide⟩,
    ⟨_, _, _, _, rfl, rfl, rfl, rfl, by decide, by unfold gathered running; decide, by decide, by decide, by decide, by decide,
      by decide, by decide, agree_of (by decide), by decide, by decide, by decide, by decide, by decide,
      ⟨_, rfl, .inr (by decide), trivial, ⟨mapped_of pWin (by decide), by decide⟩, by unfold owned; decide, by decide⟩,
      ⟨_, rfl, .inr (by decide), trivial, ⟨mapped_of pWin (by decide), by decide⟩, by unfold owned; decide, by decide⟩⟩⟩

/-- What the clauses of memory instructions share, for element 2 of an instruction on 64-bit integers. -/
def elementOf (i : Instr) (l : List (Reg × Word)) (P : State → Entry → VForm → Prop) : Prop := ∃ s e f, s = fly i 8 l 2 ∧ e = only s ∧
  vform e.ins = some f ∧ f.mask = .none ∧ atElement s 3 0 2 e ∧ f.op.accepts (vtTy e.vtype) = true ∧
  (vtTy e.vtype).packed = false ∧ vtTy e.vtype ≠ .mld ∧ (∀ k, k < (s.seq 3).groups.length → 2 ≤ (e.ctr k).next) ∧ P s e f

theorem witness_MemoryElements :
    elementOf (.vld .none ⟨.unit 6, .unit 7, false, .none⟩) [(6, 0x10000000000), (7, 0x4000)] (fun s e f =>
      f.op = .vld .none ∧ ∃ a d, e.opdA f = some a ∧ e.opdD f = some d ∧ outside s 3 .load (elemVa a (vtTy e.vtype) 2) 8 (atMain 0x4010) ∧
        placed s 3 0 (some d) (vtTy e.vtype) 2 (atWin 16)) ∧
    elementOf (.vst .none ⟨.unit 6, .unit 7, false, .none⟩) [(6, 0x4000), (7, 0x10000000000)] (fun s e f =>
      f.op = .vst .none ∧ s.det (s.seq 3).ctx = false ∧ ∃ a d, e.opdA f = some a ∧ e.opdD f = some d ∧
        here s 3 .load (elemVa a (vtTy e.vtype) 2) 8 (atWin 16) ∧ owned s 3 0 (elemVa a (vtTy e.vtype) 2) ∧
        vtTy e.vtype ≠ .w48 ∧ outside s 3 .store (elemVa d (vtTy e.vtype) 2) 8 (atMain 0x4010)) ∧
    elementOf (.vamo .add .none ⟨.unit 6, .unit 7, .scal 8, false, false, .none⟩) [(6, 0x10000000000), (7, 0x4000), (8, 9)] (fun s e f =>
      f.op = .amo .add .none ∧ ∃ a d, e.opdA f = some a ∧ e.opdD f = some d ∧ outside s 3 .load (elemVa a (vtTy e.vtype) 2) 8 (atMain 0x4010) ∧
        outside s 3 .store (elemVa a (vtTy e.vtype) 2) 8 (atMain 0x4010) ∧ placed s 3 0 (some d) (vtTy e.vtype) 2 (atWin 16) ∧
        (atMain 0x4010).key + 8 ≤ (atWin 16).key ∧ sourced s 3 (e.opdB f) (vtTy e.vtype) 2 9 ∧ sourced s 3 (e.opdC f) (vtTy e.vtype) 2 0) ∧
    elementOf (.vcas .none ⟨.unit 6, .unit 7, .scal 8, .scal 9, false, false, false, .none⟩)
      [(6, 0x10000000000), (7, 0x4000), (8, 9), (9, 5)] (fun s e f =>
      f.op = .cas .none ∧ ∃ a d, e.opdA f = some a ∧ e.opdD f = some d ∧ outside s 3 .load (elemVa a (vtTy e.vtype) 2) 8 (atMain 0x4010) ∧
        outside s 3 .store (elemVa a (vtTy e.vtype) 2) 8 (atMain 0x4010) ∧ placed s 3 0 (some d) (vtTy e.vtype) 2 (atWin 16) ∧
        (atMain 0x4010).key + 8 ≤ (atWin 16).key ∧ sourced s 3 (e.opdB f) (vtTy e.vtype) 2 9 ∧ sourced s 3 (e.opdC f) (vtTy e.vtype) 2 5) ∧
    elementOf (.vown ⟨.unit 6, .unit 7, false, .none⟩) [(6, 0x10000000000), (7, 0x4000)] (fun s e f =>
      f.op = .own ∧ ∃ a d, e.opdA f = some a ∧ e.opdD f = some d ∧ a.spec = .unit 7 ∧ placed s 3 0 (some d) (.int 8 false) 2 (atWin 16)) ∧
    elementOf (.vempty ⟨.unit 6, .none⟩) [(6, 0x10000000000)] (fun s e f =>
      f.op = .empty ∧ placed s 3 0 (e.opdD f) (vtTy e.vtype) 2 (atWin 16)) ∧
    elementOf (.vfill ⟨.unit 6, .none⟩) [(6, 0x10000000000)] (fun s e f =>
      f.op = .fill ∧ placed s 3 0 (e.opdD f) (vtTy e.vtype) 2 (atWin 16)) := by
  have far : ∀ acc, outside (fly (.vld .none ⟨.unit 6, .unit 7, false, .none⟩) 8 [(6, 0x10000000000), (7, 0x4000)] 2) 3 acc 0x4010 8
      (atMain 0x4010) := fun acc => ⟨mapped_of pMain (by cases acc <;> decide), .inl (by decide), by decide, by unfold sound; decide, .inl (by decide)⟩
  refine ⟨⟨_, _, _, rfl, rfl, rfl, rfl, atElement_of (by unfold running; decide) (agree_of (by decide)) (by decide), by decide, by decide,
      by decide, by decide, rfl, _, _, rfl, rfl, far _,
      ⟨_, rfl, .inr (by decide), trivial, ⟨mapped_of pWin (by decide), by decide⟩, by unfold owned; decide, by decide⟩⟩,
    ⟨_, _, _, rfl, rfl, rfl, rfl, atElement_of (by unfold running; decide) (agree_of (by decide)) (by decide), by decide, by decide,
      by decide, by decide, rfl, by decide, _, _, rfl, rfl, ⟨⟨mapped_of pWin (by decide), by decide⟩, by decide⟩, by unfold owned; decide,
      by decide, ⟨mapped_of pMain (by decide), .inl (by decide), by decide, by unfold sound; decide, .inl (by decide)⟩⟩,
    ⟨_, _, _, rfl, rfl, rfl, rfl, atElement_of (by unfold running; decide) (agree_of (by decide)) (by decide), by decide, by decide,
      by decide, by decide, rfl, _, _, rfl, rfl,
      ⟨mapped_of pMain (by decide), .inl (by decide), by decide, by unfold sound; decide, .inl (by decide)⟩,
      ⟨mapped_of pMain (by decide), .inl (by decide), by decide, by unfold sound; decide, .inl (by decide)⟩,
      ⟨_, rfl, .inr (by decide), trivial, ⟨mapped_of pWin (by decide), by decide⟩, by unfold owned; decide, by decide⟩, by decide,
      ⟨.inr (by decide), by decide, by decide⟩, trivial⟩,
    ⟨_, _, _, rfl, rfl, rfl, rfl, atElement_of (by unfold running; decide) (agree_of (by decide)) (by decide), by decide, by decide,
      by decide, by decide, rfl, _, _, rfl, rfl,
      ⟨mapped_of pMain (by decide), .inl (by decide), by decide, by unfold sound; decide, .inl (by decide)⟩,
      ⟨mapped_of pMain (by decide), .inl (by decide), by decide, by unfold sound; decide, .inl (by decide)⟩,
      ⟨_, rfl, .inr (by decide), trivial, ⟨mapped_of pWin (by decide), by decide⟩, by unfold owned; decide, by decide⟩, by decide,
      ⟨.inr (by decide), by decide, by decide⟩, ⟨.inr (by decide), by decide, by decide⟩⟩,
    ⟨_, _, _, rfl, rfl, rfl, rfl, atElement_of (by unfold running; decide) (agree_of (by decide)) (by decide), by decide, by decide,
      by decide, by decide, rfl, _, _, rfl, rfl, rfl,
      ⟨_, rfl, .inr (by decide), trivial, ⟨mapped_of pWin (by decide), by decide⟩, by unfold owned; decide, by decide⟩⟩,
    ⟨_, _, _, rfl, rfl, rfl, rfl, atElement_of (by unfold running; decide) (agree_of (by decide)) (by decide), by decide, by decide,
      by decide, by decide, rfl,
      ⟨_, rfl, .inr (by decide), trivial, ⟨mapped_of pWin (by decide), by decide⟩, by unfold owned; decide, by decide⟩⟩,
    ⟨_, _, _, rfl, rfl, rfl, rfl, atElement_of (by unfold running; decide) (agree_of (by decide)) (by decide), by decide, by decide,
      by decide, by decide, rfl,
      ⟨_, rfl, .inr (by decide), trivial, ⟨mapped_of pWin (by decide), by decide⟩, by unfold owned; decide, by decide⟩⟩⟩

/-- A load of x9 from 0x4000 in flight, its word pulled. -/
def loading : State := flying (.ld 9 6 0) 8 [] fun q => { q with
  inflight := [{ q.entryOf (.ld 9 6 0) { op := .wait } (some 9) with
    gs := [at_ 0, at_ 0], pulled := [(0, 0x4000, pMain.leaf.toNat)] }] }

/-- A VWAIT asleep whose element `unmet` of 4 bytes at 0x4000 has not been seen to match. -/
def dozing (unmet : List Nat) (vl : Nat) : State :=
  (waits vl).modSeq 3 fun q => match vform (.vwait 9 waitOn) with
    | some f => { q with inflight := [{ q.entryOf (.vwait 9 waitOn) f none with gs := [at_ 0, at_ 0] }],
                         sleep := some (.vwait 0 [(1, 0)] unmet []) }
    | none => q

theorem witness_GroupMoves :
    (∃ s e, s = flying (.vadd abd) 8 [at_ 10, at_ 0] ∧ e = only s ∧ s.copies (dieOf 3) (pumpOf 3) = [] ∧ (s.seq 3).held = [] ∧
      running s 3 0 e ∧ elementwise e.ins = true ∧ (∀ f, vform e.ins = some f → f.op.combines = false) ∧
      e.vl ≤ (e.ctr 0).next ∧ 1 < (s.seq 3).groups.length ∧ (e.ctr 1).fin = false) ∧
    (∃ s e, s = flying (.vadd abd) 8 [at_ 10, at_ 10 true] ∧ e = only s ∧ running s 3 0 e ∧
      ∀ k, k < (s.seq 3).groups.length → k ≠ 0 → (e.ctr k).fin = true) ∧
    (∃ e, e = only loading ∧ running loading 3 0 e ∧ smem e.ins = some ⟨.ld, 8, 9, 6, 0, 0, .none⟩ ∧
      e.pulled = [(0, (atMain 0x4000).key, (atMain 0x4000).leaf.toNat)] ∧ (atMain 0x4000).tier = 1 ∧
      keyExists (atMain 0x4000).key = true ∧ keyExists ((atMain 0x4000).key + 7) = true ∧ (atMain 0x4000).key < hostKey ∧
      inNotify (atMain 0x4000).key = false ∧ loading.soft = []) ∧
    (∃ s e, s = flying (.vadd abd) 8 [at_ 10 true, at_ 0] (fun q => { q with
        inflight := q.inflight.map fun e => { e with waves := 1 } }) ∧ e = only s ∧ e.waves < (s.seq 3).groups.length ∧
      (e.gs.take e.waves).all (·.fin) = true) ∧
    (∃ s e, s = dozing [1] 2 ∧ e = only s ∧ running s 3 0 e ∧ e.ins = .vwait 9 waitOn ∧
      (s.seq 3).sleep = some (.vwait 0 [(1, 0)] [1] []) ∧ (s.seq 3).logged = 0 ∧ logMode s (s.seq 3).ctx = 0 ∧
      vtTy e.vtype = .int 4 true ∧ waitOn.a = .unit 7 ∧ s.soft = [] ∧ (((e.w 2).toNat + 1 * 4) % 2 ^ 64) % 4 = 0 ∧
      mapped s 3 .load (((e.w 2).toNat + 1 * 4) % 2 ^ 64) (atMain 0x4004) ∧ (atMain 0x4004).tier = 1 ∧
      keyExists (atMain 0x4004).key = true ∧ keyExists ((atMain 0x4004).key + 3) = true ∧ (atMain 0x4004).key < hostKey ∧
      inNotify (atMain 0x4004).key = false ∧ smapGet 1 [(1, 0)] = some (s.mem.num (atMain 0x4004).key 4)) ∧
    (∃ s e, s = dozing [] 0 ∧ e = only s ∧ running s 3 0 e ∧ e.vl = 0 ∧ e.isn = (s.seq 3).isn ∧ (s.seq 3).loops = []) ∧
    (∀ s, s ∈ [flying (.vadd abd) 8 [at_ 10, at_ 0], loading, dozing [1] 2] → s.copyHome (copyId (s.seq 3).runId 77) = none ∧
      (s.seq 3).held = [] ∧ s.landings = []) ∧
    (∃ s e, s = { flying (.vadd abd) 8 [at_ 10, at_ 0] with landings := [reply] } ∧ e = only s ∧ running s 3 0 e ∧
      s.copyHome (copyId (s.seq 3).runId e.isn) = none ∧ s.landings = [reply] ∧ reply.so = false ∧
      (∀ e, e ∈ (s.seq reply.sq).inflight → e.isn ≠ reply.isn) ∧ reply.keep = List.replicate reply.data.length 0xFF ∧
      reply.data ≠ [] ∧ (s.die (reply.sq / 16)).regime = false ∧ s.seqs.all (fun q => q.2.grp.st == .none) = true) :=
  ⟨⟨_, _, rfl, rfl, by decide, by decide, by unfold running; decide, by decide,
      fun f h => by cases (Option.some.inj h).symm; rfl, by decide, by decide, by decide⟩,
    ⟨_, _, rfl, rfl, by unfold running; decide, by decide⟩,
    ⟨_, rfl, by unfold running; decide, by decide, by decide, by decide, by decide, by decide, by decide, by decide,
      by decide⟩,
    ⟨_, _, rfl, rfl, by decide, by decide⟩,
    ⟨_, _, rfl, rfl, by unfold running; decide, by decide, by decide, by decide, by decide, by decide, by decide, by decide,
      by decide, mapped_of pMain (by decide), by decide, by decide, by decide, by decide, by decide, by decide⟩,
    ⟨_, _, rfl, rfl, by unfold running; decide, by decide, by decide, by decide⟩,
    by decide,
    ⟨_, _, rfl, rfl, by unfold running; decide, by decide, by decide, by decide, by decide, by decide, by decide, by decide, by decide⟩⟩

/-- A lease of context 7 in a slot. -/
def lent (slot : Nat) (st : LeaseSt) (kind engine level : Nat) : Lease :=
  { Lease.free 7 slot 5 with st := st, kind := kind, engine := engine, level := level, cap := 7, asked := 3, granted := 2 }

/-- x6 as given, and die 0 with these leases. -/
def leasing (x : Word) (ls : List Lease) : State := (run (regs [(6, x)])).modDie 0 fun d => { d with leases := ls }

theorem witness_LeaseInstructions :
    (badRequest 8 ∧ badRequest 256 ∧ badRequest 2 ∧ badRequest 0x85 ∧ ¬badRequest 0x75 ∧
      go (leasing 8 []) [.lease 9 6] = true) ∧
    (∃ s, s = leasing 1 ((List.range 32).map fun k => lent k .held 0 0 1) ∧ ¬badRequest (xr s 6).toNat ∧
      (∀ j, j < 32 → (s.lease 0 (s.seq 3).ctx j).st ≠ .free) ∧ go s [.lease 9 6] = true) ∧
    (∃ s, s = leasing 1 [lent 0 .held 0 0 1] ∧ (s.lease 0 (s.seq 3).ctx 1).st = .free ∧
      (∀ j, j < 1 → (s.lease 0 (s.seq 3).ctx j).st ≠ .free) ∧ go s [.lease 9 6] = true) ∧
    (∃ s, s = leasing 1 [] ∧ (∀ j, j < 32 → names (xr s 6) 0 (s.lease 0 (s.seq 3).ctx j).gen j →
      (s.lease 0 (s.seq 3).ctx j).st = .free) ∧ go s [.lfree 6, .lwait 6, .lstat 9 6] = true ∧ logMode s (s.seq 3).ctx = 0) ∧
    (∀ st, st ∈ [LeaseSt.queued, .waking, .evicted, .held, .parked, .releasing] →
      ∃ s, s = leasing (handle 0 1 (lent 1 st 0 2 3)) [lent 1 st 0 2 3] ∧
        names (xr s 6) 0 (s.lease 0 (s.seq 3).ctx 1).gen 1 ∧ (s.lease 0 (s.seq 3).ctx 1).st = st ∧ st ≠ .free ∧
        go s [.lfree 6, .lwait 6, .lstat 9 6] = true ∧ ((s.die 0).engine 2).queue = []) ∧
    (∃ s, s = (leasing 0 []).modSeq 3 (fun q => { q with sleep := some (.lwait 6) }) ∧ s.pkg.frozen = false ∧
      (s.seq 3).sleep = some (.lwait 6)) :=
  ⟨by unfold badRequest; decide, ⟨_, rfl, by unfold badRequest; decide, by decide, by decide⟩, ⟨_, rfl, by decide, by decide, by decide⟩,
    ⟨_, rfl, by unfold names; decide, by decide, by decide⟩, fun st h => ⟨_, rfl, by unfold names; revert st; decide⟩,
    ⟨_, rfl, by decide, by decide⟩⟩

theorem witness_LeaseMoves :
    (∃ s h, s = leasing 0 [lent 0 .queued 0 0 4] ∧ s.pkg.frozen = false ∧ (s.die 0).head s.now = some h ∧ h.kind = 0 ∧ h.pin = false ∧
      3 ≤ (s.die 0).unitsFree ∧ (s.die 0).leased 0 0 = false) ∧
    (∃ s h, s = leasing 0 [{ lent 0 .queued 1 5 4 with pin := true }] ∧ (s.die 0).head s.now = some h ∧ h.pin = true ∧ h.kind = 1 ∧
      2 ≤ (s.die 0).unitsFree ∧ (s.die 0).leased h.kind h.engine = false) ∧
    (∃ s, s = { leasing 0 [lent 0 .queued 0 0 4, lent 1 .waking 0 3 1] with now := 100003 } ∧
      (s.lease 0 7 0).st = .queued ∧ (s.lease 0 7 0).asked + ((s.lease 0 7 0).raised + 1) * 100000 ≤ s.now ∧
      (s.lease 0 7 0).level < (s.lease 0 7 0).cap ∧ (s.lease 0 7 1).st = .waking ∧ (s.lease 0 7 1).evicting = false ∧
      (s.die 0).ghosts = []) ∧
    (∃ s, s = (leasing 0 []).modDie 0 (fun d => { d with ghosts := [lent 1 .waking 0 3 1] }) ∧
      (s.die 0).ghosts = [lent 1 .waking 0 3 1] ∧ (lent 1 .waking 0 3 1).ctx = 7 ∧ (lent 1 .waking 0 3 1).slot = 1) ∧
    (∃ s, s = { leasing 0 [lent 0 .queued 0 0 4, lent 1 .held 0 0 1, lent 2 .held 0 1 7, lent 3 .held 0 2 7, lent 4 .held 0 3 7]
        with now := 100003 } ∧ (s.die 0).victims s.now = [lent 1 .held 0 0 1]) ∧
    (∃ s, s = leasing 0 [{ lent 0 .held 0 0 1 with evicting := true }, { lent 1 .releasing 0 1 1 with evicting := true }] ∧
      (s.lease 0 7 0).st = .held ∧ (s.lease 0 7 0).evicting = true ∧ logMode s 7 = 0 ∧
      ((s.die 0).engine (s.lease 0 7 0).engine).draining = false ∧ (s.lease 0 7 1).st = .releasing ∧
      (s.lease 0 7 1).evicting = true ∧ ((s.die 0).engine (s.lease 0 7 1).engine).busy = false ∧
      cmdsOn s 0 (s.lease 0 7 1) GCmd.uses = []) ∧
    (∃ s, s = leasing 0 [{ lent 2 .held 1 1 1 with evicting := true }] ∧ (s.lease 0 7 2).st = .held ∧
      (s.lease 0 7 2).evicting = true ∧ logMode s 7 = 0 ∧ (s.lease 0 7 2).kind ≠ 0 ∧
      ∀ m, m ∈ cmdsOn s 0 (s.lease 0 7 2) GCmd.path → m.midBlock = false) ∧
    (∃ s, s = (leasing 0 [lent 1 .held 0 0 1]).modDie 0 (fun d => { d with leaseCap := 2 }) ∧
      (s.die 0).budget < (s.die 0).unitsUsed - (s.die 0).pendingUnits ∧
      ((s.die 0).leases.filter fun l => (l.st == .held || l.st == .parked || l.st == .waking) && !l.evicting) =
        [lent 1 .held 0 0 1]) :=
  ⟨⟨_, _, rfl, by decide, rfl, by decide, by decide, by decide, by decide⟩, ⟨_, _, rfl, rfl, by decide, by decide, by decide, by decide⟩,
    ⟨_, rfl, by decide⟩, ⟨_, rfl, by decide⟩, ⟨_, rfl, by decide⟩, ⟨_, rfl, by decide⟩, ⟨_, rfl, by decide⟩, ⟨_, rfl, by decide⟩⟩

/-- A result that has a property. -/
def okWith {α : Type} (p : α → State → Bool) (r : EStateM.Result Stop State α) : Bool := match r with
  | .ok a s => p a s
  | .error _ _ => false

theorem of_okWith {α : Type} {p : α → State → Prop} {r : EStateM.Result Stop State α} [h : ∀ a s, Decidable (p a s)]
    (h : okWith (fun a s => decide (p a s)) r = true) : ∃ a s, r = .ok a s ∧ p a s := by
  cases r with
  | ok a s => exact ⟨a, s, rfl, of_decide_eq_true h⟩
  | error _ _ => exact absurd h (by simp [okWith])

/-- A tile of bf16 elements in the window, of one row and column. -/
def tile (o : Nat) : TileDesc :=
  { TileDesc.zero with base := 0x10000000000 + o, rows := 1, cols := 1, etype := 9, stride := 2 }

/-- The matrix lease of engine 2 in slot 1, and a state with x6 its handle and two tiles. -/
def eng2 : Lease := lent 1 .held 0 2 3

/-- x6 names eng2, the leases are as given, and tile descriptors 2 and 3 are set. -/
def tiling (ls : List Lease) (b : TileDesc := tile 64) : State :=
  ((run fun q => { regs [(6, handle 0 1 eng2), (7, 5), (8, 0x10000000000)] q with
    td := (q.td.set 2 (tile 0)).set 3 b, vtype := 4 }).modDie 0 fun d => { d with leases := ls })

/-- The tile instructions on x6. -/
def tiles : List Instr := [.mma true 6 2 3 0 0, .mmae true 6 7 2 3 0 0, .accz 6 0 0 0 0, .accin 6 (.unit 8) false .none 0 0 0,
  .drain false 6 (.unit 8) .none 0 0 0]

theorem tiling_ready : tileReady (tiling [eng2]) 6 eng2 ∧ tileReady (tiling [eng2] (tile 65)) 6 eng2 :=
  ⟨⟨by decide, by decide, by decide, by decide, by decide, by decide, by decide⟩,
    ⟨by decide, by decide, by decide, by decide, by decide, by decide, by decide⟩⟩

/-- A dead handle and a RELEASING lease, an operand that does not fit, and operands in order; `tiling_ready` has the
hypotheses that the last two share. -/
theorem witness_TileInstructions :
    (go (tiling []) tiles = true ∧
      ∀ l, liveLease (tiling []) 0 7 (xr (tiling []) 6) = some l →
        (xr (tiling []) 6).toNat / 2 ^ 24 % 4 ≠ 0 ∨ l.kind ≠ 0 ∨ l.st = .releasing ∨ l.st = .evicted ∨ l.evicting = true) ∧
    (go (tiling [{ eng2 with st := .releasing }]) tiles = true ∧
      liveLease (tiling [{ eng2 with st := .releasing }]) 0 7 (xr (tiling [{ eng2 with st := .releasing }]) 6) =
        some { eng2 with st := .releasing }) ∧
    (go (tiling [{ eng2 with evicting := true }]) tiles = true ∧
      liveLease (tiling [{ eng2 with evicting := true }]) 0 7 (xr (tiling [{ eng2 with evicting := true }]) 6) =
        some { eng2 with evicting := true }) ∧
    (mmaFits (tile 0) { tile 64 with rows := 5 } 0 0 = false ∧ go (tiling [eng2]) tiles = true) ∧
    (mmaFits (tile 0) (tile 64) 0 0 = true ∧ (tile 0).base % (tile 0).align = 0 ∧ (tile 0).stride % (tile 0).align = 0 ∧
      (tile 64).base % (tile 64).align = 0 ∧ (tile 64).stride % (tile 64).align = 0 ∧
      ((tiling [eng2]).seq 3).td[2] = tile 0 ∧ ((tiling [eng2]).seq 3).td[3] = tile 64 ∧
      (∃ pages s, (tilePages 3 0 7 (tile 0) (tile 64)).run (tiling [eng2]) = .ok pages s ∧ s = tiling [eng2]) ∧
      (vform (.accin 6 (.unit 8) false .none 0 0 0)).isSome = true ∧
      (vform (.drain false 6 (.unit 8) .none 0 0 0)).isSome = true) :=
  ⟨⟨by decide, fun l h => absurd h (by rw [show liveLease (tiling []) 0 7 (xr (tiling []) 6) = none from by decide]; simp)⟩,
    ⟨by decide, by decide⟩, ⟨by decide, by decide⟩, ⟨by decide, by decide⟩,
    by decide, by decide, by decide, by decide, by decide, by decide, by decide,
    of_okWith (by decide), by decide, by decide⟩

/-- An entry of engine 2's queue. -/
def cmd (k : MKind) (pages : List (Nat × Nat) := []) : MCmd :=
  { sq := 3, runId := 4, ctx := 7, slot := 1, isn := 5, kind := k, pages := pages, issued := true, items := [], vtype := 0,
    cgkey := 0, cgdraw := 0, pos := 0, badSeen := false, flags := 0 }

/-- Engine 2 with one accumulator set and m at the head of its queue. -/
def engaged (m : MCmd) : State := (tiling [eng2]).modDie 0 fun d => d.setEngine ⟨2, [(3 * 128 + 4, 7)], [m], none⟩

theorem engaged_on (m : MCmd) : engineOn (engaged m) 0 2 eng2 ∧ ((engaged m).die 0).engine 2 = ⟨2, [(3 * 128 + 4, 7)], [m], none⟩ :=
  ⟨⟨by decide, rfl, rfl, rfl, rfl, rfl, rfl⟩, rfl⟩

/-- A multiplication of one element whose pages are known. -/
def mul1 : MCmd := cmd (.mma (tile 0) (tile 64) true 1 5 none) [(0x10000000000, cistBase)]

/-- The answer of an operation, when one value and one state are all it can be. -/
theorem eq_of {α : Type} [DecidableEq α] {r : EStateM.Result Stop State α} {v : α} {s : State}
    (h : okWith (fun a t => decide (a = v ∧ t = s)) r = true) : r = .ok v s := by
  obtain ⟨a, t, hr, rfl, rfl⟩ := of_okWith (p := fun a t => a = v ∧ t = s) h
  exact hr

/-- An entry to deliver at 0x4000. -/
def item : AccItem := { elem := 0, row := 3, col := 4, val := 0, addr := 0x4000, inWin := false }

theorem witness_EngineSteps :
    (∃ w v, mul1.work = some w ∧ mmaFits w.a w.b w.arow w.acol = true ∧ mul1.pos < w.steps ∧
      ((engaged mul1).ctx mul1.ctx).limit = 0 ∧
      (∀ i k, i < w.a.rows → k < w.a.cols → (fetchElem w w.a i k).run (engaged mul1) = .ok ⟨v, 0, none⟩ (engaged mul1)) ∧
      (∀ k j, k < w.b.rows → j < w.b.cols → (fetchElem w w.b k j).run (engaged mul1) = .ok ⟨v, 0, none⟩ (engaged mul1))) ∧
    (∃ w, mul1.work = some w ∧ (tile 0).code = 9 ∧ pageKey w.pages ((tile 0).base + 0 * (tile 0).stride + 2 * 0) = cistBase ∧
      (engaged mul1).wayTo w.die cistBase = .clear ∧ sound (engaged mul1) cistBase 2 ∧ (engaged mul1).marks = [] ∧
      (engaged mul1).full cistBase = true ∧ (engaged mul1).full (cistBase + 1) = true) ∧
    (∃ s m, m = { cmd (.drain true 3 4 2) with items := [item], vtype := 4 } ∧ s = engaged m ∧ m.issued = true ∧ eng2.ending = false ∧
      (vtTy m.vtype).clsI = true ∧ item.inWin = false ∧ item.row < 512 ∧ item.col < 128 ∧ sound s item.addr (vtTy m.vtype).size ∧
      s.wayTo 0 item.addr = .clear ∧ s.seqs.all (fun q => q.2.grp.st == .none) = true) :=
  ⟨⟨_, Fmt.bf16.decode 0, rfl, by decide, by decide, by decide,
      fun i k hi hk => by
        obtain rfl : i = 0 := Nat.lt_one_iff.mp hi
        obtain rfl : k = 0 := Nat.lt_one_iff.mp hk
        exact eq_of (by decide),
      fun i k hi hk => by
        obtain rfl : i = 0 := Nat.lt_one_iff.mp hi
        obtain rfl : k = 0 := Nat.lt_one_iff.mp hk
        exact eq_of (by decide)⟩,
    ⟨_, rfl, by decide, by decide, by decide, by unfold sound; decide, by decide, by decide, by decide⟩,
    ⟨_, _, rfl, rfl, by decide, by decide, by decide, by decide, by decide, by decide, by unfold sound; decide, by decide, by decide⟩⟩

theorem witness_EngineMoves :
    (((engaged mul1).ctx mul1.ctx).limit = 0 ∧ ∃ w, mul1.work = some w ∧ ∃ o s,
      (tileStep w (((engaged mul1).die 0).engine 2) mul1.pos).run (engaged mul1) = .ok o s ∧ (s = engaged mul1 ∧
        o.bad = none ∧ o.eng.idx = 2 ∧ o.eng.queue = (((engaged mul1).die 0).engine 2).queue ∧ o.eng.task = none)) ∧
    (cmd (.accz 3 4 2 2)).kind = .accz 3 4 2 2 ∧
    (∃ m it, m = { cmd (.accin 3 4 2) with items := [it] } ∧ it = { elem := 0, row := 3, col := 4, val := 77, addr := 0, inWin := false } ∧
      m.kind = .accin 3 4 2 ∧ m.issued = true ∧ m.items = [it] ∧ it.col < 128) ∧
    ((cmd (.accin 3 4 2)).items = [] ∧ (cmd (.drain true 3 4 2)).kind = .drain true 3 4 2 ∧
      (cmd (.drain true 3 4 2)).items = [] ∧ (cmd (.drain true 3 4 2)).issued = true ∧ eng2.ending = false) ∧
    ((⟨2, [], [cmd (.accz 3 4 2 2)], none⟩ : MEngine).draining = false) :=
  ⟨⟨by decide, _, rfl, of_okWith (by decide)⟩,
    by decide, ⟨_, _, rfl, rfl, by decide, by decide, by decide, by decide⟩, by decide, by decide⟩

/-- A task record: gate 0x4000 compared by `cmp` with v. -/
def task (cmp v : Nat) (ready : Bool) : Task := ⟨3, 4, 7, 0, 9,
  [0x00010130, 0x4100, 0x4140, 0x4180, 9, 0, 0, 0, BitVec.ofNat 64 (cmp * 2 ^ 48 + 0x4000), BitVec.ofNat 64 v, 0, 0, 0, 0, 0, 0],
  0, 0, ready⟩

/-- x6 the address of a task record at 0x8000, whose word 4 is given. -/
def tasking (w4 : Nat) : State := run (regs [(6, 0x8000)]) id
  [(0x8000, 0x00010030), (0x8008, 0x4100), (0x8010, 0x4140), (0x8018, 0x4180), (0x8020, w4)]

theorem tasking_ok (w4 : Nat) : quiet (tasking w4) ∧ mapped (tasking w4) 3 .load 0x8000 (atMain 0x8000) ∧
    mapped (tasking w4) 3 .load 0x8040 (atMain 0x8040) ∧
    ∀ k, k < 64 → sound (tasking w4) ((atMain 0x8000).key + k) 1 ∧ sound (tasking w4) ((atMain 0x8040).key + k) 1 :=
  ⟨quiet_of ⟨rfl, rfl⟩, mapped_of pMain ⟨by decide, rfl, fun h => absurd h (by decide), rfl, rfl, by decide, by decide, by decide⟩,
    mapped_of pMain ⟨by decide, rfl, fun h => absurd h (by decide), rfl, rfl, by decide, by decide, by decide⟩,
    fun k hk => ⟨⟨by revert k; decide, by revert k; decide, by revert k; decide, by revert k; decide, rfl⟩,
      ⟨by revert k; decide, by revert k; decide, by revert k; decide, by revert k; decide, rfl⟩⟩⟩

/-- The words of the record at 0x8000. -/
def recordOf (s : State) (k : Nat) : Word :=
  if k < 16 then BitVec.ofNat 64 (if k < 8 then s.mem.num (0x8000 + 8 * k) 8 else s.mem.num (0x8040 + 8 * (k - 8)) 8) else 0

/-- Die 0 with one task, and with a task on engine 2 that has done its steps. -/
def oneTask (t : Task) : State := (tiling [eng2]).modDie 0 fun d => { d with tasks := [t] }

/-- Engine 2 runs a task that has been checked: its completion word, its next step, and the pages of its operands. -/
def tasked (cdone : Word) (pos : Nat) (pages : List (Nat × Nat)) : State := (tiling [eng2]).modDie 0 fun d => d.setEngine { d.engine 2 with
  task := some ⟨{ task 0 0 true with words := (task 0 0 true).words.set 5 cdone }, 1, tile 0, tile 64, true, pages, [], pos, false, 0⟩ }

/-- A well-formed and a malformed record (`tasking_ok` has the hypotheses that they share), the gate's comparisons, a
dispatch, and the end of a run. -/
theorem witness_TileTasks :
    (taskBad (recordOf (tasking 9)) = false ∧ ((tasking 9).die 0).tasks.length < 256 ∧ go (tasking 9) [.tsub 6] = true) ∧
    (taskBad (recordOf (tasking 0x109)) = true ∧ go (tasking 0x109) [.tsub 6] = true) ∧
    (∀ (r : Bool) (c : Fin 6), ∃ s t, t = task c.val 0 r ∧ s = oneTask t ∧ s.pkg.frozen = false ∧ (s.die 0).tasks[0]? = some t ∧
      (s.seq 3).ctx = t.ctx ∧ s.runs t.ctx = true ∧ (t.w 0).toNat / 256 % 8 = 1 ∧ t.ready = r ∧
      (t.w 8).toNat / 2 ^ 48 % 8 = c.val ∧ ((t.w 8).toNat % 2 ^ 48) % 8 = 0 ∧
      mapped s 3 .load ((t.w 8).toNat % 2 ^ 48) (atMain 0x4000) ∧ sound s (atMain 0x4000).key 8 ∧
      s.mem.num (atMain 0x4000).key 8 = 0 ∧ t.w 9 = 0) ∧
    (∃ s l, s = oneTask (task 0 0 true) ∧ (s.die 0).tasks = [task 0 0 true] ∧ s.runs 7 = true ∧ freeEngine s 0 7 = some l) ∧
    (∃ s r, s = (tiling [eng2]).modDie 0 (fun d => d.setEngine { d.engine 2 with
        task := some ⟨task 0 0 true, 1, tile 0, tile 64, true, [], [], 5, false, 0⟩ }) ∧ engineOn s 0 2 eng2 ∧
      ((s.die 0).engine 2).draining = false ∧ ((s.die 0).engine 2).task = some r ∧ r.checked = true ∧
      r.work.steps < r.pos ∧ (r.task.w 5).toNat % 2 ^ 48 = 0) ∧
    (∃ s r, s = tasked 0 0 [(0x10000000000, cistBase)] ∧ engineOn s 0 2 eng2 ∧ ((s.die 0).engine 2).draining = false ∧
      ((s.die 0).engine 2).task = some r ∧ r.checked = true ∧ r.pos < r.work.steps ∧ (s.ctx r.task.ctx).limit = 0 ∧
      ∃ o u, (tileStep r.work ((s.die 0).engine 2) r.pos).run s = .ok o u ∧ (u = s ∧ o.bad = none ∧ o.eng.idx = 2)) ∧
    (∃ s r, s = tasked 0x4000 5 [] ∧ engineOn s 0 2 eng2 ∧ ((s.die 0).engine 2).draining = false ∧
      ((s.die 0).engine 2).task = some r ∧ r.checked = true ∧ r.work.steps < r.pos ∧
      s.seqs.all (fun q => q.2.grp.st == .none) = true ∧ (r.task.w 5).toNat % 2 ^ 48 = 0x4000 ∧
      mappedAt s 0 (s.ctx r.task.ctx).cptbase .atomic 0x4000 (atMain 0x4000) ∧ (atMain 0x4000).tier = 1 ∧
      sound s (atMain 0x4000).key 8) := by
  refine ⟨by decide, by decide, fun r c => ⟨_, _, rfl, rfl, rfl, rfl, rfl, rfl, by revert c r; decide, rfl,
    by revert c r; decide, by revert c r; decide, ?_, by unfold sound; revert c r; decide, by revert c r; decide, by revert c r; decide⟩,
    ⟨_, _, rfl, rfl, by decide, rfl⟩,
    ⟨_, _, rfl, ⟨by decide, rfl, rfl, rfl, rfl, rfl, rfl⟩, by decide, rfl, by decide, by decide, by decide⟩,
    ⟨_, _, rfl, ⟨by decide, rfl, rfl, rfl, rfl, rfl, rfl⟩, by decide, rfl, by decide, by decide, by decide, of_okWith (by decide)⟩,
    ⟨_, _, rfl, ⟨by decide, rfl, rfl, rfl, rfl, rfl, rfl⟩, by decide, rfl, by decide, by decide, by decide, by decide,
      mapped_of (n := 3) pMain (by decide), by decide, by unfold sound; decide⟩⟩
  exact mapped_of pMain ⟨by revert c r; decide, rfl, fun h => absurd h (by decide), by revert c r; decide, by revert c r; decide, by decide, by decide,
    by revert c r; decide⟩

/-- Pump operands: the landing word in x6, the phase word in xp. -/
def pump (xp : Reg) : PumpArgs := { tag := 0x1234, sz := 3, xl := 6, xp := xp, pol := false, mask := .none }

/-- About to issue a pump instruction over five elements, the row in x10. -/
def pumping (row : Word) (vt : Word := 5) : State := run fun q =>
  { regs [(6, 0x10000000040), (7, 0x4008), (8, 0x4000), (9, 0x5000), (10, row)] q with vl := 5, vtype := vt }

/-- The five pump instructions, with or without a phase word. -/
def pumps (xp : Reg) : List Instr := [.pcopy (pump xp) (.unit 8) (.unit 9), .pfill (pump xp) (.unit 8) (.scal 9),
  .prdc (pump xp) (.unit 8) (.unit 9), .pgath (pump xp) 10 (.unit 8) (.unit 9), .pscat (pump xp) 10 (.unit 8) (.unit 9)]

theorem witness_PumpStarts : ∃ s, s = pumping 0x4000000040 ∧ go s (pumps 0) = true ∧ go s (pumps 7) = true ∧
    (∀ j, j < 4 → ((s.die 0).pumps[j]?).isSome = true) ∧ quiet s ∧ (xr s 6).toNat % 8 = 0 ∧
    mapped s 3 .store (xr s 6).toNat (atWin 64) ∧ (atWin 64).tier = 0 ∧ (s.seq 3).inWin (atWin 64).key = true ∧
    clear s (atWin 64) 8 ∧ (7 : Reg) ≠ 0 ∧ (xr s 7).toNat % 8 = 0 ∧ mapped s 3 .store (xr s 7).toNat (atMain 0x4008) ∧
    (atMain 0x4008).tier ≤ 2 ∧ (s.copies (dieOf 3) (pumpOf 3)).length < 16 ∧
    s.seqs.all (fun q => q.2.grp.st == .none) = true ∧
    ¬((vtTy (s.seq 3).vtype).clsI || (vtTy (s.seq 3).vtype).clsF) = false ∧
    ¬(((xr s 10).toNat % 2 ^ 32) % 8 ≠ 0 ∨ (xr s 10).toNat % 2 ^ 32 < 8 ∨ 65536 < (xr s 10).toNat % 2 ^ 32 ∨
      (xr s 10).toNat / 2 ^ 32 % 8 ≠ 0) :=
  ⟨_, rfl, by decide, by decide, by decide, quiet_of (by decide), by decide, mapped_of pWin (by decide), by decide, by decide,
    clear_of (by decide), by decide, by decide, mapped_of pMain (by decide), by decide, by decide, by decide, by decide, by decide⟩

/-- A copy or fill of nine elements whose elements 1 and 3 have reached the pump. -/
def copyOf (kind : PKind) : Copy := { pumpCopy { (pumping 0).seq 3 with vl := 9 } 3 kind (pump 0) none (.unit 8)
    (if kind == .copy then .unit 9 else .scal 9) (cistBase + 0x40) 0 with ready := [⟨1, 0⟩, ⟨3, 0⟩] }

/-- The pump with that copy. -/
def moving (kind : PKind) : State := (pumping 0).modCopies 0 0 fun _ => [copyOf kind]

/-- A refused type, the bad rows at their ends, and elements at the pump. -/
theorem witness_PumpInstructions :
    (((vtTy ((pumping 0 14).seq 3).vtype).clsI || (vtTy ((pumping 0 14).seq 3).vtype).clsF) = false ∧
      go (pumping 0 14) [.prdc (pump 0) (.unit 8) (.unit 9)] = true) ∧
    (∀ k : Fin 4, ∃ r, r = [(0x4000000007 : Word), 0, 0x4000010008, 0x300000040][k] ∧ ((r.toNat % 2 ^ 32) % 8 ≠ 0 ∨ r.toNat % 2 ^ 32 < 8 ∨
      65536 < r.toNat % 2 ^ 32 ∨ r.toNat / 2 ^ 32 % 8 ≠ 0) ∧
      go (pumping r) [.pgath (pump 0) 10 (.unit 8) (.unit 9), .pscat (pump 0) 10 (.unit 8) (.unit 9)] = true) ∧
    ∀ k, k ∈ [PKind.copy, .fill] → ∃ s c e, s = moving k ∧ c = copyOf k ∧ e = (⟨3, 0⟩ : PumpElem) ∧ s.pkg.frozen = false ∧ (s.copies 0 0)[0]? = some c ∧
      (s.seq 3).ctx = c.ctx ∧ c.ready.find? (fun x => x.idx == e.idx) = some e ∧
      (s.copies 0 0).find? (fun x => x.id == c.id) = some c ∧ c.kind = (if k = .copy then 0 else 4) ∧ c.size = 8 ∧ c.failed = none ∧ c.lowerClash e = false ∧ (s.ctx c.ctx).limit = 0 ∧
      ((BitVec.ofNat 64 c.dstBase) + BitVec.ofNat 64 e.idx * BitVec.ofNat 64 c.dstStride).toNat = 0x4018 ∧
      mapped s 3 .store 0x4018 (atMain 0x4018) ∧ (atMain 0x4018).tier = 1 ∧ sound s (atMain 0x4018).key 8 ∧ c.landed ≠ e.idx ∧
      (k = .copy → ((BitVec.ofNat 64 c.srcBase) + BitVec.ofNat 64 e.idx * BitVec.ofNat 64 c.srcStride).toNat = 0x5018 ∧
        mapped s 3 .load 0x5018 (atMain 0x5018) ∧ (atMain 0x5018).tier = 1 ∧ sound s (atMain 0x5018).key 8) ∧
      s.seqs.all (fun q => q.2.grp.st == .none) = true ∧ c.landed < c.vl ∧ c.abandoned = false ∧
      ∀ j, j ∈ c.done → j ≠ c.landed := by
  refine ⟨by decide, fun k => ⟨_, rfl, by revert k; decide, by revert k; decide⟩, fun k hk => ?_⟩
  rcases List.mem_cons.mp hk with rfl | h
  · exact ⟨_, _, _, rfl, rfl, rfl, by decide, by decide, by decide, by decide, by decide, by decide, by decide, by decide, by decide,
      by decide, by decide, mapped_of pMain (by decide), by decide, by unfold sound; decide, by decide,
      fun _ => ⟨by decide, mapped_of pMain (by decide), by decide, by unfold sound; decide⟩, by decide, by decide, by decide, by decide⟩
  · cases List.mem_singleton.mp h
    exact ⟨_, _, _, rfl, rfl, rfl, by decide, by decide, by decide, by decide, by decide, by decide, by decide, by decide, by decide,
      by decide, by decide, mapped_of pMain (by decide), by decide, by unfold sound; decide, by decide,
      fun h => absurd h (by decide), by decide, by decide, by decide, by decide⟩

/-- A command record at 0x10000000080, for an attention lease in slot 2 and eng2, of a number of pages and queries. -/
def grouping (g : Group) (x7 x8 : Word) (w : Nat := 3) (f : Seq → Seq := id) : State :=
  (run (fun q => f { regs [(6, 0x10000000080), (7, x7), (8, x8)] q with grp := g }) id
    ([(cistBase + 0x400, w)] ++ (([(handle 0 2 (lent 2 .held 1 1 1)).toNat, (handle 0 1 eng2).toNat, 0x10000001000, 0x10000002000,
      3 * 2 ^ 48 + 0x10000003000, 0, 0, 15 * 2 ^ 48 + 20 * 2 ^ 32 + 0x3F800000, 32 * 2 ^ 32 + 32, 9 * 2 ^ 16 + 9].zipIdx).map
        fun p => (cistBase + 0x80 + 8 * p.2, p.1)))).modDie 0 fun d => { d with leases := [eng2, lent 2 .held 1 1 1] }

/-- An open group. -/
def opened : Group := { Group.none with st := .open_, area := cistBase + 0x8000, nlines := 5 }

/-- The instructions of an open group. -/
def grouped : List Instr := [.gcommit 9, .gabort, .attn .auto 6 0 0, .kvw 6 7 8, .kvinv 6 7 8]

theorem witness_GroupBegin :
    ((grouping Group.none 0 0).seq 3).grp.st = .none ∧ go (grouping Group.none 0 0) grouped = true ∧
    ((grouping opened 0 0).seq 3).grp.st ≠ .none ∧ go (grouping opened 0 0) [.gbegin 7] = true ∧
    (∃ s, s = grouping Group.none 0x10000000401 0 ∧ (xr s 7).toNat % 64 ≠ 0 ∧ go s [.gbegin 7] = true) ∧
    (∃ s, s = grouping Group.none 0x10000400000 0 ∧ (xr s 7).toNat % 64 = 0 ∧
      ¬((s.seq 3).winVa ≤ (xr s 7).toNat ∧ (xr s 7).toNat < (s.seq 3).winVa + 0x200000 * (s.seq 3).groups.length) ∧
      go s [.gbegin 7] = true) ∧
    (∀ k : Fin 4, ∃ s w, w = [0, 1, 3, 32768][k] ∧ s = grouping Group.none 0x10000000400 0 w ∧ (xr s 7).toNat % 64 = 0 ∧
      (s.seq 3).winVa ≤ (xr s 7).toNat ∧ (xr s 7).toNat < (s.seq 3).winVa + 0x200000 * (s.seq 3).groups.length ∧ quiet s ∧
      (s.seq 3).versions = [] ∧ s.marks = [] ∧ s.soft = [] ∧ ((s.seq 3).winPa + ((xr s 7).toNat - (s.seq 3).winVa)) % 64 = 0 ∧
      s.full ((s.seq 3).winPa + ((xr s 7).toNat - (s.seq 3).winVa)) = true ∧ (s.seq 3).stopping = [] ∧ (s.seq 3).kept = [] ∧
      s.landings = [] ∧ inCist ((s.seq 3).winPa + ((xr s 7).toNat - (s.seq 3).winVa)) = true ∧
      inCist ((s.seq 3).winPa + ((xr s 7).toNat - (s.seq 3).winVa) + 7) = true ∧
      s.mem.num ((s.seq 3).winPa + ((xr s 7).toNat - (s.seq 3).winVa)) 8 = w ∧
      (w < 32768 → (xr s 7).toNat + 64 * w < (s.seq 3).winVa + 0x200000 * (s.seq 3).groups.length) ∧ go s [.gbegin 7] = true) :=
  ⟨by decide, by decide, by decide, by decide, ⟨_, rfl, by decide, by decide⟩, ⟨_, rfl, by decide, by decide, by decide⟩,
    fun k => ⟨_, _, rfl, rfl, by revert k; decide, by revert k; decide, by revert k; decide, quiet_of (by revert k; decide),
      by revert k; decide, by revert k; decide, by revert k; decide, by revert k; decide, by revert k; decide,
      by revert k; decide, by revert k; decide, by revert k; decide, by revert k; decide, by revert k; decide, by revert k; decide,
      by revert k; decide, by revert k; decide⟩⟩

/-- Commands that fit and that do not, on positions and query blocks. -/
theorem witness_GroupCommands :
    (∃ s, s = grouping opened 0x10000000400 182 ∧ (s.seq 3).grp.st ≠ .none ∧ (s.seq 3).grp.st ≠ .failed ∧ go s grouped = true ∧
      ∃ m t, (commandRecord .kvw 6 3).run s = .ok m t ∧ (t = s ∧ (xr s 8).toNat + (s.seq 3).vl ≤ 64 * m.npages ∧
        (xr s 7).toNat % 64 = 0 ∧ (m.nq + 15) / 16 < (1 : BitVec 16).toNat + (0 : BitVec 16).toNat + 2 ∧
        (0 : BitVec 16).toNat + (1 : BitVec 16).toNat + 1 ≤ (m.nq + 15) / 16)) ∧
    (∃ s, s = grouping opened 0x10000000401 183 ∧ go s grouped = true ∧ (xr s 7).toNat % 64 ≠ 0 ∧
      ∃ m t, (commandRecord .kvw 6 3).run s = .ok m t ∧ (t = s ∧ 64 * m.npages < (xr s 8).toNat + (s.seq 3).vl)) ∧
    (∃ s m, s = grouping opened 0 0 ∧ (commandRecord .kvw 6 3).run s = .ok m s ∧ leaseOf s 1 (m.w 0) ∧ leaseOf s 0 (m.w 1)) :=
  ⟨⟨_, rfl, by decide, by decide, by decide, of_okWith (by decide)⟩, ⟨_, rfl, by decide, by decide, of_okWith (by decide)⟩,
    ⟨_, _, rfl, rfl, ⟨_, rfl, by decide, by decide⟩, ⟨_, rfl, by decide, by decide⟩⟩⟩

/-- A shadow line with its bytes. -/
def shade : Shadow := ⟨(cistBase + 0x9000) / 64, (List.range 64).map fun k => BitVec.ofNat 8 (k + 1), [0], false⟩

/-- Only one sequencer has a group. -/
theorem alone_of (g : Group) (x7 x8 : Word) : ∀ p, p ∈ (grouping g x7 x8).seqs → p.1 ≠ 3 → p.2.grp.st = .none := fun p hp h => by
  cases List.mem_singleton.mp hp
  exact absurd rfl h

/-- An instruction in flight on the sequencer of a group, which sleeps or not. -/
def groupWork (q : Seq) : Seq := { q with inflight := [q.entryOf (.vadd abd) { op := .wait } none] }

/-- A commit at once, with a conflict, after a failure, that waits, and that is awaited. -/
theorem witness_GroupCommits :
    (∃ s, s = grouping { opened with shadows := [shade] } 0 0 ∧ (s.seq 3).grp.st = .open_ ∧ (s.seq 3).grp.cmds = [] ∧ quiet s ∧
      s.marks = [] ∧ (s.seq 3).grp.hidden = [] ∧ (s.seq 3).grp.dropped = false ∧ (s.seq 3).grp.shadows = [shade] ∧
      shade.conflict = false ∧ shade.data.length = 64 ∧ go s [.gcommit 9, .gabort] = true) ∧
    (∃ s, s = grouping { opened with shadows := [{ shade with conflict := true }] } 0 0 ∧
      (s.seq 3).grp.shadows.any (·.conflict) = true ∧ go s [.gcommit 9] = true) ∧
    (∃ s, s = grouping { opened with st := .failed, fault := ⟨3, 0, 0⟩, faultIsn := 12 } 0 0 ∧ (s.seq 3).grp.st = .failed ∧
      go s [.gcommit 9] = true) ∧
    (∃ s, s = grouping opened 0 0 3 groupWork ∧ (s.seq 3).grp.st = .open_ ∧ (s.seq 3).inflight ≠ [] ∧ go s [.gcommit 9] = true) ∧
    (∃ s, s = grouping opened 0 0 3 (fun q => { q with sleep := some (.gcommit 9) }) ∧ s.pkg.frozen = false ∧
      (s.seq 3).sleep = some (.gcommit 9) ∧ (s.seq 3).grp.st = .open_ ∧ (s.seq 3).grp.cmds = [] ∧ quiet s ∧
      (s.seq 3).grp.shadows = [] ∧ (s.seq 3).grp.hidden = [] ∧ (s.seq 3).grp.dropped = false) :=
  ⟨⟨_, rfl, by decide, by decide, quiet_of (by decide), by decide, by decide, by decide, by decide, by decide, by decide, by decide⟩,
    ⟨_, rfl, by decide, by decide⟩, ⟨_, rfl, by decide, by decide⟩, ⟨_, rfl, by decide, by decide, by decide⟩,
    ⟨_, rfl, by decide, by decide, by decide, by decide, quiet_of (by decide), by decide, by decide, by decide⟩⟩

/-- A command of the group, of one query and one page over bf16 pages at offset 0x3000. -/
def gcmd (kind : GCmdKind) (hint : AttnHint) (began mat : Bool) : GCmd :=
  { sq := 3, runId := 4, ctx := 7, chose := false, isn := 70, pc := 0x1FF0, kind := kind, hint := hint,
    words := [handle 0 2 (lent 2 .held 1 1 1), handle 0 1 eng2, 0x10000001000, 0x10000002000,
      BitVec.ofNat 64 (2 ^ 48 + 0x10000003000), 0, 0, BitVec.ofNat 64 (15 * 2 ^ 48 + 2 ^ 32 + 0x3F800000),
      BitVec.ofNat 64 (32 * 2 ^ 32 + 32), BitVec.ofNat 64 (9 * 2 ^ 16 + 9), 0, 0, 0, 0, 0, 0],
    qb0 := 0, nqb := 1, pos := 0, src := 0, vl := 10, began := began, qb := 0, page := 0, rows := [], onMatrix := mat,
    badSeen := false, flags := 0, displaced := [] }

/-- Its state, with or without leases. -/
def commands (m : GCmd) : State := grouping { opened with cmds := [m] } 0 0

/-- One page that has one position. -/
def onePage : State :=
  let s := commands (gcmd .attn .me true true)
  { s with mem := (s.mem.write (cistBase + 0x3000) (bytesOf 8 (2 ^ 56 + 0x10000004000))).write (cistBase + 0x3008) (bytesOf 8 1) }

/-- An issued attention command is work on its leases. -/
theorem witness_LeaseWork : cmdsOn (commands (gcmd .attn .ae false false)) 0 (lent 2 .held 1 1 1) GCmd.uses ≠ [] := by decide

theorem witness_GroupMovesOfCommands :
    (∀ m, m.ctx = 7 → commanding (commands m) 3 m []) ∧
    ((gcmd .kvw .ae false false).began = false ∧ (gcmd .kvw .ae false false).kind ≠ .attn) ∧
    (∀ h, (gcmd .attn h false false).kind = .attn ∧ (gcmd .attn h false false).began = false ∧ (gcmd .attn h false false).ctx = 7) ∧
    (∃ s, s = (commands (gcmd .attn .me true true)).modDie 0 (fun d => { d with leases := [] }) ∧
      commanding s 3 (gcmd .attn .me true true) [] ∧ liveLease s 0 7 ((gcmd .attn .me true true).w 1) = none) ∧
    ((gcmd .attn .me true true).page < (gcmd .attn .me true true).npages ∧
      liveLease (commands (gcmd .attn .me true true)) 0 7 ((gcmd .attn .me true true).w 1) = some eng2 ∧ eng2.st = .held ∧ eng2.evicting = false ∧
      commanding onePage 3 (gcmd .attn .me true true) [] ∧ ∃ a u, (attnPage 3 (gcmd .attn .me true true) (((gcmd .attn .me true true).rowsOf 0).map
        (fun _ => AttnRow.start (gcmd .attn .me true true).dim))).run onePage = .ok a u ∧
          (a.page = 1 ∨ a.began = false)) :=
  ⟨fun m hm => ⟨rfl, rfl, by rw [hm]; rfl, rfl, rfl⟩, by decide, fun h => by cases h <;> decide, ⟨_, rfl, ⟨rfl, rfl, rfl, rfl, rfl⟩, by decide⟩,
    by decide, by decide, by decide, by decide, ⟨rfl, rfl, rfl, rfl, rfl⟩, of_okWith (by decide +kernel)⟩

/-- Kernel 1 of context 7 on sequencers 3 and 5. -/
def kern : Kernel :=
  { id := 1, queue := 2, st := .running, ctx := 7, code := 0x4000, entry := 64, vtype := 8, argRegs := [4, 5, 9],
    args := [0x44], range := none, layout := 0, cist := 0, desc := [0, 0, 0x6000, 0x8000, 0, 100, 0x250, 0], digest := none,
    keyIndex := 0xFF, dies := [0], seqs := [3, 5], cells := [] }

/-- That kernel, x6 an address and words of memory. -/
def threading (k : Kernel) (x6 : Word) (m : List (Nat × Nat)) (f : Seq → Seq := id) : State :=
  { run (fun q => f (regs [(6, x6)] q)) id m with kernels := [k] }

/-- An image whose words are given, at 0x4000. -/
def imaged (a b c d : Nat) : State := threading kern 0x4000 [(0x4000, a), (0x4008, b), (0x4010, c), (0x4018, d)]

/-- No window holds an address of the first 64 pages. -/
theorem unread_main {s : State} {k : Nat} (h : s.seqs.all (fun p => decide (0x40000 ≤ p.2.winPa)) = true) (hk : k < 0x40000) :
    unread s k = true := by
  have h0 : s.winOf k = none := List.find?_eq_none.mpr fun p hp hc => by
    have h1 := of_decide_eq_true (List.all_eq_true.mp h p hp)
    simp only [Bool.and_eq_true, decide_eq_true_eq] at hc
    omega
  simp [unread, h0]

theorem words_ok (a b c d : Nat) : quiet (imaged a b c d) ∧ mapped (imaged a b c d) 3 .load 0x4000 (atMain 0x4000) ∧
    mapped (imaged a b c d) 3 .atomic 0x4000 (atMain 0x4000) ∧ readable (imaged a b c d) (atMain 0x4000) 4 :=
  ⟨quiet_of ⟨rfl, rfl⟩, mapped_of pMain ⟨by decide, rfl, fun h => absurd h (by decide), rfl, rfl, by decide, by decide, by decide⟩,
    mapped_of pMain ⟨by decide, rfl, fun h => absurd h (by decide), rfl, rfl, by decide, by decide, by decide⟩,
    by decide, fun j hj => ⟨clear_of ⟨by revert j; decide, by revert j; decide, by revert j; decide, rfl, rfl, rfl, rfl, rfl, unread_main rfl (show 0x4000 + 8 * j < 0x40000 by omega)⟩,
      full_of (.inl (by revert j; decide))⟩⟩

/-- The words of an image. -/
def wordsOf4 (a b c d : Nat) (k : Nat) : Nat := ([a, b, c, d][k]?).getD 0

/-- SPAWN's images; `words_ok` has the hypotheses that they share. -/
theorem witness_Spawn :
    badImage (wordsOf4 0 5 0x60 0) ∧ badImage (wordsOf4 0x5001 5 0x60 0) ∧ badImage (wordsOf4 (2 ^ 48) 5 0x60 0) ∧
    badImage (wordsOf4 0x5000 5 (2 ^ 48) 0) ∧ badImage (wordsOf4 0x5000 5 0x68 0) ∧ badImage (wordsOf4 0x5000 5 0x60 0x10) ∧
    badImage (wordsOf4 0x5000 5 0x60 0x100) ∧
    (∃ s, s = imaged 0x5000 5 0x60 0x80 ∧ ¬badImage (wordAt s 0x4000) ∧ imageTo s (wordAt s 0x4000) = 0 ∧
      (s.seq 3).kernel = some 1 ∧ s.kernel? 1 = some kern ∧ 3 ∈ kern.seqs ∧ (s.die 0).recs.length + 16 ≤ 262144 ∧
      go s [.spawn 6] = true) ∧
    (∃ s, s = imaged 0x5000 5 0x60 0x85 ∧ ¬badImage (wordAt s 0x4000) ∧ imageTo s (wordAt s 0x4000) = 5 ∧
      s.kernel? 1 = some kern ∧ (∀ m, m ∈ kern.seqs → m / 16 ≠ 5) ∧ go s [.spawn 6] = true) :=
  ⟨by unfold badImage; decide, by unfold badImage; decide, by unfold badImage; decide, by unfold badImage; decide,
    by unfold badImage; decide, by unfold badImage; decide, by unfold badImage; decide,
    ⟨_, rfl, by unfold badImage; decide, by decide, by decide, by decide, by decide, by decide, by decide⟩,
    ⟨_, rfl, by unfold badImage; decide, by decide, by decide, by decide, by decide⟩⟩

/-- JOIN with and without a parent, at each count. -/
theorem witness_Join :
    (∀ k : Fin 4, ∃ s old, old = [0, 1, 2, 2 ^ 63][k] ∧ s = imaged old 0 0 0 ∧ wordAt s 0x4000 0 = old ∧
      wordAt s 0x4000 1 < 2 ^ 63 ∧ go s [.join 6] = true) ∧
    (∃ s, s = imaged 1 (2 ^ 63 + 0x4021) 0 0 ∧ 2 ^ 63 ≤ wordAt s 0x4000 1 ∧ wordAt s 0x4000 1 % 32 ≠ 0 ∧ go s [.join 6] = true) ∧
    (∀ k : Fin 3, ∃ s old, old = [0, 1, 2][k] ∧
      s = threading kern 0x4000 [(0x4000, old), (0x4008, 2 ^ 63 + 0x4020), (0x4020, 0x5000), (0x4028, 5), (0x4030, 0x60), (0x4038, 0x80)] ∧
      2 ^ 63 ≤ wordAt s 0x4000 1 ∧ wordAt s 0x4000 1 % 32 = 0 ∧ wordAt s 0x4000 1 % 2 ^ 48 = 0x4020 ∧
      mapped s 3 .load 0x4020 (atMain 0x4020) ∧ ¬badImage (wordAt s (atMain 0x4020).key) ∧
      imageTo s (wordAt s 0x4020) = 0 ∧ (s.die 0).recs.length < 262144 ∧ go s [.join 6] = true) ∧
    (∃ s, s = threading kern 0x4000 [(0x4000, 1), (0x4008, 2 ^ 63 + 0x4020)] ∧ badImage (wordAt s (atMain 0x4020).key) ∧
      go s [.join 6] = true) :=
  ⟨fun k => ⟨_, _, rfl, rfl, by revert k; decide, by revert k; decide, by revert k; decide⟩,
    ⟨_, rfl, by decide, by decide, by decide⟩,
    fun k => ⟨_, _, rfl, rfl, by revert k; decide, by revert k; decide, by revert k; decide,
      mapped_of pMain ⟨by decide, rfl, fun h => absurd h (by decide), rfl, rfl, by decide, by decide, by decide⟩,
      by unfold badImage; revert k; decide, by revert k; decide, by revert k; decide, by revert k; decide⟩,
    ⟨_, rfl, by unfold badImage; decide, by decide⟩⟩

/-- A record of the kernel. -/
def rec1 (level : Nat) (pin : Option Nat) (at_ : Nat) : Rec := ⟨7, some 1, 0x5550, 0x66, 0x70, level, at_, 0, 1, 2, 9, pin⟩

/-- Sequencer 3 idle, the kernel given, and records in die 0's queue. -/
def idling (k : Kernel) (rs : List Rec) : State :=
  (threading k 0 [] fun q => { q with mode := .idle }).modDie 0 fun d => { d with recs := rs }

theorem witness_Continuations :
    (∃ s, s = threading kern 0 [] ∧ (s.seq 3).mode ≠ .handler ∧ settledThread s 3 ∧ go s [.exit, .cExit] = true) ∧
    (∃ s l, s = { threading kern 0 [] with landings := [l] } ∧ l = reply ∧ l.sq = 3 ∧ l.runId = (s.seq 3).runId ∧
      go s [.exit, .cExit] = true) ∧
    (∃ s, s = threading kern 0 [] (fun q => { q with sleep := some .exit }) ∧ s.pkg.frozen = false ∧
      (s.seq 3).sleep = some .exit ∧ settledThread s 3) ∧
    (∀ k : Fin 2, ∃ s r rs, rs = [[rec1 1 none 5, rec1 2 none 5, rec1 2 none 3, rec1 3 (some 5) 1], [rec1 3 (some 3) 5]][k] ∧
      s = idling kern rs ∧ r = [rec1 2 none 3, rec1 3 (some 3) 5][k] ∧ s.pkg.frozen = false ∧ (s.seq 3).mode = .idle ∧
      kernelFor s 3 = some kern ∧ logMode s kern.ctx = 0 ∧ firstRec s kern 3 = some r ∧
      ∀ m, m ∈ kern.seqs → m / 16 = 0 → m < 3 → (s.seq m).mode ≠ .idle) ∧
    (∃ s r, s = { idling kern [rec1 1 none 5] with now := 25605 } ∧ s.pkg.frozen = false ∧ (s.die 0).recs[0]? = some r ∧
      r.level < 3 ∧ r.pushed + (r.raised + 1) * 25600 ≤ s.now) :=
  ⟨⟨_, rfl, by decide, by unfold settledThread; decide, by decide⟩, ⟨_, _, rfl, rfl, by decide, by decide, by decide⟩,
    ⟨_, rfl, by decide, by decide, by unfold settledThread; decide⟩,
    fun k => ⟨_, _, _, rfl, rfl, rfl, rfl, rfl, by revert k; decide, by revert k; decide, by revert k; decide, by revert k; decide⟩,
    ⟨_, _, rfl, rfl, rfl, by decide, by decide⟩⟩

/-- A launch on die d that waits for its place. -/
def placing (layout cist d : Nat) : Kernel := { kern with st := .placing, seqs := [], layout := layout, cist := cist, dies := [d] }

/-- An empty machine with one kernel. -/
def one (k : Kernel) : State := { State.resetWith [] with kernels := [k], ctxCtr := 4, now := 3 }

/-- Sequencer 3, of an idle kernel. -/
def idleOf (k : Kernel) : State := { threading k 0 [] fun q => { q with mode := .idle } with kernels := [k] }

/-- Cells of a range kernel: die 0's and die 1's. -/
def ranged (lo hi n : Nat) : Kernel := { kern with range := some 5000, cells := [⟨0, lo, hi, false⟩, ⟨1, 100, 100 + n, false⟩] }

theorem witness_Kernels :
    (∀ x : Fin 3, ∃ s k g, g = [0, 0, 2][x] ∧ k = placing (g * 2 ^ 20) ([0, 0x600000, 0][x]) 15 ∧ s = one k ∧
      s.kernels = [k] ∧ k.st = .placing ∧ s.pkg.frozen = false ∧
      (s.die k.home).fw.phase = 0 ∧ k.dies = [15] ∧ k.layout / 2 ^ 16 % 16 = 0 ∧ k.range = none ∧ s.pkg.measureOn = false ∧ (s.die 15).recs.length < 262144 ∧
      (∀ p, p ∈ s.seqs → p.2.groups = []) ∧ (∀ c, c ∈ s.ctxs → c.id ≠ s.ctxCtr) ∧ (s.die 15).working ≠ [] ∧
      k.layout / 2 ^ 20 % 2 ^ 7 = g ∧ (if g = 0 then max 1 ((k.cist + 0x1FFFFF) / 0x200000) ≤ (s.die 15).working.length
        else g ≤ (s.die 15).working.length)) ∧
    (∃ s k c, k = ranged 100 5000 10 ∧ s = idleOf k ∧ s.pkg.frozen = false ∧ kernelFor s 3 = some k ∧ s.kernel? k.id = some k ∧
      (s.seq 3).mode = .idle ∧ k.range.isSome = true ∧ (∀ r, r ∈ (s.die (3 / 16)).recs → r.kernel ≠ some k.id) ∧
      k.cell (3 / 16) = some c ∧ c.lo < c.hi ∧ logMode s k.ctx = 0) ∧
    (∀ x : Fin 2, ∃ s k c v n, n = [1, 9][x] ∧ k = ranged 7 7 n ∧ s = idleOf k ∧ c = (⟨0, 7, 7, false⟩ : RangeCell) ∧
      v = (⟨1, 100, 100 + n, false⟩ : RangeCell) ∧ s.kernel? k.id = some k ∧ k.st = .running ∧ (s.ctx k.ctx).st = .active ∧
      (3 ∈ k.seqs ∧ 3 / 16 = 0 ∧ (s.seq 3).mode = .idle) ∧ k.cell 0 = some c ∧ c.hi ≤ c.lo ∧ c.noSteal = false ∧
      k.victim 0 = some v ∧ (2 ≤ v.hi - v.lo ↔ x = 1)) ∧
    (∀ x : Fin 2, ∃ s k, k = { kern with st := [KernelSt.ending, .aborting][x] } ∧ s = idleOf k ∧ s.pkg.frozen = false ∧
      s.kernel? k.id = some k ∧ (∀ n, n ∈ k.seqs → (s.seq n).mode = .idle) ∧ (s.ctxs.any fun x => x.id == k.ctx) = true ∧
      (∀ b, b ∈ s.bars → b.batch = []) ∧ ctxWorking s k.ctx = false ∧ s.threads k.ctx = []) := by
  refine ⟨fun x => ⟨_, _, _, rfl, rfl, rfl, rfl, rfl, rfl, ?_⟩, ⟨_, _, _, rfl, rfl, rfl, by decide, by decide, by decide, by decide, by decide, rfl, by decide, by decide⟩,
    fun x => ⟨_, _, _, _, _, rfl, rfl, rfl, rfl, rfl, ?_⟩, fun x => ⟨_, _, rfl, rfl, rfl, ?_⟩⟩
  · revert x; decide
  · revert x; decide
  · revert x; decide

/-- A unit 5 of die 0 at phase p, with a of n arrivals, and x6, x7. -/
def barred (p : BitVec 32) (n a own : Nat) (x6 x7 : Word) (f : Seq → Seq := id) : State :=
  { run (fun q => f (regs [(6, x6), (7, x7)] q)) with bars := [⟨.die, 0, 5, own, n, a, p, []⟩] }

/-- The barrier instructions on the units of the die. -/
def barring : List Instr := [.barcfg .die 6 7, .arrive .die 9 6, .waitb .die 6 7, .arrwait .die 6]

/-- An ARRWAIT in flight that holds a token. -/
def waiting (token : Word) (q : Seq) : Seq := { q with
  inflight := [{ q.entryOf (.arrwait .die 6) { op := .wait } none with cap := [0, 0, 5, 0, 0, 0, 0, 0, 0], token := token }] }

theorem witness_Barriers :
    (∃ s, s = barred 3 2 0 7 8 1 ∧ 7 < (xr s 6).toNat ∧ go s barring = true) ∧
    (∃ s b, s = barred 3 2 0 8 5 1 ∧ s.bar (unitAt s .die 5) = some b ∧ b.owner ≠ (s.seq 3).ctx ∧ go s barring = true) ∧
    (∀ v : Fin 3, ∃ s, s = barred 3 2 0 7 4 ([0, 65535, 65536][v]) ∧ (xr s 6).toNat = 4 ∧ s.bar (unitAt s .die 4) = none ∧
      (xr s 7).toNat = [0, 65535, 65536][v] ∧ go s barring = true) ∧
    (∀ v : Fin 3, ∀ a : Fin 2, ∃ s b, s = barred 3 2 a.val 7 5 ([0, 65535, 65536][v]) ∧ (xr s 6).toNat = 5 ∧
      s.bar (unitAt s .die 5) = some b ∧ b.owner = (s.seq 3).ctx ∧ b.a = a.val ∧ b.n = 2 ∧ b.batch = [] ∧
      quiet s ∧ (xr s 7).toNat = [0, 65535, 65536][v] ∧ go s barring = true) ∧
    (∀ a : Fin 2, ∃ s, s = barred 3 2 a.val 7 5 0 (fun q => { q with held := [⟨0, 0x5000, 0x5000, [1], [255]⟩], heldNum := 1 }) ∧
      (s.seq 3).inflight = [] ∧ (s.seq 3).held ≠ [] ∧ s.drainWaits 3 = false ∧ (∀ h, h ∈ (s.seq 3).held → h.num < (s.seq 3).heldNum) ∧ go s [.arrive .die 9 6] = true) ∧
    (∀ v : Fin 4, ∃ s p x, p = [(4 : BitVec 32), 5, 0x80000004, 0x80000005][v] ∧ x = [(0 : Nat), 1, 2 ^ 31, 2 ^ 31 + 1][v] ∧
      s = barred p 2 0 7 5 4 (fun q => { q with sleep := some (.barrier .die 5 4 false) }) ∧ (p - BitVec.ofNat 32 ((4 : Word).toNat % 2 ^ 32)).toNat = x ∧
      go (barred p 2 0 7 5 4) barring = true ∧ s.pkg.frozen = false ∧ (s.seq 3).sleep = some (.barrier .die 5 (xr s 7) false)) ∧
    (∃ s e, s = barred 4 2 0 7 5 0 (waiting 3) ∧ s.pkg.frozen = false ∧ (s.seq 3).sleep = none ∧ (s.seq 3).mode = .run ∧
      (s.seq 3).inflight = [e] ∧ e.ins = .arrwait .die 6 ∧ (e.w 2).toNat = 5 ∧
      ((4 : BitVec 32) - BitVec.ofNat 32 (e.token.toNat % 2 ^ 32)).toNat = 1) ∧
    (∃ s, s = barred 3 2 0 7 5 9 (fun q => { q with sleep := some (.barrier .die 5 9 true) }) ∧ s.pkg.frozen = false ∧
      (s.seq 3).sleep = some (.barrier .die 5 9 true)) ∧
    (∃ s e, s = barred 3 2 0 7 5 0 (fun q => { waiting 3 q with
        inflight := (waiting 3 q).inflight.map fun e => { e with pulled := [(0, 0, 0)] } }) ∧ s.pkg.frozen = false ∧
      (s.seq 3).sleep = none ∧ (s.seq 3).mode = .run ∧ (s.seq 3).inflight = [e] ∧ e.ins = .arrwait .die 6 ∧ e.pulled ≠ []) := by
  refine ⟨⟨_, rfl, by decide, by decide⟩, ⟨_, _, rfl, rfl, by decide, by decide⟩, fun v => ⟨_, rfl, ?_⟩,
    fun v a => ⟨_, ⟨.die, 0, 5, 7, 2, a.val, 3, []⟩, rfl, ?_, ?_, rfl, rfl, rfl, rfl, quiet_of ⟨rfl, rfl⟩, ?_⟩, fun a => ⟨_, rfl, by revert a; decide, by revert a; decide, by revert a; decide, by revert a; decide, by revert a; decide⟩,
    fun v => ⟨_, _, _, rfl, rfl, rfl, ?_⟩, ⟨_, _, rfl, rfl, rfl, rfl, rfl, by decide, by decide, by decide⟩,
    ⟨_, rfl, rfl, rfl⟩, ⟨_, _, rfl, rfl, rfl, rfl, rfl, by decide, by decide⟩⟩
  · revert v; decide
  · revert v a; decide
  · revert v a; decide
  · revert v a; decide
  · revert v; decide

/-- A context with a trap area at 0x8000, whose words are given after word 0, and its thread. -/
def trapping (f : Seq → Seq := id) (g : Ctx → Ctx := id) (m : List (Nat × Nat) := []) : State :=
  run (fun q => f { q with loops := [⟨1, 2, 3, 4⟩, ⟨5, 6, 7, 8⟩], cflags := 9, cprio := 0x513 }) (fun c => g { c with ctrap := 0x8000 })
    ((0x8000, 0xABC0) :: m)

/-- Addresses of the first 64 pages are main memory's own. -/
theorem main_far {s : State} {d va : Nat} {root : Word} {acc : Access} (hd : d = 0) (hm : s.migs = []) (ht : (s.die d).tlb = [pMain, pSo, pWin])
    (hc : root = 0) (hv : va < 0x40000) : mappedAt s d root acc va (atMain va) := by
  have e : (atMain va).tier = 1 := by show eTier pMain.leaf = 1; decide
  have c : s.wayTo d (atMain va).key = .clear := by
    have h0 : va < hostKey := Nat.lt_of_lt_of_le hv (by decide)
    have h : homeDie va = 0 := by
      have h1 : inCist va = false := by
        have : ¬cistBase ≤ va := Nat.not_le.mpr (Nat.lt_trans hv (by decide))
        simp [inCist, this]
      have h2 : va < mainSize := Nat.lt_of_lt_of_le hv (by decide)
      simp only [homeDie, h1, if_neg Bool.false_ne_true, if_pos h2]
      omega
    rw [hd, State.wayTo, show (atMain va).key = va from rfl, portOf, if_pos h0, h]
    rfl
  refine ⟨⟨by omega, hm, fun h => by rw [e] at h; exact absurd h (by decide), c, pMain, ?_, ?_, ?_⟩, fun _ => by
    show eD pMain.leaf = true
    decide⟩
  · have h : (pMain.space == 0 && decide (pMain.vpn ≤ va / 4096) && decide (va / 4096 < pMain.vpn + pMain.pages)) = true := by
      rw [show pMain.space = 0 from rfl, show pMain.vpn = 0 from rfl, show pMain.pages = 64 from rfl]
      simp
      omega
    rw [hc, tlbHit, ht]
    simp only [tlbFind, List.find?]
    rw [show (0 : Word).toNat % 4096 = 0 from rfl, h]
  · cases acc <;> decide
  · have h : leafKey pMain.leaf pMain.level va = va := by
      have h1 : pageBase pMain.leaf pMain.level = 0 := by decide
      have h2 : pageSize pMain.leaf pMain.level = 262144 := by decide
      have h3 : eTier pMain.leaf = 1 := by decide
      simp only [leafKey, h1, h2, h3, Nat.zero_add]
      exact Nat.mod_eq_of_lt hv
    rw [h]
    rfl

theorem main_at {s : State} {n va : Nat} {acc : Access} (hd : n / 16 = 0) (hm : s.migs = []) (ht : (s.die (n / 16)).tlb = [pMain, pSo, pWin])
    (hc : (s.ctx (s.seq n).ctx).cptbase = 0) (hv : va < 0x40000) : mapped s n acc va (atMain va) := main_far hd hm ht hc hv

theorem area_of {s : State} {n : Nat} (h : trapBase s n = 0x8000 ∧ n / 16 = 0 ∧ s.migs = [] ∧ (s.die (n / 16)).tlb = [pMain, pSo, pWin] ∧
      (s.ctx (s.seq n).ctx).cptbase = 0 ∧ s.softOf 0x8000 ≤ 1 ∧
      s.seqs.all (fun q => q.2.grp.st == .none) = true ∧ (s.seq n).held = [] ∧ (s.seq n).loops.length ≤ 6) :
    hasArea s n (atMain 0x8000) :=
  ⟨by rw [h.1]; decide, h.1.symm ▸ main_at h.2.1 h.2.2.1 h.2.2.2.1 h.2.2.2.2.1 (by decide), by decide, by decide,
    h.2.2.2.2.2.1, h.2.2.2.2.2.2.1, h.2.2.2.2.2.2.2.1, h.2.2.2.2.2.2.2.2⟩

/-- An instruction in flight. -/
def flight (q : Seq) : Seq := { q with inflight := [{ q.entryOf (.vadd abd) { op := .wait } none with
  isn := 76, pc := 0x1FF0, gs := [⟨5, false, [], true⟩, ⟨10, true, [], true⟩] }] }

theorem witness_TakingATrap :
    (((trapping id).seq 3).mode ≠ .handler ∧ ((trapping id).seq 3).inflight = [] ∧ hasArea (trapping id) 3 (atMain 0x8000) ∧ 0x14 < 256) ∧
    (((trapping flight).seq 3).mode ≠ .handler ∧ ((trapping flight).seq 3).inflight ≠ []) ∧
    ((trapping fun q => { q with mode := .handler }).seq 3).mode = .handler ∧
    (((run id).seq 3).mode ≠ .handler ∧ ((run id).seq 3).inflight = [] ∧ trapBase (run id) 3 = 0) ∧
    (((run id).ctxs.any fun x => x.id == ((run id).seq 3).ctx) = true ∧ ((run id).ctx ((run id).seq 3).ctx).st ≠ .halted ∧
      ((run id).ctx ((run id).seq 3).ctx).st ≠ .ended) ∧
    (∃ s, s = trapping (fun q => { q with loops := [] }) ∧ (s.seq 3).loops = [] ∧ hasArea s 3 (atMain 0x8000) ∧
      go s [.trap 9, .bkpt, .cBkpt] = true) :=
  ⟨⟨by decide, by decide, area_of (by decide), by decide⟩, by decide, by decide, by decide, by decide,
    ⟨_, rfl, by decide, area_of (by decide), by decide⟩⟩

/-- A thread to which something has happened. -/
theorem witness_TrapMoves :
    (∃ s x, s = trapping (fun q => { q with pend := some x }) ∧ x = ⟨⟨7, 8, 9⟩, 11, 0x3000, 0x4000, false, false⟩ ∧
      s.pkg.frozen = false ∧ (s.seq 3).mode = .run ∧ hasArea s 3 (atMain 0x8000) ∧ (s.seq 3).gtraps = [] ∧
      (s.seq 3).inflight = [] ∧ (s.seq 3).pend = some x ∧ x.hard = false ∧ x.nores = false ∧ x.req.cause < 256 ∧ x.req.cause ≠ 0x13) ∧
    (∃ s g e, s = trapping (fun q => { flight q with gtraps := [g] }) ∧ g = ⟨0, 76, 5, ⟨4, 8, 9⟩⟩ ∧
      hasArea s 3 (atMain 0x8000) ∧ (s.seq 3).gtraps = [g] ∧ settled s 3 = true ∧ (s.seq 3).inflight = [e] ∧
      e.gs.all (·.fin) = false ∧ e.isn = g.isn ∧ g.req.cause < 256 ∧ g.elem < 2 ^ 64) ∧
    (∃ s, s = trapping (fun q => { q with take := some (0x0D, 0), softPt := true }) ∧ hasArea s 3 (atMain 0x8000) ∧
      (s.seq 3).take = some (0x0D, 0) ∧ (s.seq 3).pend = none ∧ (s.seq 3).gtraps = [] ∧ (s.seq 3).sleep = none ∧
      (s.seq 3).softPt = true ∧ (s.seq 3).inflight = []) ∧
    (∃ s, s = { trapping (fun q => { q with take := some (0x0D, 0) }) with now := 10000 } ∧ (s.seq 3).mode = .run ∧
      (s.seq 3).take = some (0x0D, 0) ∧ (s.seq 3).pend = none ∧ (s.seq 3).sleep = none ∧ 10000 ≤ s.now - 0) ∧
    (∃ s, s = trapping id (fun c => { c with st := .halted }) ∧ (s.seq 3).mode = .run ∧ (s.ctx (s.seq 3).ctx).st = .halted ∧
      (s.seq 3).pend = none) ∧
    (((trapping id).ctxs.any fun z => z.id == 7) = true ∧ ((trapping id).ctx 7).st = .active ∧
      ((trapping id).seq 3).ctx = 7 ∧ ((trapping id).seq 3).mode = .run) :=
  ⟨⟨_, _, rfl, rfl, by decide, by decide, area_of (by decide), by decide, by decide, by decide, by decide, by decide, by decide, by decide⟩,
    ⟨_, _, _, rfl, rfl, area_of (by decide), by decide, by decide, rfl, by decide, by decide, by decide, by decide⟩,
    ⟨_, rfl, area_of (by decide), by decide, by decide, by decide, by decide, by decide, by decide⟩,
    ⟨_, rfl, by decide, by decide, by decide, by decide, by decide⟩, ⟨_, rfl, by decide, by decide, by decide⟩, by decide⟩

/-- A handler whose status word is given, x6 a thread record's address; word 0 of the record at 0xA000 is given too. -/
def handling (status word0 : Nat) (st : CtxSt := .active) : State :=
  trapping (fun q => { regs [(6, 0xA000)] q with mode := .handler, priv := true }) (fun c => { c with st := st, takeCause := 0x0D })
    [(0x8040, status), (0x8048, 78 * 2 ^ 32 + 77), (0x8050, 0x2000), (0x8058, 0x2004), (0xA000, word0), (0xA080, 0x10000000000)]

theorem handling_ok (a b : Nat) (st : CtxSt) : ((handling a b st).seq 3).mode = .handler ∧ (handling a b st).soft = [] ∧
    hasArea (handling a b st) 3 (atMain 0x8000) ∧
    ((handling a b st).ctxs.any fun x => x.id == ((handling a b st).seq 3).ctx) = true ∧
    (∀ o, o < 0x2000 → mapped (handling a b st) 3 .load (0xA000 + o) ⟨0xA000 + o, pMain.leaf, 0⟩ ∧
      mapped (handling a b st) 3 .store (0xA000 + o) ⟨0xA000 + o, pMain.leaf, 0⟩) ∧
    mapped (handling a b st) 3 .atomic 0xA000 ⟨0xA000, pMain.leaf, 0⟩ :=
  ⟨rfl, rfl, area_of ⟨(show (0x8000 : Word).toNat / 2 ^ 12 % 2 ^ 36 * 4096 = 0x8000 from by decide), rfl, rfl, rfl, rfl,
      (by show 0 ≤ 1; decide), rfl, rfl, by show 2 ≤ 6; decide⟩, rfl,
    fun o ho => ⟨main_at rfl rfl rfl rfl (by omega), main_at rfl rfl rfl rfl (by omega)⟩,
    main_at rfl rfl rfl rfl (by decide)⟩

/-- Main memory is sound where no word of memory is in error. -/
theorem sound_main {s : State} {k n : Nat} (hs : s.soft = []) (hk : k + n ≤ 0x40000) : sound s k n := by
  have h : ∀ x, x ≤ 0x40000 → keyExists x = true := fun x hx => by
    have : x < mainSize := Nat.lt_of_le_of_lt hx (by decide)
    simp [keyExists, this]
  refine ⟨h _ (by omega), h _ (by omega), Nat.lt_of_le_of_lt (show k ≤ 0x40000 by omega) (by decide), ?_, hs⟩
  have : ¬notifyBase ≤ k := Nat.not_le.mpr (Nat.lt_of_le_of_lt (show k ≤ 0x40000 by omega) (by decide))
  simp [inNotify, this]

/-- RETT's areas, and those of CTXST and CTXLD; `handling_ok` has the hypotheses that they share. -/
theorem witness_ContextSaving :
    (∃ s, s = handling 0 0 ∧ (s.ctx (s.seq 3).ctx).st = .active ∧ go s [.rett] = true ∧
      s.mem.num (0x8000 + 0x40) 8 / 2 ^ 16 % 16 = 0 ∧ s.mem.num (0x8000 + 0x40) 8 / 2 ^ 8 % 4 = 0 ∧
      s.mem.num (0x8000 + 0x1D0) 8 % 8 ≤ 6 ∧
      ∀ k, k < (s.seq 3).groups.length → s.mem.num (0x8000 + (0x300 + 8 * k)) 8 / 2 ^ 48 % 16 = 0) ∧
    (∃ s, s = { handling 0 0 with ctxs := (handling 0 0).ctxs.map fun c => { c with limit := 5 } } ∧
      (s.ctx (s.seq 3).ctx).st = .active ∧ hasArea s 3 (atMain 0x8000) ∧ (s.ctx (s.seq 3).ctx).limit ≠ 0 ∧
      (s.ctx (s.seq 3).ctx).balance ≤ 0 ∧ go s [.rett] = true ∧ s.mem.num (0x8000 + 0x40) 8 = 0 ∧
      s.mem.num (0x8000 + 0x1D0) 8 % 8 ≤ 6 ∧
      ∀ k, k < (s.seq 3).groups.length → s.mem.num (0x8000 + (0x300 + 8 * k)) 8 / 2 ^ 48 % 16 = 0) ∧
    (∃ s, s = handling (10 * 2 ^ 16) 0 ∧ go s [.rett] = true ∧ 9 < s.mem.num (0x8000 + 0x40) 8 / 2 ^ 16 % 16) ∧
    (∃ s, s = handling (2 ^ 8) 0 ∧ go s [.rett] = true ∧ s.mem.num (0x8000 + 0x40) 8 / 2 ^ 16 % 16 = 0 ∧
      s.mem.num (0x8000 + 0x40) 8 / 2 ^ 8 % 2 = 1 ∧ s.mem.num (0x8000 + 0x1D0) 8 % 8 ≤ 6 ∧
      ∀ k, k < (s.seq 3).groups.length → s.mem.num (0x8000 + (0x300 + 8 * k)) 8 / 2 ^ 48 % 16 = 0) ∧
    (∃ s, s = handling 0 0 .halted ∧ (s.ctx (s.seq 3).ctx).st = .halted ∧ go s [.rett] = true) ∧
    (∃ s, s = handling 0 0 .taking ∧ (s.ctx (s.seq 3).ctx).st = .taking ∧ go s [.rett] = true) ∧
    (∃ s, s = handling 0 0 ∧ xr s 6 = 0xA000 ∧ eTier pMain.leaf = 1 ∧ (∀ o, o < 0x2000 → sound s (0xA000 + o) 1) ∧
      (∀ o, o < 0x1000 → sound s (0x8000 + o) 1) ∧ s.marks = [] ∧ s.landings = [] ∧ (s.seq 3).hwm = 0 ∧
      (s.seq 3).lastLoad ≠ some 0xA000 ∧ s.mem.num (0x8000 + 0x40) 8 / 2 ^ 10 % 2 = 0 ∧ (s.seq 3).groups.length < 128 ∧
      s.mem.num (0xA000 + 0) 8 / 2 ^ 63 = 0 ∧ go s [.ctxst 6, .ctxld 6] = true) ∧
    (∃ s, s = handling 0 (2 ^ 63) ∧ s.mem.num (0xA000 + 0) 8 / 2 ^ 62 = 2 ∧ s.mem.num (0xA000 + 0x18) 8 = 0 ∧
      s.mem.num (0xA000 + 0x80) 8 = (s.seq 3).winVa ∧ (∀ x, x ∈ s.ctxs → 0xA000 ∉ x.records ∧ ∀ y, y ∈ x.saved → y.1 ≠ 0xA000) ∧ s.aside = [] ∧
      (s.ctx (s.seq 3).ctx).st ≠ .ended ∧ (s.seq 3).winPa % 8 = 0 ∧ 0xA000 + 0x2000 ≤ (s.seq 3).winPa ∧
      0x8000 + 0x1000 ≤ (s.seq 3).winPa ∧ go s [.ctxld 6] = true) :=
  ⟨⟨_, rfl, by decide, by decide, by decide, by decide, by decide, by decide⟩,
    ⟨_, rfl, by decide, area_of (by decide), by decide, by decide, by decide, by decide, by decide, by decide⟩, ⟨_, rfl, by decide, by decide⟩,
    ⟨_, rfl, by decide, by decide, by decide, by decide, by decide⟩, ⟨_, rfl, by decide, by decide⟩, ⟨_, rfl, by decide, by decide⟩,
    ⟨_, rfl, by decide, by decide, fun o h => sound_main rfl (by omega), fun o h => sound_main rfl (by omega), by decide,
      by decide, by decide, by decide, by decide, by decide, by decide, by decide⟩,
    ⟨_, rfl, by decide, by decide, by decide, by decide, by decide, by decide, by decide, by decide, by decide, by decide⟩⟩

/-- Queue 2 in a state, at position 19 of a ring of 16 at 0x4000; its descriptor stands at 0x30080. -/
def queue2 (st : QueueSt) (f : Queue → Queue := id) : Queue :=
  f { Queue.reset 2 with st := st, read := 19, desc := [0x8004000000004000, 0, 0, 0x8000, 0, 100, 0x210, 0] }

/-- The machine with that queue, with die 0's events, and words of memory. -/
def queueing (x : Queue) (m : List (Nat × Nat) := []) (ev : List Event := []) : State :=
  ({ run id id m with queues := [x], pkg := { Package.reset with qtbase := 0x30000, tick := 1 } }).modDie 0 fun d => { d with events := ev }

theorem queueing_ok (x : Queue) (m : List (Nat × Nat)) (ev : List Event) : (queueing x m ev).pkg.frozen = false ∧
    (∀ k, k < 64 → sound (queueing x m ev) ((queueing x m ev).pkg.qtbase + 64 * 2 + k) 1) ∧ noGroup (queueing x m ev) ∧
    (queueing x m ev).wayTo 0 ((queueing x m ev).pkg.qtbase + 64 * 2) = .clear ∧
    ((queueing x m ev).die 0).fw.phase = 0 ∧
    (∀ root acc va n, root = 0 → va + n ≤ 0x3FFFF → farAt (queueing x m ev) 0 root acc va (atMain va) n) :=
  ⟨rfl, fun k h => sound_main rfl (show 0x30000 + 64 * 2 + k + 1 ≤ 0x40000 by omega), rfl,
    (main_far (root := 0) (acc := .load) rfl rfl rfl rfl (show 0x30080 < 0x40000 by decide)).1.2.2.2.1, rfl,
    fun root acc va n h hv => ⟨main_far rfl rfl rfl h (by omega), .inl (by show eTier pMain.leaf = 1; decide),
      sound_main rfl (show va + n ≤ 0x40000 by omega)⟩⟩

/-- A master with a transport of its own, for which nothing holds back its requests. -/
theorem carried_own {s : State} {m : Master} (h : masterLink s m = none) : carried s m := fun k hk => by simp [h] at hk

/-- The management controller owns the package. -/
theorem owns_mc {s : State} (h : s.pkg.owner = some .mc ∧ s.now - s.pkg.heard < 10000000 ∧ s.pkg.pendSucc = none) : owns s .mc :=
  ⟨h.1, h.2.1, h.2.2, carried_own rfl⟩

/-- No OWNCTL write of this reference cycle. -/
theorem first_write {s : State} {m : Master} (h : s.pkg.ownWrite = none) : inOrder s m := fun t k hk => by simp [h] at hk

/-- Owned by the master complex. -/
def owned (s : State) : State := { s with pkg := { s.pkg with owner := some .mc } }

theorem witness_QueueEvents :
    (∀ b : Bool, ∃ s, s = owned (queueing (queue2 .idle fun x => { x with notified := b })) ∧ owns s .mc ∧
      (s.queue 2).notified = b ∧ s.pkg.owner ≠ some .debug ∧ carried s .debug) ∧
    (∀ (k : Fin 4) (r : Option (Fin 4)) (dis : Bool), ∃ s st ev, st = [QueueSt.idle, .busy, .error, .disabled][k] ∧
      ev = Event.notify 2 (r.map fun p => BitVec.ofNat 32 p.val) dis ∧
      s = queueing (queue2 st) [(0x30080, 0x8004000000004000)] [ev] ∧ (s.queue 2).st = st ∧ (s.queue 2).active = false ∧
      cobblersBusy s 0 < 12 ∧ (s.die 0).events = [ev] ∧ (s.queue 2).badDesc = false ∧ 2 ^ 63 ≤ s.mem.num 0x30080 8) ∧
    (∃ s, s = queueing (queue2 .error fun x => { x with badDesc := true }) ∧ (s.queue 2).badDesc = true ∧ (s.queue 2).st = .error) ∧
    (queueing (queue2 .disabled)).mem.num 0x30080 8 < 2 ^ 63 :=
  ⟨fun b => ⟨_, rfl, owns_mc (by revert b; decide), by revert b; decide, by revert b; decide, carried_own rfl⟩,
    fun k r dis => ⟨_, _, _, rfl, rfl, rfl, by revert k r dis; decide, by revert k r dis; decide, by revert k r dis; decide, rfl, by revert k r dis; decide,
      by revert k r dis; decide⟩, ⟨_, rfl, by decide⟩, by decide⟩

/-- Descriptors in order and malformed. -/
def descriptor (l : List Nat) (k : Nat) : Nat := (l[k]?).getD 0

theorem witness_Descriptors : ¬badDescriptor (descriptor [0x8004000000004000, 0, 0, 0x8000, 0, 100, 0x210, 0]) ∧
    ¬badDescriptor (descriptor [0x8010000000004000, 0, 0, 0x8000, 0, 100, 0x210, 0]) ∧
    badDescriptor (descriptor [0x8003000000004000, 0, 0, 0, 0, 0, 0, 0]) ∧
    badDescriptor (descriptor [0x8011000000004000, 0, 0, 0, 0, 0, 0, 0]) ∧
    badDescriptor (descriptor [0x8004000000004001, 0, 0, 0, 0, 0, 0, 0]) ∧
    badDescriptor (descriptor [0x8004000000004000, 2 ^ 32, 0, 0, 0, 0, 0, 0]) := by
  unfold badDescriptor
  exact ⟨by decide, by decide, by decide, by decide, by decide, by decide⟩

/-- A slot's words at 0x40C0. -/
def slotted (w0 w7 : Nat) : State := queueing (queue2 .idle fun x => { x with active := true, budget := 16 }) [(0x40C0, w0), (0x40F8, w7)]

/-- A started packet; a WAIT when its words are given. -/
def packet (f : Packet → Packet := id) : Packet := f { Packet.mk (id := 5) (type := 3) (pos := 18) (depth := 0) (csig := 0x4010) (kernel := none)
  (parent := none) (left := 0) (wait := []) (since := 0) (finished := false) (root := 0) with finished := false }

/-- A packet at READ, a WAIT that is met and that is not, a completed packet; `queueing_ok` has what they share. -/
theorem witness_Queues :
    (∀ k : Fin 4, ∃ s, s = slotted ([0, 0x101, 0x501, 1][k]) 0x4000 ∧ (s.queue 2).active = true ∧ (s.queue 2).st = .idle ∧
      (s.queue 2).levels = [] ∧ (s.queue 2).started = [] ∧ 2 ≤ (s.queue 2).budget ∧
      (((s.queue 2).w 0).toNat % 2 ^ 48 + 64 * ((s.queue 2).read.toNat % 2 ^ (((s.queue 2).w 0).toNat / 2 ^ 48 % 2 ^ 5))) = 0x40C0 ∧
      (s.queue 2).w 2 &&& 0xFFFFFFFFFFFFF = 0 ∧ ((s.queue 2).w 6).toNat / 2 ^ 60 = 0 ∧
      (0x40C0 + 64 ≤ s.pkg.qtbase + 64 * 2) ∧ s.mem.num 0x40C0 8 = [0, 0x101, 0x501, 1][k] ∧
      (∀ j, 1 ≤ j → j ≤ 6 → s.mem.num (0x40C0 + 8 * j) 8 = 0) ∧ s.mem.num (0x40C0 + 8 * 7) 8 = 0x4000) ∧
    (∀ (c : Fin 6) (v : Fin 3), ∃ s p, p = packet (fun p => { p with wait := [0x4000, BitVec.ofNat 64 ([0, 1, 2 ^ 63][v]), BitVec.ofNat 64 c.val, 1] }) ∧
      s = queueing (queue2 .busy fun x => { x with started := [p] }) ∧ (s.queue 2).started = [p] ∧ p.type = 3 ∧ p.finished = false ∧
      (s.queue 2).st = .busy ∧ (s.queue 2).active = false ∧ (s.die 0).events = [] ∧ cobblersBusy s 0 < 12 ∧ queueHome s 2 = 0 ∧
      p.root = 0 ∧ (1 : Word) ≠ 0 ∧
      (1 : Word).toNat ≤ (s.pkg.tick - BitVec.ofNat 64 p.since).toNat) ∧
    (∀ c : Fin 2, ∃ s p, p = packet (fun p => { p with finished := true, csig := [0, 0x4000][c] }) ∧
      s = queueing (queue2 .busy fun x => { x with started := [p, packet fun p => { p with id := 6 }] }) ∧
      (s.queue 2).started = p :: [packet fun p => { p with id := 6 }] ∧ p.finished = true ∧ p.parent = none ∧
      (∀ y, y ∈ [packet fun p => { p with id := 6 }] → y.id ≠ p.id) ∧ queueHome s 2 = 0 ∧ p.root = 0 ∧
      (((s.queue 2).w 0).toNat % 2 ^ 48 + 64 * ((s.queue 2).read.toNat % 2 ^ (((s.queue 2).w 0).toNat / 2 ^ 48 % 2 ^ 5))) = 0x40C0) ∧
    (∃ s p, p = packet (fun p => { p with wait := [0x4000, 0, 0, 1] }) ∧
      s = queueing (queue2 .busy fun x => { x with started := [p], active := true }) ∧ (s.queue 2).started = [p] ∧
      (s.queue 2).active = true ∧ Event.recheck 2 ∉ (s.die 0).events) ∧
    (∀ c : Fin 2, ∃ s p, p = packet (fun p => { p with finished := true, csig := 0 }) ∧
      s = queueing (queue2 .busy fun x => { x with started := [p] }) [(0x40C0, [0, 0x101][c])] ∧
      (s.queue 2).started = p :: [] ∧ p.finished = true ∧ p.csig = 0 ∧ p.parent = none ∧ (s.queue 2).st = .busy ∧
      (s.queue 2).active = false ∧ (s.queue 2).blocked = false ∧ (s.queue 2).levels = [] ∧ queueHome s 2 = 0 ∧
      s.mem.num (atMain 0x40C0).key 8 % 2 = c.val) ∧
    compares 0 0 0 ∧ ¬compares 0 0 1 ∧ compares 1 0 1 ∧ ¬compares 1 0 0 ∧ compares 2 0 0 ∧ ¬compares 2 0 1 ∧ compares 3 0 1 ∧
    ¬compares 3 0 0 ∧ compares 4 0 0x8000000000000000 ∧ ¬compares 4 0 1 ∧ compares 5 0 1 ∧ ¬compares 5 0 0x8000000000000000 := by
  refine ⟨fun k => ⟨_, rfl, rfl, rfl, rfl, rfl, ?_⟩, fun c v => ⟨_, _, rfl, rfl, rfl, rfl, rfl, rfl, ?_⟩,
    fun c => ⟨_, _, rfl, rfl, rfl, rfl, rfl, ?_⟩, ⟨_, _, rfl, rfl, by decide⟩, fun c => ⟨_, _, rfl, rfl, rfl, rfl, rfl, rfl, rfl, rfl, rfl, rfl, ?_⟩,
    by simp [compares]⟩
  · revert k; decide
  · revert c v; decide
  · revert c; decide
  · revert c; decide

/-- An ownership, 0 or 9,999,999 cycles after the owner was heard, a successor pending since cycle 0. -/
def holding (o succ : Option Master) (now : Nat) (frozen pin cmd : Bool) : State :=
  { run id with now := now, pkg := { Package.reset with
      owner := o, nonce := 3, pendSucc := succ, frozen := frozen, pin := pin, cmdFreeze := cmd, frzAsked := 130 } }

theorem witness_Ownership :
    (∃ s, s = holding none none 0 false false false ∧ s.pkg.owner = none ∧ carried s .mc ∧ inOrder s .mc) ∧
    (∃ s, s = holding (some .mc) none 10000000 false false false ∧ s.pkg.owner.isSome = true ∧ ¬s.now - s.pkg.heard < 10000000 ∧
      s.pkg.frozen = false ∧ carried s .debug ∧ inOrder s .debug) ∧
    (∃ s, s = holding (some .mc) none 9999999 false false false ∧ s.pkg.owner = some .mc ∧ s.pkg.nonce = 3 ∧ s.pkg.nonce ≠ 4 ∧
      s.now - s.pkg.heard < 10000000 ∧ s.pkg.pendSucc = none ∧ owns s .mc ∧ inOrder s .mc ∧ Master.mc ≠ .debug ∧ s.pkg.pendSucc ≠ some .debug ∧
      carried s .debug ∧ inOrder s .debug) ∧
    (∃ s, s = holding (some .mc) (some .debug) 9999999 false false false ∧ s.pkg.pendSucc = some .debug ∧
      s.now - s.pkg.pendSince < 10000000 ∧ s.now - s.pkg.heard < 10000000 ∧ carried s .debug ∧ inOrder s .debug) ∧
    (∃ s k, s = ({ run id with pkg := { Package.reset with ownWrite := some (0, k) } } : State) ∧ k = 3 ∧ s.pkg.ownWrite = some (s.now, k) ∧
      masterNum .mc < k ∧ carried s .mc ∧ s.pkg.frozen = false) ∧
    (∃ s, s = ({ holding (some .mc) (some .host) 10000001 false false false with pkg :=
        { (holding (some .mc) (some .host) 0 false false false).pkg with heard := 10 } } : State) ∧ s.pkg.frozen = false ∧
      s.pkg.owner.isSome = true ∧ s.now - s.pkg.heard < 10000000 ∧ s.pkg.pendSucc.isSome = true ∧ 10000000 ≤ s.now - s.pkg.pendSince) ∧
    (∀ b : Bool, ∃ s, s = holding none none (if b then 191 else 192) false true false ∧ s.pkg.pin = true ∧ s.pkg.frozen = false ∧
      (s.now < (s.pkg.frzAsked / 64 + 1) * 64 ↔ b = true)) ∧
    (∃ s, s = holding none none 0 true false false ∧ s.pkg.pin = false ∧ s.pkg.cmdFreeze = false ∧ s.pkg.frozen = true) :=
  ⟨⟨_, rfl, rfl, carried_own rfl, first_write rfl⟩, ⟨_, rfl, by decide, by decide, by decide, carried_own rfl, first_write rfl⟩,
    ⟨_, rfl, by decide, by decide, by decide, by decide, by decide, owns_mc (by decide), first_write rfl, by decide, by decide,
      carried_own rfl, first_write rfl⟩,
    ⟨_, rfl, by decide, by decide, by decide, carried_own rfl, first_write rfl⟩,
    ⟨_, _, rfl, rfl, by decide, by decide, carried_own rfl, by decide⟩, ⟨_, rfl, by decide⟩, fun b => ⟨_, rfl, by revert b; decide, by revert b; decide, by revert b; decide⟩, ⟨_, rfl, by decide⟩⟩

/-- The owner's events, and each end of an ownership and of a freeze. -/
theorem witness_OwnershipCompletes :
    (∃ s, s = holding none none 0 false false false ∧ s.pkg.owner = none ∧ carried s .mc ∧ inOrder s .mc) ∧
    (∃ s, s = holding (some .mc) none 9999999 false false false ∧ owns s .mc ∧ inOrder s .mc ∧ s.pkg.nonce = 3) ∧
    (∃ s, s = holding (some .mc) none 10000000 false false false ∧ s.pkg.frozen = false ∧ s.pkg.owner.isSome = true ∧
      10000000 ≤ s.now - s.pkg.heard) ∧
    (∃ s, s = ({ holding (some .mc) (some .host) 10000001 false false false with pkg :=
        { (holding (some .mc) (some .host) 0 false false false).pkg with heard := 10 } } : State) ∧ s.pkg.frozen = false ∧
      s.pkg.owner.isSome = true ∧ s.now - s.pkg.heard < 10000000 ∧ s.pkg.pendSucc.isSome = true ∧ 10000000 ≤ s.now - s.pkg.pendSince) ∧
    (∃ s, s = holding none none 192 false true false ∧ s.pkg.pin = true ∧ s.pkg.frozen = false ∧ (s.pkg.frzAsked / 64 + 1) * 64 ≤ s.now) ∧
    (∃ s, s = holding none none 0 true false false ∧ s.pkg.pin = false ∧ s.pkg.cmdFreeze = false ∧ s.pkg.frozen = true) :=
  ⟨⟨_, rfl, rfl, carried_own rfl, first_write rfl⟩, ⟨_, rfl, owns_mc (by decide), first_write rfl, by decide⟩, ⟨_, rfl, by decide⟩,
    ⟨_, rfl, by decide⟩, ⟨_, rfl, by decide⟩, ⟨_, rfl, by decide⟩⟩

theorem witness_Registers :
    (∃ s, s = holding (some .mc) none 5 false false false ∧ s.pkg.frozen = false ∧ owns s .mc ∧ s.pkg.owner ≠ some .debug ∧ carried s .debug ∧
      (∀ q, q ∈ s.queues → q.st = .disabled)) ∧ (∃ s, s = frozen (run id) ∧ s.pkg.frozen = true) ∧
    (∃ s q, s = queueing (queue2 .idle) ∧ q ∈ s.queues ∧ q.st ≠ .disabled) ∧ 0x4000 ≤ 0x4000 ∧
    (∃ s, s = holding none none 100000 false false false ∧ s.pkg.frozen = false ∧ (s.die 0).refilled < s.now ∧
      s.sumps = [] ∧ s.pkg.tickDue ≤ s.now ∧ s.pkg.quotaDue ≤ s.now ∧ s.pkg.lastCompare + 100 ≤ s.now) ∧
    (∃ s k, s = ({ run id with now := 10100, pkg := { Package.reset with belowSince := some 100, measures := [k] } } : State) ∧
      k = ⟨1, 2, 0⟩ ∧ s.pkg.frozen = false ∧ s.pkg.lastCompare + 100 ≤ s.now ∧ (2850 ≤ s.pkg.pwrlim ∧ 95 * s.pkg.pwrlim < 100 * 2851) ∧
      s.pkg.pwrlim < 3001 ∧ (0 < 16 ∧ (s.die 0).half = false) ∧ s.pkg.belowSince = some 100 ∧ 2850 * 100 ≤ 95 * s.pkg.pwrlim ∧
      10000 ≤ s.now - 100 ∧ s.pkg.measures = [k]) :=
  ⟨⟨_, rfl, by decide, owns_mc (by decide), by decide, carried_own rfl, by decide⟩, ⟨_, rfl, rfl⟩,
    ⟨_, _, rfl, List.mem_singleton.mpr rfl, by decide⟩, by decide,
    ⟨_, rfl, by decide⟩, ⟨_, _, rfl, rfl, by decide⟩⟩

/-- Link k in a state, the package owned. -/
def linked (k : Nat) (l : Link) : State := owned { run id with links := State.reset.links.setIfInBounds k l }

/-- Training, with lanes found, failing lanes, flits, and a way that is closed, for a die link, the host's and a peer's. -/
theorem witness_Links : ∀ x : Fin 3, ∃ k, k = [3, 24, 36][x] ∧ k < 37 ∧ (linked k (Link.reset k)).pkg.frozen = false ∧
    ((linked k (Link.reset k)).link k).st = .down ∧ ((linked k (Link.reset k)).link k).attempts = 0 ∧
    ([decide (full k + spares k ≤ full k + 20), decide (full k ≤ full k), decide (full k - 1 < full k ∧ full k / 2 ≤ full k - 1),
      decide (full k / 2 - 1 < full k / 2)] = [true, true, true, true]) ∧
    (∀ a : Fin 4, ((linked k { Link.reset k with st := .training, attempts := a.val }).link k).st = .training ∧
      ((linked k { Link.reset k with st := .training, attempts := a.val }).link k).attempts = a.val) ∧
    (∀ n : Fin 3, ∃ l, l = { Link.reset k with st := .up, lanes := [full k + 1, full k, full k / 2][n] } ∧
      ((linked k l).link k).st = .up ∧ ([decide (full k ≤ l.lanes - 1), decide (l.lanes - 1 < full k ∧ full k / 2 ≤ l.lanes - 1),
        decide (l.lanes - 1 < full k / 2)][n]) = true) ∧
    (∀ n : Fin 2, ∃ l, l = { Link.reset k with st := .degraded, lanes := [full k / 2 + 1, full k / 2][n] } ∧
      ((linked k l).link k).st = .degraded ∧ ([decide (full k / 2 ≤ l.lanes - 1), decide (l.lanes - 1 < full k / 2)][n]) = true) ∧
    (∀ r : Fin 16, ∃ l : Link, l = { Link.reset k with st := .degraded, cls := Vector.replicate 2 ⟨1023, true, r.val, 2, [1023, 0, 1], 253⟩ } ∧
      ((linked k l).link k).st = .degraded ∧ (let x := ((linked k l).link k).cls[1];
        x.discarding = true ∧ x.replays = r.val ∧ (1 ∈ x.buf ∧ 1 ≠ x.expect) ∧ (2 = x.next ∧ x.buf.length < 256 ∧ 0 < x.credits) ∧
          (5 ∉ x.buf ∧ 5 ≠ x.next))) ∧
    (∃ l : Link, l = { Link.reset k with st := .up } ∧ ((linked k l).link k).st = .up ∧ (let x := ((linked k l).link k).cls[1];
      x.discarding = false ∧ x.expect = x.next ∧ x.buf.length < 256 ∧ 0 < x.credits)) ∧
    owns (linked k (Link.reset k)) .mc ∧ carried (linked k (Link.reset k)) .debug ∧ ((linked k (Link.reset k)).ctxs.any fun x => x.id == 7) = true ∧
    ((linked k (Link.reset k)).ctx 7).st = .active := by
  intro x
  refine ⟨_, rfl, ?_⟩
  refine ⟨by revert x; decide, by revert x; decide, by revert x; decide, by revert x; decide, by revert x; decide, by revert x; decide,
    fun n => ⟨_, rfl, ?_⟩, fun n => ⟨_, rfl, ?_⟩, fun r => ⟨_, rfl, ?_⟩, ⟨_, rfl, ?_⟩, owns_mc (by revert x; decide), carried_own rfl, ?_⟩
  · revert x n; decide
  · revert x n; decide
  · revert x r; decide
  · revert x; decide
  · revert x; decide

/-- A host with decoders as given. -/
def hosting (st : LinkSt) (h0 h2 : Option Nat) (seqs : List (Nat × Seq)) : State :=
  { run id with seqs := seqs, links := State.reset.links.setIfInBounds 24 { Link.reset 24 with st := st },
                pkg := { Package.reset with owner := some .mc, hdm := ((Vector.replicate 3 none).set 0 h0).set 2 h2 } }

/-- A peer at port 3 with a window of 1 GiB at key 0, open or closed. -/
def peering (en : Bool) : State :=
  { run id with links := State.reset.links.setIfInBounds 28 { Link.reset 28 with st := .up },
                pkg := { Package.reset with peerWin := Package.reset.peerWin.set 3 ⟨en, 0, 1⟩ } }

theorem witness_OutsideRequests :
    (∃ s, s = hosting .down none none [] ∧ s.pkg.frozen = false ∧ owns s .mc ∧ s.pkg.owner ≠ some .debug ∧ carried s .debug ∧
      (s.link 24).st = .down) ∧ carried (hosting .up none none []) .host ∧
    (∃ s, s = hosting .up none none [] ∧ (s.link 24).st = .up ∧ s.pkg.hdm[0] = none ∧ s.pkg.hdm[1] = none ∧ s.pkg.hdm[2] = none) ∧
    (∃ s b0, s = hosting .up (some 0x100000) none [] ∧ s.pkg.hdm[0] = some b0 ∧ b0 ≤ 0x104000 ∧ 0x104000 + 8 ≤ b0 + mainSize ∧ s.soft = [] ∧ noGroup s) ∧
    (∃ s b2, s = hosting .up none (some 0x100000) [] ∧ s.pkg.hdm[0] = none ∧ s.pkg.hdm[1] = none ∧ s.pkg.hdm[2] = some b2 ∧ b2 ≤ 0x104000 ∧
      0x104000 + 8 ≤ b2 + cistSize ∧ s.seqs = []) ∧
    (∀ en : Bool, ∃ s w, s = peering en ∧ (s.link (25 + 3)).st = .up ∧ s.soft = [] ∧ s.pkg.peerWin.toList[3]? = some w ∧ w.en = en ∧
      w.base ≤ 0x4000 ∧ 0x4000 + 8 ≤ w.base + w.size * 2 ^ 30 ∧ 0x4000 + 8 ≤ mainSize ∧ noGroup s) ∧
    (∀ ph : Fin 4, ∃ s, s = (run id).modDie 2 (fun d => { d with fw := { d.fw with phase := ph.val, next := some (1, 2, 3) } }) ∧ (s.die 2).fw.phase = ph.val ∧
      (s.die 2).fw.next = some (1, 2, 3) ∧
      ∀ x, x ∈ s.queues → x.active = false ∧ ∀ y, y ∈ x.started → y.finished = false) ∧
    (∀ ask : Bool, ∃ s ev, ev = Event.mailbox 5 9 (some (1, 3)) ask ∧ s = (run id).modDie 2 (fun d => { d with events := [ev] }) ∧
      (s.die 2).fw.phase = 0 ∧ cobblersBusy s 2 < 12 ∧ (s.die 2).events = [ev] ∧ (s.die 2).fw.pmax < 9) ∧
    (∃ x y, onCurve x y = true) :=
  ⟨⟨_, rfl, by decide, owns_mc (by decide), by decide, carried_own rfl, by decide⟩,
    fun k hk => by cases (Option.some.inj hk); exact ⟨by decide, by decide⟩, ⟨_, rfl, by decide⟩,
    ⟨_, _, rfl, rfl, by decide, by decide, by decide, by unfold noGroup; decide⟩, ⟨_, _, rfl, rfl, rfl, rfl, by decide⟩,
    fun en => ⟨_, _, rfl, by revert en; decide, by revert en; decide, rfl, rfl, by revert en; decide, by revert en; decide, by revert en; decide, rfl⟩,
    fun ph => ⟨_, rfl, rfl, rfl, by revert ph; decide⟩,
    fun ask => ⟨_, _, rfl, rfl, by revert ask; decide, by revert ask; decide, rfl, by revert ask; decide⟩,
    ⟨_, _, (by decide : onCurve 0x6B17D1F2E12C4247F8BCE6E563A440F277037D812DEB33A0F4A13945D898C296
      0x4FE342E2FE1A7F9B8EE7EB4A7C0F9E162BCE33576B315ECECBB6406837BF51F5 = true)⟩⟩

/-! ## Single steps, worked out by hand from the rules -/

/-- Register r of sequencer 3 after i. -/
def then_ (i : Instr) (s : State) (r : Reg := 5) : Nat := (((after (exec i s)).seq 3).getX r).toNat

/-- The low 32 bits of register 5 after i. -/
def low (i : Instr) (s : State) : Nat := then_ i s % 2 ^ 32

/-- Integer corners of 03 R60 and 06 R137: a wrap, the high half of a product of negatives, a quotient rounded to zero with
its remainder's sign, an arithmetic shift by 65 mod 64, and counts of zero. -/
theorem test_integers : then_ (.add 5 6 7) (two 0xFFFFFFFFFFFFFFFF 2) = 1 ∧
    then_ (.mulh 5 6 7) (two 0xFFFFFFFFFFFFFFFE 3) = 0xFFFFFFFFFFFFFFFF ∧
    then_ (.mulhu 5 6 7) (two 0xFFFFFFFFFFFFFFFE 3) = 2 ∧ then_ (.div 5 6 7) (two 0xFFFFFFFFFFFFFFF9 2) = 0xFFFFFFFFFFFFFFFD ∧
    then_ (.rem 5 6 7) (two 0xFFFFFFFFFFFFFFF9 2) = 0xFFFFFFFFFFFFFFFF ∧ then_ (.sra 5 6 7) (two 0x8000000000000000 65) = 0xC000000000000000 ∧
    then_ (.clz 5 6) (two 1 0) = 63 ∧ then_ (.ctz 5 6) (two 0x50 0) = 4 ∧ then_ (.popc 5 6) (two 0xF0F 0) = 8 := by decide

/-- fp32: 1.5 + 2.25 = 3.75, 3 × 0.5 = 1.5, 1 / 3 rounded to nearest, sqrt 2 rounded, 2^24 + 1 tied to even. -/
theorem test_floats : low (.fadd .fp32 5 6 7) (two 0x3FC00000 0x40100000) = 0x40700000 ∧
    low (.fmul .fp32 5 6 7) (two 0x40400000 0x3F000000) = 0x3FC00000 ∧
    low (.fdiv .fp32 5 6 7) (two 0x3F800000 0x40400000) = 0x3EAAAAAB ∧ low (.fsqrt .fp32 5 6) (two 0x40000000 0) = 0x3FB504F3 ∧
    low (.fadd .fp32 5 6 7) (two 0x4B800000 0x3F800000) = 0x4B800000 := by decide +kernel

/-- Conversions at ties to even (06 R149; 03 R69): -1.5 gives -2, a negative value to n64 gives 0, 2^64 saturates, and -3 in
fp32. -/
theorem test_conversions : then_ (.fcvt .i64 .fp32 5 6) (two 0xBFC00000 0) = 0xFFFFFFFFFFFFFFFE ∧
    then_ (.fcvt .n64 .fp32 5 6) (two 0xBFC00000 0) = 0 ∧ then_ (.fcvt .n64 .fp32 5 6) (two 0x5F800000 0) = 0xFFFFFFFFFFFFFFFF ∧
    low (.fcvt .fp32 .i64 5 6) (two 0xFFFFFFFFFFFFFFFD 0) = 0xC0400000 := by decide +kernel

/-- FMIN puts -0 below +0, and one NaN gives the other operand (06 R147). -/
theorem test_minmax : low (.fmin .fp32 5 6 7) (two 0 0x80000000) = 0x80000000 ∧
    low (.fmax .fp32 5 6 7) (two 0x7FC00000 0x40000000) = 0x40000000 := by decide

/-- Branches count in halfwords from their own address (06 R150 to R152). -/
theorem test_branches : ((after (exec (.beq 6 7 0x7FFE) (two 5 5))).seq 3).pc = 0x1FFC ∧
    ((after (exec (.beq 6 7 0x7FFE) (two 5 6))).seq 3).pc = 0x2004 ∧
    then_ (.jal 5 8) (two 0 0) = 0x2004 ∧ ((after (exec (.jal 5 8) (two 0 0))).seq 3).pc = 0x2010 := by decide

/-- A store and a load of the lowest and the highest byte, and the w form of an atomic (06 R141, R143). -/
theorem test_memory : (after (exec (.st 7 6 8) (two 0x4000 0x0102030405060708))).mem.read 0x4008 2 = [8, 7] ∧
    then_ (.ld 5 6 8) (run (regs [(6, 0x4000)]) id [(0x4008, 0x8877665544332211)]) = 0x8877665544332211 ∧
    then_ (.amo .add .none true 5 6 7) (run (regs [(6, 1), (7, 0x4000)]) id [(0x4000, 0x11FFFFFFFF)]) = 0xFFFFFFFFFFFFFFFF ∧
    (after (exec (.amo .add .none true 5 6 7) (run (regs [(6, 1), (7, 0x4000)]) id [(0x4000, 0x11FFFFFFFF)]))).mem.num 0x4000 8 = 0x1100000000 := by
  decide

/-- A loop of count 3 and its first step back (06 R153, R154). -/
theorem test_loop : ((after (exec (.loop 6 4) (two 3 0))).seq 3).loops = [⟨0x2004, 0x2008, 3, 0⟩] ∧
    ((after (exec (.loop 6 4) (two 0 0))).seq 3).pc = 0x2008 := by decide

/-- VLMAX of two groups on a 4-byte type, and a smaller request (06 R155; 01 R32). -/
theorem test_setvl : ((after (exec (.setvl 5 6) (two 100000 0))).seq 3).vl = vlmaxOf 2 ∧ ((after (exec (.setvl 5 6) (two 7 0))).seq 3).vl = 7 := by decide

/-- Group 0 adds element 2 of two i64 vectors: 40 + 2 (07 R183). -/
theorem test_element :
    (after (exec (.elementExecute 3 0) (flying (.vadd abd) 4 [at_ 2, at_ 0] id [(cistBase + 0x8010, 40), (cistBase + 0x10010, 2)]))).mem.num
      (cistBase + 0x10) 8 = 42 := by decide +kernel

/-- One step of a matrix engine: 1.5 times 2 in bf16 is 3 in the accumulator (10 R269). -/
theorem test_matrix : (((after (exec (.matrixStep 0 2) { engaged mul1 with
      mem := ((engaged mul1).mem.write cistBase (bytesOf 2 0x3FC0)).write (cistBase + 64) (bytesOf 2 0x4000) })).die 0).engine 2).get 1 5 =
    512 * 2 ^ 37 + 2 ^ 36 := by decide +kernel

end Sys2Proof.Tests
end

section
/-!
SUPPORT. Vector length (02 R42): the bounds of VLMAX, and the cap that SETVL and SETVLC share.
-/
namespace Sys2Proof.Machine
open Sys2Proof.Claim

/-! ## Moves whose answers keep a bound -/

/-- Whatever a move answers, from any state, satisfies P. -/
def Op.Answers {α : Type} (m : Op α) (P : α → Prop) : Prop := ∀ s a t, m.run s = .ok a t → P a

theorem Op.answers_pure {α : Type} {a : α} {P : α → Prop} (h : P a) : Op.Answers (pure a) P := by
  intro s b t hr
  cases hr
  exact h

/-- A sequence answers what its last move answers. -/
theorem Op.answers_bind {α β : Type} {m : Op α} {f : α → Op β} {P : β → Prop} (h : ∀ a, Op.Answers (f a) P) :
    Op.Answers (m >>= f) P := by
  intro s b t hr
  obtain ⟨a, s', -, hf⟩ := Op.bind_ok hr
  exact h a s' b t hf

theorem Op.answers_ite {α : Type} {c : Prop} [Decidable c] {m m' : Op α} {P : α → Prop} (h : Op.Answers m P)
    (h' : Op.Answers m' P) : Op.Answers (if c then m else m') P := by
  split
  · exact h
  · exact h'

/-! ## Vector length (02 R42) -/

/-- VLMAX of a grant lies within a factor of two below its 1,024 elements a group. -/
theorem vlmaxOf_bounds {g : Nat} (hg : 0 < g) :
    vlmaxOf g = 2 ^ Nat.log2 (1024 * g) ∧ 2 ^ Nat.log2 (1024 * g) ≤ 1024 * g ∧ 1024 * g < 2 ^ (Nat.log2 (1024 * g) + 1) :=
  ⟨if_neg (by omega), Nat.log2_self_le (by omega), Nat.lt_log2_self⟩

/-- SETVL that passes the gate sets vl to xa, cut at the cap (06 R164). -/
theorem exec_setvl_ready {rd ra : Reg} {s : State} (h : ready (.setvl rd ra) s) :
    exec (.setvl rd ra) s = .next (s.modSeq s.cur fun q =>
      (({ q with vl := min ((s.seq s.cur).getX ra).toNat (s.seq s.cur).vlCap, dirtyC := q.dirtyC ||| 1 } : Seq).setX rd
        (toWord (min ((s.seq s.cur).getX ra).toNat (s.seq s.cur).vlCap))).retire (.setvl rd ra) .next) := by
  rw [exec_setvl, execSetvl, issue_ok h (c := .next) (t := _)]
  · rw [State.modSeq_modSeq]
  · rfl

/-- One reading of SETVLC's chain word answers nothing, 0, or a length cut at the cap (06 R167). -/
theorem setvlcRead_le_vlCap {n : Nat} {ra rb : Reg} {s t : State} {v : Nat}
    (h : (setvlcRead n ra rb).run s = .ok (some v) t) : v ≤ (s.seq n).vlCap := by
  obtain ⟨q, s1, hq, h⟩ := Op.bind_ok h
  cases hq
  refine (?_ : Op.Answers _ fun o => ∀ v, o = some v → v ≤ (s.seq n).vlCap) _ _ _ h v rfl
  have found : ∀ a b : Nat, ∀ v, some (min a b) = some v → v ≤ b := by
    rintro a b v ⟨⟩
    exact Nat.min_le_right a b
  have closed : ∀ b v : Nat, some 0 = some v → v ≤ b := by
    rintro b v ⟨⟩
    exact Nat.zero_le b
  refine Op.answers_bind fun p => Op.answers_bind fun _ => ?_
  have tail : ∀ m : Op (List Byte), Op.Answers (do
      let w := toWord (ofBytes (← m))
      let pos := ((s.seq n).getX rb).toNat
      if fld w 0 63 > pos then return some (min (fld w 0 63 - pos) (s.seq n).vlCap)
      else if w.getLsbD 63 then return some 0
      else return none) fun o => ∀ v, o = some v → v ≤ (s.seq n).vlCap := fun m =>
    Op.answers_bind fun _ => Op.answers_ite (Op.answers_pure (found _ _))
      (Op.answers_ite (Op.answers_pure (closed _)) (Op.answers_pure (by simp)))
  exact Op.answers_ite (Op.answers_bind fun _ => tail _) (tail _)

end Sys2Proof.Machine

namespace Sys2Proof.Proofs
open Sys2Proof.Machine Sys2Proof.Claim

/-- Settles O25: VLMAX by the bounds of the binary logarithm, SETVL and SETVLC by the cap at which both cut. -/
theorem vectorLengthLimit : Obligations.VectorLengthLimit := by
  unfold Obligations.VectorLengthLimit
  refine ⟨fun g hg => ⟨_, vlmaxOf_bounds hg⟩, fun rd ra s t hr he => ?_, fun n ra rb s t v h => setvlcRead_le_vlCap h⟩
  rw [exec_setvl_ready hr] at he
  cases he
  rw [State.seq_modSeq, Seq.retire_vl, Seq.setX_vl]
  exact Nat.min_le_right _ _

end Sys2Proof.Proofs
end

section
/-!
SUPPORT. One step of the agenda (02 R47), translations that a cache holds (13 R340), reads of sound places, and fetch (05 R103).
-/
namespace Sys2Proof.Machine
open Sys2Proof.Claim

/-! ## One step (02 R47; log 1) -/

/-- A step takes the head of the agenda. -/
theorem step_of_agenda {s : State} {p : Pick} {r : List Pick} (h : s.agenda = p :: r) :
    step s = act { s with agenda := r } p := by
  unfold step
  rw [h]

/-- The turn of a sequencer that would not issue lets time pass. -/
theorem turn_asleep {s : State} {n : Nat} (h : awake s n = false) : turn s n = .next s.idleTurn := by
  simp [turn, fetchIns, h]

/-- A comparator that matches raises BKPT (06 R175). -/
theorem turn_bkpt {s : State} {n k : Nat} (h : awake s n = true) (hk : (s.seq n).bkptHit = some k) :
    turn s n = .next (issueTrap s n ⟨0x0F, (s.seq n).pc, toWord k⟩ (s.seq n).pc) := by
  simp [turn, fetchIns, h, hk]

/-- A word that does not decode raises ILLEGAL (05 R124). -/
theorem turn_illegal {s s' : State} {n w : Nat} {e : DecodeErr} (h : awake s n = true) (hk : (s.seq n).bkptHit = none)
    (hf : (fetchWord n).run s = .ok w s') (hd : decode w = .error e) :
    turn s n = .next (issueTrap s n ⟨0x01, 0, 0⟩ (s.seq n).pc) := by
  simp [turn, fetchIns, h, hk, hf, hd]

/-- A word that decodes is executed with the sequencer current. -/
theorem turn_decoded {s s' : State} {n w : Nat} {i : Instr} (h : awake s n = true) (hk : (s.seq n).bkptHit = none)
    (hf : (fetchWord n).run s = .ok w s') (hd : decode w = .ok i) : turn s n = exec i { s' with cur := n } := by
  simp [turn, fetchIns, h, hk, hf, hd]

/-! ## Translations that a cache holds (13 R336, R340) -/

/-- SPACE of a cptbase value. -/
theorem fld_space (w : Word) : fld w 0 12 = w.toNat % 4096 := by
  simp [fld, bitsAt]

/-- A translation that the caches of a place hold is that access's, and is installed there. -/
theorem findLeaf_hit {s : State} {d va : Nat} {root : Word} {expired : Bool} {pl : Place} {t : TlbEntry}
    (h : cacheHit (s.die d) pl (root.toNat % 4096) va = some t) :
    findLeaf s d root va expired pl =
      .ok (if pl.isNone then s else s.modDie d (tlbInstall · pl va t), t.leaf, t.level, t.entry) := by
  simp [findLeaf, fld_space, h]

/-- The state after an access of a place that its caches hold. -/
def installed (s : State) (d : Nat) (pl : Place) (va : Nat) (t : TlbEntry) : State :=
  if pl.isNone then s else s.modDie d (tlbInstall · pl va t)

@[simp] theorem installed_none (s : State) (d va : Nat) (t : TlbEntry) : installed s d none va t = s := rfl
@[simp] theorem installed_seq (s : State) (d : Nat) (pl : Place) (va : Nat) (t : TlbEntry) (n : Nat) :
    (installed s d pl va t).seq n = s.seq n := by unfold installed; split <;> rfl
@[simp] theorem installed_migs (s : State) (d : Nat) (pl : Place) (va : Nat) (t : TlbEntry) :
    (installed s d pl va t).migs = s.migs := by unfold installed; split <;> rfl
@[simp] theorem installed_winOf (s : State) (d : Nat) (pl : Place) (va : Nat) (t : TlbEntry) (key : Nat) :
    (installed s d pl va t).winOf key = s.winOf key := by unfold installed; split <;> rfl

/-- An address that the die's cache covers, with the permission that the access needs, is translated; only the caches of the
place change. -/
theorem xlate_reaches {s : State} {d c va : Nat} {acc : Access} {p : Phys} {pl : Place} {expired : Bool}
    (hr : reachesAt s d (s.ctx c).cptbase acc va p)
    (hc : ∀ t, tlbHit (s.die d) ((s.ctx c).cptbase.toNat % 4096) va = some t →
      cacheHit (s.die d) pl ((s.ctx c).cptbase.toNat % 4096) va = some t) :
    ∃ t, xlate s d c va acc expired pl = (.ok p, installed s d pl va t) := by
  obtain ⟨hva, -, hw, -, t, ht, hp, rfl⟩ := hr
  refine ⟨t, ?_⟩
  have hwin : (eTier t.leaf = 0 && (s.winOf (leafKey t.leaf t.level va)).isNone) = false := by
    by_cases h0 : eTier t.leaf = 0
    · simpa [h0, Option.isSome_iff_ne_none] using hw h0
    · simp [h0]
  unfold xlate xlateRoot
  rw [if_neg (by omega), findLeaf_hit (hc t ht)]
  change (if !permits t.leaf acc then _ else if eTier t.leaf = 0 &&
    ((installed s d pl va t).winOf (leafKey t.leaf t.level va)).isNone then _ else _) = _
  rw [installed_winOf, hp, hwin]
  rfl

/-- Migration waits that are put back as they were. -/
theorem installed_with_migs (s : State) (d : Nat) (pl : Place) (va : Nat) (t : TlbEntry) :
    ({ installed s d pl va t with migs := s.migs } : State) = installed s d pl va t := by
  unfold installed; split <;> rfl

/-- The same inside a move, while no wait on a migrating page stands. -/
theorem xlateOp_of_xlate {s s' : State} {who d c va : Nat} {acc : Access} {p : Phys} {pl : Place} (hm : s.migs = [])
    (ht : xlate s d c va acc false pl = (.ok p, s')) :
    (xlateOp who d c va acc pl).run s = .ok (.ok p) { s' with
      migs := s'.migs.filter fun m => !(m.sq == who && m.ctx == c && m.va == va) } := by
  unfold xlateOp
  rw [Op.run_bind_ok (Op.run_get s)]
  dsimp only
  rw [hm, List.any_nil, ht]
  rfl

/-- An access to an address that the die's cache covers, inside a move. -/
theorem xlateOp_reaches {s : State} {who d c va : Nat} {acc : Access} {p : Phys} {pl : Place}
    (hr : reachesAt s d (s.ctx c).cptbase acc va p)
    (hc : ∀ t, tlbHit (s.die d) ((s.ctx c).cptbase.toNat % 4096) va = some t →
      cacheHit (s.die d) pl ((s.ctx c).cptbase.toNat % 4096) va = some t) :
    ∃ t, (xlateOp who d c va acc pl).run s = .ok (.ok p) (installed s d pl va t) := by
  obtain ⟨t, ht⟩ := xlate_reaches (expired := false) hr hc
  obtain ⟨-, hm, -⟩ := hr
  refine ⟨t, (xlateOp_of_xlate hm ht).trans ?_⟩
  rw [installed_migs, hm, List.filter_nil, ← hm, installed_with_migs]

/-- An access that no bank makes is translated in the die's cache alone, and changes nothing. -/
theorem xlateOp_mapped {s : State} {who n va : Nat} {acc : Access} {p : Phys} (h : mapped s n acc va p) :
    (xlateOp who (n / 16) (s.seq n).ctx va acc).run s = .ok (.ok p) s :=
  (xlateOp_reaches (pl := none) h.1 fun _ ht => ht).elim fun _ ht => ht

/-! ## Reads of memory whose place exists -/

/-- A key below host memory is reached through no port. -/
theorem portOf_eq_none {key : Nat} (h : key < hostKey) : portOf key = none := if_pos h

/-- A place that the memory map has, in the package, answers. -/
theorem needKey_run {s : State} {va : Option Nat} {key n : Nat} (h0 : keyExists key = true)
    (h1 : keyExists (key + n - 1) = true) (hk : key < hostKey) : (needKey va key n).run s = .ok () s := by
  unfold needKey
  rw [Op.run_bind_ok (Op.run_get s), h0, h1, portOf_eq_none hk]
  rfl

/-- No word is in error. -/
theorem checkSoft_run {s : State} {va : Option Nat} {key n : Nat} (h : s.soft = []) :
    (checkSoft va key n).run s = .ok () s := by
  unfold checkSoft
  rw [Op.run_bind_ok (Op.run_get s), h]
  rfl

/-- The bytes at a place that is sound. -/
theorem readKey_sound {s : State} {va : Option Nat} {key n : Nat} (h : sound s key n) :
    (readKey va key n).run s = .ok (s.mem.read key n) s := by
  obtain ⟨h0, h1, hk, hn, hs⟩ := h
  unfold readKey
  rw [Op.run_bind_ok (needKey_run h0 h1 hk), Op.run_bind_ok (checkSoft_run hs), Op.run_bind_ok (Op.run_get s), hn]
  rfl

/-- Without held writes a sequencer's own reads see memory as it stands. -/
theorem overlayHeld_nil (key : Nat) (bs : List Byte) : overlayHeld [] key bs = bs := by
  apply List.ext_getElem? 
  intro k
  by_cases hk : k < bs.length
  · simp [overlayHeld, hk]
  · simp [overlayHeld, hk]

/-- A read outside the cistern, without held writes. -/
theorem readFar_sound {s : State} {n va key len : Nat} (h : sound s key len) (hh : (s.seq n).held = []) :
    (readFar n va key len).run s = .ok (s.mem.read key len) s := by
  unfold readFar
  rw [Op.run_bind_ok (readKey_sound h), Op.run_bind_ok (Op.run_get s), hh, overlayHeld_nil]
  rfl

/-- The way to a place that an access reaches is open. -/
theorem needRoute_run {s : State} {d va : Nat} {p : Phys} (h : s.wayTo d p.key = .clear) :
    (needRoute d va p).run s = .ok () s := by
  unfold needRoute
  rw [Op.run_bind_ok (Op.run_get s), h]
  rfl

/-! ## Fetch (05 R103) -/

/-- A halfword outside the loop buffer is the one in memory. -/
theorem fetchHalf_run {s : State} {n a key entry : Nat} {leaf : Word} (hl : (s.seq n).lbuf = []) (hh : (s.seq n).held = [])
    (hm : mapped s n .fetch a ⟨key, leaf, entry⟩) (hs : sound s key 2) :
    (fetchHalf n a).run s = .ok (s.mem.num key 2) s := by
  have hway : s.wayTo (dieOf n) key = .clear := hm.1.2.2.2.1
  unfold fetchHalf
  rw [Op.run_bind_ok (Op.run_getSeq n s), hl]
  change ((xlateOp n (n / 16) (s.seq n).ctx a .fetch) >>= _).run s = _
  rw [Op.run_bind_ok (xlateOp_mapped hm)]
  change ((needRoute (dieOf n) a ⟨key, leaf, entry⟩) >>= _).run s = _
  rw [Op.run_bind_ok (needRoute_run hway), Op.run_bind_ok (readFar_sound hs hh)]
  rfl

/-- The numbers that two neighbouring ranges of bytes hold, put together. -/
theorem Mem.num_add (m : Mem) (a j k : Nat) : m.num a (j + k) = m.num a j + 256 ^ j * m.num (a + j) k := by
  induction j generalizing a with
  | zero => simp [Mem.num, Mem.read, ofBytes]
  | succ j ih =>
    have h := ih (a + 1)
    simp only [Mem.num] at h ⊢
    rw [show j + 1 + k = (j + k) + 1 by omega, Mem.read, Mem.read, ofBytes, ofBytes, h, 
      show a + 1 + j = a + (j + 1) by omega]
    ring

/-- The address of halfword k of an instruction below 2^48. -/
theorem halfword_toNat {pc : Word} {k : Nat} (h : pc.toNat + 2 * k < 2 ^ 48) :
    (pc + toWord (2 * k)).toNat = pc.toNat + 2 * k := by
  simp [toWord, BitVec.toNat_add]
  omega

/-- Halfwords k to k + fuel - 1 of an instruction, as memory holds them. -/
theorem fetchRest_run {s : State} {n key entry : Nat} {leaf : Word} {pc : Word} (hl : (s.seq n).lbuf = [])
    (hh : (s.seq n).held = []) (fuel k : Nat)
    (hm : ∀ j, k ≤ j → j < k + fuel → mapped s n .fetch (pc.toNat + 2 * j) ⟨key + 2 * j, leaf, entry⟩ ∧ sound s (key + 2 * j) 2) :
    (fetchRest n pc fuel k).run s = .ok (s.mem.num (key + 2 * k) (2 * fuel)) s := by
  induction fuel generalizing k with
  | zero => rfl
  | succ fuel ih =>
    obtain ⟨hk, hs⟩ := hm k (Nat.le_refl k) (by omega)
    have hva : pc.toNat + 2 * k < 2 ^ 48 := hk.1.1
    have first : (fetchHalf n (pc + toWord (2 * k)).toNat).run s = .ok (s.mem.num (key + 2 * k) 2) s := by
      rw [halfword_toNat hva]
      exact fetchHalf_run hl hh hk hs
    unfold fetchRest
    rw [Op.run_bind_ok first, Op.run_bind_ok (ih (k + 1) fun j h1 h2 => hm j (by omega) (by omega)),
      show 2 * (fuel + 1) = 2 + 2 * fuel by omega, Mem.num_add]
    rfl

/-- Outside loops the bits of an instruction that lies in one page are fetched, and nothing changes. -/
theorem fetchWord_run {s : State} {n key entry : Nat} {leaf : Word} (ho : (s.seq n).loops = []) (hl : (s.seq n).lbuf = [])
    (hh : (s.seq n).held = [])
    (hm : ∀ k, k < lenOf (s.mem.num key 2) →
      mapped s n .fetch ((s.seq n).pc.toNat + 2 * k) ⟨key + 2 * k, leaf, entry⟩ ∧ sound s (key + 2 * k) 2) :
    (fetchWord n).run s = .ok (s.mem.num key (2 * lenOf (s.mem.num key 2))) (s.modSeq n id) := by
  have hpos : 0 < lenOf (s.mem.num key 2) := by unfold lenOf; split_ifs <;> decide
  obtain ⟨h0, hs0⟩ := hm 0 hpos
  have first : (fetchHalf n (s.seq n).pc.toNat).run s = .ok (s.mem.num key 2) s := fetchHalf_run hl hh h0 hs0
  have rest := fetchRest_run hl hh (lenOf (s.mem.num key 2) - 1) 1 fun j h1 h2 => hm j (by omega)
  unfold fetchWord
  rw [Op.run_bind_ok (Op.run_getSeq n s), Op.run_bind_ok first, Op.run_bind_ok rest, Op.run_bind_ok (Op.run_modSeqOp _ _ _),
    show 2 * lenOf (s.mem.num key 2) = 2 + 2 * (lenOf (s.mem.num key 2) - 1) by omega, Mem.num_add]
  simp [State.modSeq, ho, heldLoops]

end Sys2Proof.Machine

namespace Sys2Proof.Proofs
open Sys2Proof.Machine Sys2Proof.Claim

/-- Settles O14: each move of the agenda by the lemma about its turn. -/
theorem stepFollowsAgenda : Obligations.StepFollowsAgenda := by
  unfold Obligations.StepFollowsAgenda
  intro s r
  refine ⟨fun n w i s' ha hw hb hf hd => ?_, fun n w e s' ha hw hb hf hd => ?_, fun n k ha hw hb => ?_,
    fun n ha hw hz => ?_, fun i ha hi => ?_, fun k ha hz => ?_⟩ <;> rw [step_of_agenda ha]
  · exact turn_decoded hw hb hf hd
  · exact turn_illegal hw hb hf hd
  · exact turn_bkpt hw hb
  · simp [act, turn_asleep (s := { s with agenda := r }) hw, State.idleTurn, hz]
  · simp [act, hi]
  · simp [act, elapse, hz]

/-- Settles O15: the turn of a sequencer whose instruction is fetched without an effect. -/
theorem stepRunsDecoded : Obligations.StepRunsDecoded := by
  unfold Obligations.StepRunsDecoded
  intro s r n key entry leaf i
  dsimp only
  intro ha hw hb ho hl hh hm hd
  have hf : (fetchWord n).run { s with agenda := r } =
      .ok (s.mem.num key (2 * lenOf (s.mem.num key 2))) (State.modSeq { s with agenda := r } n id) :=
    fetchWord_run (s := { s with agenda := r }) ho hl hh hm
  rw [step_of_agenda ha]
  exact turn_decoded (s := { s with agenda := r }) hw hb hf hd

end Sys2Proof.Proofs
end

section
/-!
SUPPORT. The issue of a vector instruction (02 R47; 08 R227): what a charge and the new entry leave as it was.
-/
namespace Sys2Proof.Machine
open Sys2Proof.Claim

/-! ## What a change of every sequencer leaves -/

/-- A table whose values are all changed gives the changed value. -/
theorem smapGet_map {α : Type} (f : α → α) (k : Nat) (l : List (Nat × α)) :
    smapGet k (l.map fun p => (p.1, f p.2)) = (smapGet k l).map f := by
  induction l with
  | nil => rfl
  | cons p r ih => by_cases h : p.1 = k <;> simp [smapGet, h, ih]

/-- A change of every sequencer that leaves a part of each alone leaves that part of each as it was. -/
theorem State.seq_mapped {α : Type} (part : Seq → α) {s t : State} {f : Seq → Seq}
    (ht : t.seqs = s.seqs.map fun p => (p.1, f p.2)) (hf : ∀ q, part (f q) = part q) (m : Nat) :
    part (t.seq m) = part (s.seq m) := by
  unfold State.seq
  rw [ht, smapGet_map]
  cases smapGet m s.seqs with
  | none => rfl
  | some q => exact hf q

/-- A register is read from the registers alone. -/
theorem Seq.getX_congr {p q : Seq} (h : p.x = q.x) (r : Reg) : p.getX r = q.getX r := by
  unfold Seq.getX
  rw [h]

/-! ## Charging a context (21 R494) -/

/-- A take request changes no register. -/
theorem requestTake_seq_x (s : State) (c cause m : Nat) : ((requestTake s c cause).seq m).x = (s.seq m).x := by
  unfold requestTake
  split
  · exact State.seq_mapped (f := fun q => if q.ctx = c && q.mode = .run then { q with take := some (cause, s.now) } else q)
      Seq.x rfl (fun q => by split <;> rfl) m
  · rfl

@[simp] theorem requestTake_mem (s : State) (c cause : Nat) : (requestTake s c cause).mem = s.mem := by
  unfold requestTake; split <;> rfl
@[simp] theorem requestTake_cur (s : State) (c cause : Nat) : (requestTake s c cause).cur = s.cur := by
  unfold requestTake; split <;> rfl

@[simp] theorem quotaStop_mem (s : State) (c : Nat) : (quotaStop s c).mem = s.mem := by
  unfold quotaStop
  split
  · rfl
  · exact requestTake_mem s c 0x11
@[simp] theorem quotaStop_cur (s : State) (c : Nat) : (quotaStop s c).cur = s.cur := by
  unfold quotaStop
  split
  · rfl
  · exact requestTake_cur s c 0x11

/-- A context that its quota stops keeps its registers. -/
theorem quotaStop_seq_x (s : State) (c m : Nat) : ((quotaStop s c).seq m).x = (s.seq m).x := by
  unfold quotaStop
  split
  · rfl
  · exact requestTake_seq_x s c 0x11 m

@[simp] theorem chargeCtx_mem (s : State) (c pj : Nat) : (chargeCtx s c pj).mem = s.mem := by
  unfold chargeCtx
  split
  · rfl
  · exact quotaStop_mem _ c
@[simp] theorem chargeCtx_cur (s : State) (c pj : Nat) : (chargeCtx s c pj).cur = s.cur := by
  unfold chargeCtx
  split
  · rfl
  · exact quotaStop_cur _ c

/-- A charge changes no register. -/
theorem chargeCtx_seq_x (s : State) (c pj m : Nat) : ((chargeCtx s c pj).seq m).x = (s.seq m).x := by
  unfold chargeCtx
  split
  · rfl
  · exact quotaStop_seq_x _ c m

/-! ## A vector instruction joins those in flight (02 R47; 01 R34) -/

/-- Every vector instruction but VWAIT and those of the tiles and pumps is issued by `vectorIssue` with its form. -/
theorem exec_of_elementwise {i : Instr} {f : VForm} (hf : vform i = some f) (he : elementwise i = true) (s : State) :
    exec i s = issue i (vectorIssue i f) s := by
  cases i
  case vwait | accin | drain | pcopy | pgath | pscat | prdc | pfill => exact absurd he Bool.false_ne_true
  all_goals cases hf
  all_goals rfl

@[simp] theorem Seq.setCld_x (q : Seq) (f : VForm) : (q.setCld f).x = q.x := by
  unfold Seq.setCld; split <;> rfl

/-- The entry is in flight, cld is written and the context is charged. -/
theorem joined_eq (i : Instr) (f : VForm) (s : State) :
    chargeCtx ((s.setSeq s.cur { s.seq s.cur with inflight := (s.seq s.cur).inflight ++
        [{ (s.seq s.cur).entryOf i f (sdestOf f) with waves := waveSize s s.cur }] }).modSeq s.cur (·.setCld f)) (s.seq s.cur).ctx
      (20 * f.op.weight (vtTy (s.seq s.cur).vtype) * quotaLines f ((s.seq s.cur).entryOf i f none)) = joined i f s := by
  rw [State.modSeq_setSeq]
  rfl

@[simp] theorem joined_mem (i : Instr) (f : VForm) (s : State) : (joined i f s).mem = s.mem := chargeCtx_mem _ _ _
@[simp] theorem joined_cur (i : Instr) (f : VForm) (s : State) : (joined i f s).cur = s.cur := chargeCtx_cur _ _ _

/-- The registers of the sequencer that issued the instruction are as before. -/
theorem xr_joined (i : Instr) (f : VForm) (s : State) (r : Reg) : xr (joined i f s) r = xr s r := by
  unfold xr
  rw [joined_cur]
  apply Seq.getX_congr
  exact (chargeCtx_seq_x _ _ _ _).trans (by rw [State.seq_setSeq, Seq.setCld_x])

/-- The body of a vector instruction. -/
theorem vectorIssue_run (i : Instr) (f : VForm) (s : State) :
    (vectorIssue i f s.cur).run s = .ok .next (joined i f s) := by
  rw [← joined_eq]
  rfl

/-- What a stopped move answers is kept. -/
theorem Op.run_attempt_ok {α : Type} {m : Op α} {s t : State} {a : α} (h : m.run s = .ok a t) :
    (attempt m).run s = .ok (.ok a) t := by
  change attempt m s = _
  unfold attempt
  rw [show m s = _ from h]

/-- With nothing in flight there is nothing to wait for. -/
theorem needDone_run {s : State} {n : Nat} (h : (s.seq n).inflight = []) : (needDone n).run s = .ok () s := by
  unfold needDone
  rw [Op.run_bind_ok (Op.run_getSeq n s), h]
  simp

/-- VWAIT whose first readings answer the values that it expects joins those in flight and sleeps with them (08 R227). -/
theorem vwaitIssue_run {i : Instr} {f : VForm} {s t : State} {ex : List (Nat × Nat)} (hq : (s.seq s.cur).inflight = [])
    (h : (vwaitStart ⟨s.cur, (s.seq s.cur).entryOf i f none, f, 0⟩ (s.seq s.cur).vl).run (joined i f s) = .ok ex t) :
    (vwaitIssue i f s.cur).run s = .ok .stay (t.modSeq s.cur fun q =>
      { q with sleep := some (.vwait s.pkg.tick.toNat ex (ex.map (·.1)) []) }) := by
  rw [← joined_eq] at h
  unfold vwaitIssue
  rw [Op.run_bind_ok (needDone_run hq), Op.run_bind_ok (Op.run_get s)]
  dsimp only
  rw [Op.run_bind_ok (show (enqueue i f s.cur).run s = .ok () _ from rfl), Op.run_bind_ok (Op.run_modify _ _),
    Op.run_bind_ok (Op.run_attempt_ok (show (vwaitStart _ ((s.seq s.cur).entryOf i f none).vl).run _ = _ from h))]
  rfl

/-- VWAIT that passes the gate with nothing in flight. -/
theorem exec_vwait_ready {rt : Reg} {v : VAB} {f : VForm} {s t : State} {ex : List (Nat × Nat)}
    (hf : vform (.vwait rt v) = some f) (hq : (s.seq s.cur).inflight = []) (hr : ready (.vwait rt v) s)
    (h : (vwaitStart ⟨s.cur, (s.seq s.cur).entryOf (.vwait rt v) f none, f, 0⟩ (s.seq s.cur).vl).run
      (joined (.vwait rt v) f s) = .ok ex t) :
    exec (.vwait rt v) s = .next (t.modSeq s.cur fun q =>
      { q with sleep := some (.vwait s.pkg.tick.toNat ex (ex.map (·.1)) []) }) := by
  cases hf
  rw [exec_vwait, execVwait, issue_ok hr (vwaitIssue_run hq h), State.modSeq_modSeq]
  rfl

end Sys2Proof.Machine

namespace Sys2Proof.Proofs
open Sys2Proof.Machine Sys2Proof.Claim

/-- Settles O39: the body of every vector instruction answers the state in which it has joined; VWAIT's start is run in that
state, and answers at once for no element. -/
theorem vectorIssue : Obligations.VectorIssue := by
  unfold Obligations.VectorIssue
  refine ⟨fun i f s hf he hr => ⟨?_, joined_mem i f s, xr_joined i f s⟩, fun rt v f s hf hq hr =>
    ⟨fun ex t h => exec_vwait_ready hf hq hr h, fun h0 => exec_vwait_ready hf hq hr (by rw [h0]; rfl)⟩⟩
  rw [exec_of_elementwise hf he, issue_ok hr (vectorIssue_run i f s)]
  unfold done
  rw [joined_cur]
  rfl

end Sys2Proof.Proofs
end

section
/-!
SUPPORT. The one instruction in flight: what lets a group move, how a group ends the instruction and the next wave begins
(spec/02_machine.md R48; spec/12_attention.md R325), and how a load arrives (spec/06_scalar.md R141).
-/
namespace Sys2Proof.Machine
open Sys2Proof.Claim

/-! ## The one instruction in flight (02 R48) -/

/-- No ISN comes before itself. -/
@[simp] theorem isnLt_self (a : BitVec 32) : isnLt a a = false := by
  simp [isnLt]

/-- The progress of the group that a change names. -/
theorem Entry.ctr_modG_same {e : Entry} {g : Nat} (f : GCtr → GCtr) (h : g < e.gs.length) :
    (e.modG g f).ctr g = f (e.ctr g) := by
  simp [Entry.ctr, Entry.modG, h]

/-- The progress of every other group. -/
theorem Entry.ctr_modG_other (e : Entry) {g j : Nat} (f : GCtr → GCtr) (h : j ≠ g) : (e.modG g f).ctr j = e.ctr j := by
  simp [Entry.ctr, Entry.modG, Ne.symm h]

/-- Every group has completed an entry when each of its counters says so. -/
theorem Entry.all_fin_iff (e : Entry) : e.gs.all (·.fin) = true ↔ ∀ k < e.gs.length, (e.ctr k).fin = true := by
  rw [List.all_eq_true, List.forall_mem_iff_forall_getElem]
  refine forall_congr' fun k => forall_congr' fun hk => ?_
  simp [Entry.ctr, hk]

/-- A change of the only entry in flight. -/
theorem Seq.modEntry_single {q : Seq} {e : Entry} (h : q.inflight = [e]) (f : Entry → Entry) :
    q.modEntry e.isn f = { q with inflight := [f e] } := by
  simp [Seq.modEntry, h, updFirst]

section Running
variable {s : State} {n g : Nat} {e : Entry} (hr : running s n g e)
include hr

theorem running_current : (s.seq n).current g = some e := by
  obtain ⟨-, -, hq, -, -, -, -, -, hf, -⟩ := hr
  simp [Seq.current, hq, hf]

theorem running_allDoneBelow : (s.seq n).allDoneBelow e.isn = true := by
  obtain ⟨-, -, hq, -⟩ := hr
  simp [Seq.allDoneBelow, hq]

theorem running_mayBegin : mayBegin (s.seq n) g e = true := by
  have hd := running_allDoneBelow hr
  obtain ⟨-, -, hq, -, -, -, -, hw, -⟩ := hr
  simp [mayBegin, hw, hd, Seq.low, hq]

theorem running_mayRun : mayRun (s.seq n) g e = true := by
  obtain ⟨-, -, -, ht, hp, -⟩ := hr
  simp [mayRun, Seq.trapIsn, ht, minBy, Seq.hardStop, hp]

/-- Nothing keeps the group from its instruction. -/
theorem running_go :
    ((s.seq n).mode != .run || g ≥ (s.seq n).g || !mayBegin (s.seq n) g e || !mayRun (s.seq n) g e) = false := by
  have hb := running_mayBegin hr
  have hm := running_mayRun hr
  obtain ⟨-, hq, -, -, -, -, hg, -⟩ := hr
  simp [hq, Seq.g, hg, hb, hm]

/-- One move of a group in a vector instruction other than VWAIT. -/
theorem groupMove_vector {f : VForm} {t : State} (hf : vform e.ins = some f) (hw : f.op ≠ .wait)
    (h : (vectorMove ⟨n, e, f, 0⟩ g).run s = .ok () t) : (groupMove n g).run s = .ok () (settle t n) := by
  unfold groupMove
  rw [Op.run_bind_ok (Op.run_getSeq n s), running_current hr]
  dsimp only
  rw [if_neg (by rw [running_go hr]; exact Bool.false_ne_true), hf]
  dsimp only
  split
  · exact absurd ‹f.op = .wait› hw
  · rw [Op.run_bind_ok h]
    rfl

/-- One move of a group in a scalar access in flight. -/
theorem groupMove_scalar {a : SAcc} {t : State} (hf : vform e.ins = none) (ha : smem e.ins = some a)
    (h : (scalarMove n g e a).run s = .ok () t) : (groupMove n g).run s = .ok () (settle t n) := by
  unfold groupMove
  rw [Op.run_bind_ok (Op.run_getSeq n s), running_current hr]
  dsimp only
  rw [if_neg (by rw [running_go hr]; exact Bool.false_ne_true), hf, ha]
  dsimp only
  rw [Op.run_bind_ok h]
  rfl

/-- A move of a group that answers is the event. -/
theorem tryGroup_ok {t : State} (h : (groupMove n g).run s = .ok () t) : tryGroup n g s = some (.next t) := by
  obtain ⟨hz, -⟩ := hr
  unfold tryGroup
  rw [hz, h]
  rfl

/-- The group of a vector instruction stands at no load. -/
theorem running_not_atLoad (hm : smem e.ins = none) : atLoad s n g = false := by
  unfold atLoad
  rw [running_current hr]
  dsimp only
  rw [hm]

/-- The group of a load stands at one. -/
theorem running_atLoad {a : SAcc} (hm : smem e.ins = some a) (ha : a.kind = .ld) : atLoad s n g = true := by
  unfold atLoad
  rw [running_current hr]
  dsimp only
  rw [hm]
  simp [ha]

end Running

/-! ## What leaves the sequencer (02 R48) -/

/-- The command of an instruction in an engine's queue is no copy of a pump. -/
theorem State.copyHome_modCmd (s : State) (n : Nat) (isn : BitVec 32) (f : MCmd → MCmd) (id : Nat) :
    (s.modCmd n isn f).copyHome id = s.copyHome id := by
  unfold State.copyHome State.modCmd
  rw [Vector.toList_map, List.findSome?_map]
  rfl

/-- An instruction that has no copy of a pump. -/
theorem State.modCopy_of_no_copy {s : State} {n : Nat} {isn : BitVec 32} (f : Copy → Copy)
    (h : s.copyHome (copyId (s.seq n).runId isn) = none) : s.modCopy n isn f = s := by
  unfold State.modCopy
  dsimp only
  rw [h]

/-- An instruction without a copy of a pump ends with its engine's command, if any. -/
theorem finishWork_of_no_copy {s : State} {n : Nat} {isn : BitVec 32}
    (h : s.copyHome (copyId (s.seq n).runId isn) = none) :
    finishWork s n isn = s.modCmd n isn fun m => { m with issued := true } := by
  have hc : (s.modCmd n isn fun m => { m with issued := true }).copyHome
      (copyId ((s.modCmd n isn fun m => { m with issued := true }).seq n).runId isn) = none :=
    (State.copyHome_modCmd ..).trans h
  unfold finishWork
  dsimp only
  rw [State.modCopy_of_no_copy _ hc, hc]

@[simp] theorem State.modCmd_mem (s : State) (n : Nat) (isn : BitVec 32) (f : MCmd → MCmd) :
    (s.modCmd n isn f).mem = s.mem := rfl
@[simp] theorem State.modCmd_seq (s : State) (n : Nat) (isn : BitVec 32) (f : MCmd → MCmd) (m : Nat) :
    (s.modCmd n isn f).seq m = s.seq m := rfl

/-- The one entry in flight leaves when every group has completed it; memory, and of the sequencer all but what the low-water
ISN frees, is as before. -/
theorem settle_single {s : State} {n : Nat} {e : Entry} (hq : (s.seq n).inflight = [e])
    (hc : s.copyHome (copyId (s.seq n).runId e.isn) = none) :
    (settle s n).mem = s.mem ∧
      (settle s n).seq n = ({ s.seq n with inflight := if e.gs.all (·.fin) then [] else [e] } : Seq).prune := by
  unfold settle
  rw [hq]
  cases hf : e.gs.all (·.fin) with
  | false => simp [hf, hq]
  | true => simp [hf, hq, finishWork_of_no_copy hc]

/-! ## Moves in steps -/

/-- The branch of a move whose condition holds. -/
theorem Op.run_if_pos {α : Type} {c : Prop} [Decidable c] {m m' : Op α} {s : State} (h : c) :
    (if c then m else m').run s = m.run s := by
  rw [if_pos h]

/-- The branch of a move whose condition does not hold. -/
theorem Op.run_if_neg {α : Type} {c : Prop} [Decidable c] {m m' : Op α} {s : State} (h : ¬c) :
    (if c then m else m').run s = m'.run s := by
  rw [if_neg h]

/-- A move that is made under a condition and changes nothing, before the rest. -/
theorem Op.run_when {α : Type} {c : Prop} [Decidable c] {m : Op Unit} {k : Unit → Op α} {s : State}
    (h : c → m.run s = .ok () s) : (if c then m >>= k else k ()).run s = (k ()).run s := by
  split
  · exact Op.run_bind_ok (h ‹c›)
  · rfl

/-- Without held writes a drain point does nothing. -/
theorem drainNow_run {s : State} {n : Nat} (h : (s.seq n).held = []) : (drainNow n).run s = .ok () s := by
  have hw : s.drainWaits n = false := by rw [State.drainWaits, h]; rfl
  have hd : drainHeld n s = s := by rw [drainHeld, h]; rfl
  have hn : (needDrain n).run s = .ok () s := by
    unfold needDrain
    rw [Op.run_bind_ok (Op.run_get s), hw]
    rfl
  unfold drainNow
  rw [Op.run_bind_ok hn, Op.run_modify, hd]

/-- The entry of an instruction that group g has completed. -/
def Entry.ended (e : Entry) (g : Nat) : Entry := e.modG g fun c => { c with next := e.vl, fin := true }

/-- A group completes the one entry in flight. -/
theorem setFin_run {s : State} {n : Nat} {e : Entry} (g : Nat) (hq : (s.seq n).inflight = [e]) :
    (setFin n g e.isn).run s = .ok () (s.setSeq n { s.seq n with inflight := [e.ended g] }) := by
  unfold setFin
  rw [Op.run_modSeqOp]
  unfold State.modSeq
  beta_reduce
  rw [Seq.modEntry_single hq]
  rfl

/-- A group that stands past the last element owns no further one. -/
theorem nextOwned_run {s : State} {x : ECx} {i : Nat} (g len : Nat) (h : x.e.vl ≤ i) :
    (nextOwned x g len (x.e.vl + 1) i).run s = .ok none s := by
  unfold nextOwned
  rw [if_pos h]
  rfl

/-- The sequencer that executes an entry, as a move sees it. -/
@[simp] theorem ECx.run_seq (x : ECx) (s : State) : x.seq.run s = .ok (s.seq x.n) s := rfl

/-! ## Forms -/

/-- A vector instruction is no scalar access. -/
theorem smem_of_vform {i : Instr} {f : VForm} (h : vform i = some f) : smem i = none := by
  cases i
  all_goals cases h
  all_goals rfl

/-- A scalar access is no vector instruction. -/
theorem vform_of_smem {i : Instr} {a : SAcc} (h : smem i = some a) : vform i = none := by
  cases i
  all_goals cases h
  all_goals rfl

/-- A load is of eight bytes and carries no ordering code. -/
theorem smem_ld {i : Instr} {a : SAcc} (h : smem i = some a) (hk : a.kind = .ld) : a.size = 8 ∧ a.ord = .none := by
  cases i
  case st | ldfe | amo | amocas | cSt => cases h; cases hk
  all_goals cases h
  all_goals exact ⟨rfl, rfl⟩

section Running
variable {s : State} {n g : Nat} {e : Entry} {f : VForm} (hr : running s n g e)
include hr

/-- A group with no element left completes an instruction that does not combine elements. -/
theorem vectorMove_done (hh : (s.seq n).held = []) (hc : f.op.combines = false) (hl : e.vl ≤ (e.ctr g).next) :
    (vectorMove ⟨n, e, f, 0⟩ g).run s = .ok () (s.setSeq n { s.seq n with inflight := [e.ended g] }) := by
  obtain ⟨-, -, hq, -, -, -, -, -, -, ho⟩ := hr
  have late : lateElem (s.seq n) ⟨n, e, f, 0⟩ g = none := by simp [lateElem, ho]
  have here : ((s.seq n).inflight.find? fun l => l.isn == e.isn).getD e = e := by simp [hq]
  have done : (groupEnd ⟨n, e, f, 0⟩ g).run s = .ok () (s.setSeq n { s.seq n with inflight := [e.ended g] }) := by
    unfold groupEnd
    rw [if_pos (by simp [ho])]
    exact setFin_run g hq
  unfold vectorMove
  refine (Op.run_bind_ok (ECx.run_seq _ s)).trans ?_
  refine (Op.run_when fun _ => drainNow_run hh).trans ?_
  refine (Op.run_if_neg (by simp [hc])).trans ?_
  refine (Op.run_bind_ok (ECx.run_seq _ s)).trans ?_
  rw [late]
  refine (Op.run_bind_ok (nextOwned_run (x := ⟨n, e, f, 0⟩) g _ hl)).trans ?_
  refine (Op.run_bind_ok (ECx.run_seq _ s)).trans ?_
  rw [here]
  exact (Op.run_if_pos (by simp [hc])).trans done

/-- A group with no element left completes the instruction, which leaves when every group has (02 R48). -/
theorem elementExecute_done (hf : vform e.ins = some f) (hw : f.op ≠ .wait) (hc : f.op.combines = false)
    (hh : (s.seq n).held = []) (hl : e.vl ≤ (e.ctr g).next) :
    exec (.elementExecute n g) s = .next (settle (s.setSeq n { s.seq n with inflight := [e.ended g] }) n) := by
  have hm : smem e.ins = none := smem_of_vform hf
  rw [exec_elementExecute, execElementExecute, tryElementExecute, running_not_atLoad hr hm,
    if_neg Bool.false_ne_true, tryGroup_ok hr (groupMove_vector hr hf hw (vectorMove_done hr hh hc hl))]
  rfl

end Running

/-- A vector form whose elements are moves of the groups. -/
theorem elementwise_form {i : Instr} (h : elementwise i = true) : ∃ f, vform i = some f ∧ f.op ≠ .wait := by
  unfold elementwise at h
  split at h
  · refine ⟨_, ‹_›, fun hw => ?_⟩
    rw [hw] at h
    exact absurd h Bool.false_ne_true
  · exact absurd h Bool.false_ne_true

/-- The progress of the group that has completed it. -/
theorem Entry.ctr_ended_same {e : Entry} {g : Nat} (h : g < e.gs.length) : ((e.ended g).ctr g).fin = true := by
  rw [Entry.ended, Entry.ctr_modG_same _ h]

/-- The progress of every other group. -/
theorem Entry.ctr_ended_other (e : Entry) {g j : Nat} (h : j ≠ g) : (e.ended g).ctr j = e.ctr j :=
  Entry.ctr_modG_other e _ h

/-- The entry keeps its number of groups. -/
@[simp] theorem Entry.ended_gs_length (e : Entry) (g : Nat) : (e.ended g).gs.length = e.gs.length :=
  List.length_modify ..

/-- What `settle_single` says of a state in which a move has changed the one entry in flight. -/
theorem settle_setSeq_single {s : State} {n : Nat} {q : Seq} {e : Entry} (hq : q.inflight = [e])
    (hc : s.copyHome (copyId q.runId e.isn) = none) :
    (settle (s.setSeq n q) n).mem = s.mem ∧
      (settle (s.setSeq n q) n).seq n = ({ q with inflight := if e.gs.all (·.fin) then [] else [e] } : Seq).prune := by
  have hs : (s.setSeq n q).seq n = q := State.seq_setSeq s n q
  have h := settle_single (s := s.setSeq n q) (n := n) (e := e) (by rw [hs]; exact hq) (by rw [hs]; exact hc)
  rw [hs] at h
  exact h

/-- When one group has completed an instruction, the others decide whether it leaves. -/
theorem Entry.all_fin_ended {e : Entry} {g : Nat} (hg : g < e.gs.length) :
    (e.ended g).gs.all (·.fin) = true ↔ ∀ k < e.gs.length, k ≠ g → (e.ctr k).fin = true := by
  rw [Entry.all_fin_iff, Entry.ended_gs_length]
  refine forall_congr' fun k => forall_congr' fun _ => ?_
  by_cases hk : k = g
  · subst hk
    simp [Entry.ctr_ended_same hg]
  · simp [Entry.ctr_ended_other e hk, hk]

/-- A group with no element left: what stands after the move (02 R48). -/
theorem elementExecute_ends {s : State} {n g : Nat} {e : Entry} (hr : running s n g e)
    (hc : s.copyHome (copyId (s.seq n).runId e.isn) = none) (hh : (s.seq n).held = []) (he : elementwise e.ins = true)
    (hn : ∀ f, vform e.ins = some f → f.op.combines = false) (hl : e.vl ≤ (e.ctr g).next) :
    ∃ u, exec (.elementExecute n g) s = .next u ∧ u.mem = s.mem ∧ (∀ r, (u.seq n).getX r = (s.seq n).getX r) ∧
      ((∀ k, k < (s.seq n).groups.length → k ≠ g → (e.ctr k).fin = true) → (u.seq n).inflight = []) ∧
      (∀ k, k < (s.seq n).groups.length → k ≠ g → (e.ctr k).fin = false → ∃ e', (u.seq n).inflight = [e'] ∧
        (e'.ctr g).fin = true ∧ ∀ j, j < (s.seq n).groups.length → j ≠ g → e'.ctr j = e.ctr j) := by
  obtain ⟨f, hf, hw⟩ := elementwise_form he
  have hx := elementExecute_done hr hf hw (hn f hf) hh hl
  obtain ⟨-, -, -, -, -, hlen, hg, -⟩ := hr
  rw [← hlen] at hg ⊢
  obtain ⟨hmem, hseq⟩ := settle_setSeq_single (s := s) (n := n)
    (q := { s.seq n with inflight := [e.ended g] }) rfl hc
  refine ⟨_, hx, hmem, fun r => ?_, fun hall => ?_, fun k hk hkg hkf => ?_⟩
  · rw [hseq]
    rfl
  · rw [hseq, if_pos ((Entry.all_fin_ended hg).2 hall)]
    rfl
  · have hnot : ¬(e.ended g).gs.all (·.fin) = true := fun h => by
      rw [(Entry.all_fin_ended hg).1 h k hk hkg] at hkf
      exact absurd hkf.symm Bool.false_ne_true
    refine ⟨e.ended g, ?_, Entry.ctr_ended_same hg, fun j _ hj => Entry.ctr_ended_other e hj⟩
    rw [hseq, if_neg hnot]
    rfl

/-- The next wave of the one instruction in flight begins when every group of the last has completed it (12 R325). -/
theorem bankWave_next {s : State} {n : Nat} {e : Entry} (hz : s.pkg.frozen = false) (hq : (s.seq n).inflight = [e])
    (hlen : e.gs.length = (s.seq n).groups.length) (hw : e.waves < (s.seq n).groups.length)
    (hf : (e.gs.take e.waves).all (·.fin) = true) :
    exec (.bankWave n) s = .next (s.modSeq n fun q => { q with
      inflight := [{ e with waves := min q.groups.length (e.waves + waveSize s n) }] }) := by
  have through : (List.range e.waves).all (waveThrough s n e) = true := by
    refine List.all_eq_true.2 fun g hg => ?_
    have hgw : g < e.waves := List.mem_range.1 hg
    have hgl : g < e.gs.length := by omega
    have fin : (e.gs[g]).fin = true :=
      List.all_eq_true.1 hf _ (List.mem_iff_getElem.2 ⟨g, by simp; omega, List.getElem_take⟩)
    simp [waveThrough, Entry.ctr, hgl, fin]
  have due : waveDue s n = some e := by
    simp [waveDue, hq, Seq.g, hw, through]
  rw [exec_bankWave, execBankWave, tryBankWave, hz, due]
  unfold State.modSeq
  simp only [Option.map_some, Bool.false_eq_true, if_false, occurs, Seq.modEntry_single hq, Seq.g]

/-! ## A load arrives (06 R141) -/

/-- A move of a group without a trap goes on. -/
theorem orTrap_ok {n g i : Nat} {isn : BitVec 32} {m after : Op Unit} {s t : State} (h : m.run s = .ok () t) :
    (orTrap n g isn i m after).run s = after.run t := by
  unfold orTrap
  rw [Op.run_bind_ok (Op.run_attempt_ok h)]

/-- No landing on an SO page is due for the thread. -/
theorem soLandingDue_false {s : State} (h : ∀ l, l ∈ s.landings → l.so = false) (n : Nat) (isn : BitVec 32) :
    soLandingDue s n isn = false :=
  List.any_eq_false.2 fun l hl => by simp [h l hl]

/-- A place outside the cistern is no place of the window. -/
theorem tier_ne_zero {p : Phys} (h : p.tier = 1 ∨ p.tier = 2) : p.tier ≠ 0 := by
  omega

section Only
variable {s : State} {n : Nat} {e : Entry} (hq : (s.seq n).inflight = [e])
include hq

/-- The one instruction in flight follows none. -/
theorem scalarOrder_only : (scalarOrder n e.isn .none).run s = .ok () s := by
  unfold scalarOrder
  refine (Op.run_bind_ok (Op.run_get s)).trans ?_
  refine (Op.run_if_neg (by simp [hq])).trans ?_
  exact Op.run_if_neg (by simp [ordRel])

/-- An access outside the window waits for no lower access and no landing. -/
theorem scalarFar_only (hl : ∀ l, l ∈ s.landings → l.so = false) (key len kind : Nat) :
    (scalarFar n e.isn key len kind).run s = .ok () s := by
  unfold scalarFar
  refine (Op.run_bind_ok (Op.run_get s)).trans ?_
  refine (Op.run_if_neg (by simp [hq])).trans ?_
  exact Op.run_if_neg (by simp [soLandingDue_false hl])

end Only

/-- A load's bytes in main memory or the well. -/
theorem scalarRead_ld {s : State} {n va key len tier : Nat} {isn : BitVec 32} (ht : tier = 1 ∨ tier = 2)
    (h : sound s key len) (hh : (s.seq n).held = []) :
    (scalarRead n isn .ld va key len tier).run s = .ok (s.mem.read key len) s := by
  unfold scalarRead
  refine (Op.run_bind_ok (Op.run_getSeq n s)).trans ?_
  refine (Op.run_if_neg (by omega)).trans ?_
  refine (Op.run_bind_ok (readFar_sound h hh)).trans ?_
  exact Op.run_if_neg (by simp only [Bool.and_eq_true, decide_eq_true_eq]; omega)

/-- The value of a load in flight. -/
theorem scalarDo_ld {s : State} {n g : Nat} {e : Entry} {a : SAcc} {p : Phys} (hr : running s n g e)
    (hl : ∀ l, l ∈ s.landings → l.so = false) (hh : (s.seq n).held = []) (hk : a.kind = .ld) (hs : a.size = 8)
    (ho : a.ord = .none) (ht : p.tier = 1 ∨ p.tier = 2) (h : sound s p.key 8) (va : Nat) (xd xb : Word) :
    (scalarDo n e.isn a va p xd xb).run s = .ok (BitVec.ofNat 64 (s.mem.num p.key 8)) s := by
  obtain ⟨-, hm, hq, -⟩ := hr
  have h0 := tier_ne_zero ht
  have result (v : Nat) : a.result v = BitVec.ofNat 64 v := by simp [SAcc.result, hs, toWord]
  unfold scalarDo
  rw [ho, hk, hs]
  refine (Op.run_bind_ok (Op.run_getSeq n s)).trans ?_
  refine (Op.run_if_pos (by simp [hm])).trans ?_
  refine (Op.run_bind_ok (scalarOrder_only hq)).trans ?_
  refine (Op.run_if_neg (by simp [h0])).trans ?_
  refine (Op.run_if_pos (by simp [h0])).trans ?_
  refine (Op.run_bind_ok (scalarFar_only hq hl ..)).trans ?_
  refine (Op.run_if_neg (by simp [ordRel])).trans ?_
  refine (Op.run_bind_ok (scalarRead_ld ht h hh)).trans ?_
  rw [result]
  rfl

/-- The sequencer when the load that was in flight has written v to xd. -/
def Seq.loaded (q : Seq) (e : Entry) (r : Reg) (v : Word) : Seq := { q.setX r v with inflight := [e.ended 0] }

/-- It has v in xd, and every other register as before. -/
theorem Seq.getX_loaded (q : Seq) (e : Entry) (d : Reg) (v : Word) (r : Reg) :
    (q.loaded e d v).getX r = if r = d ∧ r ≠ 0 then v else q.getX r := by
  rw [Seq.getX_congr (show (q.loaded e d v).x = (q.setX d v).x from rfl)]
  split
  · obtain ⟨rfl, h0⟩ := ‹r = d ∧ r ≠ 0›
    exact Seq.getX_setX_same _ _ _ h0
  · by_cases hd : r = d
    · obtain rfl : d = 0 := by_contra fun h0 => ‹¬(r = d ∧ r ≠ 0)› ⟨hd, hd ▸ h0⟩
      rw [Seq.setX_zero]
    · exact Seq.getX_setX_other _ _ _ _ hd

/-- The move that completes a load: its value in xd, and the one group's progress. -/
theorem scalarMove_ld {s : State} {n l : Nat} {e : Entry} {a : SAcc} {p : Phys} (hr : running s n 0 e)
    (hl : ∀ l, l ∈ s.landings → l.so = false) (hh : (s.seq n).held = []) (ha : smem e.ins = some a) (hk : a.kind = .ld)
    (hp : e.pulled = [(l, p.key, p.leaf.toNat)]) (ht : p.tier = 1 ∨ p.tier = 2) (h : sound s p.key 8) :
    (scalarMove n 0 e a).run s = .ok () (s.setSeq n
      ((s.seq n).loaded e a.rd (BitVec.ofNat 64 (s.mem.num p.key 8)))) := by
  obtain ⟨hs, ho⟩ := smem_ld ha hk
  have phys : e.scalarPhys = some { p with entry := 0 } := by simp [Entry.scalarPhys, hp, toWord]
  have h0 : ({ p with entry := 0 } : Phys).tier ≠ 0 := tier_ne_zero ht
  have hv (va : Nat) (xd xb : Word) := scalarDo_ld (p := { p with entry := 0 }) hr hl hh hk hs ho ht h va xd xb
  obtain ⟨-, -, hq, -⟩ := hr
  unfold scalarMove
  refine (Op.run_bind_ok (Op.run_getSeq n s)).trans ?_
  rw [phys]
  dsimp only
  refine (Op.run_if_neg (by simp [h0])).trans ?_
  refine (orTrap_ok (t := s.setX n a.rd (BitVec.ofNat 64 (s.mem.num p.key 8))) ?_).trans ?_
  · refine (Op.run_bind_ok (hv ..)).trans ?_
    exact Op.run_if_pos (by simp [hk, SKind.loads])
  · rw [setFin_run 0 (by rw [State.setX, State.seq_setSeq, Seq.setX_inflight]; exact hq)]
    simp [State.setX, Seq.loaded]

/-- A load in flight completes with the word in xd, which alone changes (06 R141). -/
theorem loadComplete_ends {s : State} {n l : Nat} {e : Entry} {a : SAcc} {p : Phys} (hr : running s n 0 e)
    (hc : s.copyHome (copyId (s.seq n).runId e.isn) = none)
    (hl : ∀ l, l ∈ s.landings → l.so = false) (hh : (s.seq n).held = []) (ha : smem e.ins = some a) (hk : a.kind = .ld)
    (hp : e.pulled = [(l, p.key, p.leaf.toNat)]) (ht : p.tier = 1 ∨ p.tier = 2) (h : sound s p.key 8) :
    ∃ u, exec (.loadComplete n 0) s = .next u ∧ u.mem = s.mem ∧ (u.seq n).pc = (s.seq n).pc ∧
      ∀ r, (u.seq n).getX r =
        if r = a.rd ∧ r ≠ 0 then BitVec.ofNat 64 (s.mem.num p.key 8) else (s.seq n).getX r := by
  have hx := tryGroup_ok hr (groupMove_scalar hr (vform_of_smem ha) ha (scalarMove_ld hr hl hh ha hk hp ht h))
  obtain ⟨hmem, hseq⟩ := settle_setSeq_single (s := s) (n := n) (e := e.ended 0)
    (q := (s.seq n).loaded e a.rd (BitVec.ofNat 64 (s.mem.num p.key 8))) rfl
    (by rw [Seq.loaded, Seq.setX_runId]; exact hc)
  refine ⟨_, ?_, hmem, ?_, fun r => ?_⟩
  · rw [exec_loadComplete, execLoadComplete, tryLoadComplete, if_pos (running_atLoad hr ha hk), hx]
    rfl
  · rw [hseq]
    exact Seq.setX_pc ..
  · rw [hseq]
    exact Seq.getX_loaded _ e ..

end Sys2Proof.Machine
end

section
/-!
SUPPORT. A sleeping VWAIT: the reading of one flag, and the end (spec/08_vector_memory.md R212, R227).
-/
namespace Sys2Proof.Machine
open Sys2Proof.Claim

/-! ## A sleeping VWAIT (08 R227) -/

/-- The form of VWAIT: A is a vector operand with a policy. -/
theorem vform_vwait (rt : Reg) (v : VAB) :
    vform (.vwait rt v) = some { formVAB .wait v with c := some (.spec (.scal rt) false) } := rfl

/-- One move of a sleeping VWAIT that answers is the event. -/
theorem exec_vwaitWake_ok {s t : State} {n start : Nat} {e : Entry} {f : VForm} {expect : List (Nat × Nat)}
    {unmet mask : List Nat} (hz : s.pkg.frozen = false) (hq : (s.seq n).inflight = [e]) (hf : vform e.ins = some f)
    (hs : (s.seq n).sleep = some (.vwait start expect unmet mask))
    (h : (vwaitMove ⟨n, e, f, 0⟩ start expect unmet mask).run s = .ok () t) : exec (.vwaitWake n) s = .next t := by
  rw [exec_vwaitWake, execVwaitWake, tryVwaitWake, hs, hq]
  dsimp only
  rw [hf]
  dsimp only
  rw [hz, if_neg Bool.false_ne_true, h]
  rfl

/-- A reading that changes what is unmet leaves the sequencer asleep. -/
theorem vwaitMove_read {s t : State} {x : ECx} {start : Nat} {expect : List (Nat × Nat)} {unmet u mask : List Nat}
    (hg : (s.seq x.n).logged = 0) (h : (flagsUnmet x expect unmet).run s = .ok u t) (hu : u ≠ unmet) :
    (vwaitMove x start expect unmet mask).run s = .ok () (t.modSeq x.n fun q =>
      { q with sleep := some (.vwait start expect u mask) }) := by
  unfold vwaitMove
  refine (Op.run_bind_ok (Op.run_get s)).trans ?_
  refine (Op.run_if_neg (by simp [hg])).trans ?_
  refine (Op.run_bind_ok h).trans ?_
  exact Op.run_if_pos (by simpa using hu)

/-- With nothing unmet VWAIT ends, outside record and replay. -/
theorem vwaitMove_met {s : State} {x : ECx} {start : Nat} {expect : List (Nat × Nat)} {mask : List Nat}
    (hg : (s.seq x.n).logged = 0) (hl : logMode s (s.seq x.n).ctx = 0) :
    (vwaitMove x start expect [] mask).run s = (vwaitEnd x expect []).run s := by
  unfold vwaitMove
  refine (Op.run_bind_ok (Op.run_get s)).trans ?_
  refine (Op.run_if_neg (by simp [hg])).trans ?_
  refine (Op.run_bind_ok (show (flagsUnmet x expect []).run s = .ok [] s from rfl)).trans ?_
  refine (Op.run_if_neg (by simp)).trans ?_
  refine (Op.run_if_neg (by simp [hl])).trans ?_
  refine (Op.run_if_neg (by simp)).trans ?_
  exact Op.run_if_neg (by simp [hl])

/-- VWAIT of no element writes no mask. -/
theorem vwaitEnd_empty {s : State} {x : ECx} (h : x.e.vl = 0) :
    (vwaitEnd x [] []).run s = .ok () (s.modSeq x.n fun q => ({ q with inflight := [] }.leaveVwait x.e).prune) := by
  unfold vwaitEnd
  rw [h]
  split <;> rfl

/-- A VWAIT that has not been dispatched again takes its ISN as it ends, and issue goes on behind it. -/
theorem Seq.leaveVwait_eq {q : Seq} {e : Entry} (hm : q.mode = .run) (hi : e.isn = q.isn) :
    q.leaveVwait e = ({ q with sleep := none, isn := q.isn + 1 } : Seq).arrive (q.after e.ins) := by
  rw [Seq.leaveVwait, if_pos hi.symm, Seq.retire]
  dsimp only
  rw [if_neg (by simp [hm])]
  rfl

/-- VWAIT is three halfwords. -/
theorem Seq.after_vwait (q : Seq) (rt : Reg) (v : VAB) : q.after (.vwait rt v) = q.pc + 6 := rfl

/-- Outside loops issue goes on at the address. -/
theorem Seq.arrive_pc {q : Seq} (h : q.loops = []) (a : Word) : (q.arrive a).pc = a := by
  rw [Seq.arrive, h]
  rfl

/-- VWAIT of no element completes. -/
theorem vwaitWake_ends {s : State} {n g start : Nat} {e : Entry} {f : VForm} {mask : List Nat}
    (hr : running s n g e) (hf : vform e.ins = some f) (hs : (s.seq n).sleep = some (.vwait start [] [] mask))
    (hg : (s.seq n).logged = 0) (hl : logMode s (s.seq n).ctx = 0) (hv : e.vl = 0) :
    exec (.vwaitWake n) s = .next (s.modSeq n fun q => ({ q with inflight := [] }.leaveVwait e).prune) := by
  obtain ⟨hz, -, hq, -⟩ := hr
  refine exec_vwaitWake_ok hz hq hf hs ?_
  refine (vwaitMove_met (x := ⟨n, e, f, 0⟩) hg hl).trans ?_
  exact vwaitEnd_empty (x := ⟨n, e, f, 0⟩) hv

/-- What stands after it: issue goes on behind VWAIT, and memory is as before. -/
theorem vwaitWake_goes_on {s : State} {n g start : Nat} {e : Entry} {rt : Reg} {v : VAB} {mask : List Nat}
    (hr : running s n g e) (hi : e.ins = .vwait rt v) (hs : (s.seq n).sleep = some (.vwait start [] [] mask))
    (hg : (s.seq n).logged = 0) (hl : logMode s (s.seq n).ctx = 0) (hv : e.vl = 0) (hn : e.isn = (s.seq n).isn) :
    ∃ u, exec (.vwaitWake n) s = .next u ∧ u.mem = s.mem ∧ (u.seq n).inflight = [] ∧ (u.seq n).sleep = none ∧
      (u.seq n).isn = (s.seq n).isn + 1 ∧ ((s.seq n).loops = [] → (u.seq n).pc = (s.seq n).pc + 6) := by
  refine ⟨_, vwaitWake_ends hr (hi ▸ vform_vwait rt v) hs hg hl hv, rfl, ?_⟩
  obtain ⟨-, hm, -⟩ := hr
  rw [State.seq_modSeq, Seq.leaveVwait_eq (q := { s.seq n with inflight := [] }) hm hn, hi, Seq.after_vwait]
  exact ⟨rfl, rfl, rfl, fun ho => Seq.arrive_pc (q := { s.seq n with inflight := [], sleep := none, isn := _ }) ho _⟩

/-! ## Moves over one operand -/

/-- A loop over one thing. -/
theorem Op.run_forIn_single {α : Type} {f : α → PUnit → Op (ForInStep PUnit)} {a : α} {s t : State}
    (h : (f a ⟨⟩).run s = .ok (.yield ⟨⟩) t) : (forIn [a] PUnit.unit f).run s = .ok ⟨⟩ t := by
  rw [List.forIn_cons, Op.run_bind_ok h]
  rfl

/-- A move for one thing. -/
theorem Op.run_mapM_single {α β : Type} {f : α → Op β} {a : α} {b : β} {s t : State}
    (h : (f a).run s = .ok b t) : ([a].mapM f).run s = .ok [b] t := by
  rw [List.mapM_cons, Op.run_bind_ok h, List.mapM_nil]
  rfl

/-! ## The place of an element of an integer type in mode 00 (08 R210) -/

/-- The address is the base plus i elements, modulo 2^64. -/
theorem Opd.at_unit_int {o : Opd} {ra : Reg} (ho : o.spec = .unit ra) (w : Nat) (sg : Bool) (i : Nat) (ix : Int) :
    (o.at (.int w sg) i ix).toNat = (o.base.toNat + i * w) % 2 ^ 64 := by
  simp [Opd.at, ho, ETy.field, ETy.size, toWord]

/-- An operand in mode 00 is no scalar. -/
theorem Opd.isScal_unit {o : Opd} {ra : Reg} (ho : o.spec = .unit ra) : o.isScal = false := by
  rw [Opd.isScal, ho]

/-- It has no index vector. -/
theorem Opd.isIdx_unit {o : Opd} {ra : Reg} (ho : o.spec = .unit ra) : o.isIdx = false := by
  rw [Opd.isIdx, ho]

/-- An aligned address raises nothing. -/
theorem needAligned_int {w a : Nat} {sg : Bool} {s : State} (h : a % w = 0) :
    (needAligned (.int w sg) a).run s = .ok () s := by
  unfold needAligned
  split
  · rfl
  · exact Op.run_if_neg (by simp [ETy.size, h])

/-- Without operands in mode 10 no index entry is read. -/
theorem indexesBy_nil (pull : Pull) (x : ECx) (s : State) : (indexesBy pull x []).run s = .ok [] s := rfl

/-- The span of one element of an operand in mode 00. -/
theorem resolve_unit_int {x : ECx} {o : Opd} {ra : Reg} {w va i : Nat} {sg : Bool} {s : State} (ho : o.spec = .unit ra)
    (hva : va = (o.base.toNat + i * w) % 2 ^ 64) (ha : va % w = 0) :
    (resolve x [(o, .int w sg, i)]).run s = .ok ([[(va, w)]], none) s := by
  have hs := Opd.isScal_unit ho
  have hi := Opd.isIdx_unit ho
  have hat (ix : Int) : (o.at (.int w sg) i ix).toNat = va := (Opd.at_unit_int ho w sg i ix).trans hva.symm
  unfold resolve
  refine (Op.run_bind_ok (Op.run_forIn_single (t := s) ?_)).trans ?_
  · refine (Op.run_if_pos (by rw [hs, hi]; rfl)).trans ?_
    rw [hat, Op.run_bind_ok (needAligned_int ha)]
    rfl
  rw [List.filter_cons_of_neg (by rw [hi]; exact Bool.false_ne_true)]
  refine (Op.run_bind_ok (indexesBy_nil ..)).trans ?_
  have spread : spreadIx [(o, ETy.int w sg, i)] [] = [0] := by rw [spreadIx, if_neg (by simp [hi])]; rfl
  dsimp only
  rw [spread]
  refine (Op.run_bind_ok (Op.run_forIn_single (t := s) ?_)).trans ?_
  · refine (Op.run_if_neg (by rw [hi]; exact Bool.false_ne_true)).trans ?_
    rfl
  · simp [hs, Opd.spans, hat, ETy.size]

/-! ## The caches of a place (13 R340) -/

/-- What the caches of a place hold is what the die's cache holds, while they agree. -/
theorem cacheHit_of_agree {s : State} {d : Nat} (h : cachesAgree s d) (pl : Place) {space va : Nat} {t : TlbEntry}
    (ht : tlbHit (s.die d) space va = some t) : cacheHit (s.die d) pl space va = some t := by
  obtain ⟨-, hsub⟩ := h
  have some_hit : ∃ u, cacheHit (s.die d) pl space va = some u := by
    unfold cacheHit
    split
    · exact ⟨t, ht⟩
    · rw [ht]
      exact Option.isSome_iff_exists.1 (by simp)
  obtain ⟨u, hu⟩ := some_hit
  rw [hu, ← hsub pl space va u hu, ht]

@[simp] theorem installed_mem (s : State) (d : Nat) (pl : Place) (va : Nat) (t : TlbEntry) :
    (installed s d pl va t).mem = s.mem := by unfold installed; split <;> rfl
@[simp] theorem installed_soft (s : State) (d : Nat) (pl : Place) (va : Nat) (t : TlbEntry) :
    (installed s d pl va t).soft = s.soft := by unfold installed; split <;> rfl
@[simp] theorem installed_landings (s : State) (d : Nat) (pl : Place) (va : Nat) (t : TlbEntry) :
    (installed s d pl va t).landings = s.landings := by unfold installed; split <;> rfl
@[simp] theorem installed_wayTo (s : State) (d : Nat) (pl : Place) (va : Nat) (t : TlbEntry) (a key : Nat) :
    (installed s d pl va t).wayTo a key = s.wayTo a key := by unfold installed; split <;> rfl

/-! ## One source of an element (08 R212) -/

/-- A source in one span, whose translation is held. -/
theorem xlSrc_single {x : ECx} {va len : Nat} {p : Phys} {s : State} (h : mapped s x.n .load va p)
    (hc : cachesAgree s (dieOf x.n)) :
    ∃ t, (xlSrc x [(va, len)]).run s = .ok [some p] (installed s (dieOf x.n) (x.place (s.seq x.n)) va t) := by
  obtain ⟨t, ht⟩ := xlateOp_reaches (who := x.n) (pl := x.place (s.seq x.n)) h.1 fun _ => cacheHit_of_agree hc _
  refine ⟨t, ?_⟩
  have hx : (xlV x va .load).run s = .ok (.ok p) (installed s (dieOf x.n) (x.place (s.seq x.n)) va t) := by
    unfold xlV
    exact (Op.run_bind_ok (ECx.run_seq x s)).trans ht
  unfold xlSrc
  rw [Op.run_bind_ok hx]
  rfl

/-- One span that lies where its operand may. -/
theorem needZone_single {z : Zone} {q : Seq} {va len : Nat} {p : Phys} {s : State} (h : zoneOk z q p = true) :
    (needZone z q [(va, len)] [p]).run s = .ok () s := by
  unfold needZone
  exact Op.run_if_pos h

/-- One span to which the way is open, for a load. -/
theorem needRoutes_load {x : ECx} {va len : Nat} {p : Phys} {s : State} (h : s.wayTo (dieOf x.n) p.key = .clear) :
    (needRoutes x .load [(va, len)] [p]).run s = .ok () s := by
  unfold needRoutes
  refine (Op.run_bind_ok (Op.run_get s)).trans ?_
  refine (Op.run_if_pos (by rfl)).trans ?_
  rw [Op.run_bind_ok (needRoute_run h)]
  rfl

/-- The checks of an element with one source, in one span. -/
theorem checkAll_source {x : ECx} {u : SUse} {va len : Nat} {p : Phys} {s t : State} (hu : u.spans = [(va, len)])
    (hx : (xlSrc x [(va, len)]).run s = .ok [some p] t) (hz : zoneOk u.zone (t.seq x.n) p = true)
    (hw : t.wayTo (dieOf x.n) p.key = .clear) : (checkAll x none none [u] []).run s = .ok ([[p]], []) t := by
  unfold checkAll
  refine (Op.run_bind_ok (rfl : EStateM.run (pure ()) s = .ok () s)).trans ?_
  refine (Op.run_bind_ok (Op.run_mapM_single (by rw [hu]; exact hx))).trans ?_
  refine (Op.run_bind_ok (rfl : EStateM.run (pure ()) t = .ok () t)).trans ?_
  refine (Op.run_bind_ok (Op.run_mapM_single (b := [p]) (t := t) (by rw [hu]; rfl))).trans ?_
  refine (Op.run_bind_ok (rfl : EStateM.run (pure []) t = .ok [] t)).trans ?_
  refine (Op.run_bind_ok (rfl : EStateM.run (pure []) t = .ok [] t)).trans ?_
  refine (Op.run_bind_ok (rfl : EStateM.run (pure ()) t = .ok () t)).trans ?_
  refine (Op.run_bind_ok (ECx.run_seq x t)).trans ?_
  refine (Op.run_bind_ok (Op.run_forIn_single (t := t) ?_)).trans ?_
  · dsimp only
    rw [hu, Op.run_bind_ok (needZone_single hz)]
    rfl
  refine (Op.run_bind_ok (rfl : EStateM.run (pure PUnit.unit) t = .ok PUnit.unit t)).trans ?_
  refine (Op.run_bind_ok (Op.run_forIn_single (t := t) ?_)).trans ?_
  · dsimp only
    rw [hu, Op.run_bind_ok (needRoutes_load hw)]
    rfl
  rfl

/-! ## The reading of a flag (08 R227) -/

/-- A move of an element that raises no trap. -/
theorem atElem_ok {α : Type} {i : Nat} {m : Op α} {a : α} {s t : State} (h : m.run s = .ok a t) :
    (atElem i m).run s = .ok a t := by
  unfold atElem
  rw [Op.run_bind_ok (Op.run_attempt_ok h)]
  rfl

/-- The one instruction in flight follows no other, and its first element no lower one. -/
theorem needOrder_only {x : ECx} {p : Phys} {len : Nat} {s : State} (hq : (s.seq x.n).inflight = [x.e]) (h0 : x.at_ = 0)
    (hl : ∀ l, l ∈ s.landings → l.so = false) (ht : p.tier ≠ 0) : (needOrder x p len).run s = .ok () s := by
  have hf : mustFollow s x p.key len p.kind = false := by simp [mustFollow, lowerTouches, hq, h0]
  unfold needOrder
  refine (Op.run_bind_ok (Op.run_get s)).trans ?_
  refine (Op.run_if_neg (by simp [ht])).trans ?_
  refine (Op.run_if_neg (by rw [hf]; exact Bool.false_ne_true)).trans ?_
  exact Op.run_if_neg (by simp [soLandingDue_false hl])

/-- A flag in main memory or the well is met when it reads as expected; only the caches of its place change. -/
theorem flagMet_run {s : State} {x : ECx} {o : Opd} {ra : Reg} {w va i v : Nat} {sg : Bool} {p : Phys}
    (hA : x.e.opdA x.f = some o) (ho : o.spec = .unit ra) (hty : vtTy x.e.vtype = .int w sg) (h0 : x.at_ = 0)
    (hq : (s.seq x.n).inflight = [x.e]) (hh : (s.seq x.n).held = []) (hl : ∀ l, l ∈ s.landings → l.so = false)
    (hc : cachesAgree s (dieOf x.n)) (hva : va = (o.base.toNat + i * w) % 2 ^ 64) (ha : va % w = 0)
    (hm : mapped s x.n .load va p) (ht : p.tier = 1 ∨ p.tier = 2) (hs : sound s p.key w) :
    ∃ t, (flagMet x i v).run s =
      .ok (s.mem.num p.key w == v) (installed s (dieOf x.n) (x.place (s.seq x.n)) va t) := by
  obtain ⟨t, hx⟩ := xlSrc_single (len := w) hm hc
  refine ⟨t, atElem_ok ?_⟩
  generalize hu : installed s (dieOf x.n) (x.place (s.seq x.n)) va t = u at hx ⊢
  have hnot := tier_ne_zero ht
  have hz : zoneOk .cmw (u.seq x.n) p = true := by simp only [zoneOk, decide_eq_true_eq]; omega
  have hway : u.wayTo (dieOf x.n) p.key = .clear := by
    obtain ⟨⟨-, -, -, hw, -⟩, -⟩ := hm
    rw [← hu, installed_wayTo]
    exact hw
  have hord : (needOrder x p w).run u = .ok () u :=
    needOrder_only (by rw [← hu, installed_seq]; exact hq) h0 (by rw [← hu, installed_landings]; exact hl) hnot
  have hread : (readFar x.n va p.key w).run u = .ok (s.mem.read p.key w) u := by
    have hsu : sound u p.key w := by
      obtain ⟨hk, hk', hh, hn, hsoft⟩ := hs
      exact ⟨hk, hk', hh, hn, by rw [← hu, installed_soft]; exact hsoft⟩
    rw [readFar_sound hsu (by rw [← hu, installed_seq]; exact hh), ← hu, installed_mem]
  rw [hA]
  dsimp only
  rw [Entry.ty, hty]
  refine (Op.run_bind_ok (resolve_unit_int ho hva ha)).trans ?_
  refine (Op.run_bind_ok (checkAll_source rfl hx hz hway)).trans ?_
  refine (Op.run_bind_ok hord).trans ?_
  refine (Op.run_if_neg hnot).trans ?_
  rw [Op.run_bind_ok hread]
  rfl

/-- The one element whose flag is met is unmet no longer. -/
theorem flagsUnmet_met {x : ECx} {expect : List (Nat × Nat)} {i v : Nat} {s t : State} (he : smapGet i expect = some v)
    (h : (flagMet x i v).run s = .ok (v == v) t) : (flagsUnmet x expect [i]).run s = .ok [] t := by
  rw [beq_self_eq_true] at h
  unfold flagsUnmet
  rw [he]
  exact Op.run_bind_ok h

/-- A sleeping VWAIT with one element unmet, whose flag reads as expected, sleeps on with none (08 R227). -/
theorem vwaitWake_meets {s : State} {n g start i w : Nat} {sg : Bool} {e : Entry} {rt ra : Reg} {v : VAB}
    {expect : List (Nat × Nat)} {mask : List Nat} {p : Phys}
    (hr : running s n g e) (hh : (s.seq n).held = []) (hl : ∀ l, l ∈ s.landings → l.so = false)
    (hi : e.ins = .vwait rt v) (hs : (s.seq n).sleep = some (.vwait start expect [i] mask)) (hg : (s.seq n).logged = 0)
    (hty : vtTy e.vtype = .int w sg) (hv : v.a = .unit ra) (hc : cachesAgree s (dieOf n))
    (ha : (((e.w 2).toNat + i * w) % 2 ^ 64) % w = 0)
    (hm : mapped s n .load (((e.w 2).toNat + i * w) % 2 ^ 64) p) (ht : p.tier = 1 ∨ p.tier = 2)
    (hsound : sound s p.key w) (he : smapGet i expect = some (s.mem.num p.key w)) :
    ∃ u, exec (.vwaitWake n) s = .next u ∧ u.mem = s.mem ∧ (u.seq n).sleep = some (.vwait start expect [] mask) ∧
      (u.seq n).inflight = [e] ∧ (u.seq n).pc = (s.seq n).pc := by
  obtain ⟨hz, -, hq, -⟩ := hr
  have hf : vform e.ins = _ := hi ▸ vform_vwait rt v
  generalize hform : ({ formVAB .wait v with c := some (.spec (.scal rt) false) } : VForm) = f at hf
  have hA : e.opdA f = some ⟨v.a, e.w 2, e.w 3, v.pa⟩ := by rw [← hform]; rfl
  obtain ⟨t, hmet⟩ := flagMet_run (x := ⟨n, e, f, 0⟩) (v := s.mem.num p.key w) hA hv hty rfl hq hh hl hc rfl ha hm ht hsound
  have move := vwaitMove_read (x := ⟨n, e, f, 0⟩) (start := start) (mask := mask) hg (flagsUnmet_met he hmet)
    (List.cons_ne_nil _ _).symm
  refine ⟨_, exec_vwaitWake_ok hz hq hf hs move, ?_⟩
  rw [State.seq_modSeq, installed_seq]
  exact ⟨installed_mem .., rfl, hq, rfl⟩

end Sys2Proof.Machine
end

section
/-!
SUPPORT. A reply of a VLD lands (spec/08_vector_memory.md R220), and the settled statement about the moves of groups.
-/
namespace Sys2Proof.Machine
open Sys2Proof.Claim

/-! ## What a write to memory leaves (12 R315) -/

/-- A watcher that sees a write changes no register. -/
theorem Seq.note_x (q : Seq) (key n : Nat) : (q.note key n).x = q.x := by
  have hw : (q.watch key n).x = q.x := by
    unfold Seq.watch
    dsimp only
    split
    · split <;> rfl
    · rfl
  unfold Seq.note
  dsimp only
  split <;> exact hw

/-- All the watchers that see a write change no register. -/
theorem State.note_seq_x (s : State) (key n m : Nat) : ((s.note key n).seq m).x = (s.seq m).x :=
  State.seq_mapped (f := fun q => q.note key n) Seq.x rfl (fun q => q.note_x key n) m

/-- A write to memory changes no register. -/
theorem State.poke_seq_x (s : State) (key : Nat) (bs : List Byte) (m : Nat) :
    ((s.poke key bs).seq m).x = (s.seq m).x :=
  State.note_seq_x _ key bs.length m

/-- With no group open every byte of a write is stored. -/
theorem State.poke_mem {s : State} (h : s.seqs.all (fun q => q.2.grp.st == .none) = true) (key : Nat) (bs : List Byte) :
    (s.poke key bs).mem = s.mem.write key bs := by
  change s.writeMem key bs = _
  rw [State.writeMem, if_pos h]

/-- Marking words leaves memory. -/
theorem State.markWords_mem (s : State) (ws : List Nat) (full : Bool) : (s.markWords ws full).mem = s.mem := by
  induction ws generalizing s with
  | nil => rfl
  | cons w ws ih => exact ih _

/-- It leaves the registers. -/
theorem State.markWords_seq_x (s : State) (ws : List Nat) (full : Bool) (m : Nat) :
    ((s.markWords ws full).seq m).x = (s.seq m).x := by
  induction ws generalizing s with
  | nil => rfl
  | cons w ws ih => exact (ih _).trans (State.note_seq_x ..)

/-- It leaves the landings. -/
theorem State.markWords_landings (s : State) (ws : List Nat) (full : Bool) :
    (s.markWords ws full).landings = s.landings := by
  induction ws generalizing s with
  | nil => rfl
  | cons w ws ih => exact ih _

/-- The words marked full are not empty; no other word becomes so. -/
theorem State.mem_markWords_empty (s : State) (ws : List Nat) (w : Nat) :
    w ∈ (s.markWords ws true).empty ↔ w ∈ s.empty ∧ w ∉ ws := by
  induction ws generalizing s with
  | nil => simp [State.markWords]
  | cons v ws ih =>
    refine (ih _).trans ?_
    simp only [State.note_empty, if_true, nsetDel, List.mem_filter, List.mem_cons, bne_iff_ne, not_or, and_assoc]

/-! ## Words of a range of bytes -/

/-- The word of each byte of a range is one of the range's words. -/
theorem word_mem_wordsOf {key n k : Nat} (h : k < n) : (key + k) / 8 ∈ wordsOf key n := by
  refine List.mem_map.2 ⟨(key + k) / 8 - key / 8, List.mem_range.2 ?_, ?_⟩ <;> omega

/-- Bits of new bytes alone, where nothing of the old is kept. -/
theorem mergeBytes_all {old new : List Byte} (h : old.length = new.length) :
    mergeBytes old new (List.replicate new.length 0xFF) = new := by
  have ones (a b : Byte) : (a &&& ~~~0xFF) ||| (b &&& 0xFF) = b := by
    rw [show (0xFF : Byte) = BitVec.allOnes 8 from rfl, BitVec.not_allOnes, BitVec.and_zero, BitVec.zero_or,
      BitVec.and_allOnes]
  refine List.ext_getElem (by simp [mergeBytes, h]) fun k _ _ => ?_
  simpa only [mergeBytes, List.getElem_map, List.getElem_zip, List.getElem_replicate] using ones _ _

/-! ## A reply lands (08 R220) -/

/-- A reply whose instruction is in flight no more comes after all its elements. -/
theorem landsEarly_false {s : State} {l : Landing} (h : ∀ e, e ∈ (s.seq l.sq).inflight → e.isn ≠ l.isn) :
    landsEarly s l = false := by
  unfold landsEarly
  dsimp only
  rw [List.any_eq_false.2 fun e he => by simp [h e he], Bool.and_false]

/-- The one reply that is due comes after no other. -/
theorem landsAfter_single {s : State} {l : Landing} (h : s.landings = [l]) (hs : l.so = false) : landsAfter s l = false := by
  simp [landsAfter, h, hs]

/-- Outside the energy-budget regime the bucket gives without counting. -/
theorem payUnits_free {s : State} {d : Nat} (h : (s.die d).regime = false) (w : Waiter) (cs : List Nat) :
    payUnits s d w cs = some s := by
  unfold payUnits
  dsimp only
  rw [h]
  rfl

/-- The one reply that is due lands. -/
theorem exec_vldLanding_single {s : State} {l : Landing} (hz : s.pkg.frozen = false) (hl : s.landings = [l])
    (hs : l.so = false) (he : ∀ e, e ∈ (s.seq l.sq).inflight → e.isn ≠ l.isn)
    (hd : (s.die (l.sq / 16)).regime = false) :
    exec (.vldLanding 0) s = .next (landNow { s with landings := [] } l.sq l.runId l.isn l.addr l.data l.keep
      (wordsOf l.addr l.data.length)) := by
  have pay : (if lastOfLine s l then payUnits s (dieOf l.sq) (.landing l.sq l.runId l.isn l.elem l.addr) [l.cost]
      else some s) = some s := by
    rw [payUnits_free (d := dieOf l.sq) hd, ite_self]
  have rest : ((wordsOf l.addr l.data.length).filter fun _ => true) = wordsOf l.addr l.data.length :=
    List.filter_eq_self.2 fun _ _ => rfl
  rw [exec_vldLanding, execVldLanding, tryVldLanding, hl]
  dsimp only [List.getElem?_cons_zero]
  rw [hz, landsEarly_false he, landsAfter_single hl hs, pay]
  dsimp only
  rw [hl]
  simp only [Bool.or_self, Bool.false_eq_true, if_false, occurs, List.eraseIdx_cons_zero, List.any_nil, Bool.not_false, rest]

section LandNow
variable {s : State} {sq run : Nat} {isn : BitVec 32} {addr : Nat} {data keep : List Byte} {ws : List Nat}

/-- The bytes of a landing are written as any write. -/
theorem landNow_mem : (landNow s sq run isn addr data keep ws).mem =
    (s.poke addr (mergeBytes (s.mem.read addr data.length) data keep)).mem := by
  refine (State.markWords_mem ..).trans ?_
  split <;> rfl

/-- A landing changes no register. -/
theorem landNow_seq_x (m : Nat) : ((landNow s sq run isn addr data keep ws).seq m).x = (s.seq m).x := by
  refine (State.markWords_seq_x _ ws true m).trans (Eq.trans ?_ (State.poke_seq_x s addr
    (mergeBytes (s.mem.read addr data.length) data keep) m))
  split
  · by_cases hm : m = sq
    · subst hm
      rw [State.seq_modSeq]
      rfl
    · rw [State.seq_modSeq_other _ _ _ _ hm]
  · rfl

/-- It takes no landing. -/
theorem landNow_landings : (landNow s sq run isn addr data keep ws).landings = s.landings := by
  refine (State.markWords_landings ..).trans ?_
  split <;> rfl

/-- Its words are full. -/
theorem landNow_full {key : Nat} (h : key / 8 ∈ ws) : (landNow s sq run isn addr data keep ws).full key = true := by
  have hne : key / 8 ∉ (landNow s sq run isn addr data keep ws).empty := fun hmem =>
    ((State.mem_markWords_empty _ ws _).1 hmem).2 h
  simp [State.full, hne]

end LandNow

/-- What stands when the one reply that is due has landed: its bytes in the window, its words full, every other byte and every
register as before. -/
theorem vldLanding_lands {s : State} {l : Landing} (hz : s.pkg.frozen = false) (hl : s.landings = [l])
    (hs : l.so = false) (he : ∀ e, e ∈ (s.seq l.sq).inflight → e.isn ≠ l.isn)
    (hk : l.keep = List.replicate l.data.length 0xFF) (hd : (s.die (l.sq / 16)).regime = false)
    (hg : s.seqs.all (fun q => q.2.grp.st == .none) = true) :
    ∃ u, exec (.vldLanding 0) s = .next u ∧ u.landings = [] ∧
      (∀ k, (h : k < l.data.length) → u.mem.get (l.addr + k) = l.data[k] ∧ u.full (l.addr + k) = true) ∧
      (∀ a, (a < l.addr ∨ l.addr + l.data.length ≤ a) → u.mem.get a = s.mem.get a) ∧
      ∀ m r, (u.seq m).getX r = (s.seq m).getX r := by
  refine ⟨_, exec_vldLanding_single hz hl hs he hd, landNow_landings .., ?_⟩
  have hmem : (landNow { s with landings := [] } l.sq l.runId l.isn l.addr l.data l.keep
      (wordsOf l.addr l.data.length)).mem = s.mem.write l.addr l.data := by
    rw [landNow_mem, hk, mergeBytes_all (Mem.read_length ..)]
    exact State.poke_mem (s := { s with landings := [] }) hg ..
  rw [hmem]
  exact ⟨fun k h => ⟨Mem.get_write _ _ _ k h, landNow_full (word_mem_wordsOf h)⟩,
    fun a ha => Mem.get_write_other _ _ _ _ ha,
    fun m r => Seq.getX_congr (landNow_seq_x (s := { s with landings := [] }) m) r⟩

end Sys2Proof.Machine

namespace Sys2Proof.Proofs
open Sys2Proof.Machine Sys2Proof.Claim

/-- Settles O41: each clause is the move of one event on a state with one instruction in flight, put together from what the
event's parts do there. The next wave is shown without `running`'s unfinished group, which its clause's own condition rules
out. -/
theorem groupMoves : Obligations.GroupMoves := by
  unfold Obligations.GroupMoves
  intro s n g e
  dsimp only
  intro hc hh hl hr
  refine ⟨fun he hn hv => elementExecute_ends hr hc hh he hn hv, ?_, ?_, ?_, ?_⟩
  · rintro a p l ha hk rfl hp ht h0 h1 hkey hnot hsoft
    exact loadComplete_ends hr hc hl hh ha hk hp ht ⟨h0, h1, hkey, hnot, hsoft⟩
  · intro hw hf
    obtain ⟨hz, -, hq, -, -, hlen, -⟩ := hr
    exact bankWave_next hz hq hlen hw hf
  · intro rt v start expect unmet mask hi hs hg hm
    constructor
    · rintro i w sg p ra rfl hty hv - hsoft hcache ha hmap ht h0 h1 hkey hnot he
      exact vwaitWake_meets hr hh hl hi hs hg hty hv hcache ha hmap ht ⟨h0, h1, hkey, hnot, hsoft⟩ he
    · rintro rfl rfl hv hn
      exact vwaitWake_goes_on hr hi hs hg hm hv hn
  · rintro l hland he hk - hd hgrp
    obtain ⟨hz, -⟩ := hr
    exact vldLanding_lands hz hland (hl l (by simp [hland])) he hk hd hgrp

end Sys2Proof.Proofs
end

section
/-!
SUPPORT. The decoder on what the encoder writes (spec/05_encoding.md R104 to R119): fields of a word, formats, operands.
-/
namespace Sys2Proof

/-! ## Fields of a word -/

@[simp] theorem lo_pk (n : Nat) (x : BitVec n) (r : Nat) : lo n (pk n x r) = x := by
  apply BitVec.eq_of_toNat_eq
  simp [lo, pk, Nat.mod_eq_of_lt x.isLt]

@[simp] theorem up_pk (n : Nat) (x : BitVec n) (r : Nat) : up n (pk n x r) = r := by
  rw [up, pk, Nat.add_mul_div_left _ _ (Nat.two_pow_pos n), Nat.div_eq_of_lt x.isLt, Nat.zero_add]

/-- Bits above a field are those of the rest. -/
theorem up_pk_of_le {n k : Nat} (h : n ≤ k) (x : BitVec n) (r : Nat) : up k (pk n x r) = up (k - n) r := by
  obtain ⟨m, rfl⟩ := Nat.exists_eq_add_of_le h
  calc up (n + m) (pk n x r) = up m (up n (pk n x r)) := by simp only [up, Nat.pow_add, Nat.div_div_eq_div_mul]
    _ = up (n + m - n) r := by rw [up_pk, Nat.add_sub_cancel_left]

/-! ## Codes of operands (R107 to R111, R115) -/

@[simp] theorem decAmoOp_encAmoOp (x : AmoOp) : decAmoOp (encAmoOp x) = some x := by cases x <;> rfl
@[simp] theorem decOrd_encOrd (x : Ord) : decOrd (encOrd x) = some x := by cases x <;> rfl
@[simp] theorem decFType_encFType (x : FType) : decFType (encFType x) = some x := by cases x <;> rfl
@[simp] theorem decFCond_encFCond (x : FCond) : decFCond (encFCond x) = some x := by cases x <;> rfl
@[simp] theorem decCvtType_encCvtType (x : CvtType) : decCvtType (encCvtType x) = some x := by cases x <;> rfl
@[simp] theorem decScope_encScope (x : Scope) : decScope (encScope x) = some x := by cases x <;> rfl
@[simp] theorem decPathClass_encPathClass (x : PathClass) : decPathClass (encPathClass x) = some x := by cases x <;> rfl
@[simp] theorem decTdField_encTdField (x : TdField) : decTdField (encTdField x) = some x := by cases x <;> rfl
@[simp] theorem decMSel_encMSel (x : MSel) : decMSel (encMSel x) = some x := by cases x <;> rfl
@[simp] theorem decICond_encICond (x : ICond) : decICond (encICond x) = some x := by cases x <;> rfl
@[simp] theorem decVFCond_encVFCond (x : VFCond) : decVFCond (encVFCond x) = some x := by cases x <;> rfl
@[simp] theorem decRedOp_encRedOp (x : RedOp) : decRedOp (encRedOp x) = some x := by cases x <;> rfl
@[simp] theorem decAttnHint_encAttnHint (x : AttnHint) : decAttnHint (encAttnHint x) = some x := by cases x <;> rfl
@[simp] theorem decCReg_encCReg (x : CReg) : decCReg (encCReg x) = some x := by cases x <;> rfl
@[simp] theorem ofB1_b1 (b : Bool) : ofB1 (b1 b) = b := by cases b <;> rfl
@[simp] theorem toFin_b5 (r : Reg) : (b5 r).toFin = r := rfl

/-! ## Checks -/

theorem orErr_bind {α β : Type} {o : Option α} {a : α} (h : o = some a) (e : DecodeErr) (k : α → Dec β) :
    (orErr e o >>= k) = k a := by
  rw [h]
  rfl

theorem bind_of_ok {α β : Type} {m : Dec α} {a : α} (h : m = .ok a) (k : α → Dec β) : (m >>= k) = k a := by
  rw [h]
  rfl

theorem chk_true {α : Type} (e : DecodeErr) {c : Bool} (a : α) (h : c = true) : chk e c a = .ok a := if_pos h

/-! ## Formats (R104, R112, R116, R118) -/

@[simp] theorem f32_e3 (maj : BitVec 5) (d a b : Reg) (f : BitVec 10) : f32 (e3 maj d a b f) = ⟨maj, d, a, b, f⟩ := by
  simp [f32, e3, up_pk_of_le]

@[simp] theorem f48_e48 (op : BitVec 6) (f : BitVec 3) (d a b c : BitVec 7) (m : MSel) (pa pb pc : Bool) :
    f48 (e48 op f d a b c m pa pb pc) = ⟨op, d, a, b, c, m, pa, pb, pc, f⟩ := by
  simp [f48, e48, up_pk_of_le]

@[simp] theorem f64_e64 (op : BitVec 6) (d a : BitVec 7) (f6 : BitVec 6) (i : BitVec 32) :
    f64 (e64 op d a f6 i) = ⟨op, d, a, f6, i⟩ := by
  simp [f64, e64, up_pk_of_le]

theorem lenOf_quadrant {q : BitVec 2} (h : q.toNat ≠ 3) (r : Nat) : lenOf (pk 2 q r) = 1 := by
  have := q.isLt
  have h4 : (pk 2 q r) % 4 ≠ 3 := by rw [pk]; omega
  simp [lenOf, h4]

theorem lenOf_major {maj : BitVec 5} (h : maj.toNat % 8 ≠ 7) (r : Nat) : lenOf (pk 2 3 (pk 5 maj r)) = 2 := by
  have h4 : pk 2 3 (pk 5 maj r) % 4 = 3 := Nat.add_mul_mod_self_left ..
  have h8 : pk 2 3 (pk 5 maj r) / 4 % 8 ≠ 7 := by
    rw [show pk 2 3 (pk 5 maj r) / 4 = pk 5 maj r from up_pk 2 3 _, pk]
    omega
  unfold lenOf
  rw [h4, if_neg (by decide), if_pos (by simpa using h8)]

theorem lenOf_48 (r : Nat) : lenOf (pk 6 31 r) = 3 := by
  have low : pk 6 31 r = 31 + 64 * r := rfl
  unfold lenOf
  rw [low, show (31 + 64 * r) % 4 = 3 by omega, show (31 + 64 * r) / 4 % 8 = 7 by omega,
    show (31 + 64 * r) / 32 % 2 = 0 by omega]
  rfl

theorem lenOf_64 (r : Nat) : lenOf (pk 6 63 r) = 4 := by
  have low : pk 6 63 r = 63 + 64 * r := rfl
  unfold lenOf
  rw [low, show (63 + 64 * r) % 4 = 3 by omega, show (63 + 64 * r) / 4 % 8 = 7 by omega,
    show (63 + 64 * r) / 32 % 2 = 1 by omega]
  rfl

theorem decode_len1 {w : Nat} (h : lenOf w = 1) (hw : w < 2 ^ 16) : decode w = decode16 w := by
  rw [decode, h]
  exact congrArg decode16 (Nat.mod_eq_of_lt hw)

theorem decode_len2 {w : Nat} (h : lenOf w = 2) (hw : w < 2 ^ 32) : decode w = decode32 w := by
  rw [decode, h]
  exact congrArg decode32 (Nat.mod_eq_of_lt hw)

theorem decode_e3 {maj : BitVec 5} (h : maj.toNat % 8 ≠ 7) (d a b : Reg) (f : BitVec 10) :
    decode (e3 maj d a b f) = decode32 (e3 maj d a b f) := decode_len2 (lenOf_major h _) (Laws.e3_lt ..)

theorem decode_e48 (op : BitVec 6) (f : BitVec 3) (d a b c : BitVec 7) (m : MSel) (pa pb pc : Bool) :
    decode (e48 op f d a b c m pa pb pc) = decode48 ⟨op, d, a, b, c, m, pa, pb, pc, f⟩ := by
  rw [decode, e48, lenOf_48, ← e48]
  exact congrArg decode48 ((congrArg f48 (Nat.mod_eq_of_lt (Laws.e48_lt ..))).trans (f48_e48 ..))

theorem decode_e64 (op : BitVec 6) (d a : BitVec 7) (f6 : BitVec 6) (i : BitVec 32) :
    decode (e64 op d a f6 i) = decode64 ⟨op, d, a, f6, i⟩ := by
  rw [decode, e64, lenOf_64, ← e64]
  exact congrArg decode64 ((congrArg f64 (Nat.mod_eq_of_lt (Laws.e64_lt ..))).trans (f64_e64 ..))

theorem decode_int (d a b : Reg) (f : BitVec 10) : decode (e3 0 d a b f) = decodeInt ⟨0, d, a, b, f⟩ := by
  rw [decode_e3 (by decide), decode32, f32_e3]
  rfl

theorem decode_eSys (d a b : Reg) (f : BitVec 10) : decode (eSys f d a b) = decodeSys ⟨27, d, a, b, f⟩ := by
  rw [eSys, decode_e3 (by decide), decode32, f32_e3]
  rfl

theorem decode_eFp (op : BitVec 4) (t : FType) (c : BitVec 4) (d a b : Reg) :
    decode (eFp op t c d a b) = decodeFp ⟨14, d, a, b, op ++ encFType t ++ c⟩ := by
  rw [eFp, decode_e3 (by decide), decode32, f32_e3]
  rfl

/-- The fields that the immediate format shares with the three-register one. -/
theorem f32_eI (maj : BitVec 5) (d a : Reg) (i : BitVec 15) :
    f32 (eI maj d a i) = ⟨maj, d, a, (lo 5 (pk 15 i 0)).toFin, lo 10 (up 5 (pk 15 i 0))⟩ := by
  simp [f32, eI, up_pk_of_le]

theorem imm15_eI (maj : BitVec 5) (d a : Reg) (i : BitVec 15) : imm15 (eI maj d a i) = i := by
  simp [imm15, eI, up_pk_of_le]

theorem decode_eI {maj : BitVec 5} (h : maj.toNat % 8 ≠ 7) (d a : Reg) (i : BitVec 15) :
    decode (eI maj d a i) = decode32 (eI maj d a i) := decode_len2 (lenOf_major h _) (Laws.eI_lt ..)

/-- Those that the jump format shares. -/
theorem f32_eJ (maj : BitVec 5) (d : Reg) (i : BitVec 20) :
    f32 (eJ maj d i) =
      ⟨maj, d, (lo 5 (pk 20 i 0)).toFin, (lo 5 (up 5 (pk 20 i 0))).toFin, lo 10 (up 10 (pk 20 i 0))⟩ := by
  simp [f32, eJ, up_pk_of_le]

theorem imm20_eJ (maj : BitVec 5) (d : Reg) (i : BitVec 20) : imm20 (eJ maj d i) = i := by
  simp [imm20, eJ, up_pk_of_le]

theorem decode_eJ {maj : BitVec 5} (h : maj.toNat % 8 ≠ 7) (d : Reg) (i : BitVec 20) :
    decode (eJ maj d i) = decode32 (eJ maj d i) := decode_len2 (lenOf_major h _) (Laws.eJ_lt ..)

theorem decode_eC0 (f : BitVec 3) (r : Reg) (n : BitVec 6) : decode (eC0 f r n) = decode16 (eC0 f r n) :=
  decode_len1 (lenOf_quadrant (by decide) _) (Laws.eC0_lt ..)
theorem decode_eC1 (f : BitVec 4) (d a : Reg) : decode (eC1 f d a) = decode16 (eC1 f d a) :=
  decode_len1 (lenOf_quadrant (by decide) _) (Laws.eC1_lt ..)
theorem decode_eC2 (f : BitVec 3) (r : Reg) (n : BitVec 6) : decode (eC2 f r n) = decode16 (eC2 f r n) :=
  decode_len1 (lenOf_quadrant (by decide) _) (Laws.eC2_lt ..)
theorem decode_eC3 (f : BitVec 3) (n : BitVec 11) : decode (eC3 f n) = decode16 (eC3 f n) :=
  decode_len1 (lenOf_quadrant (by decide) _) (Laws.eC3_lt ..)

/-! ## Fields of appended bits -/

theorem field_above {v w : Nat} (x : BitVec v) (y : BitVec w) (k n : Nat) :
    (x ++ y).extractLsb' (w + k) n = x.extractLsb' k n := by
  rw [BitVec.extractLsb'_append_eq_of_le (Nat.le_add_right w k), Nat.add_sub_cancel_left]

theorem fields_two {u v : Nat} (a : BitVec u) (b : BitVec v) :
    (a ++ b).extractLsb' 0 v = b ∧ (a ++ b).extractLsb' v u = a :=
  ⟨BitVec.extractLsb'_append_eq_right, BitVec.extractLsb'_append_eq_left⟩

theorem fields_three {u v w : Nat} (a : BitVec u) (b : BitVec v) (c : BitVec w) :
    (a ++ b ++ c).extractLsb' 0 w = c ∧ (a ++ b ++ c).extractLsb' w v = b ∧
      (a ++ b ++ c).extractLsb' (w + v) u = a := by
  obtain ⟨hb, ha⟩ := fields_two a b
  exact ⟨BitVec.extractLsb'_append_eq_right, (field_above _ c 0 v).trans hb, (field_above _ c v u).trans ha⟩

theorem fields_four {u v w x : Nat} (a : BitVec u) (b : BitVec v) (c : BitVec w) (d : BitVec x) :
    (a ++ b ++ c ++ d).extractLsb' 0 x = d ∧ (a ++ b ++ c ++ d).extractLsb' x w = c ∧
      (a ++ b ++ c ++ d).extractLsb' (x + w) v = b ∧ (a ++ b ++ c ++ d).extractLsb' (x + (w + v)) u = a := by
  obtain ⟨hc, hb, ha⟩ := fields_three a b c
  exact ⟨BitVec.extractLsb'_append_eq_right, (field_above _ d 0 w).trans hc, (field_above _ d w v).trans hb,
    (field_above _ d (w + v) u).trans ha⟩

theorem fields_five {u v w x y : Nat} (a : BitVec u) (b : BitVec v) (c : BitVec w) (d : BitVec x) (e : BitVec y) :
    (a ++ b ++ c ++ d ++ e).extractLsb' 0 y = e ∧ (a ++ b ++ c ++ d ++ e).extractLsb' y x = d ∧
      (a ++ b ++ c ++ d ++ e).extractLsb' (y + x) w = c ∧ (a ++ b ++ c ++ d ++ e).extractLsb' (y + (x + w)) v = b ∧
      (a ++ b ++ c ++ d ++ e).extractLsb' (y + (x + (w + v))) u = a := by
  obtain ⟨hd, hc, hb, ha⟩ := fields_four a b c d
  exact ⟨BitVec.extractLsb'_append_eq_right, (field_above _ e 0 x).trans hd, (field_above _ e x w).trans hc,
    (field_above _ e (x + w) v).trans hb, (field_above _ e (x + (w + v)) u).trans ha⟩

/-- A field of one bit, as a bit. -/
theorem bit_of_field {n k : Nat} {x : BitVec n} {b : Bool} (h : x.extractLsb' k 1 = b1 b) : x.getLsbD k = b := by
  rw [BitVec.getLsbD_eq_extractLsb', h]
  cases b <;> rfl

/-! ## Fields of the compact formats (R118) -/

theorem eC0_fields (f : BitVec 3) (r : Reg) (n : BitVec 6) : lo 2 (eC0 f r n) = 0 ∧ lo 6 (up 2 (eC0 f r n)) = n ∧
    lo 5 (up 8 (eC0 f r n)) = b5 r ∧ lo 3 (up 13 (eC0 f r n)) = f := by
  simp [eC0, up_pk_of_le]

theorem eC1_fields (f : BitVec 4) (d a : Reg) : lo 2 (eC1 f d a) = 1 ∧ lo 5 (up 2 (eC1 f d a)) = b5 a ∧
    lo 5 (up 7 (eC1 f d a)) = b5 d ∧ lo 4 (up 12 (eC1 f d a)) = f := by
  simp [eC1, up_pk_of_le]

theorem eC2_fields (f : BitVec 3) (r : Reg) (n : BitVec 6) : lo 2 (eC2 f r n) = 2 ∧ lo 6 (up 2 (eC2 f r n)) = n ∧
    lo 5 (up 8 (eC2 f r n)) = b5 r ∧ lo 3 (up 13 (eC2 f r n)) = f := by
  simp [eC2, up_pk_of_le]

theorem eC3_fields (f : BitVec 3) (n : BitVec 11) : lo 2 (eC3 f n) = 2 ∧ lo 11 (up 2 (eC3 f n)) = n ∧
    lo 3 (up 13 (eC3 f n)) = f := by
  simp [eC3, up_pk_of_le]

/-- The decoder refuses x0 alone. -/
theorem reg_bne_zero {r : Reg} : (r.val != 0) = true ↔ ¬ (r.val == 0) = true := by simp

/-- Compact vector operations decode by their code. -/
theorem decode_cop (n : Reg) (cop : BitVec 6) : decode (eC2 4 n cop) = decodeCop n cop := by
  obtain ⟨hq, hn, hr, hf⟩ := eC2_fields 4 n cop
  rw [decode_eC2, decode16, hq, hn, hr, hf]
  rfl

/-! ## Operands (R113) -/

/-- The register of a specifier. -/
@[simp] theorem specifier_reg (m : BitVec 2) (r : Reg) : (m ++ b5 r).extractLsb' 0 5 = b5 r :=
  BitVec.extractLsb'_append_eq_right

/-- The mode of a specifier. -/
@[simp] theorem specifier_mode (m : BitVec 2) (r : Reg) : (m ++ b5 r).extractLsb' 5 2 = m :=
  BitVec.extractLsb'_append_eq_left

theorem decSpec_encSpec {s : Spec} (h : s.wf = true) : decSpec (encSpec s) = .ok s := by
  cases s with
  | unit | scal => simp only [decSpec, encSpec, specifier_mode, specifier_reg]; rfl
  | stride | index =>
    simp only [decSpec, encSpec, specifier_mode, specifier_reg]
    exact chk_true _ _ h

theorem decDst_encSpec {s : Spec} (h : s.wfMem = true) : decDst (encSpec s) = .ok s := by
  obtain ⟨hs, hm⟩ := (Bool.and_eq_true_iff ..).1 h
  rw [decDst, decSpec_encSpec hs]
  exact chk_true _ _ hm

theorem decSrc_encSpec {s : Spec} {p : Bool} (h : s.wfSrc p = true) : decSrc (encSpec s) p = .ok s := by
  obtain ⟨hs, hm⟩ := (Bool.and_eq_true_iff ..).1 h
  rw [decSrc, decSpec_encSpec hs]
  exact chk_true _ _ hm

@[simp] theorem decReg7_reg7 (r : Reg) : decReg7 (reg7 r) = .ok r := by
  simp only [decReg7, reg7, specifier_mode, specifier_reg]
  rfl

/-! ## Operand groups of the 48-bit format (R113, R115) -/

section Groups
variable (op : BitVec 6) (f : BitVec 3)

theorem decVD_fields {v : VD} (h : v.d.wfMem = true) :
    decVD ⟨op, encSpec v.d, 0, 0, 0, v.mask, false, false, false, f⟩ = .ok v := by
  simp only [decVD, decDst_encSpec h]
  rfl

theorem decVA_fields {v : VA} (h : v.wf = true) :
    decVA ⟨op, encSpec v.d, encSpec v.a, 0, 0, v.mask, v.pa, false, false, f⟩ = .ok v := by
  obtain ⟨hd, ha⟩ := (Bool.and_eq_true_iff ..).1 h
  simp only [decVA, decDst_encSpec hd, decSrc_encSpec ha]
  rfl

theorem decVAS_fields {v : VA} (h : v.wfS = true) :
    decVAS ⟨op, encSpec v.d, encSpec v.a, 0, 0, v.mask, v.pa, false, false, f⟩ = .ok v := by
  obtain ⟨hd, ha⟩ := (Bool.and_eq_true_iff ..).1 h
  simp only [decVAS, decSpec_encSpec hd, decSrc_encSpec ha]
  rfl

theorem decVA1_fields {v : VA1} (h : v.wf = true) (r : Reg) :
    decVA1 ⟨op, encSpec (.scal r), encSpec v.a, 0, 0, v.mask, v.pa, false, false, f⟩ = .ok (r, v) := by
  simp only [decVA1, decSpec_encSpec (s := .scal r) rfl, decSrc_encSpec (show v.a.wfSrc v.pa = true from h)]
  rfl

theorem decVAB_fields {v : VAB} (h : v.wf = true) :
    decVAB ⟨op, encSpec v.d, encSpec v.a, encSpec v.b, 0, v.mask, v.pa, v.pb, false, f⟩ = .ok v := by
  simp only [VAB.wf, Bool.and_eq_true_iff] at h
  obtain ⟨⟨hd, ha⟩, hb⟩ := h
  simp only [decVAB, decDst_encSpec hd, decSrc_encSpec ha, decSrc_encSpec hb]
  rfl

theorem decVABC_fields {v : VABC} (h : v.wf = true) :
    decVABC ⟨op, encSpec v.d, encSpec v.a, encSpec v.b, encSpec v.c, v.mask, v.pa, v.pb, v.pc, f⟩ = .ok v := by
  simp only [VABC.wf, Bool.and_eq_true_iff] at h
  obtain ⟨⟨⟨hd, ha⟩, hb⟩, hc⟩ := h
  simp only [decVABC, decDst_encSpec hd, decSrc_encSpec ha, decSrc_encSpec hb, decSrc_encSpec hc]
  rfl

theorem decVABCS_fields {v : VABC} (h : (v.d.wf && v.a.wfSrc v.pa && v.b.wfSrc v.pb && v.c.wfSrc v.pc) = true) :
    decVABCS ⟨op, encSpec v.d, encSpec v.a, encSpec v.b, encSpec v.c, v.mask, v.pa, v.pb, v.pc, f⟩ = .ok v := by
  simp only [Bool.and_eq_true_iff] at h
  obtain ⟨⟨⟨hd, ha⟩, hb⟩, hc⟩ := h
  simp only [decVABCS, decSpec_encSpec hd, decSrc_encSpec ha, decSrc_encSpec hb, decSrc_encSpec hc]
  rfl

/-- An x register is a source under policy 0. -/
theorem scal_wfSrc (r : Reg) : (Spec.scal r).wfSrc false = true := rfl

theorem decVSlide_fields {v : VA} (h : v.wf = true) (r : Reg) :
    decVSlide ⟨op, encSpec v.d, encSpec v.a, encSpec (.scal r), 0, v.mask, v.pa, false, false, f⟩ = .ok (r, v) := by
  obtain ⟨hd, ha⟩ := (Bool.and_eq_true_iff ..).1 h
  simp only [decVSlide, decDst_encSpec hd, decSrc_encSpec ha, decSrc_encSpec (scal_wfSrc r)]
  rfl

theorem decVWait_fields {v : VAB} (h : v.wf = true) (r : Reg) :
    decVWait ⟨op, encSpec v.d, encSpec v.a, encSpec v.b, encSpec (.scal r), v.mask, v.pa, v.pb, false, f⟩ =
      .ok (r, v) := by
  simp only [VAB.wf, Bool.and_eq_true_iff] at h
  obtain ⟨⟨hd, ha⟩, hb⟩ := h
  simp only [decVWait, decDst_encSpec hd, decSrc_encSpec ha, decSrc_encSpec hb, decSrc_encSpec (scal_wfSrc r)]
  rfl

/-- VAMO's destination is a specifier, and memory or x0. -/
theorem vamoDst_wf {d : Spec} (h : (d.wfMem || d == .scal 0) = true) :
    d.wf = true ∧ (!d.isScal || d == .scal 0) = true := by
  cases d <;> simp_all [Spec.wfMem, Spec.isScal, Spec.wf]

theorem decVAmo_fields {v : VAB}
    (h : ((v.d.wfMem || v.d == .scal 0) && v.a.wfSrc v.pa && v.b.wfSrc v.pb) = true) (o : AmoOp) :
    decVAmo ⟨op, encSpec v.d, encSpec v.a, encSpec v.b, (0 : BitVec 3) ++ encAmoOp o, v.mask, v.pa, v.pb, false, f⟩ =
      .ok (o, v) := by
  simp only [Bool.and_eq_true_iff] at h
  obtain ⟨⟨hd, ha⟩, hb⟩ := h
  obtain ⟨hs, hm⟩ := vamoDst_wf hd
  simp only [decVAmo, decSpec_encSpec hs, decSrc_encSpec ha, decSrc_encSpec hb, BitVec.extractLsb'_append_eq_right,
    BitVec.extractLsb'_append_eq_left, decAmoOp_encAmoOp]
  exact bind_of_ok (chk_true _ _ hm) _

end Groups

end Sys2Proof
end

section
/-!
SUPPORT. Decoding inverts encoding (spec/05_encoding.md R105 to R119): the instructions whose fields are divided further,
then every instruction by its length.
-/
namespace Sys2Proof

/-! ## Instructions of one word whose fields are divided further (R105 to R110) -/

theorem decode_loopi {n : BitVec 10} {off : BitVec 15} (h : (Instr.loopi n off).wf = true) :
    decode (pk 2 3 (pk 5 26 (pk 10 n (pk 15 off 0)))) = .ok (.loopi n off) := by
  have hmaj : (f32 (pk 2 3 (pk 5 26 (pk 10 n (pk 15 off 0))))).maj = 26 := by simp [f32]
  have hn : lo 10 (up 7 (pk 2 3 (pk 5 26 (pk 10 n (pk 15 off 0))))) = n := by simp [up_pk_of_le]
  have hoff : imm15 (pk 2 3 (pk 5 26 (pk 10 n (pk 15 off 0)))) = off := by simp [imm15, up_pk_of_le]
  rw [decode_len2 (lenOf_major (by decide) _) (Laws.WordRange.loopi n off), decode32, hmaj, hn, hoff]
  exact chk_true _ _ h

theorem decode_hintNop (bits : BitVec 25) : decode (pk 2 3 (pk 5 30 (pk 25 bits 0))) = .ok (.hintNop bits) := by
  have hmaj : (f32 (pk 2 3 (pk 5 30 (pk 25 bits 0)))).maj = 30 := by simp [f32]
  have hb : lo 25 (up 7 (pk 2 3 (pk 5 30 (pk 25 bits 0)))) = bits := by simp [up_pk_of_le]
  rw [decode_len2 (lenOf_major (by decide) _) (Laws.WordRange.hintNop bits), decode32, hmaj, hb]
  rfl

theorem decode_amo (op : AmoOp) (o : Ord) (w : Bool) (rd rb ra : Reg) :
    decode (encode (.amo op o w rd rb ra)) = .ok (.amo op o w rd rb ra) := by
  obtain ⟨hw, hz, ho, hop⟩ := fields_four (encAmoOp op) (encOrd o) (0 : BitVec 2) (b1 w)
  refine (decode_e3 (by decide) ..).trans ?_
  rw [decode32, f32_e3]
  change decodeAmo _ = _
  rw [decodeAmo]
  dsimp only
  rw [hop, ho, hz, bit_of_field hw, decAmoOp_encAmoOp, decOrd_encOrd]
  rfl

theorem decode_amocas (o : Ord) (w : Bool) (rd rb ra : Reg) :
    decode (encode (.amocas o w rd rb ra)) = .ok (.amocas o w rd rb ra) := by
  obtain ⟨hw, hz, ho, hop⟩ := fields_four (0 : BitVec 4) (encOrd o) (0 : BitVec 2) (b1 w)
  refine (decode_e3 (by decide) ..).trans ?_
  rw [decode32, f32_e3]
  change decodeAmocas _ = _
  rw [decodeAmocas]
  dsimp only
  rw [hop, ho, hz, bit_of_field hw, decOrd_encOrd]
  rfl

theorem decode_fcvt {dst src : CvtType} {rd ra : Reg} (h : (Instr.fcvt dst src rd ra).wf = true) :
    decode (encode (.fcvt dst src rd ra)) = .ok (.fcvt dst src rd ra) := by
  obtain ⟨hs, hd, hop⟩ := fields_three (9 : BitVec 4) (encCvtType dst) (encCvtType src)
  refine (decode_e3 (by decide) ..).trans ?_
  rw [decode32, f32_e3]
  change decodeFp _ = _
  rw [decodeFp]
  dsimp only
  rw [hop, hd, hs, decCvtType_encCvtType, decCvtType_encCvtType]
  exact chk_true _ _ h

/-- The number of a tile descriptor, from a register field. -/
theorem field_r4 (td : BitVec 4) : (b5 (r4 td)).extractLsb' 0 4 = td :=
  BitVec.eq_of_toNat_eq (Nat.mod_eq_of_lt td.isLt)

/-- The number of a stream register, from a register field. -/
theorem field_r2 (q : BitVec 2) : (b5 (r2 q)).extractLsb' 0 2 = q :=
  BitVec.eq_of_toNat_eq (Nat.mod_eq_of_lt q.isLt)

/-! ## Pump operands (11 R283) -/

theorem decPump_fields {p : PumpArgs} (h : p.wf = true) (op : BitVec 6) (d a : BitVec 7) (rr : Reg) :
    decPump ⟨op, d, a, f6Pump p, immPump p rr⟩ = .ok (p, rr) := by
  obtain ⟨hl, hp, hr, hz, ht⟩ := fields_five p.tag (0 : BitVec 1) (b5 rr) (b5 p.xp) (b5 p.xl)
  obtain ⟨hm, hpol, hs⟩ := fields_three p.sz (b1 p.pol) (encMSel p.mask)
  rw [decPump]
  dsimp only
  rw [immPump, f6Pump, hl, hp, hr, bit_of_field (b := false) hz, ht, hm, bit_of_field hpol, hs, decMSel_encMSel]
  exact chk_true _ _ h

/-- A pump instruction decodes to what is made of its operands. -/
theorem pumpOperands {p : PumpArgs} {d a : Spec} (hp : p.wf = true) (hd : d.wf = true) (ha : a.wf = true)
    (op : BitVec 6) (rr : Reg) (k : PumpArgs × Reg → Spec → Spec → Dec Instr) :
    (decPump ⟨op, encSpec d, encSpec a, f6Pump p, immPump p rr⟩ >>= fun p => decSpec (encSpec d) >>= fun d =>
      decSpec (encSpec a) >>= fun a => k p d a) = k (p, rr) d a := by
  rw [decPump_fields hp, decSpec_encSpec hd, decSpec_encSpec ha]
  rfl

theorem Spec.wf_of_wfMem {s : Spec} (h : s.wfMem = true) : s.wf = true := ((Bool.and_eq_true_iff ..).1 h).1
theorem Spec.wf_of_isUnit {s : Spec} (h : s.isUnit = true) : s.wf = true := by
  cases s <;> simp_all [Spec.isUnit, Spec.wf]
theorem Spec.wf_of_isScal {s : Spec} (h : s.isScal = true) : s.wf = true := by
  cases s <;> simp_all [Spec.isScal, Spec.wf]

/-! ## Instructions of the 64-bit format (R117) -/

theorem decode_vidx {d : Spec} (h : d.wfMem = true) (start step : BitVec 16) :
    decode (encode (.vidx d start step)) = .ok (.vidx d start step) := by
  obtain ⟨hl, hh⟩ := fields_two step start
  refine (decode_e64 ..).trans ((bind_of_ok (decDst_encSpec h) _).trans ?_)
  dsimp only
  rw [hl, hh]
  rfl

theorem decode_vcvt {t : SrcType} {d a : Spec} (ht : t.wf = true) (hd : d.wfMem = true) (ha : a.wf = true) :
    decode (encode (.vcvt t d a)) = .ok (.vcvt t d a) := by
  obtain ⟨hc, hz⟩ := fields_two (0 : BitVec 1) t.code
  obtain ⟨hp, hy⟩ := fields_two (0 : BitVec 28) t.prec
  refine (decode_e64 ..).trans ((bind_of_ok (decDst_encSpec hd) _).trans ((bind_of_ok (decSpec_encSpec ha) _).trans ?_))
  dsimp only
  rw [hc, hp, hy, bit_of_field (b := false) hz]
  exact chk_true _ _ ht

theorem decode_mma (z : Bool) (h : Reg) (ta tb : BitVec 4) (arow : BitVec 9) (acol : BitVec 7) :
    decode (encode (.mma z h ta tb arow acol)) = .ok (.mma z h ta tb arow acol) := by
  obtain ⟨hz, h0⟩ := fields_two (0 : BitVec 5) (b1 z)
  obtain ⟨ha, hb, hr, hc, hy⟩ := fields_five (0 : BitVec 8) acol arow tb ta
  refine (decode_e64 ..).trans ((bind_of_ok (decReg7_reg7 h) _).trans ?_)
  dsimp only
  rw [immMma, ha, hb, hr, hc, hy, h0, bit_of_field hz]
  rfl

theorem decode_mmae (z : Bool) (h r : Reg) (ta tb : BitVec 4) (arow : BitVec 9) (acol : BitVec 7) :
    decode (encode (.mmae z h r ta tb arow acol)) = .ok (.mmae z h r ta tb arow acol) := by
  obtain ⟨hz, h0⟩ := fields_two (0 : BitVec 5) (b1 z)
  obtain ⟨ha, hb, hr, hc, hy⟩ := fields_five (0 : BitVec 8) acol arow tb ta
  refine (decode_e64 ..).trans ((bind_of_ok (decReg7_reg7 h) _).trans ((bind_of_ok (decReg7_reg7 r) _).trans ?_))
  dsimp only
  rw [immMma, ha, hb, hr, hc, hy, h0, bit_of_field hz]
  rfl

theorem decode_accz {h : Reg} {arow nr : BitVec 9} {acol nc : BitVec 7} (hw : (Instr.accz h arow acol nr nc).wf = true) :
    decode (encode (.accz h arow acol nr nc)) = .ok (.accz h arow acol nr nc) := by
  obtain ⟨ha, hc, hn, hm⟩ := fields_four nc nr acol arow
  refine (decode_e64 ..).trans ((bind_of_ok (decReg7_reg7 h) _).trans ?_)
  dsimp only
  rw [immAccz, ha, hc, hn, hm]
  exact chk_true _ _ hw

theorem decode_accin {h : Reg} {a : Spec} {pol : Bool} {mask : MSel} {arow : BitVec 9} {acol nc : BitVec 7}
    (hw : (Instr.accin h a pol mask arow acol nc).wf = true) :
    decode (encode (.accin h a pol mask arow acol nc)) = .ok (.accin h a pol mask arow acol nc) := by
  obtain ⟨ha, -⟩ := (Bool.and_eq_true_iff ..).1 hw
  obtain ⟨hr, hl, hn, hy⟩ := fields_four (0 : BitVec 9) nc acol arow
  obtain ⟨h0, hm, hp, hz⟩ := fields_four (0 : BitVec 2) (b1 pol) (encMSel mask) (0 : BitVec 1)
  refine (decode_e64 ..).trans ((bind_of_ok (decReg7_reg7 h) _).trans ((bind_of_ok (decSpec_encSpec ha) _).trans ?_))
  dsimp only
  rw [immAcc, hr, hl, hn, hy, hm, hz, bit_of_field hp, bit_of_field (b := false) h0, decMSel_encMSel]
  exact chk_true _ _ hw

theorem decode_drain {clr : Bool} {h : Reg} {d : Spec} {mask : MSel} {arow : BitVec 9} {acol nc : BitVec 7}
    (hw : (Instr.drain clr h d mask arow acol nc).wf = true) :
    decode (encode (.drain clr h d mask arow acol nc)) = .ok (.drain clr h d mask arow acol nc) := by
  obtain ⟨hd, -⟩ := (Bool.and_eq_true_iff ..).1 hw
  obtain ⟨hr, hl, hn, hy⟩ := fields_four (0 : BitVec 9) nc acol arow
  obtain ⟨hb, hm, hz⟩ := fields_three (0 : BitVec 3) (encMSel mask) (b1 clr)
  refine (decode_e64 ..).trans ((bind_of_ok (decDst_encSpec hd) _).trans ((bind_of_ok (decReg7_reg7 h) _).trans ?_))
  dsimp only
  rw [immAcc, hr, hl, hn, hy, hm, hz, bit_of_field hb, decMSel_encMSel]
  exact chk_true _ _ hw

theorem decode_attn (hint : AttnHint) (c : Reg) (qb0 nqb1 : BitVec 16) :
    decode (encode (.attn hint c qb0 nqb1)) = .ok (.attn hint c qb0 nqb1) := by
  obtain ⟨hh, hz⟩ := fields_two (0 : BitVec 4) (encAttnHint hint)
  obtain ⟨hq, hn⟩ := fields_two nqb1 qb0
  refine (decode_e64 ..).trans ((bind_of_ok (decReg7_reg7 c) _).trans ?_)
  dsimp only
  rw [hh, hz, hq, hn, decAttnHint_encAttnHint]
  rfl

/-! ## Round trips, by the length of the instruction -/

/-- One halfword (R118, R119). -/
theorem decode_encode_16 {i : Instr} (hl : i.len = 1) (hw : i.wf = true) : decode (encode i) = .ok i := by
  cases i with
  | cAddi rd n | cLi rd n | cSlli rd n | cSrli rd n | cSrai rd n | cLd rd n | cSt rd n =>
    obtain ⟨hq, hn, hr, hf⟩ := eC0_fields _ rd n
    refine (decode_eC0 ..).trans ?_
    rw [decode16, hq, hn, hr, hf]
    exact if_neg (reg_bne_zero.1 hw)
  | cAdd rd ra | cSub rd ra | cAnd rd ra | cOr rd ra | cXor rd ra | cSll rd ra | cSrl rd ra | cSra rd ra | cMul rd ra
  | cMin rd ra | cMax rd ra | cMv rd ra =>
    obtain ⟨hq, ha, hd, hf⟩ := eC1_fields _ rd ra
    refine (decode_eC1 ..).trans ?_
    rw [decode16, hq, ha, hd, hf]
    exact if_neg (reg_bne_zero.1 hw)
  | cBeqz ra n | cBnez ra n =>
    obtain ⟨hq, hn, hr, hf⟩ := eC2_fields _ ra n
    refine (decode_eC2 ..).trans ?_
    rw [decode16, hq, hn, hr, hf]
    rfl
  | cJ | cNop | cExit | cBkpt | cLbrk =>
    obtain ⟨hq, hn, hf⟩ := eC3_fields _ _
    refine (decode_eC3 ..).trans ?_
    rw [decode16, hq, hn, hf]
    rfl
  | cVadd | cVsub | cVmul | cVand | cVor | cVxor | cVmin | cVmax | cVminu | cVmaxu | cVfadd | cVfmul | cVfmin | cVfmax
  | cVmand | cVmor | cVmxor | cVmandn => exact (decode_cop ..).trans (if_neg (reg_bne_zero.1 hw))
  | _ => exact absurd hl (of_decide_eq_false rfl)

/-- Two halfwords (R105 to R111). -/
theorem decode_encode_32 {i : Instr} (hl : i.len = 2) (hw : i.wf = true) : decode (encode i) = .ok i := by
  cases i with
  | add | sub | mul | mulh | mulhu | div | divu | rem | remu | and | or | xor | andn | sll | srl | sra | slt | sltu | min
  | max | minu | maxu | clz | ctz | popc => exact decode_int ..
  | addi | andi | ori | xori | slti | ld | st | ldfe | beq | bne | blt | bge | bltu | bgeu | jalr =>
    refine (decode_eI (by decide) ..).trans ?_
    rw [decode32, f32_eI, imm15_eI]
    rfl
  | slli | srli | srai =>
    refine (decode_eI (by decide) ..).trans ?_
    rw [decode32, f32_eI, imm15_eI]
    dsimp only
    rw [BitVec.extractLsb'_append_eq_left, BitVec.extractLsb'_append_eq_right]
    rfl
  | liShort | jal =>
    refine (decode_eJ (by decide) ..).trans ?_
    rw [decode32, f32_eJ, imm20_eJ]
    rfl
  | amo => exact decode_amo ..
  | amocas => exact decode_amocas ..
  | fadd t | fsub t | fmul t | ffma t | fdiv t | fsqrt t | fmin t | fmax t =>
    obtain ⟨hc, ht, ho⟩ := fields_three _ (encFType t) (0 : BitVec 4)
    refine (decode_eFp ..).trans ?_
    rw [decodeFp]
    dsimp only
    rw [hc, ht, ho, decFType_encFType]
    rfl
  | fcmp c t =>
    obtain ⟨hc, ht, ho⟩ := fields_three _ (encFType t) (encFCond c)
    refine (decode_eFp ..).trans ?_
    rw [decodeFp]
    dsimp only
    rw [hc, ht, ho, decFType_encFType, decFCond_encFCond]
    rfl
  | fcvt => exact decode_fcvt hw
  | loop =>
    refine (decode_eI (by decide) ..).trans ?_
    rw [decode32, f32_eI, imm15_eI]
    exact chk_true _ _ hw
  | loopi => exact decode_loopi hw
  | hintNop => exact decode_hintNop _
  | iflush | trap | rett | bkpt | mon | mwait | tick | setvl | setvlc | pubhw | ownq | lbrk | spawn | join | exit | tlbinv
  | pgq | ctxld | ctxst | sumppop | lease | lfree | lstat | lwait | gbegin | gcommit | gabort | logmark =>
    exact decode_eSys ..
  | lix => exact (decode_eSys ..).trans (chk_true _ _ hw)
  | fence sc => exact (decode_eSys ..).trans (orErr_bind (decScope_encScope sc) ..)
  | fencex c1 c2 =>
    refine (decode_eSys ..).trans ((orErr_bind (decPathClass_encPathClass c1) ..).trans ?_)
    exact (orErr_bind (decPathClass_encPathClass c2) ..).trans (chk_true _ _ hw)
  | movcWrite c | movcw _ c => exact (decode_eSys ..).trans ((orErr_bind (decCReg_encCReg c) ..).trans (chk_true _ _ hw))
  | movcRead _ c => exact (decode_eSys ..).trans (orErr_bind (decCReg_encCReg c) ..)
  | barcfg sc | arrive sc | waitb sc | arrwait sc =>
    refine (decode_eSys ..).trans ?_
    cases sc <;> simp [decodeSys, chk, encBScope, decBScope]
  | movtd td f | rdtd _ td f =>
    refine (decode_eSys ..).trans ((orErr_bind (decTdField_encTdField f) ..).trans ?_)
    refine (chk_true _ _ (decide_eq_true td.isLt)).trans ?_
    rw [field_r4]
  | bindq q | unbindq q =>
    refine (decode_eSys ..).trans ((chk_true _ _ (decide_eq_true q.isLt)).trans ?_)
    rw [field_r2]
  | _ => exact absurd hl (of_decide_eq_false rfl)

/-- Three halfwords (R112 to R115). -/
theorem decode_encode_48 {i : Instr} (hl : i.len = 3) (hw : i.wf = true) : decode (encode i) = .ok i := by
  cases i with
  | vadd | vsub | vrsub | vmul | vmulh | vmulhu | vdiv | vdivu | vrem | vmin | vmax | vminu | vmaxu | vand | vor | vxor
  | vandn | vsll | vsrl | vsra | vfadd | vfsub | vfmul | vfdiv | vfmin | vfmax | vmand | vmor | vmxor | vmandn =>
    exact (decode_e48 ..).trans (bind_of_ok (decVAB_fields _ _ hw) _)
  | vadc | vadcCo | vsbc | vsbcCo | vffma => exact (decode_e48 ..).trans (bind_of_ok (decVABC_fields _ _ hw) _)
  | vdots => exact (decode_e48 ..).trans (bind_of_ok (decVABCS_fields _ _ hw) _)
  | vmv | vfsqrt | vexp2 | vlog2 | vrcp | vrsq | vtanh | vsin | vcos | vmnot | vgauss | vgaussPert | vrand | vrandSr =>
    exact (decode_e48 ..).trans (bind_of_ok (decVA_fields _ _ hw) _)
  | vredsum | vredmax | vredmin | vredand | vredor | vredxor =>
    exact (decode_e48 ..).trans (bind_of_ok (decVAS_fields _ _ hw) _)
  | vmpop rd | vmfirst rd | vmlast rd | vmany rd => exact (decode_e48 ..).trans (bind_of_ok (decVA1_fields _ _ hw rd) _)
  | vslideup r | vslidedn r => exact (decode_e48 ..).trans (bind_of_ok (decVSlide_fields _ _ hw r) _)
  | vempty | vfill => exact (decode_e48 ..).trans (bind_of_ok (decVD_fields _ _ hw) _)
  | vwait r => exact (decode_e48 ..).trans (bind_of_ok (decVWait_fields _ _ hw r) _)
  | vcmp c =>
    refine (decode_e48 ..).trans ((orErr_bind (decICond_encICond c) ..).trans ?_)
    exact bind_of_ok (decVAB_fields _ _ hw) _
  | vfcmp c =>
    refine (decode_e48 ..).trans ((orErr_bind (decVFCond_encVFCond c) ..).trans ?_)
    exact bind_of_ok (decVAB_fields _ _ hw) _
  | vscan o =>
    refine (decode_e48 ..).trans ((orErr_bind (decRedOp_encRedOp o) ..).trans ?_)
    exact bind_of_ok (decVA_fields _ _ hw) _
  | vld o | vst o | vstx o =>
    refine (decode_e48 ..).trans ((orErr_bind (decOrd_encOrd o) ..).trans ?_)
    exact bind_of_ok (decVA_fields _ _ hw) _
  | vamo op o =>
    refine (decode_e48 ..).trans ((orErr_bind (decOrd_encOrd o) ..).trans ?_)
    exact bind_of_ok (decVAmo_fields _ _ hw op) _
  | vcas o =>
    refine (decode_e48 ..).trans ((orErr_bind (decOrd_encOrd o) ..).trans ?_)
    exact bind_of_ok (decVABC_fields _ _ hw) _
  | vmerge =>
    obtain ⟨hv, hm⟩ := (Bool.and_eq_true_iff ..).1 hw
    exact (decode_e48 ..).trans ((bind_of_ok (decVAB_fields _ _ hv) _).trans (chk_true _ _ hm))
  | vown =>
    obtain ⟨hv, hm⟩ := (Bool.and_eq_true_iff ..).1 hw
    exact (decode_e48 ..).trans ((bind_of_ok (decVA_fields _ _ hv) _).trans (chk_true _ _ hm))
  | _ => exact absurd hl (of_decide_eq_false rfl)

/-- Four halfwords (R116, R117); no instruction is longer. -/
theorem decode_encode_64 {i : Instr} (hl : 4 ≤ i.len) (hw : i.wf = true) : decode (encode i) = .ok i := by
  cases i with
  | liLong r | liHi r =>
    obtain ⟨hr, hm⟩ := fields_two (3 : BitVec 2) (b5 r)
    refine (decode_e64 ..).trans ?_
    rw [decode64, encSpec]
    dsimp only
    rw [hr, hm]
    rfl
  | vidx => exact decode_vidx hw ..
  | vmsh =>
    obtain ⟨hd, ha⟩ := (Bool.and_eq_true_iff ..).1 hw
    exact (decode_e64 ..).trans ((bind_of_ok (decDst_encSpec hd) _).trans (bind_of_ok (decSpec_encSpec ha) _))
  | vcvt =>
    simp only [Instr.wf, Bool.and_eq_true_iff] at hw
    obtain ⟨⟨ht, hd⟩, ha⟩ := hw
    exact decode_vcvt ht hd ha
  | mma => exact decode_mma ..
  | mmae => exact decode_mmae ..
  | accz => exact decode_accz hw
  | accin => exact decode_accin hw
  | drain => exact decode_drain hw
  | tsub r => exact (decode_e64 ..).trans (bind_of_ok (decReg7_reg7 r) _)
  | pcopy =>
    have h := hw
    simp only [Instr.wf, Bool.and_eq_true_iff] at h
    obtain ⟨⟨⟨⟨hp, hd⟩, ha⟩, -⟩, -⟩ := h
    refine (decode_e64 ..).trans ((pumpOperands hp (Spec.wf_of_wfMem hd) (Spec.wf_of_wfMem ha) ..).trans ?_)
    exact chk_true _ _ ((Bool.and_eq_true_iff ..).2 ⟨rfl, hw⟩)
  | pgath =>
    have h := hw
    simp only [Instr.wf, Bool.and_eq_true_iff] at h
    obtain ⟨⟨⟨⟨⟨hp, -⟩, -⟩, hd⟩, ha⟩, -⟩ := h
    exact (decode_e64 ..).trans ((pumpOperands hp (Spec.wf_of_isUnit hd) ha ..).trans (chk_true _ _ hw))
  | pscat =>
    have h := hw
    simp only [Instr.wf, Bool.and_eq_true_iff] at h
    obtain ⟨⟨⟨⟨⟨hp, -⟩, -⟩, ha⟩, hd⟩, -⟩ := h
    exact (decode_e64 ..).trans ((pumpOperands hp hd (Spec.wf_of_isUnit ha) ..).trans (chk_true _ _ hw))
  | prdc =>
    have h := hw
    simp only [Instr.wf, Bool.and_eq_true_iff] at h
    obtain ⟨⟨⟨⟨⟨hp, -⟩, hd⟩, ha⟩, -⟩, -⟩ := h
    refine (decode_e64 ..).trans ((pumpOperands hp (Spec.wf_of_wfMem hd) (Spec.wf_of_wfMem ha) ..).trans ?_)
    exact chk_true _ _ ((Bool.and_eq_true_iff ..).2 ⟨rfl, hw⟩)
  | pfill =>
    have h := hw
    simp only [Instr.wf, Bool.and_eq_true_iff] at h
    obtain ⟨⟨⟨hp, -⟩, hd⟩, ha⟩ := h
    refine (decode_e64 ..).trans ((pumpOperands hp (Spec.wf_of_wfMem hd) (Spec.wf_of_isScal ha) ..).trans ?_)
    exact chk_true _ _ ((Bool.and_eq_true_iff ..).2 ⟨rfl, hw⟩)
  | attn => exact decode_attn ..
  | kvw c a p | kvinv c a p =>
    obtain ⟨hp, hz⟩ := fields_two (0 : BitVec 27) (b5 p)
    refine (decode_e64 ..).trans ((bind_of_ok (decReg7_reg7 c) _).trans ((bind_of_ok (decReg7_reg7 a) _).trans ?_))
    dsimp only
    rw [hp, hz]
    rfl
  | _ => exact absurd hl (of_decide_eq_false rfl)

end Sys2Proof

namespace Sys2Proof.Proofs

/-- Settles O17, by the length: an instruction that is no event has one halfword or two. -/
theorem scalarRoundTrip : Obligations.ScalarRoundTrip := by
  unfold Obligations.ScalarRoundTrip
  intro i he hl hw
  have h0 : i.len ≠ 0 := beq_eq_false_iff_ne.1 he
  rcases Nat.eq_or_lt_of_le hl with h2 | h1
  · exact decode_encode_32 h2 hw
  · exact decode_encode_16 (by omega) hw

/-- Settles O18, by the length: three halfwords, or four. -/
theorem vectorRoundTrip : Obligations.VectorRoundTrip := by
  unfold Obligations.VectorRoundTrip
  intro i _ hl hw
  rcases Nat.eq_or_lt_of_le hl with h3 | h4
  · exact decode_encode_48 h3.symm hw
  · exact decode_encode_64 h4 hw

end Sys2Proof.Proofs
end

section
/-!
SUPPORT. What the decoder accepts (spec/05_encoding.md R104, R120, R121): every instruction that it answers is well-formed
and has the length that its first halfword gives. Each proof follows the arms of its table, in their order.
-/
namespace Sys2Proof

/-! ## What a reading answers -/

/-- If the reading answers an instruction or operand, that satisfies P. -/
def Dec.Yields {α : Type} (m : Dec α) (P : α → Prop) : Prop := ∀ a, m = .ok a → P a

section Yields
variable {α β : Type} {P : α → Prop} {Q : β → Prop}

theorem yields_ok {a : α} (h : P a) : Dec.Yields (.ok a) P := by
  rintro _ ⟨⟩
  exact h

theorem yields_error (e : DecodeErr) : Dec.Yields (.error e) P := by
  rintro _ ⟨⟩

theorem yields_chk {e : DecodeErr} {c : Bool} {a : α} (h : c = true → P a) : Dec.Yields (chk e c a) P := by
  unfold chk
  split
  · exact yields_ok (h ‹_›)
  · exact yields_error e

theorem yields_bind {m : Dec β} {k : β → Dec α} (hm : m.Yields Q) (hk : ∀ b, Q b → (k b).Yields P) :
    Dec.Yields (m >>= k) P := by
  cases m with
  | error e => exact yields_error e
  | ok b => exact hk b (hm b rfl)

/-- Whatever the first reading answers. -/
theorem yields_bind_any {m : Dec β} {k : β → Dec α} (hk : ∀ b, (k b).Yields P) : Dec.Yields (m >>= k) P :=
  yields_bind (Q := fun _ => True) (fun _ _ => trivial) fun b _ => hk b

/-- A condition refuses the reading. -/
theorem yields_unless {c : Prop} [Decidable c] {e : DecodeErr} {m : Dec α} (h : ¬ c → m.Yields P) :
    Dec.Yields (if c then .error e else m) P := by
  split
  · exact yields_error e
  · exact h ‹_›

/-- A condition permits the reading. -/
theorem yields_when {c : Prop} [Decidable c] {e : DecodeErr} {m : Dec α} (h : m.Yields P) :
    Dec.Yields (if c then m else .error e) P := by
  split
  · exact h
  · exact yields_error e

theorem yields_f0 {x : F48} {m : Dec α} (h : m.Yields P) : Dec.Yields (f0 x m) P := yields_when h

end Yields

/-! ## Operands (R113) -/

theorem decSpec_wf (x : BitVec 7) : (decSpec x).Yields (·.wf = true) := by
  unfold decSpec
  dsimp only
  split
  case h_1 => exact yields_ok rfl
  case h_2 | h_3 => exact yields_chk id
  case h_4 => exact yields_ok rfl

theorem decDst_wf (x : BitVec 7) : (decDst x).Yields (·.wfMem = true) :=
  yields_bind (decSpec_wf x) fun _ hs => yields_chk fun hm => (Bool.and_eq_true_iff ..).2 ⟨hs, hm⟩

theorem decSrc_wf (x : BitVec 7) (p : Bool) : (decSrc x p).Yields (·.wfSrc p = true) :=
  yields_bind (decSpec_wf x) fun _ hs => yields_chk fun hp => (Bool.and_eq_true_iff ..).2 ⟨hs, hp⟩

theorem decVD_wf (x : F48) : (decVD x).Yields (·.d.wfMem = true) :=
  yields_bind (decDst_wf x.d) fun _ hd => yields_chk fun _ => hd

theorem decVA_wf (x : F48) : (decVA x).Yields (·.wf = true) :=
  yields_bind (decDst_wf x.d) fun _ hd => yields_bind (decSrc_wf x.a x.pa) fun _ ha =>
    yields_chk fun _ => (Bool.and_eq_true_iff ..).2 ⟨hd, ha⟩

theorem decVAS_wf (x : F48) : (decVAS x).Yields (·.wfS = true) :=
  yields_bind (decSpec_wf x.d) fun _ hd => yields_bind (decSrc_wf x.a x.pa) fun _ ha =>
    yields_chk fun _ => (Bool.and_eq_true_iff ..).2 ⟨hd, ha⟩

theorem decVA1_wf (x : F48) : (decVA1 x).Yields (·.2.wf = true) :=
  yields_bind_any fun d => yields_bind (decSrc_wf x.a x.pa) fun _ ha => by
    cases d with
    | scal => exact yields_chk fun _ => ha
    | unit | stride | index => exact yields_error _

theorem decVAB_wf (x : F48) : (decVAB x).Yields (·.wf = true) :=
  yields_bind (decDst_wf x.d) fun _ hd => yields_bind (decSrc_wf x.a x.pa) fun _ ha =>
    yields_bind (decSrc_wf x.b x.pb) fun _ hb => yields_chk fun _ => by simp [VAB.wf, hd, ha, hb]

theorem decVABC_wf (x : F48) : (decVABC x).Yields (·.wf = true) :=
  yields_bind (decDst_wf x.d) fun _ hd => yields_bind (decSrc_wf x.a x.pa) fun _ ha =>
    yields_bind (decSrc_wf x.b x.pb) fun _ hb => yields_bind (decSrc_wf x.c x.pc) fun _ hc =>
      yields_ok (by simp [VABC.wf, hd, ha, hb, hc])

theorem decVABCS_wf (x : F48) : (decVABCS x).Yields fun v =>
    (v.d.wf && v.a.wfSrc v.pa && v.b.wfSrc v.pb && v.c.wfSrc v.pc) = true :=
  yields_bind (decSpec_wf x.d) fun _ hd => yields_bind (decSrc_wf x.a x.pa) fun _ ha =>
    yields_bind (decSrc_wf x.b x.pb) fun _ hb => yields_bind (decSrc_wf x.c x.pc) fun _ hc =>
      yields_ok (by simp [hd, ha, hb, hc])

theorem decVSlide_wf (x : F48) : (decVSlide x).Yields (·.2.wf = true) :=
  yields_bind (decDst_wf x.d) fun _ hd => yields_bind (decSrc_wf x.a x.pa) fun _ ha => yields_bind_any fun b => by
    cases b with
    | scal => exact yields_chk fun _ => (Bool.and_eq_true_iff ..).2 ⟨hd, ha⟩
    | unit | stride | index => exact yields_error _

theorem decVWait_wf (x : F48) : (decVWait x).Yields (·.2.wf = true) :=
  yields_bind (decDst_wf x.d) fun _ hd => yields_bind (decSrc_wf x.a x.pa) fun _ ha =>
    yields_bind (decSrc_wf x.b x.pb) fun _ hb => yields_bind_any fun c => by
      cases c with
      | scal => exact yields_ok (by simp [VAB.wf, hd, ha, hb])
      | unit | stride | index => exact yields_error _

theorem decVAmo_wf (x : F48) : (decVAmo x).Yields fun p =>
    ((p.2.d.wfMem || p.2.d == .scal 0) && p.2.a.wfSrc p.2.pa && p.2.b.wfSrc p.2.pb) = true :=
  yields_bind (decSpec_wf x.d) fun d hd => yields_bind (decSrc_wf x.a x.pa) fun _ ha =>
    yields_bind (decSrc_wf x.b x.pb) fun _ hb => yields_bind_any fun _ =>
      yields_bind (Q := fun t => (t.wfMem || t == .scal 0) = true)
        (yields_chk fun hm => by simpa [Spec.wfMem, hd] using hm)
        fun _ hm => yields_chk fun _ => by simp [hm, ha, hb]

/-! ## Instructions -/

/-- A well-formed instruction of n halfwords; an event has none. -/
def Sound (n : Nat) (i : Instr) : Prop := i.wf = true ∧ i.isEvent = false ∧ i.len = n

theorem decodeInt_sound (x : F32) : (decodeInt x).Yields (Sound 2) := by
  unfold decodeInt
  split
  case h_23 | h_24 | h_25 => exact yields_chk fun _ => ⟨rfl, rfl, rfl⟩
  case h_26 => exact yields_error _
  all_goals exact yields_ok ⟨rfl, rfl, rfl⟩

theorem decodeAmo_sound (x : F32) : (decodeAmo x).Yields (Sound 2) :=
  yields_bind_any fun _ => yields_bind_any fun _ => yields_chk fun _ => ⟨rfl, rfl, rfl⟩

theorem decodeAmocas_sound (x : F32) : (decodeAmocas x).Yields (Sound 2) :=
  yields_bind_any fun _ => yields_chk fun _ => ⟨rfl, rfl, rfl⟩

theorem decodeFp_sound (x : F32) : (decodeFp x).Yields (Sound 2) := by
  unfold decodeFp
  dsimp only
  split
  case h_9 => exact yields_bind_any fun _ => yields_ok ⟨rfl, rfl, rfl⟩
  case h_10 =>
    exact yields_bind_any fun _ => yields_bind_any fun _ => yields_unless fun _ => yields_chk fun hw => ⟨hw, rfl, rfl⟩
  case h_11 => exact yields_error _
  all_goals exact yields_chk fun _ => ⟨rfl, rfl, rfl⟩

theorem decode48_sound (x : F48) : (decode48 x).Yields (Sound 3) := by
  unfold decode48
  split
  case h_1 | h_2 | h_3 | h_4 | h_17 | h_18 | h_19 | h_21 =>
    exact yields_f0 (yields_bind (decVAB_wf x) fun _ hv => yields_ok ⟨hv, rfl, rfl⟩)
  case h_5 | h_23 =>
    split
    case h_3 => exact yields_error _
    all_goals exact yields_bind (decVAB_wf x) fun _ hv => yields_ok ⟨hv, rfl, rfl⟩
  case h_6 | h_9 =>
    split
    case h_4 => exact yields_error _
    all_goals exact yields_bind (decVAB_wf x) fun _ hv => yields_ok ⟨hv, rfl, rfl⟩
  case h_7 | h_8 =>
    split
    case h_5 => exact yields_error _
    all_goals exact yields_bind (decVAB_wf x) fun _ hv => yields_ok ⟨hv, rfl, rfl⟩
  case h_10 | h_11 =>
    split
    case h_3 => exact yields_error _
    all_goals exact yields_bind (decVABC_wf x) fun _ hv => yields_ok ⟨hv, rfl, rfl⟩
  case h_12 | h_24 => exact yields_bind_any fun _ => yields_bind (decVAB_wf x) fun _ hv => yields_ok ⟨hv, rfl, rfl⟩
  case h_13 =>
    exact yields_f0 (yields_bind (decVAB_wf x) fun _ hv => yields_chk fun hm =>
      ⟨(Bool.and_eq_true_iff ..).2 ⟨hv, hm⟩, rfl, rfl⟩)
  case h_14 | h_22 => exact yields_f0 (yields_bind (decVA_wf x) fun _ hv => yields_ok ⟨hv, rfl, rfl⟩)
  case h_15 => exact yields_f0 (yields_bind (decVABCS_wf x) fun _ hv => yields_ok ⟨hv, rfl, rfl⟩)
  case h_16 | h_32 | h_33 | h_34 =>
    exact yields_bind_any fun _ => yields_bind (decVA_wf x) fun _ hv => yields_ok ⟨hv, rfl, rfl⟩
  case h_20 => exact yields_f0 (yields_bind (decVABC_wf x) fun _ hv => yields_ok ⟨hv, rfl, rfl⟩)
  case h_25 =>
    split
    case h_8 => exact yields_error _
    all_goals exact yields_bind (decVA_wf x) fun _ hv => yields_ok ⟨hv, rfl, rfl⟩
  case h_26 =>
    split
    case h_7 => exact yields_error _
    all_goals exact yields_bind (decVAS_wf x) fun _ hv => yields_ok ⟨hv, rfl, rfl⟩
  case h_27 =>
    split
    case h_3 => exact yields_error _
    all_goals exact yields_bind (decVSlide_wf x) fun _ hv => yields_ok ⟨hv, rfl, rfl⟩
  case h_28 =>
    split
    case h_5 => exact yields_bind (decVA_wf x) fun _ hv => yields_ok ⟨hv, rfl, rfl⟩
    case h_6 => exact yields_error _
    all_goals exact yields_bind (decVAB_wf x) fun _ hv => yields_ok ⟨hv, rfl, rfl⟩
  case h_29 =>
    split
    case h_5 => exact yields_error _
    all_goals exact yields_bind (decVA1_wf x) fun _ hv => yields_ok ⟨hv, rfl, rfl⟩
  case h_30 | h_31 =>
    split
    case h_3 => exact yields_error _
    all_goals exact yields_bind (decVA_wf x) fun _ hv => yields_ok ⟨hv, rfl, rfl⟩
  case h_35 => exact yields_bind_any fun _ => yields_bind (decVAmo_wf x) fun _ hv => yields_ok ⟨hv, rfl, rfl⟩
  case h_36 => exact yields_bind_any fun _ => yields_bind (decVABC_wf x) fun _ hv => yields_ok ⟨hv, rfl, rfl⟩
  case h_37 | h_38 => exact yields_f0 (yields_bind (decVD_wf x) fun _ hv => yields_ok ⟨hv, rfl, rfl⟩)
  case h_39 => exact yields_f0 (yields_bind (decVWait_wf x) fun _ hv => yields_ok ⟨hv, rfl, rfl⟩)
  case h_40 =>
    exact yields_f0 (yields_bind (decVA_wf x) fun _ hv => yields_chk fun hd =>
      ⟨(Bool.and_eq_true_iff ..).2 ⟨hv, hd⟩, rfl, rfl⟩)
  case h_41 => exact yields_error _

theorem decodeSys_sound (x : F32) : (decodeSys x).Yields (Sound 2) := by
  unfold decodeSys
  dsimp only
  split
  case h_1 | h_11 | h_47 | h_48 => exact yields_bind_any fun _ => yields_chk fun _ => ⟨rfl, rfl, rfl⟩
  case h_2 =>
    exact yields_bind_any fun _ => yields_bind_any fun _ => yields_when (yields_chk fun hc => ⟨hc, rfl, rfl⟩)
  case h_10 => exact yields_bind_any fun _ => yields_when (yields_chk fun hc => ⟨hc, rfl, rfl⟩)
  case h_12 => exact yields_bind_any fun _ => yields_chk fun hc => ⟨hc, rfl, rfl⟩
  case h_14 => exact yields_ok ⟨rfl, rfl, rfl⟩
  case h_17 => exact yields_when (yields_chk fun hk => ⟨hk, rfl, rfl⟩)
  case h_49 | h_50 => exact yields_when (yields_chk fun _ => ⟨rfl, rfl, rfl⟩)
  case h_55 => exact yields_error _
  all_goals exact yields_chk fun _ => ⟨rfl, rfl, rfl⟩

theorem decode32_sound (w : Nat) : (decode32 w).Yields (Sound 2) := by
  unfold decode32
  dsimp only
  split
  case h_1 => exact decodeInt_sound _
  case h_7 =>
    split
    case h_4 => exact yields_error _
    all_goals exact yields_ok ⟨rfl, rfl, rfl⟩
  case h_12 => exact decodeAmo_sound _
  case h_13 => exact decodeAmocas_sound _
  case h_14 => exact decodeFp_sound _
  case h_23 => exact yields_unless fun _ => yields_chk fun hl => ⟨hl, rfl, rfl⟩
  case h_24 => exact yields_chk fun hl => ⟨hl, rfl, rfl⟩
  case h_25 => exact decodeSys_sound _
  case h_27 => exact yields_error _
  all_goals exact yields_ok ⟨rfl, rfl, rfl⟩

theorem decodeCop_sound (n : Reg) (cop : BitVec 6) : (decodeCop n cop).Yields (Sound 1) :=
  yields_unless fun hn => by
    have hw := reg_bne_zero.2 hn
    split
    case h_19 => exact yields_error _
    all_goals exact yields_ok ⟨hw, rfl, rfl⟩

theorem decode16_sound (w : Nat) : (decode16 w).Yields (Sound 1) := by
  unfold decode16
  split
  case h_1 =>
    refine yields_unless fun hr => ?_
    have hw := reg_bne_zero.2 hr
    split
    case h_8 => exact yields_error _
    all_goals exact yields_ok ⟨hw, rfl, rfl⟩
  case h_2 =>
    refine yields_unless fun hd => ?_
    have hw := reg_bne_zero.2 hd
    split
    case h_13 => exact yields_error _
    all_goals exact yields_ok ⟨hw, rfl, rfl⟩
  case h_3 =>
    dsimp only
    split
    case h_4 =>
      split
      case h_5 => exact yields_error _
      all_goals exact yields_ok ⟨rfl, rfl, rfl⟩
    case h_5 => exact decodeCop_sound _ _
    case h_6 => exact yields_error _
    all_goals exact yields_ok ⟨rfl, rfl, rfl⟩

theorem decode64_sound (x : F64) : (decode64 x).Yields (Sound 4) := by
  unfold decode64
  split
  case h_1 => exact yields_bind (decDst_wf x.d) fun _ hd => yields_chk fun _ => ⟨hd, rfl, rfl⟩
  case h_2 =>
    exact yields_bind (decDst_wf x.d) fun _ hd => yields_bind (decSpec_wf x.a) fun _ ha => yields_chk fun _ =>
      ⟨(Bool.and_eq_true_iff ..).2 ⟨hd, ha⟩, rfl, rfl⟩
  case h_3 =>
    exact yields_bind (decDst_wf x.d) fun _ hd => yields_bind (decSpec_wf x.a) fun _ ha => yields_unless fun _ =>
      yields_chk fun hs => ⟨by simp [Instr.wf, hs, hd, ha], rfl, rfl⟩
  case h_4 =>
    refine yields_unless fun _ => ?_
    split
    case h_3 => exact yields_error _
    all_goals exact yields_ok ⟨rfl, rfl, rfl⟩
  case h_5 | h_10 => exact yields_bind_any fun _ => yields_chk fun _ => ⟨rfl, rfl, rfl⟩
  case h_6 | h_16 | h_17 | h_18 =>
    exact yields_bind_any fun _ => yields_bind_any fun _ => yields_chk fun _ => ⟨rfl, rfl, rfl⟩
  case h_7 => exact yields_bind_any fun _ => yields_unless fun _ => yields_chk fun hw => ⟨hw, rfl, rfl⟩
  case h_8 | h_9 =>
    exact yields_bind_any fun _ => yields_bind_any fun _ => yields_unless fun _ => yields_chk fun hw => ⟨hw, rfl, rfl⟩
  case h_11 | h_14 | h_15 =>
    exact yields_bind_any fun _ => yields_bind_any fun _ => yields_bind_any fun _ => yields_chk fun hw =>
      ⟨((Bool.and_eq_true_iff ..).1 hw).2, rfl, rfl⟩
  case h_12 | h_13 =>
    exact yields_bind_any fun _ => yields_bind_any fun _ => yields_bind_any fun _ => yields_chk fun hw => ⟨hw, rfl, rfl⟩
  case h_19 => exact yields_error _

/-! ## The length (R102) -/

/-- The length lies in the low six bits. -/
theorem lenOf_halfword (w : Nat) : lenOf (w % 65536) = lenOf w := by
  have h4 : w % 65536 % 4 = w % 4 := by omega
  have h8 : w % 65536 / 4 % 8 = w / 4 % 8 := by omega
  have h2 : w % 65536 / 32 % 2 = w / 32 % 2 := by omega
  rw [lenOf, h4, h8, h2, lenOf]

/-- No instruction is longer than four halfwords. -/
theorem lenOf_bounds (w : Nat) : 1 ≤ lenOf w ∧ lenOf w ≤ 4 := by
  unfold lenOf
  split_ifs <;> decide

theorem decode_sound (w : Nat) : (decode w).Yields (Sound (lenOf w)) := by
  unfold decode
  split
  case h_1 h => rw [h]; exact decode16_sound _
  case h_2 h => rw [h]; exact decode32_sound _
  case h_3 h => rw [h]; exact decode48_sound _
  case h_4 h1 h2 h3 =>
    obtain ⟨hmin, hmax⟩ := lenOf_bounds w
    have h : lenOf w = 4 := by
      have := Nat.lt_of_le_of_ne hmin (Ne.symm h1)
      have := Nat.lt_of_le_of_ne this (Ne.symm h2)
      exact Nat.le_antisymm hmax (Nat.lt_of_le_of_ne this (Ne.symm h3))
    rw [h]
    exact decode64_sound _

end Sys2Proof

namespace Sys2Proof.Proofs

/-- Settles O19, reading by reading. -/
theorem decodedIsWellFormed : Obligations.DecodedIsWellFormed := by
  unfold Obligations.DecodedIsWellFormed
  intro w i h
  rw [lenOf_halfword]
  exact decode_sound w i h

end Sys2Proof.Proofs
end

section
/-!
SUPPORT. The gate in run mode (spec/05_encoding.md R122 to R124): who needs privilege, who needs a legal vtype, and what
the gate answers with nothing in flight.
-/
namespace Sys2Proof.Machine
open Sys2Proof.Claim

/-- The instructions of R123 are those that the model counts as vector instructions. -/
theorem r123_eq_isVec (i : Instr) : r123 i = isVec i := by cases i <;> rfl

/-- Without privilege the instructions of R122 and the register accesses of 00 R10 trap, and no other. -/
theorem privTrap_eq (q : Seq) (i : Instr) : privTrap q i = (!q.privileged && privOnly i) := by
  unfold privTrap
  cases q.privileged with
  | true => rfl
  | false =>
    cases i with
    | movcRead rd c => cases c <;> rfl
    | movcWrite c ra => cases c <;> rfl
    | movcw rd c rb => cases c <;> rfl
    | _ => rfl

/-- In run mode privilege is the sequencer's own. -/
theorem Seq.privileged_run {q : Seq} (h : q.mode = .run) : q.privileged = q.priv := by
  rw [Seq.privileged, h]
  rfl

/-- What the gate still asks of an instruction that is about to issue in run mode with nothing in flight. -/
theorem gate_issuing {i : Instr} {s : State} (h : issuing i s) :
    gate s.cur i s =
      if privOnly i && !(s.seq s.cur).priv then .trap 0x02
      else if r123 i && vtVILL (s.seq s.cur).vtype then .trap 0x03
      else if pairOff s s.cur 4 && (s.seq s.cur).grp.st == .open_ && !(s.seq s.cur).grp.cmds.isEmpty then .hold
      else if r123 i && (s.ctx (s.seq s.cur).ctx).limit != 0 && (s.ctx (s.seq s.cur).ctx).balance ≤ 0 then .hold
      else .go := by
  obtain ⟨hz, hm, hs, hp, hg, hf, hh, he, ht⟩ := h
  have take : ((s.seq s.cur).take.isSome && ((s.seq s.cur).softPt || isSetvl i)) = false := by
    rcases ht with ht | ⟨hsoft, hset⟩
    · simp [ht]
    · simp [hsoft, hset]
  have low : ((s.seq s.cur).isn - (s.seq s.cur).low).toNat = 0 := by simp [Seq.low, hf]
  unfold gate
  simp [hz, hm, hs, hp, hg, hh, he, take, low, Seq.pending, hf, privTrap_eq, Seq.privileged_run hm, r123_eq_isVec, and_comm]

/-- The instructions that the gate can trap in run mode go through issue. -/
theorem exec_eq_issue {i : Instr} (h : privOnly i = true ∨ r123 i = true) (s : State) :
    ∃ body, exec i s = issue i body s := by
  cases i with
  | rett | ctxld | ctxst | tlbinv | movcRead | movcWrite | movcw | cVadd | cVsub | cVmul | cVand | cVor | cVxor
  | cVmin | cVmax | cVminu | cVmaxu | cVfadd | cVfmul | cVfmin | cVfmax | cVmand | cVmor | cVmxor | cVmandn | vadd
  | vsub | vrsub | vmul | vmulh | vmulhu | vdiv | vdivu | vrem | vmin | vmax | vminu | vmaxu | vand | vor | vxor
  | vandn | vsll | vsrl | vsra | vadc | vadcCo | vsbc | vsbcCo | vcmp | vmerge | vmv | vdots | vscan | vfadd | vfsub
  | vfmul | vffma | vfdiv | vfsqrt | vfmin | vfmax | vfcmp | vexp2 | vlog2 | vrcp | vrsq | vtanh | vsin | vcos
  | vredsum | vredmax | vredmin | vredand | vredor | vredxor | vslideup | vslidedn | vmand | vmor | vmxor | vmandn
  | vmnot | vmpop | vmfirst | vmlast | vmany | vgauss | vgaussPert | vrand | vrandSr | vld | vst | vstx | vamo | vcas
  | vempty | vfill | vwait | vown | vidx | vmsh | vcvt | mma | mmae | accz | accin | drain | tsub | pcopy | pgath
  | pscat | prdc | pfill | attn | kvw | kvinv =>
    dsimp only [exec]
    exact ⟨_, rfl⟩
  | _ => exact h.elim (absurd · Bool.false_ne_true) (absurd · Bool.false_ne_true)

/-- A trap that the gate gives is all that such an instruction does. -/
theorem exec_of_gate_trap {i : Instr} {s : State} {c : Nat} (h : privOnly i = true ∨ r123 i = true)
    (hg : gate s.cur i s = .trap c) : exec i s = .next (issueTrap s s.cur ⟨c, 0, 0⟩ (pc s)) := by
  obtain ⟨body, hb⟩ := exec_eq_issue h s
  exact hb.trans (issue_trap body hg)

end Sys2Proof.Machine

namespace Sys2Proof.Proofs
open Sys2Proof.Machine Sys2Proof.Claim

/-- Settles O10: each of the hypotheses closes one branch of the gate. -/
theorem issuesInRunMode : Obligations.IssuesInRunMode := by
  unfold Obligations.IssuesInRunMode
  intro i s h hpriv hvill hcmds hquota
  have priv : (privOnly i && !(s.seq s.cur).priv) = false := by rcases hpriv with h | h <;> simp [h]
  have vill : (r123 i && vtVILL (s.seq s.cur).vtype) = false := by
    cases hv : r123 i with
    | true => exact hvill hv
    | false => rfl
  have quota : (r123 i && (s.ctx (s.seq s.cur).ctx).limit != 0 && (s.ctx (s.seq s.cur).ctx).balance ≤ 0) = false := by
    cases hv : r123 i with
    | true =>
      rcases hquota hv with hl | hb
      · simp [hl]
      · simp [Int.not_le.2 hb]
    | false => rfl
  rw [ready, gate_issuing h, priv, vill, hcmds, quota]
  simp

/-- Settles O11: the gate's own traps, PRIV before VTYPE. -/
theorem trapsBeforeIssue : Obligations.TrapsBeforeIssue := by
  unfold Obligations.TrapsBeforeIssue
  refine ⟨fun i s h hp hq => exec_of_gate_trap (.inl hp) ?_, fun i s h hr hp hv => exec_of_gate_trap (.inr hr) ?_⟩
  · rw [gate_issuing h, hp, hq]
    rfl
  · rw [gate_issuing h, hp, hr, hv]
    rfl

end Sys2Proof.Proofs
end

section
/-!
SUPPORT. Scalar integer results (spec/06_scalar.md R135 to R139; spec/05_encoding.md R118): what an instruction that writes
one register answers, and the values of the table in words and in integers.
-/
namespace Sys2Proof.Machine
open Sys2Proof.Claim

/-! ## Instructions whose body completes (02 R47) -/

/-- An instruction that passes the gate, whose body changes the current sequencer and completes. -/
theorem exec_done {i : Instr} {body : Nat → Op Ctl} {s t : State} {c : Ctl} {f : Seq → Seq}
    (he : exec i s = issue i body s) (hc : t.cur = s.cur) (hb : (body s.cur).run s = .ok c (t.modSeq s.cur f))
    (h : ready i s) : exec i s = .next (done i c f t) := by
  rw [he, issue_ok h hb, State.modSeq_modSeq, done, hc]

/-- An instruction that passes the gate, whose body changes nothing and completes. -/
theorem goes_of_body {i : Instr} {body : Nat → Op Ctl} {s : State} {c : Ctl} (he : exec i s = issue i body s)
    (hb : (body s.cur).run s = .ok c s) : goes i c s := fun h => by
  rw [he, issue_ok h hb, done]
  rfl

/-- An instruction that passes the gate, whose body traps before any effect. -/
theorem traps_of_body {i : Instr} {body : Nat → Op Ctl} {s : State} {c : Nat} {a v : Word}
    (he : exec i s = issue i body s) (hb : (body s.cur).run s = .error (.trap ⟨c, a, v⟩) s) : traps i c a v s := fun h => by
  rw [he, issue_stop h hb]
  rfl

/-- An instruction of R135's shape writes its value. -/
theorem puts_scalar {i : Instr} {rd : Reg} {f : Seq → Word} {s : State} {v : Word} (he : exec i s = scalar i rd f s)
    (hv : f (s.seq s.cur) = v) : puts i rd v s := by
  subst hv
  exact exec_done (t := s) he rfl rfl

/-- A three-register instruction writes its function's value of xa and xb. -/
theorem puts_alu3 {i : Instr} {rd ra rb : Reg} {f : Word → Word → Word} {s : State} {v : Word}
    (he : exec i s = alu3 i rd ra rb f s) (hv : f (xr s ra) (xr s rb) = v) : puts i rd v s := puts_scalar he hv

/-- A two-register instruction writes its function's value of xa. -/
theorem puts_alu2 {i : Instr} {rd ra : Reg} {f : Word → Word} {s : State} {v : Word}
    (he : exec i s = alu2 i rd ra f s) (hv : f (xr s ra) = v) : puts i rd v s := puts_scalar he hv

/-! ## Division (06 R137, R138) -/

theorem divS_zero {a b : Word} (h : b = 0) : divS a b = 0xFFFFFFFFFFFFFFFF := if_pos h
theorem divU_zero {a b : Word} (h : b = 0) : divU a b = 0xFFFFFFFFFFFFFFFF := if_pos h
theorem remS_zero {a b : Word} (h : b = 0) : remS a b = a := if_pos h
theorem remU_zero {a b : Word} (h : b = 0) : remU a b = a := if_pos h

/-- The quotient that does not fit wraps. -/
theorem divS_wraps : divS 0x8000000000000000 0xFFFFFFFFFFFFFFFF = 0x8000000000000000 := by decide
theorem remS_wraps : remS 0x8000000000000000 0xFFFFFFFFFFFFFFFF = 0 := by decide

theorem divU_toNat {a b : Word} (h : b ≠ 0) : (divU a b).toNat = a.toNat / b.toNat := by
  rw [divU, if_neg h, toWord, BitVec.toNat_ofNat]
  exact Nat.mod_eq_of_lt (Nat.lt_of_le_of_lt (Nat.div_le_self ..) a.isLt)

theorem remU_toNat {a b : Word} (h : b ≠ 0) : (remU a b).toNat = a.toNat % b.toNat := by
  rw [remU, if_neg h, toWord, BitVec.toNat_ofNat]
  exact Nat.mod_eq_of_lt (Nat.lt_of_le_of_lt (Nat.mod_le ..) a.isLt)

theorem remS_toInt {a b : Word} (h : b ≠ 0) : (remS a b).toInt = a.toInt.tmod b.toInt := by
  rw [remS, if_neg h, intWord, ← BitVec.toInt_srem, BitVec.ofInt_toInt]

theorem divS_toInt {a b : Word} (h : b ≠ 0) (hw : ¬(a.toInt = -2 ^ 63 ∧ b.toInt = -1)) :
    (divS a b).toInt = a.toInt.tdiv b.toInt := by
  have fits : a ≠ BitVec.intMin 64 ∨ b ≠ -1#64 := by
    by_contra hc
    push Not at hc
    obtain ⟨rfl, rfl⟩ := hc
    exact hw (by decide)
  rw [divS, if_neg h, intWord, ← BitVec.toInt_sdiv_of_ne_or_ne a b fits, BitVec.ofInt_toInt]

/-! ## Products (06 R137) -/

/-- The low word of a product is that of the signed one. -/
theorem mul_toNat_signed (a b : Word) : ((a * b).toNat : Int) = a.toInt * b.toInt % 2 ^ 64 := by
  have low : a * b = BitVec.ofInt 64 (a.toInt * b.toInt) := by
    rw [BitVec.ofInt_mul, BitVec.ofInt_toInt, BitVec.ofInt_toInt]
  rw [low, BitVec.toNat_ofInt, Int.toNat_of_nonneg (Int.emod_nonneg _ (by decide))]
  rfl

/-- The product of two words fits twice their bits. -/
theorem natAbs_mul_le (a b : Word) : (a.toInt * b.toInt).natAbs ≤ 2 ^ 126 := by
  have bound (x : Word) : x.toInt.natAbs ≤ 2 ^ 63 := by
    have h0 := BitVec.le_toInt x
    have h1 : x.toInt < 2 ^ 63 := BitVec.toInt_lt
    omega
  rw [Int.natAbs_mul]
  exact (Nat.mul_le_mul (bound a) (bound b)).trans (by decide)

/-- MULH and MUL together are the signed product. -/
theorem mulHS_spec (a b : Word) : (mulHS a b).toInt * 2 ^ 64 + ((a * b).toNat : Int) = a.toInt * b.toInt := by
  have hp := natAbs_mul_le a b
  have fits : (intWord (a.toInt * b.toInt / 2 ^ 64)).toInt = a.toInt * b.toInt / 2 ^ 64 := by
    rw [intWord, BitVec.toInt_ofInt]
    exact Int.bmod_eq_of_le (by omega) (by omega)
  rw [mulHS, fits, mul_toNat_signed, Int.mul_comm, Int.mul_ediv_add_emod]

/-- MULHU and MUL together are the unsigned product. -/
theorem mulHU_spec (a b : Word) : (mulHU a b).toNat * 2 ^ 64 + (a * b).toNat = a.toNat * b.toNat := by
  have hp : a.toNat * b.toNat < 2 ^ 64 * 2 ^ 64 := Nat.mul_lt_mul'' a.isLt b.isLt
  rw [mulHU, toWord, BitVec.toNat_ofNat, BitVec.toNat_mul]
  omega

/-! ## Comparisons and choices (06 R137) -/

theorem boolWord_slt (a b : Word) : boolWord (a.slt b) = if a.toInt < b.toInt then 1 else 0 := by
  simp [boolWord, BitVec.slt_iff_toInt_lt]

theorem boolWord_ult (a b : Word) : boolWord (a.ult b) = if a.toNat < b.toNat then 1 else 0 := by
  simp [boolWord, BitVec.ult_iff_lt, BitVec.lt_def]

theorem minS_eq (a b : Word) : minS a b = if a.toInt ≤ b.toInt then a else b := by
  simp only [minS, BitVec.slt_iff_toInt_lt, ← Int.not_le, ite_not]

theorem maxS_eq (a b : Word) : maxS a b = if a.toInt ≤ b.toInt then b else a := by
  simp only [maxS, BitVec.slt_iff_toInt_lt]
  rcases Int.lt_trichotomy a.toInt b.toInt with h | h | h
  · rw [if_pos h, if_pos (Int.le_of_lt h)]
  · rw [BitVec.toInt_inj.1 h, ite_self, ite_self]
  · rw [if_neg (Int.not_lt.2 (Int.le_of_lt h)), if_neg (Int.not_le.2 h)]

theorem minU_eq (a b : Word) : minU a b = if a.toNat ≤ b.toNat then a else b := by
  simp only [minU, BitVec.ult_iff_lt, BitVec.lt_def, ← Nat.not_le, ite_not]

theorem maxU_eq (a b : Word) : maxU a b = if a.toNat ≤ b.toNat then b else a := by
  simp only [maxU, BitVec.ult_iff_lt, BitVec.lt_def]
  rcases Nat.lt_trichotomy a.toNat b.toNat with h | h | h
  · rw [if_pos h, if_pos (Nat.le_of_lt h)]
  · rw [BitVec.toNat_inj.1 h, ite_self, ite_self]
  · rw [if_neg (Nat.not_lt.2 (Nat.le_of_lt h)), if_neg (Nat.not_le.2 h)]

/-! ## Counts of bits (06 R137) -/

/-- The number of leading zeros among n bits. -/
theorem clzGo_spec (a : Word) (n : Nat) : clzGo a n ≤ n ∧ (∀ j, j < clzGo a n → a.getLsbD (n - 1 - j) = false) ∧
    (clzGo a n < n → a.getLsbD (n - 1 - clzGo a n) = true) := by
  induction n with
  | zero => exact ⟨Nat.le_refl 0, fun _ h => absurd h (Nat.not_lt_zero _), fun h => absurd h (Nat.lt_irrefl 0)⟩
  | succ n ih =>
    obtain ⟨hle, hzero, hone⟩ := ih
    unfold clzGo
    cases hb : a.getLsbD n with
    | true => exact ⟨Nat.zero_le _, fun _ h => absurd h (Nat.not_lt_zero _), fun _ => hb⟩
    | false =>
      refine ⟨by simp only [Bool.false_eq_true, if_false]; omega, fun j hj => ?_, fun h => ?_⟩
      · cases j with
        | zero => exact hb
        | succ j =>
          rw [show n + 1 - 1 - (j + 1) = n - 1 - j by omega]
          exact hzero j (by simp only [Bool.false_eq_true, if_false] at hj; omega)
      · simp only [Bool.false_eq_true, if_false] at h ⊢
        rw [show n + 1 - 1 - (1 + clzGo a n) = n - 1 - clzGo a n by omega]
        exact hone (by omega)

/-- The number of trailing zeros from bit i on, over n bits. -/
theorem ctzGo_spec (a : Word) (n i : Nat) : ctzGo a n i ≤ n ∧ (∀ j, j < ctzGo a n i → a.getLsbD (i + j) = false) ∧
    (ctzGo a n i < n → a.getLsbD (i + ctzGo a n i) = true) := by
  induction n generalizing i with
  | zero => exact ⟨Nat.le_refl 0, fun _ h => absurd h (Nat.not_lt_zero _), fun h => absurd h (Nat.lt_irrefl 0)⟩
  | succ n ih =>
    obtain ⟨hle, hzero, hone⟩ := ih (i + 1)
    unfold ctzGo
    cases hb : a.getLsbD i with
    | true => exact ⟨Nat.zero_le _, fun _ h => absurd h (Nat.not_lt_zero _), fun _ => hb⟩
    | false =>
      simp only [Bool.false_eq_true, if_false]
      refine ⟨by omega, fun j hj => ?_, fun h => ?_⟩
      · cases j with
        | zero => exact hb
        | succ j =>
          rw [show i + (j + 1) = i + 1 + j by omega]
          exact hzero j (by omega)
      · rw [show i + (1 + ctzGo a n (i + 1)) = i + 1 + ctzGo a n (i + 1) by omega]
        exact hone (by omega)

/-- The number of ones among n bits. -/
theorem popGo_eq_countP (a : Word) (n : Nat) : popGo a n = (List.range n).countP fun k => a.getLsbD k := by
  induction n with
  | zero => rfl
  | succ n ih =>
    rw [popGo, ih, List.range_succ, List.countP_append, List.countP_singleton, Nat.add_comm]

/-! ## Immediates (06 R139) -/

/-- An immediate is extended with its sign. -/
theorem sext_eq {n : Nat} (x : BitVec n) : sext x = BitVec.ofInt 64 x.toInt := rfl

/-- Its value stays. -/
theorem sext_toInt {n : Nat} (h : n ≤ 64) (x : BitVec n) : (sext x).toInt = x.toInt := BitVec.toInt_signExtend_of_le h

/-- LI.HI keeps the low half. -/
theorem liHi_eq (k : BitVec 32) (a : Word) : k ++ a.setWidth 32 = k ++ a.extractLsb' 0 32 := by
  rw [BitVec.setWidth_eq_extractLsb' (by decide)]

end Sys2Proof.Machine

namespace Sys2Proof.Proofs
open Sys2Proof.Machine Sys2Proof.Claim

/-- Settles O1: a division always completes, and its corner cases are values of the division functions. -/
theorem divisionCorners : Obligations.DivisionCorners := by
  unfold Obligations.DivisionCorners
  intro rd ra rb s
  refine ⟨⟨_, puts_alu3 (exec_div ..) rfl⟩, ⟨_, puts_alu3 (exec_divu ..) rfl⟩, ⟨_, puts_alu3 (exec_rem ..) rfl⟩,
    ⟨_, puts_alu3 (exec_remu ..) rfl⟩, fun hb => ⟨?_, ?_, ?_, ?_⟩, fun ha hb => ⟨?_, ?_⟩⟩
  · exact puts_alu3 (exec_div ..) (divS_zero hb)
  · exact puts_alu3 (exec_divu ..) (divU_zero hb)
  · exact puts_alu3 (exec_rem ..) (remS_zero hb)
  · exact puts_alu3 (exec_remu ..) (remU_zero hb)
  · exact puts_alu3 (exec_div ..) ((congrArg₂ divS ha hb).trans divS_wraps)
  · exact puts_alu3 (exec_rem ..) ((congrArg₂ remS ha hb).trans remS_wraps)

/-- Settles O2: each instruction writes its function's value, which the lemmas above give in words and integers. -/
theorem integerResults : Obligations.IntegerResults := by
  unfold Obligations.IntegerResults
  refine ⟨fun rd ra rb s => ?_, fun rd ra rb s hb => ⟨?_, ?_, ?_, fun hw => ?_⟩⟩
  · obtain ⟨hclz, hlead, hfirst⟩ := clzGo_spec (xr s ra) 64
    obtain ⟨hctz, htrail, hlast⟩ := ctzGo_spec (xr s ra) 64 0
    simp only [Nat.zero_add] at htrail hlast
    exact ⟨puts_alu3 (exec_add ..) rfl, puts_alu3 (exec_sub ..) rfl, puts_alu3 (exec_mul ..) rfl,
      ⟨_, puts_alu3 (exec_mulh ..) rfl, mulHS_spec ..⟩, ⟨_, puts_alu3 (exec_mulhu ..) rfl, mulHU_spec ..⟩,
      puts_alu3 (exec_and ..) rfl, puts_alu3 (exec_or ..) rfl, puts_alu3 (exec_xor ..) rfl,
      puts_alu3 (exec_andn ..) rfl, puts_alu3 (exec_sll ..) rfl, puts_alu3 (exec_srl ..) rfl,
      puts_alu3 (exec_sra ..) rfl, puts_alu3 (exec_slt ..) (boolWord_slt ..),
      puts_alu3 (exec_sltu ..) (boolWord_ult ..), puts_alu3 (exec_min ..) (minS_eq ..),
      puts_alu3 (exec_max ..) (maxS_eq ..), puts_alu3 (exec_minu ..) (minU_eq ..),
      puts_alu3 (exec_maxu ..) (maxU_eq ..), ⟨_, hclz, puts_alu2 (exec_clz ..) rfl, hlead, hfirst⟩,
      ⟨_, hctz, puts_alu2 (exec_ctz ..) rfl, htrail, hlast⟩,
      puts_alu2 (exec_popc ..) (congrArg toWord (popGo_eq_countP ..))⟩
  · exact ⟨_, puts_alu3 (exec_divu ..) rfl, divU_toNat hb⟩
  · exact ⟨_, puts_alu3 (exec_remu ..) rfl, remU_toNat hb⟩
  · exact ⟨_, puts_alu3 (exec_rem ..) rfl, remS_toInt hb⟩
  · exact ⟨_, puts_alu3 (exec_div ..) rfl, divS_toInt hb hw⟩

/-- Settles O3: each instruction writes its function's value of the sign-extended immediate, or of xd and xa. -/
theorem immediateResults : Obligations.ImmediateResults := by
  unfold Obligations.ImmediateResults
  refine ⟨fun rd ra imm sh s => ?_, fun rd ra imm s => ?_⟩
  · have slti : boolWord ((xr s ra).slt (sext imm)) = if (xr s ra).toInt < imm.toInt then 1 else 0 := by
      rw [boolWord_slt, sext_toInt (by decide)]
    exact ⟨puts_alu2 (exec_addi ..) rfl, puts_alu2 (exec_andi ..) rfl, puts_alu2 (exec_ori ..) rfl,
      puts_alu2 (exec_xori ..) rfl, puts_alu2 (exec_slti ..) slti, puts_alu2 (exec_slli ..) rfl,
      puts_alu2 (exec_srli ..) rfl, puts_alu2 (exec_srai ..) rfl, fun k => puts_scalar (exec_liShort ..) rfl,
      fun k => puts_scalar (exec_liLong ..) rfl, fun k => puts_scalar (exec_liHi ..) (liHi_eq ..)⟩
  · exact ⟨puts_alu2 (exec_cAddi ..) rfl, puts_scalar (exec_cLi ..) rfl, puts_alu2 (exec_cSlli ..) rfl,
      puts_alu2 (exec_cSrli ..) rfl, puts_alu2 (exec_cSrai ..) rfl, puts_alu3 (exec_cAdd ..) rfl,
      puts_alu3 (exec_cSub ..) rfl, puts_alu3 (exec_cAnd ..) rfl, puts_alu3 (exec_cOr ..) rfl,
      puts_alu3 (exec_cXor ..) rfl, puts_alu3 (exec_cSll ..) rfl, puts_alu3 (exec_cSrl ..) rfl,
      puts_alu3 (exec_cSra ..) rfl, puts_alu3 (exec_cMul ..) rfl, puts_alu3 (exec_cMin ..) (minS_eq ..),
      puts_alu3 (exec_cMax ..) (maxS_eq ..), puts_alu2 (exec_cMv ..) (BitVec.add_zero _)⟩

/-- Settles O4: the laws of the register file. -/
theorem registerZero : Obligations.RegisterZero := by
  unfold Obligations.RegisterZero
  exact fun q v => ⟨Seq.getX_zero q, Seq.setX_zero q v, fun r hr =>
    ⟨Seq.getX_setX_same q r v hr, fun t ht => Seq.getX_setX_other q r t v ht⟩⟩

end Sys2Proof.Proofs
end

section
/-!
SUPPORT. Scalar floating point (spec/06_scalar.md R145 to R149): delivery, signalling operands, the order of values in which
FMIN and FMAX choose.
-/
namespace Sys2Proof.Machine
open Sys2Proof.Claim

/-! ## Delivery (06 R145, R146) -/

/-- A scalar floating-point instruction writes its word and accrues its flags. -/
theorem flagged_scalarFp {i : Instr} {rd : Reg} {f : Seq → Word × Nat} {s : State} {v : Word} {fl : Nat}
    (he : exec i s = scalarFp i rd f s) (hv : f (s.seq s.cur) = (v, fl)) : flagged i rd v fl s := by
  obtain ⟨rfl, rfl⟩ := Prod.mk.inj hv
  exact exec_done (t := s) he rfl rfl

/-- One that delivers a result under vtype. -/
theorem flagged_deliver {i : Instr} {rd : Reg} {f : Seq → Word × Nat} {s : State} {t : FType} {r : Val × Nat}
    (he : exec i s = scalarFp i rd f s) (hv : f (s.seq s.cur) = fDeliver t (s.seq s.cur).vtype r) :
    flagged i rd (BitVec.ofNat 64 (roundW (FType.fmt t) (rndScalar (s.seq s.cur).vtype) r.1).1)
      (r.2 ||| (roundW (FType.fmt t) (rndScalar (s.seq s.cur).vtype) r.1).2) s :=
  flagged_scalarFp he hv

/-- A two-operand operation delivers its result. -/
theorem flagged_fp2 {i : Instr} {t : FType} {rd ra rb : Reg} {op : Nat → Val → Val → Val × Nat} {s : State}
    {r : Val × Nat} (he : exec i s = fp2 i t rd ra rb op s)
    (hr : op (rndScalar (s.seq s.cur).vtype).mode (fOperand t (xr s ra)) (fOperand t (xr s rb)) = r) :
    flagged i rd (BitVec.ofNat 64 (roundW (FType.fmt t) (rndScalar (s.seq s.cur).vtype) r.1).1)
      (r.2 ||| (roundW (FType.fmt t) (rndScalar (s.seq s.cur).vtype) r.1).2) s :=
  flagged_deliver he (congrArg _ hr)

/-- A conversion to a floating-point type delivers the value read. -/
theorem cvtWrite_float {dst : CvtType} {t : FType} (h : CvtType.fmt? dst = some t) (vtype : Word) (v : Val) :
    cvtWrite dst vtype v = fDeliver t vtype (v, sigNV v) := by
  rw [cvtWrite, h]

/-! ## Signalling operands (03 R63) -/

theorem sigNV_eq (x : Val) : sigNV x = if x = .nan true then flNV else 0 := by
  rcases x with (_ | _) | _ | _ <;> rfl

/-- One of two operands is a signalling NaN. -/
theorem sigNV_or (x y : Val) : sigNV x ||| sigNV y = if x = .nan true ∨ y = .nan true then flNV else 0 := by
  rw [sigNV_eq, sigNV_eq]
  by_cases hx : x = .nan true <;> by_cases hy : y = .nan true <;> simp [hx, hy]

/-- The same, as a test. -/
theorem sigNV_or_beq (x y : Val) :
    sigNV x ||| sigNV y = if (x == .nan true || y == .nan true) = true then flNV else 0 := by
  rw [sigNV_or]
  simp

/-! ## FMIN and FMAX (06 R147) -/

/-- The flags of FMIN and FMAX are those of signalling operands. -/
theorem fMinMax_flags (f : Fmt) (hi : Bool) (a b : Nat) :
    (fMinMax f hi a b).2 = sigNV (f.decode a) ||| sigNV (f.decode b) := by
  unfold fMinMax
  dsimp only
  split <;> rfl

/-- FMIN and FMAX write the pattern that they choose. -/
theorem flagged_minMax {i : Instr} {hi : Bool} {t : FType} {rd ra rb : Reg} {s : State}
    (he : exec i s = fpMinMax i hi t rd ra rb s) :
    let r := fMinMax (FType.fmt t) hi ((xr s ra).toNat % 2 ^ (FType.fmt t).bits) ((xr s rb).toNat % 2 ^ (FType.fmt t).bits)
    flagged i rd (BitVec.ofNat 64 r.1) r.2 s :=
  flagged_scalarFp he rfl

section Choice
variable {f : Fmt} {a b : Nat} (hi : Bool)

theorem fMinMax_nans (ha : (f.decode a).isNan = true) (hb : (f.decode b).isNan = true) :
    (fMinMax f hi a b).1 = f.nan := by
  simp [fMinMax, ha, hb]

theorem fMinMax_nan_left (ha : (f.decode a).isNan = true) (hb : (f.decode b).isNan = false) :
    (fMinMax f hi a b).1 = b := by
  simp [fMinMax, ha, hb]

theorem fMinMax_nan_right (ha : (f.decode a).isNan = false) (hb : (f.decode b).isNan = true) :
    (fMinMax f hi a b).1 = a := by
  simp [fMinMax, ha, hb]

/-- Of two numbers, the second when it stands on the side that is asked for. -/
theorem fMinMax_numbers (ha : (f.decode a).isNan = false) (hb : (f.decode b).isNan = false) :
    (fMinMax f hi a b).1 =
      if (if hi then (f.decode a).below (f.decode b) else (f.decode b).below (f.decode a)) then b else a := by
  simp [fMinMax, ha, hb]

end Choice

/-- A zero is below no zero. -/
theorem Val.lt_zeros {x y : Val} (hx : x.isZero = true) (hy : y.isZero = true) : x.lt y = false := by
  have at_zero (z : Ex) (h : z.m = 0) (e : Int) : z.at e = 0 := by simp [Ex.at, h]
  cases x with
  | num p =>
    cases y with
    | num q =>
      simp only [Val.isZero, beq_iff_eq] at hx hy
      simp [Val.lt, Ex.lt, at_zero p hx, at_zero q hy]
    | _ => cases hy
  | _ => cases hx

/-- Away from zeros of both operands the order of FMIN and FMAX is that of values. -/
theorem Val.below_of_lt_ne {x y : Val} (h : x.lt y = true ∨ y.lt x = true) : x.below y = x.lt y := by
  have zeros : (x.isZero && y.isZero) = false := by
    by_contra hz
    simp only [Bool.not_eq_false, Bool.and_eq_true] at hz
    obtain ⟨hx, hy⟩ := hz
    rw [Val.lt_zeros hx hy, Val.lt_zeros hy hx] at h
    simp at h
  simp [Val.below, zeros]

/-- Of two zeros the negative one is below the positive one. -/
theorem Val.below_zeros {x y : Val} (hx : x.isZero = true) (hy : y.isZero = true) : x.below y = (x.neg && !y.neg) := by
  simp [Val.below, Val.lt_zeros hx hy, hx, hy]

end Sys2Proof.Machine

namespace Sys2Proof.Proofs
open Sys2Proof.Machine Sys2Proof.Claim

/-- Settles O5: each operation delivers its result, a conversion the value read, and a comparison its condition. -/
theorem floatResults : Obligations.FloatResults := by
  unfold Obligations.FloatResults
  refine ⟨fun t rd ra rb s => ⟨flagged_fp2 (exec_fadd ..) rfl, flagged_fp2 (exec_fsub ..) rfl,
    flagged_fp2 (exec_fmul ..) rfl, flagged_fp2 (exec_fdiv ..) rfl, flagged_deliver (exec_fsqrt ..) rfl,
    flagged_deliver (exec_ffma ..) rfl, fun src dst ht => flagged_deliver (exec_fcvt ..) (cvtWrite_float ht ..),
    fun src => ⟨flagged_scalarFp (exec_fcvt ..) rfl, flagged_scalarFp (exec_fcvt ..) rfl⟩⟩, fun c t rd ra rb s => ?_⟩
  refine flagged_scalarFp (exec_fcmp ..) (Prod.ext ?_ ?_)
  · cases c <;> rfl
  · cases c with
    | eq | un => exact sigNV_or_beq ..
    | lt | le => rfl

/-- Settles O6: the cases of R147, the numbers by their order with -0 below +0. -/
theorem floatMinMax : Obligations.FloatMinMax := by
  unfold Obligations.FloatMinMax
  intro t rd ra rb s f a b x y
  have flags : (fMinMax f true a b).2 = (fMinMax f false a b).2 :=
    (fMinMax_flags f true a b).trans (fMinMax_flags f false a b).symm
  refine ⟨(fMinMax f false a b).1, (fMinMax f true a b).1, (fMinMax f false a b).2, flagged_minMax (exec_fmin ..),
    flags ▸ flagged_minMax (exec_fmax ..), ?_, fun ha hb => ?_, fun ha hb => ?_, fun ha hb => ?_, fun ha hb => ?_⟩
  · exact (fMinMax_flags f false a b).trans (sigNV_or ..)
  · exact ⟨fMinMax_nans _ ha hb, fMinMax_nans _ ha hb⟩
  · exact ⟨fMinMax_nan_left _ ha hb, fMinMax_nan_left _ ha hb⟩
  · exact ⟨fMinMax_nan_right _ ha hb, fMinMax_nan_right _ ha hb⟩
  · have lo : (fMinMax f false a b).1 = if y.below x then b else a := fMinMax_numbers false ha hb
    have hi : (fMinMax f true a b).1 = if x.below y then b else a := fMinMax_numbers true ha hb
    rw [lo, hi]
    refine ⟨fun hxy hyx => ?_, fun hyx hxy => ?_, fun hab => ?_, fun hx hy hn hp => ?_, fun hx hy hn hp => ?_⟩
    · simp [Val.below_of_lt_ne (.inl hxy), Val.below_of_lt_ne (.inr hxy), hxy, hyx]
    · simp [Val.below_of_lt_ne (.inl hyx), Val.below_of_lt_ne (.inr hyx), hxy, hyx]
    · simp [hab]
    · simp [Val.below_zeros, hx, hy, hn, hp]
    · simp [Val.below_zeros, hx, hy, hn, hp]

end Sys2Proof.Proofs
end

section
/-!
SUPPORT. Control flow (spec/06_scalar.md R150 to R156): branches, jumps, hardware loops, and what going on to the next
instruction leaves as it was.
-/
namespace Sys2Proof.Machine
open Sys2Proof.Claim

/-! ## Branches and jumps (06 R150, R151) -/

/-- A displacement counts halfwords. -/
theorem offsetBy_eq {n : Nat} (a : Word) (off : BitVec n) : offsetBy a off = a + BitVec.ofInt 64 (2 * off.toInt) := by
  rw [offsetBy, sext_eq, BitVec.ofInt_mul, BitVec.mul_comm]
  rfl

/-- A conditional branch goes where its condition says. -/
theorem goes_branch {n : Nat} {i : Instr} {ra rb : Reg} {off : BitVec n} {c : Word → Word → Bool} {s : State} {b : Bool}
    (he : exec i s = branch i ra rb off c s) (hb : c (xr s ra) (xr s rb) = b) :
    goes i (if b then .goto (pc s + BitVec.ofInt 64 (2 * off.toInt)) else .next) s := by
  subst hb
  rw [← offsetBy_eq]
  exact goes_of_body he rfl

/-- A NOP only goes on. -/
theorem goes_nop {i : Instr} {s : State} (he : exec i s = nopOp i s) : goes i .next s := goes_of_body he rfl

theorem not_slt_eq (a b : Word) : (!a.slt b) = decide (b.toInt ≤ a.toInt) := by
  simp only [BitVec.slt_eq_decide, ← decide_not, Int.not_lt]

theorem not_ult_eq (a b : Word) : (!a.ult b) = decide (b.toNat ≤ a.toNat) := by
  simp only [BitVec.ult_eq_decide, ← decide_not, Nat.not_lt]

/-- JAL links and jumps. -/
theorem exec_jal_done (rd : Reg) (off : BitVec 20) {s : State} (h : ready (.jal rd off) s) :
    exec (.jal rd off) s = .next (done (.jal rd off) (.goto (pc s + BitVec.ofInt 64 (2 * off.toInt)))
      (·.setX rd (pc s + 4)) s) := by
  rw [← offsetBy_eq]
  exact exec_done (t := s) (exec_jal ..) rfl rfl h

/-- JALR to an even address links and jumps. -/
theorem exec_jalr_done {rd ra : Reg} {imm : BitVec 15} {s : State} (hb : (xr s ra + sext imm).getLsbD 0 = false)
    (h : ready (.jalr rd ra imm) s) : exec (.jalr rd ra imm) s =
      .next (done (.jalr rd ra imm) (.goto (xr s ra + sext imm)) (·.setX rd (pc s + 4)) s) := by
  refine exec_done (t := s) (exec_jalr ..) rfl ?_ h
  refine (Op.run_bind_ok (Op.run_getSeq _ s)).trans ?_
  exact (Op.run_if_neg (by rw [← Bool.not_eq_true] at hb; exact hb)).trans rfl

/-- JALR to an odd address raises MISALIGN. -/
theorem traps_jalr {rd ra : Reg} {imm : BitVec 15} {s : State} (hb : (xr s ra + sext imm).getLsbD 0 = true) :
    traps (.jalr rd ra imm) 0x04 (xr s ra + sext imm) 0 s := by
  refine traps_of_body (exec_jalr ..) ((Op.run_bind_ok (Op.run_getSeq _ s)).trans ((Op.run_if_pos hb).trans ?_))
  rw [Op.run_trapWith, toWord, BitVec.ofNat_toNat, BitVec.setWidth_eq]
  rfl

/-! ## Hardware loops (06 R152 to R156) -/

theorem low48_eq (v : Word) : low48 v = BitVec.ofNat 64 (v.toNat % 2 ^ 48) := by
  have := Nat.and_two_pow_sub_one_eq_mod v.toNat 48
  refine BitVec.eq_of_toNat_eq ?_
  rw [low48, BitVec.toNat_and, BitVec.toNat_ofNat, Nat.mod_eq_of_lt (a := v.toNat % 2 ^ 48) (by omega)]
  exact this

section Loops
variable {i : Instr} {count : Seq → Word} {off : BitVec 15} {s : State} (he : exec i s = loopOp i count off s)
include he

/-- A count of 0 skips the body. -/
theorem goes_loop_skip (hc : count (s.seq s.cur) = 0) : goes i (.goto (pc s + BitVec.ofInt 64 (2 * off.toInt))) s := by
  rw [← offsetBy_eq]
  refine goes_of_body he ((Op.run_bind_ok (Op.run_getSeq _ s)).trans ?_)
  exact (Op.run_if_pos hc).trans rfl

/-- Another count pushes an entry while there is room. -/
theorem exec_loop_push (hc : count (s.seq s.cur) ≠ 0) (hl : (s.seq s.cur).loops.length < 6) (h : ready i s) :
    exec i s = .next (done i .next (fun q => { q with
      loops := ⟨low48 ((s.seq s.cur).after i), low48 (offsetBy (pc s) off), count (s.seq s.cur), 0⟩ :: q.loops }) s) := by
  refine exec_done (t := s) he rfl ((Op.run_bind_ok (Op.run_getSeq _ s)).trans ?_) h
  exact (Op.run_if_neg hc).trans ((Op.run_if_neg (by omega)).trans rfl)

/-- A seventh entry raises LOOPOVF. -/
theorem traps_loop_full (hc : count (s.seq s.cur) ≠ 0) (hl : 6 ≤ (s.seq s.cur).loops.length) : traps i 0x0E 0 0 s := by
  refine traps_of_body he ((Op.run_bind_ok (Op.run_getSeq _ s)).trans ?_)
  exact (Op.run_if_neg hc).trans ((Op.run_if_pos hl).trans rfl)

end Loops

/-- LIX of an entry in use. -/
theorem puts_lix {rd : Reg} {k : BitVec 5} {s : State} (h : k.toNat < (s.seq s.cur).loops.length) :
    puts (.lix rd k) rd ((s.seq s.cur).loops[k.toNat].index) s := by
  refine exec_done (t := s) (exec_lix ..) rfl ((Op.run_bind_ok (Op.run_getSeq _ s)).trans ?_)
  rw [List.getElem?_eq_getElem h]
  rfl

/-- LIX of an entry that is not. -/
theorem traps_lix {rd : Reg} {k : BitVec 5} {s : State} (h : (s.seq s.cur).loops.length ≤ k.toNat) :
    traps (.lix rd k) 0x0E 0 0 s := by
  refine traps_of_body (exec_lix ..) ((Op.run_bind_ok (Op.run_getSeq _ s)).trans ?_)
  rw [List.getElem?_eq_none h]
  rfl

section Break
variable {i : Instr} {s : State} (he : exec i s = lbrkOp i s)
include he

/-- LBRK pops the innermost entry and goes to its end. -/
theorem exec_lbrk_pop {l : Loop} {r : List Loop} (hl : (s.seq s.cur).loops = l :: r) (h : ready i s) :
    exec i s = .next (done i (.goto l.stop) (fun q => { q with loops := r }) s) := by
  refine exec_done (t := s) he rfl ((Op.run_bind_ok (Op.run_getSeq _ s)).trans ?_) h
  rw [hl]
  rfl

/-- On an empty stack it raises LOOPOVF. -/
theorem traps_lbrk (hl : (s.seq s.cur).loops = []) : traps i 0x0E 0 0 s := by
  refine traps_of_body he ((Op.run_bind_ok (Op.run_getSeq _ s)).trans ?_)
  rw [hl]
  rfl

end Break

/-! ## The end of a loop (06 R154) -/

/-- At the end of the innermost entry, with iterations left. -/
theorem loopEnd_again {l : Loop} (r : List Loop) (h : (l.index + 1).toNat < l.count.toNat) :
    loopEnd (l :: r) l.stop = ({ l with index := l.index + 1 } :: r, l.start, true) := by
  rw [loopEnd, if_pos rfl, if_pos (by simpa [BitVec.ult_eq_decide] using h)]

/-- At the end of its last iteration the address is looked at again. -/
theorem loopEnd_last {l : Loop} (r : List Loop) (h : l.count.toNat ≤ (l.index + 1).toNat) :
    loopEnd (l :: r) l.stop = ((loopEnd r l.stop).1, (loopEnd r l.stop).2.1, true) := by
  rw [loopEnd, if_pos rfl, if_neg (by simpa [BitVec.ult_eq_decide] using h)]

/-! ## What going on leaves (06 R135, R154) -/

/-- Going on changes what `moved` lists and nothing else. -/
theorem Seq.retire_eq_moved (q : Seq) (i : Instr) (c : Ctl) : q.retire i c = moved q (q.retire i c) := by
  unfold Seq.retire
  cases c with
  | next | goto =>
    dsimp only
    split <;> rfl
  | stay | gone => rfl

/-- The ISN rises outside handler mode. -/
theorem Seq.retire_next_isn (q : Seq) (i : Instr) :
    (q.retire i .next).isn = if q.mode = .handler then q.isn else q.isn + 1 := by
  unfold Seq.retire
  dsimp only
  split <;> rfl

/-- Outside loops issue stays outside. -/
theorem Seq.arrive_noloops {q : Seq} (h : q.loops = []) (a : Word) : (q.arrive a).loops = [] := by
  rw [Seq.arrive, h]
  rfl

/-- Outside loops the next address follows. -/
theorem Seq.retire_next_noloop {q : Seq} (i : Instr) (h : q.loops = []) :
    (q.retire i .next).loops = [] ∧ (q.retire i .next).pc = q.pc + BitVec.ofNat 64 (2 * i.len) := by
  unfold Seq.retire
  dsimp only
  split
  · exact ⟨Seq.arrive_noloops h _, Seq.arrive_pc h _⟩
  · exact ⟨Seq.arrive_noloops (by exact h) _, Seq.arrive_pc (by exact h) _⟩

/-- A write of a register changes it and its dirty bit. -/
theorem Seq.setX_eq (q : Seq) (r : Reg) (v : Word) :
    q.setX r v = { q with x := (q.setX r v).x, dirtyX := (q.setX r v).dirtyX } := by
  unfold Seq.setX
  split <;> rfl

/-- Flags change cflags and its dirty bit. -/
theorem Seq.raise_eq (q : Seq) (fl : Nat) :
    q.raise fl = { q with cflags := (q.raise fl).cflags, dirtyC := (q.raise fl).dirtyC } := by
  unfold Seq.raise
  split <;> rfl

/-- Flags only accrue (03 R71). -/
theorem Seq.raise_cflags_cases (q : Seq) (fl : Nat) :
    (q.raise fl).cflags = q.cflags ∨ (q.raise fl).cflags = (q.cflags ||| fl) % 32 := by
  unfold Seq.raise
  split
  · exact .inl rfl
  · exact .inr rfl

/-- An instruction that is done changes the current sequencer alone. -/
theorem onlySeq_done {i : Instr} {c : Ctl} {f : Seq → Seq} {g : Seq → Seq → Seq} {s : State}
    (h : (f (s.seq s.cur)).retire i c = g (moved (s.seq s.cur) ((f (s.seq s.cur)).retire i c))
      ((f (s.seq s.cur)).retire i c)) : onlySeq s (done i c f s) g := by
  refine ⟨fun _ => rfl, fun m hm => State.seq_modSeq_other _ _ _ _ hm, rfl, ?_⟩
  rw [done, State.seq_modSeq]
  exact h

/-! ## Families of scalar instructions (06 R135) -/

section Shape
variable {i : Instr} {rd : Reg} {s : State}

theorem puts_of_scalar (h : ∃ f, exec i s = scalar i rd f s) : ∃ v, puts i rd v s :=
  h.elim fun _ he => ⟨_, puts_scalar he rfl⟩

theorem puts_of_alu2 (h : ∃ ra f, exec i s = alu2 i rd ra f s) : ∃ v, puts i rd v s :=
  h.elim fun _ h => h.elim fun _ he => ⟨_, puts_alu2 he rfl⟩

theorem puts_of_alu3 (h : ∃ ra rb f, exec i s = alu3 i rd ra rb f s) : ∃ v, puts i rd v s :=
  h.elim fun _ h => h.elim fun _ h => h.elim fun _ he => ⟨_, puts_alu3 he rfl⟩

theorem flagged_of_scalarFp (h : ∃ f, exec i s = scalarFp i rd f s) : ∃ v fl, flagged i rd v fl s :=
  h.elim fun _ he => ⟨_, _, flagged_scalarFp he rfl⟩

theorem flagged_of_fp2 (h : ∃ t ra rb op, exec i s = fp2 i t rd ra rb op s) : ∃ v fl, flagged i rd v fl s :=
  h.elim fun _ h => h.elim fun _ h => h.elim fun _ h => h.elim fun _ he => ⟨_, _, flagged_fp2 he rfl⟩

theorem flagged_of_minMax (h : ∃ hi t ra rb, exec i s = fpMinMax i hi t rd ra rb s) : ∃ v fl, flagged i rd v fl s :=
  h.elim fun _ h => h.elim fun _ h => h.elim fun _ h => h.elim fun _ he => ⟨_, _, flagged_minMax he⟩

theorem goes_of_branch {n : Nat} (h : ∃ ra rb, ∃ off : BitVec n, ∃ c, exec i s = branch i ra rb off c s) : ∃ c, goes i c s :=
  h.elim fun _ h => h.elim fun _ h => h.elim fun _ h => h.elim fun _ he => ⟨_, goes_branch he rfl⟩

end Shape

/-- The instructions of `intDest` write one register and complete. -/
theorem puts_of_intDest {i : Instr} {rd : Reg} (h : intDest i = some rd) (s : State) : ∃ v, puts i rd v s := by
  cases i with
  | add | sub | mul | mulh | mulhu | div | divu | rem | remu | and | or | xor | andn | sll | srl | sra | slt | sltu | min
  | max | minu | maxu | cAdd | cSub | cAnd | cOr | cXor | cSll | cSrl | cSra | cMul | cMin | cMax =>
    cases h
    refine puts_of_alu3 ?_
    dsimp only [exec]
    exact ⟨_, _, _, rfl⟩
  | clz | ctz | popc | addi | andi | ori | xori | slti | slli | srli | srai | cAddi | cSlli | cSrli | cSrai | cMv =>
    cases h
    refine puts_of_alu2 ?_
    dsimp only [exec]
    exact ⟨_, _, rfl⟩
  | liShort | liLong | liHi | cLi | ownq | rdtd =>
    cases h
    refine puts_of_scalar ?_
    dsimp only [exec]
    exact ⟨_, rfl⟩
  | _ => cases h

/-- The scalar floating-point instructions write one register, accrue flags and complete. -/
theorem flagged_of_fpDest {i : Instr} {rd : Reg} (h : fpDest i = some rd) (s : State) : ∃ v fl, flagged i rd v fl s := by
  cases i with
  | fadd | fsub | fmul | fdiv =>
    cases h
    refine flagged_of_fp2 ?_
    dsimp only [exec]
    exact ⟨_, _, _, _, rfl⟩
  | fmin | fmax =>
    cases h
    refine flagged_of_minMax ?_
    dsimp only [exec]
    exact ⟨_, _, _, _, rfl⟩
  | ffma | fsqrt | fcmp | fcvt =>
    cases h
    refine flagged_of_scalarFp ?_
    dsimp only [exec]
    exact ⟨_, rfl⟩
  | _ => cases h

/-- The instructions of `isGo` go on, here or there. -/
theorem goes_of_isGo {i : Instr} (h : isGo i = true) (s : State) : ∃ c, goes i c s := by
  cases i with
  | beq | bne | blt | bge | bltu | bgeu =>
    refine goes_of_branch (n := 15) ?_
    dsimp only [exec]
    exact ⟨_, _, _, _, rfl⟩
  | cBeqz | cBnez =>
    refine goes_of_branch (n := 6) ?_
    dsimp only [exec]
    exact ⟨_, _, _, _, rfl⟩
  | cJ => exact ⟨_, goes_of_body (exec_cJ ..) rfl⟩
  | hintNop => exact ⟨_, goes_nop (exec_hintNop ..)⟩
  | cNop => exact ⟨_, goes_nop (exec_cNop ..)⟩
  | _ => cases h

/-- What an instruction has done is its next state. -/
theorem eq_of_exec {i : Instr} {s t u : State} (h : exec i s = .next t) (hd : exec i s = .next u) : t = u :=
  Host.Outcome.next.inj (h.symm.trans hd)

/-- A write of a register leaves what it does not name. -/
theorem Seq.setX_retire_moved (q : Seq) (r : Reg) (v : Word) (i : Instr) :
    let t := (q.setX r v).retire i .next
    t = { moved q t with x := t.x, dirtyX := t.dirtyX } := by
  intro t
  have go : t = moved (q.setX r v) t := Seq.retire_eq_moved ..
  have hx : t.x = (q.setX r v).x := Seq.retire_x ..
  have hd : t.dirtyX = (q.setX r v).dirtyX := Seq.retire_dirtyX ..
  rw [hx, hd]
  refine go.trans ?_
  rw [Seq.setX_eq q r v]
  rfl

/-- The same of one that accrues flags as well. -/
theorem Seq.setX_raise_retire_moved (q : Seq) (r : Reg) (v : Word) (fl : Nat) (i : Instr) :
    let t := ((q.setX r v).raise fl).retire i .next
    t = { moved q t with x := t.x, dirtyX := t.dirtyX, cflags := t.cflags, dirtyC := t.dirtyC } := by
  intro t
  have go : t = moved ((q.setX r v).raise fl) t := Seq.retire_eq_moved ..
  have hx : t.x = (q.setX r v).x := by simp [t]
  have hd : t.dirtyX = (q.setX r v).dirtyX := by simp [t]
  have hf : t.cflags = ((q.setX r v).raise fl).cflags := Seq.retire_cflags ..
  have hc : t.dirtyC = ((q.setX r v).raise fl).dirtyC := Seq.retire_dirtyC ..
  rw [hx, hd, hf, hc]
  refine go.trans ?_
  rw [Seq.raise_eq (q.setX r v) fl]
  rw [Seq.setX_eq q r v]
  rfl

/-- Registers of a sequencer that has written one and gone on. -/
theorem Seq.getX_of_x {p q : Seq} {r t : Reg} {v : Word} (hx : p.x = (q.setX r v).x) (h : t ≠ r) : p.getX t = q.getX t :=
  (Seq.getX_congr hx t).trans (Seq.getX_setX_other q r t v h)

end Sys2Proof.Machine

namespace Sys2Proof.Proofs
open Sys2Proof.Machine Sys2Proof.Claim

/-- Settles O7: each branch by its condition, each jump by its body. -/
theorem branchesAndJumps : Obligations.BranchesAndJumps := by
  unfold Obligations.BranchesAndJumps
  refine ⟨fun ra rb off o6 o11 s => ?_, fun rd ra imm off s => ?_⟩
  · refine ⟨goes_branch (exec_beq ..) rfl, goes_branch (exec_bne ..) rfl, goes_branch (exec_blt ..) BitVec.slt_eq_decide,
      goes_branch (exec_bge ..) (not_slt_eq ..), goes_branch (exec_bltu ..) BitVec.ult_eq_decide,
      goes_branch (exec_bgeu ..) (not_ult_eq ..), goes_branch (exec_cBeqz ..) rfl, goes_branch (exec_cBnez ..) rfl, ?_,
      fun bits => goes_nop (exec_hintNop ..), goes_nop (exec_cNop ..)⟩
    rw [← offsetBy_eq]
    exact goes_of_body (exec_cJ ..) rfl
  · exact ⟨exec_jal_done rd off, exec_jalr_done, traps_jalr⟩

/-- Settles O8: each family answers a state in which the current sequencer alone has changed, by its one update. -/
theorem scalarFrame : Obligations.ScalarFrame := by
  unfold Obligations.ScalarFrame
  refine ⟨fun i rd s t hi h he => ?_, fun i rd s t hi h he => ?_, fun i s t hi h he => ?_⟩
  · obtain ⟨v, hv⟩ := puts_of_intDest hi s
    obtain rfl := eq_of_exec he (hv h)
    have hq : (done i .next (·.setX rd v) s).seq s.cur = ((s.seq s.cur).setX rd v).retire i .next := State.seq_modSeq ..
    rw [hq]
    refine ⟨⟨onlySeq_done (Seq.setX_retire_moved ..), fun r hr => ?_⟩, fun hl => ?_, fun hm => ?_, fun hm => ?_⟩
    · rw [hq]
      exact Seq.getX_of_x (Seq.retire_x ..) hr
    · have := Seq.retire_next_noloop (q := (s.seq s.cur).setX rd v) i (by rw [Seq.setX_loops]; exact hl)
      rwa [Seq.setX_pc] at this
    · rw [Seq.retire_next_isn, Seq.setX_mode, Seq.setX_isn, if_neg hm]
    · rw [Seq.retire_next_isn, Seq.setX_mode, Seq.setX_isn, if_pos hm]
  · obtain ⟨v, fl, hv⟩ := flagged_of_fpDest hi s
    obtain rfl := eq_of_exec he (hv h)
    have hq : (done i .next (fun q => (q.setX rd v).raise fl) s).seq s.cur =
        (((s.seq s.cur).setX rd v).raise fl).retire i .next := State.seq_modSeq ..
    refine ⟨onlySeq_done (Seq.setX_raise_retire_moved ..), fun r hr => ?_, fl, ?_⟩
    · rw [hq]
      exact Seq.getX_of_x ((Seq.retire_x ..).trans (Seq.raise_x ..)) hr
    · rw [hq, Seq.retire_cflags, ← Seq.setX_cflags (s.seq s.cur) rd v]
      exact Seq.raise_cflags_cases ..
  · obtain ⟨c, hc⟩ := goes_of_isGo hi s
    obtain rfl := eq_of_exec he (hc h)
    exact onlySeq_done (Seq.retire_eq_moved ..)

/-- Settles O9: each instruction by its body, and the end of a loop by the three cases of R154. -/
theorem hardwareLoops : Obligations.HardwareLoops := by
  unfold Obligations.HardwareLoops
  refine ⟨fun ra n off s => ?_, fun rd k s => ?_, fun q a => ?_⟩
  · have loopi (h : n ≠ 0) : BitVec.ofNat 64 n.toNat ≠ 0 := fun h0 => h (by bv_omega)
    have stop := offsetBy_eq (pc s) off
    refine ⟨goes_loop_skip (exec_loop ..), fun h0 hl => ?_, traps_loop_full (exec_loop ..), fun h0 hl => ?_,
      fun h0 => traps_loop_full (exec_loopi ..) (loopi h0)⟩
    · have := exec_loop_push (exec_loop ra off s) h0 hl
      rw [stop, low48_eq, low48_eq] at this
      exact this
    · have := exec_loop_push (exec_loopi n off s) (loopi h0) hl
      rw [stop, low48_eq, low48_eq] at this
      exact this
  · exact ⟨puts_lix, traps_lix, fun l r hl => ⟨exec_lbrk_pop (exec_lbrk ..) hl, exec_lbrk_pop (exec_cLbrk ..) hl⟩,
      fun hl => ⟨traps_lbrk (exec_lbrk ..) hl, traps_lbrk (exec_cLbrk ..) hl⟩⟩
  · refine ⟨fun hl => ?_, fun l r hl => ⟨fun ha => ?_, fun ha hc => ?_, fun ha hc => ?_⟩⟩
    · rw [Seq.arrive_noloop q a hl]
      exact ⟨rfl, hl, rfl⟩
    · rw [Seq.arrive_inside q a l r hl ha]
      exact ⟨rfl, rfl, rfl⟩
    · subst ha
      simp [Seq.arrive, hl, loopEnd_again r hc]
    · subst ha
      simp [Seq.arrive, hl, loopEnd_last r hc]

end Sys2Proof.Proofs
end

section
/-!
SUPPORT. Control registers (spec/06_scalar.md R158 to R163; spec/21_power_determinism.md R492, R499), vector length, OWNQ
(R164, R169), and the encoding of a system instruction.
-/
namespace Sys2Proof.Machine
open Sys2Proof.Claim

/-! ## Fields of a word (00 R7) -/

/-- The n lowest bits. -/
theorem fld_zero (w : Word) (n : Nat) : fld w 0 n = w.toNat % 2 ^ n := by
  simp [fld, bitsAt]

/-- The address field of a register, bits 47:12, in its place. -/
theorem fld_address (w : Word) : toWord (fld w 12 36 * 4096) = BitVec.ofNat 64 (w.toNat / 2 ^ 12 % 2 ^ 36 * 2 ^ 12) := rfl

/-- A sum of numbers as a word. -/
theorem toWord_add (a b : Nat) : toWord (a + b) = toWord a + toWord b := BitVec.ofNat_add ..

/-! ## Reads (06 R159 to R161) -/

/-- A read of a control register waits for lower instructions where it is cflags. -/
theorem cregReady_run {s : State} {n : Nat} {c : CReg} (h : c = .cflags → (s.seq n).inflight = []) :
    (cregReady n c).run s = .ok () s := by
  unfold cregReady
  split
  · exact needDone_run (h ‹_›)
  · rfl

/-- A register that is no stream register has no stream. -/
theorem streamOf_eq_none {c : CReg} (h : c.isStream = false) : streamOf c = none := by
  unfold streamOf
  split
  · exact Bool.noConfusion h
  · exact Bool.noConfusion h
  · exact Bool.noConfusion h
  · exact Bool.noConfusion h
  · rfl

/-- MOVC reads the register. -/
theorem puts_movcRead {rd : Reg} {c : CReg} {s : State} (hs : c.isStream = false)
    (hf : c = .cflags → (s.seq s.cur).inflight = []) : puts (.movcRead rd c) rd (cregRead s s.cur c) s := by
  refine exec_done (t := s) (exec_movcRead ..) rfl ?_
  rw [streamOf_eq_none hs]
  exact (Op.run_bind_ok (cregReady_run hf)).trans rfl

/-! ## Writes (06 R162) -/

/-- MOVC writes the register. -/
theorem exec_movcWrite_ready {c : CReg} {ra : Reg} {s : State} (h : ready (.movcWrite c ra) s) :
    exec (.movcWrite c ra) s =
      .next ((cregWrite s s.cur c (xr s ra)).modSeq s.cur fun q => q.retire (.movcWrite c ra) .next) :=
  (exec_movcWrite ..).trans (issue_ok (c := .next) h rfl)

/-- One that changes the sequencer. -/
theorem exec_movcWrite_seq {c : CReg} {ra : Reg} {s : State} {f : Seq → Seq} (h : ready (.movcWrite c ra) s)
    (hw : cregWrite s s.cur c (xr s ra) = s.modSeq s.cur f) :
    exec (.movcWrite c ra) s = .next (done (.movcWrite c ra) .next f s) := by
  rw [exec_movcWrite_ready h, hw, State.modSeq_modSeq, done]

/-- One that changes its context as well. -/
theorem exec_movcWrite_ctx {c : CReg} {ra : Reg} {s : State} {f : Seq → Seq} {g : Ctx → Ctx} (h : ready (.movcWrite c ra) s)
    (hw : cregWrite s s.cur c (xr s ra) = (s.modCtx (s.seq s.cur).ctx g).modSeq s.cur f) :
    exec (.movcWrite c ra) s = .next (done (.movcWrite c ra) .next f (s.modCtx (s.seq s.cur).ctx g)) := by
  rw [exec_movcWrite_ready h, hw, State.modSeq_modSeq, done]
  rfl

/-- A refill changes no sequencer, and looks at none (21 R496). -/
theorem refillResume_modSeq (s : State) (c n : Nat) (f : Seq → Seq) :
    refillResume (s.modSeq n f) c = (refillResume s c).modSeq n f := by
  have hr : (s.modSeq n f).runs c = s.runs c := rfl
  unfold refillResume
  rw [hr]
  split <;> rfl

/-- A refill leaves whose turn it is. -/
theorem refillResume_cur (s : State) (c : Nat) : (refillResume s c).cur = s.cur := by
  unfold refillResume
  split <;> rfl

/-- So does a write of any control register. -/
theorem cregWrite_cur (s : State) (n : Nat) (c : CReg) (v : Word) : (cregWrite s n c v).cur = s.cur := by
  cases c with
  | cquota => exact refillResume_cur ..
  | _ => rfl

/-- cquota sets the limit and the balance, and what the quota has stopped goes on (21 R492, R496). -/
theorem exec_movcWrite_refill {c : CReg} {ra : Reg} {s : State} {f : Seq → Seq} {g : Ctx → Ctx}
    (h : ready (.movcWrite c ra) s)
    (hw : cregWrite s s.cur c (xr s ra) =
      refillResume ((s.modCtx (s.seq s.cur).ctx g).modSeq s.cur f) (s.seq s.cur).ctx) :
    exec (.movcWrite c ra) s =
      .next (done (.movcWrite c ra) .next f (refillResume (s.modCtx (s.seq s.cur).ctx g) (s.seq s.cur).ctx)) := by
  rw [exec_movcWrite_ready h, hw, refillResume_modSeq, State.modSeq_modSeq, done, refillResume_cur]
  rfl

/-- MOVCW writes the old value into xd, and then the register. -/
theorem exec_movcw_ready {rd : Reg} {c : CReg} {rb : Reg} {s : State} (h : ready (.movcw rd c rb) s)
    (hf : c = .cflags → (s.seq s.cur).inflight = []) : exec (.movcw rd c rb) s =
      .next (done (.movcw rd c rb) .next id (cregWrite (s.setX s.cur rd (cregRead s s.cur c)) s.cur c (xr s rb))) := by
  have hw : (cregWrite (s.setX s.cur rd (cregRead s s.cur c)) s.cur c (xr s rb)).cur = s.cur := cregWrite_cur ..
  rw [done, hw]
  exact (exec_movcw ..).trans (issue_ok (c := .next) h ((Op.run_bind_ok (cregReady_run hf)).trans rfl))

/-- cprio: a write without privilege keeps LMAX (06 R161). -/
theorem cprioWrite_eq (q : Seq) (v : Word) : cprioWrite q.privileged q.cprio v =
    let lmax := (if q.mode = .handler ∨ q.priv = true then v.toNat else q.cprio.toNat) / 256 % 8
    BitVec.ofNat 64 (lmax * 256 + v.toNat / 16 % 4 * 16 + min (v.toNat % 8) lmax) := by
  have lmax : (if q.privileged then fld v 8 3 else fld q.cprio 8 3) =
      (if q.mode = .handler ∨ q.priv = true then v.toNat else q.cprio.toNat) / 256 % 8 := by
    simp only [Seq.privileged, Bool.or_eq_true, beq_iff_eq]
    split <;> rfl
  rw [cprioWrite, lmax, fld_zero]
  rfl

/-- cdet: mode 11 is stored as 00 (21 R499). -/
theorem cdetWrite_eq (v : Word) : cdetWrite v = BitVec.ofNat 64 (v.toNat / 2 ^ 12 % 2 ^ 36 * 2 ^ 12) +
    BitVec.ofNat 64 (min 10 (v.toNat / 256 % 16) * 256 + (if v.getLsbD 2 then 4 else 0) +
      if v.toNat % 4 = 3 then 0 else v.toNat % 4) := by
  rw [cdetWrite, fld_zero, Nat.add_assoc, Nat.add_assoc, ← fld_address, ← Nat.add_assoc (min 10 _ * 256)]
  exact toWord_add ..

/-- csump: the size is clamped (15 R382). -/
theorem csumpWrite_eq (v : Word) : csumpWrite v = BitVec.ofNat 64 (v.toNat / 2 ^ 12 % 2 ^ 36 * 2 ^ 12) +
    BitVec.ofNat 64 (max 6 (min 16 (v.toNat % 32))) := by
  rw [csumpWrite, fld_zero, ← fld_address]
  exact toWord_add ..

/-! ## Reset (21 R510) -/

/-- No sequencer holds anything after reset. -/
@[simp] theorem State.reset_seq (n : Nat) : State.reset.seq n = Seq.reset := rfl

/-- The dies after reset. -/
theorem State.reset_die {d : Nat} (h : d < 16) : State.reset.die d = Die.reset Config.testFails d := by
  rw [State.die, dif_pos h]
  exact Vector.getElem_ofFn h

/-- The links after reset. -/
theorem State.reset_link {k : Nat} (h : k < 37) : State.reset.link k = Link.reset k := by
  have : State.reset.links.toList[k]? = some (Link.reset k) := by
    simp [State.reset, State.resetWith, h]
  rw [State.link, this]
  rfl

/-! ## OWNQ (06 R169; 02 R41) -/

/-- The line of an address in a window of g groups. -/
theorem window_line_lt {a w g : Nat} (h0 : w ≤ a) (h1 : a < w + 0x200000 * g) : (a - w) / 64 < 16 * g * 2048 := by
  omega

/-- A grant with a window has a group. -/
theorem window_pos {a w g : Nat} (h0 : w ≤ a) (h1 : a < w + 0x200000 * g) : 0 < g := by
  omega

theorem ownq_inside {q : Seq} {a : Word} (h0 : q.winVa ≤ a.toNat) (h1 : a.toNat < q.winVa + 0x200000 * q.groups.length) :
    let k := (a.toNat - q.winVa) / 64
    ownq q a = BitVec.ofNat 64 (k / (16 * q.groups.length) * 2 ^ 16 + k % q.groups.length * 2 ^ 8 +
      k / q.groups.length % 16) :=
  if_pos (by simp [twoMB, Seq.g, h0, h1])

theorem ownq_outside {q : Seq} {a : Word} (h : ¬(q.winVa ≤ a.toNat ∧ a.toNat < q.winVa + 0x200000 * q.groups.length)) :
    ownq q a = 0x8000000000000000 :=
  if_neg fun hb => h (by rwa [Bool.and_eq_true, decide_eq_true_eq, decide_eq_true_eq] at hb)

/-! ## Encoding of a system instruction (05 R104) -/

/-- A system instruction of one source, with its fields in their places. -/
theorem eSys_eq (f : BitVec 10) (d a : Reg) : eSys f d a 0 = f.toNat * 2 ^ 22 + a.val * 2 ^ 12 + d.val * 2 ^ 7 + 0x6F := by
  have majors : (3 : BitVec 2).toNat = 3 ∧ (27 : BitVec 5).toNat = 27 := ⟨rfl, rfl⟩
  simp only [eSys, e3, pk, b5, BitVec.toNat_ofFin, majors, Fin.val_zero]
  ring

end Sys2Proof.Machine

namespace Sys2Proof.Proofs
open Sys2Proof.Machine Sys2Proof.Claim

/-- Settles O22: MOVC writes what `cregRead` gives, which is each register's layout. -/
theorem controlRegisterReads : Obligations.ControlRegisterReads := by
  unfold Obligations.ControlRegisterReads
  intro rd c s q x w value hs hf
  have hv : cregRead s s.cur c = value := by cases c <;> rfl
  exact hv ▸ puts_movcRead hs hf

/-- Settles O23: each register by the change that `cregWrite` makes of it. -/
theorem controlRegisterWrites : Obligations.ControlRegisterWrites := by
  unfold Obligations.ControlRegisterWrites
  refine ⟨?_, fun rd c rb s h hf => exec_movcw_ready h hf⟩
  intro c ra s q v dirty seq ctx part h
  refine ⟨?vl, ?vlmax, ?cstage, ?cid, ?vtype, ?vcap, ?cmask0, ?cmask1, ?cvalid, ?cld, ?cgkey, ?cgdraw, ?cflags, ?ctrap,
    ?cptbase, ?cprio, ?cdet, ?cquota, ?csump⟩ <;> rintro rfl
  case vl | vlmax | cstage | cid => exact exec_movcWrite_seq h rfl
  case vtype | vcap | cmask0 | cmask1 | cvalid | cld | cgkey | cgdraw | cflags | cprio =>
    refine exec_movcWrite_seq h ?_
    simp only [cregWrite, State.modSeq_setSeq, fld_zero, cprioWrite_eq]
    rfl
  case ctrap | cptbase | cdet | csump =>
    refine exec_movcWrite_ctx h ?_
    simp only [cregWrite, cdetWrite_eq, csumpWrite_eq]
    rfl
  case cquota =>
    refine exec_movcWrite_refill h ?_
    simp only [cregWrite, fld_zero]
    rfl

/-- Settles O24: SETVL, which cuts xa at the cap, and its fields. -/
theorem setVectorLength : Obligations.SetVectorLength := by
  unfold Obligations.SetVectorLength
  exact fun rd ra s => ⟨eSys_eq .., fun h => exec_setvl_ready h⟩

/-- Settles O33: OWNQ writes `ownq` of xa, whose fields are those of the line's place in the window. -/
theorem ownershipQuery : Obligations.OwnershipQuery := by
  unfold Obligations.OwnershipQuery
  intro rd ra s q a g k
  refine ⟨eSys_eq .., fun h0 h1 => ⟨?_, ?_, ?_⟩, fun h => ?_⟩
  · exact puts_scalar (exec_ownq ..) (ownq_inside h0 h1)
  · exact Nat.div_lt_of_lt_mul (window_line_lt h0 h1)
  · exact Nat.mod_lt _ (window_pos h0 h1)
  · exact puts_scalar (exec_ownq ..) (ownq_outside h)

/-- Settles O16: the reset state's own fields, with its dies and links by their lemmas. -/
theorem resetState : Obligations.ResetState := by
  unfold Obligations.ResetState
  refine ⟨fun n => ?_, fun a => rfl, fun q => rfl, rfl, rfl, rfl, fun d hd => ?_, fun k hk => ?_, rfl, rfl, rfl, rfl, rfl,
    rfl, rfl, rfl, rfl⟩
  · rw [State.reset_seq]
    exact ⟨rfl, rfl, rfl, rfl, rfl, rfl, rfl, rfl, rfl, rfl, rfl⟩
  · rw [State.reset_die hd]
    exact ⟨rfl, rfl, rfl, rfl, rfl, rfl, rfl, rfl, rfl, rfl, rfl, rfl⟩
  · rw [State.reset_link hk]
    rfl

/-- Settles O20: the decoder, evaluated. -/
theorem exampleWords : Obligations.ExampleWords := by
  unfold Obligations.ExampleWords
  decide

end Sys2Proof.Proofs
end

section
/-!
SUPPORT. What a write leaves: of a sequencer all but its watchers and its window's dirty record (02 R57; 06 R171; 12 R315; 15
R389), and of the state what the later steps of a scalar access look at.
-/
namespace Sys2Proof.Machine
open Sys2Proof.Claim

/-! ## What seeing a write changes -/

/-- The second sequencer is the first with other watchers and another dirty record; its group is open if it was. -/
def Seq.Watched (q r : Seq) : Prop := ∃ m g d h, g.st = q.grp.st ∧
  r = { q with monitor := m, grp := g, dirtyGran := d, hwm := h }

/-- A group that sees a write stays open or closed. -/
theorem Group.note_st (g : Group) (key n : Nat) : (g.note key n).st = g.st := by
  unfold Group.note
  dsimp only
  split
  · split <;> rfl
  · split <;> rfl

/-- A monitor and a group that see a write. -/
theorem Seq.watch_eq (q : Seq) (key n : Nat) : ∃ m g, g.st = q.grp.st ∧ q.watch key n = { q with monitor := m, grp := g } := by
  unfold Seq.watch
  dsimp only
  split
  · split
    · exact ⟨_, _, Group.note_st .., rfl⟩
    · exact ⟨q.monitor, _, Group.note_st .., rfl⟩
  · exact ⟨q.monitor, _, Group.note_st .., rfl⟩

/-- A sequencer that sees a write changes its watchers and its dirty record alone. -/
theorem Seq.watched_note (q : Seq) (key n : Nat) : q.Watched (q.note key n) := by
  obtain ⟨m, g, hg, h⟩ := Seq.watch_eq q key n
  unfold Seq.note
  dsimp only
  rw [h]
  split
  · exact ⟨m, g, _, _, hg, rfl⟩
  · exact ⟨m, g, q.dirtyGran, q.hwm, hg, rfl⟩

theorem Seq.Watched.refl (q : Seq) : q.Watched q := ⟨q.monitor, q.grp, q.dirtyGran, q.hwm, rfl, rfl⟩

theorem Seq.Watched.trans {p q r : Seq} (h : p.Watched q) (h' : q.Watched r) : p.Watched r := by
  obtain ⟨_, _, _, _, hg, rfl⟩ := h
  obtain ⟨m, g, d, w, hg', rfl⟩ := h'
  exact ⟨m, g, d, w, hg'.trans hg, rfl⟩

/-- A part of a sequencer that is none of these is left. -/
theorem Seq.Watched.part {α : Type} {q r : Seq} (h : q.Watched r) (part : Seq → α)
    (hp : ∀ q m g d w, part { q with monitor := m, grp := g, dirtyGran := d, hwm := w } = part q) : part r = part q := by
  obtain ⟨m, g, d, w, -, rfl⟩ := h
  exact hp q m g d w

/-! ## States that differ by writes -/

/-- The second state is the first after writes that every sequencer has seen; what it holds in memory, its full bits and its
caches may be others. -/
structure Noted (s t : State) : Prop where
  seqs : ∃ f : Seq → Seq, t.seqs = s.seqs.map (fun p => (p.1, f p.2)) ∧ ∀ q, Seq.Watched q (f q)
  cur : t.cur = s.cur
  ctxs : t.ctxs = s.ctxs
  links : t.links = s.links
  now : t.now = s.now
  marks : t.marks = s.marks
  landings : t.landings = s.landings
  soft : s.soft = [] → t.soft = []

theorem Noted.refl (s : State) : Noted s s :=
  ⟨⟨id, by simp, Seq.Watched.refl⟩, rfl, rfl, rfl, rfl, rfl, rfl, id⟩

theorem Noted.trans {s t u : State} (h : Noted s t) (h' : Noted t u) : Noted s u := by
  obtain ⟨f, hf, wf⟩ := h.seqs
  obtain ⟨g, hg, wg⟩ := h'.seqs
  exact ⟨⟨g ∘ f, by rw [hg, hf, List.map_map]; rfl, fun q => (wf q).trans (wg (f q))⟩, h'.cur.trans h.cur,
    h'.ctxs.trans h.ctxs, h'.links.trans h.links, h'.now.trans h.now, h'.marks.trans h.marks,
    h'.landings.trans h.landings, h'.soft ∘ h.soft⟩

/-- Every watcher sees a write. -/
theorem noted_note (s : State) (key n : Nat) : Noted s (s.note key n) :=
  ⟨⟨fun q => q.note key n, rfl, fun q => Seq.watched_note q key n⟩, rfl, rfl, rfl, rfl, rfl, rfl, id⟩

/-- Bytes are written. -/
theorem noted_poke (s : State) (key : Nat) (bs : List Byte) : Noted s (s.poke key bs) :=
  ⟨⟨fun q => q.note key bs.length, rfl, fun q => Seq.watched_note q key bs.length⟩, rfl, rfl, rfl, rfl, rfl, rfl,
    fun h => by rw [State.poke, State.note_soft, h]; rfl⟩

/-- Words become full or empty. -/
theorem noted_markWords (s : State) (ws : List Nat) (full : Bool) : Noted s (s.markWords ws full) := by
  induction ws generalizing s with
  | nil => exact Noted.refl s
  | cons w ws ih =>
    refine Noted.trans (t := State.note { s with empty := if full then nsetDel w s.empty else nsetAdd w s.empty } (8 * w) 8)
      ?_ (ih _)
    exact ⟨⟨fun q => q.note (8 * w) 8, rfl, fun q => Seq.watched_note q (8 * w) 8⟩, rfl, rfl, rfl, rfl, rfl, rfl, id⟩

/-- Bits of a table entry are set. -/
theorem noted_setEntryBits (s : State) (key : Nat) (bits : Word) : Noted s (setEntryBits s key bits) := by
  unfold setEntryBits
  split
  · exact Noted.refl s
  · exact noted_poke s _ _

/-- D is set. -/
theorem noted_dirty (s : State) (d : Nat) (p : Phys) : Noted s (s.dirty d p) := by
  unfold State.dirty
  split
  · exact Noted.refl s
  · obtain ⟨hs, hc, hx, hl, hn, hm, hd, he⟩ := noted_setEntryBits s p.entry (1 <<< 57)
    exact ⟨hs, hc, hx, hl, hn, hm, hd, he⟩

section Noted
variable {s t : State} (h : Noted s t)
include h

/-- A part of a sequencer that is no watcher is left. -/
theorem Noted.seq {α : Type} (part : Seq → α)
    (hp : ∀ q m g d w, part { q with monitor := m, grp := g, dirtyGran := d, hwm := w } = part q) (n : Nat) :
    part (t.seq n) = part (s.seq n) := by
  obtain ⟨f, hf, wf⟩ := h.seqs
  exact State.seq_mapped part hf (fun q => (wf q).part part hp) n

/-- No group opens. -/
theorem Noted.groupsClosed (hg : s.seqs.all (fun q => q.2.grp.st == .none) = true) :
    t.seqs.all (fun q => q.2.grp.st == .none) = true := by
  obtain ⟨f, hf, wf⟩ := h.seqs
  have st (q : Seq) : (f q).grp.st = q.grp.st := by
    obtain ⟨_, _, _, _, hst, hr⟩ := wf q
    rw [hr]
    exact hst
  rw [hf, List.all_map]
  simpa only [Function.comp_def, st] using hg

/-- The window that holds a key is that of the same sequencer. -/
theorem Noted.winOf {key i : Nat} {q : Seq} (hq : t.winOf key = some (i, q)) :
    ∃ q', s.winOf key = some (i, q') ∧ q'.Watched q := by
  obtain ⟨f, hf, wf⟩ := h.seqs
  have same : (fun p : Nat × Seq => (p.2.winPa ≤ key && key < p.2.winPa + twoMB * p.2.groups.length : Bool)) ∘
      (fun p : Nat × Seq => (p.1, f p.2)) = fun p => (p.2.winPa ≤ key && key < p.2.winPa + twoMB * p.2.groups.length : Bool) := by
    funext ⟨j, q⟩
    simp only [Function.comp_def, (wf q).part Seq.winPa fun _ _ _ _ _ => rfl,
      (wf q).part Seq.groups fun _ _ _ _ _ => rfl]
  unfold State.winOf at hq ⊢
  rw [hf, List.find?_map, same, Option.map_eq_some_iff] at hq
  obtain ⟨⟨j, q'⟩, hfind, heq⟩ := hq
  cases heq
  exact ⟨q', hfind, wf q'⟩

/-- The ways are as they were. -/
theorem Noted.wayTo (d key : Nat) : t.wayTo d key = s.wayTo d key := by
  have link : t.link = s.link := by
    funext k
    unfold State.link
    rw [h.links]
  have hover : wayOver t = wayOver s := by
    funext k
    unfold wayOver
    rw [link]
  unfold State.wayTo wayOut wayDies wayAlong downOn
  rw [hover, link, h.now]

/-- A place that was clear still is. -/
theorem Noted.clear {p : Phys} {n : Nat} (hc : clear s p n) : clear t p n := by
  obtain ⟨h0, h1, hn, hs, hm, hl, hv, hk, hr⟩ := hc
  refine ⟨h0, h1, hn, h.soft hs, h.marks.trans hm, h.landings ▸ hl, ?_, ?_, fun i q hq => ?_⟩
  · rw [h.cur, h.seq Seq.versions fun _ _ _ _ _ => rfl, hv]
  · rw [h.cur, h.seq Seq.kept fun _ _ _ _ _ => rfl, hk]
  · obtain ⟨q', hq', w⟩ := h.winOf hq
    rw [w.part Seq.reads fun _ _ _ _ _ => rfl, hr i q' hq']

/-- Nothing gets in flight or is held. -/
theorem Noted.quiet (hq : quiet s) : quiet t := by
  obtain ⟨hi, hh⟩ := hq
  exact ⟨by rw [h.cur, h.seq Seq.inflight fun _ _ _ _ _ => rfl, hi],
    by rw [h.cur, h.seq Seq.held fun _ _ _ _ _ => rfl, hh]⟩

/-- Determinism mode holds what it held. -/
theorem Noted.holds (n : Nat) (ordered : Bool) (p : Phys) : t.holds n ordered p = s.holds n ordered p := by
  unfold State.holds State.det State.ctx
  rw [h.ctxs, h.seq Seq.ctx fun _ _ _ _ _ => rfl]

end Noted

/-! ## The state after a store -/

/-- A handler's store to its window leaves each part of the sequencer but what it keeps of lines. -/
theorem storeVersions_part {α : Type} (part : Seq → α)
    (hp : ∀ q r k v, part { q with reads := r, kept := k, versions := v } = part q) (q : Seq) (key : Nat) (bs : List Byte) : part (storeVersions q key bs) = part q := hp q _ _ _

/-- Before a handler's versions are changed a store is a write that every sequencer sees. -/
theorem stored_noted (s : State) (p : Phys) (bs : List Byte) : ∃ t, Noted s t ∧
    (t.mem = ((s.dirty (dieOf s.cur) p).poke p.key bs).mem) ∧
    (stored s p bs = t ∨ stored s p bs = t.modSeq s.cur fun q => storeVersions q p.key bs) := by
  have hd := noted_dirty s (dieOf s.cur) p
  have hcur : (s.dirty (dieOf s.cur) p).cur = s.cur := hd.cur
  have ends (t : State) (c : Bool) : (if c then t.modSeq s.cur fun q => storeVersions q p.key bs else t) = t ∨
      (if c then t.modSeq s.cur fun q => storeVersions q p.key bs else t) =
        t.modSeq s.cur fun q => storeVersions q p.key bs := by
    cases c
    · exact .inl rfl
    · exact .inr rfl
  unfold stored
  dsimp only
  rw [hcur]
  by_cases h0 : p.tier = 0
  · simp only [if_pos h0]
    exact ⟨_, (hd.trans (noted_poke _ _ _)).trans (noted_markWords _ _ _), State.markWords_mem .., ends _ _⟩
  · simp only [if_neg h0]
    exact ⟨_, hd.trans (noted_poke _ _ _), rfl, ends _ _⟩

/-- What a store writes to memory. -/
theorem stored_mem (s : State) (p : Phys) (bs : List Byte) :
    (stored s p bs).mem = ((s.dirty (dieOf s.cur) p).poke p.key bs).mem := by
  obtain ⟨t, -, hm, h | h⟩ := stored_noted s p bs
  · rw [h, hm]
  · rw [h]
    exact hm

/-- The turn stays with the sequencer that stores. -/
@[simp] theorem stored_cur (s : State) (p : Phys) (bs : List Byte) : (stored s p bs).cur = s.cur := by
  obtain ⟨t, ht, -, h | h⟩ := stored_noted s p bs
  · rw [h, ht.cur]
  · rw [h]
    exact ht.cur

/-- A store leaves each part of each sequencer but its watchers and what it keeps of lines. -/
theorem stored_seq {α : Type} (part : Seq → α)
    (hp : ∀ q m g d w, part { q with monitor := m, grp := g, dirtyGran := d, hwm := w } = part q)
    (hv : ∀ q r k v, part { q with reads := r, kept := k, versions := v } = part q) (s : State) (p : Phys) (bs : List Byte)
    (m : Nat) : part ((stored s p bs).seq m) = part (s.seq m) := by
  obtain ⟨t, ht, -, h | h⟩ := stored_noted s p bs
  · rw [h, ht.seq part hp]
  · rw [h]
    by_cases hm : m = s.cur
    · rw [hm, State.seq_modSeq, storeVersions_part part hv, ht.seq part hp]
    · rw [State.seq_modSeq_other _ _ _ _ hm, ht.seq part hp]

/-! ## D in a table entry (13 R339) -/

/-- Bytes are a number below the power of 256 that they can write. -/
theorem ofBytes_lt (l : List Byte) : ofBytes l < 256 ^ l.length := by
  induction l with
  | nil => exact Nat.one_pos
  | cons b r ih =>
    have hb : b.toNat < 256 := b.isLt
    rw [ofBytes, List.length_cons, pow_succ]
    omega

theorem Mem.num_lt (m : Mem) (a n : Nat) : m.num a n < 256 ^ n := by
  simpa only [Mem.num, Mem.read_length] using ofBytes_lt (m.read a n)

/-- An entry holds what it is written with. -/
theorem Mem.num_write_bytes (m : Mem) (a : Nat) (w : Word) : (m.write a (bytesOf 8 w.toNat)).num a 8 = w.toNat := by
  have h := Mem.read_write m a (bytesOf 8 w.toNat)
  rw [bytesOf_length] at h
  rw [Mem.num, h, ofBytes_bytesOf]
  exact Nat.mod_eq_of_lt w.isLt

/-- Setting bits of an entry, with no group open, sets them in its eight bytes and changes no other. -/
theorem setEntryBits_mem {s : State} (hg : s.seqs.all (fun q => q.2.grp.st == .none) = true) (key : Nat) (bits : Word) :
    (setEntryBits s key bits).mem.num key 8 = s.mem.num key 8 ||| bits.toNat ∧
      ∀ a, (a < key ∨ key + 8 ≤ a) → (setEntryBits s key bits).mem.get a = s.mem.get a := by
  have hlt : s.mem.num key 8 < 2 ^ 64 := Mem.num_lt s.mem key 8
  have word : (toWord (s.mem.num key 8) ||| bits).toNat = s.mem.num key 8 ||| bits.toNat := by
    rw [BitVec.toNat_or, toWord, BitVec.toNat_ofNat, Nat.mod_eq_of_lt hlt]
  unfold setEntryBits
  split
  · rename_i h
    refine ⟨?_, fun _ _ => rfl⟩
    rw [← word, h, toWord, BitVec.toNat_ofNat, Nat.mod_eq_of_lt hlt]
  · rw [State.poke_mem hg, Mem.num_write_bytes, word]
    exact ⟨rfl, fun a ha => Mem.get_write_other _ _ _ _ (by simpa using ha)⟩

/-- The entry of a cached translation whose D is set as the table's is. -/
def TlbEntry.dirtied (p : Phys) (t : TlbEntry) : TlbEntry :=
  if t.entry = p.entry && t.leaf = p.leaf then { t with leaf := t.leaf ||| 1 <<< 57 } else t

theorem State.dirty_of_set {s : State} {p : Phys} (h : eD p.leaf = true) (d : Nat) : s.dirty d p = s := if_pos h

/-- A leaf with D clear gets D in its entry and in the copies of its die. -/
theorem State.dirty_of_clear {s : State} {p : Phys} (h : eD p.leaf = false) (d : Nat) :
    s.dirty d p = (setEntryBits s p.entry (1 <<< 57)).modDie d (·.mapTlb (·.map (TlbEntry.dirtied p))) :=
  if_neg (by rw [h]; exact Bool.false_ne_true)

/-- A die that has been changed reads as changed. -/
theorem State.die_modDie_same (s : State) (d : Nat) (f : Die → Die) (hd : d < 16) : (s.modDie d f).die d = f (s.die d) := by
  simp [State.modDie, State.setDie, State.die, hd]

/-- Setting bits of an entry leaves the dies. -/
theorem setEntryBits_die (s : State) (key : Nat) (bits : Word) (d : Nat) : (setEntryBits s key bits).die d = s.die d := by
  unfold setEntryBits
  split <;> rfl

/-- A cache whose copies of a leaf have got D gives the copy with D. -/
theorem tlbHit_dirtied {d : Die} {p : Phys} {space va : Nat} {t : TlbEntry} (h : tlbHit d space va = some t)
    (he : t.entry = p.entry) (hl : t.leaf = p.leaf) :
    tlbHit (d.mapTlb (·.map (TlbEntry.dirtied p))) space va = some { t with leaf := t.leaf ||| 1 <<< 57 } := by
  have same : (fun t : TlbEntry => t.space == space && t.vpn ≤ va / 4096 && va / 4096 < t.vpn + t.pages) ∘
      TlbEntry.dirtied p = fun t => t.space == space && t.vpn ≤ va / 4096 && va / 4096 < t.vpn + t.pages := by
    funext t
    unfold Function.comp TlbEntry.dirtied
    split <;> rfl
  have hit : t.dirtied p = { t with leaf := t.leaf ||| 1 <<< 57 } := if_pos (by rw [he, hl]; simp)
  unfold tlbHit tlbFind at h ⊢
  rw [Die.mapTlb, List.find?_map, same, h, Option.map_some, hit]

end Sys2Proof.Machine
end

section
namespace Sys2Proof.Proofs
open Sys2Proof.Machine Sys2Proof.Claim

/-- Settles O30: the bytes of a write with no group open, over the state that D has left; the rest of the store changes full
bits, watchers and versions alone. -/
theorem storedBytes : Obligations.StoredBytes := by
  unfold Obligations.StoredBytes
  intro s p bs d hg
  have hmem : (stored s p bs).mem = (s.dirty d p).mem.write p.key bs := by
    rw [stored_mem, State.poke_mem ((noted_dirty s d p).groupsClosed hg)]
  rw [hmem]
  refine ⟨fun k h => Mem.get_write _ _ _ k h, fun a ha => Mem.get_write_other _ _ _ _ ha,
    fun h => State.dirty_of_set h d, fun h => ?_, fun m => ⟨?_, ?_, ?_, ?_⟩⟩
  · rw [State.dirty_of_clear h, State.modDie_mem]
    obtain ⟨hnum, hother⟩ := setEntryBits_mem hg p.entry (1 <<< 57)
    refine ⟨hnum, hother, fun space va t hd ht he hl => ?_⟩
    rw [State.die_modDie_same _ _ _ hd, setEntryBits_die]
    exact tlbHit_dirtied ht he hl
  · exact stored_seq Seq.x (fun _ _ _ _ _ => rfl) (fun _ _ _ _ => rfl) s p bs m
  · exact stored_seq Seq.pc (fun _ _ _ _ _ => rfl) (fun _ _ _ _ => rfl) s p bs m
  · exact stored_seq Seq.isn (fun _ _ _ _ _ => rfl) (fun _ _ _ _ => rfl) s p bs m
  · exact stored_seq Seq.cflags (fun _ _ _ _ _ => rfl) (fun _ _ _ _ => rfl) s p bs m

end Sys2Proof.Proofs
end

section
/-!
SUPPORT. The address of a scalar access (06 R140): the place, or the trap of the first check that fails.
-/
namespace Sys2Proof.Machine
open Sys2Proof.Claim

/-! ## The place (06 R140) -/

/-- A tier up to k is accepted by an access that accepts these. -/
theorem testBit_tiers {k t : Nat} (h : t ≤ k) : (2 ^ (k + 1) - 1).testBit t = true := by
  rw [Nat.testBit_two_pow_sub_one]
  exact decide_eq_true (by omega)

/-- A tier above is not. -/
theorem testBit_tiers_above {k t : Nat} (h : k < t) : (2 ^ (k + 1) - 1).testBit t = false := by
  rw [Nat.testBit_two_pow_sub_one]
  exact decide_eq_false (by omega)

/-- What the checks of a scalar access make of a translation (06 R140, the last steps of `scalarAddr`). -/
def placeOf (n a : Nat) (acc : Access) (tiers : Nat) (ordered : Bool) (s : State) : Xl → Op Phys
  | .ok p => do
    if !tiers.testBit p.tier then trapWith 0x14 a
    if !s.holds n ordered p then needRoute (dieOf n) a p
    pure p
  | .prot => trapWith 0x08 a
  | _ => trapWith (if accWrites acc then 0x06 else 0x05) a

/-- A trap at an address that is a word. -/
theorem trapWith_word {α : Type} (c : Nat) (v : Word) (s : State) :
    (trapWith c v.toNat : Op α).run s = .error (.trap ⟨c, v, 0⟩) s := by
  rw [Op.run_trapWith, toWord, toWord, BitVec.ofNat_toNat, BitVec.setWidth_eq]
  rfl

section Addr
variable {s : State} {n size tiers : Nat} {va : Word} {acc : Access} {p : Phys} {ordered : Bool}

/-- An aligned address below 2^48 goes to its translation. -/
theorem scalarAddr_translates (hv : va.toNat < 2 ^ 48) (ha : va.toNat % size = 0) {x : Xl}
    (hx : (xlateOp n (n / 16) (s.seq n).ctx va.toNat acc).run s = .ok x s) :
    (scalarAddr n va size acc tiers ordered).run s = (placeOf n va.toNat acc tiers ordered s x).run s := by
  unfold scalarAddr
  dsimp only
  refine (Op.run_if_neg (by omega)).trans ?_
  refine (Op.run_if_neg (by simp [ha])).trans ?_
  refine (Op.run_bind_ok (Op.run_get s)).trans ?_
  refine (Op.run_bind_ok hx).trans ?_
  cases x <;> rfl

/-- The translation that the die's cache holds. -/
theorem xlateOp_held (h : reaches s n acc va.toNat p) :
    (xlateOp n (n / 16) (s.seq n).ctx va.toNat acc).run s = .ok (.ok p) s :=
  (xlateOp_reaches (pl := none) h fun _ ht => ht).elim fun _ ht => ht

/-- An aligned address whose translation is held, in a tier that the access accepts, gives its place. -/
theorem scalarAddr_run (ha : va.toNat % size = 0) (hr : reaches s n acc va.toNat p) (ht : tiers.testBit p.tier = true) :
    (scalarAddr n va size acc tiers ordered).run s = .ok p s := by
  have hx := xlateOp_held hr
  obtain ⟨hv, -, -, hw, -⟩ := hr
  refine (scalarAddr_translates hv ha hx).trans ?_
  dsimp only [placeOf]
  rw [ht]
  refine (Op.run_when (by simp)).trans ?_
  exact (Op.run_when fun _ => needRoute_run hw).trans rfl

/-- An address at or above 2^48 raises PFAULT. -/
theorem scalarAddr_high (hv : 2 ^ 48 ≤ va.toNat) : (scalarAddr n va size acc tiers ordered).run s =
    .error (.trap ⟨if accWrites acc then 0x06 else 0x05, va, 0⟩) s := by
  unfold scalarAddr
  dsimp only
  exact (Op.run_if_pos hv).trans (trapWith_word ..)

/-- A misaligned one raises MISALIGN. -/
theorem scalarAddr_misaligned (hv : va.toNat < 2 ^ 48) (ha : va.toNat % size ≠ 0) :
    (scalarAddr n va size acc tiers ordered).run s = .error (.trap ⟨0x04, va, 0⟩) s := by
  unfold scalarAddr
  dsimp only
  refine (Op.run_if_neg (by omega)).trans ?_
  exact (Op.run_if_pos (by simp [ha])).trans (trapWith_word ..)

/-- One in a tier that the access does not accept raises TIER. -/
theorem scalarAddr_tier (ha : va.toNat % size = 0) (hr : reaches s n acc va.toNat p) (ht : tiers.testBit p.tier = false) :
    (scalarAddr n va size acc tiers ordered).run s = .error (.trap ⟨0x14, va, 0⟩) s := by
  have hx := xlateOp_held hr
  obtain ⟨hv, -⟩ := hr
  refine (scalarAddr_translates hv ha hx).trans ?_
  dsimp only [placeOf]
  refine (Op.run_if_pos (by rw [ht]; rfl)).trans ?_
  exact Op.run_bind_error (trapWith_word ..)

/-- A held translation without the permission: the trap comes before any other look at the place. -/
theorem xlateOp_prot {t : TlbEntry} (hv : va.toNat < 2 ^ 48) (hm : s.migs = [])
    (ht : tlbHit (s.die (n / 16)) (fld (s.ctx (s.seq n).ctx).cptbase 0 12) va.toNat = some t)
    (hp : permits t.leaf acc = false) :
    (xlateOp n (n / 16) (s.seq n).ctx va.toNat acc).run s = .ok .prot s := by
  rw [fld_space] at ht
  have hit : cacheHit (s.die (n / 16)) none ((s.ctx (s.seq n).ctx).cptbase.toNat % 4096) va.toNat = some t := ht
  have hx : xlate s (n / 16) (s.seq n).ctx va.toNat acc false none = (.prot, s) := by
    unfold xlate xlateRoot
    rw [if_neg (by omega), findLeaf_hit hit]
    dsimp only
    rw [hp]
    rfl
  unfold xlateOp
  rw [Op.run_bind_ok (Op.run_get s)]
  dsimp only
  rw [hm, List.any_nil, hx]
  dsimp only
  rw [hm, List.filter_nil, ← hm]
  rfl

/-- It raises PROT. -/
theorem scalarAddr_prot {t : TlbEntry} (hv : va.toNat < 2 ^ 48) (ha : va.toNat % size = 0) (hm : s.migs = [])
    (ht : tlbHit (s.die (n / 16)) (fld (s.ctx (s.seq n).ctx).cptbase 0 12) va.toNat = some t)
    (hp : permits t.leaf acc = false) :
    (scalarAddr n va size acc tiers ordered).run s = .error (.trap ⟨0x08, va, 0⟩) s := by
  exact (scalarAddr_translates hv ha (xlateOp_prot hv hm ht hp)).trans (trapWith_word ..)

end Addr

/-! ## The instructions (06 R141 to R143) -/

/-- A scalar memory instruction performs its access. -/
theorem exec_smem {i : Instr} {a : SAcc} (h : smem i = some a) (s : State) : exec i s = issue i (scalarMem i a) s := by
  unfold smem at h
  split at h
  all_goals cases h
  · exact exec_ld ..
  · exact exec_st ..
  · exact exec_ldfe ..
  · exact exec_amo ..
  · exact exec_amocas ..
  · exact exec_cLd ..
  · exact exec_cSt ..

/-- What its address raises, it raises. -/
theorem traps_of_addr {i : Instr} {a : SAcc} {s : State} {c : Nat} {v w : Word} (h : smem i = some a)
    (ht : (scalarAddr s.cur (xr s a.ra + a.off) a.size a.kind.acc a.kind.tiers (a.kind != .st)).run s =
      .error (.trap ⟨c, v, w⟩) s) : traps i c v w s := by
  refine traps_of_body (exec_smem h s) ?_
  unfold scalarMem
  refine (Op.run_bind_ok (Op.run_getSeq _ s)).trans ?_
  exact Op.run_bind_error ht

/-- A tier above those of an instruction. -/
theorem tier_refused {i : Instr} {a : SAcc} {t : Nat} (h : smem i = some a) (ht : match (generalizing := false) i with
      | .ld .. | .st .. | .cLd .. | .cSt .. => 4 < t
      | .ldfe .. => t ≠ 0
      | _ => 2 < t) : a.kind.tiers.testBit t = false := by
  unfold smem at h
  split at h
  all_goals cases h
  · exact testBit_tiers_above (k := 4) ht
  · exact testBit_tiers_above (k := 4) ht
  · exact testBit_tiers_above (k := 0) (Nat.pos_of_ne_zero ht)
  · exact testBit_tiers_above (k := 2) ht
  · exact testBit_tiers_above (k := 2) ht
  · exact testBit_tiers_above (k := 4) ht
  · exact testBit_tiers_above (k := 4) ht

end Sys2Proof.Machine

namespace Sys2Proof.Proofs
open Sys2Proof.Machine Sys2Proof.Claim

/-- Settles O31: each check of the address in turn. -/
theorem addressTraps : Obligations.AddressTraps := by
  unfold Obligations.AddressTraps
  intro i a s h va acc
  refine ⟨fun hv => traps_of_addr h (scalarAddr_high hv), fun hv ha => traps_of_addr h (scalarAddr_misaligned hv ha),
    fun hv ha hm t ht hp => traps_of_addr h (scalarAddr_prot hv ha hm ht hp),
    fun p ha hp ht => traps_of_addr h (scalarAddr_tier ha hp.1 (tier_refused h ht))⟩

end Sys2Proof.Proofs
end

section
/-!
SUPPORT. Reading and writing the bytes of a scalar access at a place that is clear, with nothing in flight and nothing held (02
R49 to R57; 06 R140 to R143; 08 R214; 15 R379; 21 R500).
-/
namespace Sys2Proof.Machine
open Sys2Proof.Claim

/-! ## Bytes and numbers -/

/-- The bytes of the number that bytes make are these bytes. -/
theorem bytesOf_ofBytes (l : List Byte) : bytesOf l.length (ofBytes l) = l := by
  induction l with
  | nil => rfl
  | cons b r ih =>
    have hb : b.toNat < 256 := b.isLt
    have low : BitVec.ofNat 8 (b.toNat + 256 * ofBytes r) = b := by
      apply BitVec.eq_of_toNat_eq
      rw [BitVec.toNat_ofNat]
      omega
    have high : (b.toNat + 256 * ofBytes r) / 256 = ofBytes r := by omega
    rw [ofBytes, List.length_cons, bytesOf, low, high, ih]

/-- Part of the bytes read. -/
theorem Mem.read_part (m : Mem) {a k len n : Nat} (h : k + len ≤ n) :
    ((m.read a n).drop k).take len = m.read (a + k) len := by
  refine List.ext_getElem? fun j => ?_
  rw [List.getElem?_take]
  split
  · rw [List.getElem?_drop, Mem.read_get _ _ _ _ (by omega), Mem.read_get _ _ _ _ ‹j < len›, Nat.add_assoc]
  · rw [List.getElem?_eq_none (by rw [Mem.read_length]; omega)]

/-! ## The place of an aligned address -/

/-- A page begins at a multiple of eight bytes, and so does each place of it whose address does. -/
theorem leafKey_mod (e : Word) (level va : Nat) : leafKey e level va % 8 = va % 8 := by
  have hps : 8 ∣ pageSize e level := Dvd.dvd.mul_left (pow_dvd_pow 2 (show 3 ≤ 12 + 9 * level by omega)) _
  have hbase : 8 ∣ pageBase e level := Dvd.dvd.mul_left hps _
  have hpage : va % pageSize e level % 8 = va % 8 := Nat.mod_mod_of_dvd va hps
  unfold leafKey
  dsimp only
  split <;> omega

/-- An aligned access of four or eight bytes lies in one line. -/
theorem reaches_in_line {s : State} {n va len : Nat} {acc : Access} {p : Phys} (h : reaches s n acc va p)
    (hl : len = 4 ∨ len = 8) (ha : va % len = 0) : p.key % 64 + len ≤ 64 := by
  obtain ⟨-, -, -, -, t, -, -, hp⟩ := h
  have hk : p.key % 8 = va % 8 := by rw [hp]; exact leafKey_mod ..
  obtain rfl | rfl := hl <;> omega

/-! ## Full words -/

/-- The words that an access within a line needs are full in the line's full bits. -/
theorem fullBits_part {s : State} {key len : Nat} (hn : 0 < len) (h : ∀ w, w ∈ wordsOf key len → s.full (8 * w) = true) :
    (((s.fullBits (key / 64)).drop (key % 64 / 8)).take ((key % 64 + len - 1) / 8 + 1 - key % 64 / 8)).all (fun b => b) =
      true := by
  refine List.all_eq_true.2 fun b hb => ?_
  obtain ⟨j, hj⟩ := List.mem_iff_getElem?.1 hb
  rw [List.getElem?_take] at hj
  split at hj
  · rw [List.getElem?_drop, State.fullBits, List.getElem?_map, Option.map_eq_some_iff] at hj
    obtain ⟨i, hi, rfl⟩ := hj
    obtain ⟨-, rfl⟩ := List.getElem?_eq_some_iff.1 hi
    rw [List.getElem_range]
    have word : 64 * (key / 64) + 8 * (key % 64 / 8 + j) = 8 * (key / 8 + j) := by omega
    rw [word]
    exact h _ (List.mem_map.2 ⟨j, List.mem_range.2 (by omega), rfl⟩)
  · cases hj

/-- Nothing stops an access to full words. -/
theorem needFull_run {s : State} {pol : Bool} {va key n : Nat} {bits : List Bool} {own : Option (Nat × BitVec 32)}
    (h : bits.all (fun b => b) = true) : (needFull s pol va key n bits own).run s = .ok () s :=
  Op.run_if_pos h

/-- Nothing held is performed. -/
theorem drainAt_idle {s : State} {n : Nat} (h : (s.seq n).held = []) (key len : Nat) : drainAt n key len s = s := by
  unfold drainAt
  rw [h]
  rfl

/-- With nothing in flight no version is kept. -/
theorem saveVersion_quiet {s : State} (hq : quiet s) (isn : BitVec 32) (key : Nat) :
    (saveVersion s.cur isn key).run s = .ok () s := by
  obtain ⟨hi, -⟩ := hq
  unfold saveVersion
  refine (Op.run_bind_ok (Op.run_get s)).trans ?_
  exact Op.run_if_pos (by rw [hi]; rfl)

section Clear
variable {s : State} {p : Phys} {len : Nat} (hc : clear s p len)
include hc

/-- No landing is due where no word is marked. -/
theorem markOn_clear (w : Nat) : s.markOn w = none := by
  obtain ⟨-, -, -, -, hm, -⟩ := hc
  rw [State.markOn, hm]
  rfl

theorem landingDue_clear (key n : Nat) : s.landingDue key n = false :=
  List.any_eq_false.2 fun w _ => by rw [markOn_clear hc w]; exact Bool.false_ne_true

theorem chainHeld_clear (key n : Nat) : chainHeld s key n = false := by
  obtain ⟨-, -, -, -, hm, -⟩ := hc
  unfold chainHeld
  dsimp only
  rw [hm]
  simp

theorem otherDue_clear (n : Nat) (isn : BitVec 32) (ws : List Nat) : s.otherDue n isn ws = false :=
  List.any_eq_false.2 fun w _ => by rw [markOn_clear hc w]; exact Bool.false_ne_true

/-- Nothing is kept of the window that another agent changes. -/
theorem keepOld_clear (n : Nat) : s.keepOld p.key n = s := by
  obtain ⟨-, -, -, -, -, -, -, -, hr⟩ := hc
  unfold State.keepOld
  split
  · exact if_pos (by rw [hr _ _ ‹_›]; rfl)
  · rfl

/-- The place exists and its way is open. -/
theorem needKey_clear {d : Nat} (hw : s.wayTo d p.key = .clear) (va : Option Nat) :
    (needKey va p.key len).run s = .ok () s := by
  obtain ⟨h0, h1, -⟩ := hc
  have way : ((portOf p.key).map fun k => wayOut s k p.key) = none ∨
      ((portOf p.key).map fun k => wayOut s k p.key) = some .clear := by
    unfold State.wayTo at hw
    cases hp : portOf p.key with
    | none => exact .inl rfl
    | some k =>
      rw [hp] at hw
      exact .inr (congrArg some hw)
  unfold needKey
  rw [Op.run_bind_ok (Op.run_get s), h0, h1]
  obtain h | h := way
  · rw [h]
    rfl
  · rw [h]
    rfl

/-- Its bytes. -/
theorem readKey_clear {d : Nat} (hw : s.wayTo d p.key = .clear) (va : Option Nat) :
    (readKey va p.key len).run s = .ok (s.mem.read p.key len) s := by
  have key := needKey_clear hc hw va
  obtain ⟨-, -, hn, hs, -⟩ := hc
  unfold readKey
  rw [Op.run_bind_ok key, Op.run_bind_ok (checkSoft_run hs), Op.run_bind_ok (Op.run_get s), hn]
  rfl

/-- Writing them. -/
theorem writeKey_clear {d : Nat} (hw : s.wayTo d p.key = .clear) {bs : List Byte} (hb : bs.length = len) (va : Option Nat) :
    (writeKey p.key bs va).run s = .ok () (s.poke p.key bs) := by
  have key := needKey_clear hc hw va
  obtain ⟨-, -, hn, -⟩ := hc
  unfold writeKey
  rw [hb, Op.run_bind_ok key, Op.run_modify, hn]
  rfl

/-! ## Reading -/

/-- A full word outside the grant's own order. -/
theorem readForeign_clear {d : Nat} (hw : s.wayTo d p.key = .clear)
    (hf : ∀ w, w ∈ wordsOf p.key len → s.full (8 * w) = true)
    (va : Nat) : (readForeign va p.key len false).run s = .ok (s.mem.read p.key len) s := by
  have full : ((wordsOf p.key len).map fun w => s.full (8 * w)).all (fun b => b) = true := by
    rw [List.all_map]
    exact List.all_eq_true.2 hf
  unfold readForeign
  refine (Op.run_bind_ok (Op.run_get s)).trans ?_
  refine (Op.run_bind_ok (needFull_run full)).trans ?_
  refine (Op.run_if_neg (by rw [chainHeld_clear hc]; exact Bool.false_ne_true)).trans ?_
  exact readKey_clear hc hw _

/-- A full word of the grant's own window, with nothing in flight. -/
theorem pullOwn_clear (hn : 0 < len) (hq : quiet s) (hf : ∀ w, w ∈ wordsOf p.key len → s.full (8 * w) = true)
    (hl : p.key % 64 + len ≤ 64) (isn : BitVec 32) (i va : Nat) :
    (pullOwn s.cur isn i va p.key len false).run s = .ok (s.mem.read p.key len) s := by
  have chain := chainHeld_clear hc p.key len
  obtain ⟨hi, -⟩ := hq
  obtain ⟨-, -, -, hs, -, -, hv, hk, -⟩ := hc
  have line : (s.seq s.cur).overKept p.key isn i (viewLine s (s.seq s.cur) p.key isn) =
      (s.mem.read (p.key / 64 * 64) 64, s.fullBits (p.key / 64)) := by
    rw [Seq.overKept, hk, viewLine, hv]
    rfl
  unfold pullOwn
  refine (Op.run_bind_ok (Op.run_get s)).trans ?_
  refine (Op.run_if_neg (by rw [Seq.doneBelow, hi]; simp)).trans ?_
  rw [line]
  refine (Op.run_bind_ok (needFull_run (fullBits_part hn hf))).trans ?_
  refine (Op.run_if_neg (by rw [chain]; exact Bool.false_ne_true)).trans ?_
  refine (Op.run_bind_ok (checkSoft_run hs)).trans ?_
  refine (Op.run_if_neg (by rw [hi]; simp)).trans ?_
  rw [Op.run_pure, Mem.read_part _ hl, Nat.div_add_mod' p.key 64]

/-- A far place, through the sequencer's held writes, of which there are none. -/
theorem readFar_clear {d : Nat} (hw : s.wayTo d p.key = .clear) (hq : quiet s) (va : Nat) :
    (readFar s.cur va p.key len).run s = .ok (s.mem.read p.key len) s := by
  obtain ⟨-, hh⟩ := hq
  unfold readFar
  rw [Op.run_bind_ok (readKey_clear hc hw _), Op.run_bind_ok (Op.run_get s), hh, overlayHeld_nil]
  rfl

omit hc in
/-- Outside record and replay a value from a host page is what stands there. -/
theorem hostValue_run {n : Nat} (h : logMode s (s.seq n).ctx = 0) (isn : BitVec 32) (elem live : Nat) :
    (hostValue n isn elem live).run s = .ok live s := by
  unfold hostValue
  rw [Op.run_bind_ok (Op.run_get s), h]
  rfl

/-- The bytes that a scalar access finds. -/
theorem scalarRead_clear {d : Nat} (hw : s.wayTo d p.key = .clear) (hn : 0 < len) (hq : quiet s) (hf : fullAt s p len)
    (hl : p.key % 64 + len ≤ 64) (h3 : p.tier = 3 → logMode s (s.seq s.cur).ctx = 0) (k : SKind) (isn : BitVec 32)
    (va : Nat) : (scalarRead s.cur isn k va p.key len p.tier).run s = .ok (s.mem.read p.key len) s := by
  unfold scalarRead
  refine (Op.run_bind_ok (Op.run_getSeq _ s)).trans ?_
  by_cases h0 : p.tier = 0
  · refine (Op.run_if_pos h0).trans ?_
    split
    · exact pullOwn_clear hc hn hq (hf h0) hl isn 0 va
    · exact readForeign_clear hc hw (hf h0) va
  · have changes : (do modify (drainAt s.cur p.key len); readKey (some va) p.key len : Op (List Byte)).run s =
        .ok (s.mem.read p.key len) s := by
      obtain ⟨-, hh⟩ := hq
      rw [Op.run_bind_ok (Op.run_modify ..), drainAt_idle hh]
      exact readKey_clear hc hw _
    have loads : (do
        let bs ← readFar s.cur va p.key len
        if p.tier = 3 && (s.seq s.cur).mode != .handler then
          return bytesOf len (← hostValue s.cur isn 0 (ofBytes bs)) else pure bs : Op (List Byte)).run s =
        .ok (s.mem.read p.key len) s := by
      rw [Op.run_bind_ok (readFar_clear hc hw hq va)]
      split
      · rename_i h
        have same := bytesOf_ofBytes (s.mem.read p.key len)
        rw [Mem.read_length] at same
        rw [Op.run_bind_ok (hostValue_run (h3 (by simp_all)) ..), same]
        rfl
      · rfl
    refine (Op.run_if_neg h0).trans ?_
    cases k with
    | ld => exact loads
    | ldfe => exact loads
    | st => exact loads
    | amo op => exact changes
    | cas => exact changes

/-! ## Writing -/

/-- A write to a cistern word by another agent or by a handler. -/
theorem writeCistern_clear {d : Nat} (hw : s.wayTo d p.key = .clear) {bs : List Byte} (hb : bs.length = len) :
    (writeCistern p.key bs).run s = .ok () ((s.poke p.key bs).markWords (wordsOf p.key bs.length) true) := by
  unfold writeCistern
  refine (Op.run_bind_ok (Op.run_get s)).trans ?_
  refine (Op.run_if_neg (by rw [landingDue_clear hc]; exact Bool.false_ne_true)).trans ?_
  refine (Op.run_bind_ok (Op.run_modify ..)).trans ?_
  rw [keepOld_clear hc]
  exact Op.run_bind_ok (writeKey_clear hc hw hb none)

/-- A write to the grant's own window, with nothing in flight. -/
theorem writeOwn_clear {d : Nat} (hw : s.wayTo d p.key = .clear) (hq : quiet s) {bs : List Byte} (hb : bs.length = len)
    (isn : BitVec 32) :
    (writeOwn s.cur isn p.key bs).run s = .ok () ((s.poke p.key bs).markWords (wordsOf p.key bs.length) true) := by
  have hi := hq.1
  have unmarked (ws : List Nat) : (ws.filter fun w => ((s.poke p.key bs).markOn w).isNone) = ws :=
    List.filter_eq_self.2 fun w _ => by rw [markOn_clear ((noted_poke s p.key bs).clear hc) w]; rfl
  unfold writeOwn
  refine (Op.run_bind_ok (Op.run_get s)).trans ?_
  refine (Op.run_if_neg (by rw [Seq.doneBelow, hi]; simp)).trans ?_
  refine (Op.run_if_neg (by rw [otherDue_clear hc]; exact Bool.false_ne_true)).trans ?_
  refine (Op.run_bind_ok (saveVersion_quiet hq isn p.key)).trans ?_
  refine (Op.run_bind_ok (writeKey_clear hc hw hb none)).trans ?_
  rw [Op.run_modify, unmarked]

/-- A store to far memory that determinism mode does not hold. -/
theorem writeFar_clear {d : Nat} (hw : s.wayTo d p.key = .clear) (hq : quiet s) (hn : s.holds s.cur false p = false)
    {bs : List Byte} (hb : bs.length = len) (va : Nat) :
    (writeFar s.cur false va p bs).run s = .ok () (s.poke p.key bs) := by
  obtain ⟨-, hh⟩ := hq
  unfold writeFar
  refine (Op.run_bind_ok (Op.run_get s)).trans ?_
  refine (Op.run_if_neg (by rw [hn]; exact Bool.false_ne_true)).trans ?_
  refine (Op.run_bind_ok (Op.run_modify ..)).trans ?_
  rw [drainAt_idle hh]
  exact writeKey_clear hc hw hb _

end Clear

/-- The bytes of a store or an atomic reach memory, once D is set. -/
theorem scalarWrite_clear {s : State} {p : Phys} {len d : Nat} (hc : clear s p len) (hw : s.wayTo d p.key = .clear)
    (hq : quiet s) {k : SKind} (hn : k = .st → s.holds s.cur false p = false) {bs : List Byte} (hb : bs.length = len)
    (isn : BitVec 32) (va : Nat) : (scalarWrite s.cur isn k va p bs).run s = .ok () (stored s p bs) := by
  have hd := noted_dirty s (dieOf s.cur) p
  have hcur := hd.cur
  unfold scalarWrite stored
  refine (Op.run_bind_ok (Op.run_modify ..)).trans ?_
  refine (Op.run_bind_ok (Op.run_getSeq ..)).trans ?_
  replace hc := hd.clear hc
  replace hq := hd.quiet hq
  replace hw := (hd.wayTo ..).trans hw
  have hn' : k = .st → (s.dirty (dieOf s.cur) p).holds s.cur false p = false := fun h => (hd.holds ..).trans (hn h)
  generalize s.dirty (dieOf s.cur) p = t at *
  rw [← hcur] at hn' ⊢
  dsimp only
  by_cases h0 : p.tier = 0
  · refine (Op.run_if_pos h0).trans ?_
    by_cases hin : (t.seq t.cur).inWin p.key = true
    · refine (Op.run_if_pos hin).trans ?_
      by_cases hm : (t.seq t.cur).mode = .handler
      · refine (Op.run_if_pos hm).trans ?_
        rw [if_pos h0, if_pos (by simp [h0, hin, hm])]
        unfold handlerWrite
        exact Op.run_bind_ok (writeCistern_clear hc hw hb)
      · refine (Op.run_if_neg hm).trans ?_
        rw [if_pos h0, if_neg (by simp [hm])]
        exact writeOwn_clear hc hw hq hb isn
    · refine (Op.run_if_neg hin).trans ?_
      rw [if_pos h0, if_neg (by simp [hin])]
      exact writeCistern_clear hc hw hb
  · refine (Op.run_if_neg h0).trans ?_
    rw [if_neg h0, if_neg (by simp [h0])]
    cases k with
    | st => exact writeFar_clear hc hw hq (hn' rfl) hb va
    | ld => exact writeKey_clear hc hw hb _
    | ldfe => exact writeKey_clear hc hw hb _
    | amo op => exact writeKey_clear hc hw hb _
    | cas => exact writeKey_clear hc hw hb _

end Sys2Proof.Machine
end

section
/-!
SUPPORT. A scalar memory instruction on a quiet sequencer: its turn has come, and what it then does (06 R140 to R143; 08 R217,
R218).
-/
namespace Sys2Proof.Machine
open Sys2Proof.Claim

/-! ## The turn of an access -/

/-- What `scalarDo` does once no lower access, landing or held write stands before it. -/
def scalarAct (n : Nat) (isn : BitVec 32) (a : SAcc) (va : Nat) (p : Phys) (xd xb : Word) : Op Word :=
  let m := 2 ^ (8 * a.size)
  match a.kind with
  | .ld => do
    let bs ← scalarRead n isn .ld va p.key a.size p.tier
    return a.result (ofBytes bs)
  | .ldfe => do
    let bs ← scalarRead n isn .ldfe va p.key a.size p.tier
    scalarTake n isn p.key
    return a.result (ofBytes bs)
  | .st => do
    scalarWrite n isn .st va p (bytesOf a.size xd.toNat)
    return 0
  | .amo op => do
    let bs ← scalarRead n isn (.amo op) va p.key a.size p.tier
    drawTickets n a.ord 1
    scalarWrite n isn (.amo op) va p (bytesOf a.size (amoApply op (8 * a.size) (ofBytes bs) (xb.toNat % m)))
    return a.result (ofBytes bs)
  | .cas => do
    let bs ← scalarRead n isn .cas va p.key a.size p.tier
    drawTickets n a.ord 1
    if ofBytes bs = xd.toNat % m then
      scalarWrite n isn .cas va p (bytesOf a.size (xb.toNat % m))
    return a.result (ofBytes bs)

section Quiet
variable {s : State} (hq : quiet s)
include hq

/-- Nothing lower is in flight. -/
theorem doneBelow_quiet (g : Nat) (isn : BitVec 32) : (s.seq s.cur).doneBelow g isn = true := by
  obtain ⟨hi, -⟩ := hq
  rw [Seq.doneBelow, hi]
  rfl

theorem scalarOrder_quiet (isn : BitVec 32) (o : Ord) : (scalarOrder s.cur isn o).run s = .ok () s := by
  obtain ⟨hi, -⟩ := hq
  unfold scalarOrder
  refine (Op.run_bind_ok (Op.run_get s)).trans ?_
  refine (Op.run_if_neg (by simp [hi])).trans ?_
  exact Op.run_if_neg (by simp [Seq.allDoneBelow, hi])

theorem scalarFar_quiet (hl : ∀ l, l ∈ s.landings → l.so = false) (isn : BitVec 32) (key len kind : Nat) :
    (scalarFar s.cur isn key len kind).run s = .ok () s := by
  obtain ⟨hi, -⟩ := hq
  unfold scalarFar
  refine (Op.run_bind_ok (Op.run_get s)).trans ?_
  refine (Op.run_if_neg (by simp [hi])).trans ?_
  exact Op.run_if_neg (by simp [soLandingDue_false hl])

/-- An access waits for nothing. -/
theorem scalarDo_quiet (hl : ∀ l, l ∈ s.landings → l.so = false) (isn : BitVec 32) (a : SAcc) (va : Nat) (p : Phys)
    (xd xb : Word) : (scalarDo s.cur isn a va p xd xb).run s = (scalarAct s.cur isn a va p xd xb).run s := by
  have act : ∀ c : Prop, [Decidable c] → (if c then drainNow s.cur >>= fun _ => scalarAct s.cur isn a va p xd xb
      else scalarAct s.cur isn a va p xd xb).run s = (scalarAct s.cur isn a va p xd xb).run s := by
    intro c _
    exact Op.run_when (k := fun _ => scalarAct s.cur isn a va p xd xb) fun _ => drainNow_run hq.2
  have done := doneBelow_quiet hq ((s.seq s.cur).ownerOf p.key) isn
  unfold scalarDo
  refine (Op.run_bind_ok (Op.run_getSeq _ s)).trans ?_
  by_cases hm : ((s.seq s.cur).mode != .handler) = true
  · refine (Op.run_if_pos hm).trans ?_
    refine (Op.run_bind_ok (scalarOrder_quiet hq isn a.ord)).trans ?_
    by_cases hin : (p.tier = 0 && (s.seq s.cur).inWin p.key : Bool) = true
    · refine (Op.run_if_pos hin).trans ?_
      refine (Op.run_if_neg (by simp [done])).trans ?_
      refine (Op.run_when fun _ => scalarFar_quiet hq hl ..).trans ?_
      exact act _
    · refine (Op.run_if_neg hin).trans ?_
      refine (Op.run_when fun _ => scalarFar_quiet hq hl ..).trans ?_
      exact act _
  · refine (Op.run_if_neg hm).trans ?_
    exact act _

end Quiet

/-! ## The instruction -/

section Access
variable {i : Instr} {a : SAcc} {s t : State} {p : Phys} {v : Word}

/-- A scalar memory instruction whose access is performed at once. -/
theorem scalarMem_run (ha : (xr s a.ra + a.off).toNat % a.size = 0)
    (hr : reaches s s.cur a.kind.acc (xr s a.ra + a.off).toNat p) (ht : a.kind.tiers.testBit p.tier = true)
    (hd : (scalarDo s.cur (s.seq s.cur).isn a (xr s a.ra + a.off).toNat p (xr s a.rd) (xr s a.rb)).run s = .ok v t) :
    (scalarMem i a s.cur).run s = .ok .next (if a.kind.loads then t.modSeq s.cur (·.setX a.rd v) else t) := by
  unfold scalarMem
  refine (Op.run_bind_ok (Op.run_getSeq _ s)).trans ?_
  refine (Op.run_bind_ok (scalarAddr_run ha hr ht)).trans ?_
  refine (Op.run_bind_ok (Op.run_attempt_ok hd)).trans ?_
  cases a.kind.loads <;> rfl

/-- A load or an atomic puts its value in xd. -/
theorem exec_loads (h : smem i = some a) (hk : a.kind.loads = true) (hc : t.cur = s.cur)
    (ha : (xr s a.ra + a.off).toNat % a.size = 0) (hr : reaches s s.cur a.kind.acc (xr s a.ra + a.off).toNat p)
    (ht : a.kind.tiers.testBit p.tier = true)
    (hd : (scalarDo s.cur (s.seq s.cur).isn a (xr s a.ra + a.off).toNat p (xr s a.rd) (xr s a.rb)).run s = .ok v t)
    (hi : ready i s) : exec i s = .next (done i .next (·.setX a.rd v) t) := by
  refine exec_done (exec_smem h s) hc ?_ hi
  rw [scalarMem_run ha hr ht hd, if_pos hk]

/-- A store puts nothing in a register. -/
theorem exec_stores (h : smem i = some a) (hk : a.kind.loads = false) (ha : (xr s a.ra + a.off).toNat % a.size = 0)
    (hr : reaches s s.cur a.kind.acc (xr s a.ra + a.off).toNat p) (ht : a.kind.tiers.testBit p.tier = true)
    (hd : (scalarDo s.cur (s.seq s.cur).isn a (xr s a.ra + a.off).toNat p (xr s a.rd) (xr s a.rb)).run s = .ok v t)
    (hi : ready i s) : exec i s = .next (t.modSeq s.cur fun q => q.retire i .next) := by
  rw [exec_smem h s, issue_ok hi (scalarMem_run ha hr ht hd), hk]
  rfl

end Access

/-- The way to a place that is reached is open. -/
theorem way_of_reaches {s : State} {n va : Nat} {acc : Access} {p : Phys} (h : reaches s n acc va p) :
    s.wayTo (n / 16) p.key = .clear := by
  obtain ⟨-, -, -, hw, -⟩ := h
  exact hw

/-- No landing on an SO page is due at a clear place. -/
theorem landings_of_clear {s : State} {p : Phys} {n : Nat} (h : clear s p n) : ∀ l, l ∈ s.landings → l.so = false := by
  obtain ⟨-, -, -, -, -, hl, -⟩ := h
  exact hl

/-! ## Loads (06 R141) -/

/-- An eight-byte load of a clear place puts the number there in xd. -/
theorem puts_load {i : Instr} {rd ra : Reg} {off : Word} {s : State} {p : Phys}
    (h : smem i = some ⟨.ld, 8, rd, ra, 0, off, .none⟩) (hq : quiet s) (ha : (xr s ra + off).toNat % 8 = 0)
    (hr : mapped s s.cur .load (xr s ra + off).toNat p) (ht : p.tier ≤ 4) (hc : clear s p 8) (hf : fullAt s p 8)
    (h3 : p.tier = 3 → logMode s (s.seq s.cur).ctx = 0) : puts i rd (BitVec.ofNat 64 (s.mem.num p.key 8)) s := by
  obtain ⟨hr, -⟩ := hr
  refine exec_loads (t := s) h rfl rfl ha hr (testBit_tiers (k := 4) ht) ?_
  rw [scalarDo_quiet hq (landings_of_clear hc)]
  exact Op.run_bind_ok (scalarRead_clear hc (way_of_reaches hr) (by decide) hq hf (reaches_in_line hr (.inr rfl) ha) h3 ..)

end Sys2Proof.Machine

namespace Sys2Proof.Proofs
open Sys2Proof.Machine Sys2Proof.Claim

/-- Settles O26: both forms are one access of eight bytes. -/
theorem loadResults : Obligations.LoadResults := by
  unfold Obligations.LoadResults
  intro rd ra imm n s p load hq
  refine ⟨?_, ?_⟩
  · intro ha hr ht hc hf h3
    rw [← sext_eq] at ha hr
    exact puts_load rfl hq ha hr ht hc hf h3
  · intro ha hr ht hc hf h3
    exact puts_load rfl hq ha hr ht hc hf h3

end Sys2Proof.Proofs
end

section
/-!
SUPPORT. Stores on a quiet sequencer, and the combining buffer of determinism mode (06 R141; 21 R500).
-/
namespace Sys2Proof.Machine
open Sys2Proof.Claim

/-- The sequencer that holds one more write. -/
def Seq.holding (q : Seq) (va key : Nat) (bs : List Byte) : Seq :=
  { q with held := [⟨q.heldNum, va, key, bs, List.replicate bs.length 0xFF⟩], heldNum := q.heldNum + 1 }

/-- A store that determinism mode holds is held with D set. -/
theorem scalarWrite_held {s : State} {p : Phys} {bs : List Byte} (hc : clear s p bs.length) (hq : quiet s)
    (hn : s.holds s.cur false p = true) (isn : BitVec 32) (va : Nat) :
    (scalarWrite s.cur isn .st va p bs).run s = .ok () ((s.dirty (dieOf s.cur) p).modSeq s.cur
      (·.holding va p.key bs)) := by
  have hd := noted_dirty s (dieOf s.cur) p
  have htier : p.tier ≠ 0 := by
    rintro h0
    simp [State.holds, h0] at hn
  have hheld : ((s.dirty (dieOf s.cur) p).seq s.cur).held = [] := by
    obtain ⟨-, hh⟩ := hq
    rw [hd.seq Seq.held (fun _ _ _ _ _ => rfl), hh]
  have hlines (h : HeldWrite) : ¬ 4096 ≤ heldLines [h] := by simp [heldLines, nsetAdd]
  obtain ⟨h0, h1, -⟩ := hc
  rw [← hd.holds] at hn
  unfold scalarWrite
  refine (Op.run_bind_ok (Op.run_modify ..)).trans ?_
  refine (Op.run_bind_ok (Op.run_getSeq ..)).trans ?_
  refine (Op.run_if_neg htier).trans ?_
  unfold writeFar
  refine (Op.run_bind_ok (Op.run_get _)).trans ?_
  refine (Op.run_if_pos hn).trans ?_
  unfold writeBits
  refine (Op.run_bind_ok (Op.run_get _)).trans ?_
  refine (Op.run_if_pos hn).trans ?_
  refine (Op.run_if_neg (by simp [h0, h1])).trans ?_
  refine (Op.run_bind_ok (Op.run_set ..)).trans ?_
  rw [hheld]
  exact Op.run_if_neg (hlines _)

section Store
variable {i : Instr} {rs ra : Reg} {off : Word} {s : State} {p : Phys} (h : smem i = some ⟨.st, 8, rs, ra, 0, off, .none⟩)
  (hq : quiet s) (ha : (xr s ra + off).toNat % 8 = 0) (hr : reaches s s.cur .store (xr s ra + off).toNat p) (ht : p.tier ≤ 4)
  (hc : clear s p 8) (hi : ready i s)
include h hq ha hr ht hc hi

/-- A store whose bytes are written. -/
theorem exec_store {t : State} (hw : (scalarWrite s.cur (s.seq s.cur).isn .st (xr s ra + off).toNat p
      (bytesOf 8 (xr s rs).toNat)).run s = .ok () t) :
    exec i s = .next (t.modSeq s.cur fun q => q.retire i .next) := by
  refine exec_stores h rfl ha hr (testBit_tiers (k := 4) ht) (v := 0) ?_ hi
  rw [scalarDo_quiet hq (landings_of_clear hc)]
  exact Op.run_bind_ok hw

/-- Outside determinism mode's buffer they are in memory. -/
theorem exec_store_performed (hn : s.holds s.cur false p = false) :
    exec i s = .next (done i .next id (stored s p (bytesOf 8 (xr s rs).toNat))) := by
  rw [exec_store h hq ha hr ht hc hi
    (scalarWrite_clear hc (way_of_reaches hr) hq (fun _ => hn) (bytesOf_length ..) ..), done, stored_cur]
  rfl

/-- In it they are held. -/
theorem exec_store_held (hn : s.holds s.cur false p = true) :
    exec i s = .next (done i .next (·.holding (xr s ra + off).toNat p.key (bytesOf 8 (xr s rs).toNat))
      (s.dirty (dieOf s.cur) p)) := by
  rw [exec_store h hq ha hr ht hc hi
    (scalarWrite_held (by rw [bytesOf_length]; exact hc) hq hn ..), State.modSeq_modSeq, done, (noted_dirty ..).cur]

end Store

/-- When determinism mode holds a store. -/
theorem holds_store_iff {s : State} {n : Nat} {p : Phys} :
    s.holds n false p = true ↔ s.det (s.seq n).ctx = true ∧ p.kind ≠ 0 ∧ p.tier ≠ 0 := by
  simp [State.holds, and_assoc]

end Sys2Proof.Machine

namespace Sys2Proof.Proofs
open Sys2Proof.Machine Sys2Proof.Claim

/-- Settles O27: both forms are one access of eight bytes, which is performed or held. -/
theorem storeResults : Obligations.StoreResults := by
  unfold Obligations.StoreResults
  intro rs ra imm n s p q bs store hq
  have both (i : Instr) (ra : Reg) (off : Word) (h : smem i = some ⟨.st, 8, rs, ra, 0, off, .none⟩) :
      store i (xr s ra + off) := by
    intro ha hr ht hc hi
    refine ⟨fun hn => exec_store_performed h hq ha hr ht hc hi ?_, fun h0 hd hk => ?_⟩
    · rw [Bool.eq_false_iff, Ne, holds_store_iff]
      rintro ⟨hdet, hkind, htier⟩
      obtain h0 | hd | hk := hn
      · exact htier h0
      · exact absurd hdet (by rw [hd]; exact Bool.false_ne_true)
      · exact hkind hk
    · rw [exec_store_held h hq ha hr ht hc hi (holds_store_iff.2 ⟨hd, hk, h0⟩)]
      rfl
  refine ⟨?_, both _ 1 _ rfl⟩
  rw [← sext_eq]
  exact both _ ra _ rfl

end Sys2Proof.Proofs
end

section
/-!
SUPPORT. Atomics, and LDFE's empty word (05 R109; 06 R142, R143; 08 R214, R218).
-/
namespace Sys2Proof.Machine
open Sys2Proof.Claim

/-! ## Signed values -/

/-- The signed value of a pattern is that of the bit vector it makes. -/
theorem signedOf_eq_toInt {n : Nat} (hn : 0 < n) (v : Nat) : signedOf n v = (BitVec.ofNat n v).toInt := by
  obtain ⟨k, rfl⟩ : ∃ k, n = k + 1 := ⟨n - 1, by omega⟩
  have two : 2 ^ (k + 1) = 2 * 2 ^ k := Nat.pow_succ'
  rw [BitVec.toInt_eq_toNat_cond, BitVec.toNat_ofNat, signedOf, if_neg (by omega), Nat.add_sub_cancel]
  push_cast
  by_cases h : v % 2 ^ (k + 1) < 2 ^ k
  · rw [if_pos h, if_pos (by omega)]
  · rw [if_neg h, if_neg (by omega)]

/-- The value of a word. -/
theorem signedOf_word (a : Word) : signedOf 64 a.toNat = a.toInt := by
  rw [signedOf_eq_toInt (by decide), BitVec.ofNat_toNat, BitVec.setWidth_eq]

/-- What an atomic puts in xd: sign-extended from 32 bits in the .w forms. -/
theorem result_atomic (k : SKind) (w : Bool) (rd ra rb : Reg) (off : Word) (o : Ord) (old : Nat) :
    SAcc.result ⟨k, if w then 4 else 8, rd, ra, rb, off, o⟩ old =
      if w then (BitVec.ofNat 32 old).signExtend 64 else BitVec.ofNat 64 old := by
  cases w
  · rfl
  · exact congrArg (BitVec.ofInt 64) (signedOf_eq_toInt (by decide) old)

/-! ## Tickets (08 R218) -/

/-- An ordering code draws its ticket. -/
theorem drawTickets_run (s : State) (o : Ord) : (drawTickets s.cur o 1).run s = .ok () (ticketed s o) := by
  cases o <;> rfl

/-- A ticket is no write. -/
theorem noted_ticketed (s : State) (o : Ord) : Noted s (ticketed s o) := by
  have same : ∃ f : Seq → Seq, s.seqs = s.seqs.map (fun p => (p.1, f p.2)) ∧ ∀ q, Seq.Watched q (f q) :=
    ⟨id, by simp, Seq.Watched.refl⟩
  cases o <;> exact ⟨same, rfl, rfl, rfl, rfl, rfl, rfl, id⟩

/-! ## Atomics (06 R143) -/

section Atomic
variable {s : State} {p : Phys} {a : SAcc} {d : Nat} (hc : clear s p a.size) (hw : s.wayTo d p.key = .clear) (hq : quiet s)
include hc hw hq

/-- The bytes that an atomic writes after its ticket. -/
theorem scalarWrite_ticketed {k : SKind} (hk : k ≠ .st) {bs : List Byte} (hb : bs.length = a.size) (isn : BitVec 32)
    (o : Ord) (va : Nat) :
    (scalarWrite s.cur isn k va p bs).run (ticketed s o) = .ok () (stored (ticketed s o) p bs) := by
  have ht := noted_ticketed s o
  rw [← ht.cur]
  exact scalarWrite_clear (ht.clear hc) ((ht.wayTo ..).trans hw) (ht.quiet hq) (fun h => absurd h hk) hb ..

variable (hf : fullAt s p a.size) (hl : p.key % 64 + a.size ≤ 64) (hn : 0 < a.size) (ht : p.tier ≤ 2)
include hf hl hn ht

theorem scalarAct_amo {op : AmoOp} (hk : a.kind = .amo op) (isn : BitVec 32) (va : Nat) (xd xb : Word) :
    (scalarAct s.cur isn a va p xd xb).run s = .ok (a.result (s.mem.num p.key a.size)) (stored (ticketed s a.ord) p
      (bytesOf a.size (amoApply op (8 * a.size) (s.mem.num p.key a.size) (xb.toNat % 2 ^ (8 * a.size))))) := by
  unfold scalarAct
  rw [hk]
  dsimp only
  refine (Op.run_bind_ok (scalarRead_clear hc hw hn hq hf hl (by omega) ..)).trans ?_
  refine (Op.run_bind_ok (drawTickets_run ..)).trans ?_
  exact Op.run_bind_ok (scalarWrite_ticketed hc hw hq (by simp) (bytesOf_length ..) ..)

/-- AMOCAS writes xb when the old value is xd's. -/
theorem scalarAct_cas (hk : a.kind = .cas) (isn : BitVec 32) (va : Nat) (xd xb : Word) :
    (scalarAct s.cur isn a va p xd xb).run s = .ok (a.result (s.mem.num p.key a.size))
      (if s.mem.num p.key a.size = xd.toNat % 2 ^ (8 * a.size) then
        stored (ticketed s a.ord) p (bytesOf a.size (xb.toNat % 2 ^ (8 * a.size))) else ticketed s a.ord) := by
  unfold scalarAct
  rw [hk]
  dsimp only
  refine (Op.run_bind_ok (scalarRead_clear hc hw hn hq hf hl (by omega) ..)).trans ?_
  refine (Op.run_bind_ok (drawTickets_run ..)).trans ?_
  by_cases he : s.mem.num p.key a.size = xd.toNat % 2 ^ (8 * a.size)
  · rw [if_pos he]
    refine (Op.run_if_pos he).trans ?_
    exact Op.run_bind_ok (scalarWrite_ticketed hc hw hq (by simp) (bytesOf_length ..) ..)
  · rw [if_neg he]
    exact Op.run_if_neg he

end Atomic

/-- An atomic of a clear place puts its value in xd and leaves the state that its access reaches. -/
theorem exec_atomic {i : Instr} {a : SAcc} {s t : State} {p : Phys} (h : smem i = some a) (hl : a.kind.loads = true)
    (hk : a.kind.acc = .atomic) (hk' : a.kind.tiers = tiersCMW) (ho : a.off = 0) (hcur : t.cur = s.cur) (hq : quiet s)
    (ha : (xr s a.ra).toNat % a.size = 0) (hr : reaches s s.cur .atomic (xr s a.ra).toNat p) (ht : p.tier ≤ 2)
    (hc : clear s p a.size)
    (hd : ∀ isn va, (scalarAct s.cur isn a va p (xr s a.rd) (xr s a.rb)).run s = .ok (a.result (s.mem.num p.key a.size)) t)
    (hi : ready i s) : exec i s = .next (done i .next (·.setX a.rd (a.result (s.mem.num p.key a.size))) t) := by
  have base : xr s a.ra + a.off = xr s a.ra := by
    rw [ho]
    exact BitVec.add_zero _
  rw [← base] at ha hr
  refine exec_loads (p := p) h hl hcur ha ?_ ?_ ?_ hi
  · rw [hk]
    exact hr
  · rw [hk']
    exact testBit_tiers (k := 2) ht
  · rw [scalarDo_quiet hq (landings_of_clear hc)]
    exact hd ..

/-! ## The operations on words (05 R109) -/

/-- The nine operations on 64-bit words. -/
theorem amoApply_word (op : AmoOp) (a b : Word) : BitVec.ofNat 64 (amoApply op 64 a.toNat b.toNat) = match op with
    | .add => a + b
    | .and => a &&& b
    | .or => a ||| b
    | .xor => a ^^^ b
    | .min => if a.toInt ≤ b.toInt then a else b
    | .max => if a.toInt ≤ b.toInt then b else a
    | .minu => if a.toNat ≤ b.toNat then a else b
    | .maxu => if a.toNat ≤ b.toNat then b else a
    | .swap => b := by
  have word (c : Word) : BitVec.ofNat 64 c.toNat = c := by rw [BitVec.ofNat_toNat, BitVec.setWidth_eq]
  unfold amoApply
  dsimp only
  rw [Nat.mod_eq_of_lt b.isLt]
  cases op with
  | add => rw [← BitVec.toNat_add, word]
  | and => rw [← BitVec.toNat_and, word]
  | or => rw [← BitVec.toNat_or, word]
  | xor => rw [← BitVec.toNat_xor, word]
  | min =>
    dsimp only
    rw [signedOf_word, signedOf_word, apply_ite (BitVec.ofNat 64), word, word]
    by_cases h : a.toInt ≤ b.toInt
    · rw [if_pos h, if_neg (by omega)]
    · rw [if_neg h, if_pos (by omega)]
  | max =>
    dsimp only
    rw [signedOf_word, signedOf_word, apply_ite (BitVec.ofNat 64), word, word]
    by_cases h : a.toInt < b.toInt
    · rw [if_pos h, if_pos (by omega)]
    · rw [if_neg h]
      split
      · exact BitVec.eq_of_toInt_eq (by omega)
      · rfl
  | minu =>
    dsimp only
    rw [Nat.min_def, apply_ite (BitVec.ofNat 64), word, word]
  | maxu =>
    dsimp only
    rw [Nat.max_def, apply_ite (BitVec.ofNat 64), word, word]
  | swap => exact word b

/-! ## LDFE (06 R142) -/

theorem mem_nsetAdd_self (k : Nat) (l : List Nat) : k ∈ nsetAdd k l := by
  induction l with
  | nil => exact List.mem_singleton.2 rfl
  | cons p r ih =>
    rw [nsetAdd]
    split
    · exact List.mem_cons_self
    · split
      · exact ‹p = k› ▸ List.mem_cons_self
      · exact List.mem_cons_of_mem _ ih

/-- The word that is marked empty is not full. -/
theorem full_emptied (s : State) (key : Nat) : (s.markWords [key / 8] false).full key = false := by
  have h : key / 8 ∈ (s.markWords [key / 8] false).empty := mem_nsetAdd_self (key / 8) s.empty
  simp [State.full, h]

/-- LDFE leaves the word empty, and of the sequencers what writes leave. -/
theorem scalarTake_run {s : State} {p : Phys} {n : Nat} (hc : clear s p n) (hq : quiet s) (isn : BitVec 32) :
    ∃ u, (scalarTake s.cur isn p.key).run s = .ok () u ∧ u.cur = s.cur ∧ u.mem = s.mem ∧ u.full p.key = false ∧
      ∀ m, (u.seq m).x = (s.seq m).x ∧ (u.seq m).pc = (s.seq m).pc := by
  have ht := noted_markWords s [p.key / 8] false
  have hm := State.markWords_mem s [p.key / 8] false
  have hf := full_emptied s p.key
  have hx (m : Nat) := ht.seq Seq.x (fun _ _ _ _ _ => rfl) m
  have hpc (m : Nat) := ht.seq Seq.pc (fun _ _ _ _ _ => rfl) m
  have hcur := ht.cur
  by_cases hin : (s.seq s.cur).inWin p.key = true
  · by_cases hh : (s.seq s.cur).mode = .handler
    · refine ⟨_, (Op.run_bind_ok (Op.run_getSeq ..)).trans ((Op.run_if_pos hin).trans (Op.run_if_pos hh)), hcur, hm, hf,
        fun m => ?_⟩
      by_cases h : m = s.cur
      · rw [h, State.seq_modSeq]
        exact ⟨hx _, hpc _⟩
      · rw [State.seq_modSeq_other _ _ _ _ h]
        exact ⟨hx m, hpc m⟩
    · exact ⟨_, (Op.run_bind_ok (Op.run_getSeq ..)).trans ((Op.run_if_pos hin).trans ((Op.run_if_neg hh).trans
        (Op.run_bind_ok (saveVersion_quiet hq isn p.key)))), hcur, hm, hf, fun m => ⟨hx m, hpc m⟩⟩
  · have foreign : (modify fun s => (s.keepOld p.key 8).markWords [p.key / 8] false : Op Unit).run s =
        .ok () (s.markWords [p.key / 8] false) := by
      rw [Op.run_modify, keepOld_clear hc]
    exact ⟨_, (Op.run_bind_ok (Op.run_getSeq ..)).trans ((Op.run_if_neg hin).trans foreign), hcur, hm, hf,
      fun m => ⟨hx m, hpc m⟩⟩

end Sys2Proof.Machine

namespace Sys2Proof.Proofs
open Sys2Proof.Machine Sys2Proof.Claim

/-- Settles O28: the access of each form, and the operation on words. -/
theorem atomicResults : Obligations.AtomicResults := by
  unfold Obligations.AtomicResults
  refine ⟨?_, fun a b => ⟨amoApply_word .add a b, amoApply_word .and a b, amoApply_word .or a b, amoApply_word .xor a b,
    amoApply_word .min a b, amoApply_word .max a b, amoApply_word .minu a b, amoApply_word .maxu a b,
    amoApply_word .swap a b⟩⟩
  intro op o w rd rb ra s p size old b res hq ha hr ht hc hf
  have hsize : size = 4 ∨ size = 8 := by cases w <;> simp [size]
  have hl := reaches_in_line hr hsize ha
  have hn : 0 < size := by omega
  have way := way_of_reaches hr
  have amo : res = SAcc.result ⟨.amo op, size, rd, ra, rb, 0, o⟩ old := (result_atomic ..).symm
  have cas : res = SAcc.result ⟨.cas, size, rd, ra, rb, 0, o⟩ old := (result_atomic ..).symm
  refine ⟨fun hi => ?_, fun hi => ?_⟩
  · rw [amo]
    refine exec_atomic (a := ⟨.amo op, size, rd, ra, rb, 0, o⟩) rfl rfl rfl rfl rfl ?_ hq ha hr ht hc
      (fun _ _ => scalarAct_amo (a := ⟨.amo op, size, rd, ra, rb, 0, o⟩) hc way hq hf hl hn ht rfl ..) hi
    rw [stored_cur, (noted_ticketed ..).cur]
  · rw [cas]
    refine exec_atomic (a := ⟨.cas, size, rd, ra, rb, 0, o⟩) rfl rfl rfl rfl rfl ?_ hq ha hr ht hc
      (fun _ _ => scalarAct_cas (a := ⟨.cas, size, rd, ra, rb, 0, o⟩) hc way hq hf hl hn ht rfl ..) hi
    split
    · rw [stored_cur, (noted_ticketed ..).cur]
    · rw [(noted_ticketed ..).cur]

/-- Settles O29: the read of a full word, the word emptied, and the value put in xd. -/
theorem loadAndEmpty : Obligations.LoadAndEmpty := by
  unfold Obligations.LoadAndEmpty
  intro rd ra imm s p va hq ha hr h0 hc hf hi
  obtain ⟨hr, -⟩ := hr
  have hva : va = xr s ra + sext imm := by rw [sext_eq]
  rw [hva] at ha hr
  obtain ⟨u, hu, hcur, hmem, hfull, hseq⟩ := scalarTake_run hc hq (s.seq s.cur).isn
  have hd : (scalarAct s.cur (s.seq s.cur).isn ⟨.ldfe, 8, rd, ra, 0, sext imm, .none⟩ (xr s ra + sext imm).toNat p
      (xr s rd) (xr s 0)).run s = .ok (BitVec.ofNat 64 (s.mem.num p.key 8)) u :=
    (Op.run_bind_ok (scalarRead_clear hc (way_of_reaches hr) (by decide) hq hf (reaches_in_line hr (.inr rfl) ha)
      (by omega) ..)).trans (Op.run_bind_ok hu)
  rw [← scalarDo_quiet hq (landings_of_clear hc)] at hd
  have hx : ((done (.ldfe rd ra imm) .next (·.setX rd (BitVec.ofNat 64 (s.mem.num p.key 8))) u).seq s.cur).x =
      ((u.seq s.cur).setX rd (BitVec.ofNat 64 (s.mem.num p.key 8))).x := by
    rw [done, hcur, State.seq_modSeq, Seq.retire_x]
  refine ⟨_, exec_loads rfl rfl hcur ha hr (testBit_tiers (k := 0) (by omega)) hd hi, ?_, fun r hne => ?_, hfull,
    fun x => congrArg (·.get x) hmem, fun m hm => ?_⟩
  · rw [Seq.getX_congr hx]
    split
    · exact ‹rd = 0› ▸ Seq.getX_zero _
    · exact Seq.getX_setX_same _ _ _ ‹rd ≠ 0›
  · rw [Seq.getX_congr hx, Seq.getX_setX_other _ _ _ _ hne]
    exact Seq.getX_congr (hseq s.cur).1 r
  · rw [done, hcur, State.seq_modSeq_other _ _ _ _ hm]
    exact hseq m

end Sys2Proof.Proofs
end

section
/-!
SUPPORT. MON and MWAIT (06 R171, R172), outside record and replay.
-/
namespace Sys2Proof.Machine
open Sys2Proof.Claim

/-! ## The code of MWAIT (06 R172) -/

section Code
variable {q : Seq} {line start : Nat} {tick limit : Word}

theorem mwaitCode_unarmed (h : q.monitor = none) : mwaitCode q tick start limit = some 2 := by
  unfold mwaitCode
  rw [h]

theorem mwaitCode_written (h : q.monitor = some (line, true)) : mwaitCode q tick start limit = some 0 := by
  unfold mwaitCode
  rw [h]

/-- An armed monitor that has seen no write looks at the time, then at the take request. -/
theorem mwaitCode_armed (h : q.monitor = some (line, false)) : mwaitCode q tick start limit =
    if limit ≠ 0 ∧ limit.toNat ≤ (tick - BitVec.ofNat 64 start).toNat then some 1
    else if q.take.isSome then some 3 else none := by
  unfold mwaitCode
  rw [h]
  refine if_congr ?_ rfl rfl
  simp [toWord]

/-- No time has passed as MWAIT issues. -/
theorem mwaitCode_now (h : q.monitor = some (line, false)) : mwaitCode q tick tick.toNat limit =
    if q.take.isSome then some 3 else none := by
  rw [mwaitCode_armed h, if_neg]
  rintro ⟨h0, hl⟩
  rw [BitVec.ofNat_toNat, BitVec.setWidth_eq, BitVec.sub_self] at hl
  exact h0 (BitVec.eq_of_toNat_eq (Nat.le_zero.1 hl))

end Code

/-- Outside record and replay the code is the one that stands now. -/
theorem mwaitLogged_run {s : State} {n start c : Nat} {limit : Word} (hl : logMode s (s.seq n).ctx = 0)
    (hc : mwaitCode (s.seq n) s.pkg.tick start limit = some c) : (mwaitLogged n start limit).run s = .ok c s := by
  unfold mwaitLogged
  refine (Op.run_bind_ok (Op.run_get s)).trans ?_
  refine (Op.run_if_neg (by rw [hl]; decide)).trans ?_
  rw [hc]
  exact Op.run_if_neg (by rw [hl]; decide)

/-! ## The instruction and its wake -/

/-- MWAIT that has a code completes with it. -/
theorem exec_mwait_code {rd ra : Reg} {s : State} {c : Nat} (hl : logMode s (s.seq s.cur).ctx = 0)
    (hc : mwaitCode (s.seq s.cur) s.pkg.tick s.pkg.tick.toNat (xr s ra) = some c) (hi : ready (.mwait rd ra) s) :
    exec (.mwait rd ra) s = .next (done (.mwait rd ra) .next
      (fun q => { q.setX rd (toWord c) with monitor := none }) s) := by
  refine exec_done (exec_mwait ..) rfl ?_ hi
  refine (Op.run_bind_ok (Op.run_get s)).trans ?_
  refine (Op.run_if_pos ?_).trans ?_
  · rw [hl]
    exact congrArg Option.isSome hc
  · exact Op.run_bind_ok (mwaitLogged_run hl hc)

/-- MWAIT that has none sleeps. -/
theorem exec_mwait_sleeps {rd ra : Reg} {s : State}
    (hc : mwaitCode (s.seq s.cur) s.pkg.tick s.pkg.tick.toNat (xr s ra) = none) (hi : ready (.mwait rd ra) s) :
    exec (.mwait rd ra) s = .next (s.modSeq s.cur fun q => { q with sleep := some (.mwait rd ra s.pkg.tick.toNat) }) := by
  rw [exec_mwait, execMwait, issue_ok hi (c := .stay)
    (t := s.modSeq s.cur fun q => { q with sleep := some (.mwait rd ra s.pkg.tick.toNat) }), State.modSeq_modSeq]
  · rfl
  · refine (Op.run_bind_ok (Op.run_get s)).trans ?_
    refine (Op.run_if_neg ?_).trans ?_
    · rw [Bool.and_eq_true, not_and]
      intro _
      exact Bool.eq_false_iff.1 (congrArg Option.isSome hc)
    · rfl

/-- A sleeping MWAIT that has a code completes with it. -/
theorem exec_mwaitWake_code {rd ra : Reg} {s : State} {n start c : Nat} (hz : s.pkg.frozen = false)
    (hs : (s.seq n).sleep = some (.mwait rd ra start)) (hl : logMode s (s.seq n).ctx = 0)
    (hc : mwaitCode (s.seq n) s.pkg.tick start ((s.seq n).getX ra) = some c) :
    exec (.mwaitWake n) s = .next (s.modSeq n fun q =>
      { q.setX rd (toWord c) with monitor := none, sleep := none }.retire (.mwait rd ra) .next) := by
  rw [exec_mwaitWake, execMwaitWake, tryMwaitWake, hs]
  dsimp only
  rw [wake_ok hz (t := s.modSeq n fun q =>
    { q.setX rd (toWord c) with monitor := none, sleep := none }.retire (.mwait rd ra) .next)]
  · rfl
  · refine (Op.run_bind_ok (Op.run_getSeq n s)).trans ?_
    refine (Op.run_bind_ok (mwaitLogged_run hl hc)).trans ?_
    refine (Op.run_bind_ok (Op.run_modSeqOp ..)).trans ?_
    rw [finishSleep, Op.run_modSeqOp, State.modSeq_modSeq]

/-- MON arms the monitor on the line of its place. -/
theorem exec_mon_arms {ra : Reg} {s : State} {p : Phys} (hr : reaches s s.cur .load (xr s ra).toNat p) (ht : p.tier ≤ 2)
    (hi : ready (.mon ra) s) : exec (.mon ra) s = .next (done (.mon ra) .next
      (fun q => { q with monitor := some (p.key / 64, false) }) s) := by
  refine exec_done (exec_mon ..) rfl ?_ hi
  refine (Op.run_bind_ok (Op.run_getSeq _ s)).trans ?_
  refine (Op.run_bind_ok (scalarAddr_run (Nat.mod_one _) hr (testBit_tiers (k := 2) ht))).trans ?_
  exact Op.run_bind_ok (Op.run_modSeqOp ..)

end Sys2Proof.Machine

namespace Sys2Proof.Proofs
open Sys2Proof.Machine Sys2Proof.Claim

/-- Settles O36: each answer is the code that stands at the issue or at the wake. -/
theorem monitors : Obligations.Monitors := by
  unfold Obligations.Monitors
  intro rd ra s n start line q put
  refine ⟨fun p _ hr ht hi => exec_mon_arms hr.1 ht hi, fun hl hi => ⟨fun hm => ?_, fun hm => ?_, fun hm ht => ?_,
    fun hm ht => ?_⟩, fun hz hs hl => ?_⟩
  · exact exec_mwait_code hl (mwaitCode_unarmed hm) hi
  · exact exec_mwait_code hl (mwaitCode_written hm) hi
  · exact exec_mwait_code hl ((mwaitCode_now hm).trans (if_pos ht)) hi
  · exact exec_mwait_sleeps ((mwaitCode_now hm).trans (if_neg (by rw [ht]; exact Bool.false_ne_true))) hi
  · intro limit woken
    refine ⟨fun hm => ?_, fun hm h0 hle => ?_, fun hm hlt ht => ?_⟩
    · exact exec_mwaitWake_code hz hs hl (mwaitCode_written hm)
    · exact exec_mwaitWake_code hz hs hl ((mwaitCode_armed hm).trans (if_pos ⟨h0, hle⟩))
    · refine exec_mwaitWake_code hz hs hl ((mwaitCode_armed hm).trans ((if_neg ?_).trans (if_pos ht)))
      rintro ⟨h0, hle⟩
      obtain h | h := hlt
      · exact h0 h
      · exact absurd hle (Nat.not_le.2 h)

end Sys2Proof.Proofs
end

section
/-!
SUPPORT. Chain words: PUBHW, and SETVLC's reading, sleep and wake (06 R165 to R167).
-/
namespace Sys2Proof.Machine
open Sys2Proof.Claim

/-! ## The word -/

/-- CLOSED of a chain word. -/
theorem getLsbD_63 (w : Word) : w.getLsbD 63 = decide (2 ^ 63 ≤ w.toNat) := by
  have hw : w.toNat < 2 ^ 64 := w.isLt
  rw [BitVec.getLsbD, Nat.testBit_eq_decide_div_mod_eq]
  exact decide_eq_decide.2 (by omega)

/-- HW of a chain word. -/
theorem fld_63 (w : Word) : fld w 0 63 = w.toNat % 2 ^ 63 := by
  rw [fld, bitsAt, Nat.pow_zero, Nat.div_one]

/-- A number of eight bytes as a word. -/
theorem toNat_num (m : Mem) (a : Nat) : (toWord (m.num a 8)).toNat = m.num a 8 := by
  rw [toWord, BitVec.toNat_ofNat]
  exact Nat.mod_eq_of_lt (Mem.num_lt m a 8)

/-- The word that PUBHW leaves, as a number. -/
theorem pubWord_toNat (old b : Word) : (pubWord old b).toNat =
    (if 2 ^ 63 ≤ old.toNat ∨ 2 ^ 63 ≤ b.toNat then 2 ^ 63 else 0) + max (old.toNat % 2 ^ 63) (b.toNat % 2 ^ 63) := by
  have closed : (if old.getLsbD 63 || b.getLsbD 63 then 2 ^ 63 else 0) =
      if 2 ^ 63 ≤ old.toNat ∨ 2 ^ 63 ≤ b.toNat then 2 ^ 63 else 0 := by
    rw [getLsbD_63, getLsbD_63]
    exact if_congr (by simp) rfl rfl
  rw [pubWord, closed, fld_63, fld_63, toWord, BitVec.toNat_ofNat]
  apply Nat.mod_eq_of_lt
  split <;> omega

/-! ## PUBHW (06 R166) -/

/-- PUBHW publishes the raised word. -/
theorem exec_pubhw_publishes {ra rb : Reg} {s : State} {p : Phys} (hq : quiet s) (ha : (xr s ra).toNat % 8 = 0)
    (ht : p.tier ≤ 2) (hc : clear s p 8) (hr : reaches s s.cur .atomic (xr s ra).toNat p) (hi : ready (.pubhw ra rb) s) :
    exec (.pubhw ra rb) s = .next (done (.pubhw ra rb) .next id
      (stored s p (bytesOf 8 (pubWord (toWord (s.mem.num p.key 8)) (xr s rb)).toNat))) := by
  have way := way_of_reaches hr
  rw [exec_pubhw, execPubhw, issue_ok hi (c := .next)
    (t := stored s p (bytesOf 8 (pubWord (toWord (s.mem.num p.key 8)) (xr s rb)).toNat)), done, stored_cur]
  · rfl
  · refine (Op.run_bind_ok (Op.run_getSeq _ s)).trans ?_
    refine (Op.run_bind_ok (scalarAddr_run ha hr (testBit_tiers (k := 2) ht))).trans ?_
    refine (Op.run_bind_ok (needDone_run hq.1)).trans ?_
    refine (Op.run_bind_ok (drainNow_run hq.2)).trans ?_
    refine (Op.run_bind_ok (readKey_clear hc way _)).trans ?_
    exact Op.run_bind_ok (scalarWrite_clear hc way hq (by simp) (bytesOf_length ..) ..)

/-! ## SETVLC (06 R167) -/

section Setvlc
variable {rd ra rb : Reg} {s : State} {p : Phys} {v : Nat}

/-- What SETVLC takes from a word, past a position, under a cap. -/
def chainTake (old pos cap : Nat) : Option Nat :=
  if pos < old % 2 ^ 63 then some (min (old % 2 ^ 63 - pos) cap) else if 2 ^ 63 ≤ old then some 0 else none

/-- One reading of a chain word that is clear and full. -/
theorem setvlcRead_run (hq : quiet s) (ha : (xr s ra).toNat % 8 = 0) (ht : p.tier ≤ 2) (hc : clear s p 8)
    (hr : reaches s s.cur .load (xr s ra).toNat p) (hf : fullAt s p 8) : (setvlcRead s.cur ra rb).run s =
      .ok (chainTake (s.mem.num p.key 8) (xr s rb).toNat (s.seq s.cur).vlCap) s := by
  unfold setvlcRead
  refine (Op.run_bind_ok (Op.run_getSeq _ s)).trans ?_
  refine (Op.run_bind_ok (scalarAddr_run ha hr (testBit_tiers (k := 2) ht))).trans ?_
  refine (Op.run_bind_ok (scalarOrder_quiet hq ..)).trans ?_
  refine (Op.run_when fun _ => scalarFar_quiet hq (landings_of_clear hc) ..).trans ?_
  refine (Op.run_bind_ok (scalarRead_clear hc (way_of_reaches hr) (by decide) hq hf (reaches_in_line hr (.inr rfl) ha)
    (by omega) ..)).trans ?_
  change (if (xr s rb).toNat < fld (toWord (s.mem.num p.key 8)) 0 63 then
      (pure (some (min (fld (toWord (s.mem.num p.key 8)) 0 63 - (xr s rb).toNat) (s.seq s.cur).vlCap)) : Op (Option Nat))
    else if (toWord (s.mem.num p.key 8)).getLsbD 63 then pure (some 0) else pure none).run s = _
  rw [fld_63, getLsbD_63, toNat_num]
  unfold chainTake
  split
  · rfl
  · by_cases h : 2 ^ 63 ≤ s.mem.num p.key 8
    · rw [if_pos h, if_pos (decide_eq_true h)]
      rfl
    · rw [if_neg h, if_neg (by rw [decide_eq_false h]; exact Bool.false_ne_true)]
      rfl

/-- SETVLC that takes elements completes. -/
theorem exec_setvlc_takes (h : (setvlcRead s.cur ra rb).run s = .ok (some v) s) (hi : ready (.setvlc rd ra rb) s) :
    exec (.setvlc rd ra rb) s = .next (done (.setvlc rd ra rb) .next
      (fun q => ({ q with vl := v, dirtyC := q.dirtyC ||| 1 } : Seq).setX rd (BitVec.ofNat 64 v)) s) := by
  refine exec_done (exec_setvlc ..) rfl ?_ hi
  exact Op.run_bind_ok h

/-- SETVLC that takes none sleeps. -/
theorem exec_setvlc_sleeps (h : (setvlcRead s.cur ra rb).run s = .ok none s) (hi : ready (.setvlc rd ra rb) s) :
    exec (.setvlc rd ra rb) s = .next (s.modSeq s.cur fun q => { q with sleep := some (.setvlc rd ra rb) }) := by
  rw [exec_setvlc, execSetvlc, issue_ok hi (c := .stay)
    (t := s.modSeq s.cur fun q => { q with sleep := some (.setvlc rd ra rb) }) (Op.run_bind_ok h), State.modSeq_modSeq]
  rfl

/-- A sleeping SETVLC that finds elements completes. -/
theorem exec_setvlcWake_takes (hz : s.pkg.frozen = false) (hs : (s.seq s.cur).sleep = some (.setvlc rd ra rb))
    (h : (setvlcRead s.cur ra rb).run s = .ok (some v) s) : exec (.setvlcWake s.cur) s = .next (s.modSeq s.cur fun q =>
      { ({ q with vl := v, dirtyC := q.dirtyC ||| 1 } : Seq).setX rd (BitVec.ofNat 64 v) with
        sleep := none }.retire (.setvlc rd ra rb) .next) := by
  rw [exec_setvlcWake, execSetvlcWake, trySetvlcWake, hs]
  dsimp only
  rw [wake_ok hz (t := s.modSeq s.cur fun q =>
      { ({ q with vl := v, dirtyC := q.dirtyC ||| 1 } : Seq).setX rd (BitVec.ofNat 64 v) with
        sleep := none }.retire (.setvlc rd ra rb) .next)]
  · rfl
  · refine (Op.run_bind_ok h).trans ?_
    refine (Op.run_bind_ok (Op.run_modSeqOp ..)).trans ?_
    rw [finishSleep, Op.run_modSeqOp, State.modSeq_modSeq]
    rfl

end Setvlc

end Sys2Proof.Machine

namespace Sys2Proof.Proofs
open Sys2Proof.Machine Sys2Proof.Claim

/-- Settles O32: PUBHW's word as a number, and each outcome of SETVLC's reading. -/
theorem chainWords : Obligations.ChainWords := by
  unfold Obligations.ChainWords
  intro rd ra rb s p old b cap new put hq ha ht hc
  refine ⟨fun hr hi => ?_, fun hr hf => ?_⟩
  · rw [exec_pubhw_publishes hq ha ht hc hr hi, pubWord_toNat, toNat_num]
  · have read := setvlcRead_run (rb := rb) hq ha ht hc hr.1 hf
    have takes (h : b < old % 2 ^ 63) : (setvlcRead s.cur ra rb).run s = .ok (some (min (old % 2 ^ 63 - b) cap)) s :=
      read.trans (congrArg (EStateM.Result.ok · s) (if_pos h))
    have past (h : old % 2 ^ 63 ≤ b) : (setvlcRead s.cur ra rb).run s =
        .ok (if 2 ^ 63 ≤ old then some 0 else none) s :=
      read.trans (congrArg (EStateM.Result.ok · s) (if_neg (Nat.not_lt.2 h)))
    refine ⟨fun h hi => exec_setvlc_takes (takes h) hi, fun h hcl hi => exec_setvlc_takes ?_ hi,
      fun h hop hi => exec_setvlc_sleeps ?_ hi, fun h hz hs => exec_setvlcWake_takes hz hs (takes h)⟩
    · rw [past h, if_pos hcl]
    · rw [past h, if_neg (Nat.not_le.2 hop)]

end Sys2Proof.Proofs
end

section
/-!
SUPPORT. What the accesses of an element leave as it was (08 R210 to R212; 02 R54, R57; 13 R340): the relation of a state to those
that follow it inside one element's move, and the caches of a die while they agree.
-/
namespace Sys2Proof.Machine
open Sys2Proof.Claim

/-! ## The caches of a die that agree (13 R340) -/

/-- Two translations of one address space cover different pages. -/
def TlbEntry.Apart (t u : TlbEntry) : Prop := t.space = u.space → t.vpn + t.pages ≤ u.vpn ∨ u.vpn + u.pages ≤ t.vpn

/-- Every translation that a list of them gives is the die's own. -/
def tlbWithin (d : Die) (ts : List TlbEntry) : Prop :=
  ∀ space va t, tlbFind ts space va = some t → tlbHit d space va = some t

/-- A translation found covers the address that it was found for. -/
theorem tlbFind_covers {ts : List TlbEntry} {space va : Nat} {t : TlbEntry} (h : tlbFind ts space va = some t) :
    t ∈ ts ∧ t.space = space ∧ t.vpn ≤ va / 4096 ∧ va / 4096 < t.vpn + t.pages := by
  have hp := List.find?_some h
  simp only [Bool.and_eq_true, beq_iff_eq, decide_eq_true_eq] at hp
  exact ⟨List.mem_of_find?_eq_some h, hp.1.1, hp.1.2, hp.2⟩

/-- Among translations that do not overlap, the one that covers an address is found for it. -/
theorem tlbFind_of_mem {ts : List TlbEntry} (hd : ts.Pairwise TlbEntry.Apart) {t : TlbEntry} {space va : Nat} (ht : t ∈ ts)
    (hs : t.space = space)
    (hl : t.vpn ≤ va / 4096) (hh : va / 4096 < t.vpn + t.pages) : tlbFind ts space va = some t := by
  have found : (tlbFind ts space va).isSome = true :=
    List.find?_isSome.2 ⟨t, ht, by simp [hs, hl, hh]⟩
  obtain ⟨r, hr⟩ := Option.isSome_iff_exists.1 found
  obtain ⟨hmem, hrs, hrl, hrh⟩ := tlbFind_covers hr
  rw [hr]
  by_contra hne
  have symm : Std.Symm TlbEntry.Apart := ⟨fun _ _ h e => (h e.symm).symm⟩
  have apart := hd.forall hmem ht (fun h => hne (by rw [h])) (hrs.trans hs.symm)
  omega

/-- A list that takes one of the die's own translations still gives only those. -/
theorem tlbWithin_tlbPut {d : Die} (hd : d.tlb.Pairwise TlbEntry.Apart) {ts : List TlbEntry} (hts : tlbWithin d ts) {t : TlbEntry}
    (ht : t ∈ d.tlb) (cap va : Nat) : tlbWithin d (tlbPut cap t va ts) := by
  unfold tlbPut
  split
  · exact hts
  · intro space va' r hr
    have full : tlbFind (t :: ts) space va' = some r := (List.take_prefix cap (t :: ts)).find?_eq_some hr
    unfold tlbFind at full
    rw [List.find?_cons] at full
    split at full
    · cases full
      rename_i hcov
      simp only [Bool.and_eq_true, beq_iff_eq, decide_eq_true_eq] at hcov
      exact tlbFind_of_mem hd ht hcov.1.1 hcov.1.2 hcov.2
    · exact hts space va' r full

/-- Some bank of a group has no cache yet. -/
theorem exists_bank_uncached (g : Nat) (l : List (Nat × List TlbEntry)) : ∃ b, smapGet (16 * g + b) l = none := by
  suffices ∃ b, ∀ k, b ≤ k → smapGet k l = none from this.elim fun b h => ⟨b, h _ (by omega)⟩
  induction l with
  | nil => exact ⟨0, fun _ _ => rfl⟩
  | cons p r ih =>
    obtain ⟨b, hb⟩ := ih
    exact ⟨max b (p.1 + 1), fun k hk => by rw [smapGet, if_neg (by omega), hb k (by omega)]⟩

/-- The caches of every bank and of every group give the die's own translations alone. -/
theorem cachesAgree_iff {s : State} {d : Nat} : cachesAgree s d ↔
    (s.die d).tlb.Pairwise TlbEntry.Apart ∧
      (∀ k, tlbWithin (s.die d) ((smapGet k (s.die d).bankTlb).getD [])) ∧
      ∀ g, tlbWithin (s.die d) ((smapGet g (s.die d).groupTlb).getD []) := by
  refine and_congr_right fun _ => ⟨fun h => ⟨fun k space va t ht => ?_, fun g space va t ht => ?_⟩, fun h pl space va t ht => ?_⟩
  · exact h (some (0, k)) space va t (by simp [cacheHit, ht])
  · obtain ⟨b, hb⟩ := exists_bank_uncached g (s.die d).bankTlb
    refine h (some (g, b)) space va t ?_
    unfold cacheHit
    dsimp only
    rw [hb, ht]
    rfl
  · unfold cacheHit at ht
    split at ht
    · exact ht
    · obtain ht | ⟨-, ht⟩ := (Option.orElse_eq_some ..).1 ht
      · obtain ht | ⟨-, ht⟩ := (Option.orElse_eq_some ..).1 ht
        · exact h.1 _ space va t ht
        · exact h.2 _ space va t ht
      · exact ht

/-- A value put at a key changes what the table gives there. -/
theorem smapGet_set {α : Type} (k m : Nat) (v : α) (l : List (Nat × α)) :
    smapGet m (smapSet k v l) = if m = k then some v else smapGet m l := by
  split
  · rw [‹m = k›, smapGet_set_same]
  · exact smapGet_set_other k m v l ‹_›

/-- The caches of a place that take one of the die's translations: the die's own stays as it is, and they still agree. -/
theorem tlbInstall_tlb {d : Die} {pl : Place} {space va : Nat} {t : TlbEntry} (ht : tlbHit d space va = some t) :
    (tlbInstall d pl va t).tlb = d.tlb := by
  have hs : t.space = space := (tlbFind_covers ht).2.1
  have put : tlbPut 8192 t va d.tlb = d.tlb := if_pos (by rw [hs]; exact Option.isSome_of_eq_some ht)
  unfold tlbInstall
  dsimp only
  rw [put]
  split <;> rfl

/-- The die of a translation that it holds exists. -/
theorem lt_of_tlbHit {s : State} {d space va : Nat} {t : TlbEntry} (ht : tlbHit (s.die d) space va = some t) : d < 16 := by
  by_contra h
  rw [State.die, dif_neg h] at ht
  exact Option.some_ne_none _ ht.symm

theorem installed_die {s : State} {d : Nat} (hd : d < 16) (pl : Place) (va : Nat) (t : TlbEntry) :
    (installed s d pl va t).die d = if pl.isNone then s.die d else tlbInstall (s.die d) pl va t := by
  unfold installed
  split
  · rfl
  · exact State.die_modDie_same s d _ hd

theorem installed_tlb {s : State} {d : Nat} {pl : Place} {space va : Nat} {t : TlbEntry}
    (ht : tlbHit (s.die d) space va = some t) : ((installed s d pl va t).die d).tlb = (s.die d).tlb := by
  rw [installed_die (lt_of_tlbHit ht)]
  split
  · rfl
  · exact tlbInstall_tlb ht

theorem cachesAgree_installed {s : State} {d : Nat} {pl : Place} {space va : Nat} {t : TlbEntry}
    (ht : tlbHit (s.die d) space va = some t) (h : cachesAgree s d) : cachesAgree (installed s d pl va t) d := by
  have hmem : t ∈ (s.die d).tlb := (tlbFind_covers ht).1
  have htlb := installed_tlb (pl := pl) ht
  have hdie := installed_die (lt_of_tlbHit ht) pl va t (s := s)
  rw [cachesAgree_iff] at h ⊢
  obtain ⟨apart, banks, groups⟩ := h
  have same (ts : List TlbEntry) : tlbWithin ((installed s d pl va t).die d) ts = tlbWithin (s.die d) ts := by
    unfold tlbWithin tlbHit
    rw [htlb]
  simp only [same]
  rw [htlb]
  refine ⟨apart, ?_⟩
  rw [hdie]
  obtain _ | ⟨g, b⟩ := pl
  · exact ⟨banks, groups⟩
  · simp only [Option.isNone_some, Bool.false_eq_true, if_false, tlbInstall, smapGet_set]
    refine ⟨fun k => ?_, fun k => ?_⟩
    · split
      · exact tlbWithin_tlbPut apart (banks _) hmem 16 va
      · exact banks k
    · split
      · exact tlbWithin_tlbPut apart (groups _) hmem 256 va
      · exact groups k

/-! ## States that an element's accesses lead to -/

/-- A sequencer without its watchers and its dirty record, and without what is kept of pulls and of lines. -/
def Seq.core (q : Seq) : Seq :=
  { q with monitor := none, grp := Group.none, dirtyGran := [], hwm := 0, reads := [], versions := [] }

/-- The second state is one that reads and writes of sequencer n's element may make of the first: memory, full bits, versions, the
caches of its die and the watchers may be others. -/
structure Near (n : Nat) (s u : State) : Prop where
  core : ∀ m, (u.seq m).core = (s.seq m).core
  closed : (s.seqs.all fun q => q.2.grp.st == .none) = true → (u.seqs.all fun q => q.2.grp.st == .none) = true
  ctxs : u.ctxs = s.ctxs
  links : u.links = s.links
  now : u.now = s.now
  marks : u.marks = s.marks
  landings : u.landings = s.landings
  migs : u.migs = s.migs
  soft : s.soft = [] → u.soft = []
  tlb : (u.die (dieOf n)).tlb = (s.die (dieOf n)).tlb
  agree : cachesAgree s (dieOf n) → cachesAgree u (dieOf n)

/-- The second state is one that reads alone may make of the first. -/
structure Warm (n : Nat) (s u : State) : Prop extends Near n s u where
  mem : u.mem = s.mem
  empty : u.empty = s.empty
  versions : (u.seq n).versions = (s.seq n).versions

theorem Near.refl (n : Nat) (s : State) : Near n s s :=
  ⟨fun _ => rfl, id, rfl, rfl, rfl, rfl, rfl, rfl, id, rfl, id⟩

theorem Near.trans {n : Nat} {s t u : State} (h : Near n s t) (h' : Near n t u) : Near n s u :=
  ⟨fun m => (h'.core m).trans (h.core m), h'.closed ∘ h.closed, h'.ctxs.trans h.ctxs, h'.links.trans h.links,
    h'.now.trans h.now, h'.marks.trans h.marks, h'.landings.trans h.landings, h'.migs.trans h.migs, h'.soft ∘ h.soft,
    h'.tlb.trans h.tlb, h'.agree ∘ h.agree⟩

theorem Warm.refl (n : Nat) (s : State) : Warm n s s := ⟨Near.refl n s, rfl, rfl, rfl⟩

theorem Warm.trans {n : Nat} {s t u : State} (h : Warm n s t) (h' : Warm n t u) : Warm n s u :=
  ⟨h.toNear.trans h'.toNear, h'.mem.trans h.mem, h'.empty.trans h.empty, h'.versions.trans h.versions⟩

/-- A sequencer whose group is closed replaces one: no group opens. -/
theorem closed_setSeq {s : State} {n : Nat} {q : Seq} (h : (s.seqs.all fun q => q.2.grp.st == .none) = true)
    (hq : q.grp.st = .none) : ((s.setSeq n q).seqs.all fun q => q.2.grp.st == .none) = true := by
  refine List.all_eq_true.2 fun p hp => ?_
  have del (l : List (Nat × Seq)) (hm : p ∈ smapDel n l) : p ∈ l := (List.mem_filter.1 hm).1
  have mem : p = (n, q) ∨ p ∈ s.seqs := by
    change p ∈ smapSet n q s.seqs at hp
    generalize s.seqs = l at hp ⊢
    induction l with
    | nil => exact .inl (List.mem_singleton.1 hp)
    | cons r l ih =>
      unfold smapSet at hp
      split at hp
      · simp only [List.mem_cons] at hp ⊢
        exact hp.imp_right (Or.imp_right (del l))
      · split at hp
        · simp only [List.mem_cons] at hp ⊢
          exact hp.imp_right fun h => .inr (del l h)
        · simp only [List.mem_cons] at hp ⊢
          exact hp.elim (fun h => .inr (.inl h)) fun h => (ih h).imp_right .inr
  obtain rfl | hm := mem
  · simpa using hq
  · exact List.all_eq_true.1 h p hm

/-- The group of a sequencer is closed when all are. -/
theorem grp_closed {s : State} (h : (s.seqs.all fun q => q.2.grp.st == .none) = true) (n : Nat) :
    (s.seq n).grp.st = .none := by
  unfold State.seq
  have get (l : List (Nat × Seq)) (hl : (l.all fun q => q.2.grp.st == .none) = true) :
      ((smapGet n l).getD Seq.reset).grp.st = .none := by
    induction l with
    | nil => rfl
    | cons p r ih =>
      rw [List.all_cons, Bool.and_eq_true] at hl
      unfold smapGet
      split
      · simpa using hl.1
      · exact ih hl.2
  exact get s.seqs h

/-- A change of what the element's own sequencer keeps of pulls and lines. -/
theorem Near.of_setSeq {n : Nat} {s : State} {q : Seq} (hc : q.core = (s.seq n).core) (hg : q.grp = (s.seq n).grp) :
    Near n s (s.setSeq n q) where
  core m := by
    by_cases h : m = n
    · rw [h, State.seq_setSeq, hc]
    · rw [State.seq_setSeq_other _ _ _ _ h]
  closed h := closed_setSeq h (hg ▸ grp_closed h n)
  ctxs := rfl
  links := rfl
  now := rfl
  marks := rfl
  landings := rfl
  migs := rfl
  soft := id
  tlb := rfl
  agree := id

/-- The caches of a place take one of the die's translations. -/
theorem Warm.installed {n : Nat} {s : State} {pl : Place} {space va : Nat} {t : TlbEntry}
    (ht : tlbHit (s.die (dieOf n)) space va = some t) : Warm n s (installed s (dieOf n) pl va t) := by
  obtain ⟨hseqs, hctxs, hlinks, hnow, hmarks, hsoft, hempty⟩ : (Machine.installed s (dieOf n) pl va t).seqs = s.seqs ∧
      (Machine.installed s (dieOf n) pl va t).ctxs = s.ctxs ∧ (Machine.installed s (dieOf n) pl va t).links = s.links ∧
      (Machine.installed s (dieOf n) pl va t).now = s.now ∧ (Machine.installed s (dieOf n) pl va t).marks = s.marks ∧
      (Machine.installed s (dieOf n) pl va t).soft = s.soft ∧ (Machine.installed s (dieOf n) pl va t).empty = s.empty := by
    unfold Machine.installed
    split
    · exact ⟨rfl, rfl, rfl, rfl, rfl, rfl, rfl⟩
    · exact ⟨rfl, rfl, rfl, rfl, rfl, rfl, rfl⟩
  exact ⟨⟨fun m => by rw [installed_seq], fun h => by rw [hseqs]; exact h, hctxs, hlinks, hnow, hmarks, installed_landings ..,
    installed_migs .., fun h => hsoft.trans h, installed_tlb ht, cachesAgree_installed ht⟩, installed_mem .., hempty,
    by rw [installed_seq]⟩

/-- Writes that every sequencer has seen. -/
theorem Near.of_noted {n : Nat} {s u : State} (h : Noted s u) (hm : u.migs = s.migs) (hd : u.dies = s.dies) : Near n s u := by
  have die (d : Nat) : u.die d = s.die d := by unfold State.die; rw [hd]
  refine ⟨h.seq Seq.core fun _ _ _ _ _ => rfl, h.groupsClosed, h.ctxs, h.links, h.now, h.marks, h.landings, hm, h.soft,
    by rw [die], fun ha => ?_⟩
  unfold cachesAgree at ha ⊢
  rw [die]
  exact ha

/-- Bytes are written. -/
theorem Near.poke (n : Nat) (s : State) (key : Nat) (bs : List Byte) : Near n s (s.poke key bs) :=
  .of_noted (noted_poke s key bs) rfl rfl

/-- Words become full or empty. -/
theorem Near.markWords (n : Nat) (s : State) (ws : List Nat) (full : Bool) : Near n s (s.markWords ws full) := by
  refine .of_noted (noted_markWords s ws full) ?_ ?_
  all_goals
    induction ws generalizing s with
    | nil => rfl
    | cons w ws ih => exact ih _

section Near
variable {n : Nat} {s u : State} (h : Near n s u)
include h

/-- A part of a sequencer that no access changes. -/
theorem Near.part {α : Type} (part : Seq → α) (hp : ∀ q, part q.core = part q) (m : Nat) : part (u.seq m) = part (s.seq m) := by
  rw [← hp, h.core, hp]

theorem Near.inflight (m : Nat) : (u.seq m).inflight = (s.seq m).inflight := h.part Seq.inflight (fun _ => rfl) m
theorem Near.kept (m : Nat) : (u.seq m).kept = (s.seq m).kept := h.part Seq.kept (fun _ => rfl) m
theorem Near.ctx_eq (m : Nat) : (u.seq m).ctx = (s.seq m).ctx := h.part Seq.ctx (fun _ => rfl) m

theorem Near.inWin (m key : Nat) : (u.seq m).inWin key = (s.seq m).inWin key :=
  h.part (fun q => q.inWin key) (fun _ => rfl) m
theorem Near.ownerOf (m key : Nat) : (u.seq m).ownerOf key = (s.seq m).ownerOf key :=
  h.part (fun q => q.ownerOf key) (fun _ => rfl) m
theorem Near.ownerVa (m va : Nat) : (u.seq m).ownerVa va = (s.seq m).ownerVa va :=
  h.part (fun q => q.ownerVa va) (fun _ => rfl) m
theorem Near.zoneOk (m : Nat) (z : Zone) (p : Phys) : zoneOk z (u.seq m) p = zoneOk z (s.seq m) p :=
  h.part (fun q => Machine.zoneOk z q p) (fun _ => rfl) m

theorem Near.ctx (c : Nat) : u.ctx c = s.ctx c := by
  unfold State.ctx
  rw [h.ctxs]

theorem Near.wayTo (d key : Nat) : u.wayTo d key = s.wayTo d key := by
  have link : u.link = s.link := by
    funext k
    unfold State.link
    rw [h.links]
  have ways : wayOver u = wayOver s := by
    funext k
    unfold wayOver
    rw [link]
  unfold State.wayTo wayOut wayDies wayAlong downOn
  rw [ways, link, h.now]

theorem Near.tlbHit (space va : Nat) : tlbHit (u.die (dieOf n)) space va = tlbHit (s.die (dieOf n)) space va := by
  unfold Machine.tlbHit
  rw [h.tlb]

theorem Near.markOn (w : Nat) : u.markOn w = s.markOn w := by
  unfold State.markOn
  rw [h.marks]

end Near

/-- A key of a sequencer's window lies in some window. -/
theorem winOf_isSome {s : State} {n key : Nat} (h : (s.seq n).inWin key = true) : (s.winOf key).isSome = true := by
  unfold State.seq at h
  have find (l : List (Nat × Seq)) (hl : ((smapGet n l).getD Seq.reset).inWin key = true) :
      (l.find? fun p => p.2.winPa ≤ key && key < p.2.winPa + twoMB * p.2.groups.length).isSome = true := by
    induction l with
    | nil =>
      simp [smapGet, Seq.inWin, Seq.g, Seq.reset] at hl
    | cons p r ih =>
      rw [List.find?_cons]
      split
      · rfl
      · refine ih ?_
        unfold smapGet at hl
        split at hl
        · rename_i hno _
          exact absurd (hl.symm.trans hno) Bool.false_ne_true.symm
        · exact hl
  exact find s.seqs h

/-- An address that an access of sequencer n reaches; one of the cistern lies in its own window. -/
def Spot (s : State) (n : Nat) (acc : Access) (va : Nat) (p : Phys) : Prop :=
  mapped s n acc va p ∧ (p.tier = 0 → (s.seq n).inWin p.key = true)

/-- It stays where it is. -/
theorem Near.spot {n : Nat} {s u : State} (h : Near n s u) {acc : Access} {va : Nat} {p : Phys} (hp : Spot s n acc va p) :
    Spot u n acc va p := by
  obtain ⟨⟨⟨hva, hmig, -, hway, t, ht, hperm, hphys⟩, hd⟩, hin⟩ := hp
  have hin' : p.tier = 0 → (u.seq n).inWin p.key = true := fun h0 => by rw [h.inWin]; exact hin h0
  refine ⟨⟨⟨hva, h.migs.trans hmig, fun h0 => winOf_isSome (hin' h0), (h.wayTo ..).trans hway, t, ?_, hperm, hphys⟩, hd⟩, hin'⟩
  rw [h.ctx_eq, h.ctx]
  exact (h.tlbHit ..).trans ht

/-- The way to it is open. -/
theorem Spot.way {s : State} {n : Nat} {acc : Access} {va : Nat} {p : Phys} (hp : Spot s n acc va p) :
    s.wayTo (dieOf n) p.key = .clear := hp.1.1.2.2.2.1

/-- Its D is set where the access writes. -/
theorem Spot.dirty {s : State} {n : Nat} {acc : Access} {va : Nat} {p : Phys} (hp : Spot s n acc va p)
    (hw : accWrites acc = true) (d : Nat) : s.dirty d p = s := State.dirty_of_set (hp.1.2 hw) d

/-- A place of the window. -/
theorem spot_of_inWindow {s : State} {n va w : Nat} {acc : Access} {p : Phys} (h : inWindow s n acc va w p) (hw : 0 < w) :
    Spot s n acc va p := by
  obtain ⟨hm, -, -, -, -, hlo, hhi, -⟩ := h
  refine ⟨hm, fun _ => ?_⟩
  exact Bool.and_eq_true_iff.2 ⟨decide_eq_true hlo,
    decide_eq_true (show p.key < (s.seq n).winPa + 0x200000 * (s.seq n).groups.length by omega)⟩

end Sys2Proof.Machine
end

section
/-!
SUPPORT. Moves that only read (08 R210 to R212): from every state that reads have led to they answer one value, so that the checks
and pulls of an element are put together without following the state.
-/
namespace Sys2Proof.Machine
open Sys2Proof.Claim

/-- From every state that reads of sequencer n's element have made of s, the move answers a, and only reads. -/
def Op.Reads {α : Type} (n : Nat) (s : State) (m : Op α) (a : α) : Prop :=
  ∀ u, Warm n s u → ∃ v, m.run u = .ok a v ∧ Warm n s v

section Reads
variable {α β γ : Type} {n : Nat} {s : State}

/-- A move that only reads, from the first state itself. -/
theorem Op.Reads.run {m : Op α} {a : α} (h : Op.Reads n s m a) : ∃ u, m.run s = .ok a u ∧ Warm n s u := h s (.refl n s)

theorem reads_pure (a : α) : Op.Reads n s (pure a) a := fun u hu => ⟨u, rfl, hu⟩

/-- A move that leaves each of these states alone. -/
theorem reads_of_run {m : Op α} {a : α} (h : ∀ u, Warm n s u → m.run u = .ok a u) : Op.Reads n s m a :=
  fun u hu => ⟨u, h u hu, hu⟩

theorem reads_bind {m : Op α} {k : α → Op β} {a : α} {b : β} (hm : Op.Reads n s m a) (hk : Op.Reads n s (k a) b) :
    Op.Reads n s (m >>= k) b := fun u hu => by
  obtain ⟨v, hv, hw⟩ := hm u hu
  rw [Op.run_bind_ok hv]
  exact hk v hw

theorem reads_get {k : State → Op β} {b : β} (h : ∀ u, Warm n s u → Op.Reads n s (k u) b) : Op.Reads n s (get >>= k) b :=
  fun u hu => h u hu u hu

theorem reads_seq {x : ECx} {k : Seq → Op β} {b : β} (h : ∀ u, Warm n s u → Op.Reads n s (k (u.seq x.n)) b) :
    Op.Reads n s (x.seq >>= k) b := fun u hu => h u hu u hu

theorem reads_ite {c : Prop} [Decidable c] {m m' : Op α} {a : α} (h : c → Op.Reads n s m a) (h' : ¬c → Op.Reads n s m' a) :
    Op.Reads n s (if c then m else m') a := by
  split
  · exact h ‹_›
  · exact h' ‹_›

/-- The branch of a move whose condition holds, or does not. -/
theorem reads_pos {c : Prop} [Decidable c] {m m' : Op α} {a : α} (hc : c) (h : Op.Reads n s m a) :
    Op.Reads n s (if c then m else m') a := reads_ite (fun _ => h) fun hn => absurd hc hn
theorem reads_neg {c : Prop} [Decidable c] {m m' : Op α} {a : α} (hc : ¬c) (h : Op.Reads n s m' a) :
    Op.Reads n s (if c then m else m') a := reads_ite (fun hn => absurd hn hc) fun _ => h

theorem reads_attempt {m : Op α} {a : α} (h : Op.Reads n s m a) : Op.Reads n s (attempt m) (.ok a) := fun u hu => by
  obtain ⟨v, hv, hw⟩ := h u hu
  exact ⟨v, Op.run_attempt_ok hv, hw⟩

/-- A move for each thing of a list. -/
theorem reads_mapM {f : γ → α} {g : α → Op β} {b : γ → β} {l : List γ} (h : ∀ c ∈ l, Op.Reads n s (g (f c)) (b c)) :
    Op.Reads n s ((l.map f).mapM g) (l.map b) := by
  induction l with
  | nil => exact reads_pure []
  | cons c l ih =>
    rw [List.map_cons, List.mapM_cons]
    refine reads_bind (h c List.mem_cons_self) (reads_bind (ih fun c hc => h c (List.mem_cons_of_mem _ hc)) ?_)
    exact reads_pure _

/-- A loop over a list. -/
theorem reads_forIn {f : γ → α} {g : α → PUnit → Op (ForInStep PUnit)} {l : List γ}
    (h : ∀ c ∈ l, Op.Reads n s (g (f c) ⟨⟩) (.yield ⟨⟩)) : Op.Reads n s (forIn (l.map f) PUnit.unit g) ⟨⟩ := by
  induction l with
  | nil => exact reads_pure _
  | cons c l ih =>
    rw [List.map_cons, List.forIn_cons]
    exact reads_bind (h c List.mem_cons_self) (ih fun c hc => h c (List.mem_cons_of_mem _ hc))

/-- Spans read one after another. -/
theorem reads_pullAllBy {pull : Pull} {x : ECx} {f : γ → Bool × Nat × Nat × Phys} {b : γ → List Byte} {l : List γ}
    (h : ∀ c ∈ l, Op.Reads n s (pull x (f c).1 (f c).2.1 (f c).2.2.1 (f c).2.2.2) (b c)) :
    Op.Reads n s (pullAllBy pull x (l.map f) none) (l.map b) := by
  induction l with
  | nil => exact reads_pure []
  | cons c l ih =>
    rw [List.map_cons]
    unfold pullAllBy
    refine reads_bind (reads_attempt (h c List.mem_cons_self)) ?_
    refine reads_bind (ih fun c hc => h c (List.mem_cons_of_mem _ hc)) ?_
    exact reads_pure _

end Reads

/-! ## Translation and ways -/

/-- An access to an address that the caches of a place hold, inside a move. -/
theorem xlateOp_hit {s : State} {who d c va : Nat} {acc : Access} {p : Phys} {pl : Place} {t : TlbEntry}
    (hr : reachesAt s d (s.ctx c).cptbase acc va p) (hd : tlbHit (s.die d) ((s.ctx c).cptbase.toNat % 4096) va = some t)
    (hc : cacheHit (s.die d) pl ((s.ctx c).cptbase.toNat % 4096) va = some t) :
    (xlateOp who d c va acc pl).run s = .ok (.ok p) (installed s d pl va t) := by
  obtain ⟨hva, hm, hw, -, t', ht, hp, rfl⟩ := hr
  obtain rfl : t = t' := Option.some.inj (hd.symm.trans ht)
  have hwin : (eTier t.leaf = 0 && (s.winOf (leafKey t.leaf t.level va)).isNone) = false := by
    by_cases h0 : eTier t.leaf = 0
    · simpa [h0, Option.isSome_iff_ne_none] using hw h0
    · simp [h0]
  have xl : xlate s d c va acc false pl = (.ok ⟨leafKey t.leaf t.level va, t.leaf, t.entry⟩, installed s d pl va t) := by
    unfold xlate xlateRoot
    rw [if_neg (by omega), findLeaf_hit hc]
    change (if !permits t.leaf acc then _ else if eTier t.leaf = 0 &&
      ((installed s d pl va t).winOf (leafKey t.leaf t.level va)).isNone then _ else _) = _
    rw [installed_winOf, hp, hwin]
    rfl
  refine (xlateOp_of_xlate hm xl).trans ?_
  rw [installed_migs, hm, List.filter_nil, ← hm, installed_with_migs]

section Element
variable {s : State} {x : ECx}

/-- A bank's access to a spot is translated. -/
theorem reads_xlV {va : Nat} {acc : Access} {p : Phys} (ha : cachesAgree s (dieOf x.n)) (hp : Spot s x.n acc va p) :
    Op.Reads x.n s (xlV x va acc) (.ok p) := fun u hu => by
  obtain ⟨⟨hr, -⟩, -⟩ := hu.toNear.spot hp
  obtain ⟨t, ht, -⟩ := hr.2.2.2.2
  have run : (xlV x va acc).run u = .ok (.ok p) (installed u (dieOf x.n) (x.place (u.seq x.n)) va t) :=
    (Op.run_bind_ok (ECx.run_seq x u)).trans
      (xlateOp_hit (who := x.n) (pl := x.place (u.seq x.n)) hr ht (cacheHit_of_agree (hu.agree ha) _ ht))
  exact ⟨_, run, hu.trans (.installed ht)⟩

/-- It is reached. -/
theorem reads_needRoute {va : Nat} {acc : Access} {p : Phys} (hp : Spot s x.n acc va p) (va' : Nat) :
    Op.Reads x.n s (needRoute (dieOf x.n) va' p) () :=
  reads_of_run fun _ hu => needRoute_run (hu.toNear.spot hp).way

end Element

/-! ## Pulls -/

/-- Nothing but the entry in flight stands in the way of an element's pulls and writes. -/
structure Alone (s : State) (n : Nat) (e : Entry) : Prop where
  inflight : (s.seq n).inflight = [e]
  soft : s.soft = []
  marks : s.marks = []
  versions : (s.seq n).versions = []
  kept : (s.seq n).kept = []
  closed : (s.seqs.all fun q => q.2.grp.st == .none) = true
  agree : cachesAgree s (dieOf n)

theorem alone_of_atElement {s : State} {n g i : Nat} {e : Entry} (h : atElement s n g i e) : Alone s n e := by
  obtain ⟨⟨-, -, hq, -⟩, -, -, -, -, hs, hm, -, hv, hk, -, hc, ha, -⟩ := h
  exact ⟨hq, hs, hm, hv, hk, hc, ha⟩

/-- The only instruction in flight is the first that is not complete. -/
theorem doneBelow_only {s : State} {n : Nat} {e : Entry} (h : (s.seq n).inflight = [e]) (g : Nat) :
    (s.seq n).doneBelow g e.isn = true := by
  simp [Seq.doneBelow, h]

section Alone
variable {s : State} {n i : Nat} {e : Entry} {f : VForm} (ha : Alone s n e)
include ha

theorem Alone.markOn (w : Nat) : s.markOn w = none := by
  rw [State.markOn, ha.marks]
  rfl

omit ha in
/-- A place of the window that is no SO page waits for nothing lower. -/
theorem needOrder_window {u : State} (hu : Near n s u) {va w : Nat} {acc : Access} {p : Phys} (hp : inWindow s n acc va w p)
    (hw : 0 < w) (len : Nat) : (needOrder ⟨n, e, f, i⟩ p len).run u = .ok () u := by
  have hin := (spot_of_inWindow hp hw).2
  obtain ⟨-, h0, hk, -⟩ := hp
  unfold needOrder
  refine (Op.run_bind_ok (Op.run_get u)).trans ?_
  exact Op.run_if_pos (by simp [hk, h0, hu.inWin, hin h0])

omit ha in
/-- Bytes that stand in full words make full words. -/
theorem words_full {u : State} (hu : u.empty = s.empty) {key w : Nat} (hw : 0 < w) (h : ∀ k, k < w → s.full (key + k) = true) :
    ∀ k ∈ wordsOf key w, u.full (8 * k) = true := fun k hk => by
  obtain ⟨j, hj, rfl⟩ := List.mem_map.1 hk
  have hj := List.mem_range.1 hj
  have at_ (k : Nat) (hk : k < w) (hword : 8 * (key / 8 + j) / 8 = (key + k) / 8) : u.full (8 * (key / 8 + j)) = true := by
    rw [State.full, hu, hword]
    exact h k hk
  by_cases hlow : key ≤ 8 * (key / 8 + j)
  · exact at_ (8 * (key / 8 + j) - key) (by omega) (by omega)
  · exact at_ 0 hw (by omega)

/-- The state after the pull of some words, which are noted when other groups may pull before. -/
def notedPull (u : State) (n : Nat) (ws : List Nat) (m : BitVec 32) (i : Nat) : State :=
  if (u.seq n).g > 1 then u.modSeq n (·.notePull ws m i) else u

omit ha in
theorem warm_notedPull (u : State) (n : Nat) (ws : List Nat) (m : BitVec 32) (i : Nat) : Warm n u (notedPull u n ws m i) := by
  unfold notedPull
  split
  · exact ⟨.of_setSeq rfl rfl, rfl, rfl, by rw [State.seq_modSeq]; rfl⟩
  · exact .refl n u

/-- The bytes of full words of the window, while nothing but the entry is in flight. -/
theorem pullOwn_alone {u : State} (hu : Warm n s u) {key w va : Nat} (hw : 0 < w) (hl : key % 64 + w ≤ 64)
    (hf : ∀ k, k < w → s.full (key + k) = true) (pol : Bool) :
    (pullOwn n e.isn i va key w pol).run u = .ok (s.mem.read key w) (notedPull u n (wordsOf key w) e.isn i) := by
  have hq : (u.seq n).inflight = [e] := (hu.inflight n).trans ha.inflight
  have line : (u.seq n).overKept key e.isn i (viewLine u (u.seq n) key e.isn) =
      (u.mem.read (key / 64 * 64) 64, u.fullBits (key / 64)) := by
    rw [Seq.overKept, (hu.kept n).trans ha.kept, viewLine, hu.versions, ha.versions]
    rfl
  have chain : chainHeld u key w = false := by
    unfold chainHeld
    dsimp only
    rw [hu.marks, ha.marks]
    simp
  have bytes : ((u.mem.read (key / 64 * 64) 64).drop (key % 64)).take w = s.mem.read key w := by
    rw [Mem.read_part _ hl, Nat.div_add_mod' key 64, hu.mem]
  unfold pullOwn
  refine (Op.run_bind_ok (Op.run_get u)).trans ?_
  refine (Op.run_if_neg (by rw [doneBelow_only hq]; exact Bool.false_ne_true)).trans ?_
  rw [line]
  refine (Op.run_bind_ok (needFull_run (fullBits_part hw (words_full hu.empty hw hf)))).trans ?_
  refine (Op.run_if_neg (by rw [chain]; simp)).trans ?_
  refine (Op.run_bind_ok (checkSoft_run (hu.soft ha.soft))).trans ?_
  dsimp only
  rw [bytes, hq, notedPull]
  by_cases hg : (u.seq n).g > 1
  · rw [if_pos hg, if_pos (by simp [hg])]
    rfl
  · rw [if_neg hg, if_neg (by simp [hg])]
    rfl

/-- The bytes of a full place of the window. -/
theorem reads_pullSpan_here {va w : Nat} {acc : Access} {p : Phys} (hp : here s n acc va w p) (hw : 0 < w)
    (hl : p.key % 64 + w ≤ 64) (pol : Bool) :
    Op.Reads n s (pullSpan ⟨n, e, f, i⟩ pol va w p) (s.mem.read p.key w) := fun u hu => by
  obtain ⟨hp, hfull⟩ := hp
  have hin := (spot_of_inWindow hp hw).2
  have h0 : p.tier = 0 := hp.2.1
  have run : (pullSpan ⟨n, e, f, i⟩ pol va w p).run u = .ok (s.mem.read p.key w) (notedPull u n (wordsOf p.key w) e.isn i) := by
    unfold pullSpan
    refine (Op.run_bind_ok (needOrder_window hu.toNear hp hw w)).trans ?_
    unfold pullNow
    refine (Op.run_bind_ok (ECx.run_seq _ u)).trans ?_
    refine (Op.run_if_pos h0).trans ?_
    exact (Op.run_if_pos ((hu.inWin n p.key).trans (hin h0))).trans (pullOwn_alone ha hu hw hl hfull pol)
  exact ⟨_, run, hu.trans (warm_notedPull ..)⟩

end Alone

end Sys2Proof.Machine
end

section
/-!
SUPPORT. Who executes an element (02 R41, R45), and where it writes its destination in its order (08 R224), while the address of an
operand decides its owner.
-/
namespace Sys2Proof.Machine
open Sys2Proof.Claim

/-! ## Ownership (02 R45) -/

/-- An operand in memory, in mode 00 or 01, decides which group executes an element. -/
def Decides (e : Entry) (f : VForm) (o : Opd) (t : ETy) : Prop :=
  deciding e f = some (o, t) ∧ o.isIdx = false ∧ o.isScal = false

/-- Its line's group is the owner, or the home's outside the window. -/
theorem ownerPeek_decided {e : Entry} {f : VForm} {o : Opd} {t : ETy} (h : Decides e f o t) (u : State) (n k i : Nat) :
    ownerPeek u ⟨n, e, f, k⟩ i = some (((u.seq n).ownerVa (o.at t i 0).toNat).getD (homeOf (u.seq n) ⟨n, e, f, k⟩ i)) := by
  obtain ⟨hd, hi, hs⟩ := h
  simp [ownerPeek, hd, hi, peekAt, hs]

/-- The group that owns the line at an address of the window. -/
theorem ownerVa_of_owned {s : State} {n g va : Nat} (h : owned s n g va) : (s.seq n).ownerVa va = some g := by
  obtain ⟨hl, hh, hg⟩ := h
  have line : (s.seq n).lineVa va = some ((va - (s.seq n).winVa) / 64) :=
    if_pos (Bool.and_eq_true_iff.2 ⟨decide_eq_true hl, decide_eq_true hh⟩)
  rw [Seq.ownerVa, line, Option.map_some, Seq.g, hg]

/-! ## The place of a destination in the window -/

/-- A place of the window at which the group that executes element i writes it in its order. -/
def InPlace (s : State) (n i : Nat) (e : Entry) (f : VForm) (key : Nat) : Prop :=
  e.odd = [] ∧ ∃ o t, Decides e f o t ∧ (s.seq n).ownerVa (o.at t i 0).toNat = some ((s.seq n).ownerOf key)

section InPlace
variable {s u : State} {n i : Nat} {e : Entry} {f : VForm} {key : Nat} (h : InPlace s n i e f key) (hu : Near n s u)
include h hu

theorem InPlace.outOfPlace (k : Nat) : outOfPlace u ⟨n, e, f, k⟩ i key = false := by
  obtain ⟨ho, o, t, hd, hw⟩ := h
  unfold Machine.outOfPlace
  dsimp only
  rw [ho, ownerPeek_decided hd, hu.ownerVa, hw, hu.ownerOf]
  simp

/-- It writes all the bits of its field. -/
theorem InPlace.elemBits (k : Nat) (mask : List Byte) : elemBits u ⟨n, e, f, k⟩ i key mask = mask :=
  if_neg (by rw [h.outOfPlace hu]; exact Bool.false_ne_true)

/-- It waits for no other write. -/
theorem InPlace.placeDst {va w : Nat} {acc : Access} {p : Phys} (hk : p.key = key) (hp : inWindow s n acc va w p) (hw : 0 < w)
    (len : Nat) : (placeDst ⟨n, e, f, i⟩ p len).run u = .ok () u := by
  subst hk
  unfold Machine.placeDst
  refine (Op.run_bind_ok (Op.run_get u)).trans ?_
  exact (Op.run_if_neg (by rw [h.outOfPlace hu]; simp)).trans (needOrder_window hu hp hw len)

end InPlace

/-- An operand in mode 00, or in mode 01 with elements of whole bytes. -/
def Opd.Direct (o : Opd) (t : ETy) : Prop := match o.spec with
  | .unit _ => True
  | .stride _ => t ≠ .n1
  | _ => False

theorem direct_unit {o : Opd} {t : ETy} {r : Reg} (h : o.spec = .unit r) : o.Direct t := by
  rw [Opd.Direct, h]
  trivial

theorem direct_stride {o : Opd} {t : ETy} {r : Reg} (h : o.spec = .stride r) (ht : t ≠ .n1) : o.Direct t := by
  rw [Opd.Direct, h]
  exact ht

/-- The address of an element in mode 00 or 01 (08 R210, R211). -/
theorem elemVa_eq {o : Opd} {t : ETy} (i : Nat) (ht : plain t) (h : o.Direct t) : (o.at t i 0).toNat = elemVa o t i := by
  obtain ⟨sp, base, aux, pol⟩ := o
  cases sp with
  | unit r =>
    have off : (t.field i).1 = if t = .n1 then i / 8 else i * t.size := by
      obtain rfl | ⟨hp, hm⟩ := ht
      · rfl
      · cases t with
        | n1 | blk | mx4 | ip => cases hp
        | mld => exact absurd rfl hm
        | int | flt | w48 => simp [ETy.field]
    simp only [Opd.at, elemVa, off, toWord, BitVec.toNat_add, BitVec.toNat_ofNat, Nat.add_mod_mod]
  | stride r => rfl
  | index r => exact h.elim
  | scal r => exact h.elim

/-- It has no index vector, and stands in memory. -/
theorem direct_mode {o : Opd} {t : ETy} (h : o.Direct t) : o.isIdx = false ∧ o.isScal = false := by
  unfold Opd.isIdx Opd.isScal
  unfold Opd.Direct at h
  split at h
  · simp [*]
  · simp [*]
  · exact h.elim

/-- A placed destination decides the owner, and its place is the owner's. -/
theorem inPlace_of_placed {s : State} {n g i : Nat} {e : Entry} {f : VForm} {t : ETy} {p : Phys}
    (hp : placed s n g (e.opdD f) t i p) (hd : ∀ o, e.opdD f = some o → o.isScal = false → deciding e f = some (o, t))
    (ho : e.odd = []) : InPlace s n i e f p.key := by
  obtain ⟨d, hD, ht, hmode, hwin, hown, hoff⟩ := hp
  have mode := direct_mode hmode
  refine ⟨ho, d, t, ⟨hd d hD mode.2, mode⟩, ?_⟩
  rw [elemVa_eq i ht hmode, ownerVa_of_owned hown, Seq.ownerOf, ← hoff, Seq.g]
  exact congrArg some hown.2.2.symm

end Sys2Proof.Machine
end

section
/-!
SUPPORT. The operands of one element with the places at which they have been found: their addresses, checks and pulls (07 R185; 08
R210 to R212).
-/
namespace Sys2Proof.Machine
open Sys2Proof.Claim

/-- An operand of an element with what its checks find: the entry of its index vector, where that entry stands, and its spans with
their places. -/
structure Slot where
  opd : Opd
  ty : ETy
  elem : Nat
  acc : Access
  zone : Zone
  ix : Int
  ixAt : Phys
  spots : List ((Nat × Nat) × Phys)

def Slot.key (r : Slot) : Opd × ETy × Nat := (r.opd, r.ty, r.elem)
def Slot.src (r : Slot) : Opd × ETy × Nat × Zone := (r.opd, r.ty, r.elem, r.zone)
def Slot.dst (r : Slot) : Opd × ETy × Nat × Access × Zone := (r.opd, r.ty, r.elem, r.acc, r.zone)
def Slot.spans (r : Slot) : List (Nat × Nat) := r.spots.map (·.1)
def Slot.places (r : Slot) : List Phys := r.spots.map (·.2)
def Slot.sUse (r : Slot) : SUse := ⟨r.spans, r.opd.pol, r.zone⟩
def Slot.dUse (r : Slot) : DUse := ⟨r.spans, r.acc, r.zone⟩
def Slot.bytes (r : Slot) (m : Mem) : List (List Byte) := r.spots.map fun c => m.read c.2.key c.1.2

/-- The raw bits that it gives the element. -/
def Slot.raw (r : Slot) (m : Mem) : Nat := if r.opd.isScal then scalRaw r.ty r.opd.base else r.ty.raw r.elem (r.bytes m)

/-- The bits with their value. -/
def Slot.arg (r : Slot) (m : Mem) : Arg := ⟨r.raw m, if r.opd.isScal then scalVal r.ty (r.raw m) else r.ty.val (r.raw m)⟩

/-- Its index entry stands in a full place of the window. -/
def Slot.Indexed (r : Slot) (s : State) (n : Nat) : Prop :=
  here s n .load (r.opd.indexVa r.elem) 4 r.ixAt ∧ r.ix = signedOf 32 (s.mem.num r.ixAt.key 4)

/-- Its spans are those of its address, which is aligned; a register has none. -/
def Slot.Resolved (r : Slot) (s : State) (n : Nat) : Prop :=
  (r.opd.isIdx = true → r.Indexed s n) ∧ (r.opd.isIdx = false → r.ix = 0) ∧
    (r.opd.isScal = false → r.ty.packed = true ∨ (r.opd.at r.ty r.elem r.ix).toNat % r.ty.size = 0) ∧
    r.spans = if r.opd.isScal then [] else r.opd.spans r.ty r.elem (r.opd.at r.ty r.elem r.ix)

/-- Each of its places is reached, and lies where the operand may. -/
def Slot.Reached (r : Slot) (s : State) (n : Nat) : Prop :=
  ∀ c ∈ r.spots, Spot s n r.acc c.1.1 c.2 ∧ zoneOk r.zone (s.seq n) c.2 = true

/-- The element pulls its bytes. -/
def Slot.Pulls (r : Slot) (s : State) (x : ECx) : Prop :=
  ∀ c ∈ r.spots, Op.Reads x.n s (pullSpan x r.opd.pol c.1.1 c.1.2 c.2) (s.mem.read c.2.key c.1.2)

/-- No code of it is reserved. -/
def Slot.Sound (r : Slot) (m : Mem) : Prop := plain r.ty ∧ (r.ty = .w48 → r.raw m < 2 ^ 48)

/-- The element's writes to it keep their place. -/
def Slot.Placed (r : Slot) (s : State) (x : ECx) : Prop :=
  ∀ c ∈ r.spots, ∀ u, Warm x.n s u → (placeDst x c.2 c.1.2).run u = .ok () u

section Slots
variable {s : State} {x : ECx} (ha : Alone s x.n x.e)
include ha

/-! ## Index entries -/

omit ha in
/-- A function that answers for every element of a list. -/
theorem filterMap_map_some {α β γ : Type} {f : α → β} {g : β → Option γ} {h : α → γ} {l : List α}
    (hl : ∀ a ∈ l, g (f a) = some (h a)) : (l.map f).filterMap g = l.map h := by
  induction l with
  | nil => rfl
  | cons a l ih =>
    rw [List.map_cons, List.filterMap_cons_some (hl a List.mem_cons_self), ih fun a ha => hl a (List.mem_cons_of_mem _ ha),
      List.map_cons]

omit ha in
/-- The value of an index entry, which only the row numbers of pumps read as unsigned. -/
theorem indexVal_signed (hop : ∀ k tag sz, x.f.op ≠ .pump k tag sz) (bs : List Byte) :
    indexVal x bs = signedOf 32 (ofBytes bs) := by
  unfold indexVal
  split
  · exact absurd ‹_› (hop _ _ _)
  · exact absurd ‹_› (hop _ _ _)
  · rfl

omit ha in
/-- Entries that have all been pulled. -/
theorem indexJoin_pulled {rs : List Slot} (h : ∀ r ∈ rs, r.ixAt.tier = 0) (m : Mem) (b : Slot → List Byte) :
    indexJoin x m (rs.map fun r => (r.opd.indexVa r.elem, r.ixAt)) (rs.map b) = rs.map fun r => (indexVal x (b r), none) := by
  induction rs with
  | nil => rfl
  | cons r rs ih =>
    simp only [List.map_cons, indexJoin, h r List.mem_cons_self, if_true, List.headD_cons, List.tail_cons]
    rw [ih fun r hr => h r (List.mem_cons_of_mem _ hr)]

/-- The index entries of some operands (08 R212 steps 1 to 3). -/
theorem reads_indexesBy (hop : ∀ k tag sz, x.f.op ≠ .pump k tag sz) {rs : List Slot} (h : ∀ r ∈ rs, r.Indexed s x.n) :
    Op.Reads x.n s (indexesBy pullSpan x (rs.map fun r => (r.opd, r.elem))) (rs.map fun r => (r.ix, none)) := by
  have spot (r : Slot) (hr : r ∈ rs) : Spot s x.n .load (r.opd.indexVa r.elem) r.ixAt :=
    spot_of_inWindow (h r hr).1.1 (by omega)
  have tier (r : Slot) (hr : r ∈ rs) : r.ixAt.tier = 0 := (h r hr).1.1.2.1
  have bytes (r : Slot) (hr : r ∈ rs) (pol : Bool) :
      Op.Reads x.n s (pullSpan x pol (r.opd.indexVa r.elem) 4 r.ixAt) (s.mem.read r.ixAt.key 4) := by
    have hin := (h r hr).1
    have h4 : r.ixAt.key % 4 = 0 := hin.1.2.2.2.2.1
    exact reads_pullSpan_here ha hin (by omega) (by omega) pol
  unfold indexesBy
  rw [List.map_map]
  refine reads_bind (reads_mapM (b := fun r => some r.ixAt) fun r hr => ?_) ?_
  · exact reads_bind (reads_xlV ha.agree (spot r hr)) (reads_pure _)
  rw [List.zip_map']
  refine reads_bind (reads_mapM (b := fun r => (r.opd.indexVa r.elem, r.ixAt)) fun r hr => ?_) ?_
  · exact reads_pos (tier r hr) (reads_bind (reads_needRoute (spot r hr) _) (reads_pure _))
  dsimp only
  rw [List.zip_map', filterMap_map_some (h := fun r => (r.opd.pol, r.opd.indexVa r.elem, 4, r.ixAt))
    (fun r hr => if_pos (tier r hr))]
  refine reads_bind (reads_pullAllBy (b := fun r => s.mem.read r.ixAt.key 4) fun r hr => bytes r hr _) ?_
  refine reads_get fun u _ => ?_
  rw [indexJoin_pulled tier]
  refine (List.map_congr_left fun r hr => ?_) ▸ reads_pure _
  rw [indexVal_signed hop, (h r hr).2]
  rfl

/-! ## Addresses -/

omit ha in
/-- Index entries handed out to the operands that have one. -/
theorem spreadIx_map {rs : List Slot} (h : ∀ r ∈ rs, r.opd.isIdx = false → r.ix = 0) :
    spreadIx (rs.map Slot.key) ((rs.filter (·.opd.isIdx)).map fun r => (r.ix, none)) = rs.map (·.ix) := by
  induction rs with
  | nil => rfl
  | cons r rs ih =>
    have ih := ih fun r hr => h r (List.mem_cons_of_mem _ hr)
    rw [List.map_cons, List.map_cons, spreadIx]
    cases hi : r.opd.isIdx with
    | true =>
      rw [if_pos (by exact hi), List.filter_cons_of_pos (by exact hi), List.map_cons, List.headD_cons, List.tail_cons, ih]
    | false =>
      rw [if_neg (by rw [Slot.key, hi]; exact Bool.false_ne_true), List.filter_cons_of_neg (by rw [hi]; exact Bool.false_ne_true),
        ih, h r List.mem_cons_self hi]

omit ha in
/-- An aligned address raises nothing (03 R59). -/
theorem reads_needAligned {n : Nat} {t : ETy} {a : Nat} (h : t.packed = true ∨ a % t.size = 0) :
    Op.Reads n s (needAligned t a) () := by
  unfold needAligned
  refine reads_ite (fun _ => reads_pure _) fun hn => ?_
  refine reads_neg ?_ (reads_pure _)
  obtain h | h := h
  · exact absurd (by simp [h]) hn
  · simp [h]

/-- The spans of the operands of one element. -/
theorem reads_resolve (hop : ∀ k tag sz, x.f.op ≠ .pump k tag sz) {rs : List Slot} (h : ∀ r ∈ rs, r.Resolved s x.n) :
    Op.Reads x.n s (resolve x (rs.map Slot.key)) (rs.map Slot.spans, none) := by
  have indexed : ∀ r ∈ rs.filter (·.opd.isIdx), r.Indexed s x.n := fun r hr => by
    obtain ⟨hm, hi⟩ := List.mem_filter.1 hr
    exact (h r hm).1 hi
  have zero : ∀ r ∈ rs, r.opd.isIdx = false → r.ix = 0 := fun r hr => (h r hr).2.1
  have scal (r : Slot) (hi : r.opd.isIdx = true) : r.opd.isScal = false := by
    unfold Opd.isIdx at hi
    unfold Opd.isScal
    split at hi
    · rw [‹r.opd.spec = _›]
    · cases hi
  unfold resolve
  refine reads_bind (reads_forIn fun r hr => ?_) ?_
  · obtain ⟨-, hz, hal, -⟩ := h r hr
    dsimp only [Slot.key]
    refine reads_ite (fun hc => ?_) fun _ => reads_pure _
    simp only [Bool.and_eq_true, Bool.not_eq_true'] at hc
    have hal := hal hc.1
    rw [hz hc.2] at hal
    exact reads_bind (reads_needAligned hal) (reads_pure _)
  have filt : ((rs.map Slot.key).filter fun p => p.1.isIdx).map (fun p => (p.1, p.2.2)) =
      (rs.filter (·.opd.isIdx)).map fun r => (r.opd, r.elem) := by
    rw [List.filter_map, List.map_map]
    rfl
  rw [filt]
  refine reads_bind (reads_indexesBy ha hop indexed) ?_
  dsimp only
  rw [spreadIx_map zero, List.zip_map']
  refine reads_bind (reads_forIn fun r hr => ?_) ?_
  · obtain ⟨-, -, hal, -⟩ := h r hr
    dsimp only [Slot.key]
    refine reads_ite (fun hc => ?_) fun _ => reads_pure _
    exact reads_bind (reads_needAligned (hal (scal r hc))) (reads_pure _)
  rw [List.map_map]
  have none_far : ((rs.filter (·.opd.isIdx)).map fun r => (r.ix, (none : Option Nat))).findSome? (·.2) = none := by
    rw [List.findSome?_map]
    exact List.findSome?_eq_none_iff.2 fun _ _ => rfl
  rw [none_far]
  refine (congrArg (·, none) (List.map_congr_left fun r hr => ?_)) ▸ reads_pure _
  obtain ⟨-, -, -, hs⟩ := h r hr
  rw [hs]
  rfl

/-! ## Checks -/

theorem reads_xlSrc {l : List ((Nat × Nat) × Phys)} (h : ∀ c ∈ l, Spot s x.n .load c.1.1 c.2) :
    Op.Reads x.n s (xlSrc x (l.map (·.1))) (l.map fun c => some c.2) := by
  induction l with
  | nil => exact reads_pure _
  | cons c l ih =>
    rw [List.map_cons]
    unfold xlSrc
    refine reads_bind (reads_xlV ha.agree (h c List.mem_cons_self)) ?_
    exact reads_bind (ih fun c hc => h c (List.mem_cons_of_mem _ hc)) (reads_pure _)

theorem reads_xlDst {acc : Access} {l : List ((Nat × Nat) × Phys)} (h : ∀ c ∈ l, Spot s x.n acc c.1.1 c.2) :
    Op.Reads x.n s (xlDst x acc (l.map (·.1))) (l.map fun c => some c.2) := by
  induction l with
  | nil => exact reads_pure _
  | cons c l ih =>
    rw [List.map_cons]
    unfold xlDst
    refine reads_bind (reads_xlV ha.agree (h c List.mem_cons_self)) ?_
    exact reads_bind (ih fun c hc => h c (List.mem_cons_of_mem _ hc)) (reads_pure _)

omit ha in
theorem reads_needPerm {n : Nat} (l : List ((Nat × Nat) × Phys)) :
    Op.Reads n s (needPerm (l.map (·.1)) (l.map fun c => some c.2)) (l.map (·.2)) := by
  induction l with
  | nil => exact reads_pure _
  | cons c l ih =>
    rw [List.map_cons, List.map_cons]
    unfold needPerm
    exact reads_bind ih (reads_pure _)

omit ha in
theorem reads_needZone {n : Nat} {z : Zone} {q : Seq} {l : List ((Nat × Nat) × Phys)} (h : ∀ c ∈ l, zoneOk z q c.2 = true) :
    Op.Reads n s (needZone z q (l.map (·.1)) (l.map (·.2))) () := by
  induction l with
  | nil => exact reads_pure _
  | cons c l ih =>
    rw [List.map_cons, List.map_cons]
    unfold needZone
    exact reads_pos (h c List.mem_cons_self) (ih fun c hc => h c (List.mem_cons_of_mem _ hc))

omit ha in
theorem reads_needRoutes {acc : Access} {l : List ((Nat × Nat) × Phys)} {acc' : Access} (h : ∀ c ∈ l, Spot s x.n acc c.1.1 c.2) :
    Op.Reads x.n s (needRoutes x acc' (l.map (·.1)) (l.map (·.2))) () := by
  induction l with
  | nil => exact reads_pure _
  | cons c l ih =>
    have ih := ih fun c hc => h c (List.mem_cons_of_mem _ hc)
    rw [List.map_cons, List.map_cons]
    unfold needRoutes
    refine reads_get fun u _ => reads_ite (fun _ => ?_) fun _ => ih
    exact reads_bind (reads_needRoute (h c List.mem_cons_self) _) ih

/-- Every check of one element whose operands are reached where they may lie (08 R212 steps 4 to 7). -/
theorem reads_checkAll {rs ds : List Slot} (hr : ∀ r ∈ rs, r.acc = .load ∧ r.Reached s x.n) (hd : ∀ r ∈ ds, r.Reached s x.n) :
    Op.Reads x.n s (checkAll x none none (rs.map Slot.sUse) (ds.map Slot.dUse)) (rs.map Slot.places, ds.map Slot.places) := by
  unfold checkAll
  refine reads_bind (reads_pure ()) ?_
  refine reads_bind (reads_mapM (b := fun r => r.spots.map fun c => some c.2) fun r hm => ?_) ?_
  · obtain ⟨ha', hr⟩ := hr r hm
    exact reads_xlSrc ha fun c hc => ha' ▸ (hr c hc).1
  refine reads_bind (reads_pure ()) ?_
  rw [List.zip_map']
  refine reads_bind (reads_mapM (b := Slot.places) fun r _ => reads_needPerm r.spots) ?_
  refine reads_bind (reads_mapM (b := fun r => r.spots.map fun c => some c.2) fun r hm => ?_) ?_
  · exact reads_xlDst ha fun c hc => (hd r hm c hc).1
  rw [List.zip_map']
  refine reads_bind (reads_mapM (b := Slot.places) fun r _ => reads_needPerm r.spots) ?_
  refine reads_bind (reads_pure ()) ?_
  refine reads_seq fun u hu => ?_
  rw [List.zip_map', List.zip_map']
  refine reads_bind (reads_forIn fun r hm => ?_) ?_
  · exact reads_bind (reads_needZone fun c hc => (hu.zoneOk ..).trans ((hr r hm).2 c hc).2) (reads_pure _)
  refine reads_bind (reads_forIn fun r hm => ?_) ?_
  · exact reads_bind (reads_needZone fun c hc => (hu.zoneOk ..).trans (hd r hm c hc).2) (reads_pure _)
  refine reads_bind (reads_forIn fun r hm => ?_) ?_
  · exact reads_bind (reads_needRoutes fun c hc => ((hr r hm).2 c hc).1) (reads_pure _)
  refine reads_bind (reads_forIn fun r hm => ?_) ?_
  · exact reads_bind (reads_needRoutes fun c hc => (hd r hm c hc).1) (reads_pure _)
  exact reads_bind (reads_pure ()) (reads_pure _)

/-! ## Reading -/

omit ha in
/-- What was read, operand by operand. -/
theorem regroup_map (rs : List Slot) (m : Mem) :
    regroup (rs.map Slot.sUse) ((rs.map fun r => r.bytes m).flatten) = rs.map fun r => r.bytes m := by
  induction rs with
  | nil => rfl
  | cons r rs ih =>
    have len : (r.sUse).spans.length = (r.bytes m).length := by simp [Slot.sUse, Slot.spans, Slot.bytes]
    rw [List.map_cons, List.map_cons, List.flatten_cons, regroup, len, List.take_left, List.drop_left, ih]

omit ha in
theorem reads_pullAll {rs : List Slot} (h : ∀ r ∈ rs, r.Pulls s x) :
    Op.Reads x.n s (pullAll x (flatUses (rs.map Slot.sUse) (rs.map Slot.places))) ((rs.map fun r => r.bytes s.mem).flatten) := by
  have pairs {α : Type} (f : Slot → (Nat × Nat) × Phys → α) : (rs.map fun r => r.spots.map (f r)).flatten =
      ((rs.map fun r => r.spots.map fun c => (r, c)).flatten).map fun p => f p.1 p.2 := by
    rw [List.map_flatten, List.map_map]
    refine congrArg List.flatten (List.map_congr_left fun r _ => ?_)
    rw [Function.comp_apply, List.map_map]
    rfl
  have flat : flatUses (rs.map Slot.sUse) (rs.map Slot.places) =
      (rs.map fun r => r.spots.map fun c => (r.opd.pol, c.1.1, c.1.2, c.2)).flatten := by
    unfold flatUses
    rw [List.zip_map', List.map_map]
    refine congrArg List.flatten (List.map_congr_left fun r _ => ?_)
    simp only [Function.comp_def, Slot.sUse, Slot.spans, Slot.places, List.zip_map', List.map_map]
  have bytes : ((rs.map fun r => r.bytes s.mem).flatten) = _ := pairs fun _ c => s.mem.read c.2.key c.1.2
  unfold pullAll
  rw [flat, pairs, bytes]
  refine reads_pullAllBy fun p hp => ?_
  obtain ⟨l, hl, hpl⟩ := List.mem_flatten.1 hp
  obtain ⟨r, hr, rfl⟩ := List.mem_map.1 hl
  obtain ⟨c, hc, rfl⟩ := List.mem_map.1 hpl
  exact h r hr c hc

omit ha in
/-- Codes that are not reserved, of types that have no block header. -/
theorem reservedCode_plain {t : ETy} (ht : plain t) (bs : List (List Byte)) (raw : Nat) (h : t = .w48 → raw < 2 ^ 48) :
    reservedCode t bs raw = false ∧ badBlock t bs = false := by
  cases t with
  | blk w =>
    obtain h | ⟨h, -⟩ := ht
    · cases h
    · cases h
  | w48 => exact ⟨decide_eq_false (by have := h rfl; omega), rfl⟩
  | _ => exact ⟨rfl, rfl⟩

omit ha in
/-- The arguments of an element whose codes are sound. -/
theorem reads_argsOf {n : Nat} {whole : Bool} (hb : whole = true → x.badScal = false) {rs : List Slot} {m : Mem}
    (h : ∀ r ∈ rs, r.Sound m) :
    Op.Reads n s (argsOf x whole (rs.map Slot.key) (rs.map Slot.spans) (rs.map fun r => r.bytes m)) (rs.map fun r => r.arg m) := by
  have codes (r : Slot) (hr : r ∈ rs) := reservedCode_plain (h r hr).1 (r.bytes m) (r.raw m) (h r hr).2
  have raws : (((rs.map Slot.key).zip (rs.map fun r => r.bytes m)).map fun p =>
      if p.1.1.isScal then scalRaw p.1.2.1 p.1.1.base else p.1.2.1.raw p.1.2.2 p.2) = rs.map fun r => r.raw m := by
    rw [List.zip_map', List.map_map]
    rfl
  unfold argsOf
  dsimp only
  rw [raws]
  refine reads_neg (by cases whole <;> simp_all) ?_
  simp only [List.zip_map']
  refine reads_bind (reads_forIn fun r hr => ?_) ?_
  · dsimp only [Slot.key]
    have low : (r.opd.isScal && r.ty == .w48 && r.raw m ≥ 2 ^ 48) = false := by
      by_cases ht : r.ty = .w48
      · have := (h r hr).2 ht
        simp; omega
      · simp [ht]
    refine reads_neg (by rw [low]; exact Bool.false_ne_true) ?_
    refine reads_neg (by rw [(codes r hr).1]; simp) (reads_pure _)
  refine reads_bind (reads_forIn fun r hr => ?_) ?_
  · dsimp only [Slot.key]
    exact reads_neg (by rw [(codes r hr).2]; simp) (reads_pure _)
  rw [List.map_map]
  exact reads_pure _

omit ha in
/-- The order of the writes of one element. -/
theorem reads_orderDst {l : List ((Nat × Nat) × Phys)}
    (h : ∀ c ∈ l, ∀ u, Warm x.n s u → (placeDst x c.2 c.1.2).run u = .ok () u) : Op.Reads x.n s (orderDst x l) () := by
  induction l with
  | nil => exact reads_pure _
  | cons c l ih =>
    unfold orderDst
    exact reads_bind (reads_of_run (h c List.mem_cons_self)) (ih fun c hc => h c (List.mem_cons_of_mem _ hc))

/-- The reads of one element, every check made: the arguments that its sources give, and its destinations. -/
theorem reads_readElem (hop : ∀ k tag sz, x.f.op ≠ .pump k tag sz) (hb : x.badScal = false) {rs ds : List Slot}
    (hr : ∀ r ∈ rs, r.acc = .load ∧ r.Resolved s x.n ∧ r.Reached s x.n ∧ r.Pulls s x ∧ r.Sound s.mem)
    (hd : ∀ r ∈ ds, r.Resolved s x.n ∧ r.Reached s x.n ∧ r.Placed s x) :
    Op.Reads x.n s (readElem x none (rs.map Slot.src) (ds.map Slot.dst))
      (rs.map fun r => r.arg s.mem, ds.map fun r => (r.spans, r.places)) := by
  have resolved : ∀ r ∈ rs ++ ds, r.Resolved s x.n := fun r h =>
    (List.mem_append.1 h).elim (fun h => (hr r h).2.1) fun h => (hd r h).1
  have keys : (rs.map Slot.src).map (fun p => (p.1, p.2.1, p.2.2.1)) = rs.map Slot.key := by rw [List.map_map]; rfl
  have keys' : (ds.map Slot.dst).map (fun p => (p.1, p.2.1, p.2.2.1)) = ds.map Slot.key := by rw [List.map_map]; rfl
  unfold readElem readElemBy
  dsimp only
  rw [keys, keys', ← List.map_append]
  refine reads_bind (reads_resolve ha hop resolved) ?_
  have front : ((rs ++ ds).map Slot.spans).take (rs.map Slot.key).length = rs.map Slot.spans := by
    rw [List.map_append, List.length_map]; exact List.take_left' (List.length_map ..)
  have back : ((rs ++ ds).map Slot.spans).drop (rs.map Slot.key).length = ds.map Slot.spans := by
    rw [List.map_append, List.length_map]; exact List.drop_left' (List.length_map ..)
  have uses : ((rs.map Slot.src).zip ((rs ++ ds).map Slot.spans)).map
      (fun p => (⟨p.2, p.1.1.pol, p.1.2.2.2⟩ : SUse)) = rs.map Slot.sUse := by
    rw [List.map_append, ← List.append_nil (rs.map Slot.src), List.zip_append (by simp), List.zip_map']
    simp only [List.zip_nil_left, List.append_nil, List.map_map]
    rfl
  have duses : ((ds.map Slot.dst).zip (ds.map Slot.spans)).map
      (fun p => (⟨p.2, p.1.2.2.2.1, p.1.2.2.2.2⟩ : DUse)) = ds.map Slot.dUse := by
    rw [List.zip_map', List.map_map]
    rfl
  dsimp only
  rw [back, uses, duses, front]
  refine reads_bind (reads_checkAll ha (fun r h => ⟨(hr r h).1, (hr r h).2.2.1⟩) fun r h => (hd r h).2.1) ?_
  refine reads_bind (reads_pullAll fun r h => (hr r h).2.2.2.1) ?_
  dsimp only
  rw [regroup_map]
  refine reads_bind (reads_argsOf (fun _ => hb) fun r h => (hr r h).2.2.2.2) ?_
  rw [List.zip_map']
  refine reads_bind (reads_forIn fun r h => ?_) ?_
  · dsimp only [Slot.dUse, Slot.spans, Slot.places]
    rw [List.zip_map', List.map_id']
    exact reads_bind (reads_orderDst fun c hc u hu => (hd r h).2.2 c hc u hu) (reads_pure _)
  rw [List.map_map, List.zip_map']
  exact reads_pure _

end Slots

end Sys2Proof.Machine
end

section
/-!
SUPPORT. Writes of an element to the window, while its instruction alone is in flight (02 R48, R54; 08 R214, R216): nothing keeps
them, and what they leave.
-/
namespace Sys2Proof.Machine
open Sys2Proof.Claim

/-! ## A field in memory -/

/-- A field of element i of a vector has been written with some bits, and nothing else (01 R25; 03 R59). -/
structure Puts (m m' : Mem) (t : ETy) (i key raw : Nat) : Prop where
  value : pick t i (m'.num key (span t)) = raw % 2 ^ t.bits
  bits : t = .n1 → ∀ j, j < 8 → j ≠ i % 8 → (m'.num key 1).testBit j = (m.num key 1).testBit j
  outside : ∀ a, (a < key ∨ key + span t ≤ a) → m'.get a = m.get a

/-- A type of whole bytes. -/
theorem bits_of_plain {t : ETy} (ht : plain t) (hn : t ≠ .n1) : t.packed = false ∧ t.bits = 8 * t.size ∧ span t = t.size := by
  obtain h | ⟨hp, hm⟩ := ht
  · exact absurd h hn
  · refine ⟨hp, ?_, if_neg hn⟩
    cases t with
    | n1 | blk | mx4 | ip => cases hp
    | mld => exact absurd rfl hm
    | int | flt | w48 => rfl

/-- The bytes of an element are written. -/
theorem puts_bytes {t : ETy} (ht : plain t) (hn : t ≠ .n1) (m : Mem) (i key raw : Nat) :
    Puts m (m.write key (bytesOf t.size raw)) t i key raw := by
  obtain ⟨-, hb, hs⟩ := bits_of_plain ht hn
  refine ⟨?_, fun h => absurd h hn, fun a ha => Mem.get_write_other _ _ _ _ ?_⟩
  · have back := Mem.read_write m key (bytesOf t.size raw)
    rw [bytesOf_length] at back
    rw [pick, if_neg hn, hs, Mem.num, back, ofBytes_bytesOf, hb, pow_mul]
    rfl
  · rwa [bytesOf_length, ← hs]

/-- One bit of a byte is written. -/
theorem testBit_merged (old : Byte) (raw : Nat) {k j : Nat} (hj : j < 8) :
    ((old &&& ~~~BitVec.ofNat 8 (2 ^ k)) ||| (BitVec.ofNat 8 (raw % 2 * 2 ^ k) &&& BitVec.ofNat 8 (2 ^ k))).toNat.testBit j =
      if j = k then decide (raw % 2 = 1) else old.toNat.testBit j := by
  rw [BitVec.testBit_toNat, BitVec.testBit_toNat]
  simp only [BitVec.getLsbD_or, BitVec.getLsbD_and, BitVec.getLsbD_not, BitVec.getLsbD_ofNat, hj, decide_true, Bool.true_and,
    Nat.testBit_two_pow, Nat.testBit_mul_two_pow]
  split
  · subst j
    obtain h | h := Nat.mod_two_eq_zero_or_one raw
    · simp [h]
    · simp [h]
  · have : k ≠ j := Ne.symm ‹_›
    simp [this]

theorem puts_bit (m : Mem) (i key raw : Nat) :
    Puts m (m.write key (mergeBytes (m.read key 1) (bytesOf 1 (raw % 2 * 2 ^ (i % 8))) (bytesOf 1 (2 ^ (i % 8))))) .n1 i key raw := by
  have hk : i % 8 < 8 := Nat.mod_lt _ (by omega)
  let b : Byte := (m.get key &&& ~~~BitVec.ofNat 8 (2 ^ (i % 8))) |||
    (BitVec.ofNat 8 (raw % 2 * 2 ^ (i % 8)) &&& BitVec.ofNat 8 (2 ^ (i % 8)))
  change Puts m (m.write key [b]) .n1 i key raw
  have num : (m.write key [b]).num key 1 = b.toNat := by
    have back : (m.write key [b]).read key 1 = [b] := Mem.read_write m key [b]
    rw [Mem.num, back]
    rfl
  have old : m.num key 1 = (m.get key).toNat := rfl
  have bit (j : Nat) (hj : j < 8) := testBit_merged (m.get key) raw (k := i % 8) hj
  refine ⟨?_, fun _ j hj hne => ?_, fun a ha => Mem.get_write_other _ _ _ _ ha⟩
  · rw [pick, if_pos rfl, span, if_pos rfl, num, ← Nat.toNat_testBit, bit _ hk, if_pos rfl]
    change _ = raw % 2
    obtain h | h := Nat.mod_two_eq_zero_or_one raw
    · rw [h]; rfl
    · rw [h]; rfl
  · rw [num, old, bit j hj, if_neg hne]

/-! ## Writes of the window -/

/-- The cistern is in the package, and no part of the notify area. -/
theorem inCist_below {key : Nat} (h : inCist key = true) : key < hostKey ∧ inNotify key = false := by
  unfold inCist at h
  rw [Bool.and_eq_true, decide_eq_true_eq, decide_eq_true_eq] at h
  refine ⟨?_, Bool.eq_false_iff.2 fun hn => ?_⟩
  · unfold hostKey
    unfold cistBase cistSize at h
    omega
  · unfold inNotify at hn
    rw [Bool.and_eq_true, decide_eq_true_eq, decide_eq_true_eq] at hn
    unfold cistBase cistSize at h
    unfold notifyBase at hn
    omega

section Alone
variable {s u : State} {n i : Nat} {e : Entry} {f : VForm} (ha : Alone s n e) (hu : Near n s u)
include ha hu

theorem Alone.near_inflight : (u.seq n).inflight = [e] := (hu.inflight n).trans ha.inflight

/-- The line is saved, or has been. -/
theorem Alone.saveVersion (key : Nat) :
    ∃ v, (saveVersion n e.isn key).run u = .ok () v ∧ Near n u v ∧ v.mem = u.mem := by
  have hq := ha.near_inflight hu
  have low : (u.seq n).low = e.isn := by rw [Seq.low, hq]
  unfold Machine.saveVersion
  rw [Op.run_bind_ok (Op.run_get u)]
  dsimp only
  split
  · exact ⟨u, rfl, Near.refl n u, rfl⟩
  · rw [if_neg (by rw [low]; simp)]
    exact ⟨_, rfl, .of_setSeq rfl rfl, rfl⟩

theorem Alone.otherDue (ws : List Nat) : u.otherDue n e.isn ws = false :=
  List.any_eq_false.2 fun w _ => by rw [hu.markOn, ha.markOn]; exact Bool.false_ne_true

/-- Bytes of the window are written. -/
theorem Alone.writeOwn {key : Nat} {bs : List Byte} (h0 : inCist key = true) (h1 : inCist (key + bs.length - 1) = true) :
    ∃ v, (writeOwn n e.isn key bs).run u = .ok () v ∧ Near n u v ∧ v.mem = u.mem.write key bs := by
  obtain ⟨v, hv, hn, hm⟩ := ha.saveVersion hu key
  have exist {k : Nat} (h : inCist k = true) : keyExists k = true := by simp [keyExists, h]
  have low := inCist_below h0
  have write : (writeKey key bs).run v = .ok () (v.poke key bs) := by
    unfold writeKey
    rw [Op.run_bind_ok (needKey_run (exist h0) (exist h1) low.1), Op.run_modify, low.2]
    rfl
  have marks := Near.markWords n (v.poke key bs)
    ((wordsOf key bs.length).filter fun w => ((v.poke key bs).markOn w).isNone) true
  refine ⟨_, ?_, (hn.trans (.poke n v key bs)).trans marks, ?_⟩
  · unfold Machine.writeOwn
    rw [Op.run_bind_ok (Op.run_get u)]
    refine (Op.run_if_neg (by rw [doneBelow_only (ha.near_inflight hu)]; exact Bool.false_ne_true)).trans ?_
    refine (Op.run_if_neg (by rw [ha.otherDue hu]; exact Bool.false_ne_true)).trans ?_
    rw [Op.run_bind_ok hv, Op.run_bind_ok write]
    rfl
  · rw [State.markWords_mem, State.poke_mem (hn.closed (hu.closed ha.closed)), hm]

/-- Some bits of a place of the window that the element writes in its order. -/
theorem Alone.putOwn {va : Nat} {acc : Access} {p : Phys} (hp : Spot s n acc va p) (hacc : accWrites acc = true)
    (hin : InPlace s n i e f p.key) {bs mask : List Byte} (h0 : inCist p.key = true)
    (h1 : inCist (p.key + bs.length - 1) = true) (hmask : mask.all (· == 0) = false) (hl : mask.length = bs.length) :
    ∃ v, (putOwn ⟨n, e, f, i⟩ i p bs mask).run u = .ok () v ∧ Near n u v ∧
      v.mem = u.mem.write p.key (mergeBytes (u.mem.read p.key bs.length) bs mask) := by
  have len : (if mask.all (· == 0xFF) then bs else mergeBytes (u.mem.read p.key bs.length) bs mask) =
      mergeBytes (u.mem.read p.key bs.length) bs mask := by
    split
    · have ones : mask = List.replicate bs.length 0xFF := List.eq_replicate_iff.2 ⟨hl, fun b hb =>
        eq_of_beq (List.all_eq_true.1 ‹_› b hb)⟩
      rw [ones, mergeBytes_all (by rw [Mem.read_length])]
    · rfl
  obtain ⟨v, hv, hn, hm⟩ := ha.writeOwn hu (key := p.key) (bs := mergeBytes (u.mem.read p.key bs.length) bs mask) h0
    (by simpa [mergeBytes, hl] using h1)
  refine ⟨v, ?_, hn, hm⟩
  unfold Machine.putOwn
  rw [Op.run_bind_ok (Op.run_get u)]
  dsimp only
  rw [hin.elemBits hu]
  refine (Op.run_if_neg (by rw [hmask]; exact Bool.false_ne_true)).trans ?_
  unfold dirtyOp
  rw [Op.run_bind_ok (Op.run_modify _ u), (hu.spot hp).dirty hacc]
  refine (Op.run_bind_ok (Op.run_get u)).trans ?_
  rw [len]
  exact hv

/-- A field of a placed destination. -/
theorem Alone.putField {va : Nat} {acc : Access} {t : ETy} {p : Phys} (hp : inWindow s n acc va (span t) p)
    (hacc : accWrites acc = true) (ht : plain t) (hin : InPlace s n i e f p.key) (raw : Nat) :
    ∃ v, (putField ⟨n, e, f, i⟩ t i p raw).run u = .ok () v ∧ Near n u v ∧ Puts u.mem v.mem t i p.key raw := by
  obtain ⟨h0, h1⟩ : inCist p.key = true ∧ inCist (p.key + span t - 1) = true := hp.2.2.2.2.2.2.2
  have hw : 0 < span t := by
    by_contra hz
    have hk : p.key % span t = 0 := hp.2.2.2.2.1
    rw [Nat.eq_zero_of_not_pos hz, Nat.mod_zero] at hk
    rw [hk] at h0
    exact Bool.false_ne_true h0
  have spot := spot_of_inWindow hp hw
  by_cases hn : t = .n1
  · subst hn
    have hk : i % 8 < 8 := Nat.mod_lt _ (by omega)
    have some_bit : ([BitVec.ofNat 8 (2 ^ (i % 8))].all (· == (0 : Byte))) = false := by
      generalize i % 8 = k at hk
      decide +revert
    obtain ⟨v, hv, near, hm⟩ := ha.putOwn hu spot hacc hin (bs := bytesOf 1 (raw % 2 * 2 ^ (i % 8)))
      (mask := bytesOf 1 (2 ^ (i % 8))) h0 h1 some_bit rfl
    refine ⟨v, ?_, near, ?_⟩
    · simpa [Machine.putField, fieldMask, ETy.packed, ETy.field, ETy.bits, ETy.bitOff] using hv
    · rw [hm]
      exact puts_bit u.mem i p.key raw
  · obtain ⟨hpk, -, hs⟩ := bits_of_plain ht hn
    rw [hs] at hw h1
    obtain ⟨v, hv, near, hm⟩ := ha.putOwn hu spot hacc hin (bs := bytesOf t.size raw)
      (mask := List.replicate t.size 0xFF) h0 (by rwa [bytesOf_length])
      (by rw [List.all_replicate, if_neg (by omega)]; rfl) (by simp)
    refine ⟨v, ?_, near, ?_⟩
    · simpa [Machine.putField, fieldMask, hpk] using hv
    · have whole := mergeBytes_all (old := u.mem.read p.key (bytesOf t.size raw).length) (new := bytesOf t.size raw)
        (by rw [Mem.read_length])
      rw [bytesOf_length] at whole hm
      rw [hm, whole]
      exact puts_bytes ht hn u.mem i p.key raw

end Alone

end Sys2Proof.Machine
end

section
/-!
SUPPORT. The move of a group that executes one element of the only instruction in flight (02 R45, R48).
-/
namespace Sys2Proof.Machine
open Sys2Proof.Claim

/-- The entry once group g has executed element i. -/
def Entry.past (e : Entry) (g i : Nat) : Entry :=
  { e.modG g fun c => { c with next := max c.next (i + 1) } with odd := nsetDel i e.odd }

/-- The progress of that group. -/
theorem Entry.ctr_past {e : Entry} {g i : Nat} (hg : g < e.gs.length) (hi : (e.ctr g).next = i) :
    ((e.past g i).ctr g).next = i + 1 ∧ ((e.past g i).ctr g).fin = (e.ctr g).fin := by
  have h : (e.past g i).ctr g = { e.ctr g with next := max (e.ctr g).next (i + 1) } := Entry.ctr_modG_same _ hg
  rw [h]
  exact ⟨by dsimp only; omega, rfl⟩

/-- Nothing ends while a group has not completed the one entry in flight. -/
theorem settle_going {s : State} {n g : Nat} {e : Entry} (hq : (s.seq n).inflight = [e]) (hg : g < e.gs.length)
    (hf : (e.ctr g).fin = false) : settle s n = s.modSeq n Seq.prune := by
  have going : e.gs.all (·.fin) = false := Bool.eq_false_iff.2 fun h => by
    rw [e.all_fin_iff.1 h g hg] at hf
    exact absurd hf.symm Bool.false_ne_true
  have same : ({ s.seq n with inflight := [e] } : Seq) = s.seq n := by rw [← hq]
  unfold settle
  simp only [hq, List.filter_cons, going, Bool.false_eq_true, if_false, List.filter_nil, List.foldl_nil, Bool.not_false,
    if_true, State.modSeq]
  rw [same]

/-- The sequencers of a state are those of another, after accesses of sequencer n's element that raised some flags. -/
def Raised (n fl : Nat) (s v : State) : Prop := ∀ m, (v.seq m).core = (if m = n then (s.seq m).raise fl else s.seq m).core

/-- Flags are raised. -/
theorem Near.raised {n : Nat} {s u : State} (h : Near n s u) (fl : Nat) : Raised n fl s (u.modSeq n (·.raise fl)) := fun m => by
  have comm (q : Seq) : (q.raise fl).core = q.core.raise fl := by
    unfold Seq.raise
    split <;> rfl
  split
  · subst m
    rw [State.seq_modSeq, comm, h.core, comm]
  · rw [State.seq_modSeq_other _ _ _ _ ‹_›, h.core]

section Unit
variable {s v : State} {n g i fl : Nat} {e : Entry} {f : VForm} {o : Opd} {t : ETy} (h : atElement s n g i e)
include h

omit h in
/-- An element without a mask is active where no validity vector plays a part. -/
theorem activity_all (hm : f.mask = .none) (hv : vtVCHK e.vtype = false) (k : Nat) (u : State) :
    (activity ⟨n, e, f, k⟩ i).run u = .ok (true, true) u := by
  unfold activity
  dsimp only
  rw [hm]
  have none : (ECx.mk n e f k).checksValid = false := by simp [ECx.checksValid, hv]
  rw [none]
  rfl

omit h in
/-- The owner of an element stands at it. -/
theorem ownsElem_decided (hd : Decides e f o t) (hodd : e.odd = []) (ho : (s.seq n).ownerVa (o.at t i 0).toNat = some g) (k : Nat) :
    (ownsElem ⟨n, e, f, k⟩ g i).run s = .ok true s := by
  have stands : standsWith s ⟨n, e, f, i⟩ i = g := by
    unfold standsWith
    rw [ownerPeek_decided hd, ho, hodd]
    rfl
  obtain ⟨hd, hi, -⟩ := hd
  have owner : (ownerOf ⟨n, e, f, i⟩ i).run s = .ok g s := by
    unfold ownerOf
    rw [Op.run_bind_ok (Op.run_get s)]
    dsimp only
    rw [hd]
    refine (Op.run_if_pos (by simp [hi])).trans ?_
    rw [stands]
    rfl
  unfold ownsElem
  dsimp only
  refine (Op.run_if_neg (by simp [hd, hi])).trans ?_
  rw [Op.run_bind_ok owner, Op.run_bind_ok (ECx.run_seq _ s)]
  simp only [beq_self_eq_true, Bool.true_or]
  rfl

/-- One move of the group that owns the element at which it stands. -/
theorem vectorMove_unit (hm : f.mask = .none) (hc : f.op.combines = false) (hl : blockLen ⟨n, e, f, i⟩ = 1)
    (hd : Decides e f o t) (ho : (s.seq n).ownerVa (o.at t i 0).toNat = some g)
    (hv : (activeElem ⟨n, e, f, i⟩ none i true).run s = .ok () v) (hq : (v.seq n).inflight = [e]) :
    (vectorMove ⟨n, e, f, 0⟩ g).run s = .ok () (v.setSeq n { v.seq n with inflight := [e.past g i] }) := by
  obtain ⟨⟨-, -, hq0, -, -, -, -, -, -, hodd⟩, hi, hvl, hchk, hreg, -, -, -, -, -, hh, -⟩ := h
  have late : lateElem (s.seq n) ⟨n, e, f, 0⟩ g = none := by simp [lateElem, hodd]
  have found : ((s.seq n).inflight.find? fun l => l.isn == e.isn).getD e = e := by simp [hq0]
  have unit : (execUnit ⟨n, e, f, i⟩ i).run s = .ok () v := by
    unfold execUnit
    refine (Op.run_if_neg (by rw [hl]; omega)).trans ?_
    rw [Op.run_bind_ok (Op.run_attempt_ok (activity_all hm hchk i s))]
    exact hv
  have commit : (commitElem n g 1 i e.isn).run v = .ok () (v.setSeq n { v.seq n with inflight := [e.past g i] }) := by
    unfold commitElem
    rw [Op.run_modSeqOp]
    unfold State.modSeq
    beta_reduce
    rw [Seq.modEntry_single hq]
    rfl
  have elem : (runElem ⟨n, e, f, i⟩ g 1 i).run s = .ok () (v.setSeq n { v.seq n with inflight := [e.past g i] }) := by
    unfold runElem
    rw [Op.run_bind_ok (ECx.run_seq _ s)]
    dsimp only
    rw [hc]
    exact (orTrap_ok unit).trans commit
  have next : (nextOwned ⟨n, e, f, 0⟩ g 1 (e.vl + 1) i).run s = .ok (some i) s := by
    unfold nextOwned
    refine (Op.run_if_neg (by dsimp only; omega)).trans ?_
    rw [Op.run_bind_ok (ownsElem_decided hd hodd ho 0)]
    rfl
  have charge : (chargeLine ⟨n, e, f, i⟩ g i 1).run s = .ok false s := by
    unfold chargeLine
    rw [Op.run_bind_ok (Op.run_get s)]
    exact Op.run_if_pos (by rw [hreg]; rfl)
  have len : blockLen ⟨n, e, f, 0⟩ = 1 := hl
  unfold vectorMove
  refine (Op.run_bind_ok (ECx.run_seq _ s)).trans ?_
  refine (Op.run_when fun _ => drainNow_run hh).trans ?_
  refine (Op.run_if_neg (by simp [hc])).trans ?_
  refine (Op.run_bind_ok (ECx.run_seq _ s)).trans ?_
  rw [late, len, hi]
  refine (Op.run_bind_ok next).trans ?_
  refine (Op.run_bind_ok (ECx.run_seq _ s)).trans ?_
  rw [found]
  refine (Op.run_bind_ok (ECx.run_seq _ s)).trans ?_
  refine (Op.run_bind_ok (ECx.run_seq _ s)).trans ?_
  dsimp only
  rw [hodd]
  refine (Op.run_if_neg (by simp)).trans ?_
  refine (Op.run_if_neg (by simp)).trans ?_
  refine (Op.run_bind_ok charge).trans ?_
  refine (Op.run_if_neg Bool.false_ne_true).trans ?_
  refine (Op.run_bind_ok (ECx.run_seq _ s)).trans ?_
  rw [found]
  exact elem

/-- The event of one element: what its move leaves, and the group past it. -/
theorem elementExecute_unit (hf : vform e.ins = some f) (hm : f.mask = .none) (hw : f.op ≠ .wait) (hc : f.op.combines = false)
    (hl : blockLen ⟨n, e, f, i⟩ = 1) (hd : Decides e f o t) (ho : (s.seq n).ownerVa (o.at t i 0).toNat = some g)
    (hv : (activeElem ⟨n, e, f, i⟩ none i true).run s = .ok () v) (hr : Raised n fl s v) :
    ∃ u, exec (.elementExecute n g) s = .next u ∧ u.mem = v.mem ∧ u.empty = v.empty ∧ u.landings = v.landings ∧
      passed s u n g i e fl := by
  have hrun := h.1
  have hi := h.2.1
  obtain ⟨-, -, hq0, -, -, hlen, hg, -, hfin, -⟩ := id hrun
  have core : (v.seq n).core = ((s.seq n).raise fl).core := by rw [hr, if_pos rfl]
  have part {α : Type} (part : Seq → α) (hp : ∀ q, part q.core = part q) : part (v.seq n) = part ((s.seq n).raise fl) := by
    rw [← hp, core, hp]
  have raise {α : Type} (part : Seq → α) (hp : ∀ q c d, part { q with cflags := c, dirtyC := d } = part q) :
      part ((s.seq n).raise fl) = part (s.seq n) := by
    unfold Seq.raise
    split
    · rfl
    · exact hp ..
  have hq : (v.seq n).inflight = [e] :=
    (part Seq.inflight fun _ => rfl).trans ((raise Seq.inflight fun _ _ _ => rfl).trans hq0)
  have hge : g < e.gs.length := by rw [hlen]; exact hg
  have hg' : g < (e.past g i).gs.length := by
    rw [show (e.past g i).gs.length = e.gs.length from List.length_modify ..]
    exact hge
  obtain ⟨hnext, hfin'⟩ := Entry.ctr_past hge hi
  rw [hfin] at hfin'
  have move := vectorMove_unit h hm hc hl hd ho hv hq
  have settled := settle_going (s := v.setSeq n { v.seq n with inflight := [e.past g i] }) (by rw [State.seq_setSeq]) hg' hfin'
  have event : exec (.elementExecute n g) s =
      .next ((v.setSeq n { v.seq n with inflight := [e.past g i] }).modSeq n Seq.prune) := by
    rw [exec_elementExecute, execElementExecute, tryElementExecute, running_not_atLoad hrun (smem_of_vform hf),
      if_neg Bool.false_ne_true, tryGroup_ok hrun (groupMove_vector hrun hf hw move), settled]
    rfl
  have own : ((v.setSeq n { v.seq n with inflight := [e.past g i] }).modSeq n Seq.prune).seq n =
      ({ v.seq n with inflight := [e.past g i] } : Seq).prune := by
    rw [State.seq_modSeq, State.seq_setSeq]
  refine ⟨_, event, rfl, rfl, rfl, fun m r => ?_, ?_, ?_, ?_, ?_⟩
  · apply Seq.getX_congr
    by_cases hmn : m = n
    · subst m
      rw [own]
      exact (part Seq.x fun _ => rfl).trans (raise Seq.x fun _ _ _ => rfl)
    · rw [State.seq_modSeq_other _ _ _ _ hmn, State.seq_setSeq_other _ _ _ _ hmn]
      have same := hr m
      rw [if_neg hmn] at same
      exact (show (v.seq m).core.x = (s.seq m).core.x by rw [same])
  · rw [own]
    exact (part Seq.pc fun _ => rfl).trans (raise Seq.pc fun _ _ _ => rfl)
  · rw [own]
    exact (part Seq.isn fun _ => rfl).trans (raise Seq.isn fun _ _ _ => rfl)
  · rw [own]
    refine (part Seq.cflags fun _ => rfl).trans ?_
    unfold Seq.raise
    split <;> rfl
  · exact ⟨e.past g i, by rw [own]; rfl, hnext, hfin', rfl, rfl⟩

end Unit

end Sys2Proof.Machine
end

section
/-!
SUPPORT. The exact results of the compute instructions (07 R187 to R198, R206, R209): the model's arithmetic is that of the
statement.
-/
namespace Sys2Proof.Machine
open Sys2Proof.Claim

/-! ## Sources of a form -/

/-- An instruction computes with A. -/
def VOp.usesA : VOp → Bool
  | .idx _ _ | .empty | .fill | .drain .. => false
  | _ => true

/-- It computes with B. -/
def VOp.usesB : VOp → Bool
  | .ibin _ | .carry _ _ | .icmp _ | .fcmp _ | .fbin _ | .ffma | .amo _ _ | .cas _ => true
  | .mbin o => o != .not
  | _ => false

/-- It computes with C. -/
def VOp.usesC : VOp → Bool
  | .carry _ _ | .ffma | .cas _ => true
  | _ => false

/-- The form of an instruction has the sources that it computes with. -/
theorem given_of_vform {i : Instr} {f : VForm} (h : vform i = some f) :
    (!f.op.usesA || f.a.isSome) = true ∧ (!f.op.usesB || f.b.isSome) = true ∧ (!f.op.usesC || f.c.isSome) = true := by
  cases i
  all_goals cases h
  all_goals exact ⟨rfl, rfl, rfl⟩

/-! ## Results -/

/-- A truth value as a number. -/
theorem ite_eq_bit (b : Bool) : (if b then 1 else 0) = bit b := rfl

theorem signedOf_toInt (n v : Nat) : signedOf n v = (BitVec.ofNat n v).toInt := by
  cases n with
  | zero => rw [BitVec.of_length_zero (x := BitVec.ofNat 0 v)]; simp [signedOf]
  | succ n => exact signedOf_eq_toInt (Nat.succ_pos n) v

/-- Sums, differences, carries and borrows. -/
theorem carryOut_eq (n a b c : Nat) :
    carryOut false false n a b c = .bits ((a + b + c) % 2 ^ n) 0 ∧
      carryOut false true n a b c = .bits (bit (2 ^ n ≤ a + b + c)) 0 ∧
      carryOut true false n a b c = .bits ((((a : Int) - b - c) % (2 ^ n : Nat)).toNat) 0 ∧
      carryOut true true n a b c = .bits (bit (a < b + c)) 0 := by
  refine ⟨?_, ?_, ?_, ?_⟩
  · exact congrArg (Out.bits · 0) (by
      change (((a : Int) + b + c) % (2 ^ n : Int)).toNat = _
      have cast : ((a : Int) + b + c) % (2 ^ n : Int) = (((a + b + c) % 2 ^ n : Nat) : Int) := by push_cast; rfl
      rw [cast, Int.toNat_natCast])
  · have same : ((a : Int) + b + c ≥ 2 ^ n) ↔ 2 ^ n ≤ a + b + c := by
      have cast : ((2 ^ n : Nat) : Int) = 2 ^ n := by push_cast; rfl
      rw [← cast]
      omega
    simp [carryOut, bit, same]
  · simp [carryOut, patOf]
  · have same : ((a : Int) - b - c < 0) ↔ a < b + c := by omega
    simp [carryOut, bit, same]

/-- The conditions of VCMP. -/
theorem intCond_eq (t : ETy) (a b : Nat) (c : ICond) : (.bits (if intCond c t a b then 1 else 0) 0 : Out) =
    match c with
    | .eq => .bits (bit (a = b)) 0
    | .ne => .bits (bit (a ≠ b)) 0
    | .lt => .bits (bit ((BitVec.ofNat t.bits a).toInt < (BitVec.ofNat t.bits b).toInt)) 0
    | .ge => .bits (bit ((BitVec.ofNat t.bits b).toInt ≤ (BitVec.ofNat t.bits a).toInt)) 0
    | .ltu => .bits (bit (a < b)) 0
    | .geu => .bits (bit (b ≤ a)) 0 := by
  cases c with
  | eq => simp [intCond, bit]
  | ne => simp [intCond, bit]
  | lt => simp [intCond, bit, signedOf_toInt]
  | ge => simp [intCond, bit, signedOf_toInt]
  | ltu => simp [intCond, bit]
  | geu => simp [intCond, bit]

/-- The conditions of VFCMP (06 R148). -/
theorem fltCond_eq (x y : Val) (c : VFCond) : (.bits (if (fltCond c x y).1 then 1 else 0) (fltCond c x y).2 : Out) =
    match c with
    | .eq => .bits (bit (!(x.isNan || y.isNan) && x.eqv y)) (if x = .nan true ∨ y = .nan true then flNV else 0)
    | .ne => .bits (bit ((x.isNan || y.isNan) || !x.eqv y)) (if x = .nan true ∨ y = .nan true then flNV else 0)
    | .lt => .bits (bit (!(x.isNan || y.isNan) && x.lt y)) (if x.isNan || y.isNan then flNV else 0)
    | .le => .bits (bit (!(x.isNan || y.isNan) && (x.lt y || x.eqv y))) (if x.isNan || y.isNan then flNV else 0)
    | .un => .bits (bit (x.isNan || y.isNan)) (if x = .nan true ∨ y = .nan true then flNV else 0) := by
  rw [ite_eq_bit, ← sigNV_or]
  cases c with
  | ne =>
    have neg : (!(!(x.isNan || y.isNan) && x.eqv y)) = ((x.isNan || y.isNan) || !x.eqv y) := by
      rw [Bool.not_and, Bool.not_not]
    exact congrArg (fun b => Out.bits (bit b) _) neg
  | _ => rfl

/-- The lesser and the greater of two values (06 R147). -/
theorem valMinMax_eq (hi : Bool) (x y : Val) : valMinMax hi x y =
    (if x.isNan && y.isNan then .nan false else if x.isNan then y else if y.isNan then x
      else if (if hi then x.below y else y.below x) then y else x, if x = .nan true ∨ y = .nan true then flNV else 0) := by
  rw [← sigNV_or]
  unfold valMinMax
  cases x.isNan <;> cases y.isNan <;> rfl

/-- Mask operations on bits. -/
theorem maskBin_eq {a b : Nat} (ha : a < 2) (o : MBin) (hb : o ≠ .not → b < 2) : maskBin o a b =
    match o with
    | .and => bit (a = 1 ∧ b = 1)
    | .or => bit (a = 1 ∨ b = 1)
    | .xor => bit (a ≠ b)
    | .andn => bit (a = 1 ∧ b = 0)
    | .not => bit (a = 0) := by
  obtain rfl | rfl : a = 0 ∨ a = 1 := by omega
  all_goals
    cases o with
    | not => rfl
    | _ =>
      obtain rfl | rfl : b = 0 ∨ b = 1 := by have := hb (by decide); omega
      all_goals rfl

/-- Conversions between types whose elements are bits or whole bytes. -/
theorem cvtOut_eq (s d : ETy) (a : Nat) (x : Val) : plain s → plain d → some (cvtOut s d ⟨a, x⟩) =
    match d, s with
    | .n1, _ => some (Out.bits (bit (a ≠ 0)) 0)
    | .int _ _, .n1 | .flt _, .n1 | .w48, .n1 => some (.int a)
    | .int _ _, .int w sgn => some (.int (if sgn then (BitVec.ofNat (8 * w) a).toInt else a % 2 ^ (8 * w)))
    | .int _ _, _ => some (.exact x 0)
    | _, .int _ _ => some (.exact x 0)
    | _, _ => some (.exact x (if x = .nan true then flNV else 0)) := by
  intro hs hd
  have whole {t : ETy} (ht : plain t) : t = .n1 ∨ (∃ w sg, t = .int w sg) ∨ (∃ f, t = .flt f) ∨ t = .w48 := by
    obtain rfl | ⟨hp, hm⟩ := ht
    · exact .inl rfl
    · cases t with
      | n1 | blk | mx4 | ip => cases hp
      | mld => exact absurd rfl hm
      | int w sg => exact .inr (.inl ⟨w, sg, rfl⟩)
      | flt f => exact .inr (.inr (.inl ⟨f, rfl⟩))
      | w48 => exact .inr (.inr (.inr rfl))
  obtain rfl | ⟨w, sg, rfl⟩ | ⟨k, rfl⟩ | rfl := whole hd
  · by_cases h : a = 0
    · simp [cvtOut, bit, h]
    · simp [cvtOut, bit, h]
  all_goals obtain rfl | ⟨w', sg', rfl⟩ | ⟨k', rfl⟩ | rfl := whole hs
  case inr.inl.inr.inl =>
    have val : (ETy.int w' sg').intVal a = if sg' then (BitVec.ofNat (8 * w') a).toInt else a % 2 ^ (8 * w') := by
      simp [ETy.intVal, signedOf_toInt]
    exact congrArg (some ∘ Out.int) val
  all_goals simp [cvtOut, ETy.clsI, ETy.clsP, sigNV_eq]

/-- A type of bits or whole bytes is no block type. -/
theorem isBlk_of_plain {t : ETy} (ht : plain t) : t.isBlk = false := by
  cases t with
  | blk w => exact ht.elim (fun h => by cases h) fun h => by cases h.1
  | _ => rfl

/-- What the model computes at an element is the exact result that the statement names. -/
theorem elemOut_eq {o : VOp} {t : ETy} {e : Entry} {scal : Bool} {i a b c : Nat} {x y z : Val} {out : Out} {A B C : Arg}
    (h : exactOf o t e scal i a b c x y z = some out) (hA : o.usesA = true → A = ⟨a, x⟩) (hB : o.usesB = true → B = ⟨b, y⟩)
    (hC : o.usesC = true → C = ⟨c, z⟩) (ht : o = .mv ∨ (∃ k, o = .cvt k) → plain t) (hs : ∀ k, o = .cvt k → plain (srcTy k))
    (ha : ∀ k, o = .mbin k → a < 2) (hb : ∀ k, o = .mbin k → k ≠ .not → b < 2) :
    elemOut o t e i scal true A B C = out := by
  refine Option.some.inj (Eq.trans ?_ h)
  cases o with
  | ibin op => rw [hA rfl, hB rfl]; rfl
  | carry sub co =>
    rw [hA rfl, hB rfl, hC rfl]
    obtain ⟨h00, h01, h10, h11⟩ := carryOut_eq t.bits a b c
    cases sub <;> cases co
    · exact congrArg some h00
    · exact congrArg some h01
    · exact congrArg some h10
    · exact congrArg some h11
  | icmp cd =>
    rw [hA rfl, hB rfl]
    refine (congrArg some (intCond_eq t a b cd)).trans ?_
    cases cd <;> rfl
  | fcmp cd =>
    rw [hA rfl, hB rfl]
    refine (congrArg some (fltCond_eq x y cd)).trans ?_
    cases cd <;> rfl
  | mv =>
    rw [hA rfl]
    have copy : copyOut t ⟨a, x⟩ = .bits a 0 :=
      if_neg (by rw [isBlk_of_plain (ht (.inl rfl))]; exact Bool.false_ne_true)
    exact congrArg (fun r => some (if scal && t.clsF then Out.exact x 0 else r)) copy
  | idx st sp => rfl
  | fbin op =>
    rw [hA rfl, hB rfl]
    cases op with
    | min => exact congrArg (fun r => some (Out.exact r.1 r.2)) (valMinMax_eq false x y)
    | max => exact congrArg (fun r => some (Out.exact r.1 r.2)) (valMinMax_eq true x y)
    | _ => rfl
  | ffma => rw [hA rfl, hB rfl, hC rfl]; rfl
  | fsqrt | spec => rw [hA rfl]; rfl
  | cvt k =>
    rw [hA rfl]
    exact cvtOut_eq (srcTy k) t a x (hs k rfl) (ht (.inr ⟨k, rfl⟩))
  | mbin op =>
    have bits := maskBin_eq (ha op rfl) op (hb op rfl)
    rw [hA rfl]
    cases op with
    | not => exact congrArg (fun r => some (Out.bits r 0)) bits
    | _ =>
      rw [hB rfl]
      exact congrArg (fun r => some (Out.bits r 0)) bits
  | gauss | rand => rw [hA rfl]; rfl
  | _ => cases h

end Sys2Proof.Machine
end

section
/-!
SUPPORT. The operands of the statement as those of the model: a source that gives its bits, and a placed destination (01 R24; 07 R180;
08 R210, R211).
-/
namespace Sys2Proof.Machine
open Sys2Proof.Claim

/-! ## Sizes -/

/-- An element fits its line when it is aligned. -/
def Sized (t : ETy) : Prop := t.size = 0 ∨ t.size = 1 ∨ t.size = 2 ∨ t.size = 4 ∨ t.size = 8

theorem sized_etyOf (ew prec : Nat) : Sized (etyOf ew prec) := by
  have h : [0, 1, 2, 4, 8].contains (etyOf ew prec).size = true := by
    unfold etyOf
    split
    all_goals rfl
  simpa [Sized] using h

theorem sized_n1 : Sized .n1 := .inl rfl
theorem sized_word (t : ETy) (h : t.size = 8) : Sized t := .inr (.inr (.inr (.inr h)))

section Operands
variable {o : VOp} (hop : ∀ k tag sz, o ≠ .pump k tag sz) (r : Nat) {t : ETy} (ht : Sized t)
include ht

/-- The types of the operands of an instruction that is no pump instruction. -/
theorem sized_tyB : Sized (o.tyB t) := by
  cases o with
  | mbin k => exact sized_n1
  | slide up => exact sized_word _ rfl
  | _ => exact ht

theorem sized_tyC : Sized (o.tyC t) := by
  cases o with
  | carry sub co => exact sized_n1
  | dots => exact sized_word _ rfl
  | _ => exact ht

include hop

theorem sized_tyA : Sized (o.tyA r t) := by
  cases o with
  | cvt k => exact sized_etyOf ..
  | mbin | mscal | msh => exact sized_n1
  | gauss | rand => exact sized_word _ rfl
  | pump k tag sz => exact absurd rfl (hop k tag sz)
  | _ => exact ht

end Operands

/-- A place of the window holds some bytes. -/
theorem pos_of_inWindow {s : State} {n va w : Nat} {acc : Access} {p : Phys} (h : inWindow s n acc va w p) : 0 < w := by
  by_contra hz
  obtain ⟨-, -, -, -, hk, -, -, hc, -⟩ := h
  rw [Nat.eq_zero_of_not_pos hz, Nat.mod_zero] at hk
  rw [hk] at hc
  exact Bool.false_ne_true hc

/-- An element stands in one line. -/
theorem in_line {t : ETy} (hs : Sized t) {key : Nat} (hk : key % span t = 0) : key % 64 + span t ≤ 64 := by
  unfold span at hk ⊢
  split at hk
  · rw [if_pos ‹_›]
    omega
  · rw [if_neg ‹_›]
    obtain h | h | h | h | h := hs
    all_goals
      rw [h] at hk ⊢
      omega

/-! ## Operands -/

/-- The span of an element of bits or whole bytes at its address. -/
theorem spans_of_plain {o : Opd} {t : ETy} (ht : plain t) (i : Nat) (ix : Int) (h : t = .n1 → ∃ r, o.spec = .unit r) :
    o.spans t i (o.at t i ix) = [((o.at t i ix).toNat, span t)] := by
  by_cases hn : t = .n1
  · obtain ⟨r, hr⟩ := h hn
    subst hn
    obtain ⟨sp, base, aux, pol⟩ := o
    cases hr
    rfl
  · obtain ⟨hp, -, hs⟩ := bits_of_plain ht hn
    rw [hs]
    obtain h | ⟨-, hm⟩ := ht
    · exact absurd h hn
    · cases t with
      | n1 | blk | mx4 | ip => cases hp
      | mld => exact absurd rfl hm
      | int | flt | w48 => rfl

/-- The bits of an element in what stands there. -/
theorem raw_of_plain {t : ETy} (ht : plain t) (i : Nat) (m : Mem) (key : Nat) :
    t.raw i [m.read key (span t)] = pick t i (m.num key (span t)) := by
  by_cases hn : t = .n1
  · subst hn
    rfl
  · rw [pick, if_neg hn]
    obtain h | ⟨hp, hm⟩ := ht
    · exact absurd h hn
    · cases t with
      | n1 | blk | mx4 | ip => cases hp
      | mld => exact absurd rfl hm
      | int | flt | w48 => rfl

/-- The operand has a mode and a base that its type accepts. -/
def Fit (o : Option Opd) (t : ETy) : Prop := badMode o t = false ∧ badBase o t = none

theorem fit_direct {o : Opd} {t : ETy} (ht : plain t) (h : o.Direct t) : Fit (some o) t := by
  obtain ⟨sp, base, aux, pol⟩ := o
  cases sp with
  | scal r | index r => exact h.elim
  | unit r =>
    cases t with
    | blk | mx4 | ip => exact ht.elim (fun h => by cases h) fun h => by cases h.1
    | _ => exact ⟨rfl, rfl⟩
  | stride r =>
    cases t with
    | blk | mx4 | ip => exact ht.elim (fun h => by cases h) fun h => by cases h.1
    | n1 => exact absurd rfl h
    | _ => exact ⟨rfl, rfl⟩

/-- An operand in mode 00 or 01 at its place. -/
def Slot.direct (o : Opd) (t : ETy) (i : Nat) (acc : Access) (z : Zone) (p : Phys) : Slot :=
  ⟨o, t, i, acc, z, 0, p, [((elemVa o t i, span t), p)]⟩

/-- An operand that one element reads, with every check met (08 R210 to R212). -/
def Slot.Source (r : Slot) (s : State) (x : ECx) : Prop :=
  r.acc = .load ∧ r.Resolved s x.n ∧ r.Reached s x.n ∧ r.Pulls s x ∧ r.Sound s.mem

/-- An operand that it writes. -/
def Slot.Dest (r : Slot) (s : State) (x : ECx) : Prop := r.Resolved s x.n ∧ r.Reached s x.n ∧ r.Placed s x

section Element
variable {s : State} {n i : Nat} {e : Entry} {f : VForm} (ha : Alone s n e) {t : ETy}
include ha

/-- A source at a full place of the window. -/
theorem source_here {o : Opd} (ht : plain t) (hs : Sized t) (hm : t = .n1 → ∃ r, o.spec = .unit r) (hscal : o.isScal = false)
    {z : Zone} (hz : z = .own ∨ z = .cist) {ix : Int} {k p : Phys}
    (hix : o.isIdx = true → here s n .load (o.indexVa i) 4 k ∧ ix = signedOf 32 (s.mem.num k.key 4)) (h0 : o.isIdx = false → ix = 0)
    (hp : here s n .load (o.at t i ix).toNat (span t) p) (hv : t = .w48 → pick t i (s.mem.num p.key (span t)) < 2 ^ 48) :
    ∃ r : Slot, r.src = (o, t, i, z) ∧ r.Source s ⟨n, e, f, i⟩ ∧
      r.arg s.mem = ⟨pick t i (s.mem.num p.key (span t)), t.val (pick t i (s.mem.num p.key (span t)))⟩ := by
  have hw := pos_of_inWindow hp.1
  have spot := spot_of_inWindow hp.1 hw
  have h0t : p.tier = 0 := hp.1.2.1
  have hk : p.key % span t = 0 := hp.1.2.2.2.2.1
  have hva : (o.at t i ix).toNat % span t = 0 := hp.1.2.2.2.1
  have zone : zoneOk z (s.seq n) p = true := by
    obtain rfl | rfl := hz
    · simp [zoneOk, h0t, spot.2 h0t]
    · simp [zoneOk, h0t]
  let r : Slot := ⟨o, t, i, .load, z, ix, k, [(((o.at t i ix).toNat, span t), p)]⟩
  have raw : r.raw s.mem = pick t i (s.mem.num p.key (span t)) := by
    refine (if_neg (by rw [hscal]; exact Bool.false_ne_true)).trans ?_
    exact raw_of_plain ht i s.mem p.key
  refine ⟨r, rfl, ⟨rfl, ⟨hix, h0, fun _ => ?_, ?_⟩, ?_, ?_, ht, fun h => by rw [raw]; exact hv h⟩, ?_⟩
  · by_cases hn : t = .n1
    · exact .inl (by rw [show r.ty = t from rfl, hn]; rfl)
    · rw [(bits_of_plain ht hn).2.2] at hva
      exact .inr hva
  · rw [show r.opd = o from rfl, hscal]
    exact (spans_of_plain ht i ix hm).symm
  · exact List.forall_mem_singleton.2 ⟨spot, zone⟩
  · exact List.forall_mem_singleton.2 (reads_pullSpan_here ha hp hw (in_line hs hk) _)
  · rw [Slot.arg, raw, show r.opd = o from rfl, hscal]
    rfl

omit ha in
/-- A source in a register (07 R180). -/
theorem source_scal {o : Opd} {r : Reg} (ht : plain t) (hspec : o.spec = .scal r) (z : Zone)
    (hv : t = .w48 → o.base.toNat % 2 ^ t.bits < 2 ^ 48) :
    ∃ r : Slot, r.src = (o, t, i, z) ∧ r.Source s ⟨n, e, f, i⟩ ∧
      r.arg s.mem = ⟨o.base.toNat % 2 ^ t.bits, t.val (o.base.toNat % 2 ^ t.bits)⟩ := by
  have hscal : o.isScal = true := by rw [Opd.isScal, hspec]
  have hidx : o.isIdx = false := by rw [Opd.isIdx, hspec]
  let r : Slot := ⟨o, t, i, .load, z, 0, ⟨0, 0, 0⟩, []⟩
  have raw : r.raw s.mem = o.base.toNat % 2 ^ t.bits := by
    refine (if_pos hscal).trans ?_
    by_cases hn : t = .n1
    · subst hn
      rfl
    · obtain ⟨hp, hb, -⟩ := bits_of_plain ht hn
      cases t with
      | n1 | blk | mx4 | ip => cases hp
      | w48 => exact (Nat.mod_eq_of_lt o.base.isLt).symm
      | _ => rfl
  have val : scalVal t (o.base.toNat % 2 ^ t.bits) = t.val (o.base.toNat % 2 ^ t.bits) := by
    cases t with
    | blk => exact ht.elim (fun h => by cases h) fun h => by cases h.1
    | _ => rfl
  refine ⟨r, rfl, ⟨rfl, ⟨fun h => ?_, fun _ => rfl, fun h => ?_, ?_⟩, ?_, ?_, ht, fun h => by rw [raw]; exact hv h⟩, ?_⟩
  · rw [show r.opd = o from rfl, hidx] at h
    cases h
  · rw [show r.opd = o from rfl, hscal] at h
    cases h
  · exact (if_pos hscal).symm
  · exact fun _ h => absurd h List.not_mem_nil
  · exact fun _ h => absurd h List.not_mem_nil
  · rw [Slot.arg, raw, show r.opd = o from rfl, hscal, ← val]
    rfl

/-- A source operand in any of the four modes. -/
theorem source_of_sourced {o : Opd} {v : Nat} (h : sourced s n (some o) t i v) (hs : Sized t) {z : Zone} (hz : z = .own ∨ z = .cist) :
    ∃ r : Slot, r.src = (o, t, i, z) ∧ r.Source s ⟨n, e, f, i⟩ ∧ r.arg s.mem = ⟨v, t.val v⟩ := by
  obtain ⟨ht, h48, hmode⟩ := h
  have none_ix {b : Bool} (h : b = false) {P : Prop} : b = true → P := fun h' => by rw [h] at h'; cases h'
  split at hmode
  · rename_i r hspec
    subst hmode
    exact source_scal ht hspec z h48
  · rename_i r hspec
    obtain ⟨p, hp, rfl⟩ := hmode
    have hidx : o.isIdx = false := by rw [Opd.isIdx, hspec]
    rw [← elemVa_eq i ht (direct_unit hspec)] at hp
    exact source_here ha (k := p) ht hs (fun _ => ⟨r, hspec⟩) (by rw [Opd.isScal, hspec]) hz (none_ix hidx) (fun _ => rfl) hp h48
  · rename_i r hspec
    obtain ⟨hn, p, hp, rfl⟩ := hmode
    have hsp := (bits_of_plain ht hn).2.2
    have hidx : o.isIdx = false := by rw [Opd.isIdx, hspec]
    rw [← elemVa_eq i ht (direct_stride hspec hn), ← hsp] at hp
    have num : s.mem.num p.key t.size = pick t i (s.mem.num p.key (span t)) := by rw [pick, if_neg hn, hsp]
    rw [num] at h48 ⊢
    exact source_here ha (k := p) ht hs (fun h => absurd h hn) (by rw [Opd.isScal, hspec]) hz (none_ix hidx) (fun _ => rfl) hp h48
  · rename_i r hspec
    obtain ⟨hn, k, p, hk, hp, rfl⟩ := hmode
    have hsp := (bits_of_plain ht hn).2.2
    have hidx : o.isIdx = true := by rw [Opd.isIdx, hspec]
    have ixVa : o.indexVa i = (o.aux.toNat + 4 * i) % 2 ^ 64 := by simp [Opd.indexVa, toWord]
    have addr : (o.at t i (signedOf 32 (s.mem.num k.key 4))).toNat =
        (o.base + BitVec.ofInt 64 (BitVec.ofNat 32 (s.mem.num k.key 4)).toInt).toNat := by
      rw [Opd.at, hspec, signedOf_toInt]
      rfl
    rw [← addr, ← hsp] at hp
    rw [← ixVa] at hk
    have num : s.mem.num p.key t.size = pick t i (s.mem.num p.key (span t)) := by rw [pick, if_neg hn, hsp]
    rw [num] at h48 ⊢
    exact source_here ha ht hs (fun h => absurd h hn) (by rw [Opd.isScal, hspec]) hz (fun _ => ⟨hk, rfl⟩)
      (none_ix (by rw [hidx]; rfl : (!o.isIdx) = false) ∘ (by simp [hidx])) hp h48

omit ha in
/-- Its mode and base are accepted. -/
theorem fit_of_sourced {o : Option Opd} {v : Nat} (h : sourced s n o t i v) : Fit o t := by
  obtain _ | o := o
  · exact ⟨rfl, rfl⟩
  obtain ⟨ht, -, hmode⟩ := h
  split at hmode
  · rename_i r hspec
    obtain ⟨sp, base, aux, pol⟩ := o
    cases hspec
    refine ⟨?_, rfl⟩
    cases t with
    | mx4 => exact ht.elim (fun h => by cases h) fun h => by cases h.1
    | _ => rfl
  · exact fit_direct ht (direct_unit ‹_›)
  · exact fit_direct ht (direct_stride ‹_› hmode.1)
  · rename_i r hspec
    obtain ⟨hn, k, -, hk, -⟩ := hmode
    have h4 : o.aux.toNat % 4 = 0 := by
      have h : (o.aux.toNat + 4 * i) % 2 ^ 64 % 4 = 0 := hk.1.2.2.2.1
      omega
    obtain ⟨sp, base, aux, pol⟩ := o
    cases hspec
    refine ⟨?_, if_neg (by simpa using h4)⟩
    · have packed := (bits_of_plain ht hn).1
      cases t with
      | mx4 => cases packed
      | _ => exact packed

omit ha in
/-- A register source of a 48-bit type is in range. -/
theorem scal_in_range {o : Option Opd} {v : Nat} (h : sourced s n o t i v) :
    (o.any fun o => o.isScal && t == .w48 && o.base.toNat ≥ 2 ^ 48) = false := by
  obtain _ | o := o
  · rfl
  obtain ⟨-, h48, hmode⟩ := h
  by_cases ht : t = .w48
  · have low := h48 ht
    split at hmode
    · subst ht
      have : o.base.toNat % 2 ^ 64 = o.base.toNat := Nat.mod_eq_of_lt o.base.isLt
      change v = o.base.toNat % 2 ^ 64 at hmode
      simp
      omega
    all_goals simp [Opd.isScal, *]
  · simp [ht]

omit ha in
/-- A vector of bits gives bits. -/
theorem sourced_bit {o : Opd} {v : Nat} (h : sourced s n (some o) .n1 i v) : v < 2 := by
  obtain ⟨-, -, hmode⟩ := h
  split at hmode
  · exact hmode ▸ Nat.mod_lt _ (by decide)
  · obtain ⟨p, -, rfl⟩ := hmode
    exact Nat.mod_lt _ (by decide)
  · exact absurd rfl hmode.1
  · exact absurd rfl hmode.1

omit ha in
/-- An operand in mode 00 or 01 is resolved where its address is aligned. -/
theorem Slot.direct_resolved {o : Opd} (ht : plain t) (hmode : o.Direct t) (acc : Access) (z : Zone) (p : Phys)
    (hal : elemVa o t i % span t = 0) : (Slot.direct o t i acc z p).Resolved s n := by
  obtain ⟨hidx, hscal⟩ := direct_mode hmode
  have addr := elemVa_eq i ht hmode
  refine ⟨fun h => ?_, fun _ => rfl, fun _ => ?_, ?_⟩
  · rw [show Slot.opd _ = o from rfl, hidx] at h
    cases h
  · change t.packed = true ∨ (o.at t i 0).toNat % t.size = 0
    rw [addr]
    by_cases hn : t = .n1
    · exact .inl (by rw [hn]; rfl)
    · rw [(bits_of_plain ht hn).2.2] at hal
      exact .inr hal
  · have unit : t = .n1 → ∃ r, o.spec = .unit r := fun hn => by
      unfold Opd.Direct at hmode
      split at hmode
      · exact ⟨_, ‹_›⟩
      · exact absurd hn hmode
      · exact hmode.elim
    change _ = if o.isScal then [] else o.spans t i (o.at t i 0)
    rw [hscal, spans_of_plain ht i 0 unit, addr]
    rfl

omit ha in
/-- A placed destination that the element writes in its order. -/
theorem dest_of_placed {g : Nat} {d : Opd} {p : Phys} (hp : placed s n g (some d) t i p) (hin : InPlace s n i e f p.key) :
    (Slot.direct d t i .store .own p).Dest s ⟨n, e, f, i⟩ := by
  obtain ⟨_, hd, ht, hmode, hwin, -, -⟩ := hp
  cases hd
  have hw := pos_of_inWindow hwin
  have spot := spot_of_inWindow hwin hw
  have h0 : p.tier = 0 := hwin.2.1
  refine ⟨Slot.direct_resolved ht hmode _ _ _ hwin.2.2.2.1, List.forall_mem_singleton.2 ⟨spot, ?_⟩,
    List.forall_mem_singleton.2 fun u hu => hin.placeDst hu.toNear rfl hwin hw _⟩
  simp [Slot.direct, zoneOk, h0, spot.2 h0]

end Element

end Sys2Proof.Machine
end

section
/-!
SUPPORT. One element of a compute instruction without a mask (07 R180 to R184): its sources, its exact result, and what its move
leaves.
-/
namespace Sys2Proof.Machine
open Sys2Proof.Claim

/-! ## What the checks of a whole instruction find (02 R518) -/

/-- Operands with accepted modes and bases raise nothing as a whole. -/
theorem operands_fit {acc bad : Bool} {os : List (Option Opd × ETy)} (hacc : acc = true) (hb : bad = false)
    (h : ∀ p ∈ os, Fit p.1 p.2) :
    (if !acc || bad || os.any (fun p => badMode p.1 p.2) then some (⟨0x03, 0, 0⟩ : TrapReq)
      else (os.findSome? fun p => badBase p.1 p.2).map fun a => ⟨0x04, toWord a, 0⟩) = none := by
  have modes : os.any (fun p => badMode p.1 p.2) = false :=
    List.any_eq_false.2 fun p hp => by rw [(h p hp).1]; exact Bool.false_ne_true
  have bases : os.findSome? (fun p => badBase p.1 p.2) = none := List.findSome?_eq_none_iff.2 fun p hp => (h p hp).2
  rw [hacc, hb, modes, bases]
  rfl

/-- An instruction whose operands have accepted modes and bases raises nothing as a whole. -/
theorem wholeTrap_none {e : Entry} {f : VForm} (hacc : f.op.accepts e.ty = true) (hb : badEntry e f = false)
    (hp : ∀ k tag sz, f.op ≠ .pump k tag sz) (hA : Fit (e.opdA f) (e.tyA f)) (hB : Fit (e.opdB f) (e.tyB f))
    (hC : Fit (e.opdC f) (e.tyC f)) (hD : Fit (e.opdD f) (e.tyD f)) : wholeTrap e f = none := by
  let os := [(e.opdA f, e.tyA f), (e.opdB f, e.tyB f), (e.opdC f, e.tyC f), (e.opdD f, e.tyD f)]
  have all : ∀ p ∈ os, Fit p.1 p.2 := by simp [os, hA, hB, hC, hD]
  have some_of (l : List (Option Opd × ETy)) (hl : l ⊆ os) {acc : Bool} (hacc : acc = true) :=
    operands_fit hacc hb fun p hp => all p (hl hp)
  have three : ∀ b : Prop, [Decidable b] → os.take 3 ++ (if b then [] else [(e.opdD f, e.tyD f)]) ⊆ os := fun b _ => by
    split
    · simp [os]
    · simp [os]
  unfold wholeTrap
  cases ho : f.op with
  | pump k tag sz => exact absurd ho (hp k tag sz)
  | accin r c k => exact some_of (os.take 1) (List.take_subset 1 os) (ho ▸ hacc)
  | dots | red k => exact some_of _ (three _) (ho ▸ hacc)
  | _ => exact some_of os (List.Subset.refl os) (ho ▸ hacc)

/-! ## Who executes an element -/

/-- The source decides the owner of these instructions. -/
def VOp.bySource : VOp → Bool
  | .vst _ | .vstx _ | .accin .. | .pump .. | .dots | .red _ => true
  | _ => false

/-- A destination in memory decides that of the others. -/
theorem deciding_dst {e : Entry} {f : VForm} {d : Opd} (hop : f.op.bySource = false) (hd : e.opdD f = some d)
    (hs : d.isScal = false) : deciding e f = some (d, e.tyD f) := by
  obtain ⟨sp, base, aux, pol⟩ := d
  unfold deciding
  rw [hd]
  cases sp with
  | scal r => cases hs
  | _ =>
    cases ho : f.op with
    | vst | vstx | accin | pump | dots | red => rw [ho] at hop; cases hop
    | _ => rfl

/-! ## Instructions with an exact result at each element -/

/-- The instructions for which the statement names an exact result. -/
def VOp.isExact : VOp → Bool
  | .ibin _ | .carry _ _ | .icmp _ | .fcmp _ | .mv | .idx _ _ | .fbin _ | .ffma | .fsqrt | .spec _ | .cvt _ | .mbin _ | .gauss _
  | .rand _ => true
  | _ => false

theorem isExact_of_exactOf {o : VOp} {t : ETy} {e : Entry} {scal : Bool} {i a b c : Nat} {x y z : Val} {out : Out}
    (h : exactOf o t e scal i a b c x y z = some out) : o.isExact = true := by
  cases o with
  | merge | dots | red | scan | slide | mscal | msh | vld | vst | vstx | amo | cas | empty | fill | wait | own | accin | drain
  | pump =>
    cases h
  | _ => rfl

section Exact
variable {f : VForm} (hop : f.op.isExact = true)
include hop

/-- They combine nothing, stay at no issue, and are executed by the group of their destination. -/
theorem isExact_kind : f.op.combines = false ∧ f.op ≠ .wait ∧ (∀ k tag sz, f.op ≠ .pump k tag sz) ∧ f.op.bySource = false ∧
    ∀ e, badEntry e f = false := by
  cases ho : f.op with
  | merge | dots | red | scan | slide | mscal | msh | vld | vst | vstx | amo | cas | empty | fill | wait | own | accin | drain
  | pump =>
    rw [ho] at hop
    cases hop
  | _ =>
    refine ⟨rfl, nofun, nofun, rfl, fun e => ?_⟩
    unfold badEntry
    rw [ho]

/-- Each element delivers a result of the elements at its own index. -/
theorem isExact_elem (n i k : Nat) (e : Entry) (hw : wholeTrap e f = none) :
    activeElem ⟨n, e, f, k⟩ none i true = computeElem ⟨n, e, f, k⟩ none i true ∧ skipsElem ⟨n, e, f, k⟩ i = false ∧
      sourcesOf ⟨n, e, f, k⟩ i true = [(e.opdA f).map fun o => (o, e.tyA f, i), (e.opdB f).map fun o => (o, e.tyB f, i),
        (e.opdC f).map fun o => (o, e.tyC f, i)] := by
  unfold activeElem skipsElem sourcesOf
  rw [hw]
  cases ho : f.op with
  | merge | dots | red | scan | slide | mscal | msh | vld | vst | vstx | amo | cas | empty | fill | wait | own | accin | drain
  | pump =>
    rw [ho] at hop
    cases hop
  | _ => exact ⟨rfl, rfl, rfl⟩

end Exact

/-- An element of bits or whole bytes is executed alone. -/
theorem blockLen_plain {x : ECx} (h : plain (x.e.tyD x.f)) : blockLen x = 1 := by
  unfold blockLen
  split
  case h_11 => rfl
  all_goals
    rw [‹x.e.tyD x.f = _›] at h
    exact h.elim (fun h => by cases h) fun h => by cases h.1

/-! ## Its sources -/

/-- The places of A, B and C, of which an instruction may have fewer. -/
theorem placeArgs_map (rs : List (Option Slot)) (m : Mem) :
    placeArgs (rs.map fun r => r.map Slot.key) ((rs.filterMap id).map fun r => r.arg m) =
      rs.map fun r => (r.map fun r => r.arg m).getD Arg.none := by
  induction rs with
  | nil => rfl
  | cons r rs ih =>
    cases r with
    | none => exact congrArg (Arg.none :: ·) ih
    | some r => exact congrArg (r.arg m :: ·) ih

/-- A source that an instruction may have. -/
theorem slot_of_sourced {s : State} {n i v : Nat} {e : Entry} {f : VForm} {t : ETy} {o : Option Opd} (ha : Alone s n e)
    (h : sourced s n o t i v) (hs : Sized t) : ∃ r : Option Slot, o.map (fun o => (o, t, i)) = r.map Slot.key ∧
      (∀ c ∈ r, c.zone = srcZone c.ty ∧ c.Source s ⟨n, e, f, i⟩) ∧
      (o.isSome = true → (r.map fun r => r.arg s.mem).getD Arg.none = ⟨v, t.val v⟩) := by
  obtain _ | o := o
  · exact ⟨none, rfl, fun c hc => absurd hc (Option.not_mem_none c), fun h => absurd h Bool.false_ne_true⟩
  obtain ⟨r, hsrc, hr, harg⟩ := source_of_sourced (f := f) ha h hs (z := .cist) (.inr rfl)
  obtain ⟨rfl, rfl, rfl, hz⟩ : r.opd = o ∧ r.ty = t ∧ r.elem = i ∧ r.zone = .cist := by
    simpa [Slot.src] using hsrc
  have zone : r.zone = srcZone r.ty := by
    rw [hz]
    obtain ⟨ht, -⟩ := h
    cases hty : r.ty with
    | mx4 => rw [hty] at ht; exact ht.elim (fun h => by cases h) fun h => by cases h.1
    | _ => rfl
  exact ⟨some r, rfl, fun c hc => Option.mem_some_iff.1 hc ▸ ⟨zone, hr⟩, fun _ => harg⟩

section Compute
variable {s : State} {n g i a b c : Nat} {e : Entry} {f : VForm} {p : Phys} (ha : Alone s n e)
  (hA : sourced s n (e.opdA f) (e.tyA f) i a) (hB : sourced s n (e.opdB f) (e.tyB f) i b)
  (hC : sourced s n (e.opdC f) (e.tyC f) i c)
include hA hB hC

/-- No register source is out of range. -/
theorem badScal_false : (ECx.mk n e f i).badScal = false := by
  have c' : (match f.op with
      | .dots => false
      | _ => (e.opdC f).any fun o => o.isScal && e.tyC f == .w48 && o.base.toNat ≥ 2 ^ 48) = false := by
    split
    · rfl
    · exact scal_in_range hC
  unfold ECx.badScal
  dsimp only
  rw [scal_in_range hA, scal_in_range hB]
  exact c'

include ha

/-- The exact result of an element, and its destination. -/
theorem reads_elemExact (hop : f.op.isExact = true) (hw : wholeTrap e f = none) (hp : placed s n g (e.opdD f) (e.tyD f) i p)
    (hin : InPlace s n i e f p.key) (hs : Sized (e.tyA f) ∧ Sized (e.tyB f) ∧ Sized (e.tyC f)) :
    ∃ A B C d, ((e.opdA f).isSome = true → A = ⟨a, (e.tyA f).val a⟩) ∧ ((e.opdB f).isSome = true → B = ⟨b, (e.tyB f).val b⟩) ∧
      ((e.opdC f).isSome = true → C = ⟨c, (e.tyC f).val c⟩) ∧ physOf d = p ∧
      Op.Reads n s (elemExact ⟨n, e, f, i⟩ none i true)
        (elemOut f.op (opTy ⟨n, e, f, i⟩) e i ((e.opdA f).any Opd.isScal) true A B C, d) := by
  obtain ⟨-, -, hpump, -⟩ := isExact_kind hop
  obtain ⟨-, -, hsrc⟩ := isExact_elem hop n i i e hw
  obtain ⟨ra, ka, sa, va⟩ := slot_of_sourced (f := f) ha hA hs.1
  obtain ⟨rb, kb, sb, vb⟩ := slot_of_sourced (f := f) ha hB hs.2.1
  obtain ⟨rc, kc, sc, vc⟩ := slot_of_sourced (f := f) ha hC hs.2.2
  obtain ⟨d, hd, -, hmode, -⟩ := id hp
  have hscal := (direct_mode hmode).2
  rw [hd] at hp
  have sources : ∀ r ∈ [ra, rb, rc].filterMap id, r.zone = srcZone r.ty ∧ r.Source s ⟨n, e, f, i⟩ := fun r hr => by
    obtain ⟨o, ho, rfl⟩ := List.mem_filterMap.1 hr
    simp only [List.mem_cons, List.not_mem_nil, or_false] at ho
    obtain h | h | h := ho
    · exact sa r h.symm
    · exact sb r h.symm
    · exact sc r h.symm
  have srcs : sourcesOf ⟨n, e, f, i⟩ i true = [ra, rb, rc].map fun r => r.map Slot.key := by rw [hsrc, ka, kb, kc]; rfl
  have keys : ((([ra, rb, rc].map fun r => r.map Slot.key).filterMap id).map fun p => (p.1, p.2.1, p.2.2, srcZone p.2.1)) =
      ([ra, rb, rc].filterMap id).map Slot.src := by
    rw [List.filterMap_map]
    have pull (l : List (Option Slot)) : l.filterMap (id ∘ fun r => r.map Slot.key) = (l.filterMap id).map Slot.key := by
      rw [List.map_filterMap]
      rfl
    rw [pull, List.map_map]
    exact List.map_congr_left fun r hr => by rw [Slot.src, (sources r hr).1]; rfl
  have read := reads_readElem (x := ⟨n, e, f, i⟩) ha hpump (badScal_false hA hB hC) (rs := [ra, rb, rc].filterMap id)
    (ds := [Slot.direct d (e.tyD f) i .store .own p]) (fun r hr => (sources r hr).2) (List.forall_mem_singleton.2 (dest_of_placed hp hin))
  refine ⟨_, _, _, [([(elemVa d (e.tyD f) i, span (e.tyD f))], [p])], va, vb, vc, rfl, ?_⟩
  · unfold elemExact
    dsimp only
    rw [srcs, keys, hd]
    dsimp only
    rw [hscal, if_neg Bool.false_ne_true]
    refine reads_bind read ?_
    dsimp only
    rw [placeArgs_map]
    exact reads_pure _

/-- An element's result is written and its flags are raised. -/
theorem computeElem_run (hop : f.op.isExact = true) (hw : wholeTrap e f = none) (hp : placed s n g (e.opdD f) (e.tyD f) i p)
    (hin : InPlace s n i e f p.key) (hs : Sized (e.tyA f) ∧ Sized (e.tyB f) ∧ Sized (e.tyC f)) {out : Out}
    (hout : ∀ A B C, ((e.opdA f).isSome = true → A = ⟨a, (e.tyA f).val a⟩) →
      ((e.opdB f).isSome = true → B = ⟨b, (e.tyB f).val b⟩) → ((e.opdC f).isSome = true → C = ⟨c, (e.tyC f).val c⟩) →
        elemOut f.op (opTy ⟨n, e, f, i⟩) e i ((e.opdA f).any Opd.isScal) true A B C = out) :
    ∃ u, (activeElem ⟨n, e, f, i⟩ none i true).run s =
        .ok () (u.modSeq n (·.raise (deliver (e.tyD f) (e.rnd i) out).2)) ∧ Near n s u ∧
      Puts s.mem u.mem (e.tyD f) i p.key (deliver (e.tyD f) (e.rnd i) out).1 := by
  obtain ⟨hact, hskip, -⟩ := isExact_elem hop n i i e hw
  obtain ⟨A, B, C, d, va, vb, vc, hd, read⟩ := reads_elemExact ha hA hB hC hop hw hp hin hs
  obtain ⟨d, -, ht, -, hwin, -⟩ := id hp
  rw [hout A B C va vb vc] at read
  obtain ⟨u, hu, warm⟩ := read.run
  obtain ⟨v, hv, near, puts⟩ := ha.putField warm.toNear hwin rfl ht hin (deliver (e.tyD f) (e.rnd i) out).1
  rw [warm.mem] at puts
  refine ⟨v, ?_, warm.toNear.trans near, puts⟩
  rw [hact]
  unfold computeElem
  refine (Op.run_if_neg (by rw [hskip]; exact Bool.false_ne_true)).trans ?_
  rw [Op.run_bind_ok hu]
  dsimp only
  rw [hd, Op.run_bind_ok hv]
  exact Op.run_modSeqOp ..

end Compute

/-- A source that a form has is an operand of its entry. -/
theorem isSome_opdSrc {e : Entry} {o : Option Src} {x y : Word} {uses : Bool} (h : (!uses || o.isSome) = true) (hu : uses = true) :
    (e.opdSrc o x y).isSome = true := by
  rw [hu] at h
  obtain _ | _ | _ | _ := o
  · cases h
  all_goals rfl

/-- An operand that gives bits has elements of bits or whole bytes. -/
theorem plain_of_sourced {s : State} {n i v : Nat} {o : Option Opd} {t : ETy} (h : sourced s n o t i v) (ho : o.isSome = true) :
    plain t := by
  obtain _ | o := o
  · cases ho
  · exact h.1

/-- A vector of bits that an instruction has gives bits. -/
theorem bit_of_sourced {s : State} {n i v : Nat} {o : Option Opd} {t : ETy} (ht : t = .n1) (h : sourced s n o t i v)
    (ho : o.isSome = true) : v < 2 := by
  subst ht
  obtain _ | o := o
  · cases ho
  · exact sourced_bit h

section Form
variable {s : State} {n g i a b c : Nat} {e : Entry} {f : VForm} {p : Phys} {out : Out} (hf : vform e.ins = some f)
  (hA : sourced s n (e.opdA f) (e.tyA f) i a) (hB : sourced s n (e.opdB f) (e.tyB f) i b)
  (hC : sourced s n (e.opdC f) (e.tyC f) i c)
  (hx : exactOf f.op (opTy ⟨n, e, f, i⟩) e ((e.opdA f).any Opd.isScal) i a b c ((e.tyA f).val a) ((e.tyB f).val b)
    ((e.tyC f).val c) = some out)
include hf hA hB hx

/-- The model's result on the sources that the form has is the exact one. -/
theorem elemOut_of_sourced (ht : plain (e.tyD f)) (A B C : Arg) (va : (e.opdA f).isSome = true → A = ⟨a, (e.tyA f).val a⟩)
    (vb : (e.opdB f).isSome = true → B = ⟨b, (e.tyB f).val b⟩) (vc : (e.opdC f).isSome = true → C = ⟨c, (e.tyC f).val c⟩) :
    elemOut f.op (opTy ⟨n, e, f, i⟩) e i ((e.opdA f).any Opd.isScal) true A B C = out := by
  obtain ⟨givenA, givenB, givenC⟩ := given_of_vform hf
  have hasA (h : f.op.usesA = true) : (e.opdA f).isSome = true := isSome_opdSrc givenA h
  have hasB (h : f.op.usesB = true) : (e.opdB f).isSome = true := isSome_opdSrc givenB h
  refine elemOut_eq hx (va ∘ hasA) (vb ∘ hasB) (fun h => vc (isSome_opdSrc givenC h)) (fun h => ?_) (fun k hk => ?_) (fun k hk => ?_)
    fun k hk hne => ?_
  · have same : opTy ⟨n, e, f, i⟩ = e.tyD f := by
      unfold opTy
      dsimp only
      obtain h | ⟨k, h⟩ := h
      · rw [h]
      · rw [h]
    exact same ▸ ht
  · have tA : e.tyA f = srcTy k := by rw [Entry.tyA, hk]; rfl
    exact tA ▸ plain_of_sourced hA (hasA (by rw [hk]; rfl))
  · exact bit_of_sourced (by rw [Entry.tyA, hk]; rfl) hA (hasA (by rw [hk]; rfl))
  · refine bit_of_sourced (by rw [Entry.tyB, hk]; rfl) hB (hasB ?_)
    rw [hk]
    exact bne_iff_ne.2 hne

include hC

/-- What an element of a compute instruction without a mask delivers. -/
theorem element_computes (hm : f.mask = .none) (h : atElement s n g i e) (hacc : f.op.accepts e.ty = true)
    (hp : placed s n g (e.opdD f) (e.tyD f) i p) :
    ∃ u, exec (.elementExecute n g) s = .next u ∧ Puts s.mem u.mem (e.tyD f) i p.key (deliver (e.tyD f) (e.rnd i) out).1 ∧
      passed s u n g i e (deliver (e.tyD f) (e.rnd i) out).2 := by
  have ha := alone_of_atElement h
  obtain ⟨⟨-, -, -, -, -, -, -, -, -, hodd⟩, -⟩ := id h
  have hop := isExact_of_exactOf hx
  obtain ⟨hcomb, hwait, hpump, hsrc, hbad⟩ := isExact_kind hop
  obtain ⟨d, hd, ht, hmode, -, hown, -⟩ := id hp
  have mode := direct_mode hmode
  have hw := wholeTrap_none hacc (hbad e) hpump (fit_of_sourced hA) (fit_of_sourced hB) (fit_of_sourced hC)
    (by rw [hd]; exact fit_direct ht hmode)
  have hin := inPlace_of_placed hp (fun o ho hs => deciding_dst hsrc ho hs) hodd
  have sizes : Sized (e.tyA f) ∧ Sized (e.tyB f) ∧ Sized (e.tyC f) :=
    ⟨sized_tyA hpump _ (sized_etyOf ..), sized_tyB (sized_etyOf ..), sized_tyC (sized_etyOf ..)⟩
  obtain ⟨v, hv, near, puts⟩ := computeElem_run ha hA hB hC hop hw hp hin sizes (elemOut_of_sourced hf hA hB hx ht)
  have owner : (s.seq n).ownerVa (d.at (e.tyD f) i 0).toNat = some g := by
    rw [elemVa_eq i ht hmode]
    exact ownerVa_of_owned hown
  obtain ⟨u, hu, hmem, -, -, hpast⟩ := elementExecute_unit h hf hm hwait hcomb (blockLen_plain ht)
    ⟨deciding_dst hsrc hd mode.2, mode⟩ owner hv (near.raised _)
  exact ⟨u, hu, by rw [hmem]; exact puts, hpast⟩

end Form

end Sys2Proof.Machine

namespace Sys2Proof.Proofs
open Sys2Proof.Machine Sys2Proof.Claim

/-- O40's first clause, by itself, holds in every state: what an element of a compute instruction without a mask delivers, with sources
in any mode and a destination at unit stride or with a stride (03 R60; 07 R180, R183, R187 to R198, R206, R209). -/
theorem computeElement_delivers {s : State} {n g i : Nat} {e : Entry} {f : VForm} (hf : vform e.ins = some f) (hm : f.mask = .none)
    (h : atElement s n g i e) :
    let t := vtTy e.vtype
    let tA := f.op.tyA e.rowLen t
    let tD := f.op.tyD e.rowLen t
    ∀ (a b c : Nat) (out : Out) (pd : Phys), f.op.accepts t = true → sourced s n (e.opdA f) tA i a →
      sourced s n (e.opdB f) (f.op.tyB t) i b → sourced s n (e.opdC f) (f.op.tyC t) i c → placed s n g (e.opdD f) tD i pd →
      exactOf f.op (match f.op with | .carry .. | .icmp _ | .fcmp _ => t | _ => tD) e ((e.opdA f).any Opd.isScal) i a b c
        (tA.val a) ((f.op.tyB t).val b) ((f.op.tyC t).val c) = some out →
      let r := deliver tD (e.rnd i) out
      ∃ u, exec (.elementExecute n g) s = .next u ∧ pick tD i (u.mem.num pd.key (span tD)) = r.1 % 2 ^ tD.bits ∧
        (∀ x, (x < pd.key ∨ pd.key + span tD ≤ x) → u.mem.get x = s.mem.get x) ∧
        (tD = .n1 → ∀ j, j < 8 → j ≠ i % 8 → (u.mem.num pd.key 1).testBit j = (s.mem.num pd.key 1).testBit j) ∧
        passed s u n g i e r.2 := by
  intro t tA tD a b c out pd hacc hA hB hC hp hx
  obtain ⟨u, hu, ⟨value, bits, others⟩, hpast⟩ := element_computes hf hA hB hC hx hm h hacc hp
  exact ⟨u, hu, value, others, bits, hpast⟩

end Sys2Proof.Proofs
end

section
/-!
SUPPORT. VOWN in a grant of G groups, at the first of its elements (06 R169; 08 R229): a state for every G that meets the hypotheses of
the statement, which does not bound G as 02 R39 does. The window begins at virtual address 2^40, and VOWN asks for the owner of
address 2^63.
-/
namespace Sys2Proof.Machine
open Sys2Proof.Claim

namespace WideGrant

/-- VOWN of the vector at x1, into the vector at x2. -/
def ins : Instr := .vown ⟨.unit 2, .unit 1, false, .none⟩

/-- Its form. -/
def form : VForm := formVA .own ⟨.unit 2, .unit 1, false, .none⟩

/-- D begins at the window's first byte, A at 2^63; the elements are signed integers of eight bytes. -/
def entry (G : Nat) : Entry :=
  { isn := 0, pc := 0, ins := ins, cap := [0x10000000000, 0, 0x8000000000000000], capB1 := 0, capC1 := 0, vl := 1, vtype := 4,
    maskAddr := 0, cvalid := 0, cgkey := 0, cgdraw := 0, cldL := 0, sdest := none, token := 0,
    gs := List.replicate G ⟨0, false, [], false⟩, pulled := [], waves := G, flags := 0, owners := [], odd := [] }

/-- The sequencer that holds the grant. -/
def holder (G : Nat) : Seq :=
  { Seq.reset with mode := .run, groups := List.replicate G 0, winPa := cistBase, winVa := 0x10000000000, inflight := [entry G] }

/-- A page of 4 KiB at the window's first byte, readable and writable, with D set. -/
def leaf : Word := toWord (1 + 2 + 1 * 128 + 7 * 512 + cistBase % 2 ^ 52 + 2 ^ 56 + 2 ^ 57)

/-- Its translation. -/
def tlb : TlbEntry := ⟨0, 0x10000000000 / 4096, 1, leaf, 0, 0⟩

/-- The window's first byte. -/
def first : Phys := ⟨cistBase, leaf, 0⟩

/-- The machine but for the sequencer. -/
def around : State := (State.resetWith []).modDie 0 fun d => { d with tlb := [tlb] }

/-- The machine with the sequencer. -/
def machine (G : Nat) : State := { around with seqs := [(0, holder G)] }

theorem machine_winVa (G : Nat) : ((machine G).seq 0).winVa = 0x10000000000 := rfl
theorem machine_winPa (G : Nat) : ((machine G).seq 0).winPa = cistBase := rfl
theorem machine_groups (G : Nat) : ((machine G).seq 0).groups.length = G := List.length_replicate

/-- The translation is the only one. -/
theorem around_die : (around.die 0).tlb = [tlb] ∧ (around.die 0).bankTlb = [] ∧ (around.die 0).groupTlb = [] ∧
    (around.die 0).regime = false ∧ around.wayTo 0 cistBase = .clear := by decide

theorem machine_die (G : Nat) : (machine G).die (dieOf 0) = around.die 0 := rfl

theorem reached : tlbFind [tlb] 0 0x10000000000 = some tlb ∧ permits leaf .store = true ∧ eD leaf = true ∧
    leafKey leaf 0 0x10000000000 = cistBase ∧ eTier leaf = 0 ∧ eKind leaf ≠ 0 ∧ inCist cistBase = true ∧
    inCist (cistBase + 8 - 1) = true := by decide

/-- Its caches agree. -/
theorem agree (G : Nat) : cachesAgree (machine G) (dieOf 0) := by
  obtain ⟨ht, hb, hg, -⟩ := around_die
  rw [cachesAgree_iff, machine_die, ht, hb, hg]
  have none_within : tlbWithin (around.die 0) [] := fun _ _ _ h => nomatch h
  exact ⟨List.pairwise_singleton .., fun _ => none_within, fun _ => none_within⟩

/-- Each group has executed no element. -/
theorem ctr_entry {G k : Nat} (hk : k < G) : (entry G).ctr k = ⟨0, false, [], false⟩ := by
  simp [Entry.ctr, entry, hk]

/-- Where the first element of each operand stands. -/
theorem elements : (vtTy 4 = .int 8 true ∧ vtVCHK 4 = false) ∧
    elemVa ⟨.unit 2, 0x10000000000, 0, false⟩ (.int 8 false) 0 = 0x10000000000 ∧
    elemVa ⟨.unit 1, 0x8000000000000000, 0, false⟩ (vtTy 4) 0 = 2 ^ 63 ∧ cistBase % 64 = 0 ∧ cistBase % 8 = 0 := by decide

section Grant
variable {G : Nat} (hG : 0 < G)
include hG

/-- VOWN stands at element 0, and nothing else keeps group 0. -/
theorem stands : atElement (machine G) 0 0 0 (entry G) := by
  obtain ⟨-, -, -, hr, -⟩ := around_die
  obtain ⟨⟨-, vchk⟩, -, -, h64, -⟩ := elements
  have lens : (entry G).gs.length = G := List.length_replicate
  have ctr := ctr_entry hG
  refine ⟨⟨rfl, rfl, rfl, rfl, rfl, ?_, ?_, hG, ?_, rfl⟩, ?_, Nat.zero_lt_one, vchk, ?_, rfl, rfl, rfl, rfl, rfl, rfl, rfl, agree G, ?_,
    h64⟩
  · rw [lens, machine_groups]
  · rw [machine_groups]
    exact hG
  · rw [ctr]
  · rw [ctr]
  · rw [machine_die, hr]
  · rw [machine_winVa]

/-- D's element is the window's first word, which group 0 owns. -/
theorem stored : placed (machine G) 0 0 ((entry G).opdD form) (.int 8 false) 0 first := by
  obtain ⟨ht, -, -, -, hway⟩ := around_die
  obtain ⟨hfind, hperm, hd, hkey, htier, hkind, hc, hc'⟩ := reached
  have win : ((machine G).winOf cistBase).isSome = true := by
    refine winOf_isSome (n := 0) (Bool.and_eq_true_iff.2 ⟨decide_eq_true (Nat.le_refl _), decide_eq_true ?_⟩)
    rw [Seq.g, machine_groups]
    exact Nat.lt_add_of_pos_right (Nat.mul_pos (by decide) hG)
  have map : mapped (machine G) 0 .store 0x10000000000 first := by
    refine ⟨⟨by decide, rfl, fun _ => win, hway, tlb, ?_, hperm, ?_⟩, fun _ => hd⟩
    · change tlbFind (around.die 0).tlb _ _ = _
      rw [ht]
      exact hfind
    · change first = ⟨leafKey leaf 0 0x10000000000, leaf, 0⟩
      rw [hkey]
      rfl
  obtain ⟨-, va, -, -, h8⟩ := elements
  refine ⟨⟨.unit 2, 0x10000000000, 0, false⟩, rfl, .inr ⟨rfl, nofun⟩, trivial, ?_, ?_, ?_⟩
  all_goals rw [va]
  · refine ⟨map, htier, hkind, rfl, h8, Nat.le_refl _, ?_, hc, hc'⟩
    rw [machine_groups, machine_winPa]
    change cistBase + 8 ≤ cistBase + 0x200000 * G
    omega
  · refine ⟨Nat.le_refl _, ?_, ?_⟩
    · rw [machine_groups, machine_winVa]
      omega
    · rw [machine_groups, machine_winVa]
      exact Nat.zero_mod G
  · exact (Nat.sub_self _).trans (Nat.sub_self _).symm

end Grant

end WideGrant

end Sys2Proof.Machine

namespace Sys2Proof.Proofs
open Sys2Proof.Machine Sys2Proof.Claim

/-- Refutes O40 in its clause of VOWN, which says nothing of the number of groups of the grant (02 R39 bounds it by 64): with 2^60 of
them, address 2^63 lies in line 2^57 - 2^34 of the window, in the group of that number, and the clause expects 256 times that number, at
least 2^64, in the eight bytes of D's element. -/
theorem not_vectorElements : ¬ Obligations.VectorElements := by
  unfold Obligations.VectorElements
  intro h
  obtain ⟨G, hG⟩ : ∃ G, G = 2 ^ 60 := ⟨_, rfl⟩
  have pos : 0 < G := by omega
  obtain ⟨-, -, -, -, memory, -⟩ := h (WideGrant.machine G) 0 0 0 (WideGrant.entry G) WideGrant.form rfl
  obtain ⟨⟨ty, -⟩, -, va, -⟩ := WideGrant.elements
  have ty' : vtTy (WideGrant.entry G).vtype = .int 8 true := ty
  rw [ty'] at memory
  obtain ⟨-, -, -, own⟩ := memory rfl (WideGrant.stands pos) rfl rfl nofun (fun _ _ => Nat.zero_le _)
    ⟨.unit 1, 0x8000000000000000, 0, false⟩ ⟨.unit 2, 0x10000000000, 0, false⟩ 8 rfl rfl rfl
  obtain ⟨u, -, -, -, value⟩ := own 1 WideGrant.first rfl rfl (WideGrant.stored pos)
  have low := u.mem.num_lt WideGrant.first.key 8
  rw [ty] at va
  rw [value, WideGrant.machine_groups, WideGrant.machine_winVa, va, if_pos (by omega),
    Nat.mod_eq_of_lt (a := _ / 64) (by omega)] at low
  omega

end Sys2Proof.Proofs
end

section
/-!
SUPPORT. The lease table of a die (09 R231 to R235): what a slot reads after each change of the table, what abandoning an engine's work
and freeing a lease leave of it, and which lease a handle names (R232).
-/
namespace Sys2Proof.Machine
open Sys2Proof.Claim

/-! ## Slots of the table (09 R231, R234) -/

/-- A lease of a table bears its context and its slot. -/
theorem Die.lease_key (x : Die) (c k : Nat) : (x.lease c k).ctx = c ∧ (x.lease c k).slot = k := by
  unfold Die.lease
  cases h : x.leases.find? fun l => l.ctx == c && l.slot == k with
  | none => exact ⟨rfl, rfl⟩
  | some l => simpa using List.find?_some h

@[simp] theorem State.lease_ctx (s : State) (d c k : Nat) : (s.lease d c k).ctx = c := ((s.die d).lease_key c k).1
@[simp] theorem State.lease_slot (s : State) (d c k : Nat) : (s.lease d c k).slot = k := ((s.die d).lease_key c k).2

/-- The first element that satisfies a test, once it has been replaced by one that satisfies it too. -/
theorem find?_updFirst {α : Type} {p : α → Bool} {a : α} (ha : p a = true) {l : List α} (h : l.any p = true) :
    (updFirst p (fun _ => a) l).find? p = some a := by
  induction l with
  | nil => cases h
  | cons b r ih =>
    unfold updFirst
    by_cases hb : p b = true
    · rw [if_pos hb]
      exact List.find?_cons_of_pos ha
    · rw [if_neg hb, List.find?_cons_of_neg hb]
      exact ih (by simpa [hb] using h)

/-- What a table finds once an element has replaced the first like it, or has been added. -/
theorem find?_put {α : Type} {p : α → Bool} {a : α} (ha : p a = true) (l : List α) :
    (if l.any p then updFirst p (fun _ => a) l else l ++ [a]).find? p = some a := by
  split
  · next h => exact find?_updFirst ha h
  · next h =>
    have before : l.find? p = none := List.find?_eq_none.2 fun b hb hp => h (List.any_eq_true.2 ⟨b, hb, hp⟩)
    rw [List.find?_append, before, Option.none_or, List.find?_cons_of_pos ha]

/-- A lease just put into a table is read back. -/
theorem Die.lease_setLease (x : Die) (l : Lease) : (x.setLease l).lease l.ctx l.slot = l :=
  congrArg (Option.getD · _) (find?_put (by simp) x.leases)

/-- A lease just put into a die's table is read back in its slot. -/
theorem State.lease_setLease {s : State} {d c k : Nat} {l : Lease} (hd : d < 16) (hc : l.ctx = c) (hk : l.slot = k) :
    (s.setLease d l).lease d c k = l := by
  subst hc hk
  rw [State.lease, State.setLease, State.die_modDie_same _ _ _ hd, Die.lease_setLease]

/-- The leases of a state are those of its dies' tables. -/
theorem State.lease_congr {s t : State} {d : Nat} (h : (t.die d).leases = (s.die d).leases) (c k : Nat) :
    t.lease d c k = s.lease d c k := by
  unfold State.lease Die.lease
  rw [h]

@[simp] theorem State.lease_modSeq (s : State) (n : Nat) (f : Seq → Seq) (d c k : Nat) :
    (s.modSeq n f).lease d c k = s.lease d c k := rfl

/-- A change of a die that keeps a part of it keeps that part of every die. -/
theorem State.part_modDie {α : Type} (part : Die → α) {f : Die → Die} (hf : ∀ x, part (f x) = part x) (s : State) (e d : Nat) :
    part ((s.modDie e f).die d) = part (s.die d) := by
  unfold State.die
  split
  · next hd =>
    by_cases he : e = d
    · subst he
      simp [State.modDie, State.setDie, State.die, hd, hf]
    · simp [State.modDie, State.setDie, he]
  · rfl

/-! ## Abandoning and freeing (09 R235, R243) -/

/-- Abandoning the instructions of a queue changes only the marks of their landings. -/
theorem abandoned_dies (q : List MCmd) (s : State) : (q.foldl abandonCmd s).dies = s.dies := by
  induction q generalizing s with
  | nil => rfl
  | cons m r ih => exact ih _

/-- Clearing an engine leaves the leases. -/
theorem clearEngine_leases (s : State) (e i : Nat) (b : Bool) (d : Nat) :
    ((clearEngine s e i b).die d).leases = (s.die d).leases := by
  unfold clearEngine
  refine (State.part_modDie Die.leases ?_ _ e d).trans ?_
  · exact fun _ => rfl
  · rw [State.die, abandoned_dies]
    rfl

/-- A lease that is freed leaves its slot FREE, of the next generation. -/
theorem freeLease_lease {s : State} {d c k : Nat} (hd : d < 16) (h : (s.lease d c k).st ≠ .free) :
    (freeLease s d c k).lease d c k = Lease.free c k ((s.lease d c k).gen + 1) := by
  unfold freeLease
  rw [if_neg h]
  exact State.lease_setLease hd rfl rfl

/-! ## Handles (09 R232) -/

/-- What makes the lease of a slot live under a handle. -/
theorem names_iff (h : Word) (d : Nat) (g : BitVec 16) (k : Nat) :
    names h d g k ↔ h.getLsbD 63 = false ∧ fld h 28 4 = d ∧ fld h 32 16 = g.toNat ∧ fld h 16 5 = k := by
  rw [getLsbD_63, decide_eq_false_iff_not, Nat.not_le]
  rfl

/-- The handle of a lease that is not FREE names it. -/
theorem liveLease_of_names {s : State} {d c k : Nat} {h : Word} (hn : names h d (s.lease d c k).gen k)
    (hf : (s.lease d c k).st ≠ .free) : liveLease s d c h = some (s.lease d c k) := by
  obtain ⟨herr, hdie, hgen, rfl⟩ := (names_iff ..).1 hn
  unfold liveLease
  rw [herr, hdie, hgen]
  simp [hf]

/-- A handle under which every slot that it names is FREE names no lease. -/
theorem liveLease_of_dead {s : State} {d c : Nat} {h : Word}
    (hdead : ∀ j, j < 32 → names h d (s.lease d c j).gen j → (s.lease d c j).st = .free) : liveLease s d c h = none := by
  unfold liveLease
  refine if_neg fun hlive => ?_
  simp only [Bool.and_eq_true, Bool.not_eq_true', decide_eq_true_eq, bne_iff_ne] at hlive
  obtain ⟨⟨⟨herr, hdie⟩, hgen⟩, hf⟩ := hlive
  exact hf (hdead _ (Nat.mod_lt _ (by decide)) ((names_iff ..).2 ⟨herr, hdie, hgen, rfl⟩))

end Sys2Proof.Machine
end

section
/-!
SUPPORT. LEASE, LFREE, LSTAT and LWAIT at issue (09 R236, R249 to R252), and the wake of LWAIT.
-/
namespace Sys2Proof.Machine
open Sys2Proof.Claim

/-! ## LEASE (09 R236, R249) -/

/-- The test of the request word, as arithmetic on it. -/
theorem leaseBad_iff (w : Word) : leaseBad w = true ↔ badRequest w.toNat := by
  have hw : w.toNat < 2 ^ 64 := w.isLt
  simp only [leaseBad, Bool.or_eq_true, Bool.and_eq_true, bne_iff_ne, decide_eq_true_eq]
  simp only [badRequest, fld, bitsAt, BitVec.getLsbD, Nat.testBit_eq_decide_div_mod_eq, decide_eq_true_eq]
  omega

/-- The lowest FREE slot of a context. -/
theorem freeSlot_eq {s : State} {d c k : Nat} (hk : k < 32) (hf : (s.lease d c k).st = .free)
    (hb : ∀ j, j < k → (s.lease d c j).st ≠ .free) : freeSlot s d c = some k := by
  unfold freeSlot
  rw [List.find?_range_eq_some]
  exact ⟨by rw [hf]; rfl, List.mem_range.2 hk, fun j hj => by simpa using hb j hj⟩

/-- No slot of a context is FREE. -/
theorem freeSlot_none {s : State} {d c : Nat} (h : ∀ j, j < 32 → (s.lease d c j).st ≠ .free) : freeSlot s d c = none := by
  unfold freeSlot
  rw [List.find?_range_eq_none]
  exact fun j hj => by simpa using h j hj

/-- The request that LEASE of sequencer n queues in slot k for a request word. -/
def requested (s : State) (n k : Nat) (w : Word) : Lease :=
  { Lease.free (s.seq n).ctx k (s.lease (dieOf n) (s.seq n).ctx k).gen with
    st := .queued, kind := fld w 0 2, pin := w.getLsbD 2, engine := if w.getLsbD 2 then fld w 4 4 else 0,
    level := fld (s.seq n).cprio 0 3, cap := fld (s.seq n).cprio 8 3, asked := s.now, asker := n % 16 }

/-- Bit 2 of a word. -/
theorem getLsbD_2 (w : Word) : w.getLsbD 2 = (w.toNat / 4 % 2 == 1) := by
  rw [BitVec.getLsbD, Nat.testBit_eq_decide_div_mod_eq]
  rfl

/-- What it holds of the request word, of cprio and of the slot. -/
theorem requested_spec (s : State) (n k : Nat) (w : Word) :
    let m := requested s n k w
    let v := w.toNat
    m.st = .queued ∧ m.kind = v % 4 ∧ m.pin = (v / 4 % 2 == 1) ∧ m.engine = (if v / 4 % 2 = 1 then v / 16 % 16 else 0) ∧
      m.gen = (s.lease (dieOf n) (s.seq n).ctx k).gen ∧ m.level = (s.seq n).cprio.toNat % 8 ∧
      m.cap = (s.seq n).cprio.toNat / 256 % 8 ∧ m.asked = s.now := by
  refine ⟨rfl, fld_zero w 2, getLsbD_2 w, ?_, rfl, fld_zero _ 3, rfl, rfl⟩
  refine if_congr ?_ rfl rfl
  rw [getLsbD_2, beq_iff_eq]

section Lease
variable {rd ra : Reg} {s : State} {k : Nat}

/-- A malformed request word. -/
theorem exec_lease_bad (hb : badRequest (xr s ra).toNat) : puts (.lease rd ra) rd 0x8000000000000001 s := by
  refine fun hi => exec_done (exec_lease ..) rfl ?_ hi
  refine (Op.run_bind_ok (Op.run_get s)).trans ?_
  exact (Op.run_if_pos ((leaseBad_iff _).2 hb)).trans rfl

/-- No free slot. -/
theorem exec_lease_full (hb : ¬badRequest (xr s ra).toNat) (hs : freeSlot s (dieOf s.cur) (s.seq s.cur).ctx = none) :
    puts (.lease rd ra) rd 0x8000000000000002 s := by
  refine fun hi => exec_done (exec_lease ..) rfl ?_ hi
  refine (Op.run_bind_ok (Op.run_get s)).trans ?_
  refine (Op.run_if_neg (mt (leaseBad_iff _).1 hb)).trans ?_
  rw [hs]
  rfl

/-- A request in slot k. -/
theorem exec_lease_queues (hb : ¬badRequest (xr s ra).toNat) (hs : freeSlot s (dieOf s.cur) (s.seq s.cur).ctx = some k)
    (hi : ready (.lease rd ra) s) :
    exec (.lease rd ra) s = .next (done (.lease rd ra) .next
      (·.setX rd (handleOf (dieOf s.cur) (requested s s.cur k (xr s ra))))
      (s.setLease (dieOf s.cur) (requested s s.cur k (xr s ra)))) := by
  refine exec_done (exec_lease ..) rfl ?_ hi
  refine (Op.run_bind_ok (Op.run_get s)).trans ?_
  refine (Op.run_if_neg (mt (leaseBad_iff _).1 hb)).trans ?_
  rw [hs]
  rfl

end Lease

/-! ## LFREE (09 R250) -/

section Lfree
variable {ra : Reg} {s : State}

/-- A dead handle. -/
theorem exec_lfree_dead (h : liveLease s (dieOf s.cur) (s.seq s.cur).ctx (xr s ra) = none) : goes (.lfree ra) .next s := by
  refine goes_of_body (exec_lfree ..) ?_
  refine (Op.run_bind_ok (Op.run_get s)).trans ?_
  change EStateM.run (match liveLease s (dieOf s.cur) (s.seq s.cur).ctx (xr s ra) with | some l => _ | none => _) s = _
  rw [h]
  rfl

/-- A live one. -/
theorem exec_lfree_live {l : Lease} (h : liveLease s (dieOf s.cur) (s.seq s.cur).ctx (xr s ra) = some l)
    (hi : ready (.lfree ra) s) :
    exec (.lfree ra) s = .next ((lfreeLease s (dieOf s.cur) l).modSeq s.cur fun q => q.retire (.lfree ra) .next) := by
  rw [exec_lfree, execLfree]
  refine issue_ok hi ?_
  refine (Op.run_bind_ok (Op.run_get s)).trans ?_
  change EStateM.run (match liveLease s (dieOf s.cur) (s.seq s.cur).ctx (xr s ra) with | some l => _ | none => _) s = _
  rw [h]
  rfl

end Lfree

/-- Work on a lease is outstanding: on its matrix engine, or an attention command (09 R235; log 59). -/
theorem outstanding_iff (s : State) (d : Nat) (l : Lease) : s.outstanding d l = true ↔
    l.kind = 0 ∧ (((s.die d).engine l.engine).queue ≠ [] ∨ ((s.die d).engine l.engine).task ≠ none) ∨ cmdsOn s d l GCmd.uses ≠ [] := by
  simp [State.outstanding, MEngine.busy, Option.isSome_iff_ne_none]

/-- LFREE frees a lease that has no engine yet or no more, and one without work outstanding. -/
theorem lfreeLease_frees {s : State} {d : Nat} {l : Lease}
    (h : l.st = .queued ∨ l.st = .waking ∨ l.st = .evicted ∨ (l.st = .held ∨ l.st = .parked) ∧ s.outstanding d l = false) :
    lfreeLease s d l = freeLease s d l.ctx l.slot := by
  unfold lfreeLease
  obtain h | h | h | ⟨h | h, hw⟩ := h <;> simp [*]

/-- With work outstanding it leaves the lease RELEASING. -/
theorem lfreeLease_releases {s : State} {d : Nat} {l : Lease} (h : l.st = .held ∨ l.st = .parked) (hw : s.outstanding d l = true) :
    lfreeLease s d l = s.setLease d { l with st := .releasing } := by
  unfold lfreeLease
  obtain h | h := h <;> simp [*]

theorem lfreeLease_releasing {s : State} {d : Nat} {l : Lease} (h : l.st = .releasing) : lfreeLease s d l = s := by
  unfold lfreeLease
  rw [h]

/-! ## LSTAT (09 R251) -/

/-- Outside record and replay an event delivers its live value. -/
theorem loggedValue_run {s : State} {n : Nat} (hl : logMode s (s.seq n).ctx = 0) (isn : BitVec 32) (kind : Nat) (v : Word) :
    (loggedValue n isn kind v).run s = .ok v s := by
  unfold loggedValue
  refine (Op.run_bind_ok (Op.run_get s)).trans ?_
  rw [hl]
  rfl

/-- Outside record and replay LSTAT answers the status that stands now. -/
theorem exec_lstat_status {rd ra : Reg} {s : State} (hl : logMode s (s.seq s.cur).ctx = 0) : puts (.lstat rd ra) rd
    (leaseStatus s (dieOf s.cur) ((liveLease s (dieOf s.cur) (s.seq s.cur).ctx (xr s ra)).map (Lease.aged s.now))) s := by
  refine fun hi => exec_done (exec_lstat ..) rfl ?_ hi
  refine (Op.run_bind_ok (Op.run_get s)).trans ?_
  exact Op.run_bind_ok (loggedValue_run hl ..)

/-- The status under a dead handle: the free units alone. -/
theorem leaseStatus_none (s : State) (d : Nat) : leaseStatus s d none = BitVec.ofNat 64 ((s.die d).unitsFree * 2 ^ 50) := rfl

/-- The level of a lease as it stands at a time (09 R237). -/
theorem Lease.aged_level (now : Nat) (l : Lease) : (l.aged now).level = levelAt now l := by
  unfold Lease.aged levelAt
  split <;> rfl

/-- Aging leaves the rest of what LSTAT shows. -/
theorem Lease.aged_rest (now : Nat) (l : Lease) : (l.aged now).st = l.st ∧ (l.aged now).engine = l.engine ∧ (l.aged now).kind = l.kind ∧
    (l.aged now).lost = l.lost := by
  unfold Lease.aged
  dsimp only
  split <;> exact ⟨rfl, rfl, rfl, rfl⟩

theorem leaseCode_eq (st : LeaseSt) : leaseCode st = stateCode st := by cases st <;> rfl

/-! ## LWAIT (09 R252) -/

/-- Whether LWAIT need not wait for a lease is a matter of the lease's state. -/
theorem lwaitDone_eq {s : State} {n : Nat} {h : Word} {l : Lease} (hl : liveLease s (dieOf n) (s.seq n).ctx h = some l) :
    lwaitDone s n h = !(l.st == .queued || l.st == .waking || l.st == .releasing) := by
  unfold lwaitDone
  rw [hl]
  dsimp only
  cases l.st <;> rfl

/-- A dead handle does not wait. -/
theorem lwaitDone_dead {s : State} {n : Nat} {h : Word} (hl : liveLease s (dieOf n) (s.seq n).ctx h = none) :
    lwaitDone s n h = true := by
  unfold lwaitDone
  rw [hl]

section Lwait
variable {ra : Reg} {s : State}

theorem exec_lwait_goes (h : lwaitDone s s.cur (xr s ra) = true) : goes (.lwait ra) .next s :=
  goes_of_body (exec_lwait ..) ((Op.run_bind_ok (Op.run_get s)).trans ((Op.run_if_pos h).trans rfl))

theorem exec_lwait_sleeps (h : lwaitDone s s.cur (xr s ra) = false) (hi : ready (.lwait ra) s) :
    exec (.lwait ra) s = .next (s.modSeq s.cur fun q => { q with sleep := some (.lwait ra) }) := by
  rw [exec_lwait, execLwait, issue_ok hi (c := .stay) (t := s.modSeq s.cur fun q => { q with sleep := some (.lwait ra) }),
    State.modSeq_modSeq]
  · rfl
  · refine (Op.run_bind_ok (Op.run_get s)).trans ?_
    exact (Op.run_if_neg (Bool.eq_false_iff.1 h)).trans rfl

/-- A sleeping LWAIT that need not wait any more. -/
theorem exec_lwaitComplete_wakes {n : Nat} (hz : s.pkg.frozen = false) (hs : (s.seq n).sleep = some (.lwait ra))
    (h : lwaitDone s n ((s.seq n).getX ra) = true) :
    exec (.lwaitComplete n) s = .next (s.modSeq n fun q => { q with sleep := none }.retire (.lwait ra) .next) := by
  rw [exec_lwaitComplete, execLwaitComplete, tryLwaitComplete, hs]
  dsimp only
  rw [wake_ok hz (t := s.modSeq n fun q => { q with sleep := none }.retire (.lwait ra) .next)]
  · rfl
  · refine (Op.run_bind_ok (Op.run_get s)).trans ?_
    refine (Op.run_bind_ok (Op.run_getSeq n s)).trans ?_
    exact (Op.run_if_pos h).trans rfl

end Lwait

end Sys2Proof.Machine

namespace Sys2Proof.Proofs
open Sys2Proof.Machine Sys2Proof.Claim

/-- Settles O42: the handle decides which lease an instruction finds, and its state what the instruction does. -/
theorem leaseInstructions : Obligations.LeaseInstructions := by
  unfold Obligations.LeaseInstructions
  intro rd ra s k q d w l live dead free hd hk
  have named (h : live) : liveLease s (dieOf s.cur) (s.seq s.cur).ctx (xr s ra) = some l := liveLease_of_names h.1 h.2
  have lost (h : dead) : liveLease s (dieOf s.cur) (s.seq s.cur).ctx (xr s ra) = none := liveLease_of_dead h
  refine ⟨exec_lease_bad, fun hb hfull => exec_lease_full hb (freeSlot_none hfull), fun hb hf hlow hi => ?_,
    fun hdead => ⟨exec_lfree_dead (lost hdead), exec_lwait_goes (lwaitDone_dead (lost hdead))⟩, fun hlive hi => ?_,
    fun hl hdead => ?_, fun hl hlive => ?_, fun hlive hst => ?_, fun hlive hst hi => ?_⟩
  · refine ⟨_, exec_lease_queues hb (freeSlot_eq hk hf hlow) hi, (State.modSeq_mem ..).trans (State.setLease_mem ..), ?_⟩
    intro m
    have queued : m = requested s s.cur k (xr s ra) := State.lease_setLease hd rfl rfl
    obtain ⟨hst, hkind, hpin, hengine, hgen, hlevel, hcap, hasked⟩ := requested_spec s s.cur k (xr s ra)
    rw [queued]
    refine ⟨hst, hkind, hpin, hengine, hgen, hlevel, hcap, hasked, ?_, fun r hr => ?_⟩
    · rw [done, State.setLease_cur, State.seq_modSeq, Seq.getX_congr (Seq.retire_x ..)]
      split
      · next h0 => rw [h0, Seq.getX_zero]
      · next h0 => exact Seq.getX_setX_same _ _ _ h0
    · rw [done, State.setLease_cur, State.seq_modSeq]
      exact Seq.getX_of_x (Seq.retire_x ..) hr
  · refine ⟨_, exec_lfree_live (named hlive) hi, ?_⟩
    intro m e work
    have hwork : s.outstanding d l = true ↔ work := outstanding_iff s d l
    have freed : m = (lfreeLease s d l).lease d q.ctx k := rfl
    refine ⟨fun hfrees => ?_, fun hst hw => ?_, fun hst => ?_⟩
    · rw [lfreeLease_frees (by rwa [← Bool.not_eq_true, hwork]), State.lease_ctx, State.lease_slot, freeLease_lease hd hlive.2] at freed
      rw [freed]
      exact ⟨rfl, rfl⟩
    · rw [freed, lfreeLease_releases hst (hwork.2 hw)]
      exact State.lease_setLease hd (State.lease_ctx ..) (State.lease_slot ..)
    · rw [freed, lfreeLease_releasing hst]
  · have status := exec_lstat_status (rd := rd) (ra := ra) hl
    rwa [lost hdead, Option.map_none, leaseStatus_none] at status
  · have status := exec_lstat_status (rd := rd) (ra := ra) hl
    rw [named hlive, Option.map_some] at status
    obtain ⟨hst, hengine, hkind, hlost⟩ := Lease.aged_rest s.now l
    unfold leaseStatus at status
    dsimp only at status
    rw [hst, hengine, hkind, hlost, Lease.aged_level, leaseCode_eq] at status
    revert status
    generalize l.st = st, l.lost = lost
    cases st with
    | evicted => cases lost <;> exact id
    | _ => exact id
  · have goes_on : lwaitDone s s.cur (xr s ra) = true := by
      rw [lwaitDone_eq (named hlive)]
      obtain h | h | h := hst <;> rw [h] <;> rfl
    exact ⟨exec_lwait_goes goes_on, fun hz hs => exec_lwaitComplete_wakes hz hs goes_on⟩
  · refine exec_lwait_sleeps ?_ hi
    rw [lwaitDone_eq (named hlive)]
    obtain h | h | h := hst <;> rw [h] <;> rfl

end Sys2Proof.Proofs
end

section
/-!
SUPPORT. The moves of a die's leases (09 R237 to R245): what each does once it is enabled.
-/
namespace Sys2Proof.Machine
open Sys2Proof.Claim

/-! ## What keeps the leases of every die -/

/-- No table of leases differs between two states. -/
structure SameLeases (s t : State) : Prop where
  leases : ∀ d, (t.die d).leases = (s.die d).leases

theorem SameLeases.refl (s : State) : SameLeases s s := ⟨fun _ => rfl⟩

theorem SameLeases.trans {s t u : State} (h : SameLeases s t) (h' : SameLeases t u) : SameLeases s u :=
  ⟨fun d => (h'.leases d).trans (h.leases d)⟩

theorem SameLeases.of_dies {s t : State} (h : t.dies = s.dies) : SameLeases s t := ⟨fun d => by
  rw [State.die, h]
  rfl⟩

theorem SameLeases.lease {s t : State} (h : SameLeases s t) (d c k : Nat) : t.lease d c k = s.lease d c k :=
  State.lease_congr (h.leases d) c k

theorem sameLeases_modDie {f : Die → Die} (hf : ∀ x, (f x).leases = x.leases) (s : State) (d : Nat) : SameLeases s (s.modDie d f) :=
  ⟨State.part_modDie Die.leases hf s d⟩

theorem sameLeases_poke (s : State) (key : Nat) (bs : List Byte) : SameLeases s (s.poke key bs) := .of_dies (State.poke_dies ..)

theorem sameLeases_setEntryBits (s : State) (key : Nat) (bits : Word) : SameLeases s (setEntryBits s key bits) :=
  ⟨fun d => congrArg Die.leases (setEntryBits_die s key bits d)⟩

theorem sameLeases_countCorrected (s : State) (key : Nat) : SameLeases s (countCorrected s key) := by
  refine sameLeases_modDie ?_ s _
  intro x
  split <;> rfl

theorem sameLeases_countWords (s : State) (ks : List Nat) : SameLeases s (countWords s ks) := by
  have counted (u : State) : SameLeases u (ks.foldl (fun s k => if s.softOf k = 1 then countCorrected s k else s) u) := by
    induction ks generalizing u with
    | nil => exact .refl u
    | cons k r ih =>
      refine SameLeases.trans ?_ (ih _)
      dsimp only
      split
      · exact sameLeases_countCorrected ..
      · exact .refl u
  unfold countWords
  split
  · exact .refl s
  · exact counted s

theorem tlbInstall_leases (x : Die) (pl : Place) (va : Nat) (t : TlbEntry) : (tlbInstall x pl va t).leases = x.leases := by
  unfold tlbInstall
  cases pl <;> rfl

theorem sameLeases_tlbInstall (s : State) (d : Nat) (pl : Place) (va : Nat) (t : TlbEntry) :
    SameLeases s (s.modDie d (tlbInstall · pl va t)) := by
  refine sameLeases_modDie ?_ s d
  exact fun x => tlbInstall_leases x pl va t

theorem sameLeases_dirty (s : State) (d : Nat) (p : Phys) : SameLeases s (s.dirty d p) := by
  unfold State.dirty
  split
  · exact .refl s
  · refine (sameLeases_setEntryBits ..).trans (sameLeases_modDie ?_ _ d)
    exact fun _ => rfl

/-- The state that a search for a leaf leaves. -/
def leafState : Except (Xl × State) (State × Word × Nat × Nat) → State
  | .ok r => r.1
  | .error e => e.2

/-- A walk sets A, counts corrected words and installs a translation. -/
theorem sameLeases_findLeaf (s : State) (d : Nat) (root : Word) (va : Nat) (expired : Bool) (pl : Place) :
    SameLeases s (leafState (findLeaf s d root va expired pl)) := by
  unfold findLeaf
  dsimp only
  cases cacheHit (s.die d) pl (fld root 0 12) va with
  | some t =>
    dsimp only [leafState]
    split
    · exact .refl s
    · exact sameLeases_tlbInstall ..
  | none =>
    dsimp only
    cases (walk s.mem root va).path.find? fun k => s.softOf k > 1 || s.wayTo d k != .clear with
    | some k => exact .refl s
    | none =>
      dsimp only
      have counted := sameLeases_countWords s (walk s.mem root va).path
      split_ifs
      · exact counted
      · exact counted
      · exact (counted.trans (sameLeases_setEntryBits ..)).trans (sameLeases_tlbInstall ..)

theorem sameLeases_xlate (s : State) (d c va : Nat) (acc : Access) (expired : Bool) (pl : Place) :
    SameLeases s (xlate s d c va acc expired pl).2 := by
  have leaf := sameLeases_findLeaf s d (s.ctx c).cptbase va expired pl
  unfold xlate xlateRoot
  split
  · exact .refl s
  · cases h : findLeaf s d (s.ctx c).cptbase va expired pl with
    | error e =>
      rw [h] at leaf
      exact leaf
    | ok r =>
      rw [h] at leaf
      dsimp only
      split_ifs <;> exact leaf

theorem sameLeases_farKey {s t : State} {d c va : Nat} {acc : Access} {expired : Bool} {p : Phys}
    (h : farKey s d c va acc expired = .at_ p t) : SameLeases s t := by
  have reached := sameLeases_xlate s d c va acc expired none
  unfold farKey at h
  cases hx : xlate s d c va acc expired with
  | mk x u =>
    rw [hx] at h reached
    cases x with
    | ok p =>
      dsimp only at h
      split at h
      · cases h
      · cases hw : u.wayTo d p.key with
        | clear =>
          rw [hw] at h
          cases h
          exact reached
        | held | fails | refused => rw [hw] at h; cases h
    | _ => cases h

/-- An entry of a sump is words of memory. -/
theorem sameLeases_sumpPut {s t : State} {c d : Nat} {ws : List Word} {expired : Bool} (h : sumpPut s c d ws expired = some t) :
    SameLeases s t := by
  unfold sumpPut at h
  dsimp only at h
  split at h
  · cases h
    exact .refl s
  · cases hf : farKey s d c (fld (s.ctx c).csump 12 36 * 4096) .atomic expired with
    | none =>
      rw [hf] at h
      cases h
      exact .refl s
    | waits =>
      rw [hf] at h
      cases h
    | at_ p u =>
      have header := sameLeases_farKey hf
      rw [hf] at h
      dsimp only at h
      split at h
      · cases h
        exact header
      · have counted := header.trans ((sameLeases_countWords u [p.key, p.key + 8, p.key + 16]).trans (sameLeases_dirty _ d p))
        have lost := fun bs => counted.trans (sameLeases_poke _ (p.key + 16) bs)
        split at h
        · split at h
          · cases h
            exact lost _
          · cases h
          · next _ k _ hk =>
            cases h
            refine (counted.trans (sameLeases_farKey hk)).trans ((sameLeases_dirty _ d k).trans ?_)
            exact (sameLeases_poke ..).trans (sameLeases_poke ..)
        · cases h
          exact lost _

theorem sameLeases_sumpWrite (s : State) (c : Nat) (r : SumpRec) : SameLeases s (sumpWrite s c r) := by
  unfold sumpWrite
  dsimp only
  split
  · exact .of_dies rfl
  · cases h : sumpPut s c r.die (r.words s.pkg.tick) false with
    | none => exact .of_dies rfl
    | some t => exact sameLeases_sumpPut h

/-! ## Which engine the die would grant (09 R238) -/

/-- The units of a request are free, and so is the engine that it names. -/
theorem grantTo_pinned {x : Die} {l : Lease} (hu : unitsOf l.kind ≤ x.unitsFree) (hp : l.pin = true)
    (hl : x.leased l.kind l.engine = false) : x.grantTo l = some l.engine := by
  rw [Die.grantTo, if_neg (Nat.not_lt.2 hu), if_pos hp, hl]
  rfl

/-- The units of a request are free; it names no engine, and e is the lowest free one. -/
theorem grantTo_lowest {x : Die} {l : Lease} {e : Nat} (hu : unitsOf l.kind ≤ x.unitsFree) (hp : l.pin = false)
    (he : e < enginesOf l.kind) (hl : x.leased l.kind e = false) (hb : ∀ j, j < e → x.leased l.kind j = true) :
    x.grantTo l = some e := by
  rw [Die.grantTo, if_neg (Nat.not_lt.2 hu), hp, if_neg Bool.false_ne_true, List.find?_range_eq_some]
  exact ⟨by rw [hl]; rfl, List.mem_range.2 he, fun j hj => by simpa using hb j hj⟩

/-! ## Victims (09 R241, R242) -/

theorem mem_insertVictim {v l : Lease} {r : List Lease} (h : v ∈ insertVictim l r) : v = l ∨ v ∈ r := by
  induction r with
  | nil => exact .inl (List.mem_singleton.1 h)
  | cons a r ih =>
    unfold insertVictim at h
    split at h
    · exact List.mem_cons.1 h
    · obtain rfl | h := List.mem_cons.1 h
      · exact .inr List.mem_cons_self
      · exact (ih h).imp_right (List.mem_cons_of_mem a)

/-- Putting leases into order adds none. -/
theorem mem_victimOrder {v : Lease} {ls : List Lease} (h : v ∈ victimOrder ls) : v ∈ ls := by
  induction ls with
  | nil => exact h
  | cons a r ih =>
    obtain rfl | h := mem_insertVictim h
    · exact List.mem_cons_self
    · exact List.mem_cons_of_mem a (ih h)

theorem mem_takeUnits {v : Lease} {need : Nat} {ls : List Lease} (h : v ∈ takeUnits need ls) : v ∈ ls := by
  induction ls generalizing need with
  | nil => exact h
  | cons a r ih =>
    unfold takeUnits at h
    split at h
    · cases h
    · obtain rfl | h := List.mem_cons.1 h
      · exact List.mem_cons_self
      · exact List.mem_cons_of_mem a (ih h)

/-- Every victim is eligible for the head: one of the leases in the order of victims, or that on the head's engine. -/
theorem eligible_of_victim {x : Die} {now : Nat} {v : Lease} (hv : v ∈ x.victims now) :
    ∃ h, x.head now = some h ∧ eligible now h.level v = true := by
  unfold Die.victims at hv
  cases hh : x.head now with
  | none =>
    rw [hh] at hv
    cases hv
  | some h =>
    rw [hh] at hv
    refine ⟨h, rfl, ?_⟩
    have ordered {u : Lease} (hu : u ∈ victimOrder (x.leases.filter (eligible now h.level))) : eligible now h.level u = true :=
      (List.mem_filter.1 (mem_victimOrder hu)).2
    dsimp only at hv
    split at hv
    · cases hv
    · split at hv
      · next p _ =>
        by_cases hev : p.evicting = true
        · simp only [hev, Bool.not_true, Bool.false_and, Bool.false_eq_true, if_false, if_true, List.nil_append] at hv
          split at hv
          · exact ordered (List.mem_filter.1 (mem_takeUnits hv)).1
          · cases hv
        · simp only [hev, Bool.not_false, Bool.true_and, Bool.false_eq_true, if_false] at hv
          split at hv
          · cases hv
          · next able =>
            split at hv
            · obtain rfl | hrest := List.mem_cons.1 hv
              · simpa using able
              · exact ordered (List.mem_filter.1 (mem_takeUnits hrest)).1
            · cases hv
      · split at hv
        · exact ordered (mem_takeUnits hv)
        · cases hv

theorem eligible_iff (now level : Nat) (v : Lease) : eligible now level v = true ↔
    (((v.st = .held ∨ v.st = .parked) ∧ v.evicting = false) ∧ v.level < level) ∧ 5000 ≤ now - v.granted := by
  simp [eligible]

/-! ## The log and the context of an eviction (09 R245; log 95) -/

/-- The sequencers of a table that bears each number once read as they stand in it. -/
theorem State.seq_of_mem {s : State} (hn : (s.seqs.map Prod.fst).Nodup) {p : Nat × Seq} (hp : p ∈ s.seqs) : s.seq p.1 = p.2 := by
  unfold State.seq
  suffices ∀ l : List (Nat × Seq), (l.map Prod.fst).Nodup → p ∈ l → smapGet p.1 l = some p.2 by rw [this _ hn hp, Option.getD_some]
  intro l hl h
  induction l with
  | nil => cases h
  | cons a r ih =>
    rw [List.map_cons, List.nodup_cons] at hl
    unfold smapGet
    obtain rfl | hr := List.mem_cons.1 h
    · exact if_pos rfl
    · rw [if_neg fun ha => hl.1 (List.mem_map.2 ⟨p, hr, ha.symm⟩)]
      exact ih hl.2 hr

/-- There, the sequencer whose number an eviction's log entry carries is one of the lease's context. -/
theorem evictSeq_ctx {s : State} (hn : (s.seqs.map Prod.fst).Nodup) {d n : Nat} {l : Lease} (h : evictSeq s d l = some n) :
    (s.seq n).ctx = l.ctx := by
  have thread {p : Nat × Seq} (hp : p ∈ s.threads l.ctx) : (s.seq p.1).ctx = l.ctx := by
    obtain ⟨hmem, hctx⟩ := List.mem_filter.1 hp
    rw [State.seq_of_mem hn hmem]
    exact eq_of_beq (Bool.and_eq_true_iff.1 hctx).1
  have any (h : ((((s.threads l.ctx).find? fun p => dieOf p.1 == d).orElse fun _ => (s.threads l.ctx).head?).map (·.1)) = some n) :
      (s.seq n).ctx = l.ctx := by
    obtain ⟨p, hp, rfl⟩ := Option.map_eq_some_iff.1 h
    cases hf : (s.threads l.ctx).find? fun p => dieOf p.1 == d with
    | some r =>
      rw [hf] at hp
      cases hp
      exact thread (List.mem_of_find?_eq_some hf)
    | none =>
      rw [hf] at hp
      exact thread (List.mem_of_head? hp)
  unfold evictSeq at h
  dsimp only at h
  split at h
  · split at h
    · next able =>
      cases h
      exact of_decide_eq_true (Bool.and_eq_true_iff.1 able).1
    · exact any h
  · exact any h

/-- Outside record and replay an eviction is not logged. -/
theorem evictLog_run {s : State} {n : Nat} (hl : logMode s (s.seq n).ctx = 0) (d : Nat) (l : Lease) :
    (evictLog n d l).run s = .ok () s := by
  unfold evictLog
  refine (Op.run_bind_ok (Op.run_get s)).trans ?_
  dsimp only
  rw [hl]
  rfl

theorem evictLogAway_run {s : State} {l : Lease} (hl : logMode s l.ctx = 0) (d : Nat) : (evictLogAway d l).run s = .ok () s := by
  unfold evictLogAway
  refine (Op.run_bind_ok (Op.run_get s)).trans ?_
  exact (Op.run_if_neg (by rw [hl]; decide)).trans rfl

/-- An engine in no DRAIN pass and no query block is at an interruptible step (09 R243). -/
theorem atStep_of_idle {s : State} {d : Nat} {l : Lease} (hm : l.kind = 0 → ((s.die d).engine l.engine).draining = false)
    (ha : l.kind ≠ 0 → ∀ m, m ∈ cmdsOn s d l GCmd.path → m.midBlock = false) : atStep s d l = true := by
  unfold atStep
  split
  · next h => rw [hm h]; rfl
  · next h => simpa using ha h

/-- An evicted lease is EVICTED, a RELEASING one FREE. -/
theorem evictLease_st {s : State} {d : Nat} (hd : d < 16) (c k : Nat) : ((evictLease s d c k).lease d c k).st =
    if (s.lease d c k).st = .releasing then .free else .evicted := by
  have sumped (u : State) (r : SumpRec) : (sumpWrite u c r).lease d c k = u.lease d c k := (sameLeases_sumpWrite ..).lease d c k
  unfold evictLease
  dsimp only
  rw [sumped]
  by_cases h : (s.lease d c k).st = .releasing
  · rw [if_pos h, if_pos h, State.lease_setLease hd] <;> rfl
  · rw [if_neg h, if_neg h, State.lease_setLease hd]
    · exact State.lease_ctx ..
    · exact State.lease_slot ..

/-! ## The engine of a lease that wakes (09 R240) -/

/-- The engine of a lease, cleared: an attention engine keeps nothing that is not its command's. -/
def cleared (s : State) (d : Nat) (l : Lease) : State :=
  if l.kind = 0 then s.modDie d fun x => x.setEngine ⟨l.engine, [], [], none⟩ else s

theorem cleared_runs (s : State) (d : Nat) (l : Lease) (c : Nat) : (cleared s d l).runs c = s.runs c := by
  unfold cleared
  split <;> rfl

theorem cleared_mem (s : State) (d : Nat) (l : Lease) : (cleared s d l).mem = s.mem := by
  unfold cleared
  split <;> rfl

/-- An engine just put into a die is read back. -/
theorem Die.engine_setEngine (x : Die) (e : MEngine) : (x.setEngine e).engine e.idx = e :=
  congrArg (Option.getD · _) (find?_put (by simp) x.engines)

theorem cleared_engine {s : State} {d : Nat} {l : Lease} (hd : d < 16) (h : l.kind = 0) :
    ((cleared s d l).die d).engine l.engine = ⟨l.engine, [], [], none⟩ := by
  rw [cleared, if_pos h, State.die_modDie_same _ _ _ hd]
  exact Die.engine_setEngine _ ⟨l.engine, [], [], none⟩

/-! ## The moves -/

section Move
variable {s : State} {d c k : Nat} (hz : s.pkg.frozen = false) (hd : d < 16)
include hz hd

theorem moves_enabled : ¬((s.pkg.frozen || decide (d ≥ 16)) = true) := by
  simp [hz, hd]

/-- The head is granted the engine that the die would grant it (09 R238). -/
theorem exec_leaseGrant_head {h : Lease} {e : Nat} (hh : (s.die d).head s.now = some h) (he : (s.die d).grantTo h = some e) :
    exec (.leaseGrant d) s = .next (s.setLease d { h with st := .waking, engine := e, granted := s.now }) := by
  rw [exec_leaseGrant, execLeaseGrant, tryLeaseGrant, if_neg (moves_enabled hz hd), hh]
  dsimp only
  rw [he]
  rfl

theorem exec_leaseAging_rises (hst : (s.lease d c k).st = .queued)
    (ht : (s.lease d c k).asked + ((s.lease d c k).raised + 1) * 100000 ≤ s.now) (hl : (s.lease d c k).level < (s.lease d c k).cap) :
    exec (.leaseAging d c k) s = .next (s.setLease d
      { s.lease d c k with raised := (s.lease d c k).raised + 1, level := (s.lease d c k).level + 1 }) := by
  rw [exec_leaseAging, execLeaseAging, tryLeaseAging, if_neg]
  · rfl
  · simp [hz, hd, hst, ht, hl]

/-- An engine whose lease was freed as it woke is powered down (09 R235). -/
theorem exec_wakeComplete_freed {g : Lease} (hg : (s.die d).ghosts = [g]) (hc : g.ctx = c) (hk : g.slot = k) :
    exec (.wakeComplete d c k) s = .next (s.modDie d fun x => { x with ghosts := [] }) := by
  subst hc hk
  rw [exec_wakeComplete, execWakeComplete, tryWakeComplete, if_neg (moves_enabled hz hd), if_pos (by simp [hg])]
  simp [State.modDie, hg]

/-- An engine wakes, cleared (09 R239, R240). -/
theorem exec_wakeComplete_wakes (hst : (s.lease d c k).st = .waking) (hev : (s.lease d c k).evicting = false)
    (hg : ∀ g, g ∈ (s.die d).ghosts → ¬(g.ctx = c ∧ g.slot = k)) : exec (.wakeComplete d c k) s =
      .next ((cleared s d (s.lease d c k)).setLease d { s.lease d c k with st := if s.runs c then .held else .parked }) := by
  have noGhost : ¬((s.die d).ghosts.any fun g => g.ctx == c && g.slot == k) = true := by simpa using hg
  rw [exec_wakeComplete, execWakeComplete, tryWakeComplete, if_neg (moves_enabled hz hd), if_neg noGhost, if_neg (by simp [hst, hev]),
    ← cleared_runs s d (s.lease d c k)]
  rfl

/-- The one victim is marked (09 R241). -/
theorem exec_evictionDecided_one {v : Lease} (hv : (s.die d).victims s.now = [v]) :
    exec (.evictionDecided d) s = .next (s.setLease d { v with evicting := true }) := by
  rw [exec_evictionDecided, execEvictionDecided, tryEvictionDecided, if_neg (moves_enabled hz hd), hv]
  rfl

/-- The one lease that may go for the budget is marked (09 R244). -/
theorem exec_budgetEviction_one {v : Lease} (hb : (s.die d).budget < (s.die d).unitsUsed - (s.die d).pendingUnits)
    (hv : ((s.die d).leases.filter fun l => (l.st == .held || l.st == .parked || l.st == .waking) && !l.evicting) = [v]) :
    exec (.budgetEviction d) s = .next (s.setLease d { v with evicting := true }) := by
  have need : (s.die d).unitsUsed - (s.die d).pendingUnits - (s.die d).budget ≠ 0 := Nat.sub_ne_zero_of_lt hb
  rw [exec_budgetEviction, execBudgetEviction, tryBudgetEviction, if_neg (by simp [hz, hd]; omega), hv]
  change occurs (match takeUnits _ [v] with | [] => none | vs => _) s = _
  rw [takeUnits, if_neg need]
  rfl

/-- A RELEASING lease whose work is done goes FREE (09 R235). -/
theorem exec_leaseReleaseComplete_frees (hst : (s.lease d c k).st = .releasing) (hw : s.outstanding d (s.lease d c k) = false) :
    exec (.leaseReleaseComplete d c k) s = .next (freeLease s d c k) := by
  rw [exec_leaseReleaseComplete, execLeaseReleaseComplete, tryLeaseReleaseComplete, if_neg]
  · rfl
  · simp [hz, hd, hst, hw]

/-- A decided eviction takes effect at an interruptible step of the engine, where each sequencer has a number of its own and the
lease's context has no log (09 R243). -/
theorem exec_evictionEffect_evicts (hn : (s.seqs.map Prod.fst).Nodup)
    (hst : (s.lease d c k).st = .waking ∨ (s.lease d c k).st = .held ∨ (s.lease d c k).st = .parked ∨ (s.lease d c k).st = .releasing)
    (hev : (s.lease d c k).evicting = true) (hl : logMode s c = 0) (hs : atStep s d (s.lease d c k) = true) :
    exec (.evictionEffect d c k) s = .next (evictLease s d c k) := by
  have here : (s.lease d c k).ctx = c := State.lease_ctx ..
  rw [exec_evictionEffect, execEvictionEffect, tryEvictionEffect, if_neg]
  · cases hq : evictSeq s d (s.lease d c k) with
    | none =>
      dsimp only
      rw [evictLogAway_run (by rw [here, hl])]
      rfl
    | some n =>
      dsimp only
      rw [evictLog_run (by rw [evictSeq_ctx hn hq, here, hl])]
      rfl
  · obtain h | h | h | h := hst <;> simp [hz, hd, h, hev, hs]

end Move

end Sys2Proof.Machine
end

section
/-!
SUPPORT. A state in which two entries of the table of sequencers bear one number, as nothing in `State` forbids: number 0 reads as the
first, whose context 8 records its log, and the second holds a thread of context 7, whose lease is being evicted. The page of context 8's
log is migrating.
-/
namespace Sys2Proof.Machine
open Sys2Proof.Claim

namespace TwoHolders

/-- A sequencer that runs a thread of a context. -/
def holder (c : Nat) : Seq := { Seq.reset with mode := .run, ctx := c }

/-- A HELD lease of context 7 on matrix engine 0, whose eviction has been decided. -/
def lease : Lease := { Lease.free 7 0 0 with st := .held, evicting := true }

/-- Context 8 is in record mode; the entry of its root table for address 0 has MIG set. -/
def machine : State :=
  { (State.resetWith []).modDie 0 fun d => { d with leases := [lease] } with
    seqs := [(0, holder 8), (0, holder 7)], ctxs := [{ Ctx.none with id := 8, cdet := 1 }], mem := ⟨[(7, 4)], rfl⟩ }

/-- The lease meets the statement's hypotheses: context 7 has no log, and engine 0 is idle. -/
theorem evictable : machine.pkg.frozen = false ∧ machine.lease 0 7 0 = lease ∧ logMode machine 7 = 0 ∧
    ((machine.die 0).engine lease.engine).draining = false := by decide

/-- The eviction is logged by sequencer 0, in the log of context 8, and waits for its page. -/
theorem eviction_waits : tryEvictionEffect 0 7 0 machine = none := by
  have waits : (tryEvictionEffect 0 7 0 machine).isNone = true := by decide
  exact Option.isNone_iff_eq_none.1 waits

end TwoHolders

end Sys2Proof.Machine

namespace Sys2Proof.Proofs
open Sys2Proof.Machine Sys2Proof.Claim

/-- Refutes O43 in its clause of EVICTION_EFFECT, which asks of the log of the lease's context alone: the eviction is logged in that of
the context that the number of a holder's sequencer reads as, and where two entries of the table of sequencers bear that number this is
another context, whose log may keep the eviction waiting. -/
theorem not_leaseMoves : ¬ Obligations.LeaseMoves := by
  unfold Obligations.LeaseMoves
  intro h
  obtain ⟨running, found, noLog, idle⟩ := TwoHolders.evictable
  obtain ⟨-, -, -, -, -, -, eviction, -⟩ := h TwoHolders.machine 0 7 0 (by decide) running
  rw [found] at eviction
  obtain ⟨effect, evicted⟩ := eviction (.inr (.inl rfl)) rfl noLog (fun _ => idle) (absurd rfl)
  rw [exec_evictionEffect, execEvictionEffect, TwoHolders.eviction_waits, occurs_none] at effect
  rw [← Host.Outcome.next.inj effect, found] at evicted
  cases evicted

/-- O43's statement holds in every state whose table of sequencers bears each number once (09 R237 to R245). -/
theorem leaseMoves_of_distinct {s : State} (hn : (s.seqs.map Prod.fst).Nodup) (d c k : Nat) :
    let x := s.die d
    let l := s.lease d c k
    d < 16 → s.pkg.frozen = false →
      (∀ h, x.head s.now = some h → (if h.kind = 0 then 3 else 2) ≤ x.unitsFree →
        let granted := fun (e : Nat) => exec (.leaseGrant d) s =
          .next (s.setLease d { h with st := .waking, engine := e, granted := s.now })
        (h.pin = true → x.leased h.kind h.engine = false → granted h.engine) ∧
        (h.pin = false → ∀ e, e < (if h.kind = 0 then 16 else 8) → x.leased h.kind e = false →
          (∀ j, j < e → x.leased h.kind j = true) → granted e)) ∧
      (l.st = .queued → l.asked + (l.raised + 1) * 100000 ≤ s.now → l.level < l.cap →
        exec (.leaseAging d c k) s = .next (s.setLease d { l with raised := l.raised + 1, level := l.level + 1 })) ∧
      (∀ g, x.ghosts = [g] → g.ctx = c → g.slot = k →
        exec (.wakeComplete d c k) s = .next (s.modDie d fun x => { x with ghosts := [] })) ∧
      (l.st = .waking → l.evicting = false → (∀ g, g ∈ x.ghosts → ¬(g.ctx = c ∧ g.slot = k)) →
        ∃ t, exec (.wakeComplete d c k) s = .next t ∧ t.mem = s.mem ∧
          t.lease d c k = { l with st := if s.runs c then .held else .parked } ∧
          (l.kind = 0 → (t.die d).engine l.engine = ⟨l.engine, [], [], none⟩)) ∧
      (∀ v, v ∈ x.victims s.now → (v.st = .held ∨ v.st = .parked) ∧ 5000 ≤ s.now - v.granted ∧
        ∃ h, x.head s.now = some h ∧ v.level < h.level) ∧
      (∀ v, x.victims s.now = [v] → exec (.evictionDecided d) s = .next (s.setLease d { v with evicting := true })) ∧
      (l.st = .waking ∨ l.st = .held ∨ l.st = .parked ∨ l.st = .releasing → l.evicting = true → logMode s c = 0 →
        (l.kind = 0 → (x.engine l.engine).draining = false) →
        (l.kind ≠ 0 → ∀ m, m ∈ cmdsOn s d l GCmd.path → m.midBlock = false) →
          exec (.evictionEffect d c k) s = .next (evictLease s d c k) ∧
          ((evictLease s d c k).lease d c k).st = (if l.st = .releasing then .free else .evicted)) ∧
      (∀ v, x.budget < x.unitsUsed - x.pendingUnits →
        (x.leases.filter fun l => (l.st == .held || l.st == .parked || l.st == .waking) && !l.evicting) = [v] →
          exec (.budgetEviction d) s = .next (s.setLease d { v with evicting := true })) ∧
      (l.st = .releasing → (l.kind ≠ 0 ∨ (x.engine l.engine).busy = false) → cmdsOn s d l GCmd.uses = [] → ∃ t,
        exec (.leaseReleaseComplete d c k) s = .next t ∧ (t.lease d c k).st = .free ∧ (t.lease d c k).gen = l.gen + 1) := by
  intro x l hd hz
  refine ⟨fun h hh hu => ⟨fun hp hl => exec_leaseGrant_head hz hd hh (grantTo_pinned hu hp hl),
      fun hp e he hl hb => exec_leaseGrant_head hz hd hh (grantTo_lowest hu hp he hl hb)⟩,
    exec_leaseAging_rises hz hd, fun g => exec_wakeComplete_freed hz hd, fun hst hev hg => ?_, fun v hv => ?_,
    fun v => exec_evictionDecided_one hz hd, fun hst hev hl hdrain hblock => ?_, fun v => exec_budgetEviction_one hz hd,
    fun hst hwork hcmds => ?_⟩
  · refine ⟨_, exec_wakeComplete_wakes hz hd hst hev hg, (State.setLease_mem ..).trans (cleared_mem ..),
      State.lease_setLease hd (State.lease_ctx ..) (State.lease_slot ..), fun hk => ?_⟩
    rw [State.setLease, State.die_modDie_same _ _ _ hd]
    exact cleared_engine hd hk
  · obtain ⟨h, hh, he⟩ := eligible_of_victim hv
    obtain ⟨⟨⟨hst, -⟩, hlevel⟩, hage⟩ := (eligible_iff ..).1 he
    exact ⟨hst, hage, h, hh, hlevel⟩
  · exact ⟨exec_evictionEffect_evicts hz hd hn hst hev hl (atStep_of_idle hdrain hblock), evictLease_st hd c k⟩
  · have idle : s.outstanding d l = false := by
      rw [State.outstanding, hcmds]
      obtain hkind | hbusy := hwork
      · simp [hkind]
      · simp [l, x, hbusy]
    have live : l.st ≠ .free := by
      rw [hst]
      nofun
    refine ⟨_, exec_leaseReleaseComplete_frees hz hd hst idle, ?_⟩
    rw [freeLease_lease hd live]
    exact ⟨rfl, rfl⟩

end Sys2Proof.Proofs
end

section
/-!
SUPPORT. MOVTD, RDTD and the tile instructions at issue (10 R254, R257, R260 to R273; 09 R246).
-/
namespace Sys2Proof.Machine
open Sys2Proof.Claim

/-! ## Tile descriptors (10 R254, R257) -/

/-- The bits that a descriptor holds of a field (10 R254). -/
def tdWidth : TdField → Nat
  | .base | .base2 => 48
  | .rows | .cols => 16
  | .etype => 9
  | _ => 32

/-- The low bits of a word, as a number. -/
theorem fld_low (v : Word) (n : Nat) : fld v 0 n = v.toNat % 2 ^ n := by
  rw [fld, bitsAt, pow_zero, Nat.div_one]

/-- A field that has been written holds the low bits of the word. -/
theorem TileDesc.get_put_same (t : TileDesc) (f : TdField) (v : Word) : (t.put f v).get f = v.toNat % 2 ^ tdWidth f := by
  cases f <;> exact fld_low v _

/-- Every other field is as before. -/
theorem TileDesc.get_put_other (t : TileDesc) {f g : TdField} (v : Word) (h : g ≠ f) : (t.put f v).get g = t.get g := by
  cases f <;> cases g
  case base.base | base2.base2 | rows.rows | cols.cols | etype.etype | stride.stride | orow.orow | ocol.ocol | gwidth.gwidth
    | stream.stream => exact absurd rfl h
  all_goals rfl

/-! ## Instructions that change no register -/

/-- An instruction that passes the gate, whose body completes and leaves the turn. -/
theorem exec_completes {i : Instr} {body : Nat → Op Ctl} {s t : State} {c : Ctl} (he : exec i s = issue i body s)
    (hb : (body s.cur).run s = .ok c t) (hc : t.cur = s.cur) (hi : ready i s) : exec i s = .next (done i c id t) := by
  rw [he, issue_ok hi hb, done, hc]
  rfl

/-! ## The lease of a tile instruction (09 R239, R246; 10 R260) -/

section Handle
variable {s : State} {n : Nat} {h : Word} {l : Lease}

/-- LEASELOST with the handle. -/
theorem trapWith_handle {α : Type} (h : Word) (s : State) :
    (trapWith 0x0C h.toNat h.toNat : Op α).run s = .error (.trap ⟨0x0C, h, h⟩) s := by
  rw [Op.run_trapWith, toWord, BitVec.ofNat_toNat, BitVec.setWidth_eq]

/-- A handle that is dead, or whose lease is no matrix lease that has been asked for or granted, raises LEASELOST. -/
theorem tileLease_lost (hl : ∀ l, liveLease s (dieOf n) (s.seq n).ctx h = some l →
      fld h 24 2 ≠ 0 ∨ l.kind ≠ 0 ∨ l.st = .releasing ∨ l.st = .evicted ∨ l.evicting = true) :
    (tileLease n h).run s = .error (.trap ⟨0x0C, h, h⟩) s := by
  have lost : (namedLease 0 n h).run s = .error (.trap ⟨0x0C, h, h⟩) s := by
    unfold namedLease
    refine (Op.run_bind_ok (Op.run_get s)).trans ?_
    cases hv : liveLease s (dieOf n) (s.seq n).ctx h with
    | none => exact trapWith_handle h s
    | some l =>
      dsimp only
      by_cases hk : (fld h 24 2 != 0 || l.kind != 0 || l.evicting) = true
      · exact (Op.run_if_pos hk).trans (trapWith_handle h s)
      · refine (Op.run_if_neg hk).trans ?_
        have state : l.st = .releasing ∨ l.st = .evicted := by
          simp only [Bool.or_eq_true, bne_iff_ne, not_or] at hk
          have := hl l hv
          tauto
        obtain hst | hst := state
        · rw [hst]
          exact trapWith_handle h s
        · rw [hst]
          exact trapWith_handle h s
  unfold tileLease engineLease
  exact Op.run_bind_error lost

/-- A HELD or PARKED matrix lease whose eviction has not been decided. -/
theorem tileLease_granted (hv : liveLease s (dieOf n) (s.seq n).ctx h = some l) (hh : fld h 24 2 = 0) (hk : l.kind = 0)
    (hst : l.st = .held ∨ l.st = .parked) (he : l.evicting = false) : (tileLease n h).run s = .ok l s := by
  have named : (namedLease 0 n h).run s = .ok l s := by
    unfold namedLease
    refine (Op.run_bind_ok (Op.run_get s)).trans ?_
    rw [hv]
    refine (Op.run_if_neg (by simp [hh, hk, he])).trans ?_
    obtain hst | hst := hst
    · rw [hst]
      rfl
    · rw [hst]
      rfl
  have granted : (needGranted l).run s = .ok () s :=
    Op.run_if_neg (by obtain hst | hst := hst <;> simp [hst])
  unfold tileLease engineLease
  rw [Op.run_bind_ok named, Op.run_bind_ok granted]
  rfl

end Handle

section Issue
variable {s : State} {h : Reg} {l : Lease} (ht : tileReady s h l)
include ht

theorem tileReady_lease : (tileLease s.cur (xr s h)).run s = .ok l s := by
  obtain ⟨-, hv, hh, hk, hst, he, -⟩ := ht
  exact tileLease_granted hv hh hk hst he

/-- The queue has a place (10 R262). -/
theorem tileReady_queue : (needQueue s.cur l).run s = .ok () s := by
  obtain ⟨-, -, -, -, -, -, hq, hp⟩ := ht
  unfold needQueue
  refine (Op.run_bind_ok (Op.run_get s)).trans ?_
  refine (Op.run_if_neg (Nat.not_le.2 hq)).trans ?_
  refine (Op.run_if_neg ?_).trans rfl
  obtain hp | hp := hp <;> simp [hp]

omit ht in
/-- The command is at the end of the queue. -/
theorem pushCmd_run (k : MKind) (pages : List (Nat × Nat)) (issued : Bool) :
    (pushCmd s.cur l k pages issued).run s = .ok () (queued s l k pages issued) := rfl

end Issue

/-! ## MMA and MMAE (10 R260, R267, R268) -/

/-- A descriptor whose base and stride are aligned (10 R260 step 3). -/
theorem needTileAlign_run {t : TileDesc} {s : State} (hb : t.base % t.align = 0) (hs : t.stride % t.align = 0) :
    (needTileAlign t).run s = .ok () s :=
  Op.run_if_neg (by simp [hb, hs])

section Mma
variable {s : State} {h : Reg} {l : Lease} {z : Bool} {draw : Option Reg} {ta tb : BitVec 4} {arow : BitVec 9} {acol : BitVec 7}

/-- The handle is checked first. -/
theorem mmaIssue_lost {e : Stop} (hl : (tileLease s.cur (xr s h)).run s = .error e s) :
    (mmaIssue z h draw ta tb arow acol s.cur).run s = .error e s :=
  (Op.run_bind_ok (Op.run_getSeq _ s)).trans (Op.run_bind_error hl)

/-- Descriptors that break R268 raise VTYPE. -/
theorem mmaIssue_misfit (ht : tileReady s h l)
    (hf : mmaFits (s.seq s.cur).td[ta.toNat] (s.seq s.cur).td[tb.toNat] arow.toNat acol.toNat = false) :
    (mmaIssue z h draw ta tb arow acol s.cur).run s = .error (.trap ⟨0x03, 0, 0⟩) s := by
  unfold mmaIssue
  refine (Op.run_bind_ok (Op.run_getSeq _ s)).trans ?_
  refine (Op.run_bind_ok (tileReady_lease ht)).trans ?_
  exact Op.run_bind_error (Op.run_if_pos (by rw [hf]; rfl))

/-- With descriptors that fit, are aligned and translate, the command enters the queue. -/
theorem mmaIssue_queues {x y : TileDesc} {pages : List (Nat × Nat)} (ht : tileReady s h l) (hx : (s.seq s.cur).td[ta.toNat] = x)
    (hy : (s.seq s.cur).td[tb.toNat] = y) (hf : mmaFits x y arow.toNat acol.toNat = true) (hxb : x.base % x.align = 0)
    (hxs : x.stride % x.align = 0) (hyb : y.base % y.align = 0) (hys : y.stride % y.align = 0)
    (hp : (tilePages s.cur (dieOf s.cur) (s.seq s.cur).ctx x y).run s = .ok pages s) :
    (mmaIssue z h draw ta tb arow acol s.cur).run s = .ok .next
      (queued s l (.mma x y z arow.toNat acol.toNat (draw.map fun r => (xr s r).toNat % 2 ^ 16)) pages true) := by
  subst hx hy
  have checks : (mmaChecks s.cur (dieOf s.cur) (s.seq s.cur).ctx (s.seq s.cur).td[ta.toNat] (s.seq s.cur).td[tb.toNat]
      arow.toNat acol.toNat).run s = .ok pages s := by
    unfold mmaChecks
    refine (Op.run_if_neg (by simp [hf])).trans ?_
    rw [Op.run_bind_ok (needTileAlign_run hxb hxs), Op.run_bind_ok (needTileAlign_run hyb hys), hp]
  have draws : (draw.map fun r => fld ((s.seq s.cur).getX r) 0 16) = draw.map fun r => (xr s r).toNat % 2 ^ 16 := by
    simp only [fld_low]
    rfl
  unfold mmaIssue
  refine (Op.run_bind_ok (Op.run_getSeq _ s)).trans ?_
  refine (Op.run_bind_ok (tileReady_lease ht)).trans ?_
  refine (Op.run_bind_ok checks).trans ?_
  refine (Op.run_bind_ok (tileReady_queue ht)).trans ?_
  rw [draws]
  rfl

end Mma

/-! ## ACCZ, ACCIN and DRAIN (10 R270 to R272) -/

section Acc
variable {s : State} {h : Reg} {l : Lease} {i : Instr} {f : VForm} {k : MKind}

/-- The handle is checked first. -/
theorem accIssue_lost {e : Stop} (hl : (tileLease s.cur (xr s h)).run s = .error e s) :
    (accIssue i f h k s.cur).run s = .error e s :=
  (Op.run_bind_ok (Op.run_getSeq _ s)).trans (Op.run_bind_error hl)

/-- The command enters the queue, and the instruction those in flight. -/
theorem accIssue_queues (ht : tileReady s h l) :
    (accIssue i f h k s.cur).run s = .ok .next (joined i f (queued s l k [] false)) := by
  unfold accIssue
  refine (Op.run_bind_ok (Op.run_getSeq _ s)).trans ?_
  refine (Op.run_bind_ok (tileReady_lease ht)).trans ?_
  refine (Op.run_bind_ok (tileReady_queue ht)).trans ?_
  refine (Op.run_bind_ok (pushCmd_run ..)).trans ?_
  exact vectorIssue_run i f (queued s l k [] false)

end Acc
end Sys2Proof.Machine

namespace Sys2Proof.Proofs
open Sys2Proof.Machine Sys2Proof.Claim

/-- Settles O34: MOVTD and RDTD complete at once; what a field holds after MOVTD is a fact of the descriptor. -/
theorem tileDescriptors : Obligations.TileDescriptors := by
  unfold Obligations.TileDescriptors
  intro td f ra rd s t width
  have widths : width f = tdWidth f := by cases f <;> rfl
  refine ⟨exec_done (t := s) (exec_movtd td f ra s) rfl rfl, puts_scalar (exec_rdtd rd td f s) rfl, ?_,
    fun g hg => TileDesc.get_put_other _ _ hg⟩
  rw [widths]
  exact TileDesc.get_put_same ..

/-- Settles O44: the handle is checked first, then the descriptors, then the queue. -/
theorem tileInstructions : Obligations.TileInstructions := by
  unfold Obligations.TileInstructions
  intro s h draw l z clr ta tb arow nr acol nc d a pol mask q x y lost accin drain
  refine ⟨fun hl => ?_, fun ht => ⟨fun hf => ?_, fun pages hf hxb hxs hyb hys hp => ?_, fun hi => ?_,
    fun f hf hi => ?_, fun f hf hi => ?_⟩⟩
  · have dead : (tileLease s.cur (xr s h)).run s = .error (.trap ⟨0x0C, xr s h, xr s h⟩) s := tileLease_lost hl
    exact ⟨traps_of_body (exec_mma ..) (mmaIssue_lost dead), traps_of_body (exec_mmae ..) (mmaIssue_lost dead),
      traps_of_body (exec_accz ..) ((Op.run_bind_ok (Op.run_getSeq _ s)).trans (Op.run_bind_error dead)),
      traps_of_body (exec_accin ..) (accIssue_lost dead), traps_of_body (exec_drain ..) (accIssue_lost dead)⟩
  · exact ⟨traps_of_body (exec_mma ..) (mmaIssue_misfit ht hf), traps_of_body (exec_mmae ..) (mmaIssue_misfit ht hf)⟩
  · have queues (draw : Option Reg) := mmaIssue_queues (z := z) (draw := draw) ht rfl rfl hf hxb hxs hyb hys hp
    exact ⟨exec_completes (exec_mma ..) (queues none) rfl, exec_completes (exec_mmae ..) (queues (some draw)) rfl⟩
  · refine exec_completes (exec_accz ..) ?_ rfl hi
    refine (Op.run_bind_ok (Op.run_getSeq _ s)).trans ?_
    refine (Op.run_bind_ok (tileReady_lease ht)).trans ?_
    exact (Op.run_bind_ok (tileReady_queue ht)).trans rfl
  · cases hf
    exact exec_completes (exec_accin ..) (accIssue_queues ht) (joined_cur ..) hi
  · cases hf
    exact exec_completes (exec_drain ..) (accIssue_queues ht) (joined_cur ..) hi

end Sys2Proof.Proofs
end

section
/-!
SUPPORT. A matrix engine in its die: its accumulator store (10 R258), its queue, and what the end of a command leaves (10 R262; 03 R71).
-/
namespace Sys2Proof.Machine
open Sys2Proof.Claim

/-! ## The accumulator store (10 R258) -/

/-- A table of which the entries at some keys are kept. -/
theorem smapGet_filter {α : Type} (keep : Nat → Bool) (k : Nat) (l : List (Nat × α)) :
    smapGet k (l.filter fun p => keep p.1) = if keep k then smapGet k l else none := by
  induction l with
  | nil => simp [smapGet]
  | cons p r ih =>
    by_cases hk : p.1 = k
    · subst hk
      by_cases hp : keep p.1 = true <;> simp [smapGet, hp, ih]
    · by_cases hp : keep p.1 = true <;> simp [smapGet, hp, hk, ih]

/-- An entry of the store after one has been written. -/
theorem MEngine.get_put (e : MEngine) {row col r c : Nat} (v : Nat) (hcol : col < 128) (hc : c < 128) :
    (e.put r c v).get row col = if row = r ∧ col = c then v else e.get row col := by
  by_cases h : row = r ∧ col = c
  · obtain ⟨rfl, rfl⟩ := h
    rw [if_pos ⟨rfl, rfl⟩, MEngine.get, MEngine.put]
    dsimp only
    split
    · next hv => rw [smapGet_del_same, hv]; rfl
    · rw [smapGet_set_same]; rfl
  · have key : row * 128 + col ≠ r * 128 + c := by omega
    rw [if_neg h, MEngine.get, MEngine.put]
    dsimp only
    split
    · rw [smapGet_del_other _ _ _ key, MEngine.get]
    · rw [smapGet_set_other _ _ _ _ key, MEngine.get]

/-- An engine but for its store. -/
def MEngine.shell (e : MEngine) : MEngine := { e with acc := [] }

@[simp] theorem MEngine.put_shell (e : MEngine) (r c v : Nat) : (e.put r c v).shell = e.shell := rfl

/-- Engines with one shell have one number, one queue and one task. -/
theorem MEngine.of_shell {e e' : MEngine} (h : e'.shell = e.shell) : e'.idx = e.idx ∧ e'.queue = e.queue ∧ e'.task = e.task := by
  obtain ⟨hi, -, hq, ht⟩ := MEngine.mk.inj h
  exact ⟨hi, hq, ht⟩

section Fold
variable {α : Type} {place : α → Nat × Nat} {val : α → Nat → Nat} {F : MEngine × Nat → α → MEngine × Nat}
  (hF : ∀ p a, (F p a).1 = p.1.put (place a).1 (place a).2 (val a (p.1.get (place a).1 (place a).2)))
include hF

/-- Writes to the store leave the rest of the engine. -/
theorem foldl_put_shell (L : List α) (p : MEngine × Nat) : (L.foldl F p).1.shell = p.1.shell := by
  induction L generalizing p with
  | nil => rfl
  | cons a L ih => rw [List.foldl_cons, ih, hF, MEngine.put_shell]

/-- An entry that none of the writes names is as before. -/
theorem foldl_put_other {L : List α} (hc : ∀ a ∈ L, (place a).2 < 128) {row col : Nat} (hcol : col < 128) (p : MEngine × Nat)
    (h : ∀ a ∈ L, place a ≠ (row, col)) : (L.foldl F p).1.get row col = p.1.get row col := by
  induction L generalizing p with
  | nil => rfl
  | cons a L ih =>
    obtain ⟨ha, hL⟩ := List.forall_mem_cons.1 h
    obtain ⟨hca, hcL⟩ := List.forall_mem_cons.1 hc
    rw [List.foldl_cons, ih hcL _ hL, hF, MEngine.get_put _ _ hcol hca,
      if_neg fun he => ha (Prod.ext he.1.symm he.2.symm)]

/-- An entry that exactly one of them names holds what that one makes of it. -/
theorem foldl_put_placed {L : List α} (hn : (L.map place).Nodup) (hc : ∀ a ∈ L, (place a).2 < 128) {row col : Nat}
    (p : MEngine × Nat) {a : α} (ha : a ∈ L) (hp : place a = (row, col)) :
    (L.foldl F p).1.get row col = val a (p.1.get row col) := by
  have hcol : col < 128 := by simpa [hp] using hc a ha
  induction L generalizing p with
  | nil => cases ha
  | cons b L ih =>
    obtain ⟨hb, hnL⟩ := List.nodup_cons.1 hn
    obtain ⟨hcb, hcL⟩ := List.forall_mem_cons.1 hc
    rw [List.foldl_cons]
    by_cases hab : a ∈ L
    · have apart : place b ≠ (row, col) := fun he => hb (he ▸ hp ▸ List.mem_map_of_mem hab)
      rw [ih hnL hcL _ hab, hF, MEngine.get_put _ _ hcol hcb, if_neg fun he => apart (Prod.ext he.1.symm he.2.symm)]
    · obtain rfl : a = b := (List.mem_cons.1 ha).resolve_right hab
      rw [foldl_put_other hF hcL hcol _ fun x hx he => hb (hp.trans he.symm ▸ List.mem_map_of_mem hx), hF, hp,
        MEngine.get_put _ _ hcol hcol, if_pos ⟨rfl, rfl⟩]

end Fold

/-! ## An engine in its die -/

/-- An engine bears its number. -/
theorem Die.engine_idx (x : Die) (idx : Nat) : (x.engine idx).idx = idx := by
  unfold Die.engine
  cases h : x.engines.find? fun e => e.idx == idx with
  | none => rfl
  | some e => simpa using List.find?_some h

/-- An engine just put into a die of the state is read back. -/
theorem State.engine_setEngine {s : State} {d idx : Nat} {f : Die → MEngine} (hd : d < 16) (hi : (f (s.die d)).idx = idx) :
    ((s.modDie d fun x => x.setEngine (f x)).die d).engine idx = f (s.die d) := by
  subst hi
  rw [State.die_modDie_same _ _ _ hd, Die.engine_setEngine]

/-- The engines of a state are those of its dies. -/
theorem State.die_congr {s t : State} (h : t.dies = s.dies) (d : Nat) : t.die d = s.die d := by
  unfold State.die
  rw [h]

theorem State.ctx_congr {s t : State} (h : t.ctxs = s.ctxs) (c : Nat) : t.ctx c = s.ctx c := by
  unfold State.ctx
  rw [h]

/-! ## What the end of a command leaves (03 R71) -/

section Accrue
variable (s : State) (run fl : Nat)

/-- Flags go to a sequencer, to what is owed, or nowhere. -/
theorem accrueTo_part {α : Type} (part : State → α) (hseq : ∀ n f, part (s.modSeq n f) = part s)
    (howed : ∀ o, part { s with owed := o } = part s) : part (accrueTo s run fl) = part s := by
  unfold accrueTo
  dsimp only
  split
  · rfl
  · split
    · split
      · exact hseq ..
      · exact howed _
    · split
      · exact howed _
      · rfl

@[simp] theorem accrueTo_mem : (accrueTo s run fl).mem = s.mem := accrueTo_part s run fl State.mem (fun _ _ => rfl) fun _ => rfl
@[simp] theorem accrueTo_dies : (accrueTo s run fl).dies = s.dies := accrueTo_part s run fl State.dies (fun _ _ => rfl) fun _ => rfl
@[simp] theorem accrueTo_ctxs : (accrueTo s run fl).ctxs = s.ctxs := accrueTo_part s run fl State.ctxs (fun _ _ => rfl) fun _ => rfl

end Accrue

section Head
variable (s : State) (d idx : Nat) (m : MCmd) (next : Option MCmd)

/-- Beside the flags and the marks of a command that has ended, the head of the queue is replaced. -/
theorem setHead_part {α : Type} (part : State → α) (hflags : ∀ u r fl, part (accrueTo u r fl) = part u)
    (hmarks : ∀ u sq r isn, part (killMarks u sq r isn) = part u) : part (setHead s d idx m next) =
      part (s.modDie d fun x => x.setEngine { x.engine idx with queue := next.toList ++ (x.engine idx).queue.drop 1 }) := by
  cases next with
  | some m' => rfl
  | none => exact (hflags ..).trans (hmarks ..)

@[simp] theorem setHead_mem : (setHead s d idx m next).mem = s.mem :=
  setHead_part s d idx m next State.mem (fun u r fl => accrueTo_mem u r fl) fun _ _ _ _ => rfl
@[simp] theorem setHead_ctx (c : Nat) : (setHead s d idx m next).ctx c = s.ctx c :=
  State.ctx_congr (setHead_part s d idx m next State.ctxs (fun u r fl => accrueTo_ctxs u r fl) fun _ _ _ _ => rfl) c

theorem setHead_engine (hd : d < 16) : ((setHead s d idx m next).die d).engine idx =
    { (s.die d).engine idx with queue := next.toList ++ ((s.die d).engine idx).queue.drop 1 } := by
  rw [State.die_congr (setHead_part s d idx m next State.dies (fun u r fl => accrueTo_dies u r fl) fun _ _ _ _ => rfl)]
  exact State.engine_setEngine (f := fun x => { x.engine idx with queue := next.toList ++ (x.engine idx).queue.drop 1 }) hd
    (Die.engine_idx ..)

end Head

/-- A context without a limit is not charged (21 R493). -/
theorem chargeCtx_unlimited {s : State} {c : Nat} (h : (s.ctx c).limit = 0) (pj : Nat) : chargeCtx s c pj = s := if_pos h

/-! ## An engine that may go on -/

/-- A move of a unit that answers is the event. -/
theorem unitMove_ok {who d c sq : Nat} {m : Op Unit} {s t : State} (h : m.run s = .ok () t) :
    unitMove who d c sq m s = some (.next t) := by
  unfold unitMove
  rw [h]

section Engine
variable {s : State} {d idx : Nat} {l : Lease} (h : engineOn s d idx l)
include h

theorem engineOn_go (hdr : ((s.die d).engine idx).draining = false) : engineGo s d idx = some l := by
  obtain ⟨hd, hz, hl, hst, he, hr, -⟩ := h
  unfold engineGo
  rw [if_neg (by simp [hz, hd]), hl]
  simp [hdr, he, hst, hr]

omit h in
theorem engineHead_of_queue {m : MCmd} {r : List MCmd} (ht : ((s.die d).engine idx).task = none)
    (hq : ((s.die d).engine idx).queue = m :: r) : engineHead s d idx = some m := by
  unfold engineHead
  dsimp only
  rw [ht, hq]
  rfl

end Engine

end Sys2Proof.Machine
end

section
/-!
SUPPORT. A step of a multiplication (10 R256, R263, R264, R269): the elements that it reads, and what it leaves in the store.
-/
namespace Sys2Proof.Machine
open Sys2Proof.Claim

/-! ## Elements of an operand (10 R256, R263) -/

/-- A move for each of some things that changes nothing. -/
theorem Op.run_mapM {α β : Type} {f : α → Op β} {g : α → β} {s : State} {l : List α}
    (h : ∀ a ∈ l, (f a).run s = .ok (g a) s) :
    (l.mapM f).run s = .ok (l.map g) s := by
  induction l with
  | nil => rfl
  | cons a l ih =>
    obtain ⟨ha, hl⟩ := List.forall_mem_cons.1 h
    rw [List.mapM_cons, Op.run_bind_ok ha, Op.run_bind_ok (ih hl)]
    rfl

/-- Full words outside the grant's own order, where no landing is due. -/
theorem readForeign_sound {s : State} {va key len : Nat} (h : sound s key len) (hm : s.marks = [])
    (hf : ∀ w, w ∈ wordsOf key len → s.full (8 * w) = true) :
    (readForeign va key len false).run s = .ok (s.mem.read key len) s := by
  have full : ((wordsOf key len).map fun w => s.full (8 * w)).all (fun b => b) = true := by
    rw [List.all_map]
    exact List.all_eq_true.2 hf
  have chain : chainHeld s key len = false := by
    unfold chainHeld
    dsimp only
    rw [hm]
    simp
  unfold readForeign
  refine (Op.run_bind_ok (Op.run_get s)).trans ?_
  refine (Op.run_bind_ok (needFull_run full)).trans ?_
  refine (Op.run_if_neg (by rw [chain]; exact Bool.false_ne_true)).trans ?_
  exact readKey_sound h

/-- Two bytes at a key lie in the words of the first and of the second. -/
theorem full_pair {s : State} {key : Nat} (h0 : s.full key = true) (h1 : s.full (key + 1) = true) :
    ∀ w, w ∈ wordsOf key 2 → s.full (8 * w) = true := by
  intro w hw
  obtain ⟨j, hj, rfl⟩ := List.mem_map.1 hw
  rw [List.mem_range] at hj
  have word (k : Nat) (hk : 8 * (key / 8 + j) / 8 = k / 8) : s.full (8 * (key / 8 + j)) = s.full k := by
    unfold State.full
    rw [hk]
  obtain hj | hj : key / 8 + j = key / 8 ∨ key / 8 + j = (key + 1) / 8 := by omega
  · rw [word key (by omega), h0]
  · rw [word (key + 1) (by omega), h1]

/-- Two bytes of an operand at full words. -/
theorem fetchBytes_pair {x : TileWork} {va : Nat} {s : State} (hw : s.wayTo x.die (pageKey x.pages va) = .clear)
    (h : sound s (pageKey x.pages va) 2) (hm : s.marks = []) (h0 : s.full (pageKey x.pages va) = true)
    (h1 : s.full (pageKey x.pages va + 1) = true) :
    (fetchBytes x va 2).run s = .ok (s.mem.num (pageKey x.pages va) 2) s := by
  unfold fetchBytes
  refine (Op.run_bind_ok (needRoute_run (p := ⟨pageKey x.pages va, 0, 0⟩) hw)).trans ?_
  exact (Op.run_bind_ok (readForeign_sound h hm (full_pair h0 h1))).trans rfl

/-- An element of a tile of bf16 or fp16 is the number in its place. -/
theorem fetchElem_half {x : TileWork} {t : TileDesc} {r c v : Nat} {s : State} (hc : t.code = 9 ∨ t.code = 10)
    (h : (fetchBytes x (t.base + r * t.stride + 2 * c) 2).run s = .ok v s) :
    (fetchElem x t r c).run s = .ok ⟨(if t.code = 9 then Fmt.bf16 else Fmt.fp16).decode v, 0, none⟩ s := by
  have plain : t.blkW = none := if_neg (by obtain hc | hc := hc <;> simp [hc])
  have mld : t.mld = false := by obtain hc | hc := hc <;> simp [TileDesc.mld, hc]
  unfold fetchElem
  rw [plain, mld]
  refine (Op.run_bind_ok (a := (Mean.bf16 v, 0, none)) ((Op.run_bind_ok h).trans rfl)).trans ?_
  obtain hc | hc := hc
  · rw [hc]
    rfl
  · rw [hc]
    exact (Op.run_bind_ok h).trans rfl

/-! ## Rows, slices and cells of a step (10 R264, R269) -/

/-- The rows of A that a step covers. -/
def TileWork.rowsAt (x : TileWork) (pos : Nat) : List Nat :=
  (List.range (min 128 (x.a.rows - 128 * (pos / x.slices)))).map (128 * (pos / x.slices) + ·)

/-- The products of a step's slice, by their place in the depth. -/
def TileWork.depthAt (x : TileWork) (pos : Nat) : List Nat :=
  (List.range (min 32 (x.a.cols - 32 * (pos % x.slices)))).map (32 * (pos % x.slices) + ·)

theorem TileWork.mem_rowsAt {x : TileWork} {pos r : Nat} : r ∈ x.rowsAt pos ↔
    128 * (pos / x.slices) ≤ r ∧ r < min x.a.rows (128 * (pos / x.slices) + 128) := by
  rw [rowsAt, List.mem_map]
  constructor
  · rintro ⟨j, hj, rfl⟩
    rw [List.mem_range] at hj
    omega
  · rintro ⟨h0, h1⟩
    exact ⟨r - 128 * (pos / x.slices), List.mem_range.2 (by omega), by omega⟩

theorem TileWork.lt_of_mem_depthAt {x : TileWork} {pos k : Nat} (h : k ∈ x.depthAt pos) : k < x.a.cols := by
  obtain ⟨j, hj, rfl⟩ := List.mem_map.1 h
  rw [List.mem_range] at hj
  omega

/-- What a step makes of an accumulator, with the flags, from the elements of a row of A and of a column of B. -/
def TileWork.cell (x : TileWork) (pos : Nat) (as bs : List TileElem) (acc : Nat) : Nat × Nat :=
  accumulate (if x.z && pos % x.slices = 0 then 0 else acc)
    (sliceVal (x.a.blkW.isSome && x.b.blkW.isSome) ((as.map (·.val)).zip (bs.map (·.val))))

/-- A step's write of the accumulator of a row and a column, with their elements. -/
def TileWork.putOf (x : TileWork) (pos : Nat) (p : MEngine × Nat) (ra cb : Nat × List TileElem) : MEngine × Nat :=
  let v := x.cell pos ra.2 cb.2 (p.1.get (x.arow + ra.1) (x.acol + cb.1))
  (p.1.put (x.arow + ra.1) (x.acol + cb.1) v.1, p.2 ||| v.2)

/-- The place in the store of a row and a column. -/
def TileWork.place (x : TileWork) (rc : Nat × Nat) : Nat × Nat := (x.arow + rc.1, x.acol + rc.2)

/-- What a step makes of the accumulator of a row and a column. -/
def TileWork.val (x : TileWork) (pos : Nat) (A B : Nat → Nat → TileElem) (rc : Nat × Nat) (acc : Nat) : Nat :=
  (x.cell pos ((x.depthAt pos).map (A rc.1)) ((x.depthAt pos).map (B · rc.2)) acc).1

/-- A step's write of the accumulator of a row and a column. -/
def TileWork.put (x : TileWork) (pos : Nat) (A B : Nat → Nat → TileElem) (p : MEngine × Nat) (rc : Nat × Nat) : MEngine × Nat :=
  x.putOf pos p (rc.1, (x.depthAt pos).map (A rc.1)) (rc.2, (x.depthAt pos).map (B · rc.2))

/-- Two loops over lists that are paired with values are one over the pairs of their elements. -/
theorem foldl_zip_zip {α β γ δ ι : Type} (as : List α) (bs : List β) (f : α → γ) (g : β → δ) (F : ι → α × γ → β × δ → ι)
    (p : ι) :
    (as.zip (as.map f)).foldl (fun p a => (bs.zip (bs.map g)).foldl (fun p b => F p a b) p) p =
      (as ×ˢ bs).foldl (fun p c => F p (c.1, f c.1) (c.2, g c.2)) p := by
  have paired {α γ : Type} (l : List α) (f : α → γ) : l.zip (l.map f) = l.map fun a => (a, f a) := by
    simpa using List.zip_map' (f := id) (g := f) (l := l)
  rw [paired, paired, List.foldl_map]
  simp only [List.foldl_map]
  exact (List.foldl_flatMap ..).trans (by simp only [List.foldl_map]) |>.symm

section Step
variable {x : TileWork} {e : MEngine} {pos : Nat} {A B : Nat → Nat → TileElem} {s : State}

/-- The cells of a step, row by row. -/
def TileWork.cells (x : TileWork) (pos : Nat) : List (Nat × Nat) := x.rowsAt pos ×ˢ List.range x.b.cols

/-- The elements that a step reads. -/
def TileWork.elems (x : TileWork) (pos : Nat) (A B : Nat → Nat → TileElem) : List TileElem :=
  ((x.rowsAt pos).map fun r => (x.depthAt pos).map (A r)).flatten ++
    ((List.range x.b.cols).map fun c => (x.depthAt pos).map (B · c)).flatten

/-- A step whose elements all read writes its cells one after another; it raises their flags beside those of the reads. -/
theorem tileStep_run (hA : ∀ r ∈ x.rowsAt pos, ∀ k ∈ x.depthAt pos, (fetchElem x x.a r k).run s = .ok (A r k) s)
    (hB : ∀ c ∈ List.range x.b.cols, ∀ k ∈ x.depthAt pos, (fetchElem x x.b k c).run s = .ok (B k c) s) :
    (tileStep x e pos).run s =
      let p := (x.cells pos).foldl (x.put pos A B) (e, (x.elems pos A B).foldl (fun f y => f ||| y.flags) 0)
      .ok ⟨p.1, p.2, (x.elems pos A B).findSome? (·.bad)⟩ s := by
  have rowsA := Op.run_mapM fun r hr => Op.run_mapM (hA r hr)
  have colsB := Op.run_mapM fun c hc => Op.run_mapM (hB c hc)
  unfold tileStep
  refine (Op.run_bind_ok rowsA).trans ?_
  refine (Op.run_bind_ok colsB).trans ?_
  have fold := foldl_zip_zip (x.rowsAt pos) (List.range x.b.cols) (fun r => (x.depthAt pos).map (A r))
    (fun c => (x.depthAt pos).map (B · c)) (x.putOf pos) (e, (x.elems pos A B).foldl (fun f y => f ||| y.flags) 0)
  exact congrArg (fun p => EStateM.Result.ok (StepOut.mk p.1 p.2 ((x.elems pos A B).findSome? (·.bad))) s) fold

/-- No element of a good block is bad. -/
theorem elems_good (hA : ∀ r k, (A r k).bad = none) (hB : ∀ k c, (B k c).bad = none) :
    (x.elems pos A B).findSome? (·.bad) = none := by
  rw [List.findSome?_eq_none_iff]
  intro y hy
  simp only [TileWork.elems, List.mem_append, List.mem_flatten, List.mem_map] at hy
  obtain ⟨-, ⟨r, -, rfl⟩, hy⟩ | ⟨-, ⟨c, -, rfl⟩, hy⟩ := hy
  · obtain ⟨k, -, rfl⟩ := List.mem_map.1 hy
    exact hA r k
  · obtain ⟨k, -, rfl⟩ := List.mem_map.1 hy
    exact hB k c

/-- The cells of a step stand at different places, within the store's columns. -/
theorem cells_apart (x : TileWork) (pos : Nat) : ((x.cells pos).map x.place).Nodup := by
  have rows : (x.rowsAt pos).Nodup := List.nodup_range.map fun a b h => Nat.add_left_cancel h
  refine (rows.product List.nodup_range).map ?_
  rintro ⟨r, c⟩ ⟨r', c'⟩ h
  obtain ⟨hr, hc⟩ := Prod.mk.inj h
  exact Prod.ext (Nat.add_left_cancel hr) (Nat.add_left_cancel hc)

theorem TileWork.mem_cells {r c : Nat} : (r, c) ∈ x.cells pos ↔ r ∈ x.rowsAt pos ∧ c < x.b.cols := by
  rw [cells, List.mem_product, List.mem_range]

/-- The accumulators after a step (10 R269). -/
theorem step_get (hf : mmaFits x.a x.b x.arow x.acol = true) (fl row : Nat) {col : Nat} (hcol : col < 128) :
    ((x.cells pos).foldl (x.put pos A B) (e, fl)).1.get row col =
      if x.arow + 128 * (pos / x.slices) ≤ row ∧ row < x.arow + min x.a.rows (128 * (pos / x.slices) + 128) ∧
        x.acol ≤ col ∧ col < x.acol + x.b.cols
      then x.val pos A B (row - x.arow, col - x.acol) (e.get row col) else e.get row col := by
  have fits : x.acol + x.b.cols ≤ 128 := by
    simp only [mmaFits, Bool.and_eq_true, decide_eq_true_eq] at hf
    omega
  have within : ∀ rc ∈ x.cells pos, (x.place rc).2 < 128 := by
    rintro ⟨r, c⟩ h
    have := (TileWork.mem_cells.1 h).2
    change x.acol + c < 128
    omega
  have writes : ∀ p rc, (x.put pos A B p rc).1 = p.1.put (x.place rc).1 (x.place rc).2
      (x.val pos A B rc (p.1.get (x.place rc).1 (x.place rc).2)) := fun _ _ => rfl
  split
  · next h =>
    obtain ⟨h0, h1, h2, h3⟩ := h
    refine foldl_put_placed (val := x.val pos A B) writes (cells_apart x pos) within (e, fl)
      (TileWork.mem_cells.2 ⟨TileWork.mem_rowsAt.2 ?_, ?_⟩) (Prod.ext ?_ ?_)
    · omega
    · omega
    · exact Nat.add_sub_of_le (by omega)
    · exact Nat.add_sub_of_le h2
  · next h =>
    refine foldl_put_other (val := x.val pos A B) writes within hcol (e, fl) ?_
    rintro ⟨r, c⟩ hrc hp
    obtain ⟨hr, hc⟩ := TileWork.mem_cells.1 hrc
    obtain ⟨h0, h1⟩ := TileWork.mem_rowsAt.1 hr
    obtain ⟨rfl, rfl⟩ := Prod.mk.inj hp
    exact h ⟨by omega, by omega, by omega, by omega⟩

end Step
end Sys2Proof.Machine
end

section
/-!
SUPPORT. The events of an engine at the head of its queue (10 R264, R269 to R273).
-/
namespace Sys2Proof.Machine
open Sys2Proof.Claim

/-! ## Writes of a unit -/

/-- The way to a key is clear. -/
theorem needWay_run {s : State} {d key : Nat} (h : s.wayTo d key = .clear) : (needWay d key).run s = .ok () s := by
  unfold needWay
  rw [Op.run_bind_ok (Op.run_get s), h]
  rfl

/-- A write of sound bytes. -/
theorem writeKey_sound {s : State} {key : Nat} {bs : List Byte} {va : Option Nat} (h : sound s key bs.length) :
    (writeKey key bs va).run s = .ok () (s.poke key bs) := by
  obtain ⟨hk, hl, hh, hn, -⟩ := h
  unfold writeKey
  rw [Op.run_bind_ok (needKey_run hk hl hh), Op.run_modify, hn]
  rfl

/-- A number of n bytes that has been written is read back. -/
theorem Mem.num_write_size (m : Mem) (key n v : Nat) : (m.write key (bytesOf n v)).num key n = v % 2 ^ (8 * n) := by
  have back := m.read_write key (bytesOf n v)
  rw [bytesOf_length] at back
  rw [Mem.num, back, ofBytes_bytesOf, show (256 : Nat) = 2 ^ 8 by norm_num, ← pow_mul]

@[simp] theorem State.modDie_ctx (s : State) (d c : Nat) (f : Die → Die) : (s.modDie d f).ctx c = s.ctx c := rfl

/-- What a command leaves of an engine that has been replaced: the queue with the command as it goes on, if it does. -/
theorem setHead_setEngine {u : State} {d idx : Nat} {m : MCmd} {r : List MCmd} {f : Die → MEngine}
    (hd : d < 16) (hi : (f (u.die d)).idx = idx) (hr : (f (u.die d)).queue.drop 1 = r) (next : Option MCmd) :
    ((setHead (u.modDie d fun x => x.setEngine (f x)) d idx m next).die d).engine idx =
      { f (u.die d) with queue := next.toList ++ r } := by
  rw [setHead_engine _ _ _ _ _ hd, State.engine_setEngine hd hi, hr]

/-- Elements that read as these numbers with these flags. -/
def goodElems (f : Nat → Nat → Val × Nat) (i k : Nat) : TileElem := ⟨(f i k).1, (f i k).2, none⟩

/-- The accumulator that a step makes of the numbers of its elements. -/
theorem TileWork.val_good (x : TileWork) (pos : Nat) (fa fb : Nat → Nat → Val × Nat) (i j acc : Nat) :
    x.val pos (goodElems fa) (goodElems fb) (i, j) acc =
      (accumulate (if x.z = true ∧ pos % x.slices = 0 then 0 else acc) (sliceVal (x.a.blkW.isSome && x.b.blkW.isSome)
        ((List.range (min 32 (x.a.cols - 32 * (pos % x.slices)))).map fun k =>
          ((fa i (32 * (pos % x.slices) + k)).1, (fb (32 * (pos % x.slices) + k) j).1)))).1 := by
  simp only [TileWork.val, TileWork.cell, TileWork.depthAt, List.map_map, List.zip_map', Bool.and_eq_true, decide_eq_true_eq]
  rfl

/-- A step over elements that all read: the accumulators of its rows and columns, and nothing else of the engine. -/
theorem tileStep_good {w : TileWork} {e : MEngine} {pos : Nat} {s : State} {fa fb : Nat → Nat → Val × Nat}
    (hf : mmaFits w.a w.b w.arow w.acol = true)
    (hfa : ∀ i k, i < w.a.rows → k < w.a.cols → (fetchElem w w.a i k).run s = .ok (goodElems fa i k) s)
    (hfb : ∀ k j, k < w.b.rows → j < w.b.cols → (fetchElem w w.b k j).run s = .ok (goodElems fb k j) s) :
    ∃ o, (tileStep w e pos).run s = .ok o s ∧ o.bad = none ∧ o.eng.shell = e.shell ∧
      ∀ row col, col < 128 → o.eng.get row col =
        if w.arow + 128 * (pos / w.slices) ≤ row ∧ row < w.arow + min w.a.rows (128 * (pos / w.slices) + 128) ∧
          w.acol ≤ col ∧ col < w.acol + w.b.cols
        then w.val pos (goodElems fa) (goodElems fb) (row - w.arow, col - w.acol) (e.get row col) else e.get row col := by
  have fits : w.a.cols = w.b.rows := by
    simp only [mmaFits, Bool.and_eq_true, beq_iff_eq] at hf
    omega
  refine ⟨_, tileStep_run
    (fun i hi k hk => hfa i k (lt_of_lt_of_le (TileWork.mem_rowsAt.1 hi).2 (min_le_left ..)) (TileWork.lt_of_mem_depthAt hk))
    (fun j hj k hk => hfb k j (fits ▸ TileWork.lt_of_mem_depthAt hk) (List.mem_range.1 hj)),
    elems_good (fun _ _ => rfl) fun _ _ => rfl, ?_, fun row col hcol => step_get hf _ row hcol⟩
  exact foldl_put_shell (place := w.place) (val := w.val pos (goodElems fa) (goodElems fb)) (fun _ _ => rfl) _ _

/-- An engine with a region of its store cleared. -/
def MEngine.cleared (e : MEngine) (arow acol nr nc : Nat) : MEngine :=
  { e with acc := e.acc.filter fun p => !(decide (arow ≤ p.1 / 128) && decide (p.1 / 128 < arow + nr) &&
      decide (acol ≤ p.1 % 128) && decide (p.1 % 128 < acol + nc)) }

/-- The entries outside a region that has been cleared stay, and the others are 0. -/
theorem MEngine.get_cleared (e : MEngine) (arow acol nr nc row : Nat) {col : Nat} (hcol : col < 128) :
    (e.cleared arow acol nr nc).get row col =
      if arow ≤ row ∧ row < arow + nr ∧ acol ≤ col ∧ col < acol + nc then 0 else e.get row col := by
  have hdiv : (row * 128 + col) / 128 = row := by omega
  have hmod : (row * 128 + col) % 128 = col := by omega
  have kept := smapGet_filter (fun k => !(decide (arow ≤ k / 128) && decide (k / 128 < arow + nr) &&
    decide (acol ≤ k % 128) && decide (k % 128 < acol + nc))) (row * 128 + col) e.acc
  rw [hdiv, hmod] at kept
  have inside : (decide (arow ≤ row) && decide (row < arow + nr) && decide (acol ≤ col) && decide (col < acol + nc)) =
      decide (arow ≤ row ∧ row < arow + nr ∧ acol ≤ col ∧ col < acol + nc) := by
    simp only [Bool.decide_and, Bool.and_assoc]
  rw [MEngine.get, MEngine.cleared, kept, inside]
  by_cases h : arow ≤ row ∧ row < arow + nr ∧ acol ≤ col ∧ col < acol + nc <;> simp [h, MEngine.get]

/-- An engine with the values that were sent to it written into its store. -/
def MEngine.sent (e : MEngine) (items : List AccItem) : MEngine := items.foldl (fun e a => e.put a.row a.col a.val) e

theorem MEngine.sent_shell (e : MEngine) (items : List AccItem) : (e.sent items).shell = e.shell := by
  induction items generalizing e with
  | nil => rfl
  | cons a items ih => exact (ih _).trans (MEngine.put_shell ..)

section Head
variable {s : State} {d idx : Nat} {l : Lease} {m : MCmd} {r : List MCmd} (hon : engineOn s d idx l)
  (ht : ((s.die d).engine idx).task = none) (hq : ((s.die d).engine idx).queue = m :: r)
  (hdr : ((s.die d).engine idx).draining = false)
include hon ht hq hdr

/-! ## A step of a multiplication -/

theorem matrixStep_good {w : TileWork} {o : StepOut} (hw : m.work = some w)
    (ho : (tileStep w ((s.die d).engine idx) m.pos).run s = .ok o s) (hb : o.bad = none) (hl : (s.ctx m.ctx).limit = 0) :
    exec (.matrixStep d idx) s = .next (setHead (s.modDie d (·.setEngine o.eng)) d idx
      { m with pos := m.pos + 1, flags := m.flags ||| o.flags }
      (if w.steps ≤ m.pos + 1 then none else some { m with pos := m.pos + 1, flags := m.flags ||| o.flags })) := by
  have go := engineOn_go hon hdr
  have head := engineHead_of_queue ht hq
  change occurs (tryMatrixStep d idx s) s = _
  unfold tryMatrixStep
  rw [go, head]
  dsimp only
  rw [hw]
  dsimp only
  refine (congrArg (occurs · s) (unitMove_ok ((Op.run_bind_ok (Op.run_get s)).trans
    ((Op.run_bind_ok ho).trans (Op.run_modify ..))))).trans ?_
  rw [hb, occurs_some]
  dsimp only
  rw [Option.isSome_none, Bool.or_false]
  refine congrArg Host.Outcome.next (chargeCtx_unlimited ?_ _)
  exact (congrArg Ctx.limit (setHead_ctx ..)).trans hl

/-! ## ACCZ and ACCIN -/

theorem acczPass_run {arow acol nr nc : Nat} (hk : m.kind = .accz arow acol nr nc) :
    exec (.acczPass d idx) s =
      .next (setHead (s.modDie d fun x => x.setEngine ((x.engine idx).cleared arow acol nr nc)) d idx m none) := by
  have go := engineOn_go hon hdr
  have head := engineHead_of_queue ht hq
  change occurs (tryAcczPass d idx s) s = _
  unfold tryAcczPass
  rw [go, head]
  dsimp only
  rw [hk]
  rfl

theorem accinPass_run {arow acol nc : Nat} (hk : m.kind = .accin arow acol nc) (hi : m.issued = true) :
    exec (.accinPass d idx) s = .next (setHead (s.modDie d fun x => x.setEngine ((x.engine idx).sent m.items)) d idx m none) := by
  have go := engineOn_go hon hdr
  have head := engineHead_of_queue ht hq
  change occurs (tryAccinPass d idx s) s = _
  unfold tryAccinPass
  rw [go, head]
  dsimp only
  rw [hk]
  dsimp only
  rw [hi]
  rfl

/-! ## DRAIN -/

theorem drainPass_run {clr : Bool} {arow acol nc : Nat} {t : State} (hk : m.kind = .drain clr arow acol nc)
    (h : (drainMove d idx l m clr).run s = .ok () t) : exec (.drainPass d idx) s = .next t := by
  have go := engineOn_go hon hdr
  have head := engineHead_of_queue ht hq
  change occurs (tryDrainPass d idx s) s = _
  unfold tryDrainPass
  rw [go, head]
  dsimp only
  rw [hk]
  dsimp only
  rw [unitMove_ok h]
  rfl

end Head

/-- A pass of an entry's lease that has not ended leaves the lease. -/
theorem endPass_going {s : State} {d : Nat} {l : Lease} (h : l.ending = false) : endPass s d l = s := by
  unfold endPass
  rw [h]
  rfl

section Drain
variable {s : State} {d idx : Nat} {l : Lease} {m : MCmd} {clr : Bool}

/-- With nothing left to deliver, the pass ends. -/
theorem drainMove_empty (hi : m.items = []) (his : m.issued = true) (he : l.ending = false) :
    (drainMove d idx l m clr).run s = .ok () (setHead s d idx m none) := by
  unfold drainMove
  refine (Op.run_bind_ok (Op.run_get s)).trans ?_
  dsimp only
  rw [hi]
  dsimp only
  rw [his, endPass_going he]
  rfl

variable {it : AccItem} {rest : List AccItem}

/-- An entry outside the window is written at its destination, whole. -/
theorem drainOne_run {e : MEngine} (hp : (vtTy m.vtype).packed = false) (hw : it.inWin = false)
    (hs : sound s it.addr (vtTy m.vtype).size) (hway : s.wayTo d it.addr = .clear) :
    let r := deliver (vtTy m.vtype) (drainRnd m it.elem) (.exact (Fmt.w48.decode (e.get it.row it.col)) 0)
    (drainOne d m e it rest).run s = .ok r.2 (s.poke it.addr (bytesOf (vtTy m.vtype).size r.1)) := by
  intro r
  have mask : fieldMask (vtTy m.vtype) it.elem = List.replicate (bytesOf (vtTy m.vtype).size r.1).length 0xFF := by
    rw [fieldMask, hp, bytesOf_length]
    rfl
  unfold drainOne
  dsimp only
  rw [hp, hw, mask]
  unfold drainLand
  have land : ((needWay d it.addr >>= fun _ => get >>= fun s : State => writeKey it.addr
      (mergeBytes (s.mem.read it.addr (bytesOf (vtTy m.vtype).size r.1).length) (bytesOf (vtTy m.vtype).size r.1)
        (List.replicate (bytesOf (vtTy m.vtype).size r.1).length 0xFF))) : Op Unit).run s =
        .ok () (s.poke it.addr (bytesOf (vtTy m.vtype).size r.1)) := by
    refine (Op.run_bind_ok (needWay_run hway)).trans ?_
    refine (Op.run_bind_ok (Op.run_get s)).trans ?_
    rw [mergeBytes_all (by simp)]
    exact writeKey_sound (by rwa [bytesOf_length])
  exact (Op.run_bind_ok land).trans rfl

/-- The pass delivers its next entry, which is cleared where that is asked for. -/
theorem drainMove_item (hi : m.items = it :: rest) (his : m.issued = true) (he : l.ending = false)
    (hb : (vtTy m.vtype).packed = false) {fl : Nat} {bs : List Byte} (hr : it.row < 512)
    (h1 : (drainOne d m ((s.die d).engine idx) it rest).run s = .ok fl (s.poke it.addr bs)) :
    (drainMove d idx l m clr).run s = .ok () (setHead ((accrueTo (s.poke it.addr bs) m.runId fl).modDie d
      (·.setEngine (if clr then ((s.die d).engine idx).put it.row it.col 0 else (s.die d).engine idx))) d idx
      { m with items := rest, pos := m.pos + 1 } (if rest = [] then none else some { m with items := rest, pos := m.pos + 1 })) := by
  have plain : (vtTy m.vtype).isBlk = false := by
    revert hb
    cases vtTy m.vtype <;> simp [ETy.packed, ETy.isBlk]
  have settled : drainSettled s m it.elem = true := by
    unfold drainSettled
    rw [his]
    rfl
  unfold drainMove
  refine (Op.run_bind_ok (Op.run_get s)).trans ?_
  dsimp only
  rw [hi]
  dsimp only
  rw [plain, settled]
  refine (Op.run_if_neg Bool.false_ne_true).trans ?_
  refine (Op.run_bind_ok (a := fl) (t := s.poke it.addr bs) ?_).trans ?_
  · cases hty : vtTy m.vtype with
    | blk w => rw [hty] at plain; cases plain
    | _ => exact h1
  · have cleared (e : MEngine) : [it].foldl (fun e a => if a.row < 512 then e.put a.row a.col 0 else e) e =
        e.put it.row it.col 0 := if_pos hr
    rw [Op.run_modify, if_neg Bool.false_ne_true, if_neg Bool.false_ne_true, cleared, his, Bool.and_true, endPass_going he]
    cases rest <;> rfl

/-- The writes of a drained entry: its own bytes alone, with its accumulator cleared where that is asked for. -/
theorem drainPass_item {r : List MCmd} {arow acol nc : Nat} (hon : engineOn s d idx l) (ht : ((s.die d).engine idx).task = none)
    (hq : ((s.die d).engine idx).queue = m :: r) (hdr : ((s.die d).engine idx).draining = false)
    (hk : m.kind = .drain clr arow acol nc) (hi : m.items = it :: rest) (his : m.issued = true) (he : l.ending = false)
    (hp : (vtTy m.vtype).packed = false) (hw : it.inWin = false) (hr : it.row < 512) (hc : it.col < 128)
    (hs : sound s it.addr (vtTy m.vtype).size) (hway : s.wayTo d it.addr = .clear)
    (hg : s.seqs.all (fun q => q.2.grp.st == .none) = true) :
    ∃ t, exec (.drainPass d idx) s = .next t ∧
      t.mem = s.mem.write it.addr (bytesOf (vtTy m.vtype).size
        (deliver (vtTy m.vtype) (drainRnd m it.elem) (.exact (Fmt.w48.decode (((s.die d).engine idx).get it.row it.col)) 0)).1) ∧
      ((t.die d).engine idx).queue = (if rest = [] then r else { m with items := rest, pos := m.pos + 1 } :: r) ∧
      ∀ row col, col < 128 → ((t.die d).engine idx).get row col =
        if clr = true ∧ row = it.row ∧ col = it.col then 0 else ((s.die d).engine idx).get row col := by
  have hd : d < 16 := hon.1
  refine ⟨_, drainPass_run hon ht hq hdr hk (drainMove_item hi his he hp hr (drainOne_run hp hw hs hway)), ?_, ?_, ?_⟩
  · rw [setHead_mem, State.modDie_mem, accrueTo_mem, State.poke_mem hg]
  · rw [setHead_setEngine hd (by split <;> exact Die.engine_idx ..) (by split <;> exact congrArg (List.drop 1) hq)]
    cases rest <;> rfl
  · intro row col hcol
    rw [setHead_setEngine hd (r := r) (by split <;> exact Die.engine_idx ..) (by split <;> exact congrArg (List.drop 1) hq)]
    cases clr with
    | false => rfl
    | true => simpa [MEngine.get] using MEngine.get_put ((s.die d).engine idx) (row := row) (r := it.row) 0 hcol hc

end Drain
end Sys2Proof.Machine

namespace Sys2Proof.Proofs
open Sys2Proof.Machine Sys2Proof.Claim

/-- Settles O45: what each event of an engine leaves of the store, of the queue and of memory, and the cells of a step one by one. -/
theorem engineMoves : Obligations.EngineMoves := by
  unfold Obligations.EngineMoves
  intro s d idx l m r e hon ht hq hdr
  have hd : d < 16 := hon.1
  have hidx : e.idx = idx := Die.engine_idx ..
  have left : e.queue.drop 1 = r := by rw [hq]; rfl
  refine ⟨?step, ?cells, ?elem, ?accz, ?accin, ?drained, ?drain⟩
  case step =>
    intro w o hw ho hb hl hi hoq _
    refine ⟨_, matrixStep_good hon ht hq hdr hw ho hb hl, setHead_mem .., ?_⟩
    rw [setHead_setEngine hd hi (by rw [hoq, left])]
    refine ⟨rfl, ?_⟩
    dsimp only
    split <;> rfl
  case cells =>
    intro w fa fb hw hf hpos hl hfa hfb
    obtain ⟨o, run, good, shell, store⟩ := tileStep_good (e := e) (pos := m.pos) hf hfa hfb
    obtain ⟨number, queue, -⟩ := MEngine.of_shell shell
    refine ⟨_, matrixStep_good hon ht hq hdr hw run good hl, setHead_mem .., ?_⟩
    rw [setHead_setEngine hd (number.trans hidx) (queue ▸ left)]
    intro row col hcol
    rw [← TileWork.val_good]
    exact store row col hcol
  case elem =>
    intro w t i k hc va key hw hs hm h0 h1
    exact fetchElem_half hc (fetchBytes_pair hw hs hm h0 h1)
  case accz =>
    intro arow acol nr nc hk
    refine ⟨_, acczPass_run hon ht hq hdr hk, setHead_mem .., ?_⟩
    rw [setHead_setEngine hd hidx left]
    exact ⟨rfl, fun row col hcol => MEngine.get_cleared e arow acol nr nc row hcol⟩
  case accin =>
    intro arow acol nc hk his
    obtain ⟨number, queue, -⟩ := MEngine.of_shell (e.sent_shell m.items)
    refine ⟨_, accinPass_run hon ht hq hdr hk his, setHead_mem .., ?_⟩
    rw [setHead_setEngine hd (number.trans hidx) (queue ▸ left)]
    refine ⟨rfl, fun it hi hc row col hcol => ?_, fun hi => ?_⟩
    · rw [hi]
      exact MEngine.get_put e it.val hcol hc
    · rw [hi]
      rfl
  case drained =>
    intro clr arow acol nc hk hi his he
    refine ⟨_, drainPass_run hon ht hq hdr hk (drainMove_empty hi his he), setHead_mem .., ?_⟩
    rw [setHead_engine _ _ _ _ _ hd]
    exact ⟨left, rfl⟩
  case drain =>
    intro clr arow acol nc it rest hk hi his he ty n hty hw hr hc hs hway hg
    have plain : ty.packed = false := by
      revert hty
      cases ty <;> simp [ETy.clsI, ETy.clsF, ETy.packed]
    obtain ⟨t, hx, hmem, hqueue, hacc⟩ := drainPass_item hon ht hq hdr hk hi his he plain hw hr hc hs hway hg
    refine ⟨t, hx, ?_, fun a ha => ?_, hqueue, hacc⟩
    · rw [hmem, Mem.num_write_size]
    · rw [hmem, Mem.get_write_other _ _ _ _ (by rwa [bytesOf_length])]

end Sys2Proof.Proofs
end

section
/-!
SUPPORT. A state in which TSUB waits at its record (10 R274; 13 R333): the record's page is an SO page, and a landing of a lower
instruction of the thread on an SO page has not arrived, though no instruction is in flight.
-/
namespace Sys2Proof.Machine
open Sys2Proof.Claim

namespace SlowLanding

/-- An SO page of main memory at address 0, which may be read. -/
def leaf : Word := toWord (1 + 2 + 1 * 16 + 0 * 128 + 1 * 512)

/-- Its translation. -/
def tlb : TlbEntry := ⟨0, 0, 1, leaf, 0, 0⟩

/-- The first half of the record, and the second. -/
def lo : Phys := ⟨0, leaf, 0⟩
def hi : Phys := ⟨64, leaf, 0⟩

/-- A byte that instruction 0 of the thread stores on an SO page. -/
def landing : Landing := ⟨0, 0, 0, 0, 0x800, [0], [0xFF], false, 0, 0, true⟩

/-- A thread of context 0 at its instruction 1, with x0 = 0 as the address of the record, whose words are 0. -/
def machine : State :=
  { (State.resetWith []).modDie 0 fun d => { d with tlb := [tlb] } with
    seqs := [(0, { Seq.reset with mode := .run, isn := 1 })], ctxs := [{ Ctx.none with st := .active }], landings := [landing] }

/-- Nothing is in flight, the record is translated, aligned and readable, and R275 accepts it. -/
theorem reads_record : quiet machine ∧ mapped machine 0 .load 0 lo ∧ mapped machine 0 .load 64 hi ∧
    ∀ k, k < 64 → sound machine (lo.key + k) 1 ∧ sound machine (hi.key + k) 1 := by
  refine ⟨⟨rfl, rfl⟩, ⟨⟨by decide, rfl, nofun, by decide, tlb, rfl, by decide, by decide⟩, nofun⟩,
    ⟨⟨by decide, rfl, nofun, by decide, tlb, rfl, by decide, by decide⟩, nofun⟩, fun k hk => ?_⟩
  exact ⟨⟨by revert k; decide, by revert k; decide, by revert k; decide, by revert k; decide, rfl⟩,
    ⟨by revert k; decide, by revert k; decide, by revert k; decide, by revert k; decide, rfl⟩⟩

/-- The tasks of die 0 in a next state. -/
def tasksOf : Res → List Task
  | .next t => (t.die 0).tasks
  | _ => []

/-- TSUB passes the gate, and puts no task into the queue. -/
theorem tsub_waits : ready (.tsub 0) machine ∧ tasksOf (exec (.tsub 0) machine) = [] := by
  unfold ready
  decide

end SlowLanding

end Sys2Proof.Machine

namespace Sys2Proof.Proofs
open Sys2Proof.Machine Sys2Proof.Claim

/-- Refutes O46 in its clause of TSUB, which asks nothing of landings: a record on an SO page is read only when the landings of lower
instructions on SO pages have arrived (13 R333), and these may outlive the instructions in flight. -/
theorem not_tileTasks : ¬ Obligations.TileTasks := by
  unfold Obligations.TileTasks
  intro h
  obtain ⟨still, low, high, readable⟩ := SlowLanding.reads_record
  obtain ⟨passes, waits⟩ := SlowLanding.tsub_waits
  obtain ⟨tsub, -⟩ := h 0 SlowLanding.machine SlowLanding.lo SlowLanding.hi (by decide)
  have queues := (tsub still (by decide) low high (by decide) (by decide) readable).2 (by decide) (by decide) passes
  rw [queues] at waits
  exact absurd waits (by decide)

end Sys2Proof.Proofs
end

section
/-!
SUPPORT. Tile tasks (10 R274 to R279): TSUB where no landing on an SO page is due (13 R333), the gates, the scheduler, and a task on its
engine.
-/
namespace Sys2Proof.Machine
open Sys2Proof.Claim

/-! ## TSUB (10 R274) -/

/-- Eight bytes that are sound one by one are sound. -/
theorem sound_word {s : State} {key n k : Nat} (h : ∀ j, j < n → sound s (key + j) 1) (hk : k + 8 ≤ n) : sound s (key + k) 8 := by
  obtain ⟨first, -, host, notify, soft⟩ := h k (by omega)
  obtain ⟨last, -⟩ := h (k + 7) (by omega)
  exact ⟨first, last, host, notify, soft⟩

/-- The words of a record whose halves stand at two places. -/
def recordWord (s : State) (lo hi : Phys) (k : Nat) : Word :=
  BitVec.ofNat 64 (if k < 8 then s.mem.num (lo.key + 8 * k) 8 else s.mem.num (hi.key + 8 * (k - 8)) 8)

/-- Word k of a list of n words, and 0 beyond them. -/
theorem getD_range_map (w : Nat → Word) (n k : Nat) : (((List.range n).map w)[k]?).getD 0 = if k < n then w k else 0 := by
  by_cases h : k < n <;> simp [h]

/-- What TSUB does with the words of its record. -/
def tsubPut (n : Nat) (rq : Reg) (q : Seq) (ws : List Word) : Op Ctl :=
  if taskBad fun k => (ws[k]?).getD 0 then trapWith 0x0B (q.getX rq).toNat
  else do
    let s ← get
    if (s.die (dieOf n)).tasks.length ≥ 256 then waitFor .other
    else if pairOff s n 3 && !q.inflight.isEmpty then waitFor .other
    else
      let t : Task := ⟨n, q.runId, q.ctx, s.now, q.isn, ws, q.cgkey, q.cgdraw, fld ((ws[0]?).getD 0) 8 3 == 0⟩
      modify fun s => s.modDie (dieOf n) fun d => { d with tasks := d.tasks ++ [t] }
      pure .next

/-- TSUB, up to what it does with the words of its record. -/
def tsubBody (rq : Reg) (n : Nat) : Op Ctl := do
  let q ← getSeq n
  let lo ← scalarAddr n (q.getX rq) 64 .load tiersCMW
  let hi ← scalarAddr n (q.getX rq + 64) 64 .load tiersCMW
  let ws ← taskWords n (q.getX rq).toNat lo hi
  tsubPut n rq q ws

theorem exec_tsub_body (rq : Reg) (s : State) : exec (.tsub rq) s = issue (.tsub rq) (tsubBody rq) s := rfl

section Record
variable {s : State} {lo hi : Phys} (hq : quiet s) (hl : ∀ l, l ∈ s.landings → l.so = false)
include hq hl

/-- The eight-byte load of a word in main memory or the well. -/
theorem scalarDo_word {p : Phys} (ht : p.tier = 1 ∨ p.tier = 2) (h : sound s p.key 8) (isn : BitVec 32) (va : Nat) :
    (scalarDo s.cur isn ⟨.ld, 8, 0, 0, 0, 0, .none⟩ va p 0 0).run s = .ok (BitVec.ofNat 64 (s.mem.num p.key 8)) s := by
  refine (scalarDo_quiet hq hl ..).trans ?_
  exact (Op.run_bind_ok (scalarRead_ld ht h hq.2)).trans rfl

variable (hlo : lo.tier = 1 ∨ lo.tier = 2) (hhi : hi.tier = 1 ∨ hi.tier = 2)
  (hs : ∀ k, k < 64 → sound s (lo.key + k) 1 ∧ sound s (hi.key + k) 1)
include hlo hhi hs

/-- The sixteen loads of a record. -/
theorem taskWords_run (va : Nat) :
    (taskWords s.cur va lo hi).run s = .ok ((List.range 16).map (recordWord s lo hi)) s := by
  unfold taskWords
  refine (Op.run_bind_ok (Op.run_getSeq _ s)).trans (Op.run_mapM fun k hk => ?_)
  rw [List.mem_range] at hk
  unfold recordWord
  by_cases h8 : k < 8
  · rw [if_pos h8, if_pos h8]
    exact scalarDo_word hq hl (p := { lo with key := lo.key + 8 * k }) hlo (sound_word (fun j hj => (hs j hj).1) (by omega)) ..
  · rw [if_neg h8, if_neg h8]
    exact scalarDo_word hq hl (p := { hi with key := hi.key + 8 * (k - 8) }) hhi (sound_word (fun j hj => (hs j hj).2) (by omega)) ..

variable {rq : Reg} (ha : (xr s rq).toNat % 64 = 0) (hml : mapped s s.cur .load (xr s rq).toNat lo)
  (hmh : mapped s s.cur .load ((xr s rq).toNat + 64) hi)
include ha hml hmh

/-- TSUB reads its record, and changes nothing before that. -/
theorem tsubBody_run : (tsubBody rq s.cur).run s =
    (tsubPut s.cur rq (s.seq s.cur) ((List.range 16).map (recordWord s lo hi))).run s := by
  have small : (xr s rq).toNat < 2 ^ 48 := hml.1.1
  have second : ((s.seq s.cur).getX rq + 64).toNat = (xr s rq).toNat + 64 := by
    change (xr s rq + 64).toNat = _
    rw [BitVec.toNat_add]
    exact Nat.mod_eq_of_lt (by change _ + 64 < _; omega)
  have tiers {p : Phys} (h : p.tier = 1 ∨ p.tier = 2) : tiersCMW.testBit p.tier = true := testBit_tiers (k := 2) (by omega)
  unfold tsubBody
  refine (Op.run_bind_ok (Op.run_getSeq _ s)).trans ?_
  refine (Op.run_bind_ok (scalarAddr_run ha hml.1 (tiers hlo))).trans ?_
  refine (Op.run_bind_ok (scalarAddr_run (by rw [second]; omega) (by rw [second]; exact hmh.1) (tiers hhi))).trans ?_
  exact Op.run_bind_ok (taskWords_run hq hl hlo hhi hs _)

/-- A record that breaks R275 traps with its address. -/
theorem tsub_traps (hb : taskBad (fun k => if k < 16 then recordWord s lo hi k else 0) = true) :
    traps (.tsub rq) 0x0B (xr s rq) 0 s := by
  refine traps_of_body (exec_tsub_body rq s) ((tsubBody_run hq hl hlo hhi hs ha hml hmh).trans ?_)
  unfold tsubPut
  simp only [getD_range_map]
  exact (Op.run_if_pos hb).trans (trapWith_word ..)

/-- A record that keeps it becomes a task at the end of the die's queue. -/
theorem tsub_queues (hb : taskBad (fun k => if k < 16 then recordWord s lo hi k else 0) = false)
    (hn : (s.die (s.cur / 16)).tasks.length < 256) (hr : ready (.tsub rq) s) :
    exec (.tsub rq) s = .next (done (.tsub rq) .next id (s.modDie (s.cur / 16) fun d => { d with tasks := d.tasks ++
      [⟨s.cur, (s.seq s.cur).runId, (s.seq s.cur).ctx, s.now, (s.seq s.cur).isn, (List.range 16).map (recordWord s lo hi),
        (s.seq s.cur).cgkey, (s.seq s.cur).cgdraw, (recordWord s lo hi 0).toNat / 256 % 8 == 0⟩] })) := by
  refine exec_completes (exec_tsub_body rq s) ((tsubBody_run hq hl hlo hhi hs ha hml hmh).trans ?_) rfl hr
  unfold tsubPut
  simp only [getD_range_map]
  refine (Op.run_if_neg (by rw [hb]; exact Bool.false_ne_true)).trans ?_
  refine (Op.run_bind_ok (Op.run_get s)).trans ?_
  refine (Op.run_if_neg (Nat.not_le.2 hn)).trans ?_
  exact (Op.run_if_neg (by simp [hq.1])).trans rfl

end Record

/-! ## Accesses of a task -/

section TaskAccess
variable {s : State} {who d c va n : Nat} {acc : Access} {p : Phys}

/-- An aligned address whose translation the die holds gives its place. -/
theorem taskAddr_run (ha : va % n = 0) (hm : mappedAt s d (s.ctx c).cptbase acc va p) :
    (taskAddr who d c va n acc).run s = .ok p s := by
  obtain ⟨t, ht⟩ := xlateOp_reaches (who := who) (c := c) (pl := none) hm.1 fun _ ht => ht
  obtain ⟨⟨-, -, -, way, -⟩, -⟩ := hm
  unfold taskAddr
  dsimp only
  refine (Op.run_if_neg (by simp [ha])).trans ?_
  refine (Op.run_bind_ok ht).trans ?_
  exact (Op.run_bind_ok (needRoute_run way)).trans rfl

/-- A task reads main memory and the well. -/
theorem taskRead_run (ha : va % n = 0) (hm : mappedAt s d (s.ctx c).cptbase .load va p) (ht : p.tier = 1 ∨ p.tier = 2) {len : Nat}
    (hs : sound s p.key len) : (taskRead who d c va n len).run s = .ok (s.mem.read p.key len) s := by
  unfold taskRead
  refine (Op.run_bind_ok (taskAddr_run ha hm)).trans ?_
  exact (Op.run_if_neg (tier_ne_zero ht)).trans (readKey_sound hs)

/-- The completion word of a task gains a number. -/
theorem taskDone_run {t : Task} (h0 : t.cdone ≠ 0) (ha : t.cdone % 8 = 0) (hm : mappedAt s d (s.ctx t.ctx).cptbase .atomic t.cdone p)
    (ht : p.tier = 1 ∨ p.tier = 2) (hs : sound s p.key 8) (v : Nat) :
    (taskDone who d t v).run s = .ok () (s.poke p.key (bytesOf 8 (s.mem.num p.key 8 + v))) := by
  have dirty : (dirtyOp d p).run s = .ok () s := congrArg (EStateM.Result.ok ()) (State.dirty_of_set (hm.2 rfl) d)
  have adds : ((do
      let p ← taskAddr who d t.ctx t.cdone 8 .atomic
      let bs ← if p.tier = 0 then readForeign t.cdone p.key 8 false else readKey (some t.cdone) p.key 8
      dirtyOp d p
      taskWrite p.tier t.cdone p.key (bytesOf 8 (ofBytes bs + v))) : Op Unit).run s =
        .ok () (s.poke p.key (bytesOf 8 (s.mem.num p.key 8 + v))) := by
    refine (Op.run_bind_ok (taskAddr_run ha hm)).trans ?_
    refine (Op.run_if_neg (tier_ne_zero ht)).trans ?_
    refine (Op.run_bind_ok (readKey_sound hs)).trans ?_
    refine (Op.run_bind_ok dirty).trans ?_
    exact (Op.run_if_neg (tier_ne_zero ht)).trans (writeKey_sound (by rwa [bytesOf_length]))
  unfold taskDone
  refine (Op.run_if_neg h0).trans ?_
  exact (Op.run_bind_ok (Op.run_attempt_ok adds)).trans rfl

end TaskAccess

/-! ## Gates (10 R277) -/

/-- What a gate's CMP asks of the word that it names. -/
def gateAsks (cmp : Nat) (v w : Word) : Prop := match cmp with
  | 0 => v = w
  | 1 => v ≠ w
  | 2 => w.toNat ≤ v.toNat
  | 3 => v.toNat < w.toNat
  | 4 => w.toInt ≤ v.toInt
  | _ => v.toInt < w.toInt

theorem gateCmp_iff (cmp : Nat) (v w : Word) : gateCmp cmp v w = true ↔ gateAsks cmp v w := by
  match cmp with
  | 0 => exact beq_iff_eq
  | 1 => exact bne_iff_ne
  | 2 =>
    change (!v.ult w) = true ↔ w.toNat ≤ v.toNat
    rw [not_ult_eq, decide_eq_true_eq]
  | 3 => exact BitVec.ult_iff_lt
  | 4 =>
    change (!v.slt w) = true ↔ w.toInt ≤ v.toInt
    rw [not_slt_eq, decide_eq_true_eq]
  | _ + 5 => exact BitVec.slt_iff_toInt_lt

section Gate
variable {s : State} {who d : Nat} {t : Task} {p : Phys}

/-- The value of a task's one gate. -/
theorem gatesHold_one (hn : t.ng = 1) (ha : fld (t.w 8) 0 48 % 8 = 0) (hm : mappedAt s d (s.ctx t.ctx).cptbase .load (fld (t.w 8) 0 48) p)
    (ht : p.tier = 1 ∨ p.tier = 2) (hs : sound s p.key 8) : (gatesHold who d t t.ng).run s =
      .ok (gateCmp (fld (t.w 8) 48 3) (toWord (s.mem.num p.key 8)) (t.w 9)) s := by
  rw [hn]
  unfold gatesHold
  dsimp only
  rw [hn]
  refine (Op.run_bind_ok (taskRead_run ha hm ht hs)).trans ?_
  change EStateM.run (if gateCmp (fld (t.w 8) 48 3) (toWord (s.mem.num p.key 8)) (t.w 9) = true
    then gatesHold who d t 0 else pure false) s = _
  cases gateCmp (fld (t.w 8) 48 3) (toWord (s.mem.num p.key 8)) (t.w 9) <;> rfl

/-- A task whose gates read otherwise than before is marked so. -/
theorem taskGateEvaluation_run {idx : Nat} {v : Bool} (hz : s.pkg.frozen = false) (hd : d < 16) (hi : (s.die d).tasks[idx]? = some t)
    (hr : s.runs t.ctx = true) (h : (gatesHold (taskWho d) d t t.ng).run s = .ok v s) (hv : v ≠ t.ready) :
    exec (.taskGateEvaluation d idx) s =
      .next (s.modDie d fun x => { x with tasks := x.tasks.set idx { t with ready := v } }) := by
  change occurs (tryTaskGateEvaluation d idx s) s = _
  unfold tryTaskGateEvaluation
  rw [if_neg (by simp [hz, hd]), hi]
  dsimp only
  rw [hr]
  refine (congrArg (occurs · s) (unitMove_ok ((Op.run_bind_ok (Op.run_attempt_ok h)).trans ?_))).trans (occurs_some ..)
  exact (Op.run_if_neg hv).trans rfl

end Gate

/-! ## The scheduler (10 R278) -/

/-- A die is changed alike by functions that agree on it. -/
theorem State.modDie_congr {s : State} {d : Nat} {f g : Die → Die} (h : f (s.die d) = g (s.die d)) : s.modDie d f = s.modDie d g :=
  congrArg (s.setDie d) h

/-- The one task of a queue, when it is ready and its context has a free engine, is dispatched to it. -/
theorem taskDispatch_one {s : State} {d : Nat} {t : Task} {l : Lease} (hz : s.pkg.frozen = false) (hd : d < 16)
    (hq : (s.die d).tasks = [t]) (ht : t.ready = true) (hr : s.runs t.ctx = true) (hl : freeEngine s d t.ctx = some l) :
    exec (.taskDispatch d) s = .next (s.modDie d fun x => ({ x with tasks := [] } : Die).setEngine
      { (x.engine l.engine) with task := some ⟨t, l.slot, TileDesc.zero, TileDesc.zero, false, [], [], 0, false, 0⟩ }) := by
  have next : nextTask s d = some (t, 0) := by
    unfold nextTask
    rw [hq]
    simp [ht, hr, hl, minBy]
  change occurs (tryTaskDispatch d s) s = _
  unfold tryTaskDispatch
  rw [if_neg (by simp [hz, hd]), next]
  dsimp only
  rw [hl]
  refine congrArg Host.Outcome.next (State.modDie_congr ?_)
  rw [hq]
  rfl

/-! ## A task on its engine (10 R279) -/

section Run
variable {s : State} {d idx : Nat} {l : Lease} {r : TaskRun} (hon : engineOn s d idx l)
  (hdr : ((s.die d).engine idx).draining = false) (hr : ((s.die d).engine idx).task = some r) (hc : r.checked = true)
include hon hdr hr

theorem taskRun_run {t : State} (h : (taskMove d idx r).run s = .ok () t) : exec (.taskRun d idx) s = .next t := by
  have go := engineOn_go hon hdr
  change occurs (tryTaskRun d idx s) s = _
  unfold tryTaskRun
  rw [go, hr]
  dsimp only
  rw [unitMove_ok h]
  rfl

omit hon hdr hr
include hc

/-- One step of a task that has been checked. -/
theorem taskMove_step {o : StepOut} (hp : r.pos < r.work.steps) (ho : (tileStep r.work ((s.die d).engine idx) r.pos).run s = .ok o s)
    (hb : o.bad = none) (hl : (s.ctx r.task.ctx).limit = 0) :
    (taskMove d idx r).run s = .ok () ((s.modDie d (·.setEngine o.eng)).modDie d fun x => x.setEngine { x.engine idx with
      task := some { r with pos := r.pos + 1, flags := r.flags ||| o.flags } }) := by
  unfold taskMove
  refine (Op.run_bind_ok (Op.run_get s)).trans ?_
  rw [hc]
  refine (Op.run_if_neg (by simp)).trans ?_
  refine (Op.run_if_pos hp).trans ?_
  refine (Op.run_bind_ok ho).trans ?_
  rw [hb]
  refine (Op.run_bind_ok (Op.run_modify ..)).trans ?_
  rw [Option.isSome_none, Bool.or_false]
  exact congrArg (EStateM.Result.ok ()) (chargeCtx_unlimited (by rw [State.modDie_ctx, State.modDie_ctx, hl]) _)

/-- A task that has drained gives its completion word 1, and leaves its engine. -/
theorem taskMove_ends {u : State} (hp : r.work.steps < r.pos) (h : (taskDone (engineWho d idx) d r.task 1).run s = .ok () u) :
    (taskMove d idx r).run s =
      .ok () (accrueTo (u.modDie d fun x => x.setEngine { x.engine idx with task := none }) r.task.runId r.flags) := by
  unfold taskMove
  refine (Op.run_bind_ok (Op.run_get s)).trans ?_
  rw [hc]
  refine (Op.run_if_neg (by simp)).trans ?_
  refine (Op.run_if_neg (by omega)).trans ?_
  refine (Op.run_if_neg (by omega)).trans ?_
  exact (Op.run_bind_ok h).trans rfl

end Run
end Sys2Proof.Machine

namespace Sys2Proof.Proofs
open Sys2Proof.Machine Sys2Proof.Claim

/-- O46's statement holds in every state without a landing on an SO page (10 R274 to R279). -/
theorem tileTasks_of_noLanding {s : State} (hl : ∀ l, l ∈ s.landings → l.so = false) (rq : Reg) (lo hi : Phys) :
    let q := s.seq s.cur
    let va := (xr s rq).toNat
    let w := fun (k : Nat) => BitVec.ofNat 64 (if k < 8 then s.mem.num (lo.key + 8 * k) 8 else s.mem.num (hi.key + 8 * (k - 8)) 8)
    let bad := taskBad fun k => if k < 16 then w k else 0
    s.cur / 16 < 16 →
    (quiet s → va % 64 = 0 → mapped s s.cur .load va lo → mapped s s.cur .load (va + 64) hi → lo.tier = 1 ∨ lo.tier = 2 →
      hi.tier = 1 ∨ hi.tier = 2 → (∀ k, k < 64 → sound s (lo.key + k) 1 ∧ sound s (hi.key + k) 1) →
        (bad = true → traps (.tsub rq) 0x0B (xr s rq) 0 s) ∧
        (bad = false → (s.die (s.cur / 16)).tasks.length < 256 → ready (.tsub rq) s →
          exec (.tsub rq) s = .next (done (.tsub rq) .next id (s.modDie (s.cur / 16) fun d => { d with tasks := d.tasks ++
            [⟨s.cur, q.runId, q.ctx, s.now, q.isn, (List.range 16).map w, q.cgkey, q.cgdraw,
              (w 0).toNat / 256 % 8 == 0⟩] })))) ∧
    ∀ d n idx t, s.pkg.frozen = false → d < 16 → dieOf n = d →
      (∀ p : Phys, (s.die d).tasks[idx]? = some t → (s.seq n).ctx = t.ctx → s.runs t.ctx = true → (t.w 0).toNat / 256 % 8 = 1 →
        let g := (t.w 8).toNat % 2 ^ 48
        let v := BitVec.ofNat 64 (s.mem.num p.key 8)
        let holds := match (t.w 8).toNat / 2 ^ 48 % 8 with
          | 0 => v = t.w 9
          | 1 => v ≠ t.w 9
          | 2 => (t.w 9).toNat ≤ v.toNat
          | 3 => v.toNat < (t.w 9).toNat
          | 4 => (t.w 9).toInt ≤ v.toInt
          | _ => v.toInt < (t.w 9).toInt
        g % 8 = 0 → mapped s n .load g p → p.tier = 1 ∨ p.tier = 2 → sound s p.key 8 →
          (holds → t.ready = false → exec (.taskGateEvaluation d idx) s =
            .next (s.modDie d fun x => { x with tasks := x.tasks.set idx { t with ready := true } })) ∧
          (¬holds → t.ready = true → exec (.taskGateEvaluation d idx) s =
            .next (s.modDie d fun x => { x with tasks := x.tasks.set idx { t with ready := false } }))) ∧
      (∀ l, (s.die d).tasks = [t] → t.ready = true → s.runs t.ctx = true → freeEngine s d t.ctx = some l →
        exec (.taskDispatch d) s = .next (s.modDie d fun x => ({ x with tasks := [] } : Die).setEngine
          { (x.engine l.engine) with
            task := some ⟨t, l.slot, TileDesc.zero, TileDesc.zero, false, [], [], 0, false, 0⟩ })) ∧
      (∀ l r, engineOn s d idx l → ((s.die d).engine idx).draining = false → ((s.die d).engine idx).task = some r →
        r.checked = true → r.work.steps < r.pos → (r.task.w 5).toNat % 2 ^ 48 = 0 →
          ∃ u, exec (.taskRun d idx) s = .next u ∧ u.mem = s.mem ∧ ((u.die d).engine idx).task = none ∧
            ((u.die d).engine idx).acc = ((s.die d).engine idx).acc) ∧
      (∀ l r o, engineOn s d idx l → ((s.die d).engine idx).draining = false → ((s.die d).engine idx).task = some r →
        r.checked = true → r.pos < r.work.steps → (s.ctx r.task.ctx).limit = 0 →
        (tileStep r.work ((s.die d).engine idx) r.pos).run s = .ok o s → o.bad = none → o.eng.idx = idx →
          ∃ u, exec (.taskRun d idx) s = .next u ∧ u.mem = s.mem ∧ ((u.die d).engine idx).acc = o.eng.acc ∧
            ((u.die d).engine idx).task = some { r with pos := r.pos + 1, flags := r.flags ||| o.flags }) ∧
      ∀ l r (p : Phys), engineOn s d idx l → ((s.die d).engine idx).draining = false → ((s.die d).engine idx).task = some r →
        r.checked = true → r.work.steps < r.pos → s.seqs.all (fun q => q.2.grp.st == .none) = true →
        let c := (r.task.w 5).toNat % 2 ^ 48
        c ≠ 0 → c % 8 = 0 → mappedAt s d (s.ctx r.task.ctx).cptbase .atomic c p → p.tier = 1 ∨ p.tier = 2 → sound s p.key 8 →
          ∃ u, exec (.taskRun d idx) s = .next u ∧ u.mem.num p.key 8 = (s.mem.num p.key 8 + 1) % 2 ^ 64 ∧
            (∀ b, (b < p.key ∨ p.key + 8 ≤ b) → u.mem.get b = s.mem.get b) ∧ ((u.die d).engine idx).task = none := by
  intro q va w bad hcur
  refine ⟨fun hq ha hml hmh hlo hhi hs => ?_, fun d n idx t hz hd hn => ⟨?gate, ?dispatch, ?ends, ?step, ?completes⟩⟩
  · have second : mapped s s.cur .load ((xr s rq).toNat + 64) hi := hmh
    exact ⟨tsub_traps hq hl hlo hhi hs ha hml second, tsub_queues hq hl hlo hhi hs ha hml second⟩
  case gate =>
    subst hn
    intro p hi hctx hr hng g v holds ha hm ht hs
    have root : mappedAt s (dieOf n) (s.ctx t.ctx).cptbase .load g p := hctx ▸ hm
    have gate : fld (t.w 8) 0 48 = g := fld_zero ..
    have value := gatesHold_one (who := taskWho (dieOf n)) hng (gate ▸ ha) (gate ▸ root) ht hs
    have asks : gateCmp (fld (t.w 8) 48 3) (toWord (s.mem.num p.key 8)) (t.w 9) = true ↔ holds := gateCmp_iff ..
    refine ⟨fun hh hready => ?_, fun hh hready => ?_⟩
    · rw [asks.2 hh] at value
      exact taskGateEvaluation_run hz hd hi hr value (by rw [hready]; decide)
    · rw [Bool.eq_false_iff.2 (mt asks.1 hh)] at value
      exact taskGateEvaluation_run hz hd hi hr value (by rw [hready]; decide)
  case dispatch =>
    exact fun l hq ht hr hl => taskDispatch_one hz hd hq ht hr hl
  case ends =>
    intro l r hon hdr hr hc hp h0
    have nothing : (taskDone (engineWho d idx) d r.task 1).run s = .ok () s := Op.run_if_pos ((fld_zero ..).trans h0)
    refine ⟨_, taskRun_run hon hdr hr (taskMove_ends hc hp nothing), accrueTo_mem .., ?_⟩
    rw [State.die_congr (accrueTo_dies ..), State.engine_setEngine hd (Die.engine_idx ..)]
    exact ⟨rfl, rfl⟩
  case step =>
    intro l r o hon hdr hr hc hp hlim ho hb hi
    refine ⟨_, taskRun_run hon hdr hr (taskMove_step hc hp ho hb hlim), rfl, ?_⟩
    rw [State.engine_setEngine hd (Die.engine_idx ..), State.engine_setEngine (f := fun _ => o.eng) hd hi]
    exact ⟨rfl, rfl⟩
  case completes =>
    intro l r p hon hdr hr hc hp hg c h0 ha hm ht hs
    have cdone : r.task.cdone = c := fld_zero ..
    rw [← cdone] at h0 ha hm
    refine ⟨_, taskRun_run hon hdr hr (taskMove_ends hc hp (taskDone_run h0 ha hm ht hs 1)), ?_, fun b hb => ?_, ?_⟩
    · rw [accrueTo_mem, State.modDie_mem, State.poke_mem hg, Mem.num_write_size]
    · rw [accrueTo_mem, State.modDie_mem, State.poke_mem hg, Mem.get_write_other _ _ _ _ (by rwa [bytesOf_length])]
    · rw [State.die_congr (accrueTo_dies ..), State.engine_setEngine hd (Die.engine_idx ..)]

end Sys2Proof.Proofs
end

section
/-!
SUPPORT. Stream registers: BINDQ, UNBINDQ, and the read of an element by MOVC, at issue or when the sleeping read wakes (11 R295, R296).
-/
namespace Sys2Proof.Machine
open Sys2Proof.Claim

/-! ## Moves -/

/-- Why a stopped move stopped is kept. -/
theorem Op.run_attempt_error {α : Type} {m : Op α} {s t : State} {e : Stop} (h : m.run s = .error e t) :
    (attempt m).run s = .ok (.error e) t := by
  change attempt m s = _
  unfold attempt
  rw [show m s = _ from h]

/-! ## The turn of a read with nothing in flight -/

section Idle
variable {s : State} {n : Nat} (hi : (s.seq n).inflight = [])
include hi

theorem scalarOrder_idle (isn : BitVec 32) : (scalarOrder n isn .none).run s = .ok () s := by
  unfold scalarOrder
  refine (Op.run_bind_ok (Op.run_get s)).trans ?_
  refine (Op.run_if_neg (by simp [hi])).trans ?_
  exact Op.run_if_neg (by simp [ordRel])

theorem scalarFar_idle (hl : ∀ l, l ∈ s.landings → l.so = false) (isn : BitVec 32) (key len kind : Nat) :
    (scalarFar n isn key len kind).run s = .ok () s := by
  unfold scalarFar
  refine (Op.run_bind_ok (Op.run_get s)).trans ?_
  refine (Op.run_if_neg (by simp [hi])).trans ?_
  exact Op.run_if_neg (by simp [soLandingDue_false hl])

end Idle

/-! ## The bytes of an element -/

/-- An aligned address of at most eight bytes lies in one line. -/
theorem reaches_pow_in_line {s : State} {n va k : Nat} {acc : Access} {p : Phys} (h : reaches s n acc va p) (hk : k ≤ 3)
    (ha : va % 2 ^ k = 0) : p.key % 64 + 2 ^ k ≤ 64 := by
  obtain ⟨-, -, -, -, t, -, -, hp⟩ := h
  have same : p.key % 8 = va % 8 := by rw [hp]; exact leafKey_mod ..
  obtain rfl | rfl | rfl | rfl : k = 0 ∨ k = 1 ∨ k = 2 ∨ k = 3 := by omega
  all_goals omega

/-- The current contents of a clear place, full or not. -/
theorem streamBytes_clear {s : State} {p : Phys} {len d : Nat} (hc : clear s p len) (hw : s.wayTo d p.key = .clear) (hq : quiet s)
    (hl : p.key % 64 + len ≤ 64) (va : Nat) : (streamBytes s.cur va len p).run s = .ok (s.mem.read p.key len) s := by
  have done := doneBelow_quiet hq ((s.seq s.cur).ownerOf p.key) (s.seq s.cur).isn
  unfold streamBytes
  refine (Op.run_bind_ok (Op.run_get s)).trans ?_
  refine (Op.run_if_neg (by rw [done]; simp)).trans ?_
  refine (Op.run_when (m := scalarFar s.cur (s.seq s.cur).isn p.key len p.kind)
    fun _ => scalarFar_quiet hq (landings_of_clear hc) ..).trans ?_
  split
  · obtain ⟨-, -, -, hs, -, -, hv, -⟩ := hc
    have line : viewLine s (s.seq s.cur) p.key (s.seq s.cur).isn = (s.mem.read (p.key / 64 * 64) 64, s.fullBits (p.key / 64)) := by
      rw [viewLine, hv]
      rfl
    refine (Op.run_bind_ok (checkSoft_run hs)).trans ?_
    rw [line, Op.run_pure, Mem.read_part _ hl, Nat.div_add_mod' p.key 64]
  · split
    · exact readKey_clear hc hw _
    · exact readFar_clear hc hw hq va

/-! ## One attempt to read (11 R296) -/

/-- What a stream read does once it has its landing word. -/
def streamTake (n : Nat) (r : StreamReg) (w : Word) : Op Word :=
  if r.pos ≥ fld w 24 24 then trapWith 0x15 0
  else if fld w 0 24 ≤ r.pos then waitFor .other
  else if r.kind = 1 || r.sz > 3 then streamAddr n r
  else do
    let a ← streamAddr n r
    let p ← scalarAddr n a (2 ^ r.sz) .load tiersAll
    return toWord (ofBytes (← streamBytes n a.toNat (2 ^ r.sz) p))

section Take
variable {s : State} {n : Nat} {r : StreamReg} {w : Word}

/-- Past the last element a read raises SYNC. -/
theorem streamTake_past (h : w.toNat / 2 ^ 24 % 2 ^ 24 ≤ r.pos) :
    (streamTake n r w).run s = .error (.trap ⟨0x15, 0, 0⟩) s := Op.run_if_pos h

variable (h : r.pos < w.toNat / 2 ^ 24 % 2 ^ 24)
include h

/-- An element that has not landed is waited for. -/
theorem streamTake_waits (hl : w.toNat % 2 ^ 24 ≤ r.pos) : (streamTake n r w).run s = .error (.wait .other) s := by
  rw [← fld_zero] at hl
  exact (Op.run_if_neg (Nat.not_le.2 h)).trans (Op.run_if_pos hl)

variable (hl : r.pos < w.toNat % 2 ^ 24) (h0 : r.index = 0)
include hl h0

/-- The element of a PGATH, or of no MOVC size, gives its address. -/
theorem streamTake_addr (hk : r.kind = 1 ∨ 3 < r.sz) :
    (streamTake n r w).run s = .ok (BitVec.ofNat 64 (r.base + r.pos * r.stride)) s := by
  rw [← fld_zero] at hl
  refine (Op.run_if_neg (Nat.not_le.2 h)).trans ?_
  refine (Op.run_if_neg (Nat.not_le.2 hl)).trans ?_
  refine (Op.run_if_pos (by simpa using hk)).trans ?_
  exact Op.run_if_pos h0

end Take

/-- Any other gives the number at its address. -/
theorem streamTake_value {s : State} {r : StreamReg} {w : Word} (h : r.pos < w.toNat / 2 ^ 24 % 2 ^ 24)
    (hl : r.pos < w.toNat % 2 ^ 24) (h0 : r.index = 0) (hk : r.kind ≠ 1) (hz : r.sz ≤ 3) {p : Phys} (hv : r.base + r.pos * r.stride < 2 ^ 48)
    (ha : (r.base + r.pos * r.stride) % 2 ^ r.sz = 0) (hm : reaches s s.cur .load (r.base + r.pos * r.stride) p) (ht : p.tier ≤ 2)
    (hc : clear s p (2 ^ r.sz)) (hq : quiet s) :
    (streamTake s.cur r w).run s = .ok (BitVec.ofNat 64 (s.mem.num p.key (2 ^ r.sz))) s := by
  have addr : (toWord (r.base + r.pos * r.stride)).toNat = r.base + r.pos * r.stride := by
    rw [toWord, BitVec.toNat_ofNat]
    exact Nat.mod_eq_of_lt (by omega)
  rw [← fld_zero] at hl
  refine (Op.run_if_neg (Nat.not_le.2 h)).trans ?_
  refine (Op.run_if_neg (Nat.not_le.2 hl)).trans ?_
  refine (Op.run_if_neg (by simp [hk]; omega)).trans ?_
  refine (Op.run_bind_ok (Op.run_if_pos h0)).trans ?_
  refine (Op.run_bind_ok (scalarAddr_run (by rw [addr]; exact ha) (by rw [addr]; exact hm) (testBit_tiers (k := 4) (by omega)))).trans ?_
  exact Op.run_bind_ok (streamBytes_clear hc (way_of_reaches hm) hq (reaches_pow_in_line hm hz ha) _)

section Read
variable {s : State} {k : Fin 4}

/-- A read of an unbound register raises SYNC. -/
theorem streamRead_unbound {n : Nat} (h : (s.seq n).sqr[k].bound = false) :
    (streamRead n k).run s = .error (.trap ⟨0x15, 0, 0⟩) s := by
  unfold streamRead
  refine (Op.run_bind_ok (Op.run_getSeq n s)).trans ?_
  exact Op.run_if_pos (by rw [h]; rfl)

/-- A read of a bound register finds its landing word. -/
theorem streamRead_bound {p : Phys} (hb : (s.seq s.cur).sqr[k].bound = true) (ha : (s.seq s.cur).sqr[k].landing % 8 = 0)
    (hv : (s.seq s.cur).sqr[k].landing < 2 ^ 48) (hm : reaches s s.cur .load (s.seq s.cur).sqr[k].landing p) (ht : p.tier = 0)
    (hc : clear s p 8) (hf : fullAt s p 8) (hi : (s.seq s.cur).inflight = []) :
    (streamRead s.cur k).run s = (streamTake s.cur (s.seq s.cur).sqr[k] (toWord (s.mem.num p.key 8))).run s := by
  have addr : (toWord (s.seq s.cur).sqr[k].landing).toNat = (s.seq s.cur).sqr[k].landing := by
    rw [toWord, BitVec.toNat_ofNat]
    exact Nat.mod_eq_of_lt (by omega)
  unfold streamRead
  refine (Op.run_bind_ok (Op.run_getSeq _ s)).trans ?_
  refine (Op.run_if_neg (by rw [hb]; exact Bool.false_ne_true)).trans ?_
  refine (Op.run_bind_ok (scalarAddr_run (by rw [addr]; exact ha) (by rw [addr]; exact hm) (testBit_tiers (k := 0) (by omega)))).trans ?_
  refine (Op.run_bind_ok (scalarOrder_idle hi _)).trans ?_
  refine (Op.run_bind_ok (scalarFar_idle hi (landings_of_clear hc) ..)).trans ?_
  exact Op.run_bind_ok (readForeign_clear hc (way_of_reaches hm) (hf ht) _)

end Read

/-! ## The instructions -/

/-- The control register that names stream register k. -/
def streamReg : Fin 4 → CReg
  | 0 => .sq0
  | 1 => .sq1
  | 2 => .sq2
  | 3 => .sq3

theorem streamOf_streamReg (k : Fin 4) : streamOf (streamReg k) = some k := match k with
  | 0 | 1 | 2 | 3 => rfl

/-- Stream register k after a read of value v into rd. -/
def Seq.streamed (q : Seq) (rd : Reg) (k : Fin 4) (v : Word) : Seq :=
  { q.setX rd v with sqr := q.sqr.set k.val { q.sqr[k] with pos := q.sqr[k].pos + 1 } }

theorem streamDone_run (s : State) (n : Nat) (rd : Reg) (k : Fin 4) (v : Word) :
    (streamDone n rd k v).run s = .ok () (s.modSeq n (·.streamed rd k v)) := by
  refine (Op.run_bind_ok (Op.run_putX ..)).trans ?_
  rw [Op.run_modSeqOp, State.modSeq_modSeq]
  simp only [Seq.setX_sqr]
  rfl

section Movc
variable {s : State} {rd : Reg} {k : Fin 4}

/-- MOVC from a stream register: the attempt to read, then the end of the read or the sleep. -/
def streamBody (rd : Reg) (k : Fin 4) (n : Nat) : Op Ctl := do
  match ← attempt (streamRead n k) with
  | .ok v =>
    streamDone n rd k v
    pure .next
  | .error (.wait _) =>
    modSeqOp n fun q => { q with sleep := some (.stream rd k.val) }
    pure .stay
  | .error e => throw e

theorem exec_movcRead_stream (rd : Reg) (k : Fin 4) (s : State) :
    exec (.movcRead rd (streamReg k)) s = issue (.movcRead rd (streamReg k)) (streamBody rd k) s := by
  rw [exec_movcRead]
  unfold execMovcRead
  rw [streamOf_streamReg]
  rfl

/-- What the attempt raises, MOVC raises. -/
theorem movcRead_traps (h : (streamRead s.cur k).run s = .error (.trap ⟨0x15, 0, 0⟩) s) :
    traps (.movcRead rd (streamReg k)) 0x15 0 0 s :=
  traps_of_body (exec_movcRead_stream rd k s) (Op.run_bind_ok (Op.run_attempt_error h))

/-- MOVC that must wait sleeps. -/
theorem exec_movcRead_sleeps (h : (streamRead s.cur k).run s = .error (.wait .other) s)
    (hi : ready (.movcRead rd (streamReg k)) s) : exec (.movcRead rd (streamReg k)) s =
      .next (s.modSeq s.cur fun q => { q with sleep := some (.stream rd k.val) }) := by
  rw [exec_movcRead_stream, issue_ok hi (c := .stay) (t := s.modSeq s.cur fun q => { q with sleep := some (.stream rd k.val) })
    (Op.run_bind_ok (Op.run_attempt_error h)), State.modSeq_modSeq]
  rfl

variable {v : Word} (h : (streamRead s.cur k).run s = .ok v s)
include h

/-- MOVC that reads completes. -/
theorem exec_movcRead_reads (hi : ready (.movcRead rd (streamReg k)) s) : exec (.movcRead rd (streamReg k)) s =
    .next (done (.movcRead rd (streamReg k)) .next (·.streamed rd k v) s) := by
  refine exec_done (exec_movcRead_stream ..) rfl ?_ hi
  refine (Op.run_bind_ok (Op.run_attempt_ok h)).trans ?_
  exact Op.run_bind_ok (streamDone_run ..)

/-- A sleeping read that finds its element completes. -/
theorem exec_streamRead_reads (hz : s.pkg.frozen = false) (hs : (s.seq s.cur).sleep = some (.stream rd k.val)) :
    exec (.streamRead s.cur) s = .next (s.modSeq s.cur fun q =>
      { q.streamed rd k v with sleep := none }.retire (.movcRead rd (streamReg k)) .next) := by
  have same : Fin.ofNat 4 k.val = k := Fin.ext (Nat.mod_eq_of_lt k.isLt)
  rw [exec_streamRead, execStreamRead, tryStreamRead, hs]
  dsimp only
  rw [same, wake_ok hz (t := s.modSeq s.cur fun q =>
      { q.streamed rd k v with sleep := none }.retire (.movcRead rd (streamReg k)) .next)]
  · rfl
  · refine (Op.run_bind_ok h).trans ?_
    refine (Op.run_bind_ok (streamDone_run ..)).trans ?_
    rw [finishSleep, Op.run_modSeqOp, State.modSeq_modSeq]
    rfl

end Movc

section Bind
variable {s : State} {ra : Reg} {b : BitVec 2}

/-- What BINDQ does with what the sequencer keeps of the last pump instruction that named the landing word. -/
def bindTo (k : Fin 4) (n : Nat) : Option StreamReg → Op Ctl
  | some c =>
    if c.kind = 2 then trapWith 0x15 0
    else do
      modSeqOp n fun q => { q with sqr := q.sqr.set k { c with bound := true, pos := 0 } }
      pure .next
  | none => trapWith 0x15 0

/-- BINDQ. -/
def bindqBody (b : BitVec 2) (ra : Reg) (n : Nat) : Op Ctl := do
  let q ← getSeq n
  bindTo b.toFin n (q.copyLog.find? fun c => c.landing == (q.getX ra).toNat)

theorem exec_bindq_body (b : BitVec 2) (ra : Reg) (s : State) : exec (.bindq b ra) s = issue (.bindq b ra) (bindqBody b ra) s := rfl

theorem bindqBody_run {o : Option StreamReg} (h : ((s.seq s.cur).copyLog.find? fun c => c.landing == (xr s ra).toNat) = o) :
    (bindqBody b ra s.cur).run s = (bindTo b.toFin s.cur o).run s :=
  (Op.run_bind_ok (Op.run_getSeq _ s)).trans (congrArg (fun o => (bindTo b.toFin s.cur o).run s) h)

theorem toFin_ofNat (k : Fin 4) : (BitVec.ofNat 2 k.val).toFin = k := match k with
  | 0 | 1 | 2 | 3 => rfl

/-- BINDQ binds the last pump instruction that named the landing word, but PSCAT. -/
theorem exec_bindq_binds {x : StreamReg} (k : Fin 4)
    (h : ((s.seq s.cur).copyLog.find? fun c => c.landing == (xr s ra).toNat) = some x) (hk : x.kind ≠ 2)
    (hi : ready (.bindq (BitVec.ofNat 2 k.val) ra) s) : exec (.bindq (BitVec.ofNat 2 k.val) ra) s =
      .next (done (.bindq (BitVec.ofNat 2 k.val) ra) .next
        (fun q => { q with sqr := q.sqr.set k.val { x with bound := true, pos := 0 } }) s) := by
  refine exec_done (exec_bindq_body ..) rfl ((bindqBody_run h).trans ?_) hi
  rw [toFin_ofNat]
  exact (Op.run_if_neg hk).trans (Op.run_bind_ok (Op.run_modSeqOp ..))

/-- BINDQ of no pump instruction raises SYNC. -/
theorem bindq_none_traps (h : ((s.seq s.cur).copyLog.find? fun c => c.landing == (xr s ra).toNat) = none) :
    traps (.bindq b ra) 0x15 0 0 s :=
  traps_of_body (exec_bindq_body ..) (bindqBody_run h)

/-- BINDQ of a PSCAT raises SYNC. -/
theorem bindq_pscat_traps {x : StreamReg} (h : ((s.seq s.cur).copyLog.find? fun c => c.landing == (xr s ra).toNat) = some x)
    (hk : x.kind = 2) : traps (.bindq b ra) 0x15 0 0 s :=
  traps_of_body (exec_bindq_body ..) ((bindqBody_run h).trans (Op.run_if_pos hk))

theorem exec_unbindq_unbinds (k : Fin 4) (hi : ready (.unbindq (BitVec.ofNat 2 k.val)) s) :
    exec (.unbindq (BitVec.ofNat 2 k.val)) s = .next (done (.unbindq (BitVec.ofNat 2 k.val)) .next
      (fun q => { q with sqr := q.sqr.set k.val StreamReg.none }) s) := by
  refine exec_done (exec_unbindq ..) rfl ?_ hi
  simp only [toFin_ofNat]
  exact Op.run_bind_ok (Op.run_modSeqOp ..)

end Bind

end Sys2Proof.Machine

namespace Sys2Proof.Proofs
open Sys2Proof.Machine Sys2Proof.Claim

/-- Settles O35: BINDQ's and UNBINDQ's outcomes, and each outcome of one attempt to read, at issue and at the wake. -/
theorem streamRegisters : Obligations.StreamRegisters := by
  unfold Obligations.StreamRegisters
  intro rd ra k s q c kb bound r
  have name : c = streamReg k := rfl
  rw [name]
  refine ⟨fun x hx hk hi => exec_bindq_binds k hx hk hi, bindq_none_traps,
    fun x hx hk => bindq_pscat_traps hx hk, exec_unbindq_unbinds k,
    fun hb => movcRead_traps (streamRead_unbound hb), fun p hb ha hv hm ht hc hf hi => ?_⟩
  have read := streamRead_bound hb ha hv hm.1 ht hc hf hi
  rw [← toNat_num s.mem p.key]
  refine ⟨fun h => movcRead_traps (read.trans (streamTake_past h)),
    fun h hl hi => exec_movcRead_sleeps (read.trans (streamTake_waits h hl)) hi,
    fun h hl h0 hk _ hi => ?_, fun h hl h0 hk hz p' => ?_⟩
  · exact exec_movcRead_reads (read.trans (streamTake_addr h hl h0 hk)) hi
  · intro a hv ha hm' ht' hc' hq value
    have reads := read.trans (streamTake_value h hl h0 hk hz hv ha hm'.1 ht' hc' hq)
    exact ⟨exec_movcRead_reads reads, exec_streamRead_reads reads⟩

end Sys2Proof.Proofs
end

section
/-!
SUPPORT. Pump instructions at issue (11 R283 to R289): the landing word, and the phase word of a copy without elements. Before the latter
is written, what the issuing sequencer is to leave in flight stands in the one entry of the table that bears its number.
-/
namespace Sys2Proof.Machine
open Sys2Proof.Claim

/-! ## What the keeping of old words changes (02 R57) -/

/-- What is kept of a word changes nothing else of the sequencer. -/
theorem Seq.keepWord_part {α : Type} (part : Seq → α) (hp : ∀ q k, part { q with kept := k } = part q) (s : State) (q : Seq)
    (w : Nat) : part (Seq.keepWord s q w) = part q := by
  unfold Seq.keepWord
  split
  · rfl
  · dsimp only
    rw [apply_ite part]
    exact (ite_congr rfl (fun _ => rfl) fun _ => hp ..).trans (ite_self _)

theorem Seq.keepWords_part {α : Type} (part : Seq → α) (hp : ∀ q k, part { q with kept := k } = part q) (s : State) (q : Seq)
    (ws : List Nat) : part (ws.foldl (Seq.keepWord s) q) = part q := by
  induction ws generalizing q with
  | nil => rfl
  | cons w ws ih => exact (ih _).trans (Seq.keepWord_part part hp s q w)

/-- Putting a value into a table leaves the other values. -/
theorem mem_of_mem_smapSet {α : Type} {k : Nat} {v : α} {l : List (Nat × α)} {p : Nat × α} (h : p ∈ smapSet k v l) :
    p = (k, v) ∨ p ∈ l := by
  have del {r : List (Nat × α)} (hp : p ∈ smapDel k r) : p ∈ r := (List.mem_filter.1 hp).1
  induction l with
  | nil => exact .inl (List.mem_singleton.1 h)
  | cons a r ih =>
    unfold smapSet at h
    split at h
    · obtain rfl | h := List.mem_cons.1 h
      · exact .inl rfl
      · exact .inr (List.mem_cons.2 ((List.mem_cons.1 h).imp id del))
    · split at h
      · exact (List.mem_cons.1 h).imp id fun h => List.mem_cons_of_mem _ (del h)
      · obtain rfl | h := List.mem_cons.1 h
        · exact .inr List.mem_cons_self
        · exact (ih h).imp id (List.mem_cons_of_mem _)

/-- A value that has been put into a table is the only one at its key. -/
theorem eq_of_mem_smapSet {α : Type} {k : Nat} {v : α} {l : List (Nat × α)} {p : Nat × α} (h : p ∈ smapSet k v l) (hk : p.1 = k) :
    p = (k, v) := by
  have gone (r : List (Nat × α)) : p ∉ smapDel k r := fun h => bne_iff_ne.1 (List.mem_filter.1 h).2 hk
  induction l with
  | nil => exact List.mem_singleton.1 h
  | cons a r ih =>
    unfold smapSet at h
    split at h
    · rename_i hlt
      obtain h | h := List.mem_cons.1 h
      · exact h
      · obtain rfl | h := List.mem_cons.1 h
        · omega
        · exact absurd h (gone r)
    · split at h
      · exact (List.mem_cons.1 h).resolve_right (gone r)
      · obtain rfl | h := List.mem_cons.1 h
        · exact absurd hk ‹_›
        · exact ih h

/-- The entry of sequencer n in the table is the only one of its number. -/
def State.lone (s : State) (n : Nat) : Prop := ∀ p, p ∈ s.seqs → p.1 = n → s.seq n = p.2

/-- An entry that has just been put into the table is. -/
theorem lone_setSeq (s : State) (n : Nat) (q : Seq) : (s.setSeq n q).lone n := by
  intro p hp hn
  rw [State.seq_setSeq, eq_of_mem_smapSet hp hn]

/-- A change of one sequencer that leaves its group's state opens no group. -/
theorem groupsClosed_setSeq {s : State} {n : Nat} {q : Seq} (hq : q.grp.st = .none)
    (hg : s.seqs.all (fun q => q.2.grp.st == .none) = true) : (s.setSeq n q).seqs.all (fun q => q.2.grp.st == .none) = true := by
  refine List.all_eq_true.2 fun p hp => ?_
  obtain rfl | hp := mem_of_mem_smapSet hp
  · exact beq_iff_eq.2 hq
  · exact List.all_eq_true.1 hg p hp

section KeepOld
variable (s : State) (key n : Nat)

@[simp] theorem keepOld_mem : (s.keepOld key n).mem = s.mem := by
  unfold State.keepOld
  split
  · split <;> rfl
  · rfl

@[simp] theorem keepOld_dies : (s.keepOld key n).dies = s.dies := by
  unfold State.keepOld
  split
  · split <;> rfl
  · rfl

@[simp] theorem keepOld_empty : (s.keepOld key n).empty = s.empty := by
  unfold State.keepOld
  split
  · split <;> rfl
  · rfl

variable {s}

/-- The keeping of old words leaves each part of a sequencer with one entry in the table, but what is kept. -/
theorem keepOld_seq {m : Nat} (hn : s.lone m) {α : Type} (part : Seq → α) (hp : ∀ q k, part { q with kept := k } = part q) :
    part ((s.keepOld key n).seq m) = part (s.seq m) := by
  unfold State.keepOld
  split
  · rename_i i q hw
    split
    · rfl
    · by_cases hm : m = i
      · have owner : s.seq i = q := hm ▸ hn _ (List.mem_of_find?_eq_some hw) hm.symm
        rw [hm, State.seq_setSeq, Seq.keepWords_part part hp, owner]
      · rw [State.seq_setSeq_other _ _ _ _ hm]
  · rfl

theorem keepOld_groupsClosed (hg : s.seqs.all (fun q => q.2.grp.st == .none) = true) :
    (s.keepOld key n).seqs.all (fun q => q.2.grp.st == .none) = true := by
  unfold State.keepOld
  split
  · rename_i i q hw
    split
    · exact hg
    · refine groupsClosed_setSeq ?_ hg
      rw [Seq.keepWords_part (·.grp.st) (fun _ _ => rfl)]
      exact beq_iff_eq.1 (List.all_eq_true.1 hg _ (List.mem_of_find?_eq_some hw))
  · exact hg

end KeepOld

/-! ## Full words -/

@[simp] theorem State.markWords_dies (s : State) (ws : List Nat) (full : Bool) : (s.markWords ws full).dies = s.dies := by
  induction ws generalizing s with
  | nil => rfl
  | cons w ws ih => exact ih _

/-- Words that were full or have been marked full are full. -/
theorem full_markWords {s : State} {key : Nat} {ws : List Nat} (h : s.full key = true ∨ key / 8 ∈ ws) :
    (s.markWords ws true).full key = true := by
  induction ws generalizing s with
  | nil => exact h.resolve_right (List.not_mem_nil)
  | cons w ws ih =>
    refine ih ?_
    by_cases hw : key / 8 = w
    · refine .inl ?_
      change (!(nsetDel w s.empty).contains (key / 8)) = true
      simp [nsetDel, hw]
    · refine (h.imp (fun h => ?_) fun h => (List.mem_cons.1 h).resolve_left hw)
      change (!(nsetDel w s.empty).contains (key / 8)) = true
      simpa [nsetDel, State.full, hw] using h

/-! ## The phase word of a copy without elements (11 R288, R292) -/

/-- Bytes that are written where they stand change nothing. -/
theorem Mem.get_write_read (m : Mem) (a n x : Nat) : (m.write a (m.read a n)).get x = m.get x := by
  by_cases h : x < a ∨ a + n ≤ x
  · exact Mem.get_write_other _ _ _ _ (by rwa [Mem.read_length])
  · obtain ⟨k, rfl⟩ : ∃ k, x = a + k := ⟨x - a, by omega⟩
    have hk : k < (m.read a n).length := by rw [Mem.read_length]; omega
    rw [Mem.get_write _ _ _ _ hk]
    exact Option.some.inj ((List.getElem?_eq_getElem hk).symm.trans (Mem.read_get m a n k (by omega)))

/-- The word that stands at a key, written there by a pump. -/
def pumpedAgain (s : State) (key : Nat) : State := pumpPoke s key (toWord (s.mem.num key 8))

section Again
variable {s : State} (key : Nat)

/-- The dies, and every full word, stay. -/
theorem pumpedAgain_kept : (pumpedAgain s key).dies = s.dies ∧ ∀ a, s.full a = true → (pumpedAgain s key).full a = true := by
  unfold pumpedAgain pumpPoke
  dsimp only
  by_cases h : inCist key = true
  · rw [if_pos h, if_pos h, State.markWords_dies]
    refine ⟨keepOld_dies .., fun a ha => full_markWords (.inl ?_)⟩
    change (!(s.keepOld key 8).empty.contains (a / 8)) = true
    rw [keepOld_empty]
    exact ha
  · rw [if_neg h, if_neg h]
    exact ⟨rfl, fun _ ha => ha⟩

/-- Every byte stays, with no group open. -/
theorem pumpedAgain_mem (hg : s.seqs.all (fun q => q.2.grp.st == .none) = true) : memKept s (pumpedAgain s key) := by
  have again : bytesOf 8 (toWord (s.mem.num key 8)).toNat = s.mem.read key 8 := by
    have same := bytesOf_ofBytes (s.mem.read key 8)
    rw [Mem.read_length] at same
    rw [toNat_num]
    exact same
  intro a
  unfold pumpedAgain pumpPoke
  dsimp only
  rw [again]
  by_cases h : inCist key = true
  · rw [if_pos h, if_pos h, State.markWords_mem, State.poke_mem (keepOld_groupsClosed key 8 hg), keepOld_mem]
    exact Mem.get_write_read ..
  · rw [if_neg h, if_neg h, State.poke_mem hg]
    exact Mem.get_write_read ..

/-- Each part of a sequencer with one entry in the table stays, but its watchers and what is kept. -/
theorem pumpedAgain_seq {m : Nat} (hn : s.lone m) {α : Type} (part : Seq → α)
    (hp : ∀ q m g d w, part { q with monitor := m, grp := g, dirtyGran := d, hwm := w } = part q)
    (hk : ∀ q k, part { q with kept := k } = part q) : part ((pumpedAgain s key).seq m) = part (s.seq m) := by
  unfold pumpedAgain pumpPoke
  dsimp only
  by_cases h : inCist key = true
  · rw [if_pos h, if_pos h, (noted_markWords ..).seq part hp, (noted_poke ..).seq part hp, keepOld_seq key 8 hn part hk]
  · rw [if_neg h, if_neg h, (noted_poke ..).seq part hp]

end Again

/-! ## The words of a pump instruction -/

/-- An aligned word that may be written, in a tier that is accepted. -/
theorem pumpWord_run {s : State} {who d c va tiers : Nat} {p : Phys} (ha : va % 8 = 0)
    (hm : reachesAt s d (s.ctx c).cptbase .store va p) (ht : tiers.testBit p.tier = true) :
    (pumpWord who d c va tiers).run s = .ok p s := by
  obtain ⟨t, hx⟩ := xlateOp_reaches (who := who) (c := c) (pl := none) hm fun _ ht => ht
  unfold pumpWord
  refine (Op.run_if_neg (by simp [ha])).trans ?_
  refine (Op.run_bind_ok hx).trans ?_
  exact Op.run_if_pos ht

/-- The state in which the landing word has been written. -/
def State.landed (s : State) (key : Nat) (w : Word) : State :=
  (s.poke key (bytesOf 8 w.toNat)).markWords (wordsOf key 8) true

theorem noted_landed (s : State) (key : Nat) (w : Word) : Noted s (s.landed key w) :=
  (noted_poke ..).trans (noted_markWords ..)

/-- The landing word of the grant's own window, with nothing in flight. -/
theorem landingFirst_run {s : State} {va : Nat} {p : Phys} (hq : quiet s) (hm : mapped s s.cur .store va p)
    (hin : (s.seq s.cur).inWin p.key = true) (hc : clear s p 8) (w : Word) :
    (landingFirst s.cur va p w).run s = .ok () (s.landed p.key w) := by
  have way := way_of_reaches hm.1
  have dirty : (dirtyOp (dieOf s.cur) p).run s = .ok () s := congrArg (EStateM.Result.ok ()) (State.dirty_of_set (hm.2 rfl) _)
  unfold landingFirst
  refine (Op.run_bind_ok (needRoute_run way)).trans ?_
  refine (Op.run_bind_ok dirty).trans ?_
  refine (Op.run_bind_ok (Op.run_getSeq _ s)).trans ?_
  refine (Op.run_if_pos hin).trans ?_
  refine (Op.run_bind_ok (scalarOrder_quiet hq ..)).trans ?_
  refine (Op.run_when fun _ => scalarFar_quiet hq (landings_of_clear hc) ..).trans ?_
  refine (Op.run_if_pos (doneBelow_quiet hq ..)).trans ?_
  refine (writeOwn_clear hc way hq (bytesOf_length ..) _).trans ?_
  rw [bytesOf_length]
  rfl

/-- The phase word of a copy without elements. -/
theorem phaseAtOnce_run {s : State} {n va : Nat} {p : Phys} (hw : s.wayTo (dieOf n) p.key = .clear) (hs : s.soft = [])
    (hd : eD p.leaf = true) : (phaseAtOnce n va p).run s = .ok () (pumpedAgain s p.key) := by
  have dirty : (dirtyOp (dieOf n) p).run s = .ok () s := congrArg (EStateM.Result.ok ()) (State.dirty_of_set hd _)
  unfold phaseAtOnce
  refine (Op.run_bind_ok (needRoute_run hw)).trans ?_
  refine (Op.run_bind_ok (checkSoft_run hs)).trans ?_
  exact Op.run_bind_ok dirty

/-! ## Copies of a pump -/

theorem State.copies_congr {s t : State} (h : t.dies = s.dies) (d p : Nat) : t.copies d p = s.copies d p := by
  unfold State.copies
  rw [State.die_congr h]

/-- The copies of a pump that have been changed. -/
theorem State.copies_modCopies {s : State} {d p : Nat} (hd : d < 16) (hp : ((s.die d).pumps[p]?).isSome = true)
    (f : List Copy → List Copy) : (s.modCopies d p f).copies d p = f (s.copies d p) := by
  obtain ⟨cs, hcs⟩ := Option.isSome_iff_exists.1 hp
  unfold State.modCopies State.copies
  rw [State.die_modDie_same _ _ _ hd]
  simp [hcs]

end Sys2Proof.Machine
end

section
/-!
SUPPORT. The issue of a pump instruction whose words have their places, and the traps before it (11 R284, R285, R288, R289).
-/
namespace Sys2Proof.Machine
open Sys2Proof.Claim

/-! ## The checks (11 R284, R285) -/

/-- The rows that R284 refuses. -/
theorem badRow_iff (r : Word) : badRow r = true ↔ (r.toNat % 2 ^ 32) % 8 ≠ 0 ∨ r.toNat % 2 ^ 32 < 8 ∨ 65536 < r.toNat % 2 ^ 32 ∨
    r.toNat / 2 ^ 32 % 8 ≠ 0 := by
  have pitch : fld r 32 32 % 8 = r.toNat / 2 ^ 32 % 8 := Nat.mod_mod_of_dvd _ (by decide)
  unfold badRow
  dsimp only
  rw [fld_zero, pitch]
  simp [or_assoc]

section Refused
variable {i : Instr} {p : PumpArgs} {rr : Option Reg} {d a : Spec} {s : State}

/-- A sum of values that are neither integers nor floating-point numbers raises VTYPE. -/
theorem pump_type_traps (he : exec i s = issue i (pumpIssue i .rdc p rr d a) s)
    (h : ((vtTy (s.seq s.cur).vtype).clsI || (vtTy (s.seq s.cur).vtype).clsF) = false) : traps i 0x03 0 0 s := by
  refine traps_of_body he ?_
  unfold pumpIssue
  refine (Op.run_bind_ok (Op.run_getSeq _ s)).trans ?_
  exact Op.run_if_pos (by rw [h]; rfl)

/-- Rows that R284 refuses raise VTYPE. -/
theorem pump_row_traps {k : PKind} (he : exec i s = issue i (pumpIssue i k p rr d a) s) (hk : k = .gath ∨ k = .scat)
    (h : badRow (xr s (rr.getD 0)) = true) : traps i 0x03 0 0 s := by
  refine traps_of_body he ?_
  unfold pumpIssue
  refine (Op.run_bind_ok (Op.run_getSeq _ s)).trans ?_
  obtain rfl | rfl := hk
  · exact (Op.run_if_neg Bool.false_ne_true).trans (Op.run_if_pos h)
  · exact (Op.run_if_neg Bool.false_ne_true).trans (Op.run_if_pos h)

end Refused

/-! ## The instruction with its words' places -/

/-- What a pump instruction does once its landing word and its phase word have their places. -/
def pumpEnter (i : Instr) (k : PKind) (p : PumpArgs) (rr : Option Reg) (d a : Spec) (n : Nat) (q : Seq) (land : Phys)
    (phase : Option Phys) : Op Ctl := do
  let s ← get
  if (s.copies (dieOf n) (pumpOf n)).length ≥ 16 then waitFor .other
  else if pairOff s n 2 && !q.inflight.isEmpty then waitFor .other
  else
    let c := pumpCopy q n k p rr d a land.key ((phase.map (·.key + 1)).getD 0)
    landingFirst n (q.getX p.xl).toNat land c.word
    modSeqOp n fun q => { q with
      copyLog := pumpStream q p c d :: q.copyLog.filter fun r => r.landing != (q.getX p.xl).toNat }
    if q.vl = 0 then
      match phase with
      | some r => phaseAtOnce n (q.getX p.xp).toNat r
      | none => pure ()
    else modify fun s => s.modCopies (dieOf n) (pumpOf n) (· ++ [c])
    enqueue i (formPump k p rr.toList d a) n
    pure .next

/-- The place of the phase word, if the instruction has one. -/
def phasePlace (s : State) (p : PumpArgs) : Option Phys → Prop
  | none => p.xp = 0
  | some w => p.xp ≠ 0 ∧ (xr s p.xp).toNat % 8 = 0 ∧ mapped s s.cur .store (xr s p.xp).toNat w ∧ w.tier ≤ 2

/-- The landing word is written, and BINDQ will find the copy. -/
def pumpLogged (s : State) (p : PumpArgs) (d : Spec) (c : Copy) (land : Phys) : State :=
  (s.landed land.key c.word).modSeq s.cur fun q => { q with
    copyLog := pumpStream q p c d :: q.copyLog.filter fun r => r.landing != (q.getX p.xl).toNat }

/-- The pump has the copy, or, of no element, its phase word has had its add. -/
def pumpStarted (s : State) (p : PumpArgs) (d : Spec) (c : Copy) (land : Phys) (phase : Option Phys) : State :=
  if (s.seq s.cur).vl = 0 then
    match phase with
    | some r => pumpedAgain (pumpLogged s p d c land) r.key
    | none => pumpLogged s p d c land
  else (pumpLogged s p d c land).modCopies (dieOf s.cur) (pumpOf s.cur) (· ++ [c])

/-- The instruction is in flight. -/
def State.enqueued (s : State) (i : Instr) (f : VForm) (n : Nat) : State :=
  s.setSeq n { s.seq n with inflight := (s.seq n).inflight ++ [{ (s.seq n).entryOf i f (sdestOf f) with waves := waveSize s n }] }

section Started
variable {s : State} {p : PumpArgs} {d : Spec} {c : Copy} {land : Phys} {phase : Option Phys}

theorem pumpLogged_wayTo (e key : Nat) : (pumpLogged s p d c land).wayTo e key = s.wayTo e key := (noted_landed ..).wayTo ..

theorem pumpLogged_dies : (pumpLogged s p d c land).dies = s.dies := State.markWords_dies ..

theorem pumpLogged_full : (pumpLogged s p d c land).full land.key = true :=
  full_markWords (.inr (word_mem_wordsOf (k := 0) (by decide)))

theorem pumpLogged_seq {α : Type} (part : Seq → α)
    (hp : ∀ q m g d w, part { q with monitor := m, grp := g, dirtyGran := d, hwm := w } = part q)
    (hl : ∀ q l, part { q with copyLog := l } = part q) : part ((pumpLogged s p d c land).seq s.cur) = part (s.seq s.cur) := by
  unfold pumpLogged
  rw [State.seq_modSeq, hl, (noted_landed ..).seq part hp]

theorem pumpLogged_groupsClosed (hg : s.seqs.all (fun q => q.2.grp.st == .none) = true) :
    (pumpLogged s p d c land).seqs.all (fun q => q.2.grp.st == .none) = true := by
  have closed := (noted_landed s land.key c.word).groupsClosed hg
  exact groupsClosed_setSeq (grp_closed closed s.cur) closed

theorem pumpLogged_lone : (pumpLogged s p d c land).lone s.cur := lone_setSeq _ _ _

/-- Of memory only the landing word changes. -/
theorem pumpStarted_mem (hg : s.seqs.all (fun q => q.2.grp.st == .none) = true) :
    memKept (s.landed land.key c.word) (pumpStarted s p d c land phase) := by
  unfold pumpStarted
  split
  · cases phase with
    | none => exact fun _ => rfl
    | some r => exact pumpedAgain_mem r.key (pumpLogged_groupsClosed hg)
  · exact fun _ => rfl

/-- It holds what the instruction writes there. -/
theorem pumpStarted_num (hg : s.seqs.all (fun q => q.2.grp.st == .none) = true) :
    (pumpStarted s p d c land phase).mem.num land.key 8 = c.word.toNat := by
  have kept : (pumpStarted s p d c land phase).mem.read land.key 8 = (s.landed land.key c.word).mem.read land.key 8 :=
    Mem.read_congr _ _ _ _ fun j _ => pumpStarted_mem hg (land.key + j)
  refine (congrArg ofBytes kept).trans ?_
  rw [State.landed, State.markWords_mem, State.poke_mem hg]
  exact Mem.num_write_bytes ..

theorem pumpStarted_other (hg : s.seqs.all (fun q => q.2.grp.st == .none) = true) {b : Nat}
    (hb : b < land.key ∨ land.key + 8 ≤ b) : (pumpStarted s p d c land phase).mem.get b = s.mem.get b := by
  refine (pumpStarted_mem hg b).trans ?_
  rw [State.landed, State.markWords_mem, State.poke_mem hg]
  exact Mem.get_write_other _ _ _ _ (by rwa [bytesOf_length])

theorem pumpStarted_full : (pumpStarted s p d c land phase).full land.key = true := by
  unfold pumpStarted
  split
  · cases phase with
    | none => exact pumpLogged_full
    | some r => exact (pumpedAgain_kept r.key).2 _ pumpLogged_full
  · exact pumpLogged_full (p := p) (d := d)

/-- The pump has one copy more, of some element. -/
theorem pumpStarted_copies (hd : s.cur / 16 < 16) (hp : ((s.die (s.cur / 16)).pumps[pumpOf s.cur]?).isSome = true) :
    (pumpStarted s p d c land phase).copies (dieOf s.cur) (pumpOf s.cur) =
      s.copies (dieOf s.cur) (pumpOf s.cur) ++ if (s.seq s.cur).vl = 0 then [] else [c] := by
  have logged : (pumpLogged s p d c land).copies (dieOf s.cur) (pumpOf s.cur) = s.copies (dieOf s.cur) (pumpOf s.cur) :=
    State.copies_congr pumpLogged_dies ..
  unfold pumpStarted
  split
  · rw [List.append_nil, ← logged]
    cases phase with
    | none => rfl
    | some r => exact State.copies_congr (pumpedAgain_kept r.key).1 ..
  · have pump : (((pumpLogged s p d c land).die (s.cur / 16)).pumps[pumpOf s.cur]?).isSome = true := by
      rw [State.die_congr pumpLogged_dies]
      exact hp
    exact (State.copies_modCopies hd pump _).trans (congrArg (· ++ [c]) logged)

/-- Of the sequencer what no write and no log of copies changes stays. -/
theorem pumpStarted_seq {α : Type} (part : Seq → α)
    (hp : ∀ q m g d w, part { q with monitor := m, grp := g, dirtyGran := d, hwm := w } = part q)
    (hl : ∀ q l, part { q with copyLog := l } = part q) (hk : ∀ q k, part { q with kept := k } = part q) :
    part ((pumpStarted s p d c land phase).seq s.cur) = part (s.seq s.cur) := by
  rw [← pumpLogged_seq part hp hl (p := p) (d := d) (c := c) (land := land)]
  unfold pumpStarted
  split
  · cases phase with
    | none => rfl
    | some r => exact pumpedAgain_seq r.key pumpLogged_lone part hp hk
  · rfl

end Started

/-- The landing word of a copy that has landed nothing. -/
theorem Copy.word_toNat {c : Copy} (h0 : c.landed = 0) (ht : c.tag < 2 ^ 16) :
    c.word.toNat = c.tag * 2 ^ 48 + c.vl % 2 ^ 24 * 2 ^ 24 := by
  rw [Copy.word, h0, toWord, BitVec.toNat_ofNat]
  omega

section Start
variable {i : Instr} {k : PKind} {p : PumpArgs} {rr : Option Reg} {d a : Spec} {s : State} {land : Phys} {phase : Option Phys}
  (hm : mapped s s.cur .store (xr s p.xl).toNat land) (hph : phasePlace s p phase)
include hm hph

/-- The landing word, the copy or the add, and the entry in flight. -/
theorem pumpEnter_run (hq : quiet s) (hc : clear s land 8) (hin : (s.seq s.cur).inWin land.key = true)
    (hlen : (s.copies (dieOf s.cur) (pumpOf s.cur)).length < 16) :
    (pumpEnter i k p rr d a s.cur (s.seq s.cur) land phase).run s = .ok .next ((pumpStarted s p d
      (pumpCopy (s.seq s.cur) s.cur k p rr d a land.key ((phase.map (·.key + 1)).getD 0)) land phase).enqueued i
        (formPump k p rr.toList d a) s.cur) := by
  unfold pumpEnter
  refine (Op.run_bind_ok (Op.run_get s)).trans ?_
  refine (Op.run_if_neg (by omega)).trans ?_
  refine (Op.run_if_neg (by rw [hq.1]; simp)).trans ?_
  refine (Op.run_bind_ok (landingFirst_run hq hm hin hc _)).trans ?_
  refine (Op.run_bind_ok (Op.run_modSeqOp ..)).trans ?_
  unfold pumpStarted
  by_cases h0 : (s.seq s.cur).vl = 0
  · refine (Op.run_if_pos h0).trans ?_
    rw [if_pos h0]
    cases phase with
    | none => rfl
    | some r =>
      obtain ⟨-, -, hw, -⟩ := hph
      have soft : s.soft = [] := by
        obtain ⟨-, -, -, hs, -⟩ := hc
        exact hs
      exact Op.run_bind_ok (phaseAtOnce_run (pumpLogged_wayTo .. |>.trans (way_of_reaches hw.1)) ((noted_landed ..).soft soft) (hw.2 rfl))
  · refine (Op.run_if_neg h0).trans ?_
    rw [if_neg h0]
    rfl

/-- A pump instruction whose checks pass finds the places of its words. -/
theorem pumpIssue_enters (hT : (k == .rdc && !((vtTy (s.seq s.cur).vtype).clsI || (vtTy (s.seq s.cur).vtype).clsF)) = false)
    (hR : ((k == .gath || k == .scat) && badRow (xr s (rr.getD 0))) = false) (ha : (xr s p.xl).toNat % 8 = 0) (ht : land.tier = 0) :
    (pumpIssue i k p rr d a s.cur).run s = (pumpEnter i k p rr d a s.cur (s.seq s.cur) land phase).run s := by
  unfold pumpIssue
  refine (Op.run_bind_ok (Op.run_getSeq _ s)).trans ?_
  refine (Op.run_if_neg (by rw [hT]; exact Bool.false_ne_true)).trans ?_
  refine (Op.run_if_neg (Bool.eq_false_iff.1 hR)).trans ?_
  refine (Op.run_bind_ok (pumpWord_run ha hm.1 (testBit_tiers (k := 0) (by omega)))).trans ?_
  cases phase with
  | none => exact (Op.run_if_pos (show p.xp = 0 from hph)).trans (Op.run_bind_ok (Op.run_pure ..))
  | some r =>
    obtain ⟨hx, hpa, hw, hwt⟩ := hph
    have place := pumpWord_run (who := s.cur) hpa hw.1 (testBit_tiers (k := 2) hwt)
    have found : (some <$> pumpWord s.cur (dieOf s.cur) (s.seq s.cur).ctx (xr s p.xp).toNat tiersCMW).run s = .ok (some r) s := by
      rw [map_eq_pure_bind]
      exact Op.run_bind_ok place
    exact (Op.run_if_neg hx).trans (Op.run_bind_ok found)

end Start

/-- O47's clause of a pump instruction that issues. -/
def pumpStarts (s : State) (p : PumpArgs) (d a : Spec) (i : Instr) (k : PKind) (r : Option Reg) : Prop :=
  ∀ (land : Phys) (phase : Nat), s.cur / 16 < 16 →
    (∀ j, j < 4 → ((s.die (s.cur / 16)).pumps[j]?).isSome = true) → quiet s → (xr s p.xl).toNat % 8 = 0 →
    mapped s s.cur .store (xr s p.xl).toNat land → land.tier = 0 → (s.seq s.cur).inWin land.key = true → clear s land 8 →
    ((p.xp = 0 ∧ phase = 0) ∨ (p.xp ≠ 0 ∧ (xr s p.xp).toNat % 8 = 0 ∧ ∃ w, mapped s s.cur .store (xr s p.xp).toNat w ∧
      w.tier ≤ 2 ∧ phase = w.key + 1)) → (s.copies (dieOf s.cur) (pumpOf s.cur)).length < 16 →
    s.seqs.all (fun q => q.2.grp.st == .none) = true → ready i s →
      ∃ t, exec i s = .next t ∧ t.mem.num land.key 8 = p.tag.toNat * 2 ^ 48 + (s.seq s.cur).vl % 2 ^ 24 * 2 ^ 24 ∧
        t.full land.key = true ∧ (∀ b, (b < land.key ∨ land.key + 8 ≤ b) → t.mem.get b = s.mem.get b) ∧
        t.copies (dieOf s.cur) (pumpOf s.cur) = s.copies (dieOf s.cur) (pumpOf s.cur) ++
          (if (s.seq s.cur).vl = 0 then [] else [pumpCopy (s.seq s.cur) s.cur k p r d a land.key phase]) ∧
        (t.seq s.cur).inflight.length = 1 ∧ ∀ r, (t.seq s.cur).getX r = xr s r

/-- It holds of every pump instruction whose checks pass. -/
theorem pumpStarts_of_checks {s : State} {p : PumpArgs} {d a : Spec} {i : Instr} {k : PKind} {rr : Option Reg}
    (he : exec i s = issue i (pumpIssue i k p rr d a) s)
    (hT : (k == .rdc && !((vtTy (s.seq s.cur).vtype).clsI || (vtTy (s.seq s.cur).vtype).clsF)) = false)
    (hR : ((k == .gath || k == .scat) && badRow (xr s (rr.getD 0))) = false) : pumpStarts s p d a i k rr := by
  intro land phase hd hps hq ha hm ht hin hc hph hlen hg hi
  obtain ⟨place, hpl, rfl⟩ : ∃ place, phasePlace s p place ∧ phase = (place.map (·.key + 1)).getD 0 := by
    obtain ⟨hx, rfl⟩ | ⟨hx, hpa, w, hw, hwt, rfl⟩ := hph
    · exact ⟨none, hx, rfl⟩
    · exact ⟨some w, ⟨hx, hpa, hw, hwt⟩, rfl⟩
  have body := (pumpIssue_enters (i := i) (d := d) (a := a) hm hpl hT hR ha ht).trans (pumpEnter_run hm hpl hq hc hin hlen)
  refine ⟨_, he.trans (issue_ok hi body), (pumpStarted_num hg).trans (Copy.word_toNat rfl p.tag.isLt), pumpStarted_full,
    fun b hb => pumpStarted_other hg hb, ?_, ?_, fun r => ?_⟩
  · exact (State.copies_congr rfl ..).trans (pumpStarted_copies hd (hps _ (by unfold pumpOf; omega)))
  · rw [State.seq_modSeq, Seq.retire_inflight, State.enqueued, State.seq_setSeq, List.length_append,
      pumpStarted_seq Seq.inflight (fun _ _ _ _ _ => rfl) (fun _ _ => rfl) (fun _ _ => rfl), hq.1]
    rfl
  · refine Seq.getX_congr ?_ r
    rw [State.seq_modSeq, Seq.retire_x, State.enqueued, State.seq_setSeq]
    exact pumpStarted_seq Seq.x (fun _ _ _ _ _ => rfl) (fun _ _ => rfl) (fun _ _ => rfl)

end Sys2Proof.Machine
end

section
/-!
SUPPORT. An element of eight bytes of a PCOPY or a PFILL at its pump, outside the cistern (11 R287, R290).
-/
namespace Sys2Proof.Machine
open Sys2Proof.Claim

/-! ## What the end of an element leaves (11 R290) -/

theorem mem_of_mem_nsetAdd {k j : Nat} {l : List Nat} (h : j ∈ nsetAdd k l) : j = k ∨ j ∈ l := by
  induction l with
  | nil => exact .inl (List.mem_singleton.1 h)
  | cons a r ih =>
    unfold nsetAdd at h
    split at h
    · exact List.mem_cons.1 h
    · split at h
      · exact .inr h
      · obtain rfl | h := List.mem_cons.1 h
        · exact .inr List.mem_cons_self
        · exact (ih h).imp id (List.mem_cons_of_mem _)

/-- L stays at an element that has not finished. -/
theorem leadRun_still {l : Nat} {done : List Nat} (h : ∀ j, j ∈ done → j ≠ l) : leadRun l done = (l, done) := by
  cases done with
  | nil => rfl
  | cons a r => exact if_neg (h a List.mem_cons_self)

/-- The first element that satisfies p after it has been changed. -/
theorem find?_updFirst_map {α : Type} {p : α → Bool} {f : α → α} (hf : ∀ x, p x = true → p (f x) = true) (l : List α) :
    (updFirst p f l).find? p = (l.find? p).map f := by
  induction l with
  | nil => rfl
  | cons a r ih =>
    unfold updFirst
    by_cases h : p a = true
    · rw [if_pos h, List.find?_cons_of_pos (hf a h), List.find?_cons_of_pos h]
      rfl
    · rw [if_neg h, List.find?_cons_of_neg h, List.find?_cons_of_neg h, ih]

/-- A copy whose L stays below E writes nothing. -/
theorem copyTick_mem {s : State} {d p id : Nat} {c : Copy} (hc : (s.copies d p).find? (fun c => c.id == id) = some c)
    (hl : ∀ j, j ∈ c.done → j ≠ c.landed) (hv : c.landed ≠ c.vl) : (copyTick s d p id).mem = s.mem := by
  have still : (if c.stuck s d then (c.landed, c.done) else leadRun c.landed c.done) = (c.landed, c.done) := by
    rw [leadRun_still hl, ite_self]
  unfold copyTick
  rw [hc]
  dsimp only
  rw [still]
  dsimp only
  rw [if_neg (not_not.2 rfl), if_neg hv]
  split
  · exact accrueTo_mem ..
  · rfl

/-- A pump that has a copy is there. -/
theorem pump_isSome {s : State} {d p k : Nat} {c : Copy} (h : (s.copies d p)[k]? = some c) : ((s.die d).pumps[p]?).isSome = true := by
  unfold State.copies at h
  cases hp : (s.die d).pumps[p]? with
  | none =>
    rw [hp] at h
    cases h
  | some cs => rfl

/-- The copy without an element that its pump has moved. -/
def Copy.spent (c : Copy) (e : PumpElem) (fl : Nat) : Copy :=
  { c with ready := c.ready.filter (fun x => x.idx != e.idx), runs := nsetAdd (c.run e.idx) c.runs, flags := c.flags ||| fl }

/-- An element of a copy has finished: what is left of the copy, and the charge of a unit that has begun. -/
def pumpEnd (d p : Nat) (c : Copy) (e : PumpElem) (ps : List Phys) (fl : Nat) (s : State) : State :=
  let s' := copyDone (s.modCopies d p fun cs => updFirst (fun x => x.id == c.id) (fun _ => c.spent e fl) cs) d p c.id e.idx
  if !c.runs.contains (c.run e.idx) then chargeCtx s' c.ctx (Copy.cost s' d c e ps) else s'

/-- An element above the landed ones ends without a write of its landing word. -/
theorem pumpEnd_mem {s : State} {d p : Nat} {c : Copy} {e : PumpElem} (hd : d < 16) (hp : ((s.die d).pumps[p]?).isSome = true)
    (hc : (s.copies d p).find? (fun x => x.id == c.id) = some c) (hl : ∀ j, j ∈ c.done → j ≠ c.landed) (he : c.landed ≠ e.idx)
    (hv : c.landed < c.vl) (ps : List Phys) (fl : Nat) : (pumpEnd d p c e ps fl s).mem = s.mem := by
  have done : ∀ u : State, ((u.die d).pumps[p]?).isSome = true → ∀ c' : Copy,
      (u.copies d p).find? (fun x => x.id == c.id) = some c' → c'.done = c.done → c'.landed = c.landed → c'.vl = c.vl →
        (copyDone u d p c.id e.idx).mem = u.mem := by
    intro u hu c' hc' hdone hland hvl
    have found := find?_updFirst_map (p := fun c' : Copy => c'.id == c.id)
      (f := fun c' => { c' with done := nsetAdd e.idx c'.done }) (fun _ h => h) (u.copies d p)
    rw [hc'] at found
    refine copyTick_mem (by rw [State.copies_modCopies hd hu]; exact found) (fun j hj => ?_) (by simp [hland, hvl]; omega)
    dsimp only at hj ⊢
    rw [hdone] at hj
    rw [hland]
    obtain rfl | hj := mem_of_mem_nsetAdd hj
    · exact he.symm
    · exact hl j hj
  have here : (s.copies d p).any (fun x => x.id == c.id) = true :=
    List.any_of_mem (List.mem_of_find?_eq_some hc) (beq_self_eq_true _)
  have same : (copyDone (s.modCopies d p fun cs => updFirst (fun x => x.id == c.id) (fun _ => c.spent e fl) cs) d p c.id e.idx).mem =
      s.mem := by
    refine done _ ?_ (c.spent e fl) ?_ rfl rfl rfl
    · rw [State.modCopies, State.die_modDie_same _ _ _ hd]
      simpa using hp
    · rw [State.copies_modCopies hd hp]
      exact find?_updFirst (by exact beq_self_eq_true c.id) here
  unfold pumpEnd
  dsimp only
  split
  · exact (chargeCtx_mem ..).trans same
  · exact same

/-! ## The element (11 R287) -/

/-- Eight bytes that do not cross a page. -/
theorem pageParts_one {va : Nat} (h : va % 4096 ≤ 4088) : pageParts va 8 = [(va, 8)] := by
  have one : (va + 8 - 1) / 4096 + 1 - va / 4096 = 1 := by omega
  have all : min (va + 8) ((va / 4096 + 1) * 4096) - va = 8 := by omega
  unfold pageParts pageStarts
  rw [one]
  simp [all]

section Element
variable {s : State} {who d c va n : Nat} {acc : Access} {p : Phys}

/-- One part whose translation the die holds. -/
theorem pumpXl_one (hm : mappedAt s d (s.ctx c).cptbase acc va p) (fail : Nat) :
    (pumpXl who d c acc fail [(va, n)]).run s = .ok [p] s := by
  obtain ⟨t, hx⟩ := xlateOp_reaches (who := who) (c := c) (pl := none) hm.1 fun _ ht => ht
  obtain ⟨⟨-, -, -, way, -⟩, -⟩ := hm
  unfold pumpXl
  refine (Op.run_bind_ok (Op.run_mapM_single (b := some p) (t := s) ((Op.run_bind_ok hx).trans rfl))).trans ?_
  exact Op.run_mapM_single ((Op.run_bind_ok (needRoute_run way)).trans rfl)

/-- One part that is sound is read. -/
theorem pumpRead_one (hs : sound s p.key n) : (pumpRead [(va, n)] [p]).run s = .ok (s.mem.read p.key n) s := by
  unfold pumpRead
  refine (Op.run_bind_ok (Op.run_mapM_single (b := s.mem.read p.key n) (t := s) (readKey_sound hs))).trans ?_
  simp

end Element

/-- The parts of the source of an element. -/
def Copy.srcParts (c : Copy) (e : PumpElem) : List (Nat × Nat) := match c.src e with
  | some a => pageParts a c.size
  | none => []

section Do
variable {s : State} {d pu : Nat} {c : Copy} {e : PumpElem} {t : Phys}

/-- A part outside the cistern is written. -/
theorem pumpPart_far {va cost : Nat} {bs : List Byte} (ht : t.tier ≠ 0) (hs : sound s t.key bs.length) :
    (pumpPart d pu c e cost va t bs).run s = .ok () (s.poke t.key bs) := by
  unfold pumpPart
  exact (Op.run_if_pos (bne_iff_ne.2 ht)).trans (writeKey_sound hs)

/-- An element whose bytes have been read: the rest of it. -/
def pumpPut (d p : Nat) (c : Copy) (e : PumpElem) (sps : List Phys) (dparts : List (Nat × Nat)) (dps : List Phys) (src : List Byte) :
    Op Unit := do
  let (bs, fl) ← pumpData c e ((c.src e).getD 0) src dparts dps
  let cost := ((sps.map fun k => fabricCost k.key d).max?).getD 1
  for k in dps do dirtyOp d k
  pumpWrite d p c e cost (dparts.zip dps) bs
  modify fun s => pumpEnd d p c e (sps ++ dps) fl s

/-- The bytes stand at the destination, and the element has finished. -/
theorem pumpPut_run {sps : List Phys} {bs : List Byte} (hk : c.kind = 4 ∨ c.kind = 0)
    (hm : mappedAt s d (s.ctx c.ctx).cptbase .store (c.dst e) t) (ht : t.tier = 1 ∨ t.tier = 2) (hs : sound s t.key 8)
    (hb : bs.length = 8) :
    (pumpPut d pu c e sps [(c.dst e, 8)] [t] bs).run s = .ok () (pumpEnd d pu c e (sps ++ [t]) 0 (s.poke t.key bs)) := by
  have data (sva : Nat) : (pumpData c e sva bs [(c.dst e, 8)] [t]).run s = .ok (bs, 0) s :=
    Op.run_if_pos (bne_iff_ne.2 (by omega))
  have dirty : (dirtyOp d t).run s = .ok () s := congrArg (EStateM.Result.ok ()) (State.dirty_of_set (hm.2 rfl) _)
  have write (cost : Nat) : (pumpWrite d pu c e cost [((c.dst e, 8), t)] bs).run s = .ok () (s.poke t.key bs) := by
    have whole : bs.take 8 = bs := List.take_of_length_le (by omega)
    unfold pumpWrite
    rw [whole]
    exact (Op.run_bind_ok (pumpPart_far (tier_ne_zero ht) (by rwa [hb]))).trans rfl
  unfold pumpPut
  refine (Op.run_bind_ok (data _)).trans ?_
  refine (Op.run_bind_ok (a := ⟨⟩) (t := s) ?_).trans (Op.run_bind_ok (write _))
  rw [List.forIn_cons]
  exact (Op.run_bind_ok (Op.run_bind_ok dirty)).trans rfl

/-- An element whose bytes can be read is written. -/
theorem pumpDo_run {sps : List Phys} {bs : List Byte} (hk : c.kind = 4 ∨ c.kind = 0) (hz : c.size = 8)
    (hp : c.dst e % 4096 ≤ 4088) (hm : mappedAt s d (s.ctx c.ctx).cptbase .store (c.dst e) t) (ht : t.tier = 1 ∨ t.tier = 2)
    (hs : sound s t.key 8) (hb : bs.length = 8)
    (hsrc : (pumpXl (pumpWho d pu) d c.ctx .load 0x07 (c.srcParts e)).run s = .ok sps s)
    (hread : (if (c.src e).isSome then pumpRead (c.srcParts e) sps else pure (bytesOf c.size c.srcVal.toNat)).run s = .ok bs s) :
    (pumpDo d pu c e).run s = .ok () (pumpEnd d pu c e (sps ++ [t]) 0 (s.poke t.key bs)) := by
  have parts : pageParts (c.dst e) c.size = [(c.dst e, 8)] := hz ▸ pageParts_one hp
  have acc : (if c.kind = 3 then Access.atomic else Access.store) = .store := if_neg (by omega)
  have tiers : c.tiers = 0b11111 := by
    unfold Copy.tiers
    obtain h | h := hk <;> rw [h] <;> rfl
  have accepted : ([t].find? fun k => !c.tiers.testBit k.tier) = none := by
    have bit : (0b11111 : Nat).testBit t.tier = true := testBit_tiers (k := 4) (by omega)
    rw [tiers, List.find?_singleton, bit]
    rfl
  unfold pumpDo
  dsimp only
  rw [parts, acc]
  refine (Op.run_bind_ok hsrc).trans ?_
  refine (Op.run_bind_ok (pumpXl_one hm _)).trans ?_
  rw [accepted]
  have put := pumpPut_run (pu := pu) (sps := sps) hk hm ht hs hb
  by_cases h : (c.src e).isSome = true
  · rw [if_pos h] at hread
    exact (congrArg (fun o : Op Unit => o.run s) (if_pos h)).trans ((Op.run_bind_ok hread).trans put)
  · rw [if_neg h] at hread
    exact (congrArg (fun o : Op Unit => o.run s) (if_neg h)).trans ((Op.run_bind_ok hread).trans put)

/-- PUMP_ELEMENT of an element whose turn has come. -/
theorem exec_pumpElement_run {k : Nat} {u : State} (hf : s.pkg.frozen = false) (hd : d < 16) (hk : k < 4)
    (hc : (s.copies d pu)[k]? = some c) (hr : c.ready.find? (fun x => x.idx == e.idx) = some e) (hfail : c.failed = none)
    (hl : c.lowerClash e = false) (hlim : (s.ctx c.ctx).limit = 0) (hv : e.idx < c.vl)
    (hdo : (pumpDo d pu c e).run s = .ok () u) : exec (.pumpElement d pu k e.idx) s = .next u := by
  have begins : s.canBegin c.ctx = true := by simp [State.canBegin, hlim]
  rw [exec_pumpElement, execPumpElement]
  unfold tryPumpElement
  rw [if_neg (by simp [hf]; omega), hc]
  dsimp only
  rw [if_neg (by simp [hfail]), if_neg (by simp; omega), hr]
  dsimp only
  rw [if_neg (by simp [hl, begins]; omega), pumpMove, unitMove_ok ((Op.run_bind_ok (Op.run_attempt_ok hdo)).trans rfl)]
  rfl

end Do

/-! ## Elements of eight bytes -/

/-- The last clause of O47: an element of a PCOPY or a PFILL at its pump. -/
def pumpElements (s : State) : Prop := ∀ (die pump k : Nat) (c : Copy) (e : PumpElem) (t r : Phys) (m : Nat),
  s.pkg.frozen = false → die < 16 → k < 4 → dieOf m = die → (s.seq m).ctx = c.ctx → (s.copies die pump)[k]? = some c →
    c.ready.find? (fun x => x.idx == e.idx) = some e → (s.copies die pump).find? (fun x => x.id == c.id) = some c →
    c.kind = 4 ∨ c.kind = 0 → c.size = 8 → c.failed = none → c.lowerClash e = false → (s.ctx c.ctx).limit = 0 →
    let va := strideAt c.dstBase e.idx c.dstStride
    let vs := strideAt c.srcBase e.idx c.srcStride
    e.idx < c.vl → va % 4096 ≤ 4088 → mapped s m .store va t → t.tier = 1 ∨ t.tier = 2 → sound s t.key 8 → c.landed ≠ e.idx →
    (c.kind = 0 → vs % 4096 ≤ 4088 ∧ mapped s m .load vs r ∧ (r.tier = 1 ∨ r.tier = 2) ∧ sound s r.key 8) →
    s.seqs.all (fun q => q.2.grp.st == .none) = true → c.landed < c.vl → c.abandoned = false → (∀ j, j ∈ c.done → j ≠ c.landed) →
      ∃ u, exec (.pumpElement die pump k e.idx) s = .next u ∧ u.mem.num t.key 8 =
        (if c.kind = 4 then c.srcVal.toNat else s.mem.num r.key 8) ∧
        ∀ b, (b < t.key ∨ t.key + 8 ≤ b) → u.mem.get b = s.mem.get b

theorem Copy.dst_plain {c : Copy} (hk : c.kind = 4 ∨ c.kind = 0) (e : PumpElem) :
    c.dst e = strideAt c.dstBase e.idx c.dstStride := by
  unfold Copy.dst
  obtain h | h := hk <;> rw [h] <;> rfl

/-- The bytes of an element, as its pump reads them: those at its source for a PCOPY, its value for a PFILL. -/
def Copy.bytes (c : Copy) (mem : Mem) (key : Nat) : List Byte :=
  if c.kind = 4 then bytesOf 8 c.srcVal.toNat else mem.read key 8

theorem Copy.bytes_length (c : Copy) (mem : Mem) (key : Nat) : (c.bytes mem key).length = 8 := by
  unfold Copy.bytes
  split
  · exact bytesOf_length ..
  · exact Mem.read_length ..

theorem Copy.ofBytes_bytes (c : Copy) (mem : Mem) (key : Nat) :
    ofBytes (c.bytes mem key) = if c.kind = 4 then c.srcVal.toNat else mem.num key 8 := by
  unfold Copy.bytes
  split
  · rw [ofBytes_bytesOf]
    exact Nat.mod_eq_of_lt c.srcVal.isLt
  · rfl

/-- The source of an element is translated and read. -/
theorem pumpSource_run {s : State} {who d : Nat} {c : Copy} {e : PumpElem} {r : Phys} (hk : c.kind = 4 ∨ c.kind = 0) (hz : c.size = 8)
    (hs : c.kind = 0 → strideAt c.srcBase e.idx c.srcStride % 4096 ≤ 4088 ∧
      mappedAt s d (s.ctx c.ctx).cptbase .load (strideAt c.srcBase e.idx c.srcStride) r ∧ sound s r.key 8) :
    ∃ sps, (pumpXl who d c.ctx .load 0x07 (c.srcParts e)).run s = .ok sps s ∧
      (if (c.src e).isSome then pumpRead (c.srcParts e) sps else pure (bytesOf c.size c.srcVal.toNat)).run s =
        .ok (c.bytes s.mem r.key) s := by
  obtain h | h := hk
  · have src : c.src e = none := by
      unfold Copy.src
      rw [h]
      rfl
    refine ⟨[], ?_, ?_⟩
    · unfold Copy.srcParts
      rw [src]
      rfl
    · rw [src, hz, Copy.bytes, if_pos h]
      rfl
  · obtain ⟨page, hm, snd⟩ := hs h
    have src : c.src e = some (strideAt c.srcBase e.idx c.srcStride) := by
      unfold Copy.src
      rw [h]
      rfl
    have parts : c.srcParts e = [(strideAt c.srcBase e.idx c.srcStride, 8)] := by
      unfold Copy.srcParts
      rw [src, hz]
      exact pageParts_one page
    refine ⟨[r], ?_, ?_⟩
    · rw [parts]
      exact pumpXl_one hm _
    · have notFill : ¬c.kind = 4 := by omega
      rw [src, parts, Copy.bytes, if_neg notFill]
      exact pumpRead_one snd

/-- An element whose turn has come moves its eight bytes. -/
theorem pumpElements_hold (s : State) : pumpElements s := by
  intro die pump k c e t r m hf hd hk hdie hctx hc hr hid hkind hz hfail hl hlim va vs hv page hm ht hs hne hsrc hg hlv _ hdone
  have root : mappedAt s die (s.ctx c.ctx).cptbase .store (c.dst e) t := by
    rw [Copy.dst_plain hkind, ← hdie, ← hctx]
    exact hm
  obtain ⟨sps, translated, read⟩ := pumpSource_run (s := s) (who := pumpWho die pump) (d := die) (e := e) (r := r) hkind hz fun h => by
    obtain ⟨spage, sm, -, snd⟩ := hsrc h
    rw [← hdie, ← hctx]
    exact ⟨spage, sm, snd⟩
  have moved := exec_pumpElement_run hf hd hk hc hr hfail hl hlim hv
    (pumpDo_run hkind hz (Copy.dst_plain hkind e ▸ page) root ht hs (c.bytes_length ..) translated read)
  have dies : (s.poke t.key (c.bytes s.mem r.key)).dies = s.dies := rfl
  have mem := pumpEnd_mem (e := e) (s := s.poke t.key (c.bytes s.mem r.key)) hd
    (by rw [State.die_congr dies]; exact pump_isSome hc) (by rw [State.copies_congr dies]; exact hid) hdone hne hlv (sps ++ [t]) 0
  rw [State.poke_mem hg] at mem
  refine ⟨_, moved, ?_, fun b hb => ?_⟩
  · have back := s.mem.read_write t.key (c.bytes s.mem r.key)
    rw [c.bytes_length] at back
    rw [mem, Mem.num, back, c.ofBytes_bytes]
  · rw [mem]
    exact Mem.get_write_other _ _ _ _ (by rwa [c.bytes_length])

end Sys2Proof.Machine

namespace Sys2Proof.Proofs
open Sys2Proof.Machine Sys2Proof.Claim

/-- Settles O47. An instruction whose checks pass finds the places of its words, writes its landing word and enters the flight; the add to
a phase word changes nothing of its sequencer but what is kept, since the log of copies has just been put into the one entry of that number.
An element at its pump is translated, read and written, and its end, above L, writes no landing word. -/
theorem pumpInstructions : Obligations.PumpInstructions := by
  unfold Obligations.PumpInstructions
  intro s p rr d a q n row badR badT starts
  have sums : badT → traps (.prdc p d a) 0x03 0 0 s := pump_type_traps rfl
  have rows : badR → traps (.pgath p rr d a) 0x03 0 0 s ∧ traps (.pscat p rr d a) 0x03 0 0 s := fun h =>
    ⟨pump_row_traps (rr := some rr) rfl (.inl rfl) ((badRow_iff _).2 h), pump_row_traps (rr := some rr) rfl (.inr rfl) ((badRow_iff _).2 h)⟩
  have sum : ¬badT → starts (.prdc p d a) .rdc none := fun h =>
    pumpStarts_of_checks rfl (by rw [Bool.eq_true_of_not_eq_false h]; rfl) rfl
  have moved : ¬badR → starts (.pgath p rr d a) .gath (some rr) ∧ starts (.pscat p rr d a) .scat (some rr) := fun h =>
    have fits : badRow (xr s rr) = false := Bool.eq_false_iff.2 fun hb => h ((badRow_iff _).1 hb)
    ⟨pumpStarts_of_checks rfl rfl (by rw [Option.getD_some, fits, Bool.and_false]),
      pumpStarts_of_checks rfl rfl (by rw [Option.getD_some, fits, Bool.and_false])⟩
  exact ⟨pumpStarts_of_checks rfl rfl rfl, pumpStarts_of_checks rfl rfl rfl, sums, sum, rows, moved, pumpElements_hold s⟩

end Sys2Proof.Proofs
end

section
/-!
SUPPORT. Requests of masters and writes of the owner (20 R470, R471; 21 R485, R506, R509), and the register map of BAR0 (21 R484).
-/
namespace Sys2Proof.Machine
open Sys2Proof.Claim

/-! ## Requests of a master (20 R470, R471) -/

/-- The debug port has a transport of its own. -/
theorem carried_debug (s : State) : carried s .debug := fun _ h => by cases h

/-- A request that its master's link carries is answered. -/
theorem fromMaster_carried {s : State} {m : Master} (hc : carried s m) (f : State → State) :
    fromMaster m f s = some (.next (f s)) := by
  unfold fromMaster
  cases hl : masterLink s m with
  | none => rfl
  | some k =>
    obtain ⟨hz, hup⟩ := hc k hl
    have way : wayOver s k = .clear := by
      unfold wayOver
      obtain h | h := hup
      · rw [h]
      · rw [h]
    dsimp only
    rw [hz, way]
    rfl

/-- While the package is frozen the host's and the peers' requests wait. -/
theorem fromMaster_frozen {s : State} {m : Master} (hz : s.pkg.frozen = true) (hm : m = .host ∨ m = .peer) (f : State → State) :
    fromMaster m f s = none := by
  unfold fromMaster
  obtain rfl | rfl := hm
  · exact if_pos hz
  · exact if_pos hz

/-! ## Writes of the owner (21 R485, R506) -/

/-- No interval of the ownership has elapsed. -/
theorem settleOwner_recent {s : State} (hh : s.now - s.pkg.heard < 10000000) (hp : s.pkg.pendSucc = none) : settleOwner s = s := by
  have owner : ¬(s.pkg.owner.isSome && decide (s.now - s.pkg.heard ≥ ownInterval)) = true := by
    simp [ownInterval, hh]
  have succ : ¬(s.pkg.pendSucc.isSome && decide (s.now - s.pkg.pendSince ≥ ownInterval)) = true := by
    simp [hp]
  unfold settleOwner State.modPkg
  dsimp only
  rw [if_neg owner, if_neg succ]

/-- Elapsed intervals change the owner, the nonce and the successor alone; no master gains the ownership. -/
theorem settleOwner_eq (s : State) : ∃ o n c, settleOwner s = { s with pkg := { s.pkg with owner := o, nonce := n, pendSucc := c } } ∧
    (o = s.pkg.owner ∨ o = none) := by
  unfold settleOwner State.modPkg
  dsimp only
  split
  · exact ⟨none, 0, none, rfl, .inr rfl⟩
  · split
    · exact ⟨s.pkg.owner, s.pkg.nonce, none, rfl, .inl rfl⟩
    · exact ⟨s.pkg.owner, s.pkg.nonce, s.pkg.pendSucc, rfl, .inl rfl⟩

/-- The owner's write has its effect. -/
theorem masterWrite_owner {s : State} {m : Master} (hz : s.pkg.frozen = false) (ho : owns s m) (f : State → State) :
    masterWrite m f s = .next (f s) := by
  obtain ⟨hown, hheard, hpend, hc⟩ := ho
  unfold masterWrite
  rw [fromMaster_carried hc, occurs_some, ownerWrite, settleOwner_recent hheard hpend, if_pos hown, hz]
  rfl

/-- Another master's write is dropped. -/
theorem masterWrite_refused {s : State} {m : Master} (ho : s.pkg.owner ≠ some m) (hc : carried s m) (f : State → State) :
    masterWrite m f s = .next (dropWrite m (settleOwner s)) := by
  have other : (settleOwner s).pkg.owner ≠ some m := by
    obtain ⟨o, n, c, hs, rfl | rfl⟩ := settleOwner_eq s
    · rw [hs]
      exact ho
    · rw [hs]
      exact nofun
  unfold masterWrite
  rw [fromMaster_carried hc, occurs_some, ownerWrite, if_neg other]

/-- It is counted, and answered with an error status. -/
theorem drops_of_refused {s : State} {m : Master} {i : Instr} (h : exec i s = .next (dropWrite m (settleOwner s))) : drops m i s := by
  obtain ⟨o, n, c, hs, -⟩ := settleOwner_eq s
  rw [hs] at h
  refine ⟨_, h, rfl, fun k => ?_, rfl, rfl⟩
  dsimp only [dropWrite, State.modPkg]
  rw [Fin.getElem_fin, Vector.getElem_ofFn]
  split
  · rfl
  · rfl

/-! ## The register map (21 R484, R485) -/

/-- The owner's write of a register other than OWNCTL and FRZCTL. -/
theorem exec_registerWrite_owner {s : State} {m : Master} {o : Nat} (hz : s.pkg.frozen = false) (ho : owns s m)
    (hr : isReg o = true) (h1 : o ≠ 0x1018) (h2 : o ≠ 0x1028) (v : Word) :
    exec (.registerWrite m o v) s = .next (regSet o v s) := by
  rw [exec_registerWrite, execRegisterWrite, regWrite, if_neg h1, if_neg h2, if_pos hr, masterWrite_owner hz ho]

/-- Another master's write of it. -/
theorem registerWrite_drops {s : State} {m : Master} {o : Nat} (ho : s.pkg.owner ≠ some m) (hc : carried s m)
    (hr : isReg o = true) (h1 : o ≠ 0x1018) (h2 : o ≠ 0x1028) (v : Word) : drops m (.registerWrite m o v) s := by
  refine drops_of_refused ?_
  rw [exec_registerWrite, execRegisterWrite, regWrite, if_neg h1, if_neg h2, if_pos hr, masterWrite_refused ho hc]

/-- A write to an offset above the register map does nothing. -/
theorem exec_registerWrite_beyond {s : State} {m : Master} {o : Nat} (hc : carried s m) (h : 0x4000 ≤ o) (v : Word) :
    exec (.registerWrite m o v) s = .next s := by
  have free : ¬isReg o = true := by
    simp only [isReg, Bool.or_eq_true, Bool.and_eq_true, decide_eq_true_eq]
    omega
  rw [exec_registerWrite, execRegisterWrite, regWrite, if_neg (by omega), if_neg (by omega), if_neg free, fromMaster_carried hc]
  rfl

/-- Offset k in the block of die d lies in no other part of the map. -/
theorem dieOffset_only {d k o : Nat} (hd : d < 16) (hk : k < 256) (ho : o = 0x2000 + 256 * d + k) :
    (o ≠ 0x0000 ∧ o ≠ 0x0008 ∧ o ≠ 0x0010) ∧ ¬(0x100 ≤ o && o < 0x100 + 8 * 37 && o % 8 = 0) = true ∧
      ¬(0x300 ≤ o && o < 0x300 + 8 * 12 && o % 8 = 0) = true ∧
      (o ≠ 0x1000 ∧ o ≠ 0x1008 ∧ o ≠ 0x1010 ∧ o ≠ 0x1018 ∧ o ≠ 0x1020 ∧ o ≠ 0x1028 ∧ o ≠ 0x1030) ∧
      (0x2000 ≤ o && o < 0x3000) = true ∧ (o - 0x2000) / 256 = d ∧ (o - 0x2000) % 256 = k := by
  simp only [Bool.and_eq_true, decide_eq_true_eq]
  omega

/-- A read in the block of a die (21 R484). -/
theorem regRead_die (s : State) {d k o : Nat} (hd : d < 16) (hk : k < 256) (ho : o = 0x2000 + 256 * d + k) :
    regRead s o = dieRegRead (s.die d) k := by
  obtain ⟨⟨h0, h1, h2⟩, hl, hp, ⟨h3, h4, h5, -, h6, h7, h8⟩, hb, hq, hr⟩ := dieOffset_only hd hk ho
  unfold regRead
  dsimp only
  rw [if_neg h0, if_neg h1, if_neg h2, if_neg hl, if_neg hp, if_neg h3, if_neg h4, if_neg h5, if_neg h6, if_neg h7, if_neg h8,
    if_pos hb, hq, hr]

/-- A write in it. -/
theorem regSet_die (s : State) (v : Word) {d k o : Nat} (hd : d < 16) (hk : k < 256) (ho : o = 0x2000 + 256 * d + k) :
    regSet o v s = dieRegWrite d k v s := by
  obtain ⟨⟨h0, h1, h2⟩, hl, hp, ⟨h3, -, h5, -, -, -, h8⟩, hb, hq, hr⟩ := dieOffset_only hd hk ho
  unfold regSet
  rw [if_neg h0, if_neg h1, if_neg h2, if_neg hl, if_neg hp, if_neg h3, if_neg h5, if_neg h8, if_pos hb, hq, hr]

/-- The owner's write of a register of a die. -/
theorem exec_registerWrite_die {s : State} {m : Master} {d k o : Nat} (hz : s.pkg.frozen = false) (hown : owns s m)
    (hd : d < 16) (hk : k = 0x00 ∨ k = 0x10) (ho : o = 0x2000 + 256 * d + k) (v : Word) :
    exec (.registerWrite m o v) s = .next (dieRegWrite d k v s) := by
  have place := dieOffset_only hd (by omega) ho
  have reg : isReg o = true := by
    simp only [isReg, Bool.or_eq_true, Bool.and_eq_true, decide_eq_true_eq, bne_iff_ne]
    omega
  rw [exec_registerWrite_owner hz hown reg (by omega) (by omega), regSet_die s v hd (by omega) ho]

/-- QTBASE is written while every queue is DISABLED, and ignored otherwise (20 R477). -/
theorem qtbaseSet_disabled {s : State} (h : ∀ q, q ∈ s.queues → q.st = .disabled) (v : Word) :
    qtbaseSet v s = s.modPkg fun p => { p with qtbase := fld v 16 36 * 65536 } :=
  if_neg fun hq => by
    obtain ⟨q, hq, hst⟩ := List.any_eq_true.1 hq
    rw [h q hq] at hst
    cases hst

theorem qtbaseSet_enabled {s : State} {q : Queue} (hq : q ∈ s.queues) (hst : q.st ≠ .disabled) (v : Word) : qtbaseSet v s = s :=
  if_pos (List.any_eq_true.2 ⟨q, hq, by simpa using hst⟩)

/-! ## Reads (21 R485, R509) -/

/-- A read of a register: the debug port's at any time, another master's where its link carries it, and the host's and the peers' not
while frozen. -/
theorem readReg_answers {s : State} {o : Nat} {r : Word} (m : Master) (hr : regRead s o = r) :
    exec (.debugAccess (.readReg .debug o)) s = .next (answerWord s r) ∧
      (carried s m → exec (.debugAccess (.readReg m o)) s = .next (answerWord s r)) ∧
      (s.pkg.frozen = true → m = .host ∨ m = .peer → exec (.debugAccess (.readReg m o)) s = .next s) := by
  have carries {k : Master} (hc : carried s k) : exec (.debugAccess (.readReg k o)) s = .next (answerWord s r) := by
    subst hr
    exact congrArg (occurs · s) (fromMaster_carried hc _)
  exact ⟨carries (carried_debug s), carries, fun hz hm => congrArg (occurs · s) (fromMaster_frozen hz hm _)⟩

/-- A read of a word of other state, answered only while frozen (log 53). -/
theorem answerState_word (s : State) (w : Word) : answerState s (some (w, [])) = { s with pkg := (if s.pkg.frozen
    then { s.pkg with replyOk := true, reply := [], regReply := w } else { s.pkg with replyOk := false, reply := [] }) } := by
  unfold answerState
  dsimp only
  split
  · rfl
  · rfl

/-- A read of an x register. -/
theorem exec_readX (s : State) (n : Nat) (r : Reg) : exec (.debugAccess (.readX n r)) s = .next { s with pkg := (if s.pkg.frozen
    then { s.pkg with replyOk := true, regReply := (s.seq n).getX r } else { s.pkg with replyOk := false, reply := [] }) } := by
  rw [exec_debugAccess, execDebugAccess, debugDo]
  split
  · rfl
  · rfl

end Sys2Proof.Machine
end

section
/-!
SUPPORT. The periodic moves of the package (12 R326; 21 R487, R496 to R498): buckets, the period counter, quota periods and comparisons of
the power.
-/
namespace Sys2Proof.Machine
open Sys2Proof.Claim

/-! ## Buckets and the period counter (12 R326; 21 R498) -/

/-- A bucket that is not up to date is refilled. -/
theorem exec_bucketRefill_due {s : State} {d : Nat} (hz : s.pkg.frozen = false) (hd : d < 16) (hr : (s.die d).refilled < s.now) :
    exec (.bucketRefill d) s = .next (s.modDie d fun x =>
      { x with bucket := min x.bucketCap (x.bucket + (s.now - x.refilled) * x.refillInForce), refilled := s.now }) := by
  have due : ¬(s.pkg.frozen || decide (d ≥ 16) || decide (s.now ≤ (s.die d).refilled)) = true := by
    simp [hz, hd, hr]
  rw [exec_bucketRefill, execBucketRefill, tryBucketRefill, if_neg due]
  rfl

/-- A period ends; no sump entry waits. -/
theorem exec_tickPeriod_due {s : State} (hz : s.pkg.frozen = false) (hs : s.sumps = []) (hd : s.pkg.tickDue ≤ s.now) :
    exec .tickPeriod s = .next { s with pkg := { s.pkg with
      tick := s.pkg.tick + 1, tickPeriod := s.pkg.tickNext, tickDue := s.pkg.tickDue + s.pkg.tickNext } } := by
  have due : ¬(s.pkg.frozen || decide (s.now < s.pkg.tickDue)) = true := by
    simp [hz, hd]
  rw [exec_tickPeriod, execTickPeriod, tryTickPeriod, if_neg due, occurs_some, sumpFlush, if_pos (by rw [hs]; rfl)]

/-! ## Quota periods (21 R496) -/

/-- Work that goes on changes nothing but the leases of the dies. -/
theorem refillResume_part {α : Type} (part : State → α) (hp : ∀ s d, part { s with dies := d } = part s) (s : State) (c : Nat) :
    part (refillResume s c) = part s := by
  unfold refillResume
  split
  · exact hp ..
  · rfl

theorem refillResumes_part {α : Type} (part : State → α) (hp : ∀ s d, part { s with dies := d } = part s) (xs : List Ctx) (s : State) :
    part (xs.foldl (fun s x => refillResume s x.id) s) = part s := by
  induction xs generalizing s with
  | nil => rfl
  | cons x xs ih => exact (ih _).trans (refillResume_part part hp ..)

theorem refillCtx_id (x : Ctx) : (refillCtx x).id = x.id := by
  unfold refillCtx
  split
  · rfl
  · rfl

theorem refillCtx_limit (x : Ctx) : (refillCtx x).limit = x.limit := by
  unfold refillCtx
  split
  · rfl
  · rfl

theorem refillCtx_balance (x : Ctx) : (refillCtx x).balance = if x.limit = 0 then x.balance
    else min (x.limit * 1000 : Nat) (x.balance + (x.limit * 1000 : Nat)) := by
  unfold refillCtx
  split
  · rfl
  · rw [Nat.cast_mul]
    rfl

/-- A context among those whose balances have been refilled. -/
theorem ctx_refilled {s t : State} (h : t.ctxs = s.ctxs.map refillCtx) (c : Nat) : t.ctx c = refillCtx (s.ctx c) := by
  have same : (fun x : Ctx => x.id == c) ∘ refillCtx = fun x => x.id == c := by
    funext x
    rw [Function.comp, refillCtx_id]
  unfold State.ctx
  rw [h, List.find?_map, same]
  cases s.ctxs.find? fun x => x.id == c with
  | none => rfl
  | some x => rfl

/-- A quota period ends: the balances are refilled, and the memory stays. -/
theorem exec_quotaPeriod_due {s : State} (hz : s.pkg.frozen = false) (hd : s.pkg.quotaDue ≤ s.now) :
    ∃ t, exec .quotaPeriod s = .next t ∧ t.mem = s.mem ∧ t.pkg.quotaDue = s.pkg.quotaDue + 100000 ∧
      ∀ c, t.ctx c = refillCtx (s.ctx c) := by
  have due : ¬(s.pkg.frozen || decide (s.now < s.pkg.quotaDue)) = true := by
    simp [hz, hd]
  rw [exec_quotaPeriod, execQuotaPeriod, tryQuotaPeriod, if_neg due]
  exact ⟨_, rfl, refillResumes_part State.mem (fun _ _ => rfl) .., refillResumes_part (·.pkg.quotaDue) (fun _ _ => rfl) ..,
    ctx_refilled (refillResumes_part State.ctxs (fun _ _ => rfl) ..)⟩

/-! ## The die with the greatest weight -/

/-- The choice between two dies takes neither below the other. -/
theorem maxFold_spec (w : Nat → Nat) (ds : List Nat) (a : Nat) :
    let e := ds.foldl (fun m b => if w b > w m || (w b = w m && b < m) then b else m) a
    (e = a ∨ e ∈ ds) ∧ w a ≤ w e ∧ ∀ f ∈ ds, w f ≤ w e := by
  induction ds generalizing a with
  | nil => exact ⟨.inl rfl, Nat.le_refl _, fun f hf => by cases hf⟩
  | cons b ds ih =>
    rw [List.foldl_cons]
    split
    · next hb =>
      obtain ⟨mem, ge, all⟩ := ih b
      have hab : w a ≤ w b := by
        simp only [Bool.or_eq_true, Bool.and_eq_true, decide_eq_true_eq] at hb
        omega
      exact ⟨.inr (List.mem_cons.2 mem), hab.trans ge, List.forall_mem_cons.2 ⟨ge, all⟩⟩
    · next hb =>
      obtain ⟨mem, ge, all⟩ := ih a
      have hba : w b ≤ w a := by
        simp only [Bool.or_eq_true, Bool.and_eq_true, decide_eq_true_eq] at hb
        omega
      exact ⟨mem.imp_right (List.mem_cons_of_mem b), ge, List.forall_mem_cons.2 ⟨hba.trans ge, all⟩⟩

/-- Of some dies one has the greatest weight. -/
theorem maxDie_spec (w : Nat → Nat) {ds : List Nat} (h : ds ≠ []) : ∃ e, maxDie w ds = some e ∧ e ∈ ds ∧ ∀ f ∈ ds, w f ≤ w e := by
  cases ds with
  | nil => exact absurd rfl h
  | cons a ds =>
    obtain ⟨mem, ge, all⟩ := maxFold_spec w ds a
    exact ⟨_, rfl, List.mem_cons.2 mem, List.forall_mem_cons.2 ⟨ge, all⟩⟩

/-! ## Comparisons of the power (21 R487) -/

/-- While some die runs at its full rate the next measure is stage 1 at the one of them with the highest bank power (log 37). -/
theorem nextMeasure_half {s : State} (bank : Nat → Nat) (h : ∃ e, e < 16 ∧ (s.die e).half = false) :
    ∃ e, e < 16 ∧ (s.die e).half = false ∧ nextMeasure s bank = some ⟨1, e, 0⟩ ∧
      ∀ f, f < 16 → (s.die f).half = false → bank f ≤ bank e := by
  have full {d : Nat} : d ∈ allDies.filter (fun d => !(s.die d).half) ↔ d < 16 ∧ (s.die d).half = false := by
    rw [List.mem_filter, allDies, List.mem_range, Bool.not_eq_true']
    rfl
  obtain ⟨d, hd⟩ := h
  obtain ⟨e, he, hmem, hmax⟩ := maxDie_spec bank (List.ne_nil_of_mem (full.2 hd))
  obtain ⟨h16, hh⟩ := full.1 hmem
  refine ⟨e, h16, hh, ?_, fun f hf hfh => hmax f (full.2 ⟨hf, hfh⟩)⟩
  unfold nextMeasure
  rw [he]

/-- A measure that takes effect changes the dies and the list of measures. -/
theorem applyMeasure_pkg (s : State) (m : Measure) : (applyMeasure s m).mem = s.mem ∧
    (applyMeasure s m).pkg = { s.pkg with measures := m :: s.pkg.measures } := by
  unfold applyMeasure
  split
  · exact ⟨rfl, rfl⟩
  · exact ⟨rfl, rfl⟩
  · exact ⟨rfl, rfl⟩
  · exact ⟨rfl, rfl⟩

/-- One that is withdrawn too. -/
theorem withdrawMeasure_pkg (s : State) : (withdrawMeasure s).mem = s.mem ∧
    (withdrawMeasure s).pkg = { s.pkg with measures := s.pkg.measures.drop 1 } := by
  unfold withdrawMeasure
  split
  · next h => exact ⟨rfl, by rw [h, List.drop_nil, ← h]⟩
  · next h =>
    dsimp only
    rw [h, List.drop_one, List.tail_cons]
    split
    · exact ⟨rfl, rfl⟩
    · exact ⟨rfl, rfl⟩
    · exact ⟨rfl, rfl⟩
    · exact ⟨rfl, rfl⟩

/-- Since when the power has stood at 95% of LIMIT or below, after a comparison. -/
def lowSince (s : State) (watts : Nat) : Option Nat :=
  if min 4095 watts * 100 ≤ s.pkg.pwrlim * 95 then some (s.pkg.belowSince.getD s.now) else none

/-- The state in which a comparison has been noted. -/
def compared (s : State) (watts : Nat) : State :=
  { s with pkg := { s.pkg with power := min 4095 watts, lastCompare := s.now, belowSince := lowSince s watts } }

/-- What a comparison that is due does. -/
def afterComparison (s : State) (watts : Nat) (bank : List Nat) : State :=
  if watts > s.pkg.pwrlim then
    match nextMeasure (compared s watts) fun d => (bank[d]?).getD 0 with
    | some m => applyMeasure (compared s watts) m
    | none => compared s watts
  else if min 4095 watts * 100 ≤ s.pkg.pwrlim * 95 ∧ 10000 ≤ s.now - (lowSince s watts).getD s.now then
    withdrawMeasure (compared s watts)
  else compared s watts

theorem exec_powerComparison_due {s : State} (hz : s.pkg.frozen = false) (hd : s.pkg.lastCompare + 100 ≤ s.now) (watts : Nat)
    (bank : List Nat) : exec (.powerComparison watts bank) s = .next (afterComparison s watts bank) := by
  have due : ¬(s.pkg.frozen || decide (s.now < s.pkg.lastCompare + 100)) = true := by
    simp [hz, hd]
  rw [exec_powerComparison, execPowerComparison, tryPowerComparison, if_neg due]
  unfold afterComparison
  dsimp only
  by_cases hw : watts > s.pkg.pwrlim
  · rw [if_pos hw, if_pos hw]
    change occurs (match nextMeasure (compared s watts) fun d => (bank[d]?).getD 0 with
      | some m => some (.next (applyMeasure (compared s watts) m))
      | none => some (.next (compared s watts))) s = _
    cases nextMeasure (compared s watts) fun d => (bank[d]?).getD 0 with
    | none => rfl
    | some m => rfl
  · rw [if_neg hw, if_neg hw]
    simp only [Bool.and_eq_true, decide_eq_true_eq]
    change occurs (if min 4095 watts * 100 ≤ s.pkg.pwrlim * 95 ∧ s.now - (lowSince s watts).getD s.now ≥ 10000 then
      some (.next (withdrawMeasure (compared s watts))) else some (.next (compared s watts))) s = _
    exact (apply_ite (fun e => occurs e s) ..).trans (apply_ite Host.Outcome.next ..).symm

/-- Whatever it does, the power and the time of the comparison are noted and the memory stays. -/
theorem afterComparison_kept (s : State) (watts : Nat) (bank : List Nat) : (afterComparison s watts bank).mem = s.mem ∧
    (afterComparison s watts bank).pkg.power = min 4095 watts ∧ (afterComparison s watts bank).pkg.lastCompare = s.now := by
  unfold afterComparison
  split
  · split
    · obtain ⟨hm, hp⟩ := applyMeasure_pkg (compared s watts) ‹_›
      rw [hm, hp]
      exact ⟨rfl, rfl, rfl⟩
    · exact ⟨rfl, rfl, rfl⟩
  · split
    · obtain ⟨hm, hp⟩ := withdrawMeasure_pkg (compared s watts)
      rw [hm, hp]
      exact ⟨rfl, rfl, rfl⟩
    · exact ⟨rfl, rfl, rfl⟩

/-- Between 95% and LIMIT no measure is taken or withdrawn. -/
theorem afterComparison_between {s : State} {watts : Nat} (hw : watts ≤ s.pkg.pwrlim) (hr : watts ≤ 4095)
    (hl : 95 * s.pkg.pwrlim < 100 * watts) (bank : List Nat) : afterComparison s watts bank = compared s watts := by
  unfold afterComparison
  rw [if_neg (by omega), if_neg (by omega)]

/-- Above LIMIT, while some die runs at its full rate, stage 1 is taken. -/
theorem afterComparison_above {s : State} {watts : Nat} (hw : s.pkg.pwrlim < watts) (bank : List Nat)
    (h : ∃ e, e < 16 ∧ (s.die e).half = false) : ∃ e, e < 16 ∧ (s.die e).half = false ∧
      afterComparison s watts bank = applyMeasure (compared s watts) ⟨1, e, 0⟩ ∧
      ∀ f, f < 16 → (s.die f).half = false → (bank[f]?).getD 0 ≤ (bank[e]?).getD 0 := by
  obtain ⟨e, h16, hh, hn, hmax⟩ := nextMeasure_half (s := compared s watts) (fun d => (bank[d]?).getD 0) h
  refine ⟨e, h16, hh, ?_, hmax⟩
  unfold afterComparison
  rw [if_pos hw, hn]

/-- At or below 95% of LIMIT for 100 microseconds the last measure is withdrawn. -/
theorem afterComparison_low {s : State} {watts since : Nat} (hb : s.pkg.belowSince = some since) (hw : watts * 100 ≤ 95 * s.pkg.pwrlim)
    (hr : watts ≤ 4095) (hs : 10000 ≤ s.now - since) (bank : List Nat) :
    afterComparison s watts bank = withdrawMeasure (compared s watts) := by
  have low : min 4095 watts * 100 ≤ s.pkg.pwrlim * 95 := by omega
  have from_ : (lowSince s watts).getD s.now = since := by
    rw [lowSince, if_pos low, hb]
    rfl
  unfold afterComparison
  rw [if_neg (by omega), from_, if_pos ⟨low, hs⟩]

end Sys2Proof.Machine

namespace Sys2Proof.Proofs
open Sys2Proof.Machine Sys2Proof.Claim

/-- Settles O57. The owner's writes pass `masterWrite`, which drops another master's; a register's offset selects its case of the map; and a
comparison of the power has one of three outcomes. -/
theorem registers : Obligations.Registers := by
  unfold Obligations.Registers
  intro s m d v p x b die pkg
  refine ⟨fun hz ho => ?_, fun hz ho hc => ?_, fun hc o h => exec_registerWrite_beyond hc h v, ?_, ?_, fun hz => ?_⟩
  · have reg (o : Nat) (hr : isReg o = true) (h1 : o ≠ 0x1018) (h2 : o ≠ 0x1028) := exec_registerWrite_owner hz ho hr h1 h2 v
    have q0 := reg 0 rfl (by decide) (by decide)
    refine ⟨masterWrite_owner hz ho _, masterWrite_owner hz ho _, masterWrite_owner hz ho _, masterWrite_owner hz ho _,
      fun hd => ⟨exec_registerWrite_die hz ho hd (.inl rfl) (by omega) v, exec_registerWrite_die hz ho hd (.inr rfl) (by omega) v⟩,
      fun h => q0.trans (congrArg _ (qtbaseSet_disabled h v)), fun ⟨q, hq, hst⟩ => q0.trans (congrArg _ (qtbaseSet_enabled hq hst v)),
      reg 8 rfl (by decide) (by decide), reg 0x1000 rfl (by decide) (by decide), reg 0x1010 rfl (by decide) (by decide),
      reg 0x1008 rfl (by decide) (by decide), reg 0x1020 rfl (by decide) (by decide)⟩
  · have dropped {i : Instr} {f : State → State} (hi : exec i s = masterWrite m f s) : drops m i s :=
      drops_of_refused (hi.trans (masterWrite_refused ho hc f))
    exact ⟨dropped rfl, dropped rfl, dropped rfl, dropped rfl, registerWrite_drops ho hc rfl (by decide) (by decide) v,
      registerWrite_drops ho hc rfl (by decide) (by decide) v⟩
  · refine ⟨readReg_answers m rfl, readReg_answers m rfl, fun hd => ?_, fun n r => ⟨exec_readX s n r, ?_, ?_⟩⟩
    · exact ⟨readReg_answers m (regRead_die s (k := 0x20) hd (by decide) (by omega)),
        readReg_answers m (regRead_die s (k := 0x28) hd (by decide) (by omega)),
        readReg_answers m (regRead_die s (k := 0x00) hd (by decide) (by omega)),
        readReg_answers m (regRead_die s (k := 0x10) hd (by decide) (by omega))⟩
    · exact congrArg _ (answerState_word s (s.seq n).pc)
    · exact congrArg _ (answerState_word s (s.seq n).vtype)
  · refine ⟨_, rfl, rfl, rfl, rfl, fun n => rfl, fun k => rfl, rfl, fun k => ?_, rfl, rfl, rfl⟩
    change (State.reset.link k).st = .down
    by_cases hk : k < 37
    · rw [State.reset_link hk]
      rfl
    · rw [State.link, List.getElem?_eq_none (by simpa using hk)]
      rfl
  · refine ⟨fun n => ?_, exec_bucketRefill_due hz, exec_tickPeriod_due hz, fun hd => ?_, fun w bank hd => ?_⟩
    · rw [exec_fabmonWindow, execFabmonWindow, hz]
      rfl
    · obtain ⟨t, ht, hm, hq, hc⟩ := exec_quotaPeriod_due hz hd
      refine ⟨t, ht, hm, hq, fun c => ?_⟩
      rw [hc]
      exact ⟨refillCtx_limit _, refillCtx_balance _⟩
    · obtain ⟨hm, hp, hl⟩ := afterComparison_kept s w bank
      refine ⟨_, exec_powerComparison_due hz hd w bank, hm, hp, hl, fun hw hr h95 => ?_, fun hw h => ?_,
        fun since k r hb hw hr hs hk => ?_⟩
      · rw [afterComparison_between hw hr h95]
        rfl
      · obtain ⟨e, h16, hh, ht, hmax⟩ := afterComparison_above hw bank h
        refine ⟨e, h16, hh, ?_, ?_, hmax⟩
        · rw [ht]
          exact congrArg Die.half (State.die_modDie_same _ _ _ h16)
        · rw [ht]
          rfl
      · rw [afterComparison_low hb hw hr hs, (withdrawMeasure_pkg _).2]
        exact congrArg (List.drop 1) hk

end Sys2Proof.Proofs
end

section
/-!
SUPPORT. The end of a command group (12 R315 to R317, R321, R322): that its sequencer is left without one whatever its pages then see, and
what a commit or an abort makes of the memory.
-/
namespace Sys2Proof.Machine
open Sys2Proof.Claim

/-! ## A sequencer without a group -/

/-- Every entry of sequencer n in the table is without a group. -/
def State.ungrouped (s : State) (n : Nat) : Prop := ∀ p, p ∈ s.seqs → p.1 = n → p.2.grp = Group.none

theorem mem_of_smapGet {α : Type} {k : Nat} {v : α} {l : List (Nat × α)} (h : smapGet k l = some v) : (k, v) ∈ l := by
  induction l with
  | nil => cases h
  | cons p r ih =>
    unfold smapGet at h
    split at h
    · next hk =>
      obtain rfl := Option.some.inj h
      subst hk
      exact List.mem_cons_self
    · exact List.mem_cons_of_mem p (ih h)

theorem State.ungrouped.seq {s : State} {n : Nat} (h : s.ungrouped n) : (s.seq n).grp = Group.none := by
  unfold State.seq
  cases hq : smapGet n s.seqs with
  | none => rfl
  | some q => exact h _ (mem_of_smapGet hq) rfl

/-- A change of every sequencer under which none gets a group. -/
theorem State.ungrouped.mapped {s t : State} {n : Nat} {f : Seq → Seq} (h : s.ungrouped n)
    (ht : t.seqs = s.seqs.map fun p => (p.1, f p.2)) (hf : ∀ q, q.grp = Group.none → (f q).grp = Group.none) : t.ungrouped n := by
  intro p hp hn
  rw [ht] at hp
  obtain ⟨p', hp', rfl⟩ := List.mem_map.1 hp
  exact hf _ (h p' hp' hn)

/-- A sequencer without a group that sees a write has none. -/
theorem Seq.note_ungrouped {q : Seq} (h : q.grp = Group.none) (key len : Nat) : (q.note key len).grp = Group.none := by
  have watch : (q.watch key len).grp = Group.none := by
    unfold Seq.watch
    dsimp only
    split
    · split
      · rw [h]
        rfl
      · rw [h]
        rfl
    · rw [h]
      rfl
  unfold Seq.note
  dsimp only
  split
  · exact watch
  · exact watch

theorem State.ungrouped.poke {s : State} {n : Nat} (h : s.ungrouped n) (key : Nat) (bs : List Byte) : (s.poke key bs).ungrouped n :=
  h.mapped (f := fun q => q.note key bs.length) rfl fun _ hq => Seq.note_ungrouped hq ..

theorem State.ungrouped.markWords {s : State} {n : Nat} (h : s.ungrouped n) (ws : List Nat) (full : Bool) :
    (s.markWords ws full).ungrouped n := by
  induction ws generalizing s with
  | nil => exact h
  | cons w ws ih => exact ih (h.mapped (f := fun q => q.note (8 * w) 8) rfl fun _ hq => Seq.note_ungrouped hq ..)

theorem State.ungrouped.keepOld {s : State} {n : Nat} (h : s.ungrouped n) (key len : Nat) : (s.keepOld key len).ungrouped n := by
  unfold State.keepOld
  split
  · next i q hw =>
    split
    · exact h
    · intro p hp hn
      obtain rfl | hp := mem_of_mem_smapSet hp
      · exact (Seq.keepWords_part Seq.grp (fun _ _ => rfl) ..).trans (h _ (List.mem_of_find?_eq_some hw) hn)
      · exact h p hp hn
  · exact h

/-! ## Closing a group (12 R315, R322) -/

/-- The state in which the group of sequencer n has gone, before its shadows stand in the lines of its area. -/
def State.dissolved (s : State) (n : Nat) : State :=
  let g := (s.seq n).grp
  { s.modSeq n fun q => { q with
      grp := Group.none, stopping := q.stopping ++ (g.cmds.take 1).filter fun m => m.midBlock && s.canBegin m.ctx } with
    mem := g.hidden.foldl (fun m c => m.set c.1 c.2) s.mem }

/-- A shadow stands in its line of the area. -/
def State.shown (area : Nat) (s : State) (p : Shadow × Nat) : State := s.poke (area + 64 * (p.2 + 1)) p.1.data

theorem closeGroup_eq {s : State} {n : Nat} (h : (s.seq n).grp.st ≠ .none) : s.closeGroup n =
    (s.seq n).grp.shadows.zipIdx.foldl (State.shown (s.seq n).grp.area) (s.dissolved n) := if_neg h

theorem dissolved_ungrouped (s : State) (n : Nat) : (s.dissolved n).ungrouped n := fun p hp hn => by
  rw [eq_of_mem_smapSet hp hn]

theorem shown_ungrouped {n : Nat} (area : Nat) (shs : List (Shadow × Nat)) {s : State} (h : s.ungrouped n) :
    (shs.foldl (State.shown area) s).ungrouped n := by
  induction shs generalizing s with
  | nil => exact h
  | cons sh shs ih => exact ih (h.poke _ _)

/-- The sequencer of a group that has closed is without one. -/
theorem closeGroup_ungrouped {s : State} {n : Nat} (h : (s.seq n).grp.st ≠ .none) : (s.closeGroup n).ungrouped n := by
  rw [closeGroup_eq h]
  exact shown_ungrouped _ _ (dissolved_ungrouped s n)

/-- A group that has hidden nothing and has no shadow changes no memory as it closes. -/
theorem closeGroup_mem {s : State} {n : Nat} (h : (s.seq n).grp.st ≠ .none) (hh : (s.seq n).grp.hidden = [])
    (hs : (s.seq n).grp.shadows = []) : (s.closeGroup n).mem = s.mem := by
  rw [closeGroup_eq h, hs]
  change (s.seq n).grp.hidden.foldl (fun m c => m.set c.1 c.2) s.mem = s.mem
  rw [hh]
  rfl

/-- When the only open group has closed, none is open. -/
theorem closeGroup_groupsClosed {s : State} {n : Nat} (h : (s.seq n).grp.st ≠ .none)
    (ha : ∀ p, p ∈ s.seqs → p.1 ≠ n → p.2.grp.st = .none) :
    (s.closeGroup n).seqs.all (fun q => q.2.grp.st == .none) = true := by
  have gone : (s.dissolved n).seqs.all (fun q => q.2.grp.st == .none) = true := by
    refine List.all_eq_true.2 fun p hp => beq_iff_eq.2 ?_
    by_cases hn : p.1 = n
    · rw [eq_of_mem_smapSet hp hn]
      rfl
    · obtain rfl | hp := mem_of_mem_smapSet hp
      · exact absurd rfl hn
      · exact ha p hp hn
  have seen (shs : List (Shadow × Nat)) (area : Nat) (t : State) : Noted t (shs.foldl (State.shown area) t) := by
    induction shs generalizing t with
    | nil => exact Noted.refl t
    | cons sh shs ih => exact (noted_poke ..).trans (ih _)
  rw [closeGroup_eq h]
  exact (seen ..).groupsClosed gone

/-! ## A commit (12 R317, R319) -/

/-- A shadow becomes current. -/
def State.current (s : State) (sh : Shadow) : State :=
  let s := (if inCist (64 * sh.line) then s.keepOld (64 * sh.line) 64 else s).poke (64 * sh.line) sh.data
  if inCist (64 * sh.line) then s.markWords (sh.words.map (8 * sh.line + ·)) true else s

theorem State.ungrouped.current {s : State} {n : Nat} (h : s.ungrouped n) (sh : Shadow) : (s.current sh).ungrouped n := by
  unfold State.current
  dsimp only
  by_cases hi : inCist (64 * sh.line) = true
  · rw [if_pos hi, if_pos hi]
    exact ((h.keepOld _ _).poke _ _).markWords _ _
  · rw [if_neg hi, if_neg hi]
    exact h.poke _ _

theorem currents_ungrouped {n : Nat} (shs : List Shadow) {s : State} (h : s.ungrouped n) : (shs.foldl State.current s).ungrouped n := by
  induction shs generalizing s with
  | nil => exact h
  | cons sh shs ih => exact ih (h.current sh)

/-- With no group open its bytes stand in memory. -/
theorem current_mem {s : State} (hg : s.seqs.all (fun q => q.2.grp.st == .none) = true) (sh : Shadow) :
    (s.current sh).mem = s.mem.write (64 * sh.line) sh.data := by
  unfold State.current
  dsimp only
  by_cases hi : inCist (64 * sh.line) = true
  · rw [if_pos hi, if_pos hi, State.markWords_mem, State.poke_mem (keepOld_groupsClosed _ _ hg), keepOld_mem]
  · rw [if_neg hi, if_neg hi, State.poke_mem hg]

/-- A running command keeps the lines that a commit has displaced, those that it keeps already as they are. -/
def GCmd.displace (old : List (Nat × List Byte)) (m : GCmd) : GCmd :=
  if m.began then { m with displaced := m.displaced ++ old.filter fun o => !m.displaced.any fun d => d.1 == o.1 } else m

def Group.displace (old : List (Nat × List Byte)) (h : Group) : Group := { h with cmds := h.cmds.map (GCmd.displace old) }

/-- The running commands of every group keep the lines. -/
def State.displace (s : State) (old : List (Nat × List Byte)) : State :=
  { s with seqs := s.seqs.map fun p => (p.1, { p.2 with grp := p.2.grp.displace old }),
           aside := s.aside.map fun a => { a with grp := a.grp.displace old } }

theorem State.ungrouped.displace {s : State} {n : Nat} (h : s.ungrouped n) (old : List (Nat × List Byte)) :
    (s.displace old).ungrouped n :=
  h.mapped (f := fun q => { q with grp := q.grp.displace old }) rfl fun q hq => by
    dsimp only
    rw [hq]
    rfl

theorem displace_groupsClosed {s : State} (hg : s.seqs.all (fun q => q.2.grp.st == .none) = true) (old : List (Nat × List Byte)) :
    (s.displace old).seqs.all (fun q => q.2.grp.st == .none) = true := by
  rw [State.displace, List.all_map]
  exact hg

/-- The lines that the shadows of sequencer n's group displace. -/
def State.oldLines (s : State) (n : Nat) : List (Nat × List Byte) :=
  (s.seq n).grp.shadows.map fun sh => (sh.line, s.mem.read (64 * sh.line) 64)

/-- A group that has met a conflict only closes. -/
theorem commitGroup_conflict {s : State} {n : Nat} (h : (s.seq n).grp.dropped = true ∨ (s.seq n).grp.shadows.any (·.conflict) = true) :
    commitGroup s n = (s.closeGroup n, 2) := if_pos (Bool.or_eq_true_iff.2 h)

/-- The shadows of another become current. -/
theorem commitGroup_current {s : State} {n : Nat} (hd : (s.seq n).grp.dropped = false)
    (hc : (s.seq n).grp.shadows.any (·.conflict) = false) : commitGroup s n =
      ((s.seq n).grp.shadows.foldl State.current ((s.closeGroup n).displace (s.oldLines n)), 0) :=
  if_neg (by rw [hd, hc]; exact Bool.false_ne_true)

theorem commitGroup_ungrouped {s : State} {n : Nat} (h : (s.seq n).grp.st ≠ .none) : (commitGroup s n).1.ungrouped n := by
  by_cases hc : (s.seq n).grp.dropped = true ∨ (s.seq n).grp.shadows.any (·.conflict) = true
  · rw [commitGroup_conflict hc]
    exact closeGroup_ungrouped h
  · rw [not_or, Bool.not_eq_true, Bool.not_eq_true] at hc
    rw [commitGroup_current hc.1 hc.2]
    exact currents_ungrouped _ ((closeGroup_ungrouped h).displace _)

/-- The one shadow of the only open group stands in memory once it has been committed. -/
theorem commitGroup_mem {s : State} {n : Nat} {sh : Shadow} (h : (s.seq n).grp.st ≠ .none)
    (ha : ∀ p, p ∈ s.seqs → p.1 ≠ n → p.2.grp.st = .none) (hd : (s.seq n).grp.dropped = false)
    (hs : (s.seq n).grp.shadows = [sh]) (hc : sh.conflict = false) {k : Nat} (hk : k < sh.data.length) :
    (commitGroup s n).1.mem.get (64 * sh.line + k) = sh.data[k] := by
  have closed := displace_groupsClosed (closeGroup_groupsClosed h ha) (s.oldLines n)
  rw [commitGroup_current hd (by rw [hs, List.any_cons, hc]; rfl), hs]
  change (((s.closeGroup n).displace (s.oldLines n)).current sh).mem.get _ = _
  rw [current_mem closed]
  exact Mem.get_write _ _ _ _ hk

/-! ## What GCOMMIT does now (12 R321) -/

/-- A command that is left, or an instruction in flight, keeps it waiting. -/
theorem commitNow_waits {s : State} {n : Nat} (ho : (s.seq n).grp.st = .open_)
    (hw : (s.seq n).grp.cmds ≠ [] ∨ (s.seq n).inflight ≠ []) : commitNow s n = .wait := by
  unfold commitNow
  dsimp only
  rw [ho]
  refine if_neg fun h => ?_
  simp only [Bool.and_eq_true, List.isEmpty_iff] at h
  obtain ⟨⟨hcmds, hin⟩, -⟩ := h
  exact hw.elim (absurd hcmds) (absurd hin)

/-- Nothing is left, and no word of a shadow waits for a landing. -/
theorem commitNow_commits {s : State} {n : Nat} (ho : (s.seq n).grp.st = .open_) (hc : (s.seq n).grp.cmds = [])
    (hi : (s.seq n).inflight = []) (hm : commitHeld s (s.seq n).grp = false) : commitNow s n = .commit := by
  unfold commitNow
  dsimp only
  rw [ho]
  exact if_pos (by rw [hc, hi, hm]; rfl)

theorem commitHeld_of_noMarks {s : State} (h : s.marks = []) (g : Group) : commitHeld s g = false :=
  List.any_eq_false.2 fun sh _ => by
    rw [Bool.not_eq_true]
    exact List.any_eq_false.2 fun w _ => by rw [State.markOn, h]; exact Bool.false_ne_true

theorem commitHeld_of_noShadows {s : State} {g : Group} (h : g.shadows = []) : commitHeld s g = false := by
  rw [commitHeld, h]
  rfl

/-! ## GCOMMIT and GABORT -/

section Commit
variable {rd : Reg} {s : State}

/-- The state that a commit leaves, with its status in xd. -/
def committed (s : State) (n : Nat) (rd : Reg) : State :=
  (commitGroup s n).1.modSeq n fun q => q.setX rd (toWord (commitGroup s n).2)

theorem commitDone_run {n : Nat} (hh : (s.seq n).held = []) : (commitDone n rd .commit).run s = .ok () (committed s n rd) := by
  unfold commitDone
  refine (Op.run_bind_ok (drainNow_run hh)).trans ?_
  exact Op.run_bind_ok (Op.run_get s)

theorem exec_gcommit_waits (h : commitNow s s.cur = .wait) (hi : ready (.gcommit rd) s) :
    exec (.gcommit rd) s = .next (s.modSeq s.cur fun q => { q with sleep := some (.gcommit rd) }) := by
  rw [exec_gcommit, execGcommit]
  refine (issue_ok (c := .stay) (t := s.modSeq s.cur fun q => { q with sleep := some (.gcommit rd) }) hi ?_).trans ?_
  · refine (Op.run_bind_ok (Op.run_get s)).trans ?_
    rw [h]
    exact Op.run_bind_ok (Op.run_modSeqOp ..)
  · rw [State.modSeq_modSeq]
    rfl

theorem exec_gcommit_commits (h : commitNow s s.cur = .commit) (hh : (s.seq s.cur).held = []) (hi : ready (.gcommit rd) s) :
    exec (.gcommit rd) s = .next ((committed s s.cur rd).modSeq s.cur fun q => q.retire (.gcommit rd) .next) := by
  rw [exec_gcommit, execGcommit]
  refine issue_ok hi ?_
  refine (Op.run_bind_ok (Op.run_get s)).trans ?_
  rw [h]
  exact Op.run_bind_ok (commitDone_run hh)

theorem exec_gcommit_reports {w : Word} (h : commitNow s s.cur = .report w) (hi : ready (.gcommit rd) s) :
    exec (.gcommit rd) s = .next (((s.closeGroup s.cur).modSeq s.cur fun q => q.setX rd w).modSeq s.cur
      fun q => q.retire (.gcommit rd) .next) := by
  rw [exec_gcommit, execGcommit]
  refine issue_ok hi ?_
  refine (Op.run_bind_ok (Op.run_get s)).trans ?_
  rw [h]
  exact Op.run_bind_ok ((Op.run_bind_ok (Op.run_modify ..)).trans (Op.run_putX ..))

/-- GCOMMIT that waits, when there is nothing to wait for any more. -/
theorem exec_groupCommit_commits {n : Nat} (hz : s.pkg.frozen = false) (hs : (s.seq n).sleep = some (.gcommit rd))
    (h : commitNow s n = .commit) (hh : (s.seq n).held = []) : exec (.groupCommit n) s =
      .next ((committed s n rd).modSeq n fun q => { q with sleep := none }.retire (.gcommit rd) .next) := by
  have done : (commitDone n rd .commit >>= fun _ => finishSleep n (.gcommit rd)).run s = _ :=
    (Op.run_bind_ok (commitDone_run hh)).trans (Op.run_modSeqOp ..)
  rw [exec_groupCommit, execGroupCommit, tryGroupCommit, hz, if_neg Bool.false_ne_true, hs]
  dsimp only
  rw [h]
  exact congrArg (occurs · s) (wake_ok hz done)

/-- The status stands in xd. -/
theorem Seq.getX_setX_self (q : Seq) (r : Reg) (v : Word) : (q.setX r v).getX r = if r = 0 then 0 else v := by
  split
  · next h => rw [h, Seq.getX_zero]
  · next h => exact Seq.getX_setX_same q r v h

/-- What a sequencer whose group has closed shows once a status has been written and it has gone on. -/
theorem seq_closed {u : State} {n : Nat} (hu : u.ungrouped n) (w : Word) {f : Seq → Seq} (hg : ∀ q, (f q).grp = q.grp)
    (hx : ∀ q, (f q).x = q.x) : let t := (u.modSeq n fun q => q.setX rd w).modSeq n f
      (t.seq n).grp = Group.none ∧ (t.seq n).getX rd = if rd = 0 then 0 else w := by
  dsimp only
  rw [State.seq_modSeq, State.seq_modSeq, hg, Seq.setX_grp, Seq.getX_congr (hx _), Seq.getX_setX_self]
  exact ⟨hu.seq, rfl⟩

end Commit

theorem exec_gabort_closes {s : State} (h : (s.seq s.cur).grp.st ≠ .none) (hi : ready .gabort s) :
    exec .gabort s = .next ((s.closeGroup s.cur).modSeq s.cur fun q => q.retire .gabort .next) := by
  rw [exec_gabort, execGabort]
  refine issue_ok hi ?_
  refine (Op.run_bind_ok (Op.run_getSeq ..)).trans ?_
  refine (Op.run_if_neg h).trans ?_
  exact Op.run_bind_ok (Op.run_modify ..)

end Sys2Proof.Machine
end

section
/-!
SUPPORT. GBEGIN and the attention commands at issue (12 R305, R311, R315), and the moves of a running command (12 R308, R314, R320).
-/
namespace Sys2Proof.Machine
open Sys2Proof.Claim

/-! ## GBEGIN (12 R315) -/

/-- Every byte of a range that has been zeroed reads 0. -/
theorem Mem.get_zero_inside (m : Mem) {lo hi x : Nat} (h : lo ≤ x ∧ x < hi) : (m.zero lo hi).get x = 0 := by
  suffices ∀ l : List Host.Cell, Memory.get x (Memory.drop lo hi l) = 0 from this m.cells
  intro l
  induction l with
  | nil => rfl
  | cons c r ih =>
    unfold Memory.drop
    split
    · exact ih
    · next hc =>
      have other : c.1 ≠ x := by
        rintro rfl
        exact hc (by simpa using h)
      rw [Memory.get, if_neg other]
      split
      · rfl
      · exact ih

/-- The group that owns an address, inside the window and outside it. -/
theorem ownerVa_inside {q : Seq} {a : Nat} (h : q.winVa ≤ a ∧ a < q.winVa + 0x200000 * q.groups.length) : ∃ k, q.ownerVa a = some k := by
  unfold Seq.ownerVa Seq.lineVa
  rw [if_pos (by rw [Bool.and_eq_true, decide_eq_true_eq, decide_eq_true_eq]; exact h)]
  exact ⟨_, rfl⟩

theorem ownerVa_outside {q : Seq} {a : Nat} (h : ¬(q.winVa ≤ a ∧ a < q.winVa + 0x200000 * q.groups.length)) : q.ownerVa a = none := by
  unfold Seq.ownerVa Seq.lineVa
  rw [if_neg (by rw [Bool.and_eq_true, decide_eq_true_eq, decide_eq_true_eq]; exact h)]
  rfl

/-- The group that GBEGIN opens over an area of k lines and its header, which hides what the area holds. -/
def Group.opened (mem : Mem) (key k : Nat) : Group :=
  { Group.none with st := .open_, area := key, nlines := k, hidden := mem.cells.filter fun c => key ≤ c.1 && c.1 < key + 64 * (k + 1) }

/-- The state in which it is open. -/
def State.opened (s : State) (n key k : Nat) : State :=
  ({ s with mem := s.mem.zero key (key + 64 * (k + 1)) } : State).modSeq n fun q => { q with grp := Group.opened s.mem key k }

/-- What GBEGIN does with the count of lines that it has read. -/
def gbeginOpen (n : Nat) (q : Seq) (a : Nat) (w : Word) : Op Ctl :=
  if w = 0 || w.toNat > 32767 then trapWith 0x0B a
  else if (q.ownerVa (a + 64 * w.toNat)).isNone then trapWith 0x14 (a + 64 * w.toNat)
  else do
    modify fun s => s.opened n (q.winPa + (a - q.winVa)) w.toNat
    pure .next

/-- Instructions whose bodies agree on the state do the same. -/
theorem issue_congr {i : Instr} {body body' : Nat → Op Ctl} {s : State} (h : (body s.cur).run s = (body' s.cur).run s) :
    issue i body s = issue i body' s := by
  unfold issue
  dsimp only
  rw [h]

/-- No pull waits for a copy or a pass where no word is marked. -/
theorem chainHeld_of_noMarks {s : State} (h : s.marks = []) (key n : Nat) : chainHeld s key n = false := by
  unfold chainHeld
  dsimp only
  rw [h]
  simp

/-- The full first word of a line of the own window, with nothing in flight, no version and nothing kept. -/
theorem pullOwn_quiet {s : State} (hq : quiet s) (hv : (s.seq s.cur).versions = []) (hk : (s.seq s.cur).kept = [])
    (hm : s.marks = []) (hs : s.soft = []) {key : Nat} (ha : key % 64 = 0) (hf : s.full key = true) (isn : BitVec 32) (i va : Nat) :
    (pullOwn s.cur isn i va key 8 false).run s = .ok (s.mem.read key 8) s := by
  have line : (s.seq s.cur).overKept key isn i (viewLine s (s.seq s.cur) key isn) =
      (s.mem.read (key / 64 * 64) 64, s.fullBits (key / 64)) := by
    rw [Seq.overKept, hk, viewLine, hv]
    rfl
  have full (w : Nat) (hw : w ∈ wordsOf key 8) : s.full (8 * w) = true := by
    obtain ⟨j, hj, rfl⟩ := List.mem_map.1 hw
    have word : 8 * (key / 8 + j) = key := by
      rw [List.mem_range] at hj
      omega
    rw [word, hf]
  obtain ⟨hi, -⟩ := hq
  unfold pullOwn
  refine (Op.run_bind_ok (Op.run_get s)).trans ?_
  refine (Op.run_if_neg (by rw [Seq.doneBelow, hi]; simp)).trans ?_
  rw [line]
  refine (Op.run_bind_ok (needFull_run (fullBits_part (by decide) full))).trans ?_
  refine (Op.run_if_neg (by rw [chainHeld_of_noMarks hm]; exact Bool.false_ne_true)).trans ?_
  refine (Op.run_bind_ok (checkSoft_run hs)).trans ?_
  refine (Op.run_if_neg (by rw [hi]; simp)).trans ?_
  rw [Op.run_pure, Mem.read_part _ (by omega), Nat.div_add_mod' key 64]

/-- A count of lines read from memory is zero as a word when it is as a number. -/
theorem toWord_num_eq_zero (m : Mem) (key : Nat) : toWord (m.num key 8) = 0 ↔ m.num key 8 = 0 := by
  rw [← BitVec.toNat_inj, toNat_num]
  rfl

section Gbegin
variable {ra : Reg} {s : State}

theorem gbegin_nested (h : (s.seq s.cur).grp.st ≠ .none) : traps (.gbegin ra) 0x15 0 0 s := by
  refine traps_of_body (exec_gbegin ..) ?_
  refine (Op.run_bind_ok (Op.run_getSeq ..)).trans ?_
  exact Op.run_if_pos (bne_iff_ne.2 h)

variable (hg : (s.seq s.cur).grp.st = .none)
include hg

theorem gbegin_misaligned (ha : (xr s ra).toNat % 64 ≠ 0) : traps (.gbegin ra) 0x04 (xr s ra) 0 s := by
  refine traps_of_body (exec_gbegin ..) ?_
  refine (Op.run_bind_ok (Op.run_getSeq ..)).trans ?_
  refine (Op.run_if_neg (by simp [hg])).trans ?_
  exact (Op.run_if_pos (bne_iff_ne.2 ha)).trans (trapWith_word ..)

variable (ha : (xr s ra).toNat % 64 = 0)
include ha

theorem gbegin_outside (hw : ¬((s.seq s.cur).winVa ≤ (xr s ra).toNat ∧
    (xr s ra).toNat < (s.seq s.cur).winVa + 0x200000 * (s.seq s.cur).groups.length)) : traps (.gbegin ra) 0x14 (xr s ra) 0 s := by
  refine traps_of_body (exec_gbegin ..) ?_
  refine (Op.run_bind_ok (Op.run_getSeq ..)).trans ?_
  refine (Op.run_if_neg (by simp [hg])).trans ?_
  refine (Op.run_if_neg (by rw [bne_iff_ne, not_not]; exact ha)).trans ?_
  rw [show (s.seq s.cur).ownerVa ((s.seq s.cur).getX ra).toNat = none from ownerVa_outside hw]
  exact trapWith_word ..

variable (hw : (s.seq s.cur).winVa ≤ (xr s ra).toNat ∧
    (xr s ra).toNat < (s.seq s.cur).winVa + 0x200000 * (s.seq s.cur).groups.length)
  (hq : quiet s) (hv : (s.seq s.cur).versions = []) (hm : s.marks = []) (hs : s.soft = [])
include hw hq hv hm hs

/-- On a quiet sequencer GBEGIN reads the count of lines at once. -/
theorem gbegin_reads (hk : ((s.seq s.cur).winPa + ((xr s ra).toNat - (s.seq s.cur).winVa)) % 64 = 0)
    (hf : s.full ((s.seq s.cur).winPa + ((xr s ra).toNat - (s.seq s.cur).winVa)) = true)
    (hst : (s.seq s.cur).stopping = []) (hkept : (s.seq s.cur).kept = []) (hl : ∀ l, l ∈ s.landings → l.so = false) :
    exec (.gbegin ra) s = issue (.gbegin ra) (fun n => gbeginOpen n (s.seq n) (xr s ra).toNat
      (toWord (s.mem.num ((s.seq s.cur).winPa + ((xr s ra).toNat - (s.seq s.cur).winVa)) 8))) s := by
  obtain ⟨owner, howner⟩ := ownerVa_inside hw
  rw [exec_gbegin, execGbegin]
  refine issue_congr ?_
  refine (Op.run_bind_ok (Op.run_getSeq ..)).trans ?_
  refine (Op.run_if_neg (by simp [hg])).trans ?_
  refine (Op.run_if_neg (by rw [bne_iff_ne, not_not]; exact ha)).trans ?_
  rw [show (s.seq s.cur).ownerVa ((s.seq s.cur).getX ra).toNat = some owner from howner]
  refine (Op.run_if_neg (by simp [hst])).trans ?_
  refine (Op.run_bind_ok (Op.run_get s)).trans ?_
  refine (Op.run_bind_ok (scalarOrder_quiet hq ..)).trans ?_
  refine (Op.run_when fun _ => scalarFar_quiet hq hl ..).trans ?_
  exact Op.run_bind_ok (pullOwn_quiet hq hv hkept hm hs hk hf ..)

omit hg ha hw hq hv hm hs

theorem gbegin_count_traps {key : Nat} (he : exec (.gbegin ra) s = issue (.gbegin ra) (fun n => gbeginOpen n (s.seq n) (xr s ra).toNat
    (toWord (s.mem.num key 8))) s) (hb : s.mem.num key 8 = 0 ∨ 32767 < s.mem.num key 8) : traps (.gbegin ra) 0x0B (xr s ra) 0 s := by
  refine traps_of_body he ((Op.run_if_pos ?_).trans (trapWith_word ..))
  rw [Bool.or_eq_true, decide_eq_true_eq, decide_eq_true_eq, toNat_num, toWord_num_eq_zero]
  exact hb

/-- A count of lines that stay in the window opens the group. -/
theorem gbegin_opens {key : Nat} (he : exec (.gbegin ra) s = issue (.gbegin ra) (fun n => gbeginOpen n (s.seq n) (xr s ra).toNat
    (toWord (s.mem.num key 8))) s) (h0 : 1 ≤ s.mem.num key 8) (h1 : s.mem.num key 8 ≤ 32767)
    (hend : (s.seq s.cur).winVa ≤ (xr s ra).toNat + 64 * s.mem.num key 8 ∧ (xr s ra).toNat + 64 * s.mem.num key 8 <
      (s.seq s.cur).winVa + 0x200000 * (s.seq s.cur).groups.length) (hi : ready (.gbegin ra) s) :
    exec (.gbegin ra) s = .next ((s.opened s.cur ((s.seq s.cur).winPa + ((xr s ra).toNat - (s.seq s.cur).winVa))
      (s.mem.num key 8)).modSeq s.cur fun q => q.retire (.gbegin ra) .next) := by
  obtain ⟨owner, howner⟩ := ownerVa_inside hend
  rw [he]
  refine issue_ok hi ?_
  refine (Op.run_if_neg ?_).trans ?_
  · rw [Bool.or_eq_true, decide_eq_true_eq, decide_eq_true_eq, toNat_num, toWord_num_eq_zero]
    omega
  rw [toNat_num, howner]
  refine (Op.run_if_neg Bool.false_ne_true).trans ?_
  exact Op.run_bind_ok (Op.run_modify ..)

end Gbegin

/-! ## Commands at issue (12 R305, R311) -/

/-- A command's record is read alike for each kind of command. -/
theorem commandRecord_kind {rc : Reg} {n : Nat} {s : State} {m : GCmd} (h : (commandRecord .kvw rc n).run s = .ok m s)
    (k : GCmdKind) : (commandRecord k rc n).run s = .ok { m with kind := k } s := by
  unfold commandRecord at h ⊢
  obtain ⟨q, s0, hq, h⟩ := Op.bind_ok h
  refine (Op.run_bind_ok hq).trans ?_
  by_cases hg : q.grp.st = .none
  · rw [Op.run_if_pos hg] at h
    cases h
  rw [Op.run_if_neg hg] at h
  refine (Op.run_if_neg hg).trans ?_
  obtain ⟨lo, s1, hlo, h⟩ := Op.bind_ok h
  obtain ⟨hi, s2, hhi, h⟩ := Op.bind_ok h
  obtain ⟨ws, s3, hws, h⟩ := Op.bind_ok h
  refine ((Op.run_bind_ok hlo).trans (Op.run_bind_ok hhi)).trans ((Op.run_bind_ok hws).trans ?_)
  dsimp only at h ⊢
  split at h
  · cases h
  · next hb =>
    cases h
    exact Op.run_if_neg hb

theorem commandRecord_kvw {rc : Reg} {n : Nat} {s : State} {m : GCmd} (h : (commandRecord .kvw rc n).run s = .ok m s) :
    m.kind = .kvw := by
  have same := (commandRecord_kind h .kvw).symm.trans h
  injection same with same
  rw [← same]

/-- Without a group a command raises SYNC. -/
theorem commandRecord_alone {n : Nat} {s : State} (h : (s.seq n).grp.st = .none) (k : GCmdKind) (rc : Reg) :
    (commandRecord k rc n).run s = .error (.trap ⟨0x15, 0, 0⟩) s := by
  unfold commandRecord
  refine (Op.run_bind_ok (Op.run_getSeq ..)).trans ?_
  exact Op.run_if_pos h

/-- A group that has not failed takes the command. -/
theorem joinGroup_run {n : Nat} {s : State} (h : (s.seq n).grp.st ≠ .failed) (m : GCmd) : (joinGroup n m).run s =
    .ok () (s.modSeq n fun q => { q with grp := { q.grp with cmds := q.grp.cmds ++ [m] } }) :=
  congrArg (fun q => EStateM.Result.ok () (s.setSeq n q)) (if_neg h)

section Command
variable {s : State} {rc ra rp : Reg} {k : GCmdKind} {m : GCmd} (hr : (commandRecord k rc s.cur).run s = .ok m s)
include hr

theorem kvIssue_past (h : 64 * m.npages < (xr s rp).toNat + (s.seq s.cur).vl) :
    (kvIssue k rc ra rp s.cur).run s = .error (.trap ⟨0x0B, xr s rc, 0⟩) s := by
  unfold kvIssue
  refine (Op.run_bind_ok hr).trans ?_
  refine (Op.run_bind_ok (Op.run_getSeq ..)).trans ?_
  exact (Op.run_if_pos h).trans (trapWith_word ..)

theorem kvIssue_misaligned (h : (xr s rp).toNat + (s.seq s.cur).vl ≤ 64 * m.npages) (hk : k = .kvw)
    (ha : (xr s ra).toNat % 64 ≠ 0) : (kvIssue k rc ra rp s.cur).run s = .error (.trap ⟨0x04, xr s ra, 0⟩) s := by
  unfold kvIssue
  refine (Op.run_bind_ok hr).trans ?_
  refine (Op.run_bind_ok (Op.run_getSeq ..)).trans ?_
  refine (Op.run_if_neg (Nat.not_lt.2 h)).trans ?_
  exact (Op.run_if_pos (Bool.and_eq_true_iff.2 ⟨beq_iff_eq.2 hk, bne_iff_ne.2 ha⟩)).trans (trapWith_word ..)

theorem kvIssue_joins (h : (xr s rp).toNat + (s.seq s.cur).vl ≤ 64 * m.npages) (ha : k = .kvw → (xr s ra).toNat % 64 = 0)
    (hg : (s.seq s.cur).grp.st ≠ .failed) : (kvIssue k rc ra rp s.cur).run s = .ok .next (s.modSeq s.cur fun q =>
      { q with grp := { q.grp with cmds := q.grp.cmds ++ [{ m with pos := (xr s rp).toNat, src := (xr s ra).toNat }] } }) := by
  unfold kvIssue
  refine (Op.run_bind_ok hr).trans ?_
  refine (Op.run_bind_ok (Op.run_getSeq ..)).trans ?_
  refine (Op.run_if_neg (Nat.not_lt.2 h)).trans ?_
  refine (Op.run_if_neg fun hb => ?_).trans (Op.run_bind_ok (joinGroup_run hg _))
  obtain ⟨hk, hne⟩ := Bool.and_eq_true_iff.1 hb
  exact bne_iff_ne.1 hne (ha (beq_iff_eq.1 hk))

end Command

/-! ## The leases that an ATTN's hint names (12 R305) -/

/-- A handle of a HELD or PARKED lease passes, and its lease is granted. -/
theorem namedLease_of_leaseOf {s : State} {kind : Nat} {h : Word} (hl : leaseOf s kind h) :
    ∃ l, (namedLease kind s.cur h).run s = .ok l s ∧ (needGranted l).run s = .ok () s := by
  obtain ⟨l, hv, hh, hk, hst, he⟩ := hl
  refine ⟨l, ?_, ?_⟩
  · unfold namedLease
    refine (Op.run_bind_ok (Op.run_get s)).trans ?_
    rw [show liveLease s (dieOf s.cur) (s.seq s.cur).ctx h = some l from hv]
    refine (Op.run_if_neg ?_).trans ?_
    · have field : fld h 24 2 = kind := hh
      simp [field, hk, he]
    · obtain hst | hst := hst
      · rw [hst]
        rfl
      · rw [hst]
        rfl
  · refine Op.run_if_neg ?_
    obtain hst | hst := hst
    · simp [hst]
    · simp [hst]

/-- A loop of checks that pass. -/
theorem Op.run_forIn_checks {α : Type} {f : α → PUnit → Op (ForInStep PUnit)} {s : State} {l : List α}
    (h : ∀ a ∈ l, (f a ⟨⟩).run s = .ok (.yield ⟨⟩) s) : (forIn l PUnit.unit f).run s = .ok ⟨⟩ s := by
  induction l with
  | nil => rfl
  | cons a l ih =>
    rw [List.forIn_cons, Op.run_bind_ok (h a List.mem_cons_self)]
    exact ih fun b hb => h b (List.mem_cons_of_mem a hb)

/-- A list of reads that answer, each with a property of its answer. -/
theorem Op.run_mapM_checks {α β : Type} {f : α → Op β} {P : β → Prop} {s : State} {l : List α}
    (h : ∀ a ∈ l, ∃ b, (f a).run s = .ok b s ∧ P b) : ∃ bs, (l.mapM f).run s = .ok bs s ∧ ∀ b ∈ bs, P b := by
  induction l with
  | nil => exact ⟨[], rfl, nofun⟩
  | cons a l ih =>
    obtain ⟨b, hb, hp⟩ := h a List.mem_cons_self
    obtain ⟨bs, hbs, hall⟩ := ih fun c hc => h c (List.mem_cons_of_mem a hc)
    refine ⟨b :: bs, ?_, List.forall_mem_cons.2 ⟨hp, hall⟩⟩
    rw [List.mapM_cons, Op.run_bind_ok hb, Op.run_bind_ok hbs]
    rfl

section Attn
variable {s : State} {rc : Reg} {hint : AttnHint} {qb nb : BitVec 16} {m : GCmd}
  (hr : (commandRecord .attn rc s.cur).run s = .ok m s)
include hr

/-- The query blocks of a command, past those of its record. -/
theorem attn_past (h : (m.nq + 15) / 16 < qb.toNat + nb.toNat + 1) : traps (.attn hint rc qb nb) 0x0B (xr s rc) 0 s := by
  refine traps_of_body (exec_attn ..) ?_
  refine (Op.run_bind_ok hr).trans ?_
  refine (Op.run_if_pos h).trans ?_
  exact (Op.run_bind_ok (Op.run_getSeq ..)).trans (trapWith_word ..)

/-- With the leases that its hint names the command joins the group. -/
theorem exec_attn_joins (hk : m.kind = .attn) (h : qb.toNat + nb.toNat + 1 ≤ (m.nq + 15) / 16)
    (hae : hint ≠ .me → leaseOf s 1 (m.w 0)) (hme : hint ≠ .ae → leaseOf s 0 (m.w 1)) (hg : (s.seq s.cur).grp.st ≠ .failed)
    (hi : ready (.attn hint rc qb nb) s) : exec (.attn hint rc qb nb) s = .next (done (.attn hint rc qb nb) .next (fun q =>
      { q with grp := { q.grp with cmds := q.grp.cmds ++
        [{ m with hint := hint, qb0 := qb.toNat, nqb := nb.toNat + 1 }] } }) s) := by
  have words : ∀ k ∈ GCmd.handles { m with hint := hint, qb0 := qb.toNat, nqb := nb.toNat + 1 },
      leaseOf s (if k = 0 then 1 else 0) (m.w k) := by
    unfold GCmd.handles
    rw [hk]
    cases hint with
    | ae => exact List.forall_mem_singleton.2 (hae nofun)
    | me => exact List.forall_mem_singleton.2 (hme nofun)
    | auto => exact List.forall_mem_cons.2 ⟨hae nofun, List.forall_mem_singleton.2 (hme nofun)⟩
  obtain ⟨ls, hls, granted⟩ := Op.run_mapM_checks fun k hk' => namedLease_of_leaseOf (words k hk')
  refine exec_done (t := s) (exec_attn ..) rfl ?_ hi
  refine (Op.run_bind_ok hr).trans ?_
  refine (Op.run_if_neg (Nat.not_lt.2 h)).trans ?_
  refine (Op.run_bind_ok hls).trans ?_
  refine (Op.run_bind_ok (Op.run_forIn_checks fun l hl => (Op.run_bind_ok (granted l hl)).trans rfl)).trans ?_
  exact Op.run_bind_ok (joinGroup_run hg _)

end Attn

/-! ## A running command (12 R308, R314, R320) -/

/-- A change of a sequencer that comes to the same is the same. -/
theorem State.modSeq_congr {s : State} {n : Nat} {f g : Seq → Seq} (h : f (s.seq n) = g (s.seq n)) : s.modSeq n f = s.modSeq n g :=
  congrArg (s.setSeq n) h

section Running
variable {s : State} {n : Nat} {m : GCmd} {r : List GCmd} (hc : commanding s n m r)
include hc

/-- A move of the first command that completes. -/
theorem groupUnit_ok {body : GCmd → Op Unit} {u : State} (h : (body m).run s = .ok () u) : groupUnit n body s = some (.next u) := by
  obtain ⟨hz, ho, hruns, hcmds, -⟩ := hc
  unfold groupUnit
  dsimp only
  rw [if_neg (by simp [hz, ho]), hcmds]
  dsimp only
  rw [if_neg (by simp [hruns])]
  exact unitMove_ok ((Op.run_bind_ok (Op.run_attempt_ok h)).trans rfl)

/-- A change of the first command. -/
theorem modHead_run (f : GCmd → GCmd) : (modHead n f).run s =
    .ok () (s.modSeq n fun q => { q with grp := { q.grp with cmds := f m :: r } }) := by
  obtain ⟨-, -, -, hcmds, -⟩ := hc
  refine congrArg (EStateM.Result.ok ()) (State.modSeq_congr ?_)
  dsimp only
  rw [hcmds]

/-- The first command begins, an ATTN with its choice. -/
theorem exec_groupCommandRun_begins (hb : m.began = false) : exec (.groupCommandRun n) s = .next (s.modSeq n fun q =>
    { q with grp := { q.grp with cmds := { m with
      began := true, onMatrix := m.kind == .attn && attnMatrix s n m, chose := m.kind == .attn } :: r } }) := by
  have begins := groupUnit_ok hc (body := fun m => do
    let s ← get
    if !m.began then
      let mx := attnMatrix s n m
      modHead n fun m => { m with began := true, onMatrix := m.kind == .attn && mx, chose := m.kind == .attn }
    else if m.kind == .attn then waitFor .other
    else kvRun n m) ((Op.run_bind_ok (Op.run_get s)).trans ((Op.run_if_pos (by rw [hb]; rfl)).trans (modHead_run hc _)))
  exact congrArg (occurs · s) begins

/-- A move of the engine of a running ATTN, with what its lease allows. -/
theorem exec_attnQueryBlock_move (hb : m.began = true) (hk : m.kind = .attn) {b : Option Bool} {u : State} (ha : attnLease s n m = b)
    (h : (match b with
      | none => failGroup n 1 m.isn
      | some false => waitFor .other
      | some true =>
        if m.page < m.npages then do
          let m' ← attnPage n m m.rowsNow
          modHead n fun _ => m'
        else attnBlockEnd n m m.rowsNow).run s = .ok () u) : exec (.attnQueryBlock n) s = .next u := by
  have hstop : (s.seq n).stopping = [] := hc.2.2.2.2
  rw [exec_attnQueryBlock, execAttnQueryBlock, tryAttnQueryBlock, hstop]
  dsimp only
  rw [groupUnit_ok hc]
  · rfl
  · refine (Op.run_bind_ok (Op.run_get s)).trans ?_
    refine (Op.run_if_neg (by simp [hb, hk])).trans ?_
    rw [ha]
    exact h

end Running

end Sys2Proof.Machine
end

section
/-!
SUPPORT. What the clauses of O48 assert, from the rules of the two sections above.
-/
namespace Sys2Proof.Machine
open Sys2Proof.Claim

section Issue
variable {s : State}

/-- Without a group each instruction that needs one raises SYNC (12 R305, R311, R317, R322). -/
theorem group_needed (h : (s.seq s.cur).grp.st = .none) (rd ra rc rp : Reg) (hint : AttnHint) (qb nb : BitVec 16) :
    traps (.gcommit rd) 0x15 0 0 s ∧ traps .gabort 0x15 0 0 s ∧ traps (.attn hint rc qb nb) 0x15 0 0 s ∧
      traps (.kvw rc ra rp) 0x15 0 0 s ∧ traps (.kvinv rc ra rp) 0x15 0 0 s := by
  refine ⟨traps_of_body (exec_gcommit ..) ?_, traps_of_body (exec_gabort ..) ?_, traps_of_body (exec_attn ..) ?_,
    traps_of_body (exec_kvw ..) ?_, traps_of_body (exec_kvinv ..) ?_⟩
  · refine (Op.run_bind_ok (Op.run_get s)).trans ?_
    rw [show commitNow s s.cur = .sync by unfold commitNow; dsimp only; rw [h]]
    rfl
  · refine (Op.run_bind_ok (Op.run_getSeq ..)).trans ?_
    exact Op.run_if_pos h
  · exact Op.run_bind_error (commandRecord_alone h ..)
  · exact Op.run_bind_error (commandRecord_alone h ..)
  · exact Op.run_bind_error (commandRecord_alone h ..)

/-- What stands in the sequencer and in memory once GBEGIN has opened a group. -/
theorem opened_shows {n key k : Nat} {f : Seq → Seq} (hf : ∀ q, (f q).grp = q.grp) :
    let t := (s.opened n key k).modSeq n f
    (t.seq n).grp.st = .open_ ∧ (t.seq n).grp.area = key ∧ (t.seq n).grp.nlines = k ∧ (t.seq n).grp.cmds = [] ∧
      (t.seq n).grp.shadows = [] ∧
      ∀ b, t.mem.get b = if key ≤ b ∧ b < key + 64 * (k + 1) then 0 else s.mem.get b := by
  dsimp only
  rw [State.seq_modSeq, hf, State.opened, State.seq_modSeq]
  refine ⟨rfl, rfl, rfl, rfl, rfl, fun b => ?_⟩
  change (s.mem.zero key (key + 64 * (k + 1))).get b = _
  split
  · next h => exact Mem.get_zero_inside _ h
  · next h => exact Mem.get_zero_other _ _ _ _ (by omega)

/-- GCOMMIT of a failed group reports the command and its status. -/
theorem commitNow_failed {n : Nat} (h : (s.seq n).grp.st = .failed) : commitNow s n =
    .report (toWord ((s.seq n).grp.faultIsn.toNat * 2 ^ 32 + (s.seq n).grp.fault.cause)) := by
  unfold commitNow
  dsimp only
  rw [h]

end Issue

section Running
variable {s : State} {n : Nat} {m : GCmd} {r : List GCmd} (hc : commanding s n m r)
include hc

/-- A KVW or KVINV begins, and chooses no engine. -/
theorem exec_groupCommandRun_other (hb : m.began = false) (hk : m.kind ≠ .attn) : exec (.groupCommandRun n) s =
    .next (s.modSeq n fun q => { q with grp := { q.grp with cmds :=
      { m with began := true, onMatrix := false, chose := false } :: r } }) := by
  rw [exec_groupCommandRun_begins hc hb, beq_false_of_ne hk]
  rfl

/-- An ATTN begins, and has chosen its engine. -/
theorem exec_groupCommandRun_attn (hb : m.began = false) (hk : m.kind = .attn) : exec (.groupCommandRun n) s =
    .next (s.modSeq n fun q => { q with grp := { q.grp with cmds :=
      { m with began := true, onMatrix := attnMatrix s n m, chose := true } :: r } }) := by
  rw [exec_groupCommandRun_begins hc hb, hk]
  rfl

/-- A lost lease fails the group, with what GCOMMIT reports of it (12 R320; log 60). -/
theorem exec_attnQueryBlock_lost (hb : m.began = true) (hk : m.kind = .attn)
    (hl : liveLease s (n / 16) m.ctx (m.w (if m.onMatrix then 1 else 0)) = none) : exec (.attnQueryBlock n) s =
      .next (s.modSeq n fun q => { q with grp := { q.grp with
        st := .failed, cmds := [], shadows := [], fault := ⟨1, 0, 0⟩, faultIsn := m.isn } }) :=
  exec_attnQueryBlock_move hc hb hk (b := none) (by unfold attnLease; rw [dieOf, hl]) rfl

/-- With a lease that is held the engine does the next page of its query block. -/
theorem exec_attnQueryBlock_page {l : Lease} {u : State} {m' : GCmd} (hb : m.began = true) (hk : m.kind = .attn)
    (hp : m.page < m.npages) (hl : liveLease s (n / 16) m.ctx (m.w (if m.onMatrix then 1 else 0)) = some l)
    (hst : l.st = .held) (he : l.evicting = false) (hrun : (attnPage n m m.rowsNow).run s = .ok m' u) :
    exec (.attnQueryBlock n) s = .next (u.modSeq n fun q => { q with grp := { q.grp with cmds :=
      match q.grp.cmds with
        | _ :: r => m' :: r
        | [] => [] } }) := by
  have runs : s.runs m.ctx = true := hc.2.2.1
  have may : s.canBegin m.ctx = true := by
    simp only [State.runs, Bool.and_eq_true] at runs
    exact runs.1
  have lease : attnLease s n m = some true := by
    unfold attnLease
    rw [dieOf, hl]
    dsimp only
    rw [hst, may, runs, he]
    simp
  refine exec_attnQueryBlock_move hc hb hk lease ((Op.run_if_pos hp).trans ((Op.run_bind_ok hrun).trans ?_))
  exact congrArg (EStateM.Result.ok ()) (State.modSeq_congr rfl)

end Running

end Sys2Proof.Machine
end

namespace Sys2Proof.Proofs
open Sys2Proof.Machine Sys2Proof.Claim

/-- Settles O48: a group's instructions by what their bodies do at issue, a commit and an abort by the sequencer that a closed group
leaves, and the running command by what its lease allows. -/
theorem commandGroups : Obligations.CommandGroups := by
  intro s rd ra rc rp hint qb nb n q g a alone sync
  refine ⟨fun h => group_needed h .., gbegin_nested, gbegin_misaligned, gbegin_outside, ?_, fun ho hi => ?_, fun m ho hf hm => ?_,
    fun ho hw => exec_gcommit_waits (commitNow_waits ho hw), fun ho hc hq hm hh ha hi => ?_, fun hf hi => ?_,
    fun hz hsl ho hc hq hs hh hd => ?_, fun k m r hc => ⟨exec_groupCommandRun_other hc, exec_groupCommandRun_attn hc,
      fun hb hk hl => ⟨_, exec_attnQueryBlock_lost hc hb hk hl, rfl, ?_⟩,
      fun l u m' hb hk hp hl hst he => exec_attnQueryBlock_page hc hb hk hp hl hst he⟩⟩
  · intro hg ha hlo hhi hq hv hm hs key w hk hf _ _ hst hkept hl
    have reads := gbegin_reads hg ha ⟨hlo, hhi⟩ hq hv hm hs hk hf hst hkept hl
    refine ⟨gbegin_count_traps reads, fun h0 h1 hend _ hi => ⟨_, gbegin_opens reads h0 h1 ⟨hlo.trans (Nat.le_add_right ..), hend⟩ hi, ?_⟩⟩
    exact opened_shows fun q => Seq.retire_grp ..
  · refine ⟨_, exec_gabort_closes ho hi, ?_, closeGroup_mem ho⟩
    rw [State.seq_modSeq, Seq.retire_grp]
    exact (closeGroup_ungrouped ho).seq
  · intro p joins
    have kvinv := commandRecord_kind hm .kvinv
    have attn := commandRecord_kind hm .attn
    refine ⟨fun h => ⟨traps_of_body (exec_kvw ..) (kvIssue_past hm h), traps_of_body (exec_kvinv ..) (kvIssue_past kvinv h)⟩,
      fun h => ⟨exec_done (t := s) (exec_kvinv ..) rfl (kvIssue_joins kvinv h nofun hf), fun ha => ?_, fun ha => ?_⟩,
      attn_past (m := { m with kind := .attn }) attn, fun h hae hme => exec_attn_joins attn rfl h hae hme hf⟩
    · exact traps_of_body (exec_kvw ..) (kvIssue_misaligned hm h rfl ha)
    · exact exec_done (t := s) (exec_kvw ..) rfl (kvIssue_joins hm h (fun _ => ha) hf)
  · have present : g.st ≠ .none := by rw [ho]; nofun
    obtain ⟨hin, hheld⟩ := hq
    have closed := seq_closed (rd := rd) (commitGroup_ungrouped present) (toWord (commitGroup s n).2)
      (f := fun q => q.retire (.gcommit rd) .next) (fun q => Seq.retire_grp ..) (fun q => Seq.retire_x ..)
    obtain ⟨hgrp, hx⟩ := closed
    refine ⟨_, exec_gcommit_commits (commitNow_commits ho hc hin (commitHeld_of_noMarks hm _)) hheld hi, hgrp, fun h => ?_,
      fun sh hd hs hsc hlen => ⟨?_, fun k _ hk => commitGroup_mem present ha hd hs hsc hk⟩⟩
    · refine hx.trans ?_
      rw [commitGroup_conflict h]
      rfl
    · refine hx.trans ?_
      rw [commitGroup_current hd (by rw [hs, List.any_cons, hsc]; rfl)]
      exact ite_self 0
  · have present : g.st ≠ .none := by rw [hf]; nofun
    refine ⟨_, exec_gcommit_reports (commitNow_failed hf) hi, ?_⟩
    exact seq_closed (closeGroup_ungrouped present) _ (fun q => Seq.retire_grp ..) (fun q => Seq.retire_x ..)
  · have present : g.st ≠ .none := by rw [ho]; nofun
    obtain ⟨hin, hheld⟩ := hq
    have current : commitGroup s n = ((s.closeGroup n).displace (s.oldLines n), 0) := by
      rw [commitGroup_current hd (by rw [hs]; rfl), hs]
      rfl
    have closed := seq_closed (rd := rd) (commitGroup_ungrouped present) (toWord (commitGroup s n).2)
      (f := fun q => { q with sleep := none }.retire (.gcommit rd) .next) (fun q => Seq.retire_grp ..) (fun q => Seq.retire_x ..)
    obtain ⟨hgrp, hx⟩ := closed
    refine ⟨_, exec_groupCommit_commits hz hsl (commitNow_commits ho hc hin (commitHeld_of_noShadows hs)) hheld, ?_, hgrp, ?_, ?_⟩
    · change (commitGroup s n).1.mem = s.mem
      rw [current]
      exact closeGroup_mem present hh hs
    · refine hx.trans ?_
      rw [current]
      exact ite_self 0
    · rw [State.seq_modSeq, Seq.retire_sleep]
  · rw [State.seq_modSeq]
    exact ⟨rfl, rfl, rfl, rfl, rfl⟩

end Sys2Proof.Proofs
